-- ==== Sys2Proof/Word.lean ====
section
/-! DEFINITION. The word types of the model. Everything a test could show wrong (byte order, bit fields, saturation)
stands in the files under Sys2Proof/Machine/. -/

namespace Sys2Proof

/-- One byte of memory, of a packet or of a record. -/
abbrev Byte := BitVec 8

/-- A half word: SEQ and TAG of a handle (Table 2-2). -/
abbrev Half := BitVec 16

/-- A 32-bit register or counter. -/
abbrev Word := BitVec 32

/-- A 64-bit register or counter. -/
abbrev Dword := BitVec 64

/-- A run of bytes, the byte at the lowest address first (R4). -/
abbrev Bytes := List Byte

end Sys2Proof
end

