-- ==== Sys2Proof/Syntax.lean ====
section
/-! DEFINITION. The commands of the block: one constructor of `Instr` for each row of spec/opcode_table.json, with the
operands the spec gives it. The table gives no row any bits, so nothing here is an encoding. -/

namespace Sys2Proof

/-- The 8-bit status codes of Table 17-8 (R379). -/
inductive Status where
  | ok | empty | partialStop | shapeOver | badDescriptor | ringOverrun | rearmConflict
  | pageFault | pagePoisoned | memberWithdrawn | chunkPoisoned | vatWaitTimeout | groupFenced
  | staleClaim | tableBusy | indexSnapshotExpired | thermalHold | unsyncedTime | internal
  deriving DecidableEq, Repr

/-- A buffer handle (R26, Table 2-2), field by field. -/
structure Handle where
  status : Status
  pred   : Nat        -- 0-15
  last   : Bool
  seq    : Half
  bytes  : Nat
  pool   : Nat        -- 0x00-0xEF pool, 0xFE ring slot, 0xFF none
  tag    : Half
  addr   : Nat
  deriving DecidableEq, Repr

/-- The number formats of Table 3-1. -/
inductive NumFmt where
  | fp64 | fp32 | bf16 | fp16 | e5m2 | e4m3 | e3m2 | e2m3 | e2m1 | int64 | int32 | int8 | int4
  deriving DecidableEq, Repr

/-- What a command taken from a submission entry carries beside its arguments (R371, Table 17-5): the function, the
function-local ring, USER and QUIET. FENCE acts on decoding alone (R373). -/
structure HostHdr where
  fn    : Nat
  ring  : Nat
  user  : Dword
  quiet : Bool
  deriving DecidableEq, Repr

/-- An address argument (R377): AS 0 module physical, 1 host IOVA. -/
structure AddrArg where
  space : Nat
  addr  : Nat
  deriving DecidableEq, Repr

/-- Who reaches the set-up window (R437, R439). -/
inductive Requester where
  | host
  | core (cluster : Nat)
  | controller
  deriving DecidableEq, Repr

/-- The fields of a VEC work descriptor that every VEC operation uses (the spec gives no byte layout for it): the core,
the ports it pops in operand order, the port it pushes, the tile's extents, the format of its input elements, TAG, whether
the tile is the descriptor's last, and NOTIFY. (DESIGN CHOICE, log 53.) -/
structure VecIO where
  core    : Nat
  inPorts : List Nat
  outPort : Nat
  m       : Nat
  n       : Nat
  inFmt   : NumFmt
  tag     : Half
  last    : Bool
  notify  : Bool
  deriving DecidableEq, Repr

/-- The fields of the work descriptor of a comparison: those of every VEC operation, and its ACB (R52). (DESIGN CHOICE,
log 53.) -/
structure VecCmpIO extends VecIO where
  acb     : Byte
  deriving DecidableEq, Repr

/-- Element-wise operations of VEC (R66, R113). `finish` is the division of R113; squareRoot, remainder and roundToIntegral are the
operations of IEEE 754-2019 that strict mode has beside the five of fast mode (Table 3-8). -/
inductive EltOp where
  | add | sub | mul | fma | div | finish | sqrt | rem | rint
  deriving DecidableEq, Repr

/-- The two sides of a stream unit. -/
inductive Side where
  | load | store
  deriving DecidableEq, Repr

/-- How a host read ended (R403). -/
inductive ReadEnd where
  | data | poisoned | error
  deriving DecidableEq, Repr

/-- A collective message (R257) with what its kind carries: the sending rank, payload bytes, poison, and the stamps of R280. -/
structure CollMsg where
  gtag   : Word
  group  : Nat
  seq    : Word
  op     : Nat
  etype  : Nat
  otype  : Nat
  red    : Nat
  count  : Nat
  chunk  : Nat
  src    : Nat
  payload : Bytes
  poison  : Bool
  early   : Nat
  late    : Nat
  lateRank : Nat
  synced  : Bool
  deriving DecidableEq, Repr

/-- A lend request packet (Table 14-8) with the packet fields it is judged by. -/
structure LendReqPkt where
  src    : Nat
  tag    : Word
  op     : Nat
  grant  : Nat
  gen    : Nat
  frame  : Nat
  offset : Nat
  rlen   : Nat
  rid    : Nat
  payload : Bytes
  deriving DecidableEq, Repr

/-- A lend response packet (Table 14-8). -/
structure LendRspPkt where
  tag    : Word
  op     : Nat
  status : Status
  offset : Nat
  rlen   : Nat
  rid    : Nat
  payload : Bytes
  deriving DecidableEq, Repr

/-- A discovery record (R297). -/
structure DiscRec where
  digest : Dword
  addr   : Nat
  port   : Nat
  link   : Nat
  width  : Nat
  mstate : Nat
  bypass : Bool
  deriving DecidableEq, Repr

/-- What the far end of a link shows while it trains (R284, R285). -/
structure PeerInfo where
  digest : Dword
  port   : Nat
  link   : Nat
  width  : Nat
  deriving DecidableEq, Repr

/-- A fabric packet (R292, Table 13-6). -/
structure Packet where
  kind  : Nat
  vc    : Nat
  dl    : Bool
  dst   : Nat
  src   : Nat
  hops  : Nat
  len   : Nat
  tag32 : Word
  kw    : Bytes
  payload : Bytes
  reservedClear : Bool
  deriving DecidableEq, Repr

/-- A Churn handshake (R239): the ring's tag, its size and the sender's rank. -/
structure Shake where
  ringTag : Word
  n       : Nat
  rank    : Nat
  deriving DecidableEq, Repr

/-- The atomic memory operations of R317. -/
inductive AmoOp where
  | add | swap | and | or | xor | min | max | minu | maxu | lr | sc
  deriving DecidableEq, Repr

/-- The causes of a failed stack (R326). -/
inductive StackCause where
  | train | link | ueRate | sensor
  deriving DecidableEq, Repr

/-- The causes of a failed flash channel (R329). -/
inductive FlashCause where
  | train | noAnswer | ueRate
  deriving DecidableEq, Repr

/-- The upkeep a channel's layer performs (R330, R341). -/
inductive Upkeep where
  | relocate | collect | refresh | badBlock
  deriving DecidableEq, Repr

/-- What one sensor sweep reads (R394): 64 temperatures in the order of THM_TEMP, none for a sensor that does not answer;
the input in mV and W; mV and W of each rail. -/
structure Sweep where
  temps : List (Option Int)
  inMv  : Nat
  inW   : Nat
  rails : List (Nat × Nat)
  deriving DecidableEq, Repr

/-- What Thaw finds in the package (R390, R391, R428): stacks and flash channels that fail training, and whether the PUF
secret is reconstructed. -/
structure ThawFinds where
  stackFails : List Nat
  flashFails : List Nat
  pufOk      : Bool
  deriving DecidableEq, Repr

/-- The commands of the block, one constructor per row of the table, in the table's order. -/
inductive Instr where
  | graphLoad (h : HostHdr) (image : AddrArg)
  | graphStart (h : HostHdr) (gid : Half) (startAt : Dword)
  | timedStartFire (slot : Nat)
  | graphPause (h : HostHdr) (gid : Half)
  | graphPauseDone (slot : Nat)
  | graphResume (h : HostHdr) (gid : Half)
  | graphUnload (h : HostHdr) (gid : Half)
  | stallUsExpiry (slot : Nat)
  | streamRearm (h : HostHdr) (gid : Half) (station : Nat) (rec : BitVec 128)
  | cluSuRearm (cluster : Nat) (upper : Bool) (value : Dword)
  | tableLoad (h : HostHdr) (image : AddrArg) (segCount : Nat) (mask : Half) (block : Bool)
  | tableReloadRun
  | sfuBankSwitch (core : Nat)
  | wcReset (h : HostHdr) (cluster : Nat) (base limit : Word)
  | cluWcReset (cluster : Nat) (value : Dword)
  | workCounterResetApply (cluster : Nat)
  | claim (core : Nat)
  | commit (core : Nat) (epoch : Byte) (index : Word)
  | groupOpen (h : HostHdr) (rec : AddrArg)
  | groupReset (h : HostHdr) (group : Nat)
  | groupClose (h : HostHdr) (group : Nat)
  | cableCheck (h : HostHdr) (plan report : AddrArg)
  | lendCopy (h : HostHdr) (rec : AddrArg)
  | memLendPost (cluster : Nat) (addr : Nat)
  | wheyXfer (h : HostHdr) (rec : AddrArg)
  | flsWheyPost (cluster : Nat) (addr : Nat)
  | wheyPut (xfer : Nat)
  | wheyGet (xfer : Nat)
  | wheyMoveOut (xfer : Nat)
  | wheyMoveIn (xfer : Nat)
  | wheyAlloc (xfer : Nat)
  | wheyFree (xfer : Nat)
  | wheyTransferDone (xfer : Nat)
  | ringCreate (h : HostHdr) (desc : BitVec 256)
  | ringDelete (h : HostHdr) (ring : Nat)
  | almanac (h : HostHdr) (buf : AddrArg) (len : Word) (resync : Bool)
  | almGo (fn : Nat) (addr : Dword) (len : Word) (value : Word)
  | sqTail (fn ring : Nat) (width : Nat) (value : Word)
  | cqHead (fn ring : Nat) (width : Nat) (value : Word)
  | sqFetch (fn ring : Nat)
  | msixModerationExpiry (fn ring : Nat)
  | functionLevelReset (fn : Nat)
  | perstNLow
  | atsResponse (core : Nat) (side : Side) (iova : Nat) (present : Bool)
  | hostReadCompletion (core : Nat) (tile : Nat) (how : ReadEnd)
  | hifSetupLock (value : Word)
  | hifRing0 (fn : Nat) (word : Nat) (value : Dword)
  | registerWrite (req : Requester) (offset : Nat) (width : Nat) (value : Dword)
  | queuePush (slot station port : Nat) (h : Handle) (release : Option Nat)
  | queuePop (slot station port : Nat) (release : Bool)
  | loadDescriptor (core : Nat)
  | storeDescriptor (core : Nat)
  | streamTransferDone (core : Nat) (tile : Nat)
  | storeTileWritten (core : Nat)
  | claimTemplate (core : Nat)
  | smallTransfer (cluster : Nat) (slotAddr : Nat) (cmd : BitVec 256)
  | smallTransferDone (cluster : Nat)
  | mmaDescriptor (core : Nat)
  | sfuOperation (io : VecIO) (rec : Word)
  | rms (io : VecIO) (rec : BitVec 256)
  | layerNorm (io : VecIO) (rec : BitVec 256)
  | outputStage (io : VecIO) (rec : BitVec 384)
  | curdEnc (io : VecIO) (rec : Word) (dpool : Nat)
  | vecEq (io : VecCmpIO)
  | vecNe (io : VecCmpIO)
  | vecLt (io : VecCmpIO)
  | vecLe (io : VecCmpIO)
  | vecGt (io : VecCmpIO)
  | vecGe (io : VecCmpIO)
  | vecMax (io : VecIO) (acb : Byte)
  | vecMin (io : VecIO) (acb : Byte)
  | vecMaxnum (io : VecIO) (acb : Byte)
  | vecMinnum (io : VecIO) (acb : Byte)
  | ssaAttend (stack : Nat)
  | descriptorTileArrival (stack : Nat)
  | ssaJobClose (stack : Nat)
  | attend (cluster : Nat)
  | prepare (cluster : Nat)
  | extend (cluster : Nat)
  | kvCommit (cluster : Nat)
  | fork (cluster : Nat)
  | truncate (cluster : Nat)
  | release (cluster : Nat)
  | score (cluster : Nat)
  | moveBegin (cluster : Nat)
  | moveEnd (cluster : Nat)
  | moveAbort (cluster : Nat)
  | freeze (cluster : Nat)
  | unfreeze (cluster : Nat)
  | sequenceLockGrant (cluster : Nat)
  | frameReclaim (pool : Nat)
  | kvcPool (req : Requester) (pool : Nat) (word : Nat) (value : Dword)
  | poolInitDone (pool : Nat)
  | kvcCurveCommit (value : Word)
  | churnOpen (die : Nat)
  | churnRotate (die : Nat)
  | churnClose (die : Nat)
  | churnHandshakeArrival (die ctx : Nat) (west : Bool) (shake : Shake)
  | ringTileArrival (die : Nat) (west : Bool) (tile : Bytes)
  | churnCreditArrival (die ctx : Nat) (west : Bool) (credits rttNs : Nat)
  | churnTimeout (die ctx : Nat) (west : Bool)
  | collBcast (die : Nat)
  | collAllgather (die : Nat)
  | collAlltoall (die : Nat)
  | collAlltoallv (die : Nat)
  | collAllreduce (die : Nat)
  | collReduceScatter (die : Nat)
  | collAttnMerge (die : Nat)
  | grantArrival (die : Nat) (msg : CollMsg)
  | chunkArrival (die : Nat) (msg : CollMsg)
  | resultChunkArrival (die : Nat) (msg : CollMsg)
  | acknowledgementArrival (die : Nat) (msg : CollMsg)
  | retire (die : Nat) (msg : CollMsg)
  | fence (die : Nat) (msg : CollMsg) (frank : Nat) (status : Status) (cause : Nat)
  | withdraw (die : Nat) (msg : CollMsg)
  | chunkUsExpiry (die group : Nat)
  | vatWaitTimeout (die group : Nat)
  | scanQuery (channel : Nat)
  | scanInsert (channel : Nat)
  | scanDelete (channel : Nat)
  | indexBatchDurable (index : Nat)
  | scanHarvest (channel : Nat)
  | scanCreate (channel : Nat)
  | scanDestroy (channel : Nat)
  | skimMerge (die : Nat)
  | updateAliasWrite (addr : Nat) (data : Bytes)
  | amo (cluster : Nat) (op : AmoOp) (wide : Bool) (addr : Nat) (value : Dword)
  | compareAndSwap (channel : Nat) (addr : Nat) (expected new : Word)
  | patrolScrub (stack : Nat)
  | memMarginCtl (value : Word)
  | marginSweepDone (results : List Half)
  | stackFail (stack : Nat) (cause : StackCause)
  | memLendGrant (grant : Nat) (word : Nat) (value : Dword)
  | revoke (grant : Nat)
  | revokeDone (grant : Nat)
  | lendReq (die : Nat) (pkt : LendReqPkt)
  | lendRsp (die : Nat) (pkt : LendRspPkt)
  | lendTimeout (die : Nat) (copy : Nat)
  | flsPool (pool : Nat) (value : Dword)
  | flashScanDone
  | flashUpkeep (channel : Nat) (what : Upkeep)
  | flashChannelFail (channel : Nat) (cause : FlashCause)
  | fabTrain (value : Word)
  | linkPhaseDone (link : Nat) (peer : PeerInfo)
  | trainTimeout (link : Nat)
  | linkRestart (link : Nat)
  | lossOfSignal (link : Nat)
  | frameReceive (link : Nat) (cells : List (BitVec 544))
  | replayTimeout (link : Nat)
  | packetForward (die : Nat)
  | fabStallExpiry (link vc : Nat) (dl : Bool)
  | fabRtEntry (req : Requester) (value : Word)
  | fabLshape (which : Nat) (value : Dword)
  | disc (link : Nat) (rec : DiscRec)
  | fabDiscover (value : Word)
  | eqxInterval
  | eqxRequest (link : Nat) (t1 : Nat)
  | eqxReply (t1 t2 t3 t4 : Nat) (sync : Bool)
  | eqxLockLoss
  | fabEqxSet (value : Dword)
  | fabEqxTime (req : Requester)
  | inputRise (mv : Nat) (slotId : BitVec 4)
  | undervoltage (mv : Nat)
  | overvoltage (mv : Nat)
  | inputLoss (mv : Nat)
  | railFault (rail : Nat)
  | modRstNRise
  | modRstNLow
  | thawSequence (finds : ThawFinds)
  | treeRegeneration
  | bottomTreeReplacement
  | idleReq
  | wake
  | pwrCtrlWake
  | wakeDone
  | sensorSweep (sweep : Sweep)
  | thmDieCurve (value : Word)
  | cluWdogExpiry (cluster : Nat)
  | cluWdogKick (cluster : Nat)
  | controllerWatchdogExpiry
  | read32 (offset : Nat)
  | write32 (offset : Nat) (value : Word)
  | thaw
  | shutdown
  | stageOpen (kind : Nat)
  | stageData (offset : Nat) (data : Bytes)
  | stageClose (length : Nat)
  | ownerData (offset : Nat) (data : Bytes)
  | ownerCommit
  | attest (nonce : Bytes) (cert : Bool)
  | attestRead (offset : Nat)
  | secAttCtrl (value : Word)
  | secStageCtrl (value : Word)
  | secOwnerCtrl (value : Word)
  | telAlarmSum (value : Dword)
  | telEvtHead (value : Word)
  | eventMirrorCopy
  | eventMirrorSignal
  | traceSample
  | codewordReadDone (channel : Nat) (query : Nat) (poisoned : Bool)
  | harvestDone (index : Nat)
  | resetExchangeArrival (die group rank : Nat) (retired : Word)
  | msixVectorUnmask (fn vector : Nat)
  | pcieLinkRetrain (rate lanes : Nat) (flit : Bool)
  | configurationRequest
  | atsInvalidation (iova : Nat) (bytes : Nat)
  | elementWiseArithmetic (io : VecIO) (op : EltOp) (acb : Byte)
  | conversion (io : VecIO) (outFmt : NumFmt) (mx : Bool) (acb : Byte)
  | sketch (io : VecIO)
  deriving DecidableEq, Repr

end Sys2Proof
end

