-- ==== Sys2Proof/Decode.lean ====
section
/-! DEFINITION. The command a word spells by the table's bits. The table gives no row any bits, so no word spells one. -/

namespace Sys2Proof

/-- The command that `nbits` bits of value `w` spell: none, since spec/opcode_table.json gives no row an encoding.
(DESIGN CHOICE, log 1.) -/
def decodeTableWord (_nbits _w : Nat) : Option Instr := none

end Sys2Proof
end

