-- ==== Sys2Proof/Config.lean ====
section
/-! DEFINITION. What an implementation fixes and the spec does not give: free values without a body, so that no proof can
see what they are. -/

namespace Sys2Proof.Config

/-- Which of several free buffers, ports or frames is taken where the spec names no order: an index into the candidates.
(DESIGN CHOICE, log 5.) -/
opaque pick : Nat → Nat

/-- Bytes the spec leaves unspecified (R159, R226, R322): byte `i` of the `n`th such value. (DESIGN CHOICE, log 5.) -/
opaque freeByte : Nat → Nat → Byte

/-- An unspecified number, taken modulo the width of its field. (DESIGN CHOICE, log 5.) -/
opaque freeNat : Nat → Nat

/-- Row and column of the element that byte `i` of an `n`-byte tile belongs to, for tiles whose layout the STORE that writes them
is not told (R131). (DESIGN CHOICE, log 65.) -/
opaque tileElement : Nat → Nat → Nat × Nat

/-- How an alarm's or an event's argument packs several numbers (Tables 19-2 and 19-5 name them and give no layout).
(DESIGN CHOICE, log 9.) -/
opaque argPack : List Nat → Nat

/-- How the kind words of a packet, or a small message, hold their numbers where no table lays them out (Tables 13-6, 13-7).
(DESIGN CHOICE, log 111.) -/
opaque kwLayout : Nat → List Nat → Bytes

/-- An unspecified 32-bit result. (DESIGN CHOICE, log 5.) -/
opaque freeWord : Nat → Word

/-- The sectors of a vat as a chunk finds them: whether a read meets a correctable error, and the number of reads after which one
is uncorrectable, where there is one (R274). (DESIGN CHOICE, log 106.) -/
opaque vatFault : Nat → Bool × Option Nat

/-- What has become of codeword `k` of stored object `o`: 0 it decodes, 1 it needs correction, 2 it is uncorrectable (R330).
(DESIGN CHOICE, log 131.) -/
opaque flashFault : Nat → Nat → Nat → Nat

/-- Sectors of a stack that have gone wrong since its last patrol, counted from the stack's start, and whether each is
uncorrectable (R309, R310). (DESIGN CHOICE, log 123.) -/
opaque cellUpset : Nat → Nat → List (Nat × Bool)

/-- How a VEC comparison writes false and true into an output element (R61 gives no encoding). (DESIGN CHOICE, log 43.) -/
opaque compareByte : Bool → Byte

/-- The default special-function image that a configuration image of NOR carries (R93): a 2 KiB half, then segment entries.
(DESIGN CHOICE, log 143.) -/
opaque defaultImage : Bytes → Bytes

/-- The images a module is shipped with, per kind 0 to 2 (R423). (DESIGN CHOICE, log 143.) -/
opaque shippedImage : Nat → Bytes

/-- DEV_PUB, the device's HSS public key (R429). (DESIGN CHOICE, log 143.) -/
opaque devPub : Bytes

/-- The signature the security engine makes with leaf q over a message (R430-R432). (DESIGN CHOICE, log 143.) -/
opaque hssSign : Nat → Bytes → Bytes

/-- The factory device certificate (R429). (DESIGN CHOICE, log 143.) -/
opaque devCert : Bytes

/-- The Foundation root key's SHA-256 (R421). (DESIGN CHOICE, log 143.) -/
opaque rootHash : Bytes

/-- The factory asymmetry A of an optical link, in 1/8 ns (R301). (DESIGN CHOICE, log 118.) -/
opaque opticalAsymmetry : Nat → Int

/-- The hash that picks one of a flow's ports or links (R295): a function of the packet's SRC, DST, KIND and TAG32.
(DEDUCED, log 114.) -/
opaque flowHash : List Nat → Nat

/-- Credits that a receiver, this module or its peer, grants a VC and class when a link comes up (R285 gives no number), in 256-byte
units.
(DESIGN CHOICE, log 113.) -/
opaque linkCredits : Nat → Nat

/-- The entries of an INSERT or DELETE tile, whose layout R349 does not give: item, ATTR and code of each, from the tile's bytes,
for an index whose codes have the given bits. (DESIGN CHOICE, log 132.) -/
opaque updateEntries : Bool → Nat → Bytes → List (Nat × Dword × Nat)

/-- The same tile with each entry's status code written back. (DESIGN CHOICE, log 132.) -/
opaque updateWritten : Bool → Nat → Bytes → List Nat → Bytes

/-- The eight words of THM_DIE_CURVE that the body of a configuration image sets (R395, R442). (DESIGN CHOICE, log 143.) -/
opaque imageCurve : Bytes → List Nat

/-- FAB_PORT_CFG of a port as the body of a configuration image sets it, where it does (R442, Table 21-3).
(DESIGN CHOICE, log 143.) -/
opaque imagePortCfg : Bytes → Nat → Option Word

/-- The vendor, device and subsystem IDs that the body of a configuration image carries (R365). (DESIGN CHOICE, log 143.) -/
opaque imageIds : Bytes → Dword

/-- The AER status bits of a host read that ended in an error at a time (R403). (DESIGN CHOICE, log 64.) -/
opaque aerError : Nat → Word

end Sys2Proof.Config
end

