-- ==== Sys2Proof/Machine/State.lean ====
section
/-! DEFINITION. The state of the block as plain data, its reset value, and the reasons a step can stop. -/

namespace Sys2Proof.Machine

/-- Why the machine stops with a fault. -/
inductive Fault where
  /-- Raised by no command: the spec gives every command of the table an effect or a named status.  Safe. -/
  | unreachable
  deriving DecidableEq, Repr

/-- Why a command is refused. -/
inductive Refusal where
  /-- A command that has no meaning yet.  Safe. -/
  | notModelled (mnemonic : String)
  /-- A command that names a unit, slot, pool, link or function number the module does not have (Tables 1-1, 2-1, 13-1).
  Raised by every meaning whose unit operand is out of range.  Safe. -/
  | noSuchUnit (what : String)
  deriving DecidableEq, Repr

/-! ### Power, clocks and heat (chapter 18) -/

/-- The module states of Table 18-3. -/
inductive PwrState where
  | off | standby | thaw | idle | active | hold | withdrawn
  deriving DecidableEq, Repr

/-- LAST_CAUSE of PWR_STATUS (Table 18-9). -/
inductive StbyCause where
  | none | uv | ov | trip | reset | sideband | boot | rail
  deriving DecidableEq, Repr

/-- The power block: PWR_ registers (Tables 18-8 to 18-10), the MOD_RST_N level, the straps and both bypasses (R12, R451). -/
structure Pwr where
  state      : PwrState
  lastCause  : StbyCause
  capEn      : Bool
  idleReq    : Bool
  wakeBit    : Bool
  idleBlock  : Byte
  inWarn     : Bool
  firstSweep : Bool
  inMv       : Nat
  inW        : Nat
  cap        : Nat
  rails      : List (Nat × Nat)
  dieCurveCap : List Nat
  diePowerCap : List Nat
  modRstN    : Bool
  slotId     : BitVec 4
  waking     : Bool          -- a wake event seen in IDLE, fast clocks starting (R389)
  wakeSeen   : Bool          -- a wake event since the pending IDLE_REQ write (R388)
  clockAt    : Nat           -- when the fast clocks last started (R394)
  resetAt    : Option Nat    -- when MOD_RST_N was last asserted, until the next sweep (R451)
  bypassB    : Bool          -- B0-B1 joined (R12)
  bypassO    : Bool          -- O0-O1 joined
  ctlDownTo  : Nat           -- the controller answers no sideband request before this time (R393)
  romMonitor : Bool          -- no valid module-controller slot (R424)
  deriving DecidableEq, Repr

/-- One entry of THM_DIE_CURVE (Table 18-7). -/
structure CurveEntry where
  valid : Bool
  temp  : Nat
  cap   : Nat
  deriving DecidableEq, Repr

/-- The thermal block (R394-R398). -/
structure Thm where
  temps     : List (Option Int)      -- THM_TEMP, none reads 0x80
  curve     : List CurveEntry        -- the curve in force
  pendCurve : List CurveEntry        -- the pending copy
  committed : Bool                   -- entry 0 has committed the pending copy
  curveErr  : Bool
  holdSrcDie : Bool
  holdUnit  : Nat                    -- the stack or die that caused the last HOLD
  hotDie    : Int
  hotStack  : Int
  hotStackNo : Nat
  coolSweeps : Nat                   -- consecutive sweeps that meet the release condition (R397)
  applying  : List (List Bool)       -- per die, the entries that apply (3 degrees of hysteresis)
  prevDie   : List (Option Int)      -- each die's hottest sensor at the previous sweep
  deriving DecidableEq, Repr

/-! ### Host interface (chapter 17) -/

/-- HIF_FN_CFG of one function (Table 17-2). -/
structure FnCfg where
  en       : Bool
  perm     : Byte
  vecN     : Nat
  vecBase  : Nat
  ringN    : Nat
  ringBase : Nat
  deriving DecidableEq, Repr

/-- A completion before its phase is known (R374, Table 17-6). -/
structure CqEntry where
  user    : Dword
  status  : Status
  isEvent : Bool
  event   : Nat
  station : Nat
  result  : Half
  place   : Word
  deriving DecidableEq, Repr

/-- One ring pair (R370, R372, R375, R380). -/
structure Ring where
  fn      : Nat
  ring    : Nat
  sqBase  : Nat
  cqBase  : Nat
  sqExp   : Nat
  cqExp   : Nat
  vector  : Nat
  noirq   : Bool
  modCnt  : Nat
  modUs   : Nat
  tail    : Word
  head    : Word
  written : Word
  hhead   : Word
  backlog : List CqEntry
  fetched : List Bytes          -- entries fetched and not yet decoded: an earlier FENCE holds them (R373)
  unsig   : Nat                 -- completions written since the last interrupt
  unsigAt : Option Nat          -- when the first of them was written
  deleting : Option (Nat × HostHdr)  -- a RING_DELETE waits (R370)
  deriving DecidableEq, Repr

/-- A command fetched and not completed (Table 17-10, INFLIGHT). -/
structure InFlight where
  id   : Nat
  hdr  : HostHdr
  opc  : Nat
  deriving DecidableEq, Repr

/-- A function's Almanac request by registers (R381) and its serial count (R383). -/
structure AlmFn where
  addr   : Dword
  len    : Word
  status : Status
  busy   : Bool
  done   : Bool
  serial : Word
  deriving DecidableEq, Repr

/-- A request for an Almanac that waits for the entries already fetched (R381, R382): its function, its command where it is
one, the buffer and RESYNC. -/
structure AlmReq where
  fn     : Nat
  cmd    : Option (Nat × HostHdr)
  buf    : AddrArg
  len    : Nat
  resync : Bool
  deriving DecidableEq, Repr

/-- The host interface block. -/
structure Hif where
  lock      : Bool
  conflict  : Bool
  linkRate  : Nat
  linkLanes : Nat
  linkFlit  : Bool
  retrains  : Nat
  dbErr     : Word
  ringErr   : Word
  cqDrop    : Word
  winErr    : Word
  cqFullNs  : Dword
  fnCfg     : List FnCfg
  ring0     : List (BitVec 256)          -- HIF_RING0 as committed
  ring0Held : List (Nat × Nat × Dword)   -- held words (function, word, value)
  ring0Wait : List Nat                   -- commits that wait for a command in progress (R444)
  rings     : List Ring
  inflight  : List InFlight
  nextCmd   : Nat
  alm       : List AlmFn
  almReqs   : List AlmReq            -- oldest first
  masked    : List Nat                   -- masked MSI-X vectors (module numbers)
  pendVec   : List Nat                   -- their pending bits
  signalled : List Nat                   -- MSI-X messages sent, newest first
  atc       : List Nat                   -- host pages in the translation cache
  cfgServed : Option Bool                -- the answer to the last configuration request: served, or Retry (R390)
  latches   : List (Requester × Nat × Nat)   -- read latches: requester, register offset, snapshot (R439)
  heldHi    : List (Requester × Nat × Word)  -- held upper-half writes (R440)
  ids       : Dword                      -- vendor, device and subsystem IDs (R365)
  classCode : Byte                       -- the PCIe class code (R365)
  aer       : Word                       -- the AER status (R365, R403)
  selects   : List (Requester × Nat × Nat)   -- FAB_RT_SEL, COL_GSEL of each die and VSE_IDX_SEL per requester (R441)
  deriving DecidableEq, Repr

/-! ### Telemetry (chapter 19) -/

/-- One alarm latch (Table 19-3). -/
structure Latch where
  firstT : Dword
  count  : Half
  arg    : BitVec 48
  deriving DecidableEq, Repr

/-- The telemetry block (Table 19-8). -/
structure Tel where
  sum      : Dword
  latches  : List Latch
  sbMask   : Word
  almVec   : Nat
  evtBase  : Nat
  evtEn    : Bool
  evtExp   : Nat
  evtVec   : Nat
  evtHead  : Word
  evtNext  : Word
  mirrored : Word
  ovf      : Bool
  evtDrop  : Word
  mirBase  : Nat
  mirRate  : Nat
  mirQueue : List (Nat × Word)    -- positions written and not yet copied, in write order, with their ESEQ
  mirNew   : Nat                  -- entries written since TEL_EVT_VEC was last signalled
  mirSince : Option Nat           -- when the first uncopied entry was written
  trcBase  : Nat
  trcMir   : Nat
  trcEn    : Bool
  trcExp   : Nat                  -- TEXP, 12-22
  trcSel   : Nat
  trcPeriod : Nat
  trcDrop  : Word
  trcCount : Nat                  -- records in the trace ring
  trcNext  : Nat                  -- position of the next record
  trcLast  : Nat                  -- when the last sample was taken
  deriving DecidableEq, Repr

/-! ### Security (chapter 20) -/

/-- The always-on and security-engine state: NOR contents, boot results, owner record, floors, leaf state, requests. -/
structure Sec where
  slots    : List (Bytes × Bytes)     -- per kind, the images of slots A and B
  booted   : List (Option Bool)       -- per kind, the booted slot: some false is A
  floors   : List Word
  floorsMac : Bool                    -- the MAC of the floors verifies under the NOR key
  leafMac  : Bool                     -- the MACs of the leaf log verify
  owner    : Bytes                    -- the stored owner record
  leaf     : Nat                      -- next leaf index q
  leafLog  : Nat                      -- highest durable leaf-log record
  treesReady : Bool
  nextBottom : Bool                   -- the next bottom tree is built
  bootCause : Nat
  attNonce : BitVec 256
  attAddr  : AddrArg
  attCert  : Bool
  attStatus : Status
  attBusy  : Bool
  attDone  : Bool
  attWait  : List (Option (Bytes × Bool))   -- requests waiting for a tree: none is the host's, some the sideband's
  report   : Bytes                    -- the report the sideband reads
  stageAddr : AddrArg
  stageKind : Nat
  stageStatus : Status
  stageBusy : Bool
  stageDone : Bool
  stage    : Option (Nat × Bool)      -- an open sideband stage: kind 0-2, and whether its slot is B
  ownerAddr : AddrArg
  ownerStatus : Status
  ownerBusy : Bool
  ownerDone : Bool
  ownerBuf : Bytes                    -- the 8 KiB always-on buffer
  sbAnswer : Option (Status × Bytes)  -- the sideband response not yet read, replaced by the next one (R454)
  deriving DecidableEq, Repr

/-! ### Graphs, stations, queues (chapters 2, 7) -/

/-- The ten station kinds (Table 2-1). -/
inductive Kind where
  | load | store | mma | vec | ssa | churn | coll | scan | skim | walk
  deriving DecidableEq, Repr

/-- The queue modes (Table 2-3). -/
inductive QMode where
  | bcast | share | join | fanin
  deriving DecidableEq, Repr

/-- A geometry (Table 7-2). -/
structure Geom where
  base  : Nat
  space : Nat
  ndim  : Nat
  tl    : Nat
  idx   : Bool
  c0    : Nat
  counts  : List Nat      -- C1 ... C4
  strides : List Int      -- S1 ... S4
  resOk   : Bool          -- every reserved field and every field at or beyond NDIM is zero
  deriving DecidableEq, Repr

/-- A LOAD or STORE work descriptor (Table 7-1). -/
structure StreamDesc where
  geom   : Geom
  isLoad : Bool           -- decoded as LOAD's
  notify : Bool
  claim  : Bool           -- CLAIM on LOAD, COMMIT on STORE
  rearm  : Bool
  curd   : Nat
  fence  : Bool
  dyn    : Bool
  idxW   : Bool
  comp   : Bool
  port   : Nat
  ahead  : Nat
  slotBase  : Nat         -- bytes from the start of the ring-slot area
  slotN     : Nat
  ishift    : Nat
  slotBytes : Nat
  cslotBytes : Nat
  dint   : Nat
  outerMax : Nat
  shape  : Nat
  idxGeom  : Nat
  compGeom : Nat
  tag    : Half
  pred   : Nat
  push   : Bool
  pushPort  : Nat
  pushBytes : Nat
  resOk  : Bool           -- reserved fields, and the fields of the other side, are zero
  deriving DecidableEq, Repr

/-- A re-arm record (R165). -/
structure Rearm where
  base   : Nat
  finish : Bool
  count  : Nat
  deriving DecidableEq, Repr

/-- A tile a STORE has popped and not yet written. -/
structure StoreTile where
  num   : Nat                    -- its number in the descriptor's run
  pos   : Nat                    -- its number in the geometry (R143)
  h     : Handle
  comp  : Option Handle
  tag   : Half                   -- the deadline tag its transfers carry (R155)
  deriving DecidableEq, Repr

/-- A ring slot in use (R149): from the issue of its tile until it and every older slot is free. -/
structure SlotUse where
  num    : Nat                   -- tile number in its descriptor's run
  pos    : Nat                   -- tile number in the geometry (R143)
  old    : Bool                  -- belongs to an earlier descriptor or run
  next   : Bool                  -- belongs to the next descriptor, whose tiles are issued early (R157)
  addr   : Nat
  caddr  : Nat
  comp   : Bool
  landed : Bool
  poison : Bool
  poisonC : Bool
  delivered : Bool
  freeP  : Bool
  freeC  : Bool
  tag    : Half                  -- the deadline tag its transfers carry (R155)
  deriving DecidableEq, Repr

/-- A fault that waits for older tiles (R160): the saved tile, the status the descriptor ends with, and what the fault
register takes. -/
structure StreamFault where
  num   : Nat
  ends  : Status
  cause : Status
  space : Nat
  addr  : Nat
  deriving DecidableEq, Repr

/-- The next descriptor of a LOAD, its tiles issued behind the last tile of the current one (R157). -/
structure NextDesc where
  d     : StreamDesc
  outer : Nat
  fill  : Nat                    -- next tile to issue
  fault : Option StreamFault
  deriving DecidableEq, Repr

/-- The running state of a stream (R149, R162, R165). HEAD of R149 is the first entry of `slots`. -/
structure Stream where
  cur     : Option StreamDesc    -- the current descriptor, decoded
  comp    : Option Geom          -- its companion geometry
  idx     : Option Geom          -- its index geometry
  outer   : Nat                  -- outermost count in force
  outerC  : Nat                  -- the companion's
  fill    : Nat                  -- next tile to issue (LOAD) or to pop (STORE)
  deliver : Nat                  -- next tile to push (LOAD) or to write (STORE)
  slots   : List SlotUse         -- LOAD: slots in use, oldest first
  nextSlot : Nat                 -- LOAD: ring slot of the next tile
  parked  : Bool
  pendRearm : Option Rearm
  finish  : Bool                 -- the run in progress is the last (FINISH)
  claimPos : Option Nat          -- STORE: the committed outermost index (R138)
  claims   : List (Nat × Nat)    -- LOAD: first tile and claimed outermost index of each position in progress, oldest first (R158)
  claimOut : Bool                -- LOAD: a claim found no work (R138)
  ahead    : Option NextDesc     -- LOAD: the next descriptor, issued early (R157)
  claimEpoch : Byte              -- its epoch
  recheck : Bool                 -- STORE: resumed with its commit accepted (R161)
  rearmed : Bool                 -- a re-arm has given the run its base and count
  fault   : Option StreamFault
  tiles   : List StoreTile       -- STORE: popped, unwritten
  consumed : Status              -- R28 over the handles consumed
  srcPoison : Bool               -- a source sector was uncorrectable (R462)
  tavg    : Nat                  -- t_avg in compute-clock cycles (R153)
  events  : Nat                  -- events measured, up to 4 (R154)
  lastEv  : Option Nat           -- when the last event occurred
  sumIv   : Nat                  -- sum of the first intervals
  deriving DecidableEq, Repr

/-- A station's condition. -/
inductive StRun where
  | going                        -- working its list
  | ended                        -- its work list has ended
  | stopped                      -- stopped for a pause
  | halted (s : Status)          -- R41
  deriving DecidableEq, Repr

/-- A bound station. -/
structure Station where
  kind   : Kind
  unit   : Nat
  work   : Nat                   -- address of its work list
  workN  : Nat
  wdi    : Nat                   -- current work descriptor
  run    : StRun
  outSeq : List Half             -- next SEQ of each output port
  inHand : List (Nat × Handle)   -- popped handles it holds, with their port
  sub    : Nat                   -- progress inside the descriptor: layer of a WALK, tile of a stream's saved position
  wait   : Option Nat            -- time since which a locked WALK operation waits
  strm   : Stream
  deriving DecidableEq, Repr

/-- One queue entry: a handle and the consumers that have not taken it. -/
structure QEntry where
  h    : Handle
  prod : Nat
  left : List Nat
  deriving DecidableEq, Repr

/-- One JOIN round: a handle per producer as they come; once complete, the consumers that have not taken it. -/
structure Round where
  got  : List (Option Handle)
  left : List Nat
  delivered : Bool
  deriving DecidableEq, Repr

/-- A bound queue (R29-R33). -/
structure Queue where
  qid    : Nat
  mode   : QMode
  pool   : Nat
  prodPort : Nat
  prodAt   : Nat
  prodN    : Nat
  consPort : Nat
  consAt   : Nat
  consN    : Nat
  entries : List QEntry
  rounds  : List Round
  nextSeq : List Half            -- per producer, the SEQ the queue accepts next (R32)
  waits   : List (Nat × Nat)     -- consumers that wait to pop, and since when (R30, R42)
  deriving DecidableEq, Repr

/-- A pool's copy list: the buffers that are free (R33, R35). -/
structure Pool where
  id     : Nat
  scope  : Nat
  count  : Nat
  bytes  : Nat
  base   : Nat
  free   : List Nat              -- free buffer addresses, over all copies
  deriving DecidableEq, Repr

/-- Graph states (Table 2-10). -/
inductive GState where
  | loaded | running | paused | halted | drained
  deriving DecidableEq, Repr

/-- A command that waits for its graph slot (R373). -/
inductive SlotCmd where
  | start (gid : Half) (startAt : Dword)
  | pause (gid : Half)
  | resume (gid : Half)
  | unload (gid : Half)
  | rearm (gid : Half) (station : Nat) (rec : BitVec 128)
  deriving DecidableEq, Repr

/-- A loaded graph. -/
structure Graph where
  fn       : Nat
  cq       : Nat
  image    : Nat
  clusters : Half
  stallUs  : Nat
  user     : Dword
  state    : GState
  stations : List Station
  queues   : List Queue
  pools    : List Pool
  pausing  : Option (Nat × HostHdr)          -- a pause in progress
  timed    : Option (Dword × Nat × HostHdr)  -- a timed start that waits
  lastMove : Nat                 -- when a handle last moved (R42)
  stallOut : Bool                -- the watchdog has reported and awaits a move
  lastStatus : Status
  lastEvent  : Nat
  haltSt   : Nat
  haltWdi  : Nat
  events   : Nat
  deriving DecidableEq, Repr

/-- A graph slot (R38). -/
structure GraphSlot where
  gen     : BitVec 10
  graph   : Option Graph
  waiting : List (Nat × HostHdr × SlotCmd)
  deriving DecidableEq, Repr

/-! ### Cores and clusters (chapters 3-7) -/

/-- A special-function bank: a 2 KiB micro-program half and its segment entries (R102). -/
structure Bank where
  half : Bytes
  segs : Bytes
  dflt : Bool                    -- it holds the default image (R93, R95)
  deriving DecidableEq, Repr

/-- One row of running state: m, l and o, FP32 (R111). -/
structure Row where
  m : Word
  l : Word
  o : List Word
  deriving DecidableEq, Repr

/-- The row-wise fused modes (Table 6-3). -/
inductive FuseMode where
  | elem | gated | stats
  deriving DecidableEq, Repr

/-- An open fused chain (R133-R135, R171-R176). -/
structure Chain where
  mode  : FuseMode
  fid   : Nat
  bank  : Nat                    -- the bank its segments come from (R110)
  n2    : Nat
  rows  : List Row               -- STATS: running state
  acc   : List (List Word)       -- ELEM, GATED: combined pieces so far
  piece : List (List Word)       -- the accumulator of the piece in progress
  pend  : List (List (Option Word))  -- P of the incomplete 32-k block by row; none where the row was disabled
  pendC : List (List Dword)      -- the second operand of that block by column, as FP64 codes
  k     : Nat                    -- second-product columns taken so far
  pieces : Nat                   -- pieces combined so far
  mark  : Status                 -- first poison status met (R176)
  deriving DecidableEq, Repr

/-- What an MMA descriptor has computed and not yet pushed (R40). -/
structure MmaOut where
  push   : Bool                  -- a handle is to be pushed
  empty  : Bool                  -- it is an empty one (R27)
  status : Status
  bytes  : Nat
  rowB   : Nat                   -- bytes per row of a fused tile; 0 for an ordinary one
  data   : Option Bytes
  done   : Status                -- the status the descriptor ends with
  deriving DecidableEq, Repr

/-- An MMA descriptor in progress: what it has popped and read so far (R122). (DESIGN CHOICE, log 50.) -/
structure MmaPart where
  desc  : Bytes
  fuse  : Bytes                  -- the fusion record; empty when there is none
  ext   : Option (Nat × Nat × Nat)   -- K, M, N, once known (R123)
  a     : List (Bytes × Bytes)   -- per A handle popped: its bytes, and those of its companion
  b     : List (Bytes × Bytes)
  b2    : List (Bytes × Bytes)
  wa    : List (List Handle)     -- A handles popped and not used yet, each with its companion (R126)
  wb    : List (List Handle)
  wb2   : List (List Handle)
  wc    : List Handle            -- the C handle, once popped
  wv    : List Handle            -- the second operand's handles, once popped
  rest  : List Handle            -- handles read whole, released with the descriptor's inputs
  c     : Option Bytes
  mask  : Option Bytes
  v     : Option (Bytes × Bytes)
  popped : List (Nat × Status)   -- port and status of every handle popped
  empty : Bool                   -- one of them was empty
  tag   : Half                   -- TAG of the A handle
  keepA : List Handle            -- handles to hold after the descriptor (R126)
  keepB : List Handle
  out   : Option MmaOut          -- what it computed, while it waits for room (R40)
  deriving DecidableEq, Repr

/-- A stream fault register (Table 7-4). -/
structure FaultReg where
  valid : Bool
  again : Bool                   -- OVER: a later fault found VALID set
  space : Nat
  cause : Status
  addr  : Nat
  tile  : Nat
  wdi   : Nat
  seq   : Half
  deriving DecidableEq, Repr

/-- What a claim returned (R136). -/
inductive Claimed where
  | none
  | noWork
  | got (epoch : Byte) (index : Word)
  deriving DecidableEq, Repr

/-- A core: sticky flags, predicate table, table banks, held operands, open chain, claim FIFO, fault registers. -/
structure Core where
  flags   : BitVec 15            -- CLU_CORE_FLAGS[14:0]
  preds   : List (BitVec 128 × BitVec 64)   -- entries 1-15 as entries 0-14
  banks   : List Bank
  active  : Nat                  -- active bank
  shadow  : Bool                 -- a written shadow waits for its switch (R108)
  holdA   : List Handle          -- the held A handle with its companion; empty when none is held
  holdB   : List Handle
  part    : Option MmaPart       -- the MMA descriptor in progress
  chain   : Option Chain
  claims  : List (Byte × Word)   -- claim FIFO (4 entries)
  claimed : Claimed              -- answer of the last claim
  faultLd : FaultReg
  faultSt : FaultReg
  suPoison : Word
  deriving DecidableEq, Repr

/-- A small-transfer command in a port's queue (Table 7-7). -/
structure SmallCmd where
  slotAddr : Nat
  srcAs : Nat
  src   : Nat
  dstAs : Nat
  dst   : Nat
  len   : Nat
  push  : Bool
  qid   : Nat
  resOk : Bool
  deriving DecidableEq, Repr

/-- What waits at a work counter: a RESET whose writes have not landed, and what came after it (R137). -/
inductive WcOp where
  | claim (core : Nat)
  | commit (core : Nat) (epoch : Byte) (index : Word)
  | reset (base limit : Word) (cmd : Option (Nat × HostHdr))
  deriving DecidableEq, Repr

/-- The work counter of a cluster (R136). -/
structure WorkCtr where
  epoch : Byte
  base  : Word
  limit : Word
  next  : Word
  committed : Word
  stale : Word
  waiting : List WcOp            -- a RESET that waits, and what came after it, oldest first
  landing : List (Nat × Word)    -- accepted commits whose write has not landed: core, index
  deriving DecidableEq, Repr

/-- What an AMO or compare-and-swap returned (R317). -/
inductive AmoAnswer where
  | none
  | old (v : Dword)
  | accessFault
  | poisoned
  deriving DecidableEq, Repr

/-- A cluster: work counter, small-transfer port, re-arm port, adder flags, SRAM counters, watchdog. -/
structure Cluster where
  wc      : WorkCtr
  rearmLo : Dword
  rearmStatus : Status
  rearmDone : Bool
  outstanding : Word
  adderFlags : BitVec 5
  sramCe  : Word
  sramUe  : Word
  wdogMs  : Word
  wdogAt  : Nat
  ctlResets : Nat                -- resets of the control core by its watchdog
  small   : List SmallCmd
  amo     : AmoAnswer
  resv    : Option (Nat × Nat × Nat)   -- the control core's reservation: address, bytes, and what LR read (R317)
  deriving DecidableEq, Repr

/-- A reload of table banks (R107, R108). -/
structure Reload where
  id    : Nat
  hdr   : HostHdr
  image : Nat
  segCount : Nat
  mask  : Half
  deriving DecidableEq, Repr

/-- The reload machinery (Table 21-12). -/
structure Sfu where
  cur     : Option Reload        -- in progress
  written : Bool                 -- its image is validated and the shadows are written
  waiting : List Reload
  seq     : Word
  deriving DecidableEq, Repr

/-! ### Key/value cache and stacks (chapters 9, 10) -/

/-- A frame pool (Table 21-7) with its two lists. -/
structure FramePool where
  valid : Bool
  base  : Nat
  fsizeK : Nat
  count : Nat
  ftab  : Nat
  initBusy : Bool                -- POOL_INIT
  free  : List Nat
  limbo : List Nat
  held  : List (Nat × Dword)     -- held words 1, 2
  deriving DecidableEq, Repr

/-- A handle an ATTEND has still to push: its stack port, the bytes of its descriptor tile (none for an empty handle), its
status and LAST. -/
structure WalkOut where
  port   : Nat
  body   : Option Bytes
  status : Status
  last   : Bool
  deriving DecidableEq, Repr

/-- A page reader in flight (R204): its cluster, station, sequence, start epoch, the buffers it emitted, and whether it still
runs; of an ATTEND also the query handle it keeps (R224), what it has still to push, and the status it ends with. -/
structure Reader where
  cluster : Nat
  station : Nat × Nat            -- slot, station index
  seqid   : Option Nat
  epoch   : Nat
  bufs    : List Nat
  running : Bool
  query   : Option Handle
  out     : List WalkOut
  ends    : Status
  deriving DecidableEq, Repr

/-- A page in TRANSIT, as the KVC block must remember it between MOVE_BEGIN and MOVE_END (R211-R213): the move list does not
state its kind. (DESIGN CHOICE, log 86.) -/
structure MoveNote where
  seq   : Nat
  layer : Nat
  pti   : Nat
  kind  : Nat
  dst   : Nat                    -- the entry's DST
  deriving DecidableEq, Repr

/-- The KVC block. -/
structure Kvc where
  seqBase : Nat
  seqN    : Nat
  epoch   : Dword
  readers : List Reader
  poolErr : Bool
  pools   : List FramePool
  poolEmpty : List Word
  refErr  : Word
  scoreSkip : Word
  moveFail : Word
  curdSkip : Word
  curveBase : Nat
  curveStatus : Half
  curves  : List Bytes           -- the scorer's copies, 288 bytes each
  sketchBase : Nat
  lockQ   : List (Nat × Nat)     -- operations that wait for a sequence's lock, oldest first: sequence, cluster
  committing : List (Nat × Nat)  -- sequences marked as committing, with the cluster whose KV_COMMIT it is (R188)
  quarantine : List (Nat × Nat)  -- frames left off both lists (R205)
  moves   : List MoveNote
  deriving DecidableEq, Repr

/-- A page descriptor as an SSA holds it (Table 10-4). -/
structure PageDesc where
  pte   : Dword
  pti   : Nat
  pos0  : Nat
  nvalid : Nat
  pexp  : Nat
  cfmt  : Nat
  hkv   : Nat
  hdim  : Nat
  addr  : Nat
  sliceLo : Nat
  resOk : Bool
  deriving DecidableEq, Repr

/-- A descriptor-tile header (Table 10-3). -/
structure TileHdr where
  seqid : Nat
  layer : Nat
  ndesc : Nat
  final : Bool
  sliceLo : Nat
  sliceHi : Nat
  qaddr : Nat
  hkv   : Nat
  hdim  : Nat
  resOk : Bool
  deriving DecidableEq, Repr

/-- An SSA work descriptor (Table 10-1). -/
structure SsaDesc where
  op    : Nat
  npart : Nat
  notify : Bool
  mass  : Bool
  window : Bool
  sink  : Bool
  glob  : Bool
  pfmt  : Nat
  qfmt  : Nat
  group : Nat
  nsink : Nat
  scale : Word
  win   : Nat
  gpos  : List Nat
  tag   : Half
  resOk : Bool
  deriving DecidableEq, Repr

/-- A job of a stack (R221, R226). -/
structure SsaJob where
  slot  : Nat
  station : Nat
  desc  : SsaDesc
  closed : Nat                   -- slices closed
  hdr   : Option TileHdr         -- the first header
  pages : List PageDesc          -- in order of arrival
  tiles : List Handle            -- descriptor tiles held
  bad   : Option Status          -- first status of a non-OK handle (R226)
  deriving DecidableEq, Repr

/-- One stack's SSA (Tables 10-6, 10-7). -/
structure Ssa where
  share  : Nat
  flags  : BitVec 5
  halted : Bool
  last   : Status
  poison : Word
  jobs   : Dword
  throttleNs : Dword
  job    : Option SsaJob
  deriving DecidableEq, Repr

/-! ### Churn (chapter 11) -/

/-- A ring record (Table 11-1, R237). -/
structure RingRec where
  tag  : Word
  n    : Nat
  rank : Nat
  east : Nat
  west : Nat
  eLanes : Nat
  wLanes : Nat
  eDie : Nat
  wDie : Nat
  depth : Nat
  eCore : Nat
  wCore : Nat
  eSlot : Nat
  wSlot : Nat
  slotN : Nat
  slotBytes : Nat
  timeoutUs : Nat
  group : Nat
  resOk : Bool
  deriving DecidableEq, Repr

/-- A receive slot in use. -/
structure RxSlot where
  addr  : Nat
  bytes : Nat
  hop   : Nat
  layer : Nat
  poison : Bool
  blockEnd : Bool
  toPush : Bool                  -- its handle is still to be pushed
  held  : Bool                   -- its consumer has not released it
  fwd   : Bool                   -- the onward send still holds it
  since : Option Nat             -- since when it has waited for the neighbour's credit
  doneAt : Option Nat            -- when its consumer released it, until the engine has taken note
  deriving DecidableEq, Repr

/-- One direction of a ring context: counters of Table 11-8 and the progress of the ROTATE. The direction's neighbour is the
one it sends to: east for the east-going half. -/
structure ChnDir where
  steps  : Dword
  xbound : Word
  xwaitNs : Dword
  holdNs : Dword
  bytesRx : Dword
  stray  : Word
  rtt    : Half
  shake  : Option (Shake × Nat)  -- a handshake held, and when it came (R239)
  answered : Bool                -- a handshake of the neighbour has been answered
  credits : Nat                  -- free slots known at the neighbour
  slots  : List RxSlot           -- slots in use, oldest first
  next   : Nat                   -- next slot of the ring
  rel    : Nat                   -- release handles popped in this ROTATE
  relAt  : Nat                   -- when the latest was popped
  sent   : Nat                   -- local payloads sent
  endsIn : Nat                   -- blocks received whole in this ROTATE
  admitted : Nat                 -- the highest block admitted
  lastOut : Bool                 -- the last tile of the last block has been pushed
  lastRx : Nat                   -- when the latest tile arrived, or its block was admitted
  failed : Bool
  deriving DecidableEq, Repr

/-- The causes of CHN_RING_STATUS (Table 11-7). -/
inductive ChnCause where
  | none | mismatch | timeout | lanes | linkDown | withdraw | order
  deriving DecidableEq, Repr

/-- A ring context on a die. -/
structure ChnCtx where
  state  : Nat                   -- 0 closed, 1 opening, 2 open, 3 failed
  cause  : ChnCause
  eGrant : Nat
  wGrant : Nat
  xboundLast : Bool
  ring   : Option RingRec
  owner  : Nat × Nat             -- slot and station that opened it
  openAt : Nat
  layer  : Nat                   -- layer of the ROTATE in progress
  rotating : Bool
  tag    : Half
  east   : ChnDir
  west   : ChnDir
  deriving DecidableEq, Repr

/-! ### Collectives (chapter 12) -/

/-- One chunk of a reduction on this member, while it is in work or in its vat (R268-R274, R280). `soft` and `badAt` are the
vat's sectors as they stand: a correctable error, and the number of reads after which one is uncorrectable. -/
structure ChunkSt where
  idx    : Nat
  vat    : Bool
  val    : Option Bytes          -- the value so far, in accumulator form; none where it is empty
  folded : Nat                   -- remote children folded
  asked  : Nat                   -- grants sent
  granted : Bool                 -- granted by the parent
  sent   : Bool                  -- sent to the parent, or delivered by the root
  poison : Bool
  early  : Nat
  late   : Nat
  lateRank : Nat
  synced : Bool
  soft   : Bool
  badAt  : Option Nat
  deriving DecidableEq, Repr

/-- A result chunk that has reached this member and is not yet written; no bytes where the output is empty. -/
structure CollResult where
  idx    : Nat
  off    : Nat                   -- where it lies in the packed output
  data   : Bytes
  empty  : Bool
  deriving DecidableEq, Repr

/-- An operation in a communication queue (Table 12-2). -/
structure CollEntry where
  seq    : Word
  op     : Nat
  etype  : Nat
  otype  : Nat
  red    : Nat
  root   : Nat
  count  : Nat
  countMax : Nat
  src    : Nat
  dst    : Nat
  scounts : Nat
  rcounts : Nat
  scale  : Word
  hdim   : Nat
  outPort : Nat
  chunkB : Nat
  tag    : Half
  notify : Bool
  inAddr : Bool
  outAddr : Bool
  slot   : Nat
  station : Nat
  wdi    : Nat
  inputs : List Handle
  stamp  : Nat                   -- time counter when the local input was complete (R280)
  stampSync : Bool
  started : Bool                 -- its inputs have been judged and its first messages sent
  emptyIn : Bool
  begun  : Nat                   -- chunks of the reduction begun
  chunks : List ChunkSt
  results : List CollResult
  heard  : List Nat              -- data-moving: ranks whose block, or emptiness, has begun to arrive
  emptyOut : Bool                -- the output is one empty handle
  emptyDone : Bool               -- which has been pushed
  doneN  : Nat                   -- output chunks written and acknowledged in this run
  acks   : List (Nat × Nat)      -- acknowledgements of the subtree: a chunk, and the rank that sent it or this member's own
  passed : List Nat              -- result chunks passed on to children that have not all acknowledged them
  earliest : Option (Nat × Bool) -- root: the earliest stamp of the latest chunk, and whether all stamps were synchronised
  upDone : Nat                   -- chunks acknowledged by the whole subtree
  counts : List (Option Nat)     -- ALLTOALLV: receive counts learnt
  verdicts : List (Nat × Bool)   -- ALLTOALLV: whether each rank's total exceeds COUNT_MAX
  moved  : Bool                  -- ALLTOALLV: the payload phase has begun
  pushedN : Nat                  -- chunks pushed, never pushed again (R277)
  ended  : Option Status
  retired : Bool                 -- RETIRE has come, or none is needed
  held   : Bool                  -- waits for GRAPH_RESUME after a GROUP_RESET (R277)
  waitAt : Option Nat            -- since when its next chunk waits for a vat
  expectAt : List (Nat × Nat)    -- ranks from which a message is expected, and since when (R275)
  deriving DecidableEq, Repr

/-- The kinds of collective messages that belong to an operation. -/
inductive CollKind where
  | grant | chunk | result | ack | retire
  deriving DecidableEq, Repr

/-- The causes of COL_G_STATUS (Table 12-7). -/
inductive ColCause where
  | none | mismatch | timeout | withdraw | poison | vatWait | input
  deriving DecidableEq, Repr

/-- An open group (Tables 12-1, 12-6 to 12-8). -/
structure Group where
  id     : Nat
  die    : Nat
  fn     : Nat
  fanin  : Nat
  vats   : Nat
  gtag   : Word
  chunkUs : Nat
  vatWaitUs : Nat
  n      : Nat
  rank   : Nat
  addrs  : List Nat              -- fabric address of each rank, read when the group opened
  nextSeq : Word
  retired : Word
  state  : Nat                   -- 1 open, 2 fenced, 3 resetting
  fstatus : Status
  cause  : ColCause
  frank  : Nat
  unsyncSkip : Bool
  fencedSeen : Bool
  named  : Nat
  slowValid : Bool
  meanLag : Nat
  ownLag : Nat
  window : List (Nat × Nat)      -- root: slowest rank and lag of the chunks of the window
  nameNew : Bool                 -- root: a name to send with the next RETIRE
  entries : List CollEntry
  inbox  : List (CollKind × CollMsg)   -- messages of operations this member has not begun, oldest first
  resetGot : List (Nat × Word)   -- ranks that have answered a GROUP_RESET
  resetCmd : Option (Nat × HostHdr)
  resetAt  : Nat
  closeCmd : Option (Nat × HostHdr)
  deriving DecidableEq, Repr

/-- A router's reduction unit (Table 12-6). -/
structure ColRouter where
  corr   : Word
  poison : Word
  stray  : Word
  flags  : BitVec 5
  deriving DecidableEq, Repr

/-! ### Fabric (chapter 13) -/

/-- The training phases of a link (Table 13-13). -/
inductive Phase where
  | off | detect | equalise | align | handshake | active | down
  deriving DecidableEq, Repr

/-- FAB_LINK_STATUS.CAUSE. -/
inductive LinkCause where
  | none | layout | width | trainTimeout | retry | los | disabled
  deriving DecidableEq, Repr

/-- A frame in a replay buffer: its number, its body, and how many packets end in it. -/
structure TxFrame where
  seq  : Nat
  body : Bytes
  ends : Nat
  deriving DecidableEq, Repr

/-- What a link puts on its lanes: an identity beacon at DETECT (R285), or the cells of a frame, lane by lane (R287, R288). -/
inductive WireItem where
  | beacon (digest : Nat) (port link : Nat)
  | frame (lanes : List (List (BitVec 544)))
  deriving DecidableEq, Repr

/-- One link (R284-R291). -/
structure Link where
  disable : Bool
  phase   : Phase
  cause   : LinkCause
  lanesUp : Nat
  presetUsed : Bool
  full    : Bool                 -- EQUALISE runs in full
  width   : Nat                  -- lanes of the link, 0 when it does not exist
  first   : Nat
  phaseAt : Nat
  peer    : Option PeerInfo
  nbr     : Option DiscRec       -- FAB_NBR, valid when some
  txSeq   : Nat
  unacked : List TxFrame         -- the replay buffer, oldest first
  ackAt   : Nat                  -- when ACK last progressed or the oldest frame was sent
  replays : Nat                  -- replays in a row without progress
  rxLast  : Nat                  -- FSEQ of the last frame accepted
  nak     : Bool                 -- NAK to send, once for the gap
  gap     : Bool                 -- a gap is open
  rxPart  : Bytes                -- packet bytes received and not yet whole
  credits : List Nat             -- per VC and class, 2v + d, in 256-byte units
  owed    : List Nat             -- credits to return to the peer
  ackSent : Nat                  -- the ACK that went out last
  wire    : List WireItem        -- what the link has sent, oldest first
  txq     : List (Packet × Nat)  -- packets that wait for the link, with the time they began to wait
  stalled : List Nat             -- VC classes already reported
  deriving DecidableEq, Repr

/-- A router's counters (Table 21-3). -/
structure RouterCtr where
  lost   : Word
  bad    : Word
  noroute : Word
  hops   : Word
  stall  : Word
  deriving DecidableEq, Repr

/-- Equinox states (Table 13-11). -/
inductive Eqx where
  | unsync | acquire | sync
  deriving DecidableEq, Repr

/-- An equalisation preset (R286). -/
structure Preset where
  port : Nat
  link : Nat
  peer : PeerInfo
  deriving DecidableEq, Repr

/-- A cabling-plan entry (Table 13-9). -/
structure PlanEntry where
  loc   : Nat
  peerLoc : Nat
  width : Nat
  opt   : Bool
  nchain : Nat
  peer  : Nat
  chain : List Nat
  deriving DecidableEq, Repr

/-- The fabric block. -/
structure Fab where
  addr    : Nat
  assigned : Bool
  train   : Bool
  laid    : Bool                 -- TRAIN has been set since THAW: the layout holds (R284)
  portCfg : List Word
  links   : List Link            -- link 4p + k
  local_  : List Word            -- routing tables, the same in both routers
  region  : List Word
  lshape  : Word
  lcoord  : Word
  lmapBase : Nat
  lbusy   : Bool
  retryNs : List Word
  stallUs : Word
  cableSum : Word
  plan    : Option (List PlanEntry)
  cableBad : Bool                -- the alarm of R298 has latched for the stored plan
  fecCorr : List Dword
  replay  : List Word
  retrain : List Word
  routers : List RouterCtr
  noRouteLatched : List (Nat × Nat)   -- table and index already alarmed (R295)
  rxq     : List (List (Packet × Option Nat))  -- packets each router holds to forward, with the link each came from
  delivered : List (List Packet) -- packets delivered to the module's endpoints, oldest first
  presets : List Preset          -- most recently used first
  eqxRoot : Bool
  eqxPort : Nat
  eqxLink : Nat
  eqxInterval : Nat              -- µs
  eqx     : Eqx
  eqxGood : Nat                  -- exchanges in a row within 4 ns
  eqxLastGood : Nat
  eqxTheta : Int                 -- last theta, in 1/8 ns
  eqxTrim : Int                  -- rate trim in force: 1/8 ns over one interval
  eqxTrimNs : Nat                -- how long it stays in force
  eqxFrac : Int                  -- what it has moved the counter by beyond whole ns, in 1/64000 ns per µs of the interval
  eqxSentT1 : Option Nat         -- 1/8 ns
  eqxAt   : Nat                  -- when the latest exchange began
  eqxLatched : Word              -- FAB_EQX_STATUS as latched by the last read
  counter : Dword                -- the time counter
  deriving DecidableEq, Repr

/-! ### Memory, flash and search (chapters 14-16) -/

/-- One partition regulator (Table 14-3, R313). -/
structure PartReg where
  wc    : Bool
  burst : Nat
  rate  : Nat
  deriving DecidableEq, Repr

/-- A stack's memory registers. -/
structure StackMem where
  level  : Nat                   -- MEM_TEMP_STATE[1:0]
  temp   : Nat
  ce     : Word
  ue     : Word
  updPoison : Word
  adderFlags : BitVec 5
  regs   : List PartReg
  ueSeen : List (Nat × Nat)      -- uncorrectable sectors met in the last 24 hours, each with the time it last was (R326)
  deriving DecidableEq, Repr

/-- A lend grant (Table 14-6). -/
structure Grant where
  base  : Nat
  count : Nat
  borrower : Nat
  gen   : Nat
  fsizeK : Nat
  wr    : Bool
  rd    : Bool
  revoke : Bool
  valid : Bool
  held  : Option Dword           -- held word 1
  deriving DecidableEq, Repr

/-- A request of a lend copy that has no response yet. -/
structure LendPart where
  rid  : Nat
  off  : Nat
  len  : Nat
  sentAt : Nat
  deriving DecidableEq, Repr

/-- A lend copy in progress (R319, R322). -/
structure LendCopy where
  num   : Nat
  die   : Nat
  cmd   : Option (Nat × HostHdr)
  recAddr : Option Nat           -- a posted record's address
  put   : Bool
  grant : Nat
  gen   : Nat
  lender : Nat
  frame : Nat
  offset : Nat
  length : Nat
  timeoutUs : Nat
  local_ : Nat
  nextOff : Nat
  nextRid : Nat
  outst  : List LendPart
  deriving DecidableEq, Repr

/-- The memory block (Table 14-11). -/
structure MemCtl where
  partMap : BitVec 96
  dlShare : Nat
  dlBytes : List Dword           -- class 0-2, direction 0-1
  dlFullNs : Dword
  scrubH  : Word
  linkLimit : Word
  ueLimit : Word
  fail    : Option (Nat × StackCause)
  margin  : Word                 -- MEM_MARGIN_CTL fields STACK, PC, KIND, DIR as written
  marginGo : Bool
  marginStack : Nat              -- the stack of the sweep that runs
  marginResult : Nat
  marginRes : List Half
  stk     : List StackMem
  grants  : List Grant
  copies  : List LendCopy
  nextCopy : Word
  storeFault : Bool              -- the latest control-core store to an update alias took an access fault (R308, R315)
  deriving DecidableEq, Repr

/-- A Whey pool (Table 15-6). -/
structure WheyPool where
  valid : Bool
  index : Bool
  size  : Nat
  count : Nat
  deriving DecidableEq, Repr

/-- A flash channel's counters. -/
structure FlashCh where
  ce    : Word
  ue    : Word
  reloc : Word
  wearMax : Nat
  wearMean : Nat
  spare : Nat
  wearAlarm : Bool
  ueTimes : List Nat             -- when its uncorrectable pages of the last 24 hours were met (R329)
  deriving DecidableEq, Repr

/-- A Whey transfer record as accepted (Table 15-4). -/
structure WheyRec where
  op    : Nat
  push  : Bool
  pool  : Nat
  qid   : Nat
  obj   : Nat
  local_ : Nat
  count : Nat
  length : Nat
  deriving DecidableEq, Repr

/-- A Whey transfer in progress. -/
structure Xfer where
  id    : Nat
  cmd   : Option (Nat × HostHdr)
  recAs : Nat
  recAddr : Nat
  args  : WheyRec
  old   : Option Bytes           -- GET: the object as it stood when the transfer was accepted (R339)
  oldBad : List Nat              -- the codewords of it that were uncorrectable then
  oldSoft : List Nat             -- and those that needed correction
  ran   : Bool                   -- its flash work has run
  status : Status
  outs  : List Status            -- statuses of the handles it has still to push
  deriving DecidableEq, Repr

/-- FLS_STATE[1:0]. -/
inductive FlsSt where
  | scanning | loading | ready | readonly
  deriving DecidableEq, Repr

/-- The flash block: registers, stored objects and transfers. -/
structure Fls where
  state   : FlsSt
  poolErr : Bool
  share   : Nat
  ueLimit : Word
  fail    : Option (Nat × FlashCause)
  written : Dword
  programmed : Dword
  pools   : List WheyPool
  chans   : List FlashCh
  objects : List (Nat × Bytes)   -- stored objects by object number, rising
  alloc   : List Nat             -- allocated object numbers, rising
  bad     : List (Nat × Nat)     -- uncorrectable codewords, by object and number (R330)
  soft    : List (Nat × Nat)     -- codewords that need correction (R330)
  reads   : List (Nat × Nat)     -- reads of each object since it was last programmed (R330)
  slack   : Nat                  -- bytes the layer may still program within its write amplification (R330)
  dark    : Option Nat           -- when power was last lost (R330)
  readonly : Bool                -- spare blocks have fallen below the floor (R331)
  scanned : Bool                 -- the first scan has ended once (R332)
  xfers   : List Xfer
  nextXfer : Nat
  deriving DecidableEq, Repr

/-- A node of an index (Table 16-2). -/
structure Node where
  attr  : Dword
  item  : Nat
  tag   : Byte
  used  : Bool
  deleted : Bool
  insGen : Nat
  delGen : Nat
  code  : Nat
  edges : List (Nat × Byte)      -- target node and its TAG
  deriving DecidableEq, Repr

/-- A shard: its occupied or once occupied nodes by number, its entry, and its bucket chains by key. -/
structure Shard where
  entry : Nat
  nodes : List (Nat × Node)
  chains : List (Nat × List Nat)
  deriving DecidableEq, Repr

/-- A batch in progress, its writes applied (R349): the station that issued it while its graph is loaded, and whether the batch
is durable and only its update tile is still to be pushed. -/
structure Batch where
  insert  : Bool
  gen     : Nat
  channel : Nat
  slot    : Option Nat
  tag     : Half
  notify  : Bool
  tile    : Handle
  durable : Bool
  before  : List Shard           -- the shards as the batch found them (R349)
  deriving DecidableEq, Repr

/-- A Harvest in progress (R360): its station while its graph is loaded, NOTIFY, and H. -/
structure HarvestJob where
  channel : Nat
  slot    : Option Nat
  notify  : Bool
  h       : Nat
  deriving DecidableEq, Repr

/-- An index (Table 16-1, R349, Table 16-10). -/
structure Index where
  num   : Nat
  graph : Bool
  code  : Nat
  degree : Nat
  pool  : Nat
  slot0 : Nat
  nslot : Nat
  lkeyLsb : Nat
  lkeyW : Nat
  efc   : Nat
  cur   : Nat
  oldest : Nat
  batch : Option Batch
  harvest : Option HarvestJob
  shards : List Shard
  insRefused : Word
  delAbsent : Word
  edgeDrop : Word
  seenFull : Word
  poison : Word
  expired : Word
  deriving DecidableEq, Repr

/-- One filter term (R356). -/
structure Term where
  lsb   : Nat
  width : Nat
  op    : Nat
  or_   : Bool
  value : Nat
  resOk : Bool
  deriving DecidableEq, Repr

/-- A query in its context (R353, R354). -/
structure Query where
  bkey  : Nat
  allb  : Bool
  terms : List Term
  user  : Dword
  code  : Nat
  bad   : Bool                   -- BAD_DESCRIPTOR list (R356)
  poison : Bool
  waiting : List Nat             -- codewords still to read, in search order (FLAT)
  beam  : List (Nat × Nat)       -- (distance, node), GRAPH
  expanded : List Nat
  seen  : List Nat
  res   : List (Nat × Nat × Dword)  -- (distance, item, ATTR)
  done  : Bool
  deriving DecidableEq, Repr

/-- A SCAN station's tile in progress. -/
structure ScanJob where
  slot  : Nat
  station : Nat
  channel : Nat
  index : Nat
  k     : Nat
  beam  : Nat
  tag   : Half
  notify : Bool
  tile  : Handle
  snap  : Nat
  queries : List Query
  deriving DecidableEq, Repr

/-- The search block. -/
structure Vse where
  indexes : List Index
  jobs    : List ScanJob
  reads   : List Dword
  queries : Dword
  scanAmo : AmoAnswer            -- what the last compare-and-swap returned
  deriving DecidableEq, Repr

/-! ### The whole module -/

/-- The module. `free` is the model's own: it numbers the free values of Config. `now` is the model's clock in ns. -/
structure State where
  pending : List Instr
  now     : Nat
  free    : Nat
  mem     : List Host.Cell       -- module memory by direct address
  poison  : List Nat             -- sectors (address / 32) that read uncorrectable
  soft    : List Nat             -- sectors with one correctable symbol
  hostMem : List Host.Cell
  hostAbsent : List Nat          -- host pages (IOVA / 4096) whose translation answers not present
  hostEp : List Nat              -- IOVAs of the sectors sent as write requests with the poisoned (EP) bit set (R462)
  fusedTiles : List (Nat × Nat)  -- buffers that hold a fused chain's tile, with its bytes per row (R118, R172)
  refs    : List (Nat × Nat)     -- reference counts of buffers by address (R33)
  pwr     : Pwr
  thm     : Thm
  hif     : Hif
  tel     : Tel
  sec     : Sec
  graphs  : List GraphSlot       -- 64
  cores   : List Core            -- 256
  clusters : List Cluster        -- 16
  sfu     : Sfu
  kvc     : Kvc
  ssa     : List Ssa             -- 8
  chn     : List ChnCtx          -- die × 4 + context
  col     : List ColRouter       -- 2
  groups  : List Group
  fab     : Fab
  memc    : MemCtl
  fls     : Fls
  vse     : Vse
  deriving DecidableEq, Repr

/-! ### The state right after reset

R442: a Reset column gives a register's value at the end of THAW, so the reset state is the module at the end of a Thaw
that succeeds: IDLE, memory all zero (R390). -/

/-- A 32-bit value as four bytes, lowest first. -/
def wordLe (v : Nat) : Bytes :=
  [BitVec.ofNat 8 v, BitVec.ofNat 8 (v / 256), BitVec.ofNat 8 (v / 65536), BitVec.ofNat 8 (v / 16777216)]

/-- Curve table 0 as Thaw loads it (R208). -/
def curveAtThaw : Bytes :=
  wordLe 0x7F7FFFFF ++ wordLe 0x3F800000 ++ wordLe 256 ++ List.replicate 20 0#8
    ++ (List.replicate 64 (wordLe 0x3F700000)).flatten

/-- The shipped die curve (R395). -/
def shippedCurve : List CurveEntry :=
  [⟨true, 95, 56⟩, ⟨true, 100, 48⟩, ⟨true, 105, 32⟩, ⟨true, 108, 16⟩, ⟨true, 110, 0⟩,
   ⟨false, 0, 0⟩, ⟨false, 0, 0⟩, ⟨false, 0, 0⟩]

/-- A stream that has run nothing. -/
def streamAtLoad : Stream :=
  { cur := none, comp := none, idx := none, outer := 0, outerC := 0, fill := 0, deliver := 0, slots := [], nextSlot := 0,
    parked := false, pendRearm := none, finish := false, claimPos := none, claims := [], claimOut := false,
    ahead := none, claimEpoch := 0#8, recheck := false, rearmed := false, fault := none, tiles := [],
    consumed := .ok, srcPoison := false, tavg := 0, events := 0, lastEv := none, sumIv := 0 }

/-- A fault register that holds nothing. -/
def noFault : FaultReg :=
  { valid := false, again := false, space := 0, cause := .ok, addr := 0, tile := 0, wdi := 0, seq := 0#16 }

/-- Bank 0 at THAW: the default image that the booted configuration image carries (R93). -/
def bankOf (image : Bytes) : Bank :=
  { half := (Config.defaultImage image).take 2048, segs := (Config.defaultImage image).drop 2048, dflt := true }

/-- Bank 0 under the configuration image the module is shipped with. -/
def bankAtThaw : Bank := bankOf (Config.shippedImage 0)

/-- Bank 1 starts with every slot invalid (R93). -/
def bankInvalid : Bank := { half := List.replicate 2048 0#8, segs := [], dflt := false }

/-- A core at the end of Thaw. (DEDUCED, log 4.) -/
def coreAtThaw : Core :=
  { flags := 0#15, preds := List.replicate 15 (BitVec.allOnes 128, BitVec.allOnes 64),
    banks := [bankAtThaw, bankInvalid], active := 0, shadow := false, holdA := [], holdB := [], part := none,
    chain := none, claims := [], claimed := .none, faultLd := noFault, faultSt := noFault, suPoison := 0#32 }

/-- A work counter at the end of Thaw (Table 21-14). -/
def workCtrAtThaw : WorkCtr :=
  { epoch := 0#8, base := 0#32, limit := 0#32, next := 0#32, committed := 0#32, stale := 0#32, waiting := [],
    landing := [] }

/-- A cluster at the end of Thaw (Table 21-13). (DEDUCED, log 4.) -/
def clusterAtThaw : Cluster :=
  { wc := workCtrAtThaw, rearmLo := 0#64, rearmStatus := .ok, rearmDone := false, outstanding := 0x40203060#32,
    adderFlags := 0#5, sramCe := 0#32, sramUe := 0#32, wdogMs := 100#32, wdogAt := 0, ctlResets := 0, small := [],
    amo := .none, resv := none }

/-- A frame pool that is not set up (Table 21-7). -/
def poolAtThaw : FramePool :=
  { valid := false, base := 0, fsizeK := 0, count := 0, ftab := 0, initBusy := false, free := [], limbo := [], held := [] }

/-- An SSA at the end of Thaw (Tables 10-6, 21-8). (DEDUCED, log 4.) -/
def ssaAtThaw : Ssa :=
  { share := 8, flags := 0#5, halted := false, last := .ok, poison := 0#32, jobs := 0#64, throttleNs := 0#64,
    job := none }

/-- A Churn direction at the end of Thaw. -/
def chnDirAtThaw : ChnDir :=
  { steps := 0#64, xbound := 0#32, xwaitNs := 0#64, holdNs := 0#64, bytesRx := 0#64, stray := 0#32, rtt := 0#16,
    shake := none, answered := false, credits := 0, slots := [], next := 0, rel := 0, relAt := 0, sent := 0, endsIn := 0,
    admitted := 0, lastOut := false, lastRx := 0, failed := false }

/-- A closed ring context. (DEDUCED, log 4.) -/
def chnAtThaw : ChnCtx :=
  { state := 0, cause := .none, eGrant := 0, wGrant := 0, xboundLast := false, ring := none, owner := (0, 0), openAt := 0,
    layer := 0, rotating := false, tag := 0#16, east := chnDirAtThaw, west := chnDirAtThaw }

/-- Link `l` of the module at the end of Thaw: FAB_PORT_CFG's hardware default gives each port one 8-lane link. (DEDUCED, log 4.) -/
def linkAtThaw (l : Nat) : Link :=
  { disable := false, phase := .off, cause := .none, lanesUp := 0, presetUsed := false, full := true,
    width := if l % 4 = 0 then 8 else 0, first := 0, phaseAt := 0, peer := none, nbr := none, txSeq := 0, unacked := [],
    ackAt := 0, replays := 0, rxLast := 4095, nak := false, gap := false, rxPart := [], credits := List.replicate 8 0,
    owed := List.replicate 8 0, ackSent := 4095, wire := [], txq := [], stalled := [] }

/-- A router's counters at the end of Thaw. -/
def routerAtThaw : RouterCtr := { lost := 0#32, bad := 0#32, noroute := 0#32, hops := 0#32, stall := 0#32 }

/-- A stack's registers at the end of Thaw (Tables 14-3, 21-9). -/
def stackMemAtThaw : StackMem :=
  { level := 0, temp := 0, ce := 0#32, ue := 0#32, updPoison := 0#32, adderFlags := 0#5,
    regs := ⟨true, 0x10, 0xFF⟩ :: List.replicate 7 ⟨true, 0x10, 0⟩, ueSeen := [] }

/-- A lend grant at the end of Thaw (Table 14-6). -/
def grantAtThaw : Grant :=
  { base := 0, count := 0, borrower := 0xFFFF, gen := 0, fsizeK := 8, wr := false, rd := false, revoke := false,
    valid := false, held := none }

/-- A flash channel at the first Thaw. -/
def flashChAtThaw : FlashCh :=
  { ce := 0#32, ue := 0#32, reloc := 0#32, wearMax := 0, wearMean := 0, spare := 0, wearAlarm := false,
    ueTimes := [] }

/-- The factory owner record: GEN 0, no VALID slot (R427). -/
def ownerAtFactory : Bytes := [0x52#8, 0x4F#8] ++ List.replicate 8006 0#8

/-- The configuration of function `f` (Table 17-2). -/
def fnCfgAtThaw (f : Nat) : FnCfg :=
  if f = 0 then { en := true, perm := 0x1F#8, vecN := 0x800, vecBase := 0, ringN := 0x100, ringBase := 0 }
  else { en := false, perm := 0x11#8, vecN := 0, vecBase := 0, ringN := 0, ringBase := 0 }

/-- The power block at the end of Thaw (Tables 18-8 to 18-10, 21-15). (DEDUCED, log 4.) -/
def pwrAtThaw : Pwr :=
  { state := .idle, lastCause := .none, capEn := true, idleReq := false, wakeBit := false, idleBlock := 0#8,
    inWarn := false, firstSweep := false, inMv := 0, inW := 0, cap := 2600, rails := List.replicate 13 (0, 0),
    dieCurveCap := [64, 64], diePowerCap := [64, 64], modRstN := true, slotId := 0#4, waking := false,
    wakeSeen := false, clockAt := 0, resetAt := none, bypassB := false, bypassO := false, ctlDownTo := 0, romMonitor := false }

/-- The thermal block at the end of Thaw. (DEDUCED, log 4.) -/
def thmAtThaw : Thm :=
  { temps := List.replicate 64 none, curve := shippedCurve, pendCurve := shippedCurve, committed := false,
    curveErr := false, holdSrcDie := false, holdUnit := 0, hotDie := 0, hotStack := 0, hotStackNo := 0, coolSweeps := 0,
    applying := List.replicate 2 (List.replicate 8 false), prevDie := [none, none] }

/-- The host interface at the end of Thaw (Table 21-2). (DEDUCED, log 4.) -/
def hifAtThaw : Hif :=
  { lock := false, conflict := false, linkRate := 0, linkLanes := 0, linkFlit := false, retrains := 0, dbErr := 0#32,
    ringErr := 0#32, cqDrop := 0#32, winErr := 0#32, cqFullNs := 0#64, fnCfg := (List.range 33).map fnCfgAtThaw,
    ring0 := List.replicate 33 0#256, ring0Held := [], ring0Wait := [], rings := [], inflight := [], nextCmd := 0,
    alm := List.replicate 33 ⟨0#64, 0#32, .ok, false, false, 0#32⟩, almReqs := [], masked := [], pendVec := [], signalled := [],
    atc := [], cfgServed := none, latches := [], heldHi := [],
    ids := Config.imageIds (Config.shippedImage 0), classCode := 0x12#8, aer := 0#32, selects := [] }

/-- The telemetry block at the end of Thaw (Table 21-16). (DEDUCED, log 4.) -/
def telAtThaw : Tel :=
  { sum := 0#64, latches := List.replicate 64 ⟨0#64, 0#16, 0#48⟩, sbMask := 0#32, almVec := 0, evtBase := 0,
    evtEn := false, evtExp := 12, evtVec := 0, evtHead := 0#32, evtNext := 0#32, mirrored := 0#32, ovf := false,
    evtDrop := 0#32, mirBase := 0, mirRate := 256, mirQueue := [], mirNew := 0, mirSince := none, trcBase := 0,
    trcMir := 0, trcEn := false, trcExp := 12, trcSel := 0, trcPeriod := 0, trcDrop := 0#32, trcCount := 0, trcNext := 0,
    trcLast := 0 }

/-- The security block at the end of the first Thaw of a factory module. (DEDUCED, log 4.) -/
def secAtThaw : Sec :=
  { slots := (List.range 3).map fun k => (Config.shippedImage k, []),
    booted := [some false, some false, some false], floors := [0#32, 0#32, 0#32], floorsMac := true, leafMac := true,
    owner := ownerAtFactory, leaf := 0, leafLog := 0, treesReady := false, nextBottom := false, bootCause := 0,
    attNonce := 0#256, attAddr := ⟨0, 0⟩, attCert := false, attStatus := .ok, attBusy := false, attDone := false,
    attWait := [], report := [], stageAddr := ⟨0, 0⟩, stageKind := 0, stageStatus := .ok, stageBusy := false,
    stageDone := false, stage := none, ownerAddr := ⟨0, 0⟩, ownerStatus := .ok, ownerBusy := false, ownerDone := false,
    ownerBuf := List.replicate 8192 0#8, sbAnswer := none }

/-- The KVC block at the end of Thaw (Table 21-6). (DEDUCED, log 4.) -/
def kvcAtThaw : Kvc :=
  { seqBase := 0, seqN := 0, epoch := 0#64, readers := [], poolErr := false, pools := List.replicate 16 poolAtThaw,
    poolEmpty := List.replicate 16 0#32, refErr := 0#32, scoreSkip := 0#32, moveFail := 0#32, curdSkip := 0#32,
    curveBase := 0, curveStatus := 0#16, curves := List.replicate 16 curveAtThaw, sketchBase := 0, lockQ := [],
    committing := [], quarantine := [], moves := [] }

/-- The fabric at the end of Thaw (Table 21-3). (DEDUCED, log 4.) -/
def fabAtThaw : Fab :=
  { addr := 0, assigned := false, train := false, laid := false, portCfg := List.replicate 16 0xE0#32,
    links := (List.range 64).map linkAtThaw, local_ := List.replicate 256 0#32, region := List.replicate 256 0#32,
    lshape := 0#32, lcoord := 0#32, lmapBase := 0, lbusy := false,
    retryNs := List.replicate 12 1000#32 ++ List.replicate 4 12000#32, stallUs := 1000#32, cableSum := 0#32, plan := none,
    cableBad := false, fecCorr := List.replicate 16 0#64, replay := List.replicate 16 0#32,
    retrain := List.replicate 16 0#32, routers := [routerAtThaw, routerAtThaw], noRouteLatched := [], rxq := [[], []],
    delivered := [[], []], presets := [], eqxRoot := false, eqxPort := 0, eqxLink := 0, eqxInterval := 1000,
    eqx := .unsync, eqxGood := 0, eqxLastGood := 0, eqxTheta := 0, eqxTrim := 0, eqxTrimNs := 0, eqxFrac := 0, eqxSentT1 := none, eqxAt := 0, eqxLatched := 0#32,
    counter := 0#64 }

/-- The memory block at the end of Thaw (Table 21-9). (DEDUCED, log 4.) -/
def memAtThaw : MemCtl :=
  { partMap := 0#96, dlShare := 6, dlBytes := List.replicate 6 0#64, dlFullNs := 0#64, scrubH := 24#32,
    linkLimit := 1024#32, ueLimit := 16#32, fail := none, margin := 0#32, marginGo := false, marginStack := 0, marginResult := 0,
    marginRes := List.replicate 32 0#16, stk := List.replicate 8 stackMemAtThaw, grants := List.replicate 16 grantAtThaw,
    copies := [], nextCopy := 0#32, storeFault := false }

/-- The flash block at the end of the first Thaw (Table 21-10): the first scan runs. (DEDUCED, log 4.) -/
def flsAtThaw : Fls :=
  { state := .scanning, poolErr := false, share := 8, ueLimit := 64#32, fail := none, written := 0#64, programmed := 0#64,
    pools := List.replicate 16 ⟨false, false, 0, 0⟩, chans := List.replicate 64 flashChAtThaw, objects := [], alloc := [], bad := [],
    soft := [], reads := [], slack := 0, dark := none, readonly := false, scanned := false, xfers := [], nextXfer := 0 }

/-- The search block at the end of the first Thaw (Table 21-11). (DEDUCED, log 4.) -/
def vseAtThaw : Vse :=
  { indexes := [], jobs := [], reads := List.replicate 64 0#64, queries := 0#64, scanAmo := .none }

/-- The module right after reset. (DEDUCED, log 4.) -/
def State.reset : State :=
  { pending := [], now := 0, free := 0, mem := [], poison := [], soft := [], hostMem := [], hostAbsent := [],
    hostEp := [], fusedTiles := [], refs := [],
    pwr := pwrAtThaw, thm := thmAtThaw, hif := hifAtThaw, tel := telAtThaw, sec := secAtThaw,
    graphs := List.replicate 64 ⟨0#10, none, []⟩, cores := List.replicate 256 coreAtThaw,
    clusters := List.replicate 16 clusterAtThaw, sfu := ⟨none, false, [], 0#32⟩, kvc := kvcAtThaw,
    ssa := List.replicate 8 ssaAtThaw, chn := List.replicate 8 chnAtThaw,
    col := [⟨0#32, 0#32, 0#32, 0#5⟩, ⟨0#32, 0#32, 0#32, 0#5⟩], groups := [], fab := fabAtThaw, memc := memAtThaw,
    fls := flsAtThaw, vse := vseAtThaw }

end Sys2Proof.Machine
end

