-- ==== Sys2Proof/Machine/Bits.lean ====
section
/-! DEFINITION. Bit fields, byte order (R4), saturating counters (R414) and small list helpers. -/

namespace Sys2Proof.Machine

/-- Byte `i` of a run, zero beyond its end. -/
def byteAt (l : Bytes) (i : Nat) : Nat := (l.getD i 0#8).toNat

/-- The little-endian number in the `n` bytes at `off` (R4). -/
def leAt (l : Bytes) (off : Nat) : Nat → Nat
  | 0 => 0
  | n + 1 => byteAt l off + 256 * leAt l (off + 1) n

/-- `v` as `n` little-endian bytes (R4). -/
def leBytes : Nat → Nat → Bytes
  | 0, _ => []
  | n + 1, v => BitVec.ofNat 8 v :: leBytes n (v / 256)

/-- The little-endian number a run of bytes spells. -/
def leNat : Bytes → Nat
  | [] => 0
  | b :: t => b.toNat + 256 * leNat t

/-- The `w` bits of `v` from bit `lo`. -/
def bits (v lo w : Nat) : Nat := v / 2 ^ lo % 2 ^ w

/-- Bit `i` of `v`. -/
def bit (v i : Nat) : Bool := bits v i 1 == 1

/-- A flag as a number. -/
def flag (b : Bool) : Nat := if b then 1 else 0

/-- A `w`-bit field read as two's complement. -/
def signed (w v : Nat) : Int := if v % 2 ^ w < 2 ^ (w - 1) then (v % 2 ^ w : Nat) else (v % 2 ^ w : Nat) - (2 ^ w : Nat)

/-- A whole number as a `w`-bit two's complement field. -/
def toField (w : Nat) (i : Int) : Nat := (i % (2 ^ w : Nat)).toNat

/-- Rounded up to a multiple of `k`. -/
def roundUp (v k : Nat) : Nat := (v + k - 1) / k * k

/-- Cut or padded with zeros to `n` bytes. -/
def padTo (n : Nat) (l : Bytes) : Bytes := (l ++ List.replicate (n - l.length) 0#8).take n

/-- Bytes `off` to `off + n - 1` of a run. -/
def sub (l : Bytes) (off n : Nat) : Bytes := padTo n (l.drop off)

/-- `b` put over `l` from byte `off`, inside its length. -/
def overlay (l : Bytes) (off : Nat) (b : Bytes) : Bytes :=
  (l.take off ++ b.take (l.length - off) ++ l.drop (off + b.length))

/-- True where every byte is zero: a reserved field that holds zero (R5). -/
def allZero (l : Bytes) : Bool := l.all fun b => b == 0#8

/-- A 32-bit counter saturates (R414). -/
def satAdd (w : Word) (k : Nat) : Word := BitVec.ofNat 32 (min (w.toNat + k) 0xFFFFFFFF)

/-- The counter has just reached its last value (R414). -/
def satHit (old new : Word) : Bool := new == BitVec.allOnes 32 && !(old == BitVec.allOnes 32)

/-- The value kept for a key. -/
def assocGet {α : Type} (l : List (Nat × α)) (k : Nat) : Option α :=
  (l.find? fun p => p.1 == k).map Prod.snd

/-- The value for a key replaced, keys kept rising. -/
def assocPut {α : Type} (l : List (Nat × α)) (k : Nat) (v : α) : List (Nat × α) :=
  match l with
  | [] => [(k, v)]
  | p :: t => if k < p.1 then (k, v) :: p :: t else if k = p.1 then (k, v) :: t else p :: assocPut t k v

/-- The key dropped. -/
def assocDrop {α : Type} (l : List (Nat × α)) (k : Nat) : List (Nat × α) := l.filter fun p => !(p.1 == k)

/-- A number added to a rising list without repeats. -/
def insertNat (l : List Nat) (k : Nat) : List Nat :=
  match l with
  | [] => [k]
  | x :: t => if k < x then k :: x :: t else if k = x then x :: t else x :: insertNat t k

/-- The position of the first element that meets `p`. -/
def indexWhere {α : Type} (p : α → Bool) : List α → Nat → Option Nat
  | [], _ => none
  | x :: t, i => if p x then some i else indexWhere p t (i + 1)

/-- Numbered elements, from 0. -/
def numbered {α : Type} : List α → Nat → List (Nat × α)
  | [], _ => []
  | x :: t, i => (i, x) :: numbered t (i + 1)

/-- The status codes of Table 17-8. -/
def statusCode : Status → Nat
  | .ok => 0x00 | .empty => 0x01 | .partialStop => 0x02 | .shapeOver => 0x10 | .badDescriptor => 0x11
  | .ringOverrun => 0x12 | .rearmConflict => 0x13 | .pageFault => 0x20 | .pagePoisoned => 0x21
  | .memberWithdrawn => 0x30 | .chunkPoisoned => 0x31 | .vatWaitTimeout => 0x32 | .groupFenced => 0x33
  | .staleClaim => 0x40 | .tableBusy => 0x41 | .indexSnapshotExpired => 0x50 | .thermalHold => 0x60
  | .unsyncedTime => 0x70 | .internal => 0xF0

/-- The status a code names; reserved codes name none. -/
def statusOf (c : Nat) : Option Status :=
  match c with
  | 0x00 => some .ok | 0x01 => some .empty | 0x02 => some .partialStop | 0x10 => some .shapeOver
  | 0x11 => some .badDescriptor | 0x12 => some .ringOverrun | 0x13 => some .rearmConflict
  | 0x20 => some .pageFault | 0x21 => some .pagePoisoned | 0x30 => some .memberWithdrawn
  | 0x31 => some .chunkPoisoned | 0x32 => some .vatWaitTimeout | 0x33 => some .groupFenced
  | 0x40 => some .staleClaim | 0x41 => some .tableBusy | 0x50 => some .indexSnapshotExpired
  | 0x60 => some .thermalHold | 0x70 => some .unsyncedTime | 0xF0 => some .internal
  | _ => none

/-- OK or EMPTY: not an error. -/
def statusFine (s : Status) : Bool := s == .ok || s == .empty

/-- R28: the first status that is neither OK nor EMPTY, and OK when there is none. (R401) -/
def carried : List Status → Status
  | [] => .ok
  | s :: t => if statusFine s then carried t else s

/-- The status first noted is kept. -/
def noteStatus (old new : Status) : Status := if statusFine old then (if statusFine new then old else new) else old

/-- Opaque choice among `n` equals where the spec names no order; with one candidate it is that one. (DESIGN CHOICE, log 5.) -/
def choose (n salt : Nat) : Nat := if n ≤ 1 then 0 else Config.pick salt % n

end Sys2Proof.Machine
end

