-- ==== Sys2Proof/Machine/Ops.lean ====
section
/-! DEFINITION. The named operations over memory, alarms, events, counters, completions and the state's tables, that every
meaning uses. -/

namespace Sys2Proof.Machine

/-! ### Updates of one element -/

def modCore (s : State) (c : Nat) (f : Core → Core) : State := { s with cores := s.cores.modify c f }
def modCluster (s : State) (c : Nat) (f : Cluster → Cluster) : State := { s with clusters := s.clusters.modify c f }
def modSsa (s : State) (k : Nat) (f : Ssa → Ssa) : State := { s with ssa := s.ssa.modify k f }
def modStk (s : State) (k : Nat) (f : StackMem → StackMem) : State :=
  { s with memc := { s.memc with stk := s.memc.stk.modify k f } }
def modSlot (s : State) (slot : Nat) (f : GraphSlot → GraphSlot) : State := { s with graphs := s.graphs.modify slot f }
def modGraph (s : State) (slot : Nat) (f : Graph → Graph) : State :=
  modSlot s slot fun g => { g with graph := g.graph.map f }
def modStation (s : State) (slot i : Nat) (f : Station → Station) : State :=
  modGraph s slot fun g => { g with stations := g.stations.modify i f }
def modQueue (s : State) (slot q : Nat) (f : Queue → Queue) : State :=
  modGraph s slot fun g => { g with queues := g.queues.modify q f }
def modRing (s : State) (fn r : Nat) (f : Ring → Ring) : State :=
  { s with hif := { s.hif with rings := s.hif.rings.map fun x => if x.fn == fn && x.ring == r then f x else x } }
def modLink (s : State) (l : Nat) (f : Link → Link) : State :=
  { s with fab := { s.fab with links := s.fab.links.modify l f } }
def modRouter (s : State) (d : Nat) (f : RouterCtr → RouterCtr) : State :=
  { s with fab := { s.fab with routers := s.fab.routers.modify d f } }
def modGroup (s : State) (id : Nat) (f : Group → Group) : State :=
  { s with groups := s.groups.map fun g => if g.id == id then f g else g }
def modChn (s : State) (i : Nat) (f : ChnCtx → ChnCtx) : State := { s with chn := s.chn.modify i f }

def slotGraph (s : State) (slot : Nat) : Option Graph := (s.graphs[slot]?).bind fun g => g.graph
def coreAt (s : State) (c : Nat) : Core := s.cores.getD c coreAtThaw
def clusterAt (s : State) (c : Nat) : Cluster := s.clusters.getD c clusterAtThaw
def linkAt (s : State) (l : Nat) : Link := s.fab.links.getD l (linkAtThaw l)
def stackAt (s : State) (k : Nat) : StackMem := s.memc.stk.getD k stackMemAtThaw
def ssaAt (s : State) (k : Nat) : Ssa := s.ssa.getD k ssaAtThaw
def chnAt (s : State) (i : Nat) : ChnCtx := s.chn.getD i chnAtThaw
def findRing (s : State) (fn r : Nat) : Option Ring := s.hif.rings.find? fun x => x.fn == fn && x.ring == r
def findGroup (s : State) (id : Nat) : Option Group := s.groups.find? fun g => g.id == id
def fnCfg (s : State) (f : Nat) : FnCfg := s.hif.fnCfg.getD f (fnCfgAtThaw 1)

/-- The next free value's number is used up. (DESIGN CHOICE, log 5.) -/
def tick1 (s : State) : State := { s with free := s.free + 1 }

/-! ### Memory as a list of cells in canonical form -/

/-- The canonical form: addresses strictly rising, no entry equal to what an unlisted address reads as (zero, R390).
(DESIGN CHOICE, log 3.) -/
abbrev Memory.wf (m : List Host.Cell) : Prop :=
  m.Pairwise (fun x y => x.1 < y.1) ∧ ∀ c ∈ m, c.2 ≠ 0#8

/-- The byte at an address; an unlisted address reads zero. (DESIGN CHOICE, log 3.) -/
def cellGet : List Host.Cell → Nat → Byte
  | [], _ => 0#8
  | c :: t, a => if c.1 = a then c.2 else cellGet t a

/-- One byte written, the canonical form kept. -/
def cellPut : List Host.Cell → Nat → Byte → List Host.Cell
  | [], a, b => if b = 0#8 then [] else [(a, b)]
  | c :: t, a, b =>
    if a < c.1 then (if b = 0#8 then c :: t else (a, b) :: c :: t)
    else if a = c.1 then (if b = 0#8 then t else (a, b) :: t)
    else c :: cellPut t a b

/-- Bytes written at the addresses `f i, f (i+1), …`. -/
def cellPutVia (f : Nat → Nat) (m : List Host.Cell) (i : Nat) : Bytes → List Host.Cell
  | [] => m
  | b :: t => cellPutVia f (cellPut m (f i) b) (i + 1) t

/-! ### The address map (R306, Table 14-1) -/

def hbmEnd : Nat := 0x006000000000
def stackBytes : Nat := 0x000C00000000

/-- The direct address of a module physical address; none at a hole (R306-R308). The set-up window is no memory here. -/
def direct (a : Nat) : Option Nat :=
  if a < hbmEnd then some a
  else if 0x008000000000 ≤ a ∧ a < 0x00E000000000 then
    let die := if a < 0x00B000000000 then 0 else 1
    let o := if die = 0 then a - 0x008000000000 else a - 0x00B000000000
    let g := o / 4096
    some ((4 * die + g % 4) * stackBytes + g / 4 * 4096 + o % 4096)
  else if 0x080000000000 ≤ a ∧ a < 0x080020000000 then
    if (a - 0x080000000000) % 0x200000 < 0x180000 then some a else none
  else if 0x080040000000 ≤ a ∧ a < 0x080050000000 then
    if (a - 0x080040000000) % 0x1000000 < 0xC00000 then some a else none
  else none

/-- The end of the run of existing addresses that holds `a`. -/
def runEnd (a : Nat) : Option Nat :=
  if a < hbmEnd then some hbmEnd
  else if 0x008000000000 ≤ a ∧ a < 0x00E000000000 then some 0x00E000000000
  else if 0x080000000000 ≤ a ∧ a < 0x080020000000 ∧ (a - 0x080000000000) % 0x200000 < 0x180000 then
    some (a - (a - 0x080000000000) % 0x200000 + 0x180000)
  else if 0x080040000000 ≤ a ∧ a < 0x080050000000 ∧ (a - 0x080040000000) % 0x1000000 < 0xC00000 then
    some (a - (a - 0x080040000000) % 0x1000000 + 0xC00000)
  else none

/-- Every byte of the range exists. (DESIGN CHOICE, log 80.) -/
def spanOk (a n : Nat) : Bool :=
  match runEnd a with
  | some e => a + n ≤ e
  | none => false

/-- The direct address where it exists, else the address itself. -/
def directD (a : Nat) : Nat := (direct a).getD a

/-- Where a direct address lies. -/
inductive Place where
  | hbm (stack : Nat)
  | sram (cluster : Nat)
  deriving DecidableEq, Repr

/-- The stack, or the cluster whose counters cover the SRAM (Table 14-11), of a direct address. -/
def placeOf (d : Nat) : Place :=
  if d < hbmEnd then .hbm (d / stackBytes)
  else if d < 0x080020000000 then .sram ((d - 0x080000000000) / 0x200000 / 16)
  else .sram ((d - 0x080040000000) / 0x1000000)

/-- The range lies in direct HBM. -/
def inHbm (a n : Nat) : Bool := a + n ≤ hbmEnd

/-- The range lies in one cluster's SRAM. -/
def inSram (a n : Nat) : Bool := 0x080040000000 ≤ a && spanOk a n

/-- Address of core `x`'s operand store. -/
def opStore (x : Nat) : Nat := 0x080000000000 + x * 0x200000
/-- Address of core `x`'s ring-slot area. -/
def ringArea (x : Nat) : Nat := opStore x + 0x100000
/-- Address of cluster `i`'s SRAM. -/
def sramBase (i : Nat) : Nat := 0x080040000000 + i * 0x1000000

/-- The 32-byte sectors of a range, as direct addresses over 32 (R309). -/
def sectorsOf (a n : Nat) : List Nat :=
  (List.range ((a % 32 + n + 31) / 32)).map fun i => directD (a - a % 32 + 32 * i) / 32

/-- The bytes of a range, with no effect on any counter. -/
def peek (s : State) (a n : Nat) : Bytes := (List.range n).map fun i => cellGet s.mem (directD (a + i))

/-- One byte of module memory as the model reads it. -/
def readByte (s : State) (a : Nat) : Byte := cellGet s.mem (directD a)

/-- The die that holds an address. -/
def dieOf (a : Nat) : Nat :=
  match placeOf (directD a) with
  | .hbm k => k / 4
  | .sram c => c / 8

/-- Bytes that cross the die link from `die` (R311): class 0 CTRL, 1 FABRIC, 2 MEM; direction 0 leaves die 0.
(DESIGN CHOICE, log 71.) -/
def dlCount (s : State) (cls die n : Nat) : State :=
  { s with memc := { s.memc with dlBytes := s.memc.dlBytes.modify (2 * cls + die % 2) (· + BitVec.ofNat 64 n) } }

/-- Bytes of class CTRL that a unit of one die moves to or from another (R311). (DESIGN CHOICE, log 71.) -/
def dlCtrl (s : State) (src dst n : Nat) : State := if src = dst then s else dlCount s 0 src n

/-- A far transfer of core `c`'s stream unit (R311, class MEM): a load's bytes leave the die that holds them, a store's the core's.
(DESIGN CHOICE, log 71.) -/
def dlMem (s : State) (c a n : Nat) (store : Bool) : State :=
  if dieOf a = c / 128 then s else dlCount s 2 (if store then c / 128 else dieOf a) n

/-- Bytes put at `a` and after, with no effect on any counter or sector mark. -/
def poke (s : State) (a : Nat) (b : Bytes) : State := { s with mem := cellPutVia directD s.mem a b }

/-! ### Interrupts, alarms and events (R380, R408-R412) -/

/-- Function-local vector `v` of a function is signalled; a masked vector becomes pending (R380). (DESIGN CHOICE, log 15.) -/
def signalVec (s : State) (fn v : Nat) : State :=
  let m := (fnCfg s fn).vecBase + v
  if s.hif.masked.contains m then { s with hif := { s.hif with pendVec := insertNat s.hif.pendVec m } }
  else { s with hif := { s.hif with signalled := m :: s.hif.signalled } }

/-- The time counter as any unit reads it, with SYNC in bit 63 (R302, R408). -/
def timeStamp (s : State) : Dword :=
  BitVec.ofNat 64 (s.fab.counter.toNat % 2 ^ 63 + (if s.fab.eqx == .sync then 2 ^ 63 else 0))

/-- An event before it has a number (Table 19-4). -/
structure Event where
  kind   : Nat
  status : Status
  unitK  : Nat
  unitN  : Nat
  arg0   : Nat
  arg1   : Nat
  deriving DecidableEq, Repr

/-- The 32 bytes of an event (Table 19-4). -/
def eventBytes (s : State) (e : Event) : Bytes :=
  leBytes 8 (timeStamp s).toNat ++ leBytes 4 s.tel.evtNext.toNat ++ leBytes 1 e.kind ++ leBytes 1 (statusCode e.status)
    ++ leBytes 2 (e.unitN % 4096 + e.unitK * 4096) ++ leBytes 8 e.arg0 ++ leBytes 8 e.arg1

/-- An entry written to its position: the mirror's earlier copy of that position is never made (R412). -/
def eventStore (s : State) (pos : Nat) (b : Bytes) : State :=
  let a := s.tel.evtBase + 32 * pos
  let s1 := { poke s a b with poison := s.poison.filter fun k => !(k == a / 32), soft := s.soft.filter fun k => !(k == a / 32) }
  { s1 with tel := { s1.tel with
      mirQueue := (s1.tel.mirQueue.filter fun p => !(p.1 == pos)) ++ [(pos, s1.tel.evtNext)]
      mirNew := s1.tel.mirNew + 1
      mirSince := some (s1.tel.mirSince.getD s1.now)
      evtNext := s1.tel.evtNext + 1 } }

/-- What the ring's rules found beside the entry: TEL_EVT_DROP reached its last value; where overflow began. -/
structure EventNote where
  sat : Bool
  ovf : Option Nat
  deriving DecidableEq, Repr

/-- TEL_EVT_DROP counts one. (DEDUCED, log 10.) -/
def eventDrop (s : State) : State × Bool :=
  let d := satAdd s.tel.evtDrop 1
  ({ s with tel := { s.tel with evtDrop := d } }, satHit s.tel.evtDrop d)

/-- One event by the ring's rules (R410, R411, R448), without the alarms it may raise. (DEDUCED, log 10.) -/
def eventCore (s : State) (e : Event) : State × EventNote :=
  let size := 2 ^ s.tel.evtExp
  if !s.tel.evtEn then
    let d := eventDrop s
    (d.1, ⟨d.2, none⟩)
  else if s.tel.ovf || (s.tel.evtNext - s.tel.evtHead).toNat ≥ size then
    let h := s.tel.evtHead.toNat
    let off := (s.tel.evtNext - s.tel.evtHead - 64#32).toNat
    let pos := (h + 64 + off % (size - 64)) % size
    let first := !s.tel.ovf
    let d := eventDrop { s with tel := { s.tel with ovf := true } }
    (eventStore d.1 pos (eventBytes d.1 e), ⟨d.2, if first then some pos else none⟩)
  else
    (eventStore s (s.tel.evtNext.toNat % size) (eventBytes s e), ⟨false, none⟩)

/-- The latch and summary bit of alarm source `n` (R408). -/
def alarmLatch (s : State) (n arg : Nat) : State :=
  let l := s.tel.latches.getD n ⟨0#64, 0#16, 0#48⟩
  let l' : Latch := if l.count = 0#16 then ⟨timeStamp s, 1#16, BitVec.ofNat 48 arg⟩
    else { l with count := BitVec.ofNat 16 (min (l.count.toNat + 1) 0xFFFF) }
  let was := bit s.tel.sum.toNat n
  let s1 := { s with tel := { s.tel with latches := s.tel.latches.set n l'
                                         sum := s.tel.sum ||| (1#64 <<< n) } }
  if was then s1 else signalVec s1 0 s1.tel.almVec

/-- The ALARM event of a raise (R408). (DEDUCED, log 10; DESIGN CHOICE, log 17.) -/
def alarmEvent (n arg : Nat) : Event := ⟨0x09, .ok, 7, 0, n, arg⟩

/-- The alarms an event's own storing may raise (R411, R414). -/
def eventAlarms (r : State × EventNote) : State :=
  let r2 := match r.2.ovf with
    | some pos =>
      let q := eventCore (alarmLatch r.1 20 pos) (alarmEvent 20 pos)
      (q.1, r.2.sat || q.2.sat)
    | none => (r.1, r.2.sat)
  if r2.2 then (eventCore (alarmLatch r2.1 19 0x03800034) (alarmEvent 19 0x03800034)).1 else r2.1

/-- An event is produced (R410, R411). (DESIGN CHOICE, log 9; DEDUCED, log 10; DESIGN CHOICE, log 17.) -/
def event (s : State) (e : Event) : State := eventAlarms (eventCore s e)

/-- An alarm is raised: its latch, its summary bit, its event (R408). (DESIGN CHOICE, log 9; DEDUCED, log 10.) -/
def alarm (s : State) (n arg : Nat) : State := event (alarmLatch s n arg) (alarmEvent n arg)

/-- The alarm HOST_ERR, whose argument is the AER status (Table 19-2). -/
def hostErr (s : State) : State := alarm s 21 s.hif.aer.toNat

/-- A host read that ended in an error is reported through AER (R403). (DESIGN CHOICE, log 64.) -/
def aerNote (s : State) : State := hostErr { s with hif := { s.hif with aer := s.hif.aer ||| Config.aerError s.now } }

/-- The alarm CTR_SAT when a counter has just saturated (R414). -/
def ctrSat (off : Nat) (old new : Word) (s : State) : State := if satHit old new then alarm s 19 off else s

/-! ### Guarded reads and writes of module memory (R308-R310, R400) -/

/-- The pseudo-channel of a direct HBM address (R307); SRAM has none. -/
def channelOf (d : Nat) : Nat := if d < hbmEnd then d % stackBytes / 256 % 64 else 0

/-- The UE or CE event of a sector: of its stack, its core for core-local SRAM, or its cluster (R309, Table 19-4).
(DEDUCED, log 158.) -/
def codeEvent (kind sec : Nat) : Event :=
  match placeOf (32 * sec) with
  | .hbm k => ⟨kind, .ok, 2, k, 32 * sec, channelOf (32 * sec)⟩
  | .sram c =>
    if 32 * sec < sramBase 0 then ⟨kind, .ok, 0, (32 * sec - opStore 0) / 0x200000, 32 * sec, 0⟩
    else ⟨kind, .ok, 1, c, 32 * sec, 0⟩

/-- 24 hours in nanoseconds (R326, R329). -/
def dayNs : Nat := 86400000000000

/-- An uncorrectable sector of a stack is kept for 24 hours, once (R326). -/
def noteUeSector (s : State) (k sec : Nat) : State :=
  modStk s k fun x => { x with ueSeen :=
    (x.ueSeen.filter fun (p : Nat × Nat) => !(p.1 == sec) && decide (s.now < p.2 + dayNs)) ++ [(sec, s.now)] }

/-- An uncorrectable read counts and is recorded (R309). -/
def countUe (s : State) (sec : Nat) : State :=
  let s1 := match placeOf (32 * sec) with
    | .hbm k =>
      let o := (stackAt s k).ue
      ctrSat (0x01800108 + 0x20 * k) o (satAdd o 1) (modStk (noteUeSector s k sec) k fun x => { x with ue := satAdd x.ue 1 })
    | .sram c =>
      let o := (clusterAt s c).sramUe
      ctrSat (0x02800044 + 0x1000 * c) o (satAdd o 1) (modCluster s c fun x => { x with sramUe := satAdd x.sramUe 1 })
  event s1 (codeEvent 0x02 sec)

/-- A corrected read counts, is recorded, and the sector is written back corrected (R309). -/
def countCe (s : State) (sec : Nat) : State :=
  let s1 := match placeOf (32 * sec) with
    | .hbm k =>
      let o := (stackAt s k).ce
      ctrSat (0x01800104 + 0x20 * k) o (satAdd o 1) (modStk s k fun x => { x with ce := satAdd x.ce 1 })
    | .sram c =>
      let o := (clusterAt s c).sramCe
      ctrSat (0x02800040 + 0x1000 * c) o (satAdd o 1) (modCluster s c fun x => { x with sramCe := satAdd x.sramCe 1 })
  event { s1 with soft := s1.soft.filter fun k => !(k == sec) } (codeEvent 0x01 sec)

/-- A sector is uncorrectable. -/
def isBad (s : State) (sec : Nat) : Bool := s.poison.contains sec

/-- The counting of one sector's read. -/
def readSector (s : State) (sec : Nat) : State :=
  if isBad s sec then countUe s sec else if s.soft.contains sec then countCe s sec else s

/-- What a read of memory delivers. -/
inductive Got where
  | hole
  | bad (addr : Nat) (data : Bytes)    -- a sector is uncorrectable: its address, and the bytes as they stand
  | ok (data : Bytes)
  deriving DecidableEq, Repr

/-- The bytes, whatever their state. -/
def gotBytes : Got → Bytes
  | .hole => []
  | .bad _ d => d
  | .ok d => d

/-- A guarded read (R308, R309). -/
def memRead (s : State) (a n : Nat) : State × Got :=
  if spanOk a n then
    let secs := sectorsOf a n
    let s1 := secs.foldl readSector s
    match secs.find? (isBad s) with
    | some k => (s1, .bad (32 * k) (peek s a n))
    | none => (s1, .ok (peek s a n))
  else (s, .hole)

/-- How a write meets one sector: whole sectors are replaced, partial ones are read, changed and written (R310). -/
def writeSector (lo hi : Nat) (s : State) (p : Nat × Nat) : State :=
  let whole := lo ≤ p.1 && p.1 + 32 ≤ hi
  let sec := p.2
  if whole then
    { s with poison := s.poison.filter fun k => !(k == sec), soft := s.soft.filter fun k => !(k == sec) }
  else if isBad s sec then
    match placeOf (32 * sec) with
    | .hbm k =>
      let o := (stackAt s k).updPoison
      ctrSat (0x0180010C + 0x20 * k) o (satAdd o 1)
        (modStk (countUe s sec) k fun x => { x with updPoison := satAdd x.updPoison 1 })
    | .sram _ => countUe s sec
  else if s.soft.contains sec then countCe s sec
  else s

/-- The sectors of a range, each with the address its first byte has in the requester's view. -/
def sectorViews (a n : Nat) : List (Nat × Nat) :=
  (List.range ((a % 32 + n + 31) / 32)).map fun i =>
    (a - a % 32 + 32 * i, directD (a - a % 32 + 32 * i) / 32)

/-- A guarded write; none at a hole (R308, R310). -/
def memWrite (s : State) (a : Nat) (b : Bytes) : Option State :=
  if spanOk a b.length then
    some (poke ((sectorViews a b.length).foldl (writeSector a (a + b.length)) s) a b)
  else none

/-- A write that marks its sectors uncorrectable (R462, R310). (DESIGN CHOICE, log 66.) -/
def markBad (s : State) (a n : Nat) : State := { s with poison := (sectorsOf a n).foldl insertNat s.poison }

/-- The alarm CTRL_POISON with the sector's address (R402). -/
def ctrlPoison (s : State) (addr : Nat) : State := alarm s 3 addr

/-- What a read of a control structure delivers: a hole is BAD_DESCRIPTOR, an uncorrectable sector PAGE_POISONED with the
alarm (R308, R402). -/
def ctrlRead (s : State) (a n : Nat) : State × Except Status Bytes :=
  let r := memRead s a n
  match r.2 with
  | .hole => (r.1, .error .badDescriptor)
  | .bad k _ => (ctrlPoison r.1 k, .error .pagePoisoned)
  | .ok d => (r.1, .ok d)

/-! ### Host memory under AS 1 (R160, R323) -/

/-- Every page of the range is present. (DESIGN CHOICE, log 12; DEDUCED, log 67.) -/
def hostPresent (s : State) (a n : Nat) : Bool :=
  (List.range ((a % 4096 + n + 4095) / 4096)).all fun i => !(s.hostAbsent.contains (a / 4096 + i))

/-- DESIGN CHOICE, log 3. -/
def hostPeek (s : State) (a n : Nat) : Bytes := (List.range n).map fun i => cellGet s.hostMem (a + i)
def hostPoke (s : State) (a : Nat) (b : Bytes) : State := { s with hostMem := cellPutVia id s.hostMem a b }

/-! ### Completions (R374-R376, R380) -/

/-- The entries of the CQ the host has not consumed fill it. -/
def cqFull (r : Ring) : Bool := decide (2 ^ r.cqExp ≤ (r.written - r.hhead).toNat)

/-- The 16 bytes of a completion with its phase (Table 17-6, R375). -/
def cqBytes (r : Ring) (c : CqEntry) : Bytes :=
  let phase := 1 - r.written.toNat / 2 ^ r.cqExp % 2
  leBytes 8 c.user.toNat ++ leBytes 1 (statusCode c.status)
    ++ leBytes 1 (phase + 2 * flag c.isEvent + 4 * (c.station / 256 % 4) + 16 * c.event)
    ++ leBytes 2 c.result.toNat ++ leBytes 4 c.place.toNat

/-- The interrupt of a CQ is signalled and its moderation starts anew (R380). -/
def ringSignal (s : State) (fn r : Nat) : State :=
  match findRing s fn r with
  | none => s
  | some x => signalVec (modRing s fn r fun y => { y with unsig := 0, unsigAt := none }) fn x.vector

/-- One completion written to its slot, with its interrupt (R375, R380). (DESIGN CHOICE, log 12.) -/
def ringWrite (s : State) (x : Ring) (c : CqEntry) : State :=
  let s1 := hostPoke s (x.cqBase + 16 * (x.written.toNat % 2 ^ x.cqExp)) (cqBytes x c)
  let s2 := modRing s1 x.fn x.ring fun y =>
    { y with written := y.written + 1, unsig := y.unsig + 1, unsigAt := some (y.unsigAt.getD s.now) }
  if x.noirq then s2
  else if !statusFine c.status || x.unsig + 1 ≥ x.modCnt then ringSignal s2 x.fn x.ring
  else s2

/-- A request with RESYNC is in progress: the function's completions are not written and its SQs are not fetched (R382). -/
def resyncing (s : State) (fn : Nat) : Bool :=
  match s.hif.almReqs.find? fun r => r.fn == fn with
  | some r => r.resync
  | none => false

/-- A completion goes to its CQ, or waits in the backlog behind those that wait (R375, R382). (DEDUCED, log 13.) -/
def postEntry (s : State) (fn r : Nat) (c : CqEntry) : State :=
  match findRing s fn r with
  | none => s
  | some x =>
    if x.backlog.isEmpty && !cqFull x && !resyncing s fn then ringWrite s x c
    else modRing s fn r fun y => { y with backlog := y.backlog ++ [c] }

/-- The backlog's entries are written while the CQ has room (R375). (DEDUCED, log 13.) -/
def drainBacklog (s : State) (fn r : Nat) : List CqEntry → State
  | [] => s
  | c :: t =>
    match findRing s fn r with
    | none => s
    | some x =>
      if cqFull x || resyncing s fn then s
      else drainBacklog (ringWrite (modRing s fn r fun y => { y with backlog := t }) x c) fn r t

/-- A command's completion (R374): to the CQ of its own SQ; none for a QUIET command whose status is OK or EMPTY. -/
def complete (s : State) (h : HostHdr) (st : Status) (res : Nat) : State :=
  if h.quiet && statusFine st then s
  else
    let hd := match findRing s h.fn h.ring with
      | some x => x.head
      | none => 0#32
    postEntry s h.fn h.ring ⟨h.user, st, false, 0, 0, BitVec.ofNat 16 res, hd⟩

/-- A command that runs on is noted (Table 17-10, INFLIGHT) and has a number. -/
def startCmd (s : State) (h : HostHdr) (opc : Nat) : State × Nat :=
  ({ s with hif := { s.hif with inflight := s.hif.inflight ++ [⟨s.hif.nextCmd, h, opc⟩], nextCmd := s.hif.nextCmd + 1 } },
    s.hif.nextCmd)

/-- A command is no longer in progress. -/
def dropCmd (s : State) (id : Nat) : State :=
  { s with hif := { s.hif with inflight := s.hif.inflight.filter fun i => !(i.id == id) } }

/-- A command fetched from the SQ is in progress: INFLIGHT, or fetched and held by a FENCE. (DEDUCED, log 16.) -/
def ringBusy (s : State) (fn r : Nat) : Bool :=
  s.hif.inflight.any (fun i => i.hdr.fn == fn && i.hdr.ring == r)
    || (match findRing s fn r with
        | some x => !x.fetched.isEmpty
        | none => false)

/-- A RING_DELETE that waits removes its pair once no command of the SQ is in progress and the backlog is empty (R370).
(DEDUCED, log 16.) -/
def reapRing (s : State) (x : Ring) : State :=
  match x.deleting with
  | none => s
  | some c =>
    match findRing s x.fn x.ring with
    | none => s
    | some y =>
      if ringBusy s x.fn x.ring || !y.backlog.isEmpty then s
      else
        let s1 := { s with hif := { s.hif with
          rings := s.hif.rings.filter fun z => !(z.fn == x.fn && z.ring == x.ring) } }
        complete (dropCmd s1 c.1) c.2 .ok 0

/-- A ring descriptor's fields (Table 17-4), as a pair with every count at 0. -/
def ringOf (fn : Nat) (ring : Nat) (v : Nat) : Ring :=
  { fn := fn, ring := ring, sqBase := bits v 0 64, cqBase := bits v 64 64, sqExp := bits v 128 5, cqExp := bits v 136 5,
    vector := bits v 144 11, noirq := bit v 159, modCnt := bits v 160 8, modUs := bits v 176 10, tail := 0#32, head := 0#32,
    written := 0#32, hhead := 0#32, backlog := [], fetched := [], unsig := 0, unsigAt := none, deleting := none }

/-- The descriptor checks that RING_CREATE and HIF_RING0 share (R370, R444): reserved fields, the stated ranges, the vector.
(DEDUCED, log 14.) -/
def ringDescOk (s : State) (fn v : Nat) : Bool :=
  let r := ringOf fn 0 v
  bits v 133 3 == 0 && bits v 141 3 == 0 && bits v 155 4 == 0 && bits v 168 8 == 0 && bits v 186 6 == 0 && bits v 208 48 == 0
    && decide (6 ≤ r.sqExp ∧ r.sqExp ≤ 16 ∧ 6 ≤ r.cqExp ∧ r.cqExp ≤ 16) && r.sqBase % 4096 == 0 && r.cqBase % 4096 == 0
    && r.modCnt != 0 && (r.noirq || decide (r.vector < (fnCfg s fn).vecN))

/-- Ring pair 0 of a function set up anew from HIF_RING0, or made absent (R444). -/
def applyRing0 (s : State) (fn : Nat) : State :=
  let v := (s.hif.ring0.getD fn 0#256).toNat
  let others := s.hif.rings.filter fun z => !(z.fn == fn && z.ring == 0)
  let made := ringDescOk s fn v && decide (0 < (fnCfg s fn).ringN)
  { s with hif := { s.hif with
      rings := if made then others ++ [ringOf fn 0 v] else others
      ring0Wait := s.hif.ring0Wait.filter fun f => !(f == fn) } }

/-- What waited for commands to end: deletions of rings, and commits of HIF_RING0 (R370, R444). -/
def afterCmd (s : State) : State :=
  let s1 := s.hif.rings.foldl reapRing s
  s1.hif.ring0Wait.foldl (fun t f => if ringBusy t f 0 then t else applyRing0 t f) s1

/-- A command that ran on ends with its completion; one that a function-level reset has dropped has none (R368). -/
def finishCmd (s : State) (c : Nat × HostHdr) (st : Status) : State :=
  if s.hif.inflight.any fun i => i.id == c.1 then afterCmd (complete (dropCmd s c.1) c.2 st 0) else s

/-- The graph ID of a slot (R38). (DEDUCED, log 27.) -/
def gidOf (s : State) (slot : Nat) : Nat :=
  slot + 64 * (match s.graphs[slot]? with | some g => g.gen.toNat | none => 0)

/-- The CQ of a graph's events has a full backlog (R375). -/
def cqBlocked (s : State) (g : Graph) : Bool :=
  match findRing s g.fn g.cq with
  | some x => decide (64 ≤ x.backlog.length)
  | none => false

/-- A graph's completion (R43, R374): 1 DRAINED, 2 HALTED, 3 NOTIFY, 4 STALL. A STALL that meets a full backlog is dropped and
counted (R375). `place` is the work-descriptor index, or the QID for STALL. (DEDUCED, log 13.) -/
def graphEvent (s : State) (slot ev : Nat) (st : Status) (station place : Nat) : State :=
  match slotGraph s slot with
  | none => s
  | some g =>
    if ev = 4 && cqBlocked s g then
      let o := s.hif.cqDrop
      ctrSat 0x0018 o (satAdd o 1) { s with hif := { s.hif with cqDrop := satAdd o 1 } }
    else
      let s1 := modGraph s slot fun x => { x with lastStatus := st, lastEvent := ev, events := x.events + 1 }
      let w := if ev = 4 then place % 4096 else place % 2 ^ 24 + 2 ^ 24 * (station % 256)
      postEntry s1 g.fn g.cq
        ⟨g.user, st, true, ev, if ev = 4 then 0 else station, BitVec.ofNat 16 (gidOf s slot), BitVec.ofNat 32 w⟩

/-! ### Buffers and pools (R33, R35) -/

/-- DEDUCED, log 34. -/
def refOf (s : State) (a : Nat) : Nat := (assocGet s.refs a).getD 0

/-- A buffer's count set; a count of zero is not listed. -/
def setRef (s : State) (a n : Nat) : State :=
  { s with refs := if n = 0 then assocDrop s.refs a else assocPut s.refs a n }

/-- The pool's copy list in a graph changed, wherever the pool is. -/
def modPool (s : State) (id : Nat) (f : Pool → Pool) : State :=
  { s with graphs := s.graphs.map fun sl =>
      { sl with graph := sl.graph.map fun g => { g with pools := g.pools.map fun p => if p.id == id then f p else p } } }

/-- The pool with an ID, in whichever loaded graph holds it (a POOL_ID is unique in the module, Table 2-8). -/
def findPool (s : State) (id : Nat) : Option Pool :=
  (s.graphs.filterMap fun sl => sl.graph.bind fun g => g.pools.find? fun p => p.id == id).head?

/-- The addresses of a pool's copies: one for SCOPE 0; the operand stores (1) or SRAMs (2) of CLUSTERS (Table 2-8). -/
def poolBases (clusters : Half) (scope base : Nat) : List Nat :=
  let cs := (List.range 16).filter fun c => clusters.getLsbD c
  match scope with
  | 0 => [base]
  | 1 => (cs.map fun c => (List.range 16).map fun i => opStore (16 * c + i) + base).flatten
  | _ => cs.map fun c => sramBase c + base

/-- The buffers of a pool that a station draws from: those of the copy in its own core or cluster (R35). -/
def poolFits (p : Pool) (k : Kind) (u : Nat) (a : Nat) : Bool :=
  match p.scope with
  | 0 => true
  | 1 => decide (opStore u ≤ a ∧ a < opStore u + 0x100000)
  | _ =>
    let c := if k == .walk then u else u / 16
    decide (sramBase c ≤ a ∧ a < sramBase c + 0x1000000)

/-- A buffer is taken from its pool: its count becomes 1 (R33). Which free buffer is a free value. (DESIGN CHOICE, log 35.) -/
def takeBuffer (s : State) (pool : Nat) (k : Kind) (u : Nat) : Option (State × Nat) :=
  match findPool s pool with
  | none => none
  | some p =>
    let bufs := p.free.filter (poolFits p k u)
    match bufs[choose bufs.length s.free]? with
    | none => none
    | some a => some (setRef (modPool (tick1 s) pool fun q => { q with free := q.free.filter fun x => !(x == a) }) a 1, a)

/-! ### Bound stations -/

/-- A station with the graph that binds it. -/
structure Bound where
  slot : Nat
  idx  : Nat
  g    : Graph
  st   : Station
  deriving DecidableEq, Repr

/-- The station bound to a unit (R24: at most one). -/
def findBound (k : Kind) (u : Nat) : List GraphSlot → Nat → Option Bound
  | [], _ => none
  | sl :: t, slot =>
    match sl.graph with
    | none => findBound k u t (slot + 1)
    | some g =>
      match indexWhere (fun (x : Station) => x.kind == k && x.unit == u) g.stations 0 with
      | some i =>
        match g.stations[i]? with
        | some st => some ⟨slot, i, g, st⟩
        | none => none
      | none => findBound k u t (slot + 1)

/-- DEDUCED, log 8. -/
def bound (s : State) (k : Kind) (u : Nat) : Option Bound := findBound k u s.graphs 0

/-- The bound station as the state holds it now. -/
def rebind (s : State) (b : Bound) : Bound :=
  match slotGraph s b.slot with
  | none => b
  | some g => { b with g := g, st := (g.stations[b.idx]?).getD b.st }

/-- The station may go on with what it has begun: the module is ACTIVE, its graph RUNNING or halted by another station
(R41: the other stations run on), the station itself going. (DESIGN CHOICE, log 7; DEDUCED, log 8.) -/
def mayFinish (s : State) (b : Bound) : Bool :=
  s.pwr.state == .active && (b.g.state == .running || b.g.state == .halted) && b.st.run == .going

/-- An event of the station waits behind a full backlog: entries after the 64th are its (R375). (DEDUCED, log 13.) -/
def holdsEvent (s : State) (b : Bound) : Bool :=
  match findRing s b.g.fn b.g.cq with
  | some x => (x.backlog.drop 64).any fun c =>
      c.isEvent && (c.event == 2 || c.event == 3) && c.station == b.idx && c.result == BitVec.ofNat 16 (gidOf s b.slot)
  | none => false

/-- The station may take its next tile or descriptor: no pause is in progress and no event of its own would overfill the backlog
(R40, R375). (DESIGN CHOICE, log 7; DEDUCED, log 8.) -/
def mayStart (s : State) (b : Bound) : Bool :=
  mayFinish s b && b.g.pausing.isNone && !holdsEvent s b

/-- A page reader of a station begins: its start epoch is the present KVC_EPOCH (R204). One that runs goes on. -/
def startReader (s : State) (b : Bound) (cluster : Nat) (seqid : Option Nat) : State :=
  if s.kvc.readers.any fun r => r.station == (b.slot, b.idx) && r.running then s
  else
    { s with kvc := { s.kvc with readers := s.kvc.readers ++
        [⟨cluster, (b.slot, b.idx), seqid, s.kvc.epoch.toNat, [], true, none, [], .ok⟩] } }

/-- The station's running reader has emitted a tile in the buffer at `a`. -/
def readerEmits (s : State) (b : Bound) (a : Nat) : State :=
  { s with kvc := { s.kvc with readers := s.kvc.readers.map fun r =>
      if r.station == (b.slot, b.idx) && r.running then { r with bufs := a :: r.bufs } else r } }

/-- The station's reader has emitted its last tile; it stays in flight until all are released (R204). -/
def endReader (s : State) (b : Bound) : State :=
  { s with kvc := { s.kvc with readers := (s.kvc.readers.map fun r =>
      if r.station == (b.slot, b.idx) then { r with running := false } else r).filter fun r =>
        r.running || !r.bufs.isEmpty || r.query.isSome } }

/-- Station `i` ends its work descriptor: the next one is current, or the list has ended. -/
def advance (s : State) (b : Bound) : State :=
  endReader (modStation s b.slot b.idx fun st =>
    { st with wdi := st.wdi + 1, sub := 0,
              run := (match st.run with
                | .halted x => .halted x
                | r => if st.wdi + 1 < st.workN then r else .ended) }) b

/-- A handle that carries nothing (R27). -/
def emptyHandle (tag : Half) (last : Bool) : Handle := ⟨.empty, 0, last, 0#16, 0, 0xFF, tag, 0⟩

/-- An empty handle (R27). -/
def isEmptyHandle (h : Handle) : Bool := h.status == .empty

/-- Entry `e` of a core's predicate table; entry 0 is fixed all-true (R129). -/
def predOf (x : Core) (e : Nat) : BitVec 128 × BitVec 64 :=
  if e = 0 then (BitVec.allOnes 128, BitVec.allOnes 64) else x.preds.getD (e - 1) (BitVec.allOnes 128, BitVec.allOnes 64)

/-- Row `r` and column `c` are enabled (R130). An entry has bits for 128 rows and 64 columns; nothing disables the rest.
(DESIGN CHOICE, log 52.) -/
def enabledAt (e : BitVec 128 × BitVec 64) (r c : Nat) : Bool :=
  (decide (128 ≤ r) || e.1.getLsbD r) && (decide (64 ≤ c) || e.2.getLsbD c)

/-- The address of the current work descriptor, `size` bytes each. -/
def wdAddr (b : Bound) (size : Nat) : Nat := b.st.work + size * b.st.wdi

/-- Buffers drawn by station `b` for output port `port` come from the pool of the queue that port feeds (Table 2-7).
(DEDUCED, log 29.) -/
def prodQueue (g : Graph) (i port : Nat) : Option Nat :=
  indexWhere (fun (q : Queue) => q.prodPort == port && decide (q.prodAt ≤ i ∧ i < q.prodAt + q.prodN)) g.queues 0

/-- The queue that feeds an input port. (DEDUCED, log 29.) -/
def consQueue (g : Graph) (i port : Nat) : Option Nat :=
  indexWhere (fun (q : Queue) => q.consPort == port && decide (q.consAt ≤ i ∧ i < q.consAt + q.consN)) g.queues 0

/-- Every listed input port is fed and every listed output port feeds a queue (R25). -/
def portsBound (b : Bound) (ins outs : List Nat) : Bool :=
  ins.all (fun p => (consQueue b.g b.idx p).isSome) && outs.all (fun p => (prodQueue b.g b.idx p).isSome)

end Sys2Proof.Machine
end

