-- ==== Sys2Proof/Machine/Queues.lean ====
section
/-! DEFINITION. Handle queues, buffer counts, station halts and the end of a graph's work (R25-R33, R40-R43). -/

namespace Sys2Proof.Machine

/-! ### Halting a station (R41) -/

/-- The class of an event's UNIT that a station's unit has (Tables 2-1, 19-4). (DEDUCED, log 158.) -/
def unitClass : Kind → Nat
  | .load | .store | .mma | .vec => 0
  | .walk => 1
  | .ssa => 2
  | .churn | .coll | .skim => 3
  | .scan => 5

/-- The HALT event of a station: its unit, the graph and the station index (Table 19-5). -/
def haltEvent (s : State) (slot i : Nat) (g : Graph) (st : Status) : Event :=
  match g.stations[i]? with
  | some x => ⟨0x05, st, unitClass x.kind, x.unit, gidOf s slot, i⟩
  | none => ⟨0x05, st, 7, 0, gidOf s slot, i⟩

/-- A station halts: its RUNNING graph is HALTED, its completion and the HALT event are written, and a pause in progress completes
with the station's status (R40, R41, Table 2-10). A graph in another state stays in it. (DEDUCED, log 31.) -/
def haltCore (s : State) (slot i : Nat) (st : Status) : State :=
  match slotGraph s slot with
  | none => s
  | some g =>
    let wdi := match g.stations[i]? with | some x => x.wdi | none => 0
    let s1 := modStation s slot i fun x => { x with run := .halted st }
    if g.state != .running && g.state != .halted then event s1 (haltEvent s1 slot i g st)
    else
    let s2 := modGraph s1 slot fun x => { x with state := .halted, haltSt := i, haltWdi := wdi, pausing := none }
    let s3 := event s2 (haltEvent s2 slot i g st)
    let s4 := graphEvent s3 slot 2 st i wdi
    match g.pausing with
    | some c => finishCmd s4 c st
    | none => s4

/-! ### Capacity (R31) -/

/-- The first held round that producer `p` has not joined. -/
def openRound (rs : List Round) (p : Nat) : Option Nat :=
  indexWhere (fun (r : Round) => (r.got.getD p none).isNone) rs 0

/-- The queue takes one more handle of producer `p`. -/
def queueRoom (q : Queue) (p : Nat) : Bool :=
  match q.mode with
  | .join => (openRound q.rounds p).isSome || decide (q.rounds.length < 4)
  | _ => decide (q.entries.length < 32)

/-- A push of station `i` on `port` would not stall. -/
def canPush (s : State) (slot i port : Nat) : Bool :=
  match slotGraph s slot with
  | none => false
  | some g =>
    match prodQueue g i port with
    | none => false
    | some qi =>
      match g.queues[qi]? with
      | none => false
      | some q => queueRoom q (i - q.prodAt)

/-- Every one of `ports` takes a push. -/
def canPushAll (s : State) (slot i : Nat) (ports : List Nat) : Bool := ports.all fun p => canPush s slot i p

/-- A handle's buffer is counted: a pool buffer or a ring slot (R33). -/
def counted (h : Handle) : Bool := h.pool < 0xF0 || h.pool == 0xFE

/-! ### The rate of a stream (R153, R154) -/

/-- Cycles of the 2.1 GHz compute clock in `n` ns. -/
def cyclesOf (n : Nat) : Nat := n * 21 / 10

/-- A consumption (LOAD) or a push (STORE) is measured: the interval in cycles, capped at 2^20; the mean of the first four, and
from then on an eighth of each difference (R153, R154). -/
def measure (now : Nat) (x : Stream) : Stream :=
  match x.lastEv with
  | none => { x with lastEv := some now }
  | some t =>
    let iv := min (cyclesOf (now - t)) (2 ^ 20)
    if x.events < 4 then
      let sum := x.sumIv + iv
      { x with lastEv := some now, events := x.events + 1, sumIv := sum,
               tavg := if x.events = 3 then sum / 4 else x.tavg }
    else { x with lastEv := some now, tavg := ((x.tavg : Int) + ((iv : Int) - (x.tavg : Int)) / 8).toNat }

/-- The input port of a STORE: PORT of its current descriptor, or its lowest between descriptors. (DEDUCED, log 156.) -/
def storePort (x : Stream) : Nat :=
  match x.cur with
  | some d => d.port
  | none => 0

/-- A push into a queue is an event of every STORE that takes its input from it (R153). -/
def notePush (now qi : Nat) (g : Graph) : Graph :=
  { g with stations := (numbered g.stations 0).map fun p =>
      if p.2.kind == .store && consQueue g p.1 (storePort p.2.strm) == some qi then { p.2 with strm := measure now p.2.strm }
      else p.2 }

/-! ### Push (R31-R33) -/

/-- The handle placed in the queue. -/
def enqueue (q : Queue) (p : Nat) (h : Handle) : Queue :=
  let q1 := { q with nextSeq := q.nextSeq.set p (h.seq + 1) }
  match q.mode with
  | .join =>
    match openRound q.rounds p with
    | some r => { q1 with rounds := q1.rounds.modify r fun x => { x with got := x.got.set p (some h) } }
    | none => { q1 with rounds := q1.rounds ++
                  [{ got := (List.replicate q.prodN none).set p (some h), left := List.range q.consN, delivered := false }] }
  | _ => { q1 with entries := q1.entries ++ [{ h := h, prod := p, left := List.range q.consN }] }

/-- What a push does. -/
inductive Pushed where
  | stall
  | halt (s : State)
  | done (s : State)

/-- A push of station `i` on output port `port` (R25, R31-R33): a port no queue binds halts with BAD_DESCRIPTOR, a SEQ other
than the expected one and a count above 255 halt with INTERNAL, a full queue stalls. (DEDUCED, log 34.) -/
def pushHandle (s : State) (slot i port : Nat) (h : Handle) : Pushed :=
  match slotGraph s slot with
  | none => .stall
  | some g =>
    match prodQueue g i port with
    | none => .halt (haltCore s slot i .badDescriptor)
    | some qi =>
      match g.queues[qi]? with
      | none => .stall
      | some q =>
        let p := i - q.prodAt
        if !queueRoom q p then .stall
        else if h.seq != q.nextSeq.getD p 0#16 then .halt (haltCore (alarm s 0 q.qid) slot i .internal)
        else
          let gain := if q.mode == .bcast && counted h then q.consN - 1 else 0
          if refOf s h.addr + gain > 255 then .halt (haltCore s slot i .internal)
          else
            let s1 := if gain = 0 then s else setRef s h.addr (refOf s h.addr + gain)
            .done (modGraph (modQueue s1 slot qi fun x => enqueue x p h) slot fun x =>
              notePush s.now qi { x with lastMove := s.now, stallOut := false })

/-- The state after a push that had room. -/
def pushedState (s : State) : Pushed → State
  | .stall => s
  | .halt t => t
  | .done t => t

/-- A station pushes a handle it made: SEQ is its port's next (R26, R32). -/
def emit (s : State) (slot i port : Nat) (h : Handle) : State :=
  match slotGraph s slot with
  | none => s
  | some g =>
    match g.stations[i]? with
    | none => s
    | some st =>
      let sq := st.outSeq.getD port 0#16
      match pushHandle s slot i port { h with seq := sq } with
      | .stall => s
      | .halt t => t
      | .done t => modStation t slot i fun x => { x with outSeq := x.outSeq.set port (sq + 1) }

/-! ### Release (R33) -/

/-- Slots free from the oldest on are dropped: HEAD moves past them (R33, R149). -/
def dropFreed : List SlotUse → List SlotUse
  | [] => []
  | u :: t => if u.delivered && u.freeP && (u.freeC || !u.comp) then dropFreed t else u :: t

/-- A ring slot of a LOAD stream becomes free (R33, R149). -/
def freeInStream (a now : Nat) (x : Stream) : Stream :=
  if x.slots.any fun u => u.addr == a && !u.freeP then
    measure now { x with slots := dropFreed (x.slots.map fun u => if u.addr == a then { u with freeP := true } else u) }
  else { x with slots := dropFreed (x.slots.map fun u => if u.comp && u.caddr == a then { u with freeC := true } else u) }

/-- A receive slot of a Churn direction is no longer held by its consumer (R243). -/
def freeInDir (a now : Nat) (d : ChnDir) : ChnDir :=
  { d with slots := d.slots.map fun u => if u.addr == a && u.held then { u with held := false, doneAt := some now } else u }

/-- The ring slot at an address is free: the LOAD ring of that core, or a Churn ring. -/
def freeRingSlot (s : State) (a : Nat) : State :=
  let x := (a - 0x080000000000) / 0x200000
  let s1 := { s with chn := s.chn.map fun c => { c with east := freeInDir a s.now c.east, west := freeInDir a s.now c.west } }
  match bound s1 .load x with
  | some b => modStation s1 b.slot b.idx fun st => { st with strm := freeInStream a s.now st.strm }
  | none => s1

/-- A buffer whose count is zero goes back: to its pool's list, or its ring slot is free (R33). (DESIGN CHOICE, log 35.) -/
def returnBuffer (s : State) (h : Handle) : State :=
  if h.pool == 0xFE then freeRingSlot s h.addr
  else modPool s h.pool fun p => { p with free := p.free ++ [h.addr] }

/-- The buffer at `a` has been released by its last consumer: readers that emitted it are told, and those that have emitted
all they will and have none left are no longer in flight (R204). With them the query handles they kept (R224). -/
def readersTold (s : State) (a : Nat) : State × List ((Nat × Nat) × Handle) :=
  let rs := s.kvc.readers.map fun r => { r with bufs := r.bufs.filter fun x => !(x == a) }
  let gone (r : Reader) : Bool := !r.running && r.bufs.isEmpty
  ({ s with kvc := { s.kvc with readers := rs.filter fun r => !gone r } },
   (rs.filter gone).filterMap fun r => r.query.map fun h => (r.station, h))

/-- One consumer's release (R33). A count already at zero: ignored, the alarm latches, the station halts with INTERNAL. A query
handle kept for tiles that are now all released is released in turn (R224). (DEDUCED, log 34.) -/
def releaseN : Nat → State → Nat → Nat → Handle → State
  | 0, s, _, _, _ => s
  | n + 1, s, slot, i, h =>
    if !counted h || isEmptyHandle h then s
    else
      let k := refOf s h.addr
      if k = 0 then haltCore (alarm s 1 h.addr) slot i .internal
      else if k = 1 then
        let r := readersTold (returnBuffer (setRef s h.addr 0) h) h.addr
        r.2.foldl (fun t q => releaseN n t q.1.1 q.1.2 q.2) r.1
      else setRef s h.addr (k - 1)

def release (s : State) (slot i : Nat) (h : Handle) : State := releaseN 4 s slot i h

def releaseAll (s : State) (slot i : Nat) (hs : List Handle) : State := hs.foldl (fun t h => release t slot i h) s

/-! ### Pop (R30, R31) -/

/-- The handle a complete JOIN round delivers (Table 2-3): the lowest-indexed producer's that is not empty, with the round's
status and LAST. -/
def roundHandle (hs : List Handle) : Handle :=
  match hs.find? fun h => !isEmptyHandle h with
  | some h => { h with status := carried (hs.map fun x => x.status), last := hs.any fun x => x.last }
  | none => match hs with
    | h :: _ => { emptyHandle h.tag (hs.any fun x => x.last) with seq := h.seq }
    | [] => emptyHandle 0#16 false

/-- The handles of a round that is complete. -/
def roundFull (r : Round) : Option (List Handle) :=
  if r.got.all fun x => x.isSome then some (r.got.filterMap id) else none

/-- The first entry a consumer of a BCAST queue has not taken. -/
def firstFor (es : List QEntry) (k : Nat) : Option Nat := indexWhere (fun (e : QEntry) => e.left.contains k) es 0

/-- The first complete round consumer `k` has not taken. -/
def roundFor (rs : List Round) (k : Nat) : Option Nat := indexWhere (fun (r : Round) => r.left.contains k) rs 0

/-- A pop of a JOIN queue by consumer `k` of station `i`: the delivered buffer gains C − 1 and the others are released when the
round is first delivered (R33). (DEDUCED, log 34.) -/
def popJoin (s : State) (slot i qi : Nat) (q : Queue) (k : Nat) : Option (State × Handle) :=
  match roundFor q.rounds k with
  | none => none
  | some ri =>
    match q.rounds[ri]? with
    | none => none
    | some r =>
      match roundFull r with
      | none => none
      | some hs =>
        let h := roundHandle hs
        let left := r.left.filter fun x => !(x == k)
        let s1 := modQueue s slot qi fun x =>
          { x with rounds := if left.isEmpty then x.rounds.eraseIdx ri
                             else x.rounds.set ri { r with left := left, delivered := true } }
        if r.delivered then some (s1, h)
        else
          let others := hs.eraseIdx ((indexWhere (fun (x : Handle) => !isEmptyHandle x) hs 0).getD 0)
          let s2 := releaseAll s1 slot i others
          if counted h && !isEmptyHandle h then
            if refOf s2 h.addr + (q.consN - 1) > 255 then some (haltCore s2 slot i .internal, h)
            else some (setRef s2 h.addr (refOf s2 h.addr + (q.consN - 1)), h)
          else some (s2, h)

/-- Consumer `k`'s wait is over. -/
def unwait (k : Nat) (q : Queue) : Queue := { q with waits := q.waits.filter fun w => !(w.1 == k) }

/-- The place in a SHARE queue of the handle that goes to consumer `k`: behind those of the consumers whose input has been free for
longer, ties by station index; a station that is not going takes none (Table 2-3). A consumer that asks without having waited
comes last. (DEDUCED, log 163.) -/
def shareTurn (g : Graph) (q : Queue) (k : Nat) : Nat :=
  let mine := (q.waits.find? fun w => w.1 == k).map Prod.snd
  q.waits.countP fun w =>
    w.1 != k && (match g.stations[q.consAt + w.1]? with | some x => x.run == .going | none => false)
      && (match mine with
          | some t => decide (w.2 < t) || (w.2 == t && decide (w.1 < k))
          | none => true)

/-- A station takes a handle from an input port (R30, R31); none when there is nothing to take. -/
def popHandle (s : State) (slot i port : Nat) : Option (State × Handle) :=
  match slotGraph s slot with
  | none => none
  | some g =>
    match consQueue g i port with
    | none => none
    | some qi =>
      match g.queues[qi]? with
      | none => none
      | some q =>
        let k := i - q.consAt
        let moved := modQueue (modGraph s slot fun x => { x with lastMove := s.now, stallOut := false }) slot qi fun x =>
          unwait k x
        match q.mode with
        | .join => popJoin moved slot i qi q k
        | .bcast =>
          match firstFor q.entries k with
          | none => none
          | some ei =>
            match q.entries[ei]? with
            | none => none
            | some e =>
              let left := e.left.filter fun x => !(x == k)
              some (modQueue moved slot qi fun x =>
                { x with entries := if left.isEmpty then x.entries.eraseIdx ei else x.entries.set ei { e with left := left } },
                e.h)
        | .share =>
          let n := shareTurn g q k
          (q.entries[n]?).map fun e => (modQueue moved slot qi fun x => { x with entries := x.entries.eraseIdx n }, e.h)
        | .fanin =>
          match q.entries with
          | [] => none
          | e :: t => some (modQueue moved slot qi fun x => { x with entries := t }, e.h)

/-- What a round pop finds (R30): BAD_DESCRIPTOR on a queue that is no JOIN of one consumer, nothing yet, or the round. -/
inductive RoundPop where
  | bad
  | wait
  | got (s : State) (hs : List Handle)

/-- A round pop: every handle of the complete round, none released (R30, R33). -/
def popRound (s : State) (slot i port : Nat) : RoundPop :=
  match slotGraph s slot with
  | none => .bad
  | some g =>
    match consQueue g i port with
    | none => .bad
    | some qi =>
      match g.queues[qi]? with
      | none => .bad
      | some q =>
        if q.mode == .join && q.consN != 1 then .bad
        else match q.mode with
          | .join =>
            match q.rounds with
            | [] => .wait
            | r :: t =>
              match roundFull r with
              | none => .wait
              | some hs =>
                .got (modGraph (modQueue s slot qi fun x => { x with rounds := t, waits := [] }) slot fun x =>
                  { x with lastMove := s.now, stallOut := false }) hs
          | _ =>
            match popHandle s slot i port with
            | none => .wait
            | some r => .got r.1 [r.2]

/-- Port `port` of a station holds something to pop. -/
def hasInput (s : State) (slot i port : Nat) : Bool := (popHandle s slot i port).isSome

def hasInputs (s : State) (slot i : Nat) (ports : List Nat) : Bool := ports.all fun p => hasInput s slot i p

/-- A station waits before popping each of `ports` that is empty (R31, R42): since when is kept. (DESIGN CHOICE, log 7.) -/
def waitInputs (s : State) (slot i : Nat) (ports : List Nat) : State :=
  ports.foldl (fun t p =>
    if hasInput t slot i p then t
    else match slotGraph t slot with
      | none => t
      | some g =>
        match consQueue g i p with
        | none => t
        | some qi => modQueue t slot qi fun x =>
            if x.waits.any fun w => w.1 == i - x.consAt then x else { x with waits := x.waits ++ [(i - x.consAt, t.now)] }) s

/-- One handle from each of `ports`, in order; all or none. -/
def popAll (s : State) (slot i : Nat) : List Nat → Option (State × List Handle)
  | [] => some (s, [])
  | p :: t =>
    match popHandle s slot i p with
    | none => none
    | some r =>
      match popAll r.1 slot i t with
      | none => none
      | some q => some (q.1, r.2 :: q.2)

/-! ### The end of a graph's work (Table 2-10) -/

def queueEmpty (q : Queue) : Bool := q.entries.isEmpty && q.rounds.isEmpty

/-- RUNNING with every work list ended and every queue empty: DRAINED, with its completion. -/
def checkDrained (s : State) (slot : Nat) : State :=
  match slotGraph s slot with
  | none => s
  | some g =>
    if g.state == .running && g.pausing.isNone && g.stations.all (fun x => x.run == .ended) && g.queues.all queueEmpty then
      graphEvent (modGraph s slot fun x => { x with state := .drained }) slot 1 .ok 0 0
    else s

/-- NOTIFY of a work descriptor that ended, with whatever status it ended (R41, R43). (DEDUCED, log 32.) -/
def notifyEvent (s : State) (b : Bound) (on : Bool) (st : Status) : State :=
  if on then graphEvent s b.slot 3 st b.idx b.st.wdi else s

end Sys2Proof.Machine
end

