-- ==== Sys2Proof/Machine/Banks.lean ====
section
/-! DEFINITION. Table banks: which a core uses, and when it switches (R107-R110). -/

namespace Sys2Proof.Machine

/-- The cores of the masked clusters (R108). -/
def reloadCores (mask : Half) : List Nat := (List.range 256).filter fun c => mask.getLsbD (c / 16)

/-- An open ELEM or GATED chain whose FID is a bank function keeps the core off a tile boundary (R110). (DEDUCED, log 58.) -/
def chainHolds (x : Core) : Bool :=
  match x.chain with
  | some k => k.mode != .stats && decide (0x10 ≤ k.fid)
  | none => false

/-- The reload that waits first starts (R107). -/
def nextReload (s : State) : State :=
  match s.sfu.waiting with
  | [] => { s with sfu := { s.sfu with cur := none, written := false } }
  | r :: t => { s with sfu := { s.sfu with cur := some r, written := false, waiting := t } }

/-- Every targeted core has switched: the reload completes with OK (R108). -/
def reloadDone (s : State) : State :=
  match s.sfu.cur with
  | none => s
  | some r =>
    if s.sfu.written && (reloadCores r.mask).all fun c => !(coreAt s c).shadow then
      nextReload (finishCmd { s with sfu := { s.sfu with seq := s.sfu.seq + 1 } } (r.id, r.hdr) .ok)
    else s

/-- A core at a tile boundary switches to its written shadow (R108, R110). (DEDUCED, log 58.) -/
def switchBank (s : State) (c : Nat) : State :=
  if (coreAt s c).shadow && !chainHolds (coreAt s c) then
    modCore s c fun x => { x with active := 1 - x.active, shadow := false }
  else s

/-- A tile boundary of a core (R108). (DEDUCED, log 58.) -/
def tileBoundary (s : State) (c : Nat) : State := reloadDone (switchBank s c)

end Sys2Proof.Machine
end

