-- ==== Sys2Proof/Machine/Slots.lean ====
section
/-! DEFINITION. The commands of a graph slot judged against Table 2-10, the runs of a re-armable stream (R165, R166), and what
waits for the slot (R373). -/

namespace Sys2Proof.Machine

/-! ### Runs and the end of a stream's descriptor (R148, R157, R165) -/

/-- The slots still in use now belong to an earlier run, those of the next descriptor to the run that starts; the counts start
anew. -/
def newRun (x : Stream) : Stream :=
  { x with fill := 0, deliver := 0, tiles := [], slots := x.slots.map fun u => { u with old := !u.next, next := false } }

/-- A stream without its descriptor: the next one, where its tiles were issued early, is current now (R157). -/
def nextCurrent (x : Stream) : Stream :=
  let y := { newRun x with cur := none, comp := none, idx := none, parked := false, pendRearm := none, finish := false,
                           claimPos := none, claims := [], claimOut := false, ahead := none, recheck := false, rearmed := false,
                           fault := none, consumed := .ok, srcPoison := false }
  match x.ahead with
  | none => y
  | some n => { y with cur := some n.d, outer := n.outer, outerC := n.outer, fill := n.fill, fault := n.fault }

/-- The completion push of a STORE descriptor (R148). -/
def storeHandle (d : StreamDesc) (st : Status) : Handle :=
  if st == .empty then { emptyHandle d.tag true with pred := d.pred }
  else ⟨st, d.pred, true, 0#16, 32 * d.pushBytes, 0xFF, d.tag, if d.geom.space = 0 then d.geom.base else 0⟩

/-- The status a STORE descriptor's completion push carries (R148, R462). -/
def storeStatus (x : Stream) (st : Status) : Status :=
  if st == .empty then .empty else carried [x.consumed, if x.srcPoison then .pagePoisoned else .ok]

/-- The descriptor of a stream has ended: its completion push, NOTIFY, and the next descriptor. The push needs room. -/
def endStream (s : State) (b : Bound) (st : Status) : State :=
  match b.st.strm.cur with
  | none => s
  | some d =>
    let s1 := if d.push then emit s b.slot b.idx d.pushPort (storeHandle d (storeStatus b.st.strm st)) else s
    let s2 := notifyEvent s1 b d.notify st
    modStation (advance s2 b) b.slot b.idx fun x => { x with strm := nextCurrent x.strm }

/-- The completion push of a STORE would not stall. -/
def endRoom (s : State) (b : Bound) : Bool :=
  match b.st.strm.cur with
  | none => true
  | some d => !d.push || canPush s b.slot b.idx d.pushPort

/-- A new outermost count put into a geometry. -/
def setOuter (g : Geom) (n : Nat) : Geom := { g with counts := g.counts.set (g.ndim - 2) n }

/-! ### The fault registers (R160, R164) -/

/-- A fault reaches a fault register: the first is kept, and OVER set (R164). (DESIGN CHOICE, log 64.) -/
def faultPut (old new : FaultReg) : FaultReg := if old.valid then { old with again := true } else new

/-- A stream halts with its saved position in its fault register (R160). A cause that Table 7-4 does not list leaves the register
as it is. -/
def faultHalt (s : State) (b : Bound) (f : StreamFault) (seq : Half) : State :=
  let r : FaultReg := ⟨true, false, f.space, f.cause, f.addr, f.num, b.st.wdi, seq⟩
  let s1 :=
    if f.cause == .pageFault || f.cause == .badDescriptor || f.cause == .shapeOver then
      modCore s b.st.unit fun x =>
        if b.st.kind == .load then { x with faultLd := faultPut x.faultLd r } else { x with faultSt := faultPut x.faultSt r }
    else s
  haltCore (modStation s1 b.slot b.idx fun x => { x with strm := { x.strm with fault := none } }) b.slot b.idx f.ends

/-- SEQ of the first tile of a run: LOAD's next push on its port; STORE has popped none yet, and it is free.
(DESIGN CHOICE, log 64.) -/
def runSeq (s : State) (b : Bound) (d : StreamDesc) : Half :=
  if b.st.kind == .load then b.st.outSeq.getD d.port 0#16 else BitVec.ofNat 16 (Config.freeNat (s.free + 1))

/-- The run a re-arm starts (R165): new base, new counts where one is given, checked against OUTER_MAX (R145). A refused extent
halts before a byte moves: the register shows tile 0 and, under AS 1, the new base. (DEDUCED, log 69.) -/
def startRun (s : State) (b : Bound) (r : Rearm) : State :=
  match b.st.strm.cur with
  | none => s
  | some d =>
    let x := b.st.strm
    let n := if r.count = 0 then x.outer else r.count
    if n > d.outerMax then
      let addr := if d.geom.space = 1 then r.base else Config.freeNat s.free % 2 ^ 48
      faultHalt (tick1 (tick1 (modStation s b.slot b.idx fun y =>
        { y with strm := { y.strm with parked := true, pendRearm := none } }))) b
        ⟨0, .shapeOver, .shapeOver, d.geom.space, addr⟩ (runSeq s b d)
    else
      modStation s b.slot b.idx fun y =>
        { y with strm := { newRun y.strm with cur := some { d with geom := { d.geom with base := r.base } }, outer := n,
                                              outerC := if r.count = 0 then x.outerC else r.count,
                                              rearmed := true, parked := false, pendRearm := none, finish := r.finish } }

/-- A re-arm acts on a parked stream: FINISH ends the descriptor at once, else its run starts (R165). -/
def parkedRearm (s : State) (b : Bound) (r : Rearm) : State :=
  if r.finish then
    if endRoom s b then endStream s b .ok
    else modStation s b.slot b.idx fun y => { y with strm := { y.strm with finish := true, pendRearm := none } }
  else startRun s b r

/-- The last transfer of a run has completed (R165): the next run of a pending re-arm, the end under FINISH, or parking. A
descriptor that is not re-armable ends. (DEDUCED, log 69.) -/
def runDone (s : State) (b : Bound) : State :=
  match b.st.strm.cur with
  | none => s
  | some d =>
    if !d.rearm || b.st.strm.finish then endStream s b .ok
    else match b.st.strm.pendRearm with
      | some r => startRun s b r
      | none => modStation s b.slot b.idx fun x => { x with strm := { x.strm with parked := true } }

/-- A re-arm record (R165); none when a reserved field is non-zero. Bytes 12-13 are returned for the register form. -/
def rearmOf (v : Nat) : Option (Rearm × Nat) :=
  if bits v 49 15 = 0 && bits v 88 8 = 0 && bits v 112 16 = 0 then
    some (⟨bits v 0 48, bit v 48, bits v 64 24⟩, bits v 96 16)
  else none

/-- A re-arm reaches a stream (R166, Table 7-6). (DEDUCED, log 69.) -/
def rearmStream (s : State) (b : Bound) (r : Rearm) : State × Status :=
  let x := b.st.strm
  match x.cur with
  | none => (s, .badDescriptor)
  | some d =>
    if !d.rearm then (s, .badDescriptor)
    else if x.pendRearm.isSome then (s, .rearmConflict)
    else if x.parked && b.g.state == .running then
      (parkedRearm s b r, .ok)
    else (modStation s b.slot b.idx fun y => { y with strm := { y.strm with pendRearm := some r } }, .ok)

/-! ### Start, pause, resume, unload (R38-R40, R162, Table 2-10) -/

/-- A station at the head of its work list (Table 2-10: every work list begins at its head; SEQ counters continue). -/
def stationAtHead (x : Station) : Station :=
  { x with wdi := 0, sub := 0, run := if x.workN = 0 then .ended else .going, wait := none }

/-- RUNNING from the head of every work list. -/
def startGraph (s : State) (slot : Nat) : State :=
  checkDrained (modGraph s slot fun g =>
    { g with state := .running, timed := none, lastMove := s.now, stallOut := false,
             stations := g.stations.map stationAtHead }) slot

/-- RUNNING from the saved positions (R162): streams fetch their descriptor again (R156) and measure their rate anew (R154). -/
def stationResumed (x : Station) : Station :=
  { x with run := (match x.run with
             | .ended => .ended
             | _ => if x.wdi < x.workN || x.kind == .coll then .going else .ended)
           sub := if x.kind == .load || x.kind == .store then 1 else x.sub
           strm := { x.strm with tavg := 0, events := 0, lastEv := none, sumIv := 0,
                                 ahead := if x.strm.slots.any fun u => u.next then x.strm.ahead else none } }

/-- The entries of a graph that a GROUP_RESET left to run again take the next sequence numbers in order (R277). -/
def rerunEntries (slot : Nat) : Word → List CollEntry → Word × List CollEntry
  | q, [] => (q, [])
  | q, e :: t =>
    let mine := e.held && e.slot == slot
    let r := rerunEntries slot (if mine then q + 1 else q) t
    (r.1, (if mine then { e with held := false, seq := q } else e) :: r.2)

/-- RUNNING from the saved positions, and the collectives that a reset left to run again (R162, R277). -/
def resumeGraph (s : State) (slot : Nat) : State :=
  let s1 := { s with groups := s.groups.map fun x =>
    let r := rerunEntries slot x.nextSeq x.entries
    { x with nextSeq := r.1, entries := r.2 } }
  checkDrained (modGraph s1 slot fun g =>
    { g with state := .running, lastMove := s.now, stallOut := false, stations := g.stations.map stationResumed }) slot

/-- A direction has admitted a block of the ROTATE's layer that it has not yet received, pushed and forwarded whole (R253); a tile of
the next layer is the next ROTATE's. -/
def dirUnfinished (layer : Nat) (d : ChnDir) : Bool :=
  !d.failed && (decide (d.endsIn < d.admitted) || d.slots.any fun u => u.layer == layer && (u.toPush || u.fwd))

def churnUnfinished (c : ChnCtx) : Bool := c.rotating && (dirUnfinished c.layer c.east || dirUnfinished c.layer c.west)

/-- A ring context closed: its lanes given back, slots kept only while a consumer holds them (R251, R253). -/
def closedCtx (c : ChnCtx) : ChnCtx :=
  let shut (d : ChnDir) : ChnDir := { d with slots := d.slots.filter fun u => u.held, shake := none, credits := 0 }
  { c with state := 0, eGrant := 0, wGrant := 0, rotating := false, east := shut c.east, west := shut c.west }

/-- What is in progress inside a station that a pause must let end (R40). (DESIGN CHOICE, log 138.) -/
def stationBusy (s : State) (slot i : Nat) (x : Station) : Bool :=
  match x.kind with
  | .load => x.strm.slots.any fun u => !u.delivered
  | .store => !x.strm.tiles.isEmpty
  | .ssa => match (ssaAt s x.unit).job with
    | some j => j.slot == slot
    | none => false
  | .churn => (numbered s.chn 0).any fun c => c.1 / 4 == x.unit && churnUnfinished c.2
  | .coll => s.groups.any fun g => g.state == 1 && g.entries.any fun e => e.slot == slot && e.station == i && e.ended.isNone
  | .scan => (s.vse.jobs.any fun j => j.slot == slot && j.station == i)
    || s.vse.indexes.any fun n => (match n.batch with | some k => k.slot == some slot && k.channel == x.unit | none => false)
      || (match n.harvest with | some k => k.slot == some slot && k.channel == x.unit | none => false)
  | .mma => match (coreAt s x.unit).part with
    | some p => p.out.isSome
    | none => false
  | .walk => x.wait.isSome || s.kvc.readers.any fun r => r.station == (slot, i) && r.running && !r.out.isEmpty
  | _ => false

/-- Every station of the graph has stopped (R40). -/
def allStopped (s : State) (slot : Nat) (g : Graph) : Bool :=
  (numbered g.stations 0).all fun p => p.2.run != .going || !stationBusy s slot p.1 p.2

/-- Stations that were going are stopped. -/
def stopStations (g : Graph) : Graph :=
  { g with stations := g.stations.map fun x => if x.run == .going then { x with run := .stopped } else x }

/-- Addresses whose counts a graph's unloading drops: its pools' buffers and its streams' ring slots. -/
def ownsBuffer (g : Graph) (a : Nat) : Bool :=
  g.pools.any (fun p => (poolBases g.clusters p.scope p.base).any fun b => decide (b ≤ a ∧ a < b + p.count * p.bytes))
    || g.stations.any fun x => x.strm.slots.any fun u => u.addr == a || (u.comp && u.caddr == a)

/-- The core-level units of a graph. -/
def graphCores (g : Graph) (k : Kind) : List Nat :=
  (g.stations.filter fun x => x.kind == k).map fun x => x.unit

/-- Handles a descriptor in progress has popped and not released. -/
def partHandles (p : MmaPart) : List Handle :=
  (p.wa ++ p.wb ++ p.wb2).flatten ++ p.wc ++ p.wv ++ p.rest ++ p.keepA ++ p.keepB

/-- Handles a core's MMA holds. -/
def mmaHandles (x : Core) : List Handle :=
  x.holdA ++ x.holdB ++ (match x.part with | some p => partHandles p | none => [])

/-- GRAPH_UNLOAD's effect (Table 2-10, R128, R135, R139): queued handles discarded, pools and queues returned, saved positions
lost; held handles, open chains, claim FIFOs and jobs of the graph gone. -/
def unloadGraph (s : State) (slot : Nat) : State :=
  match slotGraph s slot with
  | none => s
  | some g =>
    let mm := graphCores g .mma
    let ld := graphCores g .load ++ graphCores g .store
    let cores := (numbered s.cores 0).map fun p =>
      let x := p.2
      let x1 := if mm.contains p.1 then { x with holdA := [], holdB := [], part := none, chain := none } else x
      if ld.contains p.1 then { x1 with claims := [], claimed := .none } else x1
    -- a discarded chain no longer keeps its core's bank (R110)
    mm.foldl tileBoundary { s with
      cores := cores
      clusters := s.clusters.map fun x =>
        { x with wc := { x.wc with landing := x.wc.landing.filter fun l => !((graphCores g .store).contains l.1) } }
      refs := s.refs.filter fun r => !ownsBuffer g r.1
      ssa := (numbered s.ssa 0).map fun p =>
        if (graphCores g .ssa).contains p.1 then { p.2 with job := none, halted := false } else p.2
      vse := { s.vse with
        jobs := s.vse.jobs.filter fun j => !(j.slot == slot)
        indexes := s.vse.indexes.map fun n => { n with
          batch := n.batch.map fun k => if k.slot == some slot then { k with slot := none } else k
          harvest := n.harvest.map fun k => if k.slot == some slot then { k with slot := none } else k } }
      chn := s.chn.map fun c => if c.state != 0 && c.owner.1 == slot then closedCtx c else c
      kvc := { s.kvc with readers := s.kvc.readers.filter fun r => !(r.station.1 == slot)
                          lockQ := s.kvc.lockQ.filter fun l => !((graphCores g .walk).contains l.2)
                          committing := s.kvc.committing.filter fun l => !((graphCores g .walk).contains l.2) }
      groups := s.groups.map fun x => { x with entries := x.entries.filter fun e => !(e.slot == slot) }
      graphs := s.graphs.modify slot fun x => { x with graph := none } }

/-- Judging of one command against Table 2-10; the completion is written when its work ends. (DESIGN CHOICE, log 36.) -/
def applySlotCmd (s : State) (slot : Nat) (c : Nat × HostHdr) (cmd : SlotCmd) : State :=
  let refuse := finishCmd s c .badDescriptor
  let named (gid : Half) (f : Graph → State) : State :=
    match slotGraph s slot with
    | none => refuse
    | some g => if gidOf s slot = gid.toNat && g.fn == c.2.fn then f g else refuse
  match cmd with
  | .start gid at' => named gid fun g =>
    if g.state == .loaded || g.state == .drained then
      if at' = 0#64 then finishCmd (startGraph s slot) c .ok
      else if s.fab.eqx != .sync then finishCmd s c .unsyncedTime
      else if at'.toNat > s.fab.counter.toNat + 1000000000 then refuse
      else if at'.toNat ≤ s.fab.counter.toNat then finishCmd (startGraph s slot) c .ok
      else modGraph s slot fun x => { x with timed := some (at', c.1, c.2) }
    else refuse
  | .pause gid => named gid fun g =>
    if g.state == .running then modGraph s slot fun x => { x with pausing := some c }
    else finishCmd s c .ok
  | .resume gid => named gid fun g =>
    match g.state with
    | .running => finishCmd s c .ok
    | .paused => finishCmd (resumeGraph s slot) c .ok
    | .halted => finishCmd (resumeGraph s slot) c .ok
    | _ => refuse
  | .unload gid => named gid fun g =>
    if g.state == .running then refuse else finishCmd (unloadGraph s slot) c .ok
  | .rearm gid i rec => named gid fun g =>
    match g.stations[i]?, rearmOf rec.toNat with
    | some st, some r =>
      if st.kind == .load || st.kind == .store then
        let q := rearmStream s ⟨slot, i, g, st⟩ r.1
        finishCmd q.1 c q.2
      else refuse
    | _, _ => refuse

/-- A command on the slot is in progress (R373). (DESIGN CHOICE, log 36.) -/
def slotBusy (s : State) (slot : Nat) : Bool :=
  match slotGraph s slot with
  | none => false
  | some g => g.pausing.isSome || g.timed.isSome

/-- The commands that wait for a slot run in order while the slot is free of a command in progress (R373).
(DESIGN CHOICE, log 36.) -/
def runWaiting (s : State) (slot : Nat) : List (Nat × HostHdr × SlotCmd) → State
  | [] => s
  | w :: t =>
    if slotBusy s slot then s
    else runWaiting (applySlotCmd (modSlot s slot fun x => { x with waiting := t }) slot (w.1, w.2.1) w.2.2) slot t

/-- A command that names a slot: at once, or behind the one in progress (R373). (DESIGN CHOICE, log 36.) -/
def slotCmd (s : State) (h : HostHdr) (opc slot : Nat) (cmd : SlotCmd) : State :=
  let q := startCmd s h opc
  let waits := slotBusy s slot || (match s.graphs[slot]? with | some x => !x.waiting.isEmpty | none => false)
  if waits then modSlot q.1 slot fun x => { x with waiting := x.waiting ++ [(q.2, h, cmd)] }
  else applySlotCmd q.1 slot (q.2, h) cmd

/-- After a station's work: DRAINED where it holds, and the commands a halted pause released. -/
def settle (s : State) (slot : Nat) : State :=
  let s1 := checkDrained s slot
  match s1.graphs[slot]? with
  | none => s1
  | some x => runWaiting s1 slot x.waiting

/-- A pause whose stations have all stopped completes with OK: PAUSED (Table 2-10). -/
def pauseDone (s : State) (slot : Nat) : State :=
  match slotGraph s slot with
  | none => s
  | some g =>
    match g.pausing with
    | none => settle s slot
    | some c =>
      if allStopped s slot g then
        let s1 := modGraph s slot fun x => { stopStations x with state := .paused, pausing := none }
        settle (finishCmd s1 c .ok) slot
      else s

/-- A timed start whose instant has come, or whose time is no longer aligned (R378). -/
def timedFire (s : State) (slot : Nat) : State :=
  match slotGraph s slot with
  | none => s
  | some g =>
    match g.timed with
    | none => s
    | some t =>
      if s.fab.eqx != .sync then
        settle (finishCmd (modGraph s slot fun x => { x with timed := none }) t.2 .unsyncedTime) slot
      else if t.1.toNat ≤ s.fab.counter.toNat then settle (finishCmd (startGraph s slot) t.2 .ok) slot
      else s

/-- The counter has turned unsynchronised: every timed start that waits completes with UNSYNCED_TIME (R378). -/
def failTimed (s : State) : State := (List.range 64).foldl timedFire s

/-- A station halts, and the commands its pause held run (R40, R41, R373). (DEDUCED, log 32; DEDUCED, log 33.) -/
def haltStation (s : State) (b : Bound) (st : Status) : State := settle (haltCore s b.slot b.idx st) b.slot

/-- A parked stream goes on: a re-arm latched while its graph was paused or halted starts, or the end it waited to push
(R165, R166). -/
def parkedGo (s : State) (b : Bound) : State :=
  match b.st.strm.pendRearm with
  | some r => settle (parkedRearm s b r) b.slot
  | none => if b.st.strm.finish && endRoom s b then settle (endStream s b .ok) b.slot else s

end Sys2Proof.Machine
end

