-- ==== Sys2Proof/Machine/Clock.lean ====
section
/-! DEFINITION. The passing of time: one tick of the 25 MHz reference. -/

namespace Sys2Proof.Machine

/-- Rings whose backlog is full (R375). -/
def fullBacklogs (s : State) : Bool := s.hif.rings.any fun r => decide (64 ≤ r.backlog.length)

/-- A stack's SSA works slowed by temperature (R236). -/
def throttled (s : State) (k : Nat) : Bool :=
  s.pwr.state == .active && decide (2 ≤ (stackAt s k).level)

/-- The time counter after a tick of 40 ns, and what the rate trim leaves over (R13, R302): the trim removes its 1/8 ns over one interval,
and none runs while the fast clocks are gated. (DEDUCED, log 117.) -/
def counterTick (s : State) : Dword × Int :=
  if s.fab.eqxTrimNs = 0 then (s.fab.counter + 40, s.fab.eqxFrac)
  else
    let unit : Int := 64000 * s.fab.eqxInterval
    let moved := s.fab.eqxFrac + 320 * s.fab.eqxTrim
    (BitVec.ofInt 64 (s.fab.counter.toNat + 40 + moved / unit), moved % unit)

/-- One reference tick of 40 ns. The time counter counts except in OFF (R13, R392, R409); HIF_CQ_FULL_NS accumulates while a
backlog is full (R375); SSA_THROTTLE_NS while a stack's SSA is slowed (R236). (DESIGN CHOICE, log 2.) -/
def refTick (s : State) : State :=
  { s with
    now := s.now + 40
    ssa := (numbered s.ssa 0).map fun p => if throttled s p.1 then { p.2 with throttleNs := p.2.throttleNs + 40 } else p.2
    fab := if s.pwr.state == .off then s.fab
      else { s.fab with counter := (counterTick s).1, eqxFrac := (counterTick s).2, eqxTrimNs := s.fab.eqxTrimNs - 40 }
    hif := { s.hif with cqFullNs := if fullBacklogs s then s.hif.cqFullNs + 40 else s.hif.cqFullNs } }

end Sys2Proof.Machine
end

