-- ==== Sys2Proof/Machine/Flags.lean ====
section
/-! DEFINITION. The sticky flags (R62-R64): their masks, the fields of the engines, and the arithmetic control byte (R52). -/

namespace Sys2Proof.Machine

/-- Flag masks in the order of Table 3-7: NX, UF, OF, NV, FZ. -/
def fNX : Nat := 1
def fUF : Nat := 2
def fOF : Nat := 4
def fNV : Nat := 8
def fFZ : Nat := 16

/-- The engines of a core with a field in CLU_CORE_FLAGS (Table 3-7). -/
inductive Engine where
  | mma | vec | sfu
  deriving DecidableEq, Repr

/-- The lowest bit of an engine's field. -/
def engineBit : Engine → Nat
  | .mma => 0
  | .vec => 5
  | .sfu => 10

/-- Flags of an engine of a core become set; none is cleared (R62). -/
def setCoreFlags (s : State) (core : Nat) (e : Engine) (f : Nat) : State :=
  modCore s core fun x => { x with flags := x.flags ||| (BitVec.ofNat 15 (f % 32) <<< engineBit e) }

def setSsaFlags (s : State) (k f : Nat) : State := modSsa s k fun x => { x with flags := x.flags ||| BitVec.ofNat 5 f }
def setColFlags (s : State) (d f : Nat) : State :=
  { s with col := s.col.modify d fun x => { x with flags := x.flags ||| BitVec.ofNat 5 f } }
def setCluAdderFlags (s : State) (c f : Nat) : State :=
  modCluster s c fun x => { x with adderFlags := x.adderFlags ||| BitVec.ofNat 5 f }
def setMemAdderFlags (s : State) (k f : Nat) : State :=
  modStk s k fun x => { x with adderFlags := x.adderFlags ||| BitVec.ofNat 5 f }

/-- A W1C write: bits written 1 clear (R6). -/
def w1c {w : Nat} (old : BitVec w) (v : Nat) : BitVec w := old &&& ~~~(BitVec.ofNat w v)

/-- The arithmetic control byte, field by field (Table 3-2). -/
structure Ctl where
  strict : Bool
  mode   : Nat      -- 0 nearest even, 1 toward zero, 2 up, 3 down
  flush  : Bool
  ieee   : Bool     -- OVF: conversions beyond range give the IEEE result
  deriving DecidableEq, Repr

/-- DEDUCED, log 38. -/
def ctlOf (acb : Nat) : Ctl := { strict := bit acb 7, mode := bits acb 5 2, flush := bit acb 4, ieee := bit acb 3 }

/-- ACB 0x00 (R53). (DEDUCED, log 57.) -/
def ctl0 : Ctl := { strict := false, mode := 0, flush := false, ieee := false }

/-- An ACB that R52 accepts on VEC; MMA and the SFU also need STRICT clear (R52, R96). -/
def acbOk (acb : Nat) : Bool :=
  bits acb 0 3 = 0 && !(bits acb 5 2 != 0 && !bit acb 7) && !(bit acb 4 && bit acb 7)

end Sys2Proof.Machine
end

