-- ==== Sys2Proof/Machine/HostCmd.lean ====
section
/-! DEFINITION. What every host command passes before its own rules: the module state, PERM, HOLD and WITHDRAWN (R373, R377). -/

namespace Sys2Proof.Machine

/-- The command classes of Table 17-7 as PERM bits; the ring commands have none. -/
inductive CmdClass where
  | graph | group | data | module | almanac | ring
  deriving DecidableEq, Repr

/-- The class is allowed to the function; a ring command is accepted on ring 0 only (R370). -/
def classAllowed (s : State) (h : HostHdr) (c : CmdClass) : Bool :=
  let p := (fnCfg s h.fn).perm
  match c with
  | .graph => p.getLsbD 0
  | .group => p.getLsbD 1
  | .data => p.getLsbD 2
  | .module => p.getLsbD 3
  | .almanac => p.getLsbD 4
  | .ring => h.ring == 0

/-- Entries are decoded while the module runs: ACTIVE, HOLD and WITHDRAWN. (DEDUCED, log 11.) -/
def decoding (p : PwrState) : Bool := p == .active || p == .hold || p == .withdrawn

/-- A decoded command reaches its own rules, or completes here. `always`: it proceeds in HOLD and WITHDRAWN (R373).
(DEDUCED, log 11.) -/
def hostGate (s : State) (h : HostHdr) (c : CmdClass) (always : Bool) (run : State → State) : State :=
  if !classAllowed s h c then complete s h .badDescriptor 0
  else if s.pwr.state == .hold && !always then complete s h .thermalHold 0
  else if s.pwr.state == .withdrawn && !always then complete s h .memberWithdrawn 0
  else run s

/-- A host command given as a row: nothing is decoded while the module does not run. (DEDUCED, log 11.) -/
def hostCmd (s : State) (h : HostHdr) (c : CmdClass) (always : Bool) (run : State → State) :
    Host.Outcome State Fault Refusal :=
  if 32 < h.fn then .refused (.noSuchUnit "function")
  else if decoding s.pwr.state then .next (hostGate s h c always run)
  else .next s

/-- A meaning of a unit: refused where the module has no such unit. (DESIGN CHOICE, log 6.) -/
def onUnit (n count : Nat) (what : String) (t : State) : Host.Outcome State Fault Refusal :=
  if n < count then .next t else .refused (.noSuchUnit what)

/-- States in which the endpoint answers (R390). -/
def hostUp (p : PwrState) : Bool := p == .idle || p == .active || p == .hold || p == .withdrawn

/-- A register of the set-up window is reached only while the package has come out of Thaw. -/
def whenUp (s t : State) : Host.Outcome State Fault Refusal := if hostUp s.pwr.state then .next t else .next s

end Sys2Proof.Machine
end

