-- ==== Sys2Proof/Machine/Num.lean ====
section
/-! DEFINITION. Number formats, rounding, conversion and IEEE arithmetic (chapter 3). A value is exact: a sign, a magnitude
`m × 2^e`, an infinity or a NaN. Every rounding passes through `roundFmt`. -/

namespace Sys2Proof.Machine

/-- A decoded value (R44). A NaN keeps its sign, its payload below the quiet bit left-aligned to 51 bits, and whether
it signals (R45). -/
inductive Val where
  | nan (neg : Bool) (payload : Nat) (signalling : Bool)
  | inf (neg : Bool)
  | fin (neg : Bool) (m : Nat) (e : Int)
  deriving DecidableEq, Repr

def Val.zero (neg : Bool) : Val := .fin neg 0 0
/-- The canonical NaN of every format (R45). -/
def Val.cnan : Val := .nan false 0 false
def isNan : Val → Bool
  | .nan _ _ _ => true
  | _ => false
def isSig : Val → Bool
  | .nan _ _ b => b
  | _ => false
def isInf : Val → Bool
  | .inf _ => true
  | _ => false
def isZero : Val → Bool
  | .fin _ m _ => m == 0
  | _ => false
def negOf : Val → Bool
  | .nan n _ _ => n
  | .inf n => n
  | .fin n _ _ => n
def withSign (n : Bool) : Val → Val
  | .nan _ p b => .nan n p b
  | .inf _ => .inf n
  | .fin _ m e => .fin n m e

/-- What a format's all-ones exponent means (Table 3-1). -/
inductive Specials where
  | ieee | nanOnly | none
  deriving DecidableEq, Repr

/-- A floating-point format (Table 3-1). -/
structure Fmt where
  ew   : Nat
  mw   : Nat
  bias : Nat
  spec : Specials
  /-- FLUSH applies to it (R59). -/
  flushable : Bool
  deriving DecidableEq, Repr

def f64 : Fmt := ⟨11, 52, 1023, .ieee, true⟩
def f32 : Fmt := ⟨8, 23, 127, .ieee, true⟩
def bf16 : Fmt := ⟨8, 7, 127, .ieee, true⟩
def f16 : Fmt := ⟨5, 10, 15, .ieee, true⟩
def e5m2 : Fmt := ⟨5, 2, 15, .ieee, false⟩
def e4m3 : Fmt := ⟨4, 3, 7, .nanOnly, false⟩
def e3m2 : Fmt := ⟨3, 2, 3, .none, false⟩
def e2m3 : Fmt := ⟨2, 3, 1, .none, false⟩
def e2m1 : Fmt := ⟨2, 1, 1, .none, false⟩

/-- Bits of a code. -/
def fmtBits (f : Fmt) : Nat := 1 + f.ew + f.mw
/-- The sign bit. -/
def signBit (f : Fmt) (neg : Bool) : Nat := if neg then 2 ^ (f.ew + f.mw) else 0
/-- The least exponent of a normal. -/
def emin (f : Fmt) : Int := 1 - (f.bias : Int)
/-- The exponent of the least significant bit of a subnormal. -/
def qmin (f : Fmt) : Int := emin f - (f.mw : Int)
/-- The code of the largest finite magnitude (Table 3-1). -/
def maxCode (f : Fmt) : Nat :=
  match f.spec with
  | .ieee => (2 ^ f.ew - 1) * 2 ^ f.mw - 1
  | .nanOnly => 2 ^ (f.ew + f.mw) - 2
  | .none => 2 ^ (f.ew + f.mw) - 1
/-- The exponent of the largest normal (R58, EMAX). -/
def emax (f : Fmt) : Int := (maxCode f / 2 ^ f.mw : Nat) - (f.bias : Int)
def infCode (f : Fmt) (neg : Bool) : Nat := signBit f neg + (2 ^ f.ew - 1) * 2 ^ f.mw
/-- The canonical NaN of a target (R45, Table 3-4); plain FP6 and FP4 have none and give +0. (DEDUCED, log 37.) -/
def nanCode (f : Fmt) : Nat :=
  match f.spec with
  | .ieee => (2 ^ f.ew - 1) * 2 ^ f.mw + 2 ^ (f.mw - 1)
  | .nanOnly => 2 ^ (f.ew + f.mw) - 1
  | .none => 0

/-- Decoding of a code (R44, R45). -/
def decodeF (f : Fmt) (c : Nat) : Val :=
  let neg := bit c (f.ew + f.mw)
  let e := bits c f.mw f.ew
  let m := bits c 0 f.mw
  let top := e == 2 ^ f.ew - 1
  if f.spec == .ieee && top then
    if m = 0 then .inf neg
    else .nan neg (m % 2 ^ (f.mw - 1) * 2 ^ (52 - f.mw)) (decide (f.mw ≥ 7) && !bit m (f.mw - 1))
  else if f.spec == .nanOnly && top && m == 2 ^ f.mw - 1 then .nan neg 0 false
  else if e = 0 then .fin neg m (qmin f)
  else .fin neg (m + 2 ^ f.mw) (qmin f + e - 1)

/-- A code is a subnormal. -/
def isSub (f : Fmt) (c : Nat) : Bool := bits c f.mw f.ew == 0 && bits c 0 f.mw != 0

/-- floor(log2) of a non-zero magnitude. -/
def lg (m : Nat) (e : Int) : Int := (Nat.log2 m : Int) + e

/-- `m × 2^e`, with `st` for a remainder above it below one unit of `2^e`, as a whole number of `2^q`, rounded in direction
`mode` for a value of sign `neg`; and whether anything was discarded. -/
def roundAt (mode : Nat) (neg : Bool) (m : Nat) (e : Int) (st : Bool) (q : Int) : Nat × Bool :=
  if q ≤ e then
    let n := m * 2 ^ (e - q).toNat
    if !st then (n, false)
    else (if (mode == 2 && !neg) || (mode == 3 && neg) then n + 1 else n, true)
  else
    let sh := (q - e).toNat
    let n := m / 2 ^ sh
    let r := m % 2 ^ sh
    let inex := r != 0 || st
    let half := 2 ^ (sh - 1)
    let up := match mode with
      | 0 => decide (r > half) || (r == half && (st || n % 2 == 1))
      | 1 => false
      | 2 => inex && !neg
      | _ => inex && neg
    (if up then n + 1 else n, inex)

/-- The code of a value beyond range, or of an infinity met in a conversion (Table 3-4). `sat`: the SAT column. -/
def overCode (f : Fmt) (sat neg : Bool) : Nat :=
  match f.spec with
  | .none => signBit f neg + maxCode f
  | .nanOnly => if sat then signBit f neg + maxCode f else nanCode f
  | .ieee => if sat then signBit f neg + maxCode f else infCode f neg

/-- Rounding of an exact magnitude into a format (R54-R56, R59): the code and the flags. `sat`: beyond range gives the largest
finite value; a directed strict rounding away from the infinity gives it too (Table 3-4). -/
def roundFmt (c : Ctl) (sat : Bool) (f : Fmt) (neg : Bool) (m : Nat) (e : Int) (st : Bool) : Nat × Nat :=
  if m = 0 then (signBit f neg, 0)
  else
    let q0 := lg m e - f.mw
    let u := roundAt c.mode neg m e st q0
    let e0 := lg u.1 q0
    let top := maxCode f % 2 ^ f.mw + 2 ^ f.mw
    if e0 > emax f || (e0 == emax f && u.1 < 2 ^ (f.mw + 1) && u.1 > top) then
      let away := c.strict && (c.mode == 1 || (c.mode == 2 && neg) || (c.mode == 3 && !neg))
      (overCode f (sat || away) neg, fOF ||| fNX)
    else
      let tiny := decide (e0 < emin f)
      if tiny && c.flush && f.flushable then (signBit f neg, fFZ ||| fNX)
      else
        let q := max q0 (qmin f)
        let r := roundAt c.mode neg m e st q
        let code := (q - qmin f).toNat * 2 ^ f.mw + r.1
        (signBit f neg + code, if r.2 then (if tiny then fNX ||| fUF else fNX) else 0)

/-- The NaN a format is given (R45, Table 3-4): the payload's top bits in strict mode, else the canonical one. The sign of a
strict result, which R45 does not state, goes with a payload that is kept and is dropped where the payload becomes zero.
(DEDUCED, log 37; DESIGN CHOICE, log 159.) -/
def nanInto (c : Ctl) (f : Fmt) (v : Val) : Nat :=
  match f.spec, v with
  | .ieee, .nan n p _ =>
    if c.strict then
      let q := p / 2 ^ (52 - f.mw)
      if q = 0 then nanCode f else signBit f n + nanCode f + q
    else nanCode f
  | _, _ => nanCode f

/-- The tie that R54 and Table 3-5 name: 5.5 to E2M1, under round to nearest, goes to 4 and not to 6. (DEDUCED, log 155.) -/
def namedTie (c : Ctl) (f : Fmt) (m : Nat) (e : Int) : Bool :=
  f == e2m1 && c.mode == 0 && (if -1 ≤ e then m * 2 ^ (e + 1).toNat == 11 else m == 11 * 2 ^ (-1 - e).toNat)

/-- A conversion to a floating-point format (R54-R56): the code and the flags. -/
def convFloat (c : Ctl) (f : Fmt) (v : Val) : Nat × Nat :=
  match v with
  | .nan _ _ sig => (nanInto c f v, if f.spec == .none then fNV else if sig then fNV else 0)
  | .inf neg =>
    let code := match f.spec with
      | .ieee => infCode f neg
      | _ => overCode f (!c.ieee) neg
    (code, if f.spec == .ieee then 0 else fOF ||| fNX)
  | .fin neg m e => if namedTie c f m e then (signBit f neg + 6, fNX) else roundFmt c (!c.ieee) f neg m e false

/-- An arithmetic result (R52): beyond range it is an infinity whatever OVF says. -/
def arith (c : Ctl) (f : Fmt) (neg : Bool) (m : Nat) (e : Int) (st : Bool) : Nat × Nat := roundFmt c false f neg m e st

/-- An exact value as an arithmetic result. -/
def arithVal (c : Ctl) (f : Fmt) (v : Val) : Nat × Nat :=
  match v with
  | .nan _ _ _ => (nanInto c f v, 0)
  | .inf n => (infCode f n, 0)
  | .fin n m e => arith c f n m e false

/-- An operand as an engine reads it: a subnormal of a flushable format is a zero of its sign under FLUSH (R59). A flushed input
sets FZ and no NX, as R59's first case states; Table 3-6 leaves its NX open. (DEDUCED, log 38; DESIGN CHOICE, log 159.) -/
def operand (c : Ctl) (f : Fmt) (code : Nat) : Val × Nat :=
  if c.flush && f.flushable && isSub f code then (.zero (bit code (f.ew + f.mw)), fFZ) else (decodeF f code, 0)

/-- The whole number a value's magnitude stands for at `2^q`, exact when `q ≤ e`. -/
def scaled (m : Nat) (e q : Int) : Nat := m * 2 ^ (e - q).toNat

/-- An exact sum (R60 for its zero). -/
def addVal (mode : Nat) (x y : Val) : Val :=
  match x, y with
  | .fin nx mx ex, .fin ny my ey =>
    if mx = 0 && my = 0 then .zero (if nx == ny then nx else mode == 3)
    else if mx = 0 then y
    else if my = 0 then x
    else
      let q := min ex ey
      let a := scaled mx ex q
      let b := scaled my ey q
      if nx == ny then .fin nx (a + b) q
      else if a = b then .zero (mode == 3)
      else if a > b then .fin nx (a - b) q
      else .fin ny (b - a) q
  | .inf n, .fin _ _ _ => .inf n
  | .fin _ _ _, .inf n => .inf n
  | .inf n, .inf k => if n == k then .inf n else .cnan
  | .nan _ _ _, _ => x
  | _, .nan _ _ _ => y

/-- An exact product. -/
def mulVal (x y : Val) : Val :=
  match x, y with
  | .nan _ _ _, _ => x
  | _, .nan _ _ _ => y
  | .inf n, .inf k => .inf (n != k)
  | .inf n, .fin k m _ => if m = 0 then .cnan else .inf (n != k)
  | .fin n m _, .inf k => if m = 0 then .cnan else .inf (n != k)
  | .fin n m e, .fin k j g => .fin (n != k) (m * j) (e + g)

/-- The invalid cases that make a NaN from operands that are none (R62). -/
def invalid (x y r : Val) : Bool := isNan r && !isNan x && !isNan y

/-- The NaN a fast or strict operation gives among its operands (R45). (DEDUCED, log 37.) -/
def pickNan (c : Ctl) (vs : List Val) : Val :=
  if c.strict then ((vs.find? isNan).getD .cnan) else .cnan

/-- An operation's code and flags from its exact result. -/
def finishOp (c : Ctl) (f : Fmt) (ops : List (Val × Nat)) (r : Val) : Nat × Nat :=
  let fl := ops.foldl (fun a p => a ||| p.2) 0
  let vs := ops.map Prod.fst
  if vs.any isNan then (nanInto c f (pickNan c vs), fl ||| (if vs.any isSig then fNV else 0))
  else
    match r with
    | .nan _ _ _ => (nanCode f, fl ||| fNV)
    | _ =>
      let q := arithVal c f r
      (q.1, fl ||| q.2)

/-- Addition (R60, R66). -/
def fpAdd (c : Ctl) (f : Fmt) (a b : Nat) : Nat × Nat :=
  let x := operand c f a
  let y := operand c f b
  finishOp c f [x, y] (addVal c.mode x.1 y.1)

/-- A code with its sign turned. -/
def negCode (f : Fmt) (a : Nat) : Nat := a ^^^ 2 ^ (f.ew + f.mw)

/-- Subtraction: a NaN operand keeps its own sign. -/
def fpSub (c : Ctl) (f : Fmt) (a b : Nat) : Nat × Nat :=
  let x := operand c f a
  let y := operand c f b
  finishOp c f [x, y] (addVal c.mode x.1 (withSign (!negOf y.1) y.1))

def fpMul (c : Ctl) (f : Fmt) (a b : Nat) : Nat × Nat :=
  let x := operand c f a
  let y := operand c f b
  finishOp c f [x, y] (mulVal x.1 y.1)

/-- A product by a scale-vector element, which no FLUSH touches (R51, R59): only the first operand is read under FLUSH. -/
def fpScale (c : Ctl) (f : Fmt) (a scale : Nat) : Nat × Nat :=
  let x := operand c f a
  let y := decodeF f scale
  finishOp c f [x, (y, 0)] (mulVal x.1 y)

/-- Fused multiply-add `a × b + d`, rounded once (R66). -/
def fpFma (c : Ctl) (f : Fmt) (a b d : Nat) : Nat × Nat :=
  let x := operand c f a
  let y := operand c f b
  let z := operand c f d
  let p := mulVal x.1 y.1
  -- 0 × ∞ is invalid even beside a NaN addend
  let bad := invalid x.1 y.1 p
  let q := finishOp c f [x, y, z] (if bad then .cnan else addVal c.mode p z.1)
  (q.1, q.2 ||| (if bad then fNV else 0))

/-- Division, rounded once. -/
def fpDiv (c : Ctl) (f : Fmt) (a b : Nat) : Nat × Nat :=
  let x := operand c f a
  let y := operand c f b
  let fl := x.2 ||| y.2
  if isNan x.1 || isNan y.1 then finishOp c f [x, y] .cnan
  else
    match x.1, y.1 with
    | .inf _, .inf _ => (nanCode f, fl ||| fNV)
    | .inf n, v => (infCode f (n != negOf v), fl)
    | v, .inf n => (signBit f (n != negOf v), fl)
    | .fin n m e, .fin k j g =>
      if j = 0 then (if m = 0 then (nanCode f, fl ||| fNV) else (infCode f (n != k), fl))
      else if m = 0 then (signBit f (n != k), fl)
      else
        let sh := Nat.log2 j + f.mw + 4
        let r := arith c f (n != k) (m * 2 ^ sh / j) (e - g - sh) (m * 2 ^ sh % j != 0)
        (r.1, fl ||| r.2)
    | _, _ => (nanCode f, fl)

/-! ### The remaining operations of strict mode (Table 3-8) -/

/-- The bits of a whole number's square root from bit `n` down. -/
def sqrtBits (v : Nat) : Nat → Nat → Nat
  | 0, r => r
  | n + 1, r => if (r + 2 ^ n) * (r + 2 ^ n) ≤ v then sqrtBits v n (r + 2 ^ n) else sqrtBits v n r

/-- floor(√v). -/
def isqrt (v : Nat) : Nat := sqrtBits v (Nat.log2 v / 2 + 1) 0

/-- squareRoot, rounded once: −0 keeps its sign, and any other negative operand is invalid. -/
def fpSqrt (c : Ctl) (f : Fmt) (a : Nat) : Nat × Nat :=
  let x := operand c f a
  match x.1 with
  | .nan _ _ _ => finishOp c f [x] .cnan
  | .inf n => if n then (nanCode f, x.2 ||| fNV) else (infCode f false, x.2)
  | .fin n m e =>
    if m = 0 then (signBit f n, x.2)
    else if n then (nanCode f, x.2 ||| fNV)
    else
      let odd := e % 2
      let v := m * 2 ^ (160 + odd.toNat)
      let r := isqrt v
      let q := arith c f false r ((e - odd) / 2 - 80) (r * r != v)
      (q.1, x.2 ||| q.2)

/-- remainder: x − y × n for the whole number n nearest x ÷ y, ties to even; exact, and a zero takes the sign of x. -/
def fpRem (c : Ctl) (f : Fmt) (a b : Nat) : Nat × Nat :=
  let x := operand c f a
  let y := operand c f b
  let fl := x.2 ||| y.2
  match x.1, y.1 with
  | .nan _ _ _, _ => finishOp c f [x, y] .cnan
  | _, .nan _ _ _ => finishOp c f [x, y] .cnan
  | .inf _, _ => (nanCode f, fl ||| fNV)
  | .fin _ _ _, .inf _ => (a, fl)
  | .fin n m e, .fin _ j g =>
    if j = 0 then (nanCode f, fl ||| fNV)
    else
      let q := min e g
      let u := scaled m e q
      let v := scaled j g q
      let r := u % v
      -- the quotient rounds up when the rest is above half of y, or just half and the quotient is odd
      let up := decide (2 * r > v) || (2 * r == v && u / v % 2 == 1)
      let z : Val := if up then .fin (!n) (v - r) q else .fin n r q
      let w := arithVal c f (if r = 0 then .zero n else z)
      (w.1, fl ||| w.2)

/-- roundToIntegralExact in the current direction: inexact sets NX, and a zero keeps the operand's sign. -/
def fpRint (c : Ctl) (f : Fmt) (a : Nat) : Nat × Nat :=
  let x := operand c f a
  match x.1 with
  | .nan _ _ _ => finishOp c f [x] .cnan
  | .inf n => (infCode f n, x.2)
  | .fin n m e =>
    if 0 ≤ e then (a, x.2)
    else
      let r := roundAt c.mode n m e false 0
      let q := arithVal c f (.fin n r.1 0)
      (q.1, x.2 ||| q.2 ||| (if r.2 then fNX else 0))

/-- The order of two values that are not NaN: -1, 0 or 1; zeros are equal. -/
def cmpVal (x y : Val) : Int :=
  match x, y with
  | .inf n, .inf k => if n == k then 0 else if n then -1 else 1
  | .inf n, _ => if n then -1 else 1
  | _, .inf k => if k then 1 else -1
  | .fin n m e, .fin k j g =>
    let q := min e g
    let a : Int := if n then -(scaled m e q : Int) else scaled m e q
    let b : Int := if k then -(scaled j g q : Int) else scaled j g q
    if a < b then -1 else if a > b then 1 else 0
  | _, _ => 0

/-- MAX and MIN order: −0 below +0 (R61). -/
def lessSel (x y : Val) : Bool :=
  let k := cmpVal x y
  decide (k < 0) || (k == 0 && negOf x && !negOf y)

/-- MAX, MIN, MAXNUM, MINNUM (R61). `num`: a NaN operand is ignored unless both are. -/
def fpSel (c : Ctl) (f : Fmt) (isMax num : Bool) (a b : Nat) : Nat × Nat :=
  let x := operand c f a
  let y := operand c f b
  let fl := x.2 ||| y.2 ||| (if isSig x.1 || isSig y.1 then fNV else 0)
  let out (v : Val × Nat) (code : Nat) : Nat := if v.2 = 0 then code else signBit f (negOf v.1)
  if isNan x.1 || isNan y.1 then
    if num && !(isNan x.1 && isNan y.1) then (if isNan x.1 then out y b else out x a, fl)
    else (nanInto c f (pickNan c [x.1, y.1]), fl)
  else
    let takeB := if isMax then lessSel x.1 y.1 else lessSel y.1 x.1
    (if takeB then out y b else out x a, fl)

/-- The six comparisons (R61), of operands as their engine reads them. -/
inductive Cmp where
  | eq | ne | lt | le | gt | ge
  deriving DecidableEq, Repr

def fpCmp (k : Cmp) (x y : Val) : Bool × Nat :=
  let fl := if isSig x || isSig y then fNV else 0
  if isNan x || isNan y then (k == .ne, fl)
  else
    let d := cmpVal x y
    (match k with
      | .eq => d == 0
      | .ne => d != 0
      | .lt => decide (d < 0)
      | .le => decide (d ≤ 0)
      | .gt => decide (d > 0)
      | .ge => decide (d ≥ 0), fl)

/-- A conversion to a `w`-bit two's complement integer (R57): the code and the flags. -/
def convInt (c : Ctl) (w : Nat) (v : Val) : Nat × Nat :=
  match v with
  | .nan _ _ _ => (0, fNV)
  | .inf neg => (if neg then 2 ^ (w - 1) else 2 ^ (w - 1) - 1, fNV)
  | .fin neg m e =>
    let r := roundAt c.mode neg m e false 0
    let lim := if neg then 2 ^ (w - 1) else 2 ^ (w - 1) - 1
    if r.1 > lim then (if neg then 2 ^ (w - 1) else 2 ^ (w - 1) - 1, fOF ||| fNX)
    else (toField w (if neg then -(r.1 : Int) else r.1), if r.2 then fNX else 0)

/-- A whole number as a value. -/
def ofInt (i : Int) : Val := .fin (decide (i < 0)) i.natAbs 0

/-! ### Formats by name and by code (Tables 3-1, 4-2) -/

/-- A format of Table 3-1 as the conversions see it. -/
inductive AnyFmt where
  | flt (f : Fmt)
  | int (w : Nat)
  deriving DecidableEq, Repr

def anyFmt : NumFmt → AnyFmt
  | .fp64 => .flt f64 | .fp32 => .flt f32 | .bf16 => .flt bf16 | .fp16 => .flt f16 | .e5m2 => .flt e5m2
  | .e4m3 => .flt e4m3 | .e3m2 => .flt e3m2 | .e2m3 => .flt e2m3 | .e2m1 => .flt e2m1
  | .int64 => .int 64 | .int32 => .int 32 | .int8 => .int 8 | .int4 => .int 4

/-- The format a code of Table 4-2 names; 0x9 to 0xE are reserved. -/
def fmtOfCode (c : Nat) : Option NumFmt :=
  match c with
  | 0x0 => some .bf16 | 0x1 => some .fp16 | 0x2 => some .e5m2 | 0x3 => some .e4m3 | 0x4 => some .e3m2
  | 0x5 => some .e2m3 | 0x6 => some .e2m1 | 0x7 => some .int8 | 0x8 => some .int4 | 0xF => some .fp32
  | _ => none

def anyBits : AnyFmt → Nat
  | .flt f => fmtBits f
  | .int w => w

/-- Bits of an element in memory. -/
def elemBits (k : NumFmt) : Nat := anyBits (anyFmt k)

/-- Bytes of `n` packed elements. -/
def packedBytes (k : NumFmt) (n : Nat) : Nat := (n * elemBits k + 7) / 8

/-- The code of element `i` of a packed run (R47). -/
def elemAt (k : NumFmt) (b : Bytes) (i : Nat) : Nat :=
  let w := elemBits k
  let off := i * w
  bits (leAt b (off / 8) (w / 8 + 2)) (off % 8) w

/-- The first `n` codes of a packed run. -/
def elems (k : NumFmt) (b : Bytes) (n : Nat) : List Nat := (List.range n).map (elemAt k b)

/-- Codes as one little-endian number, `w` bits each, the first lowest. -/
def packNat (w : Nat) : List Nat → Nat
  | [] => 0
  | c :: t => c % 2 ^ w + 2 ^ w * packNat w t

/-- Codes packed into bytes (R47). -/
def pack (k : NumFmt) (cs : List Nat) : Bytes := leBytes (packedBytes k cs.length) (packNat (elemBits k) cs)

/-- The value of a code. -/
def decodeAny (k : AnyFmt) (code : Nat) : Val :=
  match k with
  | .flt f => decodeF f code
  | .int w => ofInt (signed w code)

/-- An operand of any format as VEC reads it. -/
def operandAny (c : Ctl) (k : AnyFmt) (code : Nat) : Val × Nat :=
  match k with
  | .flt f => operand c f code
  | .int w => (ofInt (signed w code), 0)

/-- A conversion between any two formats (Table 3-3). -/
def convAny (c : Ctl) (src dst : AnyFmt) (code : Nat) : Nat × Nat :=
  let v := operandAny c src code
  let r := match dst with
    | .flt f => convFloat c f v.1
    | .int w => convInt c w v.1
  (r.1, v.2 ||| r.2)

/-- Table 3-3 has the pair. -/
def convAllowed (src dst : NumFmt) : Bool :=
  let target := match dst with
    | .int64 => false
    | .int32 => false
    | _ => true
  target && src != .int64 && src != dst && !(src == .int32 && dst == .int32)

/-! ### MX blocks (R46, R48, R58) -/

/-- The power of two of an element's unit: MXINT8 elements are n × 2^−6 (R46). -/
def mxValue (k : NumFmt) (code : Nat) : Val :=
  match k with
  | .int8 =>
    let i := signed 8 code
    .fin (decide (i < 0)) i.natAbs (-6)
  | _ => decodeAny (anyFmt k) code

/-- A value times a power of two, exact. -/
def scaleVal (v : Val) (k : Int) : Val :=
  match v with
  | .fin n m e => .fin n m (e + k)
  | _ => v

/-- Element `v` of a block with scale byte `sc` (R46). -/
def mxDecode (k : NumFmt) (sc code : Nat) : Val :=
  if sc = 0xFF then .cnan else scaleVal (mxValue k code) ((sc : Int) - 127)

/-- One element of a conversion to MX: always saturating; MXINT8 never writes 0x80 (R48, R58). -/
def mxElem (c : Ctl) (k : NumFmt) (v : Val) : Nat × Nat :=
  match anyFmt k with
  | .flt f => convFloat { c with ieee := false } f v
  | .int _ =>
    let r := convInt c 8 (scaleVal v 6)
    if r.1 = 0x80 then (0x81, r.2 ||| fNX) else r

/-- EMAX of an element format (R58). -/
def mxEmax (k : NumFmt) : Int :=
  match anyFmt k with
  | .flt f => emax f
  | .int _ => 0

/-- The largest element of a sign. -/
def mxLargest (k : NumFmt) (neg : Bool) : Nat :=
  match anyFmt k with
  | .flt f => signBit f neg + maxCode f
  | .int _ => if neg then 0x81 else 0x7F

/-- The larger magnitude of two finite values. -/
def magMax (a b : Nat × Int) : Nat × Int :=
  if a.1 = 0 then b
  else if b.1 = 0 then a
  else
    let q := min a.2 b.2
    if scaled a.1 a.2 q < scaled b.1 b.2 q then b else a

def magOf : Val → Nat × Int
  | .fin _ m e => (m, e)
  | _ => (0, 0)

/-- `convert_mx` of R58: scale byte, element codes, flags. -/
def convMx (c : Ctl) (k : NumFmt) (xs : List Val) : Nat × List Nat × Nat :=
  if xs.any isNan then (0xFF, xs.map fun _ => 0, if xs.any isSig then fNV else 0)
  else if xs.any isInf && c.ieee then (0xFF, xs.map fun _ => 0, fOF ||| fNX)
  else
    let f0 := if xs.any isInf then fOF else 0
    let amax := (xs.map magOf).foldl magMax (0, 0)
    let raw := if amax.1 = 0 then 0 else lg amax.1 amax.2 - mxEmax k
    let f1 := if raw > 127 then fOF else 0
    let sx := max (-127) (min 127 raw)
    let es := xs.map fun x =>
      if isInf x then (mxLargest k (negOf x), fNX) else mxElem c k (scaleVal x (-sx))
    ((sx + 127).toNat, es.map Prod.fst, es.foldl (fun a p => a ||| p.2) (f0 ||| f1))

/-- A run of values as MX blocks of 32; a short last block is filled with +0 that is not stored (R91): scales, codes, flags. -/
def convMxRow (c : Ctl) (k : NumFmt) : Nat → List Val → List Nat × List Nat × Nat
  | 0, _ => ([], [], 0)
  | n + 1, xs =>
    match xs with
    | [] => ([], [], 0)
    | _ =>
      let head := xs.take 32
      let b := convMx c k (head ++ List.replicate (32 - head.length) (Val.zero false))
      let t := convMxRow c k n (xs.drop 32)
      (b.1 :: t.1, b.2.1.take head.length ++ t.2.1, b.2.2 ||| t.2.2)

/-- The element formats of MX blocks (R46, R90). -/
def mxFormat : NumFmt → Bool
  | .e5m2 => true
  | .e4m3 => true
  | .e3m2 => true
  | .e2m3 => true
  | .e2m1 => true
  | .int8 => true
  | _ => false

end Sys2Proof.Machine
end

