-- ==== Sys2Proof/Machine/Alias.lean ====
section
/-! DEFINITION. The memory-side adders: writes to the update aliases (R315, R316), AMOs and compare-and-swap (R317). -/

namespace Sys2Proof.Machine

/-- An address in the update aliases (Table 14-1). -/
def isAlias (a : Nat) : Bool := decide (0x800000000000 ≤ a ∧ a < 0xC00000000000)

/-- OP and T of an alias address (R315). -/
def aliasOp (a : Nat) : Nat := (a - 0x800000000000) / 2 ^ 44
def aliasT (a : Nat) : Nat := (a - 0x800000000000) % 2 ^ 44

/-- Bytes of the element written and of its target (Table 14-5). -/
def aliasIn (op : Nat) : Nat := if op = 1 then 2 else if op = 3 then 8 else 4
def aliasOut (op : Nat) : Nat := if op = 3 then 8 else 4

/-- The target of an alias address. -/
def aliasTarget (a : Nat) : Nat := if aliasOp a = 1 then 2 * aliasT a else aliasT a

/-- Bytes of the target a write of `n` bytes updates. -/
def aliasSpan (a n : Nat) : Nat := n / aliasIn (aliasOp a) * aliasOut (aliasOp a)

/-- The target lies in direct HBM or in cluster SRAM. (DEDUCED, log 121.) -/
def adderOk (a n : Nat) : Bool := inHbm a n || inSram a n

/-- A write that consists of whole, naturally aligned elements on a target the adders reach (R315). -/
def aliasOk (a n : Nat) : Bool :=
  isAlias a && isAlias (a + n - 1) && aliasOp (a + n - 1) == aliasOp a && a % aliasIn (aliasOp a) == 0
    && n % aliasIn (aliasOp a) == 0 && adderOk (aliasTarget a) (aliasSpan a n)

/-- A whole number saturated to `w` bits, with OF where it saturates. -/
def satInt (w : Nat) (i : Int) : Nat × Nat :=
  if i < -(2 ^ (w - 1) : Nat) then (2 ^ (w - 1), fOF)
  else if (2 ^ (w - 1) : Nat) ≤ i then (2 ^ (w - 1) - 1, fOF)
  else (toField w i, 0)

/-- One element's update: its new code and its flags (Table 14-5). -/
def aliasElem (op old v : Nat) : Nat × Nat :=
  match op with
  | 0 => fpAdd ctl0 f32 old v
  | 1 => fpAdd ctl0 f32 old (v * 2 ^ 16)
  | 2 => satInt 32 (signed 32 old + signed 32 v)
  | _ => satInt 64 (signed 64 old + signed 64 v)

/-- The flags of an adder go to its stack or its cluster (R316). -/
def setAdderFlags (s : State) (a f : Nat) : State :=
  match placeOf (directD a) with
  | .hbm k => setMemAdderFlags s k f
  | .sram c => setCluAdderFlags s c f

/-- A read-modify-write of each sector of a range: the reads are counted as R310 counts them. (DEDUCED, log 120.) -/
def modifySectors (s : State) (a n : Nat) : State := (sectorViews a n).foldl (writeSector 0 0) s

/-- Element `i` of an alias write applied, unless its sector is uncorrectable (R316). -/
def aliasApply (a : Nat) (data : Bytes) (s : State) (i : Nat) : State :=
  let op := aliasOp a
  let t := aliasTarget a + i * aliasOut op
  if isBad s (directD t / 32) then s
  else
    let r := aliasElem op (leNat (peek s t (aliasOut op))) (leAt data (i * aliasIn op) (aliasIn op))
    setAdderFlags (poke s t (leBytes (aliasOut op) r.1)) t r.2

/-- The elements `is` of a write to an alias (R315, R316); none where the write is refused as a hole is. (DEDUCED, log 120.) -/
def aliasWriteSome (s : State) (a : Nat) (data : Bytes) (is : List Nat) : Option State :=
  if aliasOk a data.length then
    let op := aliasOp a
    some (is.foldl (aliasApply a data) (is.foldl (fun t i =>
      if i > 0 && is.contains (i - 1) && (aliasTarget a + i * aliasOut op) % 32 != 0 then t
      else modifySectors t (aliasTarget a + i * aliasOut op) (aliasOut op)) s))
  else none

/-- A whole write to an alias. -/
def aliasWrite (s : State) (a : Nat) (data : Bytes) : Option State :=
  aliasWriteSome s a data (List.range (data.length / aliasIn (aliasOp a)))

/-- A write by a unit that may write update aliases (R315). -/
def writeAny (s : State) (a : Nat) (b : Bytes) : Option State := if isAlias a then aliasWrite s a b else memWrite s a b

/-- What the latest store of a control core to an update alias met: an access fault or none (R308). -/
def noteStore (s : State) (fault : Bool) : State := { s with memc := { s.memc with storeFault := fault } }

/-- UPDATE_ALIAS_WRITE by a control core; streams and small transfers write through their own commands. A refused write changes no
memory and takes an access fault (R308, R315). (DEDUCED, log 121.) -/
def execUpdateAliasWrite (addr : Nat) (data : Bytes) (s : State) : Host.Outcome State Fault Refusal :=
  match aliasWrite s addr data with
  | some t => .next (noteStore t false)
  | none => .next (noteStore s true)

/-- The result of an AMO on `w` bits (RISC-V; R317). -/
def amoResult (op : AmoOp) (w old v : Nat) : Nat :=
  match op with
  | .add => (old + v) % 2 ^ w
  | .swap => v
  | .and => old &&& v
  | .or => old ||| v
  | .xor => old ^^^ v
  | .min => if signed w v < signed w old then v else old
  | .max => if signed w old < signed w v then v else old
  | .minu => min old v
  | .maxu => max old v
  | .lr => old
  | .sc => v

/-- The adders perform an update of `n` bytes at `a`: the value before, or why not. -/
def adderRun (s : State) (a n : Nat) (f : Nat → Nat) : State × AmoAnswer :=
  let t := modifySectors s a n
  if isBad s (directD a / 32) then (t, .poisoned)
  else
    let old := leNat (peek t a n)
    (poke t a (leBytes n (f old)), .old (BitVec.ofNat 64 old))

/-- What a control core sees: a word result sign-extended, an uncorrectable sector as an access fault (R317). -/
def amoSeen (wide : Bool) : AmoAnswer → AmoAnswer
  | .old v => .old (if wide then v else (v.setWidth 32).signExtend 64)
  | .poisoned => .accessFault
  | x => x

/-- An AMO's target: HBM or any cluster SRAM, naturally aligned. (DEDUCED, log 121.) -/
def amoOk (a n : Nat) : Bool := a % n == 0 && (spanOk a n && (placeOf (directD a) matches .hbm _) || inSram a n)

/-- What a control core's operation answers it. -/
def amoAnswer (s : State) (cluster : Nat) (x : AmoAnswer) : State := modCluster s cluster fun y => { y with amo := x }

/-- LR and SC work on the control core's own cluster SRAM (R317). -/
def ownSram (cluster a n : Nat) : Bool := a % n == 0 && inSram a n && (placeOf (directD a) matches .sram _)
  && decide (sramBase cluster ≤ a ∧ a < sramBase cluster + 0xC00000)

/-- LR: the word is read and reserved. -/
def loadReserved (s : State) (cluster a n : Nat) (wide : Bool) : State :=
  let r := memRead s a n
  match r.2 with
  | .ok b =>
    modCluster (amoAnswer r.1 cluster (amoSeen wide (.old (BitVec.ofNat 64 (leNat b))))) cluster fun x =>
      { x with resv := some (a, n, leNat b) }
  | _ => amoAnswer r.1 cluster .accessFault

/-- SC: it stores, and answers 0, where the reservation stands and the word is still what LR read; else it answers 1.
(DESIGN CHOICE, log 164.) -/
def storeConditional (s : State) (cluster a n : Nat) (v : Nat) : State :=
  let held := (clusterAt s cluster).resv == some (a, n, leNat (peek s a n))
  let s1 := modCluster s cluster fun x => { x with resv := none }
  match if held then memWrite s1 a (leBytes n v) else none with
  | some t => amoAnswer t cluster (.old 0#64)
  | none => amoAnswer s1 cluster (.old 1#64)

/-- An AMO at the adders of its target. Its operand and its answer cross the die link where the target is far (R311). -/
def amoRun (s : State) (cluster : Nat) (op : AmoOp) (wide : Bool) (a v : Nat) : State :=
  let n := if wide then 8 else 4
  if amoOk a n then
    let r := adderRun s a n fun old => amoResult op (8 * n) old v
    amoAnswer (dlCtrl (dlCtrl r.1 (cluster / 8) (dieOf a) n) (dieOf a) (cluster / 8) n) cluster (amoSeen wide r.2)
  else amoAnswer s cluster .accessFault

/-- AMO of a control core, with LR and SC among RV64A's operations (R317). (DEDUCED, log 121.) -/
def execAmo (cluster : Nat) (op : AmoOp) (wide : Bool) (addr : Nat) (value : Dword) (s : State) :
    Host.Outcome State Fault Refusal :=
  onUnit cluster 16 "cluster" <|
    let n := if wide then 8 else 4
    let v := value.toNat % 2 ^ (8 * n)
    match op with
    | .lr => if ownSram cluster addr n then loadReserved s cluster addr n wide else amoAnswer s cluster .accessFault
    | .sc => if ownSram cluster addr n then storeConditional s cluster addr n v else amoAnswer s cluster .accessFault
    | _ => amoRun s cluster op wide addr v

/-- COMPARE_AND_SWAP of a channel core (R317). (DEDUCED, log 121.) -/
def execCompareAndSwap (channel addr : Nat) (expected new : Word) (s : State) : Host.Outcome State Fault Refusal :=
  onUnit channel 64 "flash channel" <|
    if amoOk addr 4 then
      let r := adderRun s addr 4 fun old => if old = expected.toNat then new.toNat else old
      { r.1 with vse := { r.1.vse with scanAmo := r.2 } }
    else { s with vse := { s.vse with scanAmo := .accessFault } }

end Sys2Proof.Machine
end

