-- ==== Sys2Proof/Machine/SfuMath.lean ====
section
/-! DEFINITION. Special functions (chapter 5): the ROM functions, correctly rounded in every output format (R95), and the
pipeline of R98 over a bank. -/

namespace Sys2Proof.Machine

/-! ### ROM functions (R93-R95) -/

/-- Bits of the fixed-point work below. -/
def wp : Nat := 260

/-- ln 2 × 2^260, floor. -/
def ln2Fix : Nat := 0xb17217f7d1cf79abc9e3b39803f2f6af40f343267298b62d8a0d175b8baafa2be

/-- `one × Σ y^k/k!` for a fixed-point `y` below 1, each term floored. -/
def expTerms (one y : Nat) : Nat → Nat → Nat → Nat
  | 0, _, _ => 0
  | n + 1, k, t => t + expTerms one y n (k + 1) (t * y / one / (k + 1))

/-- 2^f × 2^260 for a fraction `f = n / 2^260`, from below, within 2^-190 of it. -/
def exp2Frac (n : Nat) : Nat :=
  let one := 2 ^ wp
  expTerms one (n * ln2Fix / one) 70 0 one

/-- Odd powers of the inverse hyperbolic tangent. -/
def atanhTerms (one z2 : Nat) : Nat → Nat → Nat → Nat
  | 0, _, _ => 0
  | n + 1, k, t => t / k + atanhTerms one z2 n (k + 2) (t * z2 / one)

/-- ln(m / 2^b) × 2^260 for 2^b ≤ m < 2^(b+1), from below: 2 atanh((x−1)/(x+1)). -/
def lnFrac (m b : Nat) : Nat :=
  let one := 2 ^ wp
  let z := (m - 2 ^ b) * one / (m + 2 ^ b)
  2 * atanhTerms one (z * z / one) 180 1 z

/-- The result of a ROM function before its one rounding: a value, or a magnitude that stands a little below the true one. -/
inductive Fun where
  | exact (v : Val)
  | near (neg : Bool) (m : Nat) (e : Int)
  deriving DecidableEq, Repr

/-- 2^x (Table 5-1). A finite argument beyond ±2,000 gives a value beyond every format's range on its side. -/
def funExp2 (v : Val) : Fun :=
  match v with
  | .nan _ _ _ => .exact .cnan
  | .inf n => .exact (if n then .zero false else .inf false)
  | .fin neg m e =>
    if m = 0 then .exact (.fin false 1 0)
    else if lg m e ≥ 11 then .exact (.fin false 1 (if neg then -2000 else 2000))
    else if lg m e < -120 then
      -- 1 + x ln 2 with |x| below 2^-119: just above or just below 1
      .near false (if neg then 2 ^ 200 - 1 else 2 ^ 200) (-200)
    else
      -- x = k + n / 2^260 exactly
      let a := if e + wp < 0 then 0 else m * 2 ^ (e + wp).toNat
      let whole := a / 2 ^ wp
      let frac := a % 2 ^ wp
      let k : Int := if neg then (if frac = 0 then -(whole : Int) else -(whole : Int) - 1) else whole
      let n := if neg then (if frac = 0 then 0 else 2 ^ wp - frac) else frac
      if n = 0 then .exact (.fin false 1 k) else .near false (exp2Frac n) (k - wp)

/-- log2 x. -/
def funLog2 (v : Val) : Fun :=
  match v with
  | .nan _ _ _ => .exact .cnan
  | .inf n => .exact (if n then .cnan else .inf false)
  | .fin neg m e =>
    if m = 0 then .exact (.inf true)
    else if neg then .exact .cnan
    else
      let b := Nat.log2 m
      let k := (b : Int) + e
      if m = 2 ^ b then .exact (ofInt k)
      else
        let l := lnFrac m b * 2 ^ wp / ln2Fix
        let t : Int := k * (2 ^ wp : Nat) + l
        if t ≥ 0 then .near false t.toNat (-wp) else .near true ((-t).toNat - 1) (-wp)

/-- 1 ÷ x. -/
def funRcp (v : Val) : Fun :=
  match v with
  | .nan _ _ _ => .exact .cnan
  | .inf n => .exact (.zero n)
  | .fin neg m e =>
    if m = 0 then .exact (.inf neg)
    else
      let sh := Nat.log2 m + 80
      if 2 ^ sh % m = 0 then .exact (.fin neg (2 ^ sh / m) (-e - sh)) else .near neg (2 ^ sh / m) (-e - sh)

/-- √x. -/
def funSqrt (v : Val) : Fun :=
  match v with
  | .nan _ _ _ => .exact .cnan
  | .inf n => .exact (if n then .cnan else .inf false)
  | .fin neg m e =>
    if m = 0 then .exact v
    else if neg then .exact .cnan
    else
      let odd := e % 2
      let a := m * 2 ^ (160 + odd.toNat)
      let r := isqrt a
      let x := (e - odd) / 2 - 80
      if r * r = a then .exact (.fin false r x) else .near false r x

/-- 1 ÷ √x. -/
def funRsqrt (v : Val) : Fun :=
  match v with
  | .nan _ _ _ => .exact .cnan
  | .inf n => .exact (if n then .cnan else .zero false)
  | .fin neg m e =>
    if m = 0 then .exact (.inf neg)
    else if neg then .exact .cnan
    else
      let odd := e % 2
      let d := m * 2 ^ odd.toNat
      let p := Nat.log2 d + 160
      let r := isqrt (2 ^ (2 * p) / d)
      let x := -((e - odd) / 2) - p
      if r * r * d = 2 ^ (2 * p) then .exact (.fin false r x) else .near false r x

/-- The ROM function an FID names (Table 5-1). -/
def romFun (fid : Nat) : Option (Val → Fun) :=
  match fid with
  | 0 => some funExp2
  | 1 => some funLog2
  | 2 => some funRcp
  | 3 => some funSqrt
  | 4 => some funRsqrt
  | _ => none

/-- A function's value converted once (R95, R98 ROUND): code and flags. The argument's own flags are `fl`. -/
def roundFun (c : Ctl) (f : Fmt) (arg : Val) (r : Fun) (fl : Nat) : Nat × Nat :=
  match r with
  | .exact v =>
    if isNan v then
      (nanCode f, fl ||| (if f.spec == .none then fNV else if isNan arg then (if isSig arg then fNV else 0) else fNV))
    else
      let q := convFloat c f v
      (q.1, fl ||| q.2)
  | .near neg m e =>
    let q := roundFmt c (!c.ieee) f neg m e true
    (q.1, fl ||| q.2)

/-- A ROM function of a code (R94, R95). -/
def romOp (c : Ctl) (fid : Nat) (src dst : Fmt) (code : Nat) : Nat × Nat :=
  let a := operand c src code
  match romFun fid with
  | some g => roundFun c dst a.1 (g a.1) a.2
  | none => (nanCode dst, a.2)

/-- EXP2 of an FP32 code (R111). -/
def exp2To (dst : Fmt) (code : Nat) : Nat × Nat := romOp ctl0 0 f32 dst code

/-! ### The functions of the default image (Table 5-1, FIDs 0x10 to 0x19)

R95 fixes their short outputs to the true value rounded once, whatever the image holds. -/

/-- π × 2^260, floor. -/
def piFix : Nat := 0x3243f6a8885a308d313198a2e03707344a4093822299f31d0082efa98ec4e6c894

/-- e^x for `x × 2^260`, from below: a mantissa at 2^-260, from 1 to 2, and the exponent of two beside it. -/
def expFix (x : Int) : Nat × Int :=
  let k := Int.fdiv x ln2Fix
  (expTerms (2 ^ wp) (x - k * ln2Fix).toNat 80 0 (2 ^ wp), k)

/-- A magnitude `m × 2^e` at 2^-260, floor; for magnitudes below 2^12. -/
def toFix (m : Nat) (e : Int) : Nat := (roundAt 1 false m e false (-wp)).1

/-- The same with its sign. -/
def toFixS (neg : Bool) (m : Nat) (e : Int) : Int := if neg then -(toFix m e : Int) else toFix m e

/-- A value just above, or just below, a magnitude `m × 2^e`. -/
def justBeside (above neg : Bool) (m : Nat) (e : Int) : Fun := .near neg (if above then m * 2 ^ 200 else m * 2 ^ 200 - 1) (e - 200)

/-- A positive magnitude below every format's range. -/
def funTiny (neg : Bool) : Fun := .exact (.fin neg 1 (-2000))

/-- e^x. -/
def funExp (v : Val) : Fun :=
  match v with
  | .nan _ _ _ => .exact .cnan
  | .inf n => .exact (if n then .zero false else .inf false)
  | .fin neg m e =>
    if m = 0 then .exact (.fin false 1 0)
    else if lg m e ≥ 11 then (if neg then funTiny false else .exact (.fin false 1 2000))
    else if lg m e < -100 then justBeside (!neg) false 1 0
    else
      let r := expFix (toFixS neg m e)
      .near false r.1 (r.2 - wp)

/-- ln x. -/
def funLn (v : Val) : Fun :=
  match v with
  | .nan _ _ _ => .exact .cnan
  | .inf n => .exact (if n then .cnan else .inf false)
  | .fin neg m e =>
    if m = 0 then .exact (.inf true)
    else if neg then .exact .cnan
    else
      let b := Nat.log2 m
      let k := (b : Int) + e
      if m = 2 ^ b && k == 0 then .exact (.zero false)
      else
        let t : Int := k * ln2Fix + lnFrac m b
        if t ≥ 0 then .near false t.toNat (-wp) else .near true ((-t).toNat - 1) (-wp)

/-- tanh x. -/
def funTanh (v : Val) : Fun :=
  match v with
  | .nan _ _ _ => .exact .cnan
  | .inf n => .exact (.fin n 1 0)
  | .fin neg m e =>
    if m = 0 then .exact v
    else if lg m e < -60 then justBeside false neg m e
    else if lg m e ≥ 7 then justBeside false neg 1 0
    else
      let one := 2 ^ wp
      let r := expFix (-(2 * toFix m e : Int))
      let u := r.1 / 2 ^ (-r.2).toNat
      .near neg ((one - u) * one / (one + u)) (-wp)

/-- 1 ÷ (1 + e^−y) for a fixed-point y of magnitude below 2^11: a mantissa and its exponent of two. -/
def sigmoidFix (y : Int) : Nat × Int :=
  let one := 2 ^ wp
  let r := expFix (-(y.natAbs : Int))
  let u := r.1 / 2 ^ (-r.2).toNat
  if y ≥ 0 then (one * one / (one + u), -wp) else (r.1 * one / (one + u), r.2 - wp)

/-- 1 ÷ (1 + e^−x). -/
def funSigmoid (v : Val) : Fun :=
  match v with
  | .nan _ _ _ => .exact .cnan
  | .inf n => .exact (if n then .zero false else .fin false 1 0)
  | .fin neg m e =>
    if m = 0 then .exact (.fin false 1 (-1))
    else if lg m e < -60 then justBeside (!neg) false 1 (-1)
    else if lg m e ≥ 11 then (if neg then funTiny false else justBeside false false 1 0)
    else
      let r := sigmoidFix (toFixS neg m e)
      .near false r.1 r.2

/-- x times a weight between 0 and 1 that is above ½ for x above 0: `w` gives it for a magnitude that is neither tiny nor beyond
`2^big`, where it is 1 or 0 to within every format. -/
def funGate (big : Int) (w : Bool → Nat → Int → Nat × Int) (v : Val) : Fun :=
  match v with
  | .nan _ _ _ => .exact .cnan
  | .inf n => .exact (if n then .zero true else .inf false)
  | .fin neg m e =>
    if m = 0 then .exact v
    else if lg m e < -60 then justBeside (!neg) neg m (e - 1)
    else if lg m e ≥ big then (if neg then funTiny true else justBeside false false m e)
    else
      let r := w neg m e
      .near neg (m * r.1) (e + r.2)

/-- x × SIGMOID(x). -/
def funSilu : Val → Fun := funGate 11 fun neg m e => sigmoidFix (toFixS neg m e)

/-- Σ z^(2n+1) ÷ (1·3·5…(2n+1)) in fixed point. -/
def normTerms (one z2 : Nat) : Nat → Nat → Nat → Nat
  | 0, _, _ => 0
  | n + 1, k, t => t + normTerms one z2 n (k + 2) (t * z2 / one / (k + 2))

/-- Φ(z) − ½ for a fixed-point z from 0 to 16. -/
def phiFix (z : Nat) : Nat :=
  let one := 2 ^ wp
  let z2 := z * z / one
  let g := expFix (-(z2 / 2 : Nat))
  let c := isqrt (2 ^ (3 * wp) / (2 * piFix))
  normTerms one z2 1000 1 z * g.1 / 2 ^ (-g.2).toNat / one * c / one

/-- x × Φ(x). -/
def funGelu : Val → Fun := funGate 4 fun neg m e =>
  let h := 2 ^ (wp - 1)
  let p := min h (phiFix (toFix m e))
  (if neg then h - p else h + p, -wp)

/-- 0.5x(1 + tanh(√(2 ÷ π)(x + 0.044715x³))), which is x × SIGMOID of twice the inner value. -/
def funGelut : Val → Fun := funGate 6 fun neg m e =>
  let one := 2 ^ wp
  let x := toFix m e
  let y := x + x * x / one * x / one * 44715 / 1000000
  let z : Nat := 2 * (y * isqrt (2 * 2 ^ (3 * wp) / piFix) / one)
  sigmoidFix (if neg then -(z : Int) else z)

/-- ln(1 + u) for a fixed-point u from 0 to 1. -/
def ln1Fix (u : Nat) : Nat :=
  let one := 2 ^ wp
  let z := u * one / (2 * one + u)
  2 * atanhTerms one (z * z / one) 180 1 z

/-- ln(1 + e^x). -/
def funSoftplus (v : Val) : Fun :=
  match v with
  | .nan _ _ _ => .exact .cnan
  | .inf n => .exact (if n then .zero false else .inf false)
  | .fin neg m e =>
    if m = 0 then .near false ln2Fix (-wp)
    else if lg m e ≥ 11 then (if neg then funTiny false else justBeside true false m e)
    else
      let x := toFix m e
      let r := expFix (-(x : Int))
      let u := r.1 / 2 ^ (-r.2).toNat
      if !neg then (if lg m e ≥ 7 then justBeside true false m e else .near false (x + ln1Fix u) (-wp))
      else if lg m e ≥ 6 then .near false (r.1 - r.1 * r.1 / 2 ^ ((wp : Int) + 1 - r.2).toNat) (r.2 - wp)
      else .near false (ln1Fix u) (-wp)

/-- The alternating series t − t·θ²/((k+1)(k+2)) + … of a sine (k = 1) or a cosine (k = 0). -/
def altTerms (one t2 : Nat) : Nat → Nat → Nat → Nat
  | 0, _, _ => 0
  | n + 1, k, t => t - altTerms one t2 n (k + 2) (t * t2 / one / ((k + 1) * (k + 2)))

/-- sin(π × g ÷ 2^n) for 0 < g ÷ 2^n ≤ ½. -/
def sinFun (neg : Bool) (g n : Nat) : Fun :=
  let one := 2 ^ wp
  if 2 * g = 2 ^ n then .exact (.fin neg 1 0)
  else if 4 * g ≤ 2 ^ n then
    if Nat.log2 g + 60 < n then .near neg (g * piFix) (-(n + wp : Nat))
    else
      let t := g * piFix / 2 ^ n
      .near neg (altTerms one (t * t / one) 60 1 t) (-wp)
  else
    let t := (2 ^ n - 2 * g) * piFix / 2 ^ (n + 1)
    if t < 2 ^ 150 then justBeside false neg 1 0 else .near neg (altTerms one (t * t / one) 60 0 one) (-wp)

/-- sin(π × h ÷ 2^n) for a whole h: its half-turns make the sign. A zero takes the sign `z`. -/
def sinTurns (z neg : Bool) (h n : Nat) : Fun :=
  let r := h % 2 ^ n
  let s := neg != (h / 2 ^ n % 2 == 1)
  if r = 0 then .exact (.zero z) else sinFun s (min r (2 ^ n - r)) n

/-- sin πx; a zero has the sign of x. (DESIGN CHOICE, log 161.) -/
def funSinpi (v : Val) : Fun :=
  match v with
  | .nan _ _ _ => .exact .cnan
  | .inf _ => .exact .cnan
  | .fin neg m e =>
    if m = 0 then .exact v
    else if e ≥ 0 then .exact (.zero neg)
    else sinTurns neg neg m (-e).toNat

/-- cos πx = sin π(|x| + ½); a zero is +0. (DESIGN CHOICE, log 161.) -/
def funCospi (v : Val) : Fun :=
  match v with
  | .nan _ _ _ => .exact .cnan
  | .inf _ => .exact .cnan
  | .fin _ m e =>
    if m = 0 then .exact (.fin false 1 0)
    else if e ≥ 0 then .exact (.fin (m * 2 ^ e.toNat % 2 == 1) 1 0)
    else if lg m e < -60 then justBeside false false 1 0
    else sinTurns false false (2 * m + 2 ^ (-e).toNat) ((-e).toNat + 1)

/-- The function the default image holds under an FID (Table 5-1); 0x1A to 0x1F are left invalid (R94). -/
def builtinFun (fid : Nat) : Option (Val → Fun) :=
  match fid with
  | 0x10 => some funExp
  | 0x11 => some funLn
  | 0x12 => some funTanh
  | 0x13 => some funSigmoid
  | 0x14 => some funSilu
  | 0x15 => some funGelu
  | 0x16 => some funGelut
  | 0x17 => some funSoftplus
  | 0x18 => some funSinpi
  | 0x19 => some funCospi
  | _ => none

/-! ### XF arithmetic (R97) -/

/-- Rounding of an exact value to XF: 64-bit significand, exponent −32,768 to 32,767, nearest even; beyond it BIG, below it
TINY. (DEDUCED, log 41.) -/
def toXf (v : Val) : Val :=
  match v with
  | .fin neg m e =>
    if m = 0 then v
    else
      let q := lg m e - 63
      let r := roundAt 0 neg m e false q
      let k := lg r.1 q
      if k > 32767 then .fin neg (2 ^ 64 - 1) (32767 - 63)
      else if k < -32768 then .fin neg 1 (-32768)
      else if q ≤ e then v else .fin neg r.1 q
  | _ => v

/-- DEDUCED, log 41. -/
def xfBig (neg : Bool) : Val := .fin neg (2 ^ 64 - 1) (32767 - 63)
/-- DEDUCED, log 41. -/
def xfTiny (neg : Bool) : Val := .fin neg 1 (-32768)

/-- An XF operation's result: NaN from operands that are none sets NV (R97). -/
def xfOp (ops : List Val) (r : Val) : Val × Nat :=
  if ops.any isNan then (.cnan, 0) else if isNan r then (.cnan, fNV) else (toXf r, 0)

def xfAdd (a b : Val) : Val × Nat := xfOp [a, b] (addVal 0 a b)
def xfSub (a b : Val) : Val × Nat := xfOp [a, b] (addVal 0 a (withSign (!negOf b) b))
def xfMul (a b : Val) : Val × Nat := xfOp [a, b] (mulVal a b)
def xfFma (a b d : Val) : Val × Nat :=
  let p := mulVal a b
  if invalid a b p then (.cnan, fNV) else xfOp [a, b, d] (addVal 0 p d)

/-- floor of a finite value, as a whole number. -/
def floorInt (neg : Bool) (m : Nat) (e : Int) : Int :=
  let r := roundAt 3 neg m e false 0
  if neg then -(r.1 : Int) else r.1

def xfFloor (v : Val) : Val :=
  match v with
  | .fin neg m e =>
    if m = 0 || e ≥ 0 then v
    else
      let i := floorInt neg m e
      if i = 0 then .zero neg else ofInt i
  | _ => v

/-- A − floor(A), in [0, 1), exact also where that takes more than 64 bits. (DESIGN CHOICE, log 159.) -/
def xfFrac (v : Val) : Val × Nat :=
  match v with
  | .nan _ _ _ => (.cnan, 0)
  | .inf _ => (.cnan, fNV)
  | .fin _ _ _ =>
    let w := xfFloor v
    (addVal 0 v (withSign (!negOf w) w), 0)

/-- A whole number of magnitude below 2^15, where the value is one. -/
def smallInt (v : Val) : Option Int :=
  match v with
  | .fin neg m e =>
    if m = 0 then some 0
    else if lg m e ≥ 15 then none
    else if e ≥ 0 then some (if neg then -(m * 2 ^ e.toNat : Nat) else (m * 2 ^ e.toNat : Nat))
    else if m % 2 ^ (-e).toNat = 0 then
      let k : Nat := m / 2 ^ (-e).toNat
      some (if neg then -(k : Int) else k)
    else none
  | _ => none

/-- A × 2^B; any B that is not a whole number below 2^15 in magnitude gives NaN and NV (Table 5-6). -/
def xfScale (a b : Val) : Val × Nat :=
  match smallInt b with
  | some k => (if isNan a then .cnan else toXf (scaleVal a k), 0)
  | none => (.cnan, fNV)

def xfGetExp (v : Val) : Val :=
  match v with
  | .nan _ _ _ => .cnan
  | .inf _ => .inf false
  | .fin _ m e => if m = 0 then .inf true else ofInt (lg m e)

/-- |A| × 2^−floor(log2 |A|). Table 5-6 gives no result for an infinity: it stays +∞. (DESIGN CHOICE, log 159.) -/
def xfGetMan (v : Val) : Val :=
  match v with
  | .fin _ m e => if m = 0 then .zero false else .fin false m (e - lg m e)
  | .inf _ => .inf false
  | .nan _ _ _ => .cnan

/-! ### Lane state, instructions and slots (R98-R105) -/

/-- A lane: its registers, its pending special, its flags. -/
structure Lane where
  q    : List Val
  pend : Option Nat
  fl   : Nat
  deriving DecidableEq, Repr

def laneReg (l : Lane) (i : Nat) : Val := l.q.getD i .cnan
def setReg (l : Lane) (i : Nat) (r : Val × Nat) : Lane := { l with q := l.q.set i r.1, fl := l.fl ||| r.2 }

/-- Table 5-8. -/
def condHolds (k : Nat) (a b : Val) : Bool :=
  match k with
  | 0 => isNan a
  | 1 => isZero a
  | 2 => isInf a && !negOf a
  | 3 => isInf a && negOf a
  | 4 => !isNan a && !isZero a && negOf a
  | 5 => !isNan a && !isNan b && cmpVal a b > 0
  | 6 => !isNan a && !isNan b && cmpVal a b < 0
  | 7 => true
  | _ => false

/-- One Icsal instruction (Table 5-6). `kc` are the slot's constants. -/
def icsal (kc : List Val) (w : Nat) (l : Lane) : Lane :=
  let d := bits w 23 3
  let a := laneReg l (bits w 20 3)
  let b := laneReg l (bits w 17 3)
  match bits w 26 6 with
  | 0x01 => setReg l d (a, 0)
  | 0x02 => setReg l d (xfAdd a b)
  | 0x03 => setReg l d (xfSub a b)
  | 0x04 => setReg l d (xfMul a b)
  | 0x05 => setReg l d (xfFma a b (laneReg l d))
  | 0x06 => setReg l d (kc.getD (bits w 0 3) .cnan, 0)
  | 0x07 => setReg l d (xfFloor a, 0)
  | 0x08 => setReg l d (xfFrac a)
  | 0x09 => setReg l d (withSign false a, 0)
  | 0x0A => setReg l d (withSign (!negOf a) a, 0)
  | 0x0B => setReg l d (xfScale a b)
  | 0x0C => setReg l d (xfGetExp a, 0)
  | 0x0D => setReg l d (xfGetMan a, 0)
  | 0x0E => setReg l d (withSign (negOf b) a, 0)
  | 0x0F => if condHolds (bits w 0 4) a b && l.pend.isNone then { l with pend := some (bits w 4 4) } else l
  | 0x10 => if condHolds (bits w 0 4) a b then setReg l d (b, 0) else l
  | _ => l

/-- An instruction Table 5-6 allows, its unused fields zero. -/
def icsalOk (w : Nat) : Bool :=
  let d0 := bits w 23 3 == 0
  let a0 := bits w 20 3 == 0
  let b0 := bits w 17 3 == 0
  let i0 := bits w 0 17 == 0
  let cond := bits w 0 4
  match bits w 26 6 with
  | 0x00 => d0 && a0 && b0 && i0
  | 0x02 => i0
  | 0x03 => i0
  | 0x04 => i0
  | 0x05 => i0
  | 0x0B => i0
  | 0x0E => i0
  | 0x06 => a0 && b0 && bits w 3 14 == 0 && bits w 0 3 < 6
  | 0x0F => d0 && bits w 8 9 == 0 && cond ≤ 7 && bits w 4 4 ≤ 0xA
  | 0x10 => bits w 4 13 == 0 && (cond ≤ 4 || cond == 7)
  | k => ((k == 1) || (0x07 ≤ k && k ≤ 0x0D)) && b0 && i0

/-- A function slot (Table 5-5). -/
structure FnSlot where
  fid   : Nat
  valid : Bool
  base  : Nat
  n     : Nat
  eLo   : Int
  eHi   : Int
  s     : Nat
  npre  : Nat
  npost : Nat
  pre   : List Nat
  post  : List Nat
  kc    : List Val
  resOk : Bool
  deriving DecidableEq, Repr

def slotOf (half : Bytes) (i : Nat) : FnSlot :=
  let o := 128 * i
  { fid := byteAt half o, valid := bit (byteAt half (o + 1)) 0, base := leAt half (o + 2) 2 % 1024, n := leAt half (o + 4) 2,
    eLo := signed 8 (byteAt half (o + 6)), eHi := signed 8 (byteAt half (o + 7)), s := byteAt half (o + 8) % 16,
    npre := byteAt half (o + 9), npost := byteAt half (o + 10),
    pre := (List.range 8).map fun k => leAt half (o + 16 + 4 * k) 4,
    post := (List.range 8).map fun k => leAt half (o + 48 + 4 * k) 4,
    kc := (List.range 6).map fun k => decodeF f64 (leAt half (o + 80 + 8 * k) 8),
    resOk := byteAt half (o + 1) / 8 == 0 && leAt half (o + 2) 2 / 1024 == 0 && byteAt half (o + 8) / 16 == 0
      && byteAt half (o + 11) == 0 }

/-- The checks of R103 on slot `i` of an image with `segs` entries. -/
def slotOk (half : Bytes) (segs i : Nat) : Bool :=
  let x := slotOf half i
  x.resOk && (!x.valid ||
    (x.fid == 0x10 + i && x.s ≤ 8 && x.eLo ≤ x.eHi && (x.n : Int) == (x.eHi - x.eLo + 1) * (2 ^ x.s : Nat) + 1
      && x.base + x.n ≤ segs && x.npre ≤ 8 && x.npost ≤ 8
      && (numbered x.pre 0).all (fun p => icsalOk p.2 && (p.1 < x.npre || p.2 == 0))
      && (numbered x.post 0).all (fun p => icsalOk p.2 && (p.1 < x.npost || p.2 == 0))))

/-- A table image is accepted (R103): its half's slots and the reserved bits of its entries. (DEDUCED, log 59.) -/
def imageOk (half segs : Bytes) (n : Nat) : Bool :=
  1 ≤ n && n ≤ 1024 && (List.range 16).all (slotOk half n)
    && (List.range n).all fun i => leAt segs (32 * i) 5 == 0

/-- HORNER (R100). -/
def horner (segs : Bytes) (i t : Nat) : Val :=
  let o := 32 * i
  let c0 := signed 64 (leAt segs (o + 24) 8)
  let c1 := signed 56 (leAt segs (o + 17) 7)
  let c2 := signed 48 (leAt segs (o + 11) 6)
  let c3 := signed 40 (leAt segs (o + 6) 5)
  let ce := signed 8 (byteAt segs (o + 5))
  let step (c h : Int) : Int := c + Int.fdiv (h * t) (2 ^ 32)
  let h := step c0 (step c1 (step c2 c3))
  if h = 0 then .zero false else .fin (decide (h < 0)) h.natAbs (ce - 62)

/-- LOOKUP (R99): the segment and the fraction; none beyond the segments. (DEDUCED, log 42.) -/
def lookup (x : FnSlot) (v : Val) : Option (Nat × Nat) :=
  match v with
  | .fin _ m e =>
    if m = 0 || lg m e < x.eLo then
      let q := x.eLo - 32
      some (x.base + (x.eHi - x.eLo + 1).toNat * 2 ^ x.s, if m = 0 then 0 else (roundAt 1 false m e false q).1)
    else if lg m e > x.eHi then none
    else
      let k := lg m e
      -- a × 2^−k × 2^(S+32), floored: 2^(S+32) ≤ f < 2^(S+33)
      let f := (roundAt 1 false m (e - k) false (-(x.s + 32 : Nat))).1 - 2 ^ (x.s + 32)
      some (x.base + (k - x.eLo).toNat * 2 ^ x.s + f / 2 ^ 32, f % 2 ^ 32)
  | _ => none

/-- The value of a special (Table 5-7) and whether it sets NV. (DEDUCED, log 42.) -/
def special (k : Nat) : Val × Nat :=
  match k with
  | 0x0 => (.cnan, fNV)
  | 0x1 => (.cnan, 0)
  | 0x2 => (.zero false, 0)
  | 0x3 => (.zero true, 0)
  | 0x4 => (.inf false, 0)
  | 0x5 => (.inf true, 0)
  | 0x6 => (xfBig false, 0)
  | 0x7 => (xfBig true, 0)
  | 0x8 => (xfTiny false, 0)
  | 0x9 => (xfTiny true, 0)
  | 0xA => (.fin false 1 0, 0)
  | _ => (.cnan, 0)

/-- The pipeline of R98 for a bank function: code and flags. (DEDUCED, log 42.) -/
def bankOp (c : Ctl) (k : Bank) (slot : Nat) (src dst : Fmt) (code : Nat) : Nat × Nat :=
  let x := slotOf k.half slot
  let a := operand c src code
  let l0 : Lane := ⟨(a.1 :: List.replicate 7 (.zero false)), none, a.2 ||| (if isSig a.1 then fNV else 0)⟩
  let l1 := (x.pre.take x.npre).foldl (fun l w => icsal x.kc w l) l0
  let l2 := match lookup x (laneReg l1 0) with
    | some p => setReg l1 7 (horner k.segs p.1 p.2, 0)
    | none => setReg l1 7 (.cnan, if l1.pend.isSome then 0 else fNV)
  let l3 := (x.post.take x.npost).foldl (fun l w => icsal x.kc w l) l2
  let r := match l3.pend with
    | some p => special p
    | none => (laneReg l3 0, 0)
  let q := convFloat c dst r.1
  (q.1, l3.fl ||| r.2 ||| q.2)

/-- The active bank of a core. -/
def activeBank (x : Core) : Bank := x.banks.getD x.active bankInvalid

/-- The slot of a bank function is valid; the default image holds 0x10 to 0x19 (R94). -/
def bankValid (k : Bank) (fid : Nat) : Bool :=
  0x10 ≤ fid && fid < 0x20 && (if k.dflt then (builtinFun fid).isSome else (slotOf k.half (fid - 0x10)).valid)

/-- A finite code at most one unit from a true value that lies just above `lo` in magnitude, `lo` its truncation. -/
def withinUlp (f : Fmt) (neg : Bool) (m : Nat) (e : Int) (code : Nat) : Bool :=
  let lo := (roundFmt { strict := true, mode := 1, flush := false, ieee := false } true f neg m e true).1
  code == lo || code == lo + 1

/-- A function of the default image (R94, R95): a special result, and an output of 16 bits or fewer, is the true value rounded
once; an FP32 output is what the image's segments give, within 1 ulp of it. (DESIGN CHOICE, log 161.) -/
def defaultOp (c : Ctl) (k : Bank) (fid : Nat) (src dst : Fmt) (code : Nat) : Nat × Nat :=
  let a := operand c src code
  match builtinFun fid with
  | none => (nanCode dst, a.2 ||| fNV)
  | some g =>
    let t := roundFun c dst a.1 (g a.1) a.2
    match g a.1 with
    | .exact _ => t
    | .near neg m e =>
      let p := bankOp c k (fid - 0x10) src dst code
      if 16 < fmtBits dst && withinUlp dst neg m e p.1 then p else t

/-- FIDs that name a function (R93). -/
def fidOk (fid : Nat) : Bool := fid ≤ 4 || (0x10 ≤ fid && fid < 0x20)

/-- A function of a code, from ROM or from a bank. -/
def sfuOp (c : Ctl) (k : Bank) (fid : Nat) (src dst : Fmt) (code : Nat) : Nat × Nat :=
  if fid < 0x10 then romOp c fid src dst code
  else if k.dflt then defaultOp c k fid src dst code
  else bankOp c k (fid - 0x10) src dst code

end Sys2Proof.Machine
end

