-- ==== Sys2Proof/Machine/Reload.lean ====
section
/-! DEFINITION. TABLE_LOAD and the switch of table banks (R107-R110). -/

namespace Sys2Proof.Machine

/-- SFU_BANK_SWITCH: the core's next tile boundary, or the end of its chain. -/
def execSfuBankSwitch (core : Nat) (s : State) : Host.Outcome State Fault Refusal :=
  onUnit core 256 "core" (tileBoundary s core)

/-- The image is the default one, which some core still holds (R95). -/
def isDefaultImage (s : State) (half segs : Bytes) : Bool :=
  s.cores.any fun x => x.banks.any fun b => b.dflt && b.half == half && b.segs == segs

/-- The shadow bank and half of a core are written; the active bank never is (R108). Entries beyond the image stay. -/
def writeShadow (half segs : Bytes) (s : State) (c : Nat) : State :=
  modCore s c fun x =>
    { x with banks := x.banks.modify (1 - x.active) fun b =>
               ⟨half, segs ++ b.segs.drop segs.length, isDefaultImage s half segs⟩, shadow := true }

/-- The reload in progress reads and validates its image and writes the shadows; the cores switch, since a VEC command works one tile
whole and every VEC stands at a tile boundary whenever another command runs, except where a chain holds the bank (R108, R110).
(DEDUCED, log 58, 59.) -/
def runReload (s : State) (r : Reload) : State :=
  let q := ctrlRead s r.image (2048 + 32 * r.segCount)
  match q.2 with
  | .error e => nextReload (finishCmd q.1 (r.id, r.hdr) e)
  | .ok b =>
    if imageOk (b.take 2048) (b.drop 2048) r.segCount then
      let cores := reloadCores r.mask
      let s1 := cores.foldl (writeShadow (b.take 2048) (b.drop 2048)) q.1
      let s2 := { s1 with sfu := { s1.sfu with written := true } }
      reloadDone (cores.foldl switchBank s2)
    else nextReload (finishCmd q.1 (r.id, r.hdr) .badDescriptor)

/-- TABLE_RELOAD_RUN: a started reload runs. -/
def execTableReloadRun (s : State) : Host.Outcome State Fault Refusal :=
  match s.sfu.cur with
  | none => .next s
  | some r => if s.sfu.written then .next s else .next (runReload s r)

/-- TABLE_LOAD's admission (Table 5-9). SEG_COUNT and the image are judged when the reload runs (R103). (DEDUCED, log 59.) -/
def opTableLoad (h : HostHdr) (image : AddrArg) (segCount : Nat) (mask : Half) (block : Bool) (s : State) : State :=
  if image.space ≠ 0 then complete s h .badDescriptor 0
  else if s.sfu.cur.isNone then
    let q := startCmd s h 0x10
    { q.1 with sfu := { q.1.sfu with cur := some ⟨q.2, h, image.addr, segCount, mask⟩, written := false } }
  else if block && s.sfu.waiting.length < 4 then
    let q := startCmd s h 0x10
    { q.1 with sfu := { q.1.sfu with waiting := q.1.sfu.waiting ++ [⟨q.2, h, image.addr, segCount, mask⟩] } }
  else complete s h .tableBusy 0

def execTableLoad (h : HostHdr) (image : AddrArg) (segCount : Nat) (mask : Half) (block : Bool) (s : State) :
    Host.Outcome State Fault Refusal :=
  hostCmd s h .module false (opTableLoad h image segCount mask block)

end Sys2Proof.Machine
end

