-- ==== Sys2Proof/Machine/Pages.lean ====
section
/-! DEFINITION. Page-table entries, frames (R191, R194, R195) and Curd objects (R214-R216). -/

namespace Sys2Proof.Machine

/-! ### Page-table entries -/

/-- A page-table entry, field by field (Table 9-2). -/
structure Pte where
  tier  : Nat
  state : Nat
  form  : Nat
  share : Bool
  pin   : Bool
  pool  : Nat
  loc   : Nat
  resOk : Bool
  deriving DecidableEq, Repr

def pteOf (v : Nat) : Pte :=
  { tier := bits v 62 2, state := bits v 60 2, form := bits v 58 2, share := bit v 57, pin := bit v 56, pool := bits v 52 4,
    loc := bits v 0 34, resOk := bits v 34 18 == 0 && (bits v 62 2 != 0 || bits v 30 4 == 0) }

/-- A page-table entry as a 64-bit number. -/
def pteVal (p : Pte) : Nat :=
  p.loc + p.pool * 2 ^ 52 + flag p.pin * 2 ^ 56 + flag p.share * 2 ^ 57 + p.form * 2 ^ 58 + p.state * 2 ^ 60
    + p.tier * 2 ^ 62

/-- TIER HBM and STATE PRESENT, in any form (R195, R18). -/
def resident (p : Pte) : Bool := p.tier == 0 && p.state == 1

def poolAt (s : State) (p : Nat) : FramePool := s.kvc.pools.getD p poolAtThaw

/-- Bytes of a frame of a pool. -/
def frameBytes (p : FramePool) : Nat := 1024 * p.fsizeK

/-- Address of frame `f` of pool `p` (R191). -/
def frameAddr (s : State) (p f : Nat) : Nat := (poolAt s p).base + f * frameBytes (poolAt s p)

/-! ### CRC-32C (R214) -/

def crc32cBit (c : Nat) : Nat := if c % 2 = 1 then (c / 2) ^^^ 0x82F63B78 else c / 2

def crc32cByte (c : Nat) (b : Byte) : Nat :=
  crc32cBit (crc32cBit (crc32cBit (crc32cBit (crc32cBit (crc32cBit (crc32cBit (crc32cBit (c ^^^ b.toNat))))))))

/-- CRC-32C of RFC 3720. -/
def crc32c (l : Bytes) : Nat := (l.foldl crc32cByte 0xFFFFFFFF) ^^^ 0xFFFFFFFF

/-! ### Curd objects -/

/-- A Curd header (Table 9-12). -/
structure CurdHdr where
  magic : Nat
  variant : Nat
  cfmt  : Nat
  outBytes : Nat
  objBytes : Nat
  check : Nat
  resOk : Bool
  deriving DecidableEq, Repr

def curdHdr (b : Bytes) : CurdHdr :=
  { magic := leAt b 0 2, variant := byteAt b 2, cfmt := byteAt b 3, outBytes := leAt b 4 4, objBytes := leAt b 8 4,
    check := leAt b 12 4, resOk := allZero (sub b 16 16) }

/-- The CHECK of an object, taken with CHECK read as zero. -/
def curdCheck (o : Bytes) : Nat := crc32c (overlay o 12 (leBytes 4 0))

/-- Mantissa bits of the formats the lossless variant takes: E5M2 and E4M3 (R215). -/
def losslessM (cfmt : Nat) : Option Nat :=
  match fmtOfCode cfmt with
  | some .e4m3 => some 3
  | some .e5m2 => some 2
  | _ => none

/-- One group of the lossless variant (R215). -/
def curdGroup (m : Nat) (es : List Nat) : Bytes :=
  let xs := es.map fun e => bits e m (7 - m)
  let lo := xs.foldl min 255
  let span := xs.foldl max 0 - lo
  let w := if span = 0 then 0 else Nat.log2 span + 1
  let rests := es.map fun e => bits e 7 1 * 2 ^ m + bits e 0 m
  let body := leBytes (4 * (1 + m)) (packNat (1 + m) rests) ++ leBytes (4 * w) (packNat w (xs.map fun x => x - lo))
  if 32 < 1 + body.length then 7#8 :: (es.map fun e => BitVec.ofNat 8 e)
  else BitVec.ofNat 8 (lo * 8 + w) :: body

/-- Groups of 32 elements, one after the other. -/
def curdGroups (m : Nat) : Nat → Bytes → Bytes
  | 0, _ => []
  | n + 1, page => curdGroup m ((sub page 0 32).map fun b => b.toNat) ++ curdGroups m n (page.drop 32)

/-- One group read back: its 32 bytes and what follows; none when the body ends too soon. -/
def curdUngroup (m : Nat) (b : Bytes) : Option (Bytes × Bytes) :=
  match b with
  | [] => none
  | h :: t =>
    let w := h.toNat % 8
    let lo := h.toNat / 8
    if h = 7#8 then (if t.length < 32 then none else some (t.take 32, t.drop 32))
    else
      let nr := 4 * (1 + m)
      if t.length < nr + 4 * w then none
      else
        let rv := leNat (t.take nr)
        let xv := leNat ((t.drop nr).take (4 * w))
        let es := (List.range 32).map fun i =>
          let r := bits rv (i * (1 + m)) (1 + m)
          let x := (lo + bits xv (i * w) w) % 2 ^ (7 - m)
          BitVec.ofNat 8 (r / 2 ^ m * 128 + x * 2 ^ m + r % 2 ^ m)
        some (es, t.drop (nr + 4 * w))

def curdUngroups (m : Nat) : Nat → Bytes → Option Bytes
  | 0, _ => some []
  | n + 1, b =>
    match curdUngroup m b with
    | none => none
    | some r =>
      match curdUngroups m n r.2 with
      | none => none
      | some t => some (r.1 ++ t)

/-- An object from its body (R214). -/
def curdObject (variant cfmt outBytes : Nat) (body : Bytes) : Bytes :=
  let n := roundUp (32 + body.length) 32
  let o := padTo n (leBytes 2 0x4355 ++ leBytes 1 variant ++ leBytes 1 cfmt ++ leBytes 4 outBytes ++ leBytes 4 n
    ++ leBytes 4 0 ++ leBytes 16 0 ++ body)
  overlay o 12 (leBytes 4 (crc32c o))

/-- The MXFP4 body of a page (R216): element bytes, then one scale per block of 32; and the flags. -/
def mxfp4Body (cfmt : NumFmt) (page : Bytes) : Bytes × Nat :=
  let n := page.length * 8 / elemBits cfmt
  let vs := (elems cfmt page n).map (decodeAny (anyFmt cfmt))
  let r := convMxRow { strict := false, mode := 0, flush := false, ieee := false } .e2m1 (n / 32) vs
  (pack .e2m1 r.2.1 ++ r.1.map fun x => BitVec.ofNat 8 x, r.2.2)

/-- CURD_ENC's object for a page (R215-R217), and the flags; none where the variant takes no such format. -/
def curdEncode (variant cfmt : Nat) (page : Bytes) : Option (Bytes × Nat) :=
  if variant = 1 then
    match losslessM cfmt with
    | none => none
    | some m => some (curdObject 1 cfmt page.length (curdGroups m (page.length / 32) page), 0)
  else if variant = 2 then
    match fmtOfCode cfmt with
    | none => none
    | some k =>
      let r := mxfp4Body k page
      let n := page.length * 8 / elemBits k
      some (curdObject 2 cfmt (n / 2) r.1, r.2)
  else none

/-- What an object gives LOAD or the SSA (R169, R214). -/
inductive CurdOut where
  | mismatch                             -- another variant or another length
  | corrupt                              -- its own check fails
  | ok (main : Bytes) (scales : Bytes)
  deriving DecidableEq, Repr

/-- An object of `variant` that must deliver `outBytes`; `o` is the object, OBJ_BYTES long. -/
def curdDecode (variant outBytes : Nat) (o : Bytes) : CurdOut :=
  let h := curdHdr o
  if h.variant ≠ variant ∨ h.outBytes ≠ outBytes then .mismatch
  else if h.magic ≠ 0x4355 ∨ h.objBytes ≠ o.length ∨ curdCheck o ≠ h.check then .corrupt
  else if variant = 1 then
    match losslessM h.cfmt with
    | none => .corrupt
    | some m =>
      match curdUngroups m (outBytes / 32) (o.drop 32) with
      | none => .corrupt
      | some b => .ok b []
  else if 32 + outBytes + outBytes / 16 ≤ o.length then .ok (sub o 32 outBytes) (sub o (32 + outBytes) (outBytes / 16))
  else .corrupt

end Sys2Proof.Machine
end

