-- ==== Sys2Proof/Machine/Frames.lean ====
section
/-! DEFINITION. Sequence records, directories, frame tables and the free protocol (R191-R196, R203-R205, R208, R445). -/

namespace Sys2Proof.Machine

/-! ### Sequence records (R192, R193) -/

/-- A sequence record (Table 9-1). -/
structure SeqRec where
  s0Start : Nat
  s0N     : Nat
  s1Start : Nat
  s1N     : Nat
  s1Pti   : Nat
  ptCap   : Nat
  dir     : Nat
  nlayer  : Nat
  hdim    : Nat
  hkv     : Nat
  pexp    : Nat
  cfmt    : Nat
  valid   : Bool
  tail    : Nat
  recallOn : Bool
  frozen  : Bool
  evict   : Bool
  nsink   : Nat
  curve   : Nat
  ppool   : Nat
  window  : Nat
  resOk   : Bool
  deriving DecidableEq, Repr

def seqRecOf (b : Bytes) : SeqRec :=
  let fl := byteAt b 39
  { s0Start := leAt b 0 4, s0N := leAt b 4 4, s1Start := leAt b 8 4, s1N := leAt b 12 4, s1Pti := leAt b 16 4,
    ptCap := leAt b 20 4, dir := leAt b 24 6, nlayer := leAt b 32 2, hdim := leAt b 34 2, hkv := byteAt b 36,
    pexp := byteAt b 37 % 16, cfmt := byteAt b 38 % 16, valid := bit fl 0, tail := flag (bit fl 1), recallOn := bit fl 2,
    frozen := bit fl 3, evict := bit fl 4, nsink := byteAt b 40, curve := byteAt b 41 % 16, ppool := byteAt b 42 % 16,
    window := leAt b 44 4,
    resOk := leAt b 30 2 == 0 && byteAt b 37 / 16 == 0 && byteAt b 38 / 16 == 0 && fl / 32 == 0 && byteAt b 41 / 16 == 0
      && byteAt b 42 / 16 == 0 && byteAt b 43 == 0 && allZero (sub b 48 16) }

/-- The fields an operation may change, written into a record's bytes. -/
def seqRecBytes (r : SeqRec) : Bytes :=
  leBytes 4 r.s0Start ++ leBytes 4 r.s0N ++ leBytes 4 r.s1Start ++ leBytes 4 r.s1N ++ leBytes 4 r.s1Pti ++ leBytes 4 r.ptCap
    ++ leBytes 8 r.dir ++ leBytes 2 r.nlayer ++ leBytes 2 r.hdim ++ leBytes 1 r.hkv ++ leBytes 1 r.pexp ++ leBytes 1 r.cfmt
    ++ leBytes 1 (flag r.valid + 2 * r.tail + 4 * flag r.recallOn + 8 * flag r.frozen + 16 * flag r.evict)
    ++ leBytes 1 r.nsink ++ leBytes 1 r.curve ++ leBytes 1 r.ppool ++ leBytes 1 0 ++ leBytes 4 r.window ++ leBytes 16 0

/-- The ranges of Table 9-1. (DEDUCED, log 72.) -/
def seqRecOk (r : SeqRec) : Bool :=
  r.resOk && r.valid && decide (1 ≤ r.nlayer ∧ r.nlayer ≤ 1024 ∧ 32 ≤ r.hdim ∧ r.hdim ≤ 256 ∧ 1 ≤ r.hkv ∧ r.hkv ≤ 64
    ∧ 4 ≤ r.pexp ∧ r.pexp ≤ 12 ∧ r.cfmt ≤ 3) && r.hdim % 32 == 0

def seqAddr (s : State) (q : Nat) : Nat := s.kvc.seqBase + 64 * q

/-- The record of a sequence ID (R192, R402). (DEDUCED, log 72.) -/
def readSeq (s : State) (q : Nat) : State × Except Status SeqRec :=
  if s.kvc.seqN ≤ q then (s, .error .badDescriptor)
  else
    let r := ctrlRead s (seqAddr s q) 64
    match r.2 with
    | .error e => (r.1, .error e)
    | .ok b => (r.1, if seqRecOk (seqRecOf b) then .ok (seqRecOf b) else .error .badDescriptor)

def writeSeq (s : State) (q : Nat) (r : SeqRec) : State := (memWrite s (seqAddr s q) (seqRecBytes r)).getD s

/-- START + N of the tail span (R193). -/
def seqLength (r : SeqRec) : Nat := if r.tail = 1 then r.s1Start + r.s1N else r.s0Start + r.s0N

/-- The sequence has two spans (R193). -/
def twoSpans (r : SeqRec) : Bool := r.s1N != 0 || r.tail == 1

/-- START, first page-table index and bound of a span (R193). (DEDUCED, log 78.) -/
def spanOf (r : SeqRec) (span : Nat) : Nat × Nat × Nat :=
  if span = 1 then (r.s1Start, r.s1Pti, r.ptCap) else (r.s0Start, 0, if twoSpans r then min r.s1Pti r.ptCap else r.ptCap)

def pageSize (r : SeqRec) : Nat := 2 ^ r.pexp

/-- The page that holds position `p` of a span: its index and its first position. (DEDUCED, log 78.) -/
def locateIn (r : SeqRec) (span p : Nat) : Except Status (Nat × Nat) :=
  let sp := spanOf r span
  if p < sp.1 then .error .badDescriptor
  else
    let k := (p - sp.1) / pageSize r
    if sp.2.2 ≤ sp.2.1 + k then .error .shapeOver else .ok (sp.2.1 + k, sp.1 + k * pageSize r)

/-- The page that holds position `p`: span 1 from its START on, else span 0. (DEDUCED, log 78.) -/
def locate (r : SeqRec) (p : Nat) : Except Status (Nat × Nat) :=
  locateIn r (if twoSpans r && r.s1Start ≤ p then 1 else 0) p

/-- First position of the page at a page-table index (R193). -/
def firstPos (r : SeqRec) (pti : Nat) : Nat :=
  if twoSpans r && r.s1Pti ≤ pti then r.s1Start + (pti - r.s1Pti) * pageSize r else r.s0Start + pti * pageSize r

/-- The held pages of a span in increasing index: index, first position, end of the span. -/
def heldPages (r : SeqRec) (span : Nat) : List (Nat × Nat × Nat) :=
  let sp := spanOf r span
  let n := if span = 1 then r.s1N else r.s0N
  (List.range ((n + pageSize r - 1) / pageSize r)).map fun i => (sp.2.1 + i, sp.1 + i * pageSize r, sp.1 + n)

/-- The held pages of span 0 and then of span 1 (R199). -/
def spanPages (r : SeqRec) : List (Nat × Nat × Nat) := heldPages r 0 ++ heldPages r 1

/-- A held page that an operation needs lies at or beyond its span's bound: SHAPE_OVER (R193). -/
def heldOver (r : SeqRec) (needs : Nat × Nat × Nat → Bool) : Bool :=
  [0, 1].any fun k => (heldPages r k).any fun p => needs p && decide ((spanOf r k).2.2 ≤ p.1)

/-- The tail span's N set so that the length is `n`. -/
def setLength (r : SeqRec) (n : Nat) : SeqRec :=
  if r.tail = 1 then { r with s1N := n - r.s1Start } else { r with s0N := n - r.s0Start }

/-- Bytes of an element of the cache format. -/
def cfmtBytes (c : Nat) : Nat := if c = 0 || c = 1 then 2 else 1

/-- Bytes of a plain page (R190). -/
def pageBytes (r : SeqRec) : Nat := r.hkv * 2 * pageSize r * r.hdim * cfmtBytes r.cfmt

/-! ### Directories and page-table entries (R194, R195) -/

/-- The page table and the score array of a layer. (DEDUCED, log 72.) -/
def readDir (s : State) (r : SeqRec) (layer : Nat) : State × Except Status (Nat × Nat) :=
  if r.nlayer ≤ layer then (s, .error .badDescriptor)
  else
    let q := ctrlRead s (r.dir + 16 * layer) 16
    match q.2 with
    | .error e => (q.1, .error e)
    | .ok b =>
      (q.1, if leAt b 6 2 = 0 ∧ leAt b 14 2 = 0 then .ok (leAt b 0 6, leAt b 8 6) else .error .badDescriptor)

/-- A page-table entry with its address and its score's address. -/
structure PteAt where
  addr  : Nat
  score : Nat
  pte   : Pte
  deriving DecidableEq, Repr

def readPte (s : State) (r : SeqRec) (layer pti : Nat) : State × Except Status PteAt :=
  let d := readDir s r layer
  match d.2 with
  | .error e => (d.1, .error e)
  | .ok x =>
    let q := ctrlRead d.1 (x.1 + 8 * pti) 8
    match q.2 with
    | .error e => (q.1, .error e)
    | .ok b =>
      let p := pteOf (leAt b 0 8)
      (q.1, if p.resOk then .ok ⟨x.1 + 8 * pti, x.2 + 4 * pti, p⟩ else .error .badDescriptor)

def writePte (s : State) (a : Nat) (p : Pte) : State := (memWrite s a (leBytes 8 (pteVal p))).getD s

def emptyPte : Pte := ⟨0, 0, 0, false, false, 0, 0, true⟩

/-- EMPTY, TRANSIT and DROPPED of Table 9-3; plain and in HBM. -/
def isEmptyPte (p : Pte) : Bool := p.tier == 0 && p.state == 0
def inTransit (p : Pte) : Bool := p.state == 2
def plainResident (p : Pte) : Bool := resident p && p.form == 0

/-! ### Frames (R196, R203-R205) -/

/-- The pool exists, and the frame in it. -/
def frameOk (s : State) (pool f : Nat) : Bool := (poolAt s pool).valid && decide (pool < 16 ∧ f < (poolAt s pool).count)

def frameEntry (s : State) (pool f : Nat) : Nat := (poolAt s pool).ftab + 16 * f

/-- The upper half of bytes 0-7 of a frame entry: LINK, LIMBO, FREE. -/
def putLink (s : State) (pool f : Nat) (g : Nat → Nat) : State :=
  let a := frameEntry s pool f + 4
  (memWrite s a (leBytes 4 (g (leNat (peek s a 4))))).getD s

/-- DEDUCED, log 74. -/
def setLinkTo (n : Nat) (v : Nat) : Nat := v / 2 ^ 30 * 2 ^ 30 + n % 2 ^ 30
/-- Neither FREE nor LIMBO. -/
def setHeld (v : Nat) : Nat := v % 2 ^ 30
def setLimbo (v : Nat) : Nat := v % 2 ^ 30 + 2 ^ 30
def setFree (v : Nat) : Nat := v % 2 ^ 30 + 2 ^ 31

def modPoolK (s : State) (pool : Nat) (f : FramePool → FramePool) : State :=
  { s with kvc := { s.kvc with pools := s.kvc.pools.modify pool f } }

/-- What taking a frame finds (R191, R205, R445). -/
inductive Took where
  | wait                          -- the pool is being initialised
  | err (s : State) (st : Status)
  | ok (s : State) (f : Nat)

/-- A frame of `pool` for `need` bytes, with REF := 1: the head of the free list. (DEDUCED, log 74.) -/
def takeFrame (s : State) (pool need : Nat) : Took :=
  let p := poolAt s pool
  if !p.valid || frameBytes p < need then .err s .badDescriptor
  else if p.initBusy then .wait
  else
    match p.free with
    | [] =>
      let o := s.kvc.poolEmpty.getD pool 0#32
      .err (ctrSat (0x01000300 + 4 * pool) o (satAdd o 1)
        { s with kvc := { s.kvc with poolEmpty := s.kvc.poolEmpty.set pool (satAdd o 1) } }) .pageFault
    | f :: t =>
      let s1 := putLink (modPoolK s pool fun x => { x with free := t }) pool f setHeld
      .ok ((memWrite s1 (frameEntry s1 pool f) (leBytes 4 1)).getD s1) f

/-- A frame taken out of a list of its pool: the one before it links past it. -/
def linkPast (s : State) (pool f : Nat) (l : List Nat) : State :=
  let i := l.findIdx fun x => x == f
  if 0 < i && i < l.length then putLink s pool (l.getD (i - 1) 0) (setLinkTo (l.getD (i + 1) (Config.freeNat s.free))) else s

/-- A frame is on neither list (R205). (DEDUCED, log 74.) -/
def unlist (s : State) (pool f : Nat) : State :=
  let p := poolAt s pool
  if p.free.contains f || p.limbo.contains f then
    let s1 := putLink (linkPast (linkPast s pool f p.free) pool f p.limbo) pool f setHeld
    tick1 (modPoolK s1 pool fun x =>
      { x with free := x.free.filter fun y => !(y == f), limbo := x.limbo.filter fun y => !(y == f) })
  else s

/-- A frame left off both lists for good (R205). -/
def quarantine (s0 : State) (pool f : Nat) : State :=
  let s := unlist s0 pool f
  let o := s.kvc.refErr
  let s1 := ctrSat 0x01000340 o (satAdd o 1)
    { s with kvc := { s.kvc with refErr := satAdd o 1, quarantine := s.kvc.quarantine ++ [(pool, f)] } }
  alarm s1 2 (Config.argPack [pool, f])

/-- REF as a signed count. -/
def refCount (s : State) (pool f : Nat) : Int := signed 32 (leNat (peek s (frameEntry s pool f) 4))

/-- Memory-side fetch-add on REF (R196): the new count. An uncorrectable sector leaves it as it is and the frame is quarantined
(R402). -/
def refAdd (s : State) (pool f : Nat) (d : Int) : State × Except Status Int :=
  let a := frameEntry s pool f
  let r := memRead s a 4
  match r.2 with
  | .hole => (r.1, .error .badDescriptor)
  | .bad k _ => (ctrlPoison (quarantine r.1 pool f) k, .error .pagePoisoned)
  | .ok b =>
    let old := signed 32 (leNat b)
    let s1 := (memWrite r.1 a (leBytes 4 (toField 32 (old + d)))).getD r.1
    (if d < 0 && old ≤ 0 then quarantine s1 pool f else s1, .ok (old + d))

/-- REF has reached zero: one indivisible step puts the frame into limbo (R203). -/
def toLimbo (s : State) (pool f : Nat) : State :=
  if s.kvc.quarantine.contains (pool, f) then s
  else
    let s1 := (memWrite s (frameEntry s pool f + 8) (leBytes 8 s.kvc.epoch.toNat)).getD s
    let s2 := putLink s1 pool f setLimbo
    let s3 := match (poolAt s2 pool).limbo.getLast? with
      | some l => putLink s2 pool l (setLinkTo f)
      | none => s2
    let s4 := modPoolK s3 pool fun x => { x with limbo := x.limbo ++ [f] }
    { s4 with kvc := { s4.kvc with epoch := s4.kvc.epoch + 1 } }

/-- One holder of a frame lets it go (R203 steps 2 and 3). -/
def dropFrame (s : State) (pool f : Nat) : State × Option Status :=
  if !frameOk s pool f then (s, some .badDescriptor)
  else
    let r := refAdd s pool f (-1)
    match r.2 with
    | .error e => (r.1, some e)
    | .ok n => (if n = 0 then toLimbo r.1 pool f else r.1, none)

/-- KVC_OLDEST of a cluster (R204). (DESIGN CHOICE, log 75.) -/
def oldest (s : State) (c : Nat) : Nat :=
  (s.kvc.readers.filter fun r => r.cluster == c).foldl (fun a r => min a r.epoch) s.kvc.epoch.toNat

/-- FRAME_RECLAIM: the oldest frame of a pool's limbo list goes back to the free list once every KVC_OLDEST is above its STAMP
(R204). The manual does not say at which end it joins: a free value chooses. (DEDUCED, log 74; DESIGN CHOICE, log 75.) -/
def execFrameReclaim (pool : Nat) (s : State) : Host.Outcome State Fault Refusal :=
  if 16 ≤ pool then .refused (.noSuchUnit "frame pool")
  else
    match (poolAt s pool).limbo with
    | [] => .next s
    | f :: t =>
      let r := ctrlRead s (frameEntry s pool f) 16
      match r.2 with
      | .error _ => .next r.1
      | .ok b =>
        if (List.range 16).all fun c => decide (leAt b 8 8 < oldest s c) then
          let s1 := putLink (modPoolK r.1 pool fun x => { x with limbo := t }) pool f setFree
          let fr := (poolAt s1 pool).free
          if choose 2 s1.free = 0 then
            .next (tick1 (modPoolK (putLink s1 pool f (setLinkTo (fr.headD (Config.freeNat s1.free)))) pool
              fun x => { x with free := f :: x.free }))
          else
            let s2 := match fr.getLast? with
              | some l => putLink s1 pool l (setLinkTo f)
              | none => s1
            .next (tick1 (modPoolK (putLink s2 pool f (setLinkTo (Config.freeNat s1.free))) pool
              fun x => { x with free := x.free ++ [f] }))
        else .next s

/-! ### Pools (R445) -/

/-- KVC_POOL's fields from its three words. -/
def poolWords (w0 w1 w2 : Nat) : FramePool :=
  { valid := bit w0 63, base := bits w0 0 48, fsizeK := bits w2 48 16, count := bits w2 0 31, ftab := bits w1 0 48,
    initBusy := false, free := [], limbo := [], held := [] }

def framesEnd (p : FramePool) : Nat := p.base + p.count * frameBytes p

/-- The checks of R445 against the other valid pools. (DEDUCED, log 85.) -/
def framePoolOk (p : FramePool) (others : List FramePool) : Bool :=
  decide (8 ≤ p.fsizeK ∧ p.fsizeK ≤ 8192 ∧ 1 ≤ p.count ∧ p.count ≤ 2 ^ 30) && p.base % 4096 == 0 && p.ftab % 32 == 0
    && decide (framesEnd p ≤ hbmEnd)
    && (others.all fun q => decide (framesEnd p ≤ q.base ∨ framesEnd q ≤ p.base))
    && (inHbm p.ftab (16 * p.count) || inSram p.ftab (16 * p.count))
    && ((p :: others).all fun q => decide (p.ftab + 16 * p.count ≤ q.base ∨ framesEnd q ≤ p.ftab))

/-- A write of a word of KVC_POOL: words 1 and 2 are held, word 0 commits (R440, R445). (DEDUCED, log 85.) -/
def opKvcPool (pool word : Nat) (value : Dword) (s : State) : State :=
  if s.hif.lock then s
  else if word ≠ 0 then
    modPoolK s pool fun x => { x with held := assocPut x.held word value }
  else
    let old := poolAt s pool
    let w (i cur : Nat) : Nat := ((assocGet old.held i).map BitVec.toNat).getD cur
    let p := poolWords value.toNat (w 1 old.ftab) (w 2 (old.count + old.fsizeK * 2 ^ 48))
    if !p.valid then modPoolK s pool fun _ => p
    else
      let others := ((s.kvc.pools.eraseIdx pool).filter fun q => q.valid)
      if framePoolOk p others then
        { s with kvc := { s.kvc with pools := s.kvc.pools.set pool { p with initBusy := true }
                                     quarantine := s.kvc.quarantine.filter fun q => !(q.1 == pool) } }
      else { s with kvc := { s.kvc with poolErr := true, pools := s.kvc.pools.modify pool fun x => { x with held := [] } } }

/-- KVC_POOL. -/
def execKvcPool (_req : Requester) (pool : Nat) (word : Nat) (value : Dword) (s : State) :
    Host.Outcome State Fault Refusal :=
  if 16 ≤ pool then .refused (.noSuchUnit "frame pool")
  else if 2 < word then .refused (.noSuchUnit "word of KVC_POOL")
  else whenUp s (opKvcPool pool word value s)

/-- The frame table's entries: REF 0, FREE, LINK to the next frame (R445). (DEDUCED, log 74.) -/
def initTable (s : State) (pool : Nat) : Nat → State
  | 0 => s
  | n + 1 =>
    let s1 := initTable s pool n
    let p := poolAt s1 pool
    let link := if n + 1 < p.count then n + 1 else Config.freeNat s1.free
    (memWrite s1 (frameEntry s1 pool n) (leBytes 4 0 ++ leBytes 4 (setFree (link % 2 ^ 30)) ++ leBytes 8 0)).getD s1

/-- POOL_INIT_DONE: the table is written, every frame is free. (DEDUCED, log 85.) -/
def execPoolInitDone (pool : Nat) (s : State) : Host.Outcome State Fault Refusal :=
  if 16 ≤ pool then .refused (.noSuchUnit "frame pool")
  else if (poolAt s pool).initBusy then
    .next (modPoolK (tick1 (initTable s pool (poolAt s pool).count)) pool fun x =>
      { x with initBusy := false, free := List.range x.count, limbo := [] })
  else .next s

/-! ### Curve tables (R208) -/

/-- FP32 that is neither negative, infinite nor NaN. -/
def curveNum (c : Nat) : Bool := c < 0x7F800000 || c == 0x80000000

/-- A committed table's checks (R208). -/
def curveOk (b : Bytes) : Bool :=
  curveNum (leAt b 0 4) && curveNum (leAt b 4 4) && allZero (sub b 12 20)
    && (List.range 64).all fun i => curveNum (leAt b (32 + 4 * i) 4)

/-- One table read into the scorer; a refused one leaves the previous copy (R208). -/
def commitCurve (s : State) (n : Nat) : State :=
  let r := memRead s (s.kvc.curveBase + 288 * n) 288
  let refuse (t : State) : State := { t with kvc := { t.kvc with curveStatus := t.kvc.curveStatus ||| (1#16 <<< n) } }
  match r.2 with
  | .ok b => if curveOk b then { r.1 with kvc := { r.1.kvc with curves := r.1.kvc.curves.set n b } } else refuse r.1
  | .bad k _ => refuse (ctrlPoison r.1 k)
  | .hole => refuse r.1

/-- KVC_CURVE_COMMIT: each bit set commits its table. -/
def opCurveCommit (value : Word) (s : State) : State := ((List.range 16).filter fun n => value.getLsbD n).foldl commitCurve s

def execKvcCurveCommit (value : Word) (s : State) : Host.Outcome State Fault Refusal := whenUp s (opCurveCommit value s)

/-- FP32 fields of the scorer's copy of a table. -/
def curveAt (s : State) (n off : Nat) : Nat := leAt (s.kvc.curves.getD n []) off 4

end Sys2Proof.Machine
end

