-- ==== Sys2Proof/Machine/Packets.lean ====
section
/-! DEFINITION. Packets as the module's endpoints hand them to a die's router (R292, R294), and where routes lead. -/

namespace Sys2Proof.Machine

/-- The virtual channel of a kind (Table 13-7); none for a reserved kind. -/
def kindVc (k : Nat) : Option Nat :=
  match k with
  | 0x01 => some 2 | 0x02 => some 3 | 0x10 => some 0 | 0x11 => some 1 | 0x12 => some 3 | 0x20 => some 0 | 0x21 => some 1
  | 0x30 => some 3 | 0x31 => some 3 | _ => none

/-- A packet of this module (Table 13-6): the payload padded to a multiple of 32. -/
def newPacket (s : State) (kind dst : Nat) (tag : Word) (kw payload : Bytes) : Packet :=
  { kind := kind, vc := (kindVc kind).getD 0, dl := false, dst := dst, src := s.fab.addr, hops := 64,
    len := roundUp payload.length 32, tag32 := tag, kw := padTo 16 kw, payload := padTo (roundUp payload.length 32) payload,
    reservedClear := true }

/-- A packet waits at a die's router. (DESIGN CHOICE, log 111.) -/
def sendPacket (s : State) (die : Nat) (p : Packet) : State :=
  { s with fab := { s.fab with rxq := s.fab.rxq.modify die fun q => q ++ [(p, none)] } }

/-- Bytes sent in packets of at most 4,096; `kw` gives piece `i` its kind words. -/
def sendPieces (die kind dst : Nat) (tag : Word) (kw : Nat → Bytes) : Nat → Nat → Bytes → State → State
  | 0, _, _, s => s
  | n + 1, i, b, s =>
    let s1 := sendPacket s die (newPacket s kind dst tag (kw i) (b.take 4096))
    if b.length ≤ 4096 then s1 else sendPieces die kind dst tag kw n (i + 1) (b.drop 4096) s1

/-- All of a payload sent. -/
def sendBytes (s : State) (die kind dst : Nat) (tag : Word) (kw : Nat → Bytes) (b : Bytes) : State :=
  sendPieces die kind dst tag kw (b.length / 4096 + 1) 0 b s

/-! ### Routes (R294, Table 13-8) -/

/-- The routing-table entry for a destination, with its table (0 local, 1 region) and index. -/
def routeOf (s : State) (dst : Nat) : Word × Nat × Nat :=
  if dst / 256 = s.fab.addr / 256 then (s.fab.local_.getD (dst % 256) 0#32, 0, dst % 256)
  else (s.fab.region.getD (dst / 256) 0#32, 1, dst / 256)

/-- A port has an ACTIVE link. -/
def portLinks (s : State) (p : Nat) : List Nat :=
  ((List.range 4).map fun k => 4 * p + k).filter fun l => (linkAt s l).phase == .active

/-- The ports that lead to a destination: those of its entry's mask, when the entry is valid. -/
def routePorts (s : State) (dst : Nat) : List Nat :=
  let e := (routeOf s dst).1
  if s.fab.assigned && e.getLsbD 31 then (List.range 16).filter fun p => e.getLsbD p else []

/-- Lanes of ACTIVE links toward a destination. -/
def routeLanes (s : State) (dst : Nat) : Nat :=
  (((routePorts s dst).map (portLinks s)).flatten.map fun l => (linkAt s l).lanesUp).sum

end Sys2Proof.Machine
end

