-- ==== Sys2Proof/Machine/Counter.lean ====
section
/-! DEFINITION. The work counter of a cluster: CLAIM, COMMIT and RESET (R136, R137, R140). -/

namespace Sys2Proof.Machine

def modWc (s : State) (c : Nat) (f : WorkCtr → WorkCtr) : State := modCluster s c fun x => { x with wc := f x.wc }
def wcOf (s : State) (c : Nat) : WorkCtr := (clusterAt s c).wc

/-- A CLAIM at the counter (Table 6-4): NEXT saturates, and BASE + NEXT never wraps. -/
def claimOp (w : WorkCtr) : WorkCtr × Claimed :=
  if w.limit.toNat ≤ w.next.toNat || 0xFFFFFFFF < w.base.toNat + w.next.toNat then (w, .noWork)
  else ({ w with next := satAdd w.next 1 }, .got w.epoch (w.base + w.next))

/-- A COMMIT at the counter (Table 6-4): accepted in the current epoch, else counted as stale. -/
def commitOp (s : State) (c : Nat) (e : Byte) : State × Bool :=
  let w := wcOf s c
  if e == w.epoch then (modWc s c fun x => { x with committed := x.committed + 1 }, true)
  else
    (ctrSat (0x02800028 + 0x1000 * c) w.stale (satAdd w.stale 1) (modWc s c fun x => { x with stale := satAdd x.stale 1 }),
      false)

/-- A RESET's effect (Table 6-4). -/
def resetOp (w : WorkCtr) (base limit : Word) : WorkCtr :=
  { w with epoch := w.epoch + 1, base := base, limit := limit, next := 0#32, committed := 0#32 }

/-- A RESET whose command, if any, completes with OK. -/
def applyReset (s : State) (c : Nat) (base limit : Word) (cmd : Option (Nat × HostHdr)) : State :=
  let s1 := modWc s c fun w => resetOp w base limit
  match cmd with
  | some k => finishCmd s1 k .ok
  | none => s1

/-- A RESET reaches the counter: at once where every accepted commit has landed and nothing waits, else it waits (R137). -/
def wcReset (s : State) (c : Nat) (base limit : Word) (cmd : Option (Nat × HostHdr)) : State :=
  let w := wcOf s c
  if w.landing.isEmpty && w.waiting.isEmpty then applyReset s c base limit cmd
  else modWc s c fun x => { x with waiting := x.waiting ++ [.reset base limit cmd] }

/-- The cluster lies in CLUSTERS of a graph another function loaded (R377). -/
def foreignCluster (s : State) (fn c : Nat) : Bool :=
  s.graphs.any fun sl => match sl.graph with
    | some g => g.clusters.getLsbD c && g.fn != fn
    | none => false

/-- DESIGN CHOICE, log 60. -/
def opWcReset (h : HostHdr) (cluster : Nat) (base limit : Word) (s : State) : State :=
  if 16 ≤ cluster || foreignCluster s h.fn cluster then complete s h .badDescriptor 0
  else
    let q := startCmd s h 0x11
    wcReset q.1 cluster base limit (some (q.2, h))

/-- WC_RESET (R140). -/
def execWcReset (h : HostHdr) (cluster : Nat) (base limit : Word) (s : State) : Host.Outcome State Fault Refusal :=
  hostCmd s h .graph false (opWcReset h cluster base limit)

/-- CLU_WC_RESET: base in the low half, limit in the high half; each write is one RESET (Table 21-13). -/
def opCluWcReset (cluster : Nat) (value : Dword) (s : State) : State :=
  wcReset s cluster (value.setWidth 32) ((value >>> 32).setWidth 32) none

def execCluWcReset (cluster : Nat) (value : Dword) (s : State) : Host.Outcome State Fault Refusal :=
  onUnit cluster 16 "cluster" (opCluWcReset cluster value s)

/-- A claim of a core: the answer is the core's (R136); behind a waiting RESET it waits (R137). -/
def coreClaim (s : State) (core : Nat) : State :=
  let r := claimOp (wcOf s (core / 16))
  modCore (modWc s (core / 16) fun _ => r.1) core fun x => { x with claimed := r.2 }

/-- CLAIM. -/
def execClaim (core : Nat) (s : State) : Host.Outcome State Fault Refusal :=
  onUnit core 256 "core" <|
    if (wcOf s (core / 16)).waiting.isEmpty then coreClaim s core
    else modWc s (core / 16) fun x => { x with waiting := x.waiting ++ [.claim core] }

end Sys2Proof.Machine
end

