-- ==== Sys2Proof/Machine/Streams.lean ====
section
/-! DEFINITION. The LOAD and STORE streams (chapter 7): descriptors, geometries, ring slots, faults, and the commands that run
them. -/

namespace Sys2Proof.Machine

/-! ### The descriptor and its geometries (Tables 7-1, 7-2) -/

/-- A geometry of 64 bytes. -/
def geomOf (b : Bytes) : Geom :=
  let w (i : Nat) : Nat := leAt b (8 * i) 8
  let nd := bits (w 0) 50 3
  { base := bits (w 0) 0 48, space := bits (w 0) 48 2, ndim := nd, tl := bits (w 0) 53 3, idx := bit (w 0) 56,
    c0 := bits (w 1) 0 24, counts := [bits (w 1) 24 24, bits (w 2) 0 24, bits (w 2) 24 24, bits (w 3) 0 24],
    strides := (List.range 4).map fun i => signed 40 (bits (w (4 + i)) 0 40),
    resOk := bits (w 0) 57 7 == 0 && bits (w 1) 48 16 == 0 && bits (w 2) 48 16 == 0 && bits (w 3) 24 40 == 0
      && (List.range 4).all (fun i => bits (w (4 + i)) 40 24 == 0)
      && (nd ≥ 2 || bits (w 1) 24 24 == 0) && (nd ≥ 3 || bits (w 2) 0 24 == 0) && (nd ≥ 4 || bits (w 2) 24 24 == 0)
      && (nd ≥ 5 || bits (w 3) 0 24 == 0) && (List.range 4).all fun i => i + 1 < nd || bits (w (4 + i)) 0 40 == 0 }

/-- A work descriptor of 128 bytes; `load`: the LOAD side. (R141) -/
def streamDescOf (load : Bool) (b : Bytes) : StreamDesc :=
  let fl := leAt b 64 2
  let h := leAt b 112 8
  { geom := geomOf b, isLoad := load, notify := bit fl 0, claim := bit fl 1, rearm := bit fl 2, curd := bits fl 3 2, fence := bit fl 5,
    dyn := bit fl 6, idxW := bit fl 7, comp := bit fl 8, port := byteAt b 66 % 8, ahead := byteAt b 67 % 16,
    slotBase := 32 * bits (leAt b 68 2) 0 14, slotN := byteAt b 70 % 32, ishift := byteAt b 71 % 64,
    slotBytes := leAt b 72 3, cslotBytes := leAt b 75 3, dint := leAt b 80 4, outerMax := leAt b 84 3,
    shape := bits (leAt b 88 8) 0 48, idxGeom := bits (leAt b 96 8) 0 48, compGeom := bits (leAt b 104 8) 0 48,
    tag := BitVec.ofNat 16 h, pred := bits h 16 4, push := bit h 20, pushPort := bits h 21 3, pushBytes := bits h 24 24,
    resOk := bits fl 9 7 == 0 && byteAt b 66 / 8 == 0 && byteAt b 67 / 16 == 0 && leAt b 68 2 / 2 ^ 14 == 0
      && byteAt b 70 / 32 == 0 && byteAt b 71 / 64 == 0 && leAt b 78 2 == 0 && byteAt b 87 == 0
      && leAt b 88 8 / 2 ^ 48 == 0 && leAt b 96 8 / 2 ^ 48 == 0 && leAt b 104 8 / 2 ^ 48 == 0 && bits h 48 16 == 0
      && leAt b 120 8 == 0
      && (if load then bits h 20 28 == 0
          else leAt b 68 2 == 0 && byteAt b 70 == 0 && leAt b 72 3 == 0 && leAt b 75 3 == 0 && bits fl 3 2 == 0) }

/-- A geometry's counts C1 … C(NDIM−1) with the outermost one in force (R145). -/
def countsOf (g : Geom) (outer : Nat) : List Nat :=
  if g.ndim < 2 then [] else (g.counts.take (g.ndim - 1)).set (g.ndim - 2) outer

/-- Bytes of a tile (R143). -/
def tileBytes (g : Geom) (outer : Nat) : Nat := ((countsOf g outer).take (g.tl - 1)).foldl (fun a b => a * b) g.c0

/-- Tiles of the geometry (R143). -/
def tileCount (g : Geom) (outer : Nat) : Nat := ((countsOf g outer).drop (g.tl - 1)).foldl (fun a b => a * b) 1

/-- Tiles of one outermost position (R158). -/
def tilesPerOuter (g : Geom) : Nat := (((countsOf g 1).drop (g.tl - 1)).foldl (fun a b => a * b) 1)

/-- Indices of number `n` over counts, the first fastest. -/
def unravel : List Nat → Nat → List Nat
  | [], _ => []
  | k :: t, n => (n % k) :: unravel t (n / k)

/-- The index vectors of the runs of tile `t`, in slot order: dimension 1 fastest (R143). -/
def runIndices (g : Geom) (outer t : Nat) : List (List Nat) :=
  let ks := countsOf g outer
  let inner := ks.take (g.tl - 1)
  (List.range (inner.foldl (fun a b => a * b) 1)).map fun r => unravel inner r ++ unravel (ks.drop (g.tl - 1)) t

/-- The stride part of a run's address; the outermost term is left out when an index stream gives it (R143). -/
def strideSum (g : Geom) (ix : List Nat) : Int :=
  let n := if g.idx then ix.length - 1 else ix.length
  ((ix.zip g.strides).take n).foldl (fun a p => a + (p.1 : Int) * p.2) 0

/-- An address as a number; below zero there is only a hole. -/
def addrOf (i : Int) : Nat := if i < 0 then 2 ^ 60 else i.toNat

/-- Checks of R144 and R142 on any data geometry. -/
def geomOk (g : Geom) (idxW : Bool) : Bool :=
  g.resOk && g.space < 3 && decide (1 ≤ g.ndim ∧ g.ndim ≤ 5 ∧ 1 ≤ g.tl ∧ g.tl ≤ g.ndim ∧ 32 ≤ g.c0) && g.c0 % 32 == 0
    && (g.counts.take (g.ndim - 2)).all (fun n => n != 0)
    && (g.space == 1 || (g.base % 32 == 0 && g.strides.all fun x => x % 32 == 0))
    && !(g.space == 2 && !(g.idx && idxW)) && !(g.ndim == 1 && g.idx)

/-- Bytes of a companion tile of LOAD: the companion geometry's, or the scales of MXFP4 (R169). -/
def compBytes (d : StreamDesc) (comp : Option Geom) (outerC : Nat) : Nat :=
  match comp with
  | some g => tileBytes g outerC
  | none => if d.curd == 2 then roundUp (d.geom.c0 / 16) 32 else 0

/-- A second handle travels on PORT + 1. -/
def hasComp (d : StreamDesc) : Bool := d.comp || d.curd == 2

def rangesMeet (a n b m : Nat) : Bool := decide (a < b + m ∧ b < a + n)

/-- The slots of a Churn ring on core `x` as a range of its slot area (Table 11-1). -/
def churnRings (s : State) (x : Nat) : List (Nat × Nat) :=
  (s.chn.map fun c => match c.ring with
    | none => []
    | some r =>
      if c.state = 0 then []
      else (if r.eCore = x then [(r.eSlot, r.slotN * r.slotBytes)] else [])
        ++ (if r.wCore = x then [(r.wSlot, r.slotN * r.slotBytes)] else [])).flatten

/-- The ring fits the slot area and meets no Churn ring (R144). -/
def ringOk (s : State) (x : Nat) (d : StreamDesc) : Bool :=
  let n := d.slotN * (d.slotBytes + d.cslotBytes)
  d.slotBase + n ≤ 0x80000 && !((churnRings s x).any fun r => rangesMeet d.slotBase n r.1 r.2)

/-- The checks of R144, R148 and R169 that need the descriptor alone. -/
def streamDescOk (load : Bool) (d : StreamDesc) : Bool :=
  d.resOk && geomOk d.geom d.idxW && d.curd != 3 && d.outerMax != 0
    && !(d.claim && d.geom.tl == d.geom.ndim) && !((d.comp || d.curd == 2) && d.port == 7)
    && !(d.geom.ndim == 1 && d.dyn) && !(d.push && d.pushBytes == 0)
    && (d.curd == 0 || (load && !d.comp && d.geom.space != 1 && d.geom.idx && d.geom.ndim == 2 && d.geom.tl == 1))
    && (!load || (decide (2 ≤ d.ahead ∧ d.ahead ≤ 8 ∧ d.ahead ≤ d.slotN ∧ d.slotN ≤ 16) && d.slotBytes % 32 == 0
          && d.cslotBytes % 32 == 0 && (hasComp d || d.cslotBytes == 0)))

/-- The checks of R147 on a companion. -/
def companionOk (d : StreamDesc) (g : Geom) : Bool :=
  geomOk g d.idxW && !(g.idx && (!d.geom.idx || g.space != d.geom.space))
    && !(d.dyn && (g.ndim < 2 || d.geom.ndim < 2))

/-- A decoded descriptor with what it reads. -/
structure StreamPlan where
  d     : StreamDesc
  comp  : Option Geom
  idx   : Option Geom
  outer : Nat
  outerC : Nat
  deriving DecidableEq, Repr

/-- A control word at an address, read by the rules of R402 and R308. -/
def readCtl {α : Type} (s : State) (a n : Nat) (f : Bytes → Except Status α) : State × Except Status α :=
  let r := ctrlRead s a n
  match r.2 with
  | .error e => (r.1, .error e)
  | .ok b => (r.1, f b)

/-- A geometry the descriptor names, where it names one. -/
def readGeom (s : State) (want : Bool) (a : Nat) (ok : Geom → Bool) : State × Except Status (Option Geom) :=
  if want then readCtl s a 64 fun b => if ok (geomOf b) then .ok (some (geomOf b)) else .error .badDescriptor
  else (s, .ok none)

/-- The index geometry's own form (R144, R146). -/
def idxGeomOk (g : Geom) : Bool :=
  g.resOk && g.ndim == 1 && g.tl == 1 && !g.idx && g.space < 2 && decide (32 ≤ g.c0) && g.c0 % 32 == 0
    && (g.space == 1 || g.base % 32 == 0)

/-- The shape word's outermost count (R145). -/
def readShape (s : State) (d : StreamDesc) : State × Except Status (Option Nat) :=
  if d.dyn then
    readCtl s d.shape 8 fun b => if leAt b 3 5 = 0 then .ok (some (leAt b 0 3)) else .error .badDescriptor
  else (s, .ok none)

/-- The outermost count of a geometry's own fields (R145). -/
def ownOuter (g : Geom) : Nat := if g.ndim < 2 then 1 else g.counts.getD (g.ndim - 2) 0

/-- A geometry whose tiles lie inside its outermost dimension has tiles of at most `n` bytes, whatever the outermost count. -/
def innerFits (g : Geom) (n : Nat) : Bool := g.tl == g.ndim || decide (tileBytes g 1 ≤ n)

/-- What a descriptor and its geometries owe whatever the outermost count: tiles inside the outermost dimension fit their slots
(R144), and with DYN = 1 the tile counts inside the outermost dimension agree (R147). -/
def innerOk (load : Bool) (d : StreamDesc) (comp : Option Geom) : Bool :=
  (!load || (innerFits d.geom d.slotBytes && match comp with
    | some g => innerFits g d.cslotBytes
    | none => true))
    && (!d.dyn || match comp with
      | some g => tilesPerOuter g == tilesPerOuter d.geom
      | none => true)

/-- Decoding of the current descriptor: its checks, its geometries and its outermost count (R144-R147). What does not depend on the
outermost count is judged before it is known, then OUTER_MAX, then the rest. (DEDUCED, log 157.) -/
def decodeStream (s : State) (load : Bool) (x a : Nat) : State × Except Status StreamPlan :=
  let r := readCtl s a 128 fun b => .ok (streamDescOf load b)
  match r.2 with
  | .error e => (r.1, .error e)
  | .ok d =>
    if !streamDescOk load d || (load && !ringOk r.1 x d) then (r.1, .error .badDescriptor)
    else
      let ri := readGeom r.1 d.geom.idx d.idxGeom idxGeomOk
      match ri.2 with
      | .error e => (ri.1, .error e)
      | .ok idx =>
        let rc := readGeom ri.1 d.comp d.compGeom (companionOk d)
        match rc.2 with
        | .error e => (rc.1, .error e)
        | .ok comp =>
          let rs := if innerOk load d comp then readShape rc.1 d else (rc.1, .error .badDescriptor)
          match rs.2 with
          | .error e => (rs.1, .error e)
          | .ok shape =>
            let outer := shape.getD (ownOuter d.geom)
            let outerC := match comp with
              | some g => shape.getD (ownOuter g)
              | none => outer
            let width := if d.idxW then 8 else 4
            if outer > d.outerMax then (rs.1, .error .shapeOver)
            else if (match idx with
                | some g => decide (g.c0 < outer * width)
                | none => false) then (rs.1, .error .badDescriptor)
            else if (match comp with
                | some g => !(d.dyn && outer == 0) && tileCount g outerC != tileCount d.geom outer
                | none => false) then (rs.1, .error .badDescriptor)
            else if load && decide (d.slotBytes < tileBytes d.geom outer ∨ d.cslotBytes < compBytes d comp outerC) then
              (rs.1, .error .badDescriptor)
            else (rs.1, .ok ⟨d, comp, idx, outer, outerC⟩)

/-! ### Addresses of a tile and their faults (R143, R146, R160, R308) -/

/-- What stops a tile. -/
structure TileStop where
  ends  : Status
  cause : Status
  space : Nat
  addr  : Nat
  deriving DecidableEq, Repr

/-- A hole under AS 0 (R308). The fault register's ADDR is stated for AS 1 and AS 2 only: it is free here. -/
def holeStop (s : State) (space : Nat) : TileStop :=
  ⟨.badDescriptor, .badDescriptor, space, Config.freeNat s.free % 2 ^ 48⟩

/-- A page fault (R160). (DEDUCED, log 67.) -/
def pageStop (space addr : Nat) : TileStop := ⟨.partialStop, .pageFault, space, addr⟩

/-- The first absent page of a host range, as an address. -/
def absentAt (s : State) (a n : Nat) : Option Nat :=
  (List.range ((a % 4096 + n + 4095) / 4096)).findSome? fun i =>
    if s.hostAbsent.contains (a / 4096 + i) then some (if i = 0 then a else (a / 4096 + i) * 4096) else none

/-- Where the bytes of an address lie: an alias address names its target. -/
def realAt (a : Nat) : Nat := if isAlias a then aliasTarget a else a

/-- Bytes of bad sectors are unspecified (R159). (DESIGN CHOICE, log 66.) -/
def blur (s : State) (a : Nat) (b : Bytes) : Bytes :=
  (numbered b 0).map fun p => if isBad s (directD (a + p.1) / 32) then Config.freeByte s.free p.1 else p.2

/-- Transfers of a range, one for each 256-byte-aligned block it touches (R152), that meet an uncorrectable sector.
(DESIGN CHOICE, log 66.) -/
def badTransfers (s : State) (a n : Nat) : Nat :=
  (List.range ((a % 256 + n + 255) / 256)).countP fun i =>
    let lo := max a (a - a % 256 + 256 * i)
    (sectorsOf lo (min (a + n) (a - a % 256 + 256 * (i + 1)) - lo)).any (isBad s)

/-- One run read: its bytes and the transfers of it that met an uncorrectable sector. -/
def readRun (s : State) (core space a n : Nat) : State × Except TileStop (Bytes × Nat) :=
  if space = 1 then
    match absentAt s a n with
    | some p => (s, .error (pageStop 1 p))
    | none => (s, .ok (hostPeek s a n, 0))
  else
    let r := memRead s a n
    match r.2 with
    | .hole => (tick1 r.1, .error (holeStop r.1 space))
    | .bad _ d => (tick1 (dlMem r.1 core (realAt a) n false), .ok (blur r.1 a d, badTransfers r.1 a n))
    | .ok d => (dlMem r.1 core (realAt a) n false, .ok (d, 0))

/-- Index `j` of the index stream with its address (R146). An uncorrectable sector ends the descriptor with PAGE_POISONED.
(DESIGN CHOICE, log 64.) -/
def readIndex (s : State) (core : Nat) (d : StreamDesc) (g : Geom) (j : Nat) : State × Except TileStop (Nat × Nat) :=
  let w := if d.idxW then 8 else 4
  let a := g.base + w * j
  if g.c0 < w * (j + 1) then (tick1 s, .error (holeStop s g.space))
  else if g.space = 1 then
    match absentAt s a w with
    | some p => (s, .error (pageStop 1 p))
    | none => (s, .ok (leNat (hostPeek s a w), a))
  else
    let r := memRead s a w
    match r.2 with
    | .hole => (tick1 r.1, .error (holeStop r.1 0))
    | .bad k _ => (ctrlPoison (dlMem r.1 core a w false) k, .error ⟨.pagePoisoned, .ok, 0, 0⟩)
    | .ok b => (dlMem r.1 core a w false, .ok (leNat b, a))

/-- The run base that an index gives a geometry (R146, R147, R195). LOAD alone is held to the entry's FORM. -/
def runBase (s : State) (d : StreamDesc) (g : Geom) (v a : Nat) : Except TileStop Nat :=
  if g.space = 2 then
    let p := pteOf v
    if !p.resOk then .error ⟨.badDescriptor, .badDescriptor, 2, a⟩
    else if !resident p then .error (pageStop 2 a)
    else if !(poolAt s p.pool).valid || (d.isLoad && p.form != d.curd) then .error ⟨.badDescriptor, .badDescriptor, 2, a⟩
    else .ok (frameAddr s p.pool p.loc + g.base)
  else .ok (g.base + v * 2 ^ d.ishift)

/-- The addresses of the runs of tile `t` of one geometry; `idx` is the descriptor's index geometry. -/
def runAddrs (s : State) (core : Nat) (d : StreamDesc) (idx : Option Geom) (g : Geom) :
    List (List Nat) → State × Except TileStop (List Nat)
  | [] => (s, .ok [])
  | ix :: t =>
    let rest := runAddrs s core d idx g t
    match rest.2 with
    | .error e => (rest.1, .error e)
    | .ok as =>
      match g.idx, idx with
      | true, some ig =>
        let r := readIndex rest.1 core d ig (ix.getLastD 0)
        match r.2 with
        | .error e => (r.1, .error e)
        | .ok v =>
          match runBase r.1 d g v.1 v.2 with
          | .error e => (r.1, .error e)
          | .ok b => (r.1, .ok (addrOf (b + strideSum g ix) :: as))
      | _, _ => (rest.1, .ok (addrOf (g.base + strideSum g ix) :: as))

/-- ADDR of Table 7-4 for a stop that no transfer has met, at the run of indices `ix`: its IOVA under AS 1, the address of its
page-table entry under AS 2; free under AS 0, for which the table states none. (DESIGN CHOICE, log 64.) -/
def stopAddr (s : State) (core : Nat) (d : StreamDesc) (idx : Option Geom) (g : Geom) (ix : List Nat) : Nat :=
  let free := Config.freeNat s.free % 2 ^ 48
  if g.space = 1 then
    match (runAddrs s core d idx g [ix]).2 with
    | .ok (a :: _) => a % 2 ^ 48
    | _ => free
  else if g.space = 2 then
    match idx with
    | some ig => (ig.base + (if d.idxW then 8 else 4) * ix.getLastD 0) % 2 ^ 48
    | none => free
  else free

/-- A stop of a run reached through a page-table entry shows the entry's address (Table 7-4). -/
def atEntry (s : State) (core : Nat) (d : StreamDesc) (idx : Option Geom) (g : Geom) (outer pos : Nat) (e : TileStop) : TileStop :=
  if g.space = 2 then { e with addr := stopAddr s core d idx g ((runIndices g outer pos).headD []) } else e

/-- The runs of a tile read in order: its bytes, and its transfers that met an uncorrectable sector. -/
def readRuns (s : State) (core space n : Nat) : List Nat → State × Except TileStop (Bytes × Nat)
  | [] => (s, .ok ([], 0))
  | a :: t =>
    let r := readRun s core space a n
    match r.2 with
    | .error e => (r.1, .error e)
    | .ok x =>
      let q := readRuns r.1 core space n t
      match q.2 with
      | .error e => (q.1, .error e)
      | .ok y => (q.1, .ok (x.1 ++ y.1, x.2 + y.2))

/-- A plain tile read whole. -/
def readTile (s : State) (core : Nat) (d : StreamDesc) (idx : Option Geom) (g : Geom) (outer pos : Nat) :
    State × Except TileStop (Bytes × Nat) :=
  let r := runAddrs s core d idx g (runIndices g outer pos)
  match r.2 with
  | .error e => (r.1, .error e)
  | .ok as =>
    let q := readRuns r.1 core g.space g.c0 as
    (q.1, q.2.mapError (atEntry q.1 core d idx g outer pos))

/-- A Curd object read and decompressed (R169): bytes for PORT, for PORT + 1, and the transfers that poison the tile. An object
that fails its own check counts as one, as in R159. (DESIGN CHOICE, log 66.) -/
def readCurd (s : State) (core : Nat) (d : StreamDesc) (idx : Option Geom) (outer pos : Nat) :
    State × Except TileStop (Bytes × Bytes × Nat) :=
  let g := d.geom
  let r := runAddrs s core d idx g (runIndices g outer pos)
  match r.2 with
  | .error e => (r.1, .error e)
  | .ok as =>
    let a := as.headD (2 ^ 60)
    let free (t : State) (n off : Nat) : Bytes := (List.range n).map fun i => Config.freeByte t.free (off + i)
    let lost (t : State) (k : Nat) : State × Except TileStop (Bytes × Bytes × Nat) :=
      (tick1 t, .ok (free t g.c0 0, if d.curd == 2 then free t (g.c0 / 16) g.c0 else [], max 1 k))
    let stop (t : State) : State × Except TileStop (Bytes × Bytes × Nat) :=
      (tick1 t, .error (atEntry t core d idx g outer pos { holeStop t g.space with space := g.space }))
    let rh := memRead r.1 a 32
    match rh.2 with
    | .hole => stop rh.1
    | .bad _ _ => lost (dlMem rh.1 core a 32 false) (badTransfers rh.1 a 32)
    | .ok hb =>
      let h := curdHdr hb
      if h.variant ≠ d.curd ∨ h.outBytes ≠ g.c0 then stop rh.1
      else if h.objBytes < 32 then lost rh.1 1
      else
        let ro := memRead rh.1 (a + 32) (h.objBytes - 32)
        match ro.2 with
        | .hole => stop ro.1
        | .bad _ _ => lost (dlMem ro.1 core a h.objBytes false) (badTransfers ro.1 a h.objBytes)
        | .ok body =>
          match curdDecode d.curd g.c0 (hb ++ body) with
          | .ok m sc => (dlMem ro.1 core a h.objBytes false, .ok (m, sc, 0))
          | _ => lost (dlMem ro.1 core a h.objBytes false) 1

/-! ### Halts and the poison counter (R159, R160) -/

/-- A stream halts with its saved position (R160, R164). -/
def streamHalt (s : State) (b : Bound) (f : StreamFault) (seq : Half) : State := settle (faultHalt s b f seq) b.slot

/-- CLU_SU_POISON of a core (R159, R462). -/
def suPoison (s : State) (x : Nat) : State :=
  let o := (coreAt s x).suPoison
  ctrSat (0x02900004 + 0x100 * x) o (satAdd o 1) (modCore s x fun c => { c with suPoison := satAdd c.suPoison 1 })

/-- CLU_SU_POISON increases once for each of `n` transfers (R159). -/
def suPoisons (s : State) (x n : Nat) : State := (List.range n).foldl (fun t _ => suPoison t x) s

/-! ### Runs and positions -/

/-- Tiles of a STORE's run, or of a LOAD's that claims nothing: under COMMIT those of one position (R138). -/
def runTiles (d : StreamDesc) (x : Stream) : Nat := if d.claim then tilesPerOuter d.geom else tileCount d.geom x.outer

/-- The geometry tile of a STORE's run tile `k`. -/
def tilePos (d : StreamDesc) (x : Stream) (k : Nat) : Nat :=
  match x.claimPos with
  | some i => i * tilesPerOuter d.geom + k
  | none => k

/-- Tiles a LOAD may issue: all of its run, or those of the positions claimed so far (R158). -/
def loadTiles (d : StreamDesc) (x : Stream) : Nat :=
  if d.claim then (match x.claims.getLast? with
    | some r => r.1 + tilesPerOuter d.geom
    | none => x.fill)
  else tileCount d.geom x.outer

/-- The geometry tile of a LOAD's tile `k`, counted from the descriptor's start (R158). -/
def loadPos (d : StreamDesc) (x : Stream) (k : Nat) : Nat :=
  match (x.claims.filter fun r => r.1 ≤ k).getLast? with
  | some r => r.2 * tilesPerOuter d.geom + (k - r.1)
  | none => k

/-- The positions of which a tile is not delivered yet. -/
def openClaims (d : StreamDesc) (x : Stream) : List (Nat × Nat) :=
  x.claims.filter fun r => x.deliver < r.1 + tilesPerOuter d.geom

/-! ### Slack and deadline tags (R152-R155) -/

/-- The issue queues of a stream unit (Table 7-3). -/
inductive IssueQueue where
  | nearHbm | farHbm | host | sram
  deriving DecidableEq, Repr

/-- The issue queue of a transfer of a core by its target's space and address (Table 7-3). -/
def issueQueue (core space a : Nat) : IssueQueue :=
  if space = 1 then .host
  else match placeOf (directD (if isAlias a then aliasTarget a else a)) with
    | .hbm k => if k / 4 = core / 128 then .nearHbm else .farHbm
    | .sram _ => .sram

/-- LAT_q in compute cycles (Table 7-3). -/
def latQ : IssueQueue → Nat
  | .nearHbm => 260
  | .farHbm => 344
  | .host => 1900
  | .sram => 40

/-- t_avg in force: measured after four events, DINT until then; none where DINT is 0 (R154). -/
def rateOf (x : Stream) : Option Nat :=
  if x.events = 4 then some x.tavg
  else match x.cur with
    | some d => if d.dint = 0 then none else some d.dint
    | none => none

/-- Slack of `n` tiles in hand or places free; 2^18 for a stream without a rate (R153, R154). -/
def slackOf (x : Stream) (n : Nat) (q : IssueQueue) : Int :=
  match rateOf x with
  | some r => (n : Int) * r - latQ q
  | none => 2 ^ 18

/-- The deadline tag of a transfer granted at `now` ns (R155). -/
def deadlineTag (now : Nat) (slack : Int) : Half := BitVec.ofNat 16 ((cyclesOf now + (min (max slack 0) (2 ^ 18)).toNat) / 16)

/-- The issue queue of a tile's first transfer. (DEDUCED, log 156.) -/
def tileQueue (s : State) (core : Nat) (d : StreamDesc) (x : Stream) (pos : Nat) : IssueQueue :=
  match (runAddrs s core d x.idx d.geom (runIndices d.geom x.outer pos)).2 with
  | .ok (a :: _) => issueQueue core d.geom.space a
  | _ => .sram

/-- The tag of a LOAD's next tile: DELIVER - HEAD tiles wait in its ring (R153). (DEDUCED, log 156.) -/
def loadTag (s : State) (core : Nat) (d : StreamDesc) (x : Stream) : Half :=
  deadlineTag s.now (slackOf x (x.slots.filter fun u => u.delivered).length (tileQueue s core d x (loadPos d x x.fill)))

/-- Handles a queue holds for its consumers. -/
def occupancy (q : Queue) : Nat := q.entries.length + q.rounds.length

/-- The tag of a STORE's next tile: 32 less its input queue's occupancy (R153). (DEDUCED, log 156.) -/
def storeTag (s : State) (b : Bound) (d : StreamDesc) (x : Stream) : Half :=
  let held := match (consQueue b.g b.idx d.port).bind fun q => b.g.queues[q]? with
    | some q => occupancy q
    | none => 0
  deadlineTag s.now (slackOf x (32 - held) (tileQueue s b.st.unit d x (tilePos d x x.fill)))

/-! ### Ring slots and issue (R149-R151) -/

/-- The slot of tile `k` of a LOAD, at position `pos` of its geometry. -/
def slotFor (core : Nat) (d : StreamDesc) (tag : Half) (next : Bool) (slot k pos : Nat) : SlotUse :=
  let i := slot % d.slotN
  let base := ringArea core + d.slotBase
  { num := k, pos := pos, old := false, next := next, addr := base + i * d.slotBytes,
    caddr := base + d.slotN * d.slotBytes + i * d.cslotBytes, comp := hasComp d, landed := false, poison := false,
    poisonC := false, delivered := false, freeP := false, freeC := false, tag := tag }

/-- Tiles are issued while AHEAD allows (R151). -/
def issueTiles (core : Nat) (d : StreamDesc) (tag : Stream → Half) : Nat → Stream → Stream
  | 0, x => x
  | n + 1, x =>
    if x.fill < loadTiles d x && x.slots.length < d.ahead && x.fault.isNone && !x.parked then
      issueTiles core d tag n
        { x with slots := x.slots ++ [slotFor core d (tag x) false x.nextSlot x.fill (loadPos d x x.fill)], fill := x.fill + 1,
                 nextSlot := (x.nextSlot + 1) % d.slotN }
    else x

/-- Tiles of the next descriptor are issued behind the last tile of the current one, in the same window and ring (R157). -/
def issueNext (core : Nat) (tag : NextDesc → Stream → Half) : Nat → Stream → Stream
  | 0, x => x
  | n + 1, x =>
    match x.ahead with
    | none => x
    | some a =>
      if a.fill < tileCount a.d.geom a.outer && x.slots.length < a.d.ahead && x.fault.isNone && a.fault.isNone then
        issueNext core tag n
          { x with slots := x.slots ++ [slotFor core a.d (tag a x) true x.nextSlot a.fill a.fill],
                   ahead := some { a with fill := a.fill + 1 }, nextSlot := (x.nextSlot + 1) % a.d.slotN }
      else x

def modStrm (s : State) (b : Bound) (f : Stream → Stream) : State :=
  modStation s b.slot b.idx fun x => { x with strm := f x.strm }

/-- Issue, unless a pause is in progress (R163). -/
def issue (s : State) (b : Bound) : State :=
  match b.st.strm.cur with
  | none => s
  | some d =>
    if mayStart s b && b.st.sub = 0 then
      modStrm s b fun x =>
        issueNext b.st.unit (fun a y => loadTag s b.st.unit a.d { y with idx := none, outer := a.outer, fill := a.fill, claims := [] }) 8
          (issueTiles b.st.unit d (loadTag s b.st.unit d) 8 x)
    else s

/-- The handle of a delivered tile (R150). (DEDUCED, log 62.) -/
def loadHandle (d : StreamDesc) (last poison : Bool) (bytes addr : Nat) : Handle :=
  ⟨if poison then .pagePoisoned else .ok, d.pred, last, 0#16, bytes, 0xFE, d.tag, addr⟩

/-- The last tile of the descriptor: not of a run that another may follow (R26, R165). (DEDUCED, log 62.) -/
def isLastTile (d : StreamDesc) (x : Stream) (k : Nat) : Bool :=
  k + 1 == loadTiles d x && !d.claim && (!d.rearm || x.finish)

/-- The oldest undelivered slot of the current descriptor: another becomes current only after it (R157). -/
def nextDelivery (x : Stream) : Option SlotUse := x.slots.find? fun u => !u.delivered && !u.next

/-- Delivery of the oldest tile, if it is whole and its pushes have room (R150). -/
def deliverOne (s : State) (b : Bound) : Option State :=
  match b.st.strm.cur, nextDelivery b.st.strm with
  | some d, some u =>
    let ports := if u.comp then [d.port, d.port + 1] else [d.port]
    if u.landed && canPushAll s b.slot b.idx ports then
      let x := b.st.strm
      let last := isLastTile d x u.num
      let s1 := setRef s u.addr 1
      let s2 := emit s1 b.slot b.idx d.port (loadHandle d last u.poison (tileBytes d.geom x.outer) u.addr)
      let s3 := if u.comp then
          emit (setRef s2 u.caddr 1) b.slot b.idx (d.port + 1)
            (loadHandle d last u.poisonC (compBytes d x.comp x.outerC) u.caddr)
        else s2
      let s4 := if u.comp then readerEmits (readerEmits s3 b u.addr) b u.caddr else readerEmits s3 b u.addr
      some (modStrm s4 b fun y =>
        { y with deliver := u.num + 1,
                 lastEv := some (y.lastEv.getD s.now),
                 slots := y.slots.map fun v => if v.num == u.num && !v.old && !v.next then { v with delivered := true } else v })
    else none
  | _, _ => none

/-- Delivery in order as far as it goes. -/
def deliverAll : Nat → State → Bound → State
  | 0, s, _ => s
  | n + 1, s, b =>
    match deliverOne s b with
    | none => s
    | some t => deliverAll n t (rebind t b)

/-- What follows a delivery: a fault that waited for older tiles, the next claim, the end of the run (R160, R158, R165).
(DEDUCED, log 61.) -/
def loadProgress (s : State) (b : Bound) : State :=
  match b.st.strm.cur with
  | none => s
  | some d =>
    let x := b.st.strm
    match x.fault with
    | some f =>
      if (nextDelivery x).isNone then streamHalt s b f (b.st.outSeq.getD d.port 0#16) else s
    | none =>
      if x.parked then parkedGo s b
      else if x.deliver = loadTiles d x && (nextDelivery x).isNone then
        if d.claim then
          let s1 := modStrm s b fun y => { y with claims := [] }
          if x.claimOut then settle (endStream s1 (rebind s1 b) .ok) b.slot else s1
        else settle (runDone s b) b.slot
      else s

/-- A LOAD goes on once: issue, delivery, what follows. -/
def loadTurn (s : State) (b : Bound) : State :=
  let s1 := issue s (rebind s b)
  let s2 := deliverAll 16 s1 (rebind s1 b)
  loadProgress s2 (rebind s2 b)

/-- A LOAD goes on, also into a descriptor that becomes current by it. -/
def loadAdvance (s : State) (b : Bound) : State :=
  let s1 := loadTurn (loadTurn s b) b
  issue s1 (rebind s1 b)

/-- Slots given back to the ring, the youngest first. -/
def backSlots (x : Stream) (keep : List SlotUse) : Stream :=
  let n := match x.cur with
    | some d => d.slotN
    | none => 1
  { x with slots := keep, nextSlot := (x.nextSlot + n * 16 - (x.slots.length - keep.length)) % n }

/-- Tile `f.num` stops: it and younger tiles are discarded, those of the next descriptor with them; an older fault takes the place
of a younger one (R160). -/
def tileStops (s : State) (b : Bound) (f : StreamFault) : State :=
  let later := match b.st.strm.fault with
    | some g => decide (g.num ≤ f.num)
    | none => false
  if later then s
  else modStrm s b fun x =>
    { backSlots x (x.slots.filter fun u => u.old || (!u.next && decide (u.num < f.num))) with
        fault := some f, fill := f.num, ahead := none }

/-- Tile `f.num` of the next descriptor stops; the fault is met when that descriptor is current (R157, R160). -/
def nextStops (s : State) (b : Bound) (f : StreamFault) : State :=
  modStrm s b fun x =>
    match x.ahead with
    | none => x
    | some a =>
      let later := match a.fault with
        | some g => decide (g.num ≤ f.num)
        | none => false
      if later then x
      else { backSlots x (x.slots.filter fun u => !u.next || decide (u.num < f.num)) with
               ahead := some { a with fault := some f, fill := f.num } }

/-- A tile has landed in its slot; `bad` and `badC` of its transfers, and of its companion's, met an uncorrectable sector. -/
def landTile (s : State) (b : Bound) (u : SlotUse) (main comp : Bytes) (bad badC : Nat) : State :=
  let s1 := (memWrite s u.addr main).getD s
  let s2 := if u.comp then (memWrite s1 u.caddr comp).getD s1 else s1
  modStrm (suPoisons s2 b.st.unit (bad + badC)) b fun x =>
    { x with slots := x.slots.map fun v =>
        if v.num == u.num && !v.old && v.next == u.next then
          { v with landed := true, poison := bad != 0, poisonC := badC != 0 }
        else v }

/-- The descriptor of an issued tile, with what it read. -/
def slotPlan (x : Stream) (u : SlotUse) : Option StreamPlan :=
  if u.next then x.ahead.map fun a => ⟨a.d, none, none, a.outer, a.outer⟩
  else x.cur.map fun d => ⟨d, x.comp, x.idx, x.outer, x.outerC⟩

/-- An issued tile stops. -/
def slotStops (s : State) (b : Bound) (u : SlotUse) (e : TileStop) : State :=
  let f : StreamFault := ⟨u.num, e.ends, e.cause, e.space, e.addr⟩
  if u.next then nextStops s b f else tileStops s b f

/-- Every transfer of an issued tile completes (R150, R159, R160); `ep`: a host completion was marked poisoned (R403).
(DESIGN CHOICE, log 66.) -/
def fetchTile (s : State) (b : Bound) (p : StreamPlan) (u : SlotUse) (ep : Bool) : State :=
  let d := p.d
  let epN (space : Nat) : Nat := if ep && space == 1 then 1 else 0
  if d.curd ≠ 0 then
    let r := readCurd s b.st.unit d p.idx p.outer u.pos
    match r.2 with
    | .error e => slotStops r.1 b u e
    | .ok q =>
      -- one read gives both tiles: both carry its poison, the counter takes it once
      let t := landTile r.1 b u q.1 (padTo (roundUp q.2.1.length 32) q.2.1) q.2.2 0
      modStrm t b fun x => { x with slots := x.slots.map fun v =>
        if v.num == u.num && !v.old && v.next == u.next then { v with poisonC := v.poison } else v }
  else
    let r := readTile s b.st.unit d p.idx d.geom p.outer u.pos
    match r.2 with
    | .error e => slotStops r.1 b u e
    | .ok m =>
      match p.comp with
      | none => landTile r.1 b u m.1 [] (m.2 + epN d.geom.space) 0
      | some g =>
        let q := readTile r.1 b.st.unit d p.idx g p.outerC u.pos
        match q.2 with
        | .error e => slotStops q.1 b u e
        | .ok k => landTile q.1 b u m.1 k.1 (m.2 + epN d.geom.space) (k.2 + epN g.space)

/-- The oldest issued tile of a number that has not landed. -/
def openTile (x : Stream) (tile : Nat) : Option SlotUse := x.slots.find? fun u => !u.old && u.num == tile && !u.landed

/-- STREAM_TRANSFER_DONE: the tile's transfers complete; whole tiles are delivered in order (R150). -/
def execStreamTransferDone (core tile : Nat) (s : State) : Host.Outcome State Fault Refusal :=
  onUnit core 256 "core" <|
    match bound s .load core with
    | none => s
    | some b =>
      if mayFinish s b && b.st.sub = 0 then
        let s1 := issue s b
        let b1 := rebind s1 b
        match (openTile b1.st.strm tile).bind fun u => (slotPlan b1.st.strm u).map fun p => (u, p) with
        | some q => let s2 := fetchTile s1 b1 q.2 q.1 false
          loadAdvance s2 (rebind s2 b1)
        | none => loadAdvance s1 b1
      else s

/-- The geometry of a tile that lies in host memory, with its outermost count: the primary before its companion.
(DESIGN CHOICE, log 64.) -/
def hostGeom (p : StreamPlan) : Option (Geom × Nat) :=
  if p.d.geom.space = 1 then some (p.d.geom, p.outer)
  else match p.comp with
    | some g => if g.space = 1 then some (g, p.outerC) else none
    | none => none

/-- The faulting IOVA of a failed host read: the tile's first byte in host memory (R403). (DESIGN CHOICE, log 64.) -/
def firstIova (s : State) (core : Nat) (p : StreamPlan) (g : Geom) (outer pos : Nat) : Nat :=
  stopAddr s core p.d p.idx g ((runIndices g outer pos).headD [])

/-- HOST_READ_COMPLETION (R403): data as usual, poisoned data delivered marked, an error a page fault
that AER reports. -/
def execHostReadCompletion (core tile : Nat) (how : ReadEnd) (s : State) : Host.Outcome State Fault Refusal :=
  onUnit core 256 "core" <|
    match bound s .load core with
    | none => s
    | some b =>
      match (openTile b.st.strm tile).bind fun u => (slotPlan b.st.strm u).bind fun p => (hostGeom p).map fun g => (u, p, g) with
      | some q =>
        if mayFinish s b && b.st.sub = 0 then
          let s1 := match how with
            | .data => fetchTile s b q.2.1 q.1 false
            | .poisoned => fetchTile s b q.2.1 q.1 true
            | .error => slotStops (aerNote s) b q.1
                (pageStop 1 (firstIova s core q.2.1 q.2.2.1 q.2.2.2 q.1.pos))
          loadAdvance s1 (rebind s1 b)
        else s
      | none => s

/-- SEQ of the tile at which a descriptor in decode would go on: LOAD's next push on its port, the first handle STORE has popped,
else a free value. (DESIGN CHOICE, log 64.) -/
def decodeSeq (s : State) (b : Bound) : Half :=
  if b.st.kind == .load then b.st.outSeq.getD (leAt (peek s (wdAddr b 128) 128) 66 1 % 8) 0#16
  else match b.st.strm.tiles with
    | t :: _ => t.h.seq
    | [] => BitVec.ofNat 16 (Config.freeNat (s.free + 1))

/-- A decode error of a stream halts it with its position at the descriptor, which the fault register shows (R144, R160, R164).
(DEDUCED, log 33; DESIGN CHOICE, log 64; DESIGN CHOICE, log 70.) -/
def streamRefused (s : State) (b : Bound) (e : Status) : State :=
  streamHalt (tick1 (tick1 s)) b
    ⟨if b.st.strm.cur.isNone then 0 else b.st.strm.deliver, e, e, 0, Config.freeNat s.free % 2 ^ 48⟩ (decodeSeq s b)

/-- A descriptor in force on a stream: a re-armed run keeps its base and count (R162, R165). -/
def planIn (p : StreamPlan) (x : Stream) : Stream :=
  match x.cur, x.rearmed with
  | some o, true =>
    if p.d.rearm then
      { x with cur := some { p.d with geom := { p.d.geom with base := o.geom.base } }, comp := p.comp, idx := p.idx }
    else { x with cur := some p.d, comp := p.comp, idx := p.idx, outer := p.outer, outerC := p.outerC }
  | _, _ => { x with cur := some p.d, comp := p.comp, idx := p.idx, outer := p.outer, outerC := p.outerC }

/-- The indices of the first run at an outermost position. -/
def firstRun (g : Geom) (i : Nat) : List Nat := List.replicate (g.ndim - 2) 0 ++ [i]

/-- A claimed index that is not below the outermost count ends the template with SHAPE_OVER, after the tiles older than its first
(R158, R160). -/
def claimOver (s : State) (b : Bound) : State :=
  let x := b.st.strm
  match x.cur, x.claims.find? fun r => x.outer ≤ r.2 with
  | some d, some r =>
    let addr := stopAddr s b.st.unit d x.idx d.geom (firstRun d.geom r.2)
    tileStops (tick1 s) b ⟨max r.1 x.deliver, .shapeOver, .shapeOver, d.geom.space, addr⟩
  | _, _ => s

/-- A zero outermost count on LOAD: an empty handle on each port, and EMPTY (R145). -/
def loadEmpty (s : State) (b : Bound) (p : StreamPlan) : State :=
  let ports := if hasComp p.d then [p.d.port, p.d.port + 1] else [p.d.port]
  if canPushAll s b.slot b.idx ports then
    let s1 := ports.foldl (fun t q => emit t b.slot b.idx q (emptyHandle p.d.tag true)) s
    let s2 := modStrm s1 b (planIn p)
    settle (endStream s2 (rebind s2 b) .empty) b.slot
  else s

/-- The accepted descriptor of a LOAD becomes current; FENCE waits until every earlier tile is consumed (R157). -/
def loadCurrent (s : State) (b : Bound) (p : StreamPlan) : State :=
  if b.st.strm.cur.isNone && p.d.fence && !b.st.strm.slots.isEmpty then s
  else if p.outer = 0 then loadEmpty s b p
  else
    let s0 := if p.d.geom.space = 2 then startReader s b (b.st.unit / 16) none else s
    let s1 := modStation s0 b.slot b.idx fun x => { x with sub := 0, strm := planIn p x.strm }
    let b1 := rebind s1 b
    let s2 := claimOver s1 b1
    loadAdvance s2 (rebind s2 b1)

/-- A stream whose last tile is issued and whose next descriptor may overlap it: neither re-armable nor a claim template (R157). -/
def mayOverlap (b : Bound) : Bool :=
  let x := b.st.strm
  match x.cur with
  | some d => !d.rearm && !d.claim && x.fill == loadTiles d x && x.fault.isNone && x.ahead.isNone && b.st.wdi + 1 < b.st.workN
  | none => false

/-- The next descriptor of a LOAD, read while the current one's tiles are in flight (R157). One that the overlap does not take -
FENCE, a claim template, one whose index, shape or companion words are read when it becomes current (R156), another ring, an error,
which is reported after the last delivery - is read when it is current. (DEDUCED, log 61.) -/
def overlapNext (s : State) (b : Bound) : State :=
  let r := decodeStream s true b.st.unit (wdAddr { b with st := { b.st with wdi := b.st.wdi + 1 } } 128)
  match r.2, b.st.strm.cur with
  | .ok p, some d =>
    let e := p.d
    let sameRing := e.slotBase == d.slotBase && e.slotN == d.slotN && e.slotBytes == d.slotBytes && e.cslotBytes == d.cslotBytes
    if !e.fence && !e.claim && !e.dyn && !e.geom.idx && !hasComp e && sameRing && p.outer != 0 && portsBound b [] [e.port] then
      let s1 := modStrm r.1 b fun x => { x with ahead := some ⟨e, p.outer, 0, none⟩ }
      issue s1 (rebind s1 b)
    else s
  | _, _ => s

/-- LOAD_DESCRIPTOR: the next descriptor, on a resumed stream the saved one read again, or the one after a descriptor whose last
tile is issued (R144, R156, R157, R162). (DEDUCED, log 61.) -/
def execLoadDescriptor (core : Nat) (s : State) : Host.Outcome State Fault Refusal :=
  onUnit core 256 "core" <|
    match bound s .load core with
    | none => s
    | some b =>
      if mayStart s b && b.st.wdi < b.st.workN && (b.st.strm.cur.isNone || b.st.sub ≠ 0) then
        let r := decodeStream s true core (wdAddr b 128)
        match r.2 with
        | .error e => streamRefused r.1 b e
        | .ok p =>
          if portsBound b [] (if hasComp p.d then [p.d.port, p.d.port + 1] else [p.d.port]) then loadCurrent r.1 b p
          else streamRefused r.1 b .badDescriptor
      else if mayStart s b && mayOverlap b then overlapNext s b
      else s

/-- A claim template may claim: every tile of the positions claimed so far is issued, and the FIFO and AHEAD have room
(R138, R158). -/
def mayClaim (s : State) (b : Bound) (core : Nat) (d : StreamDesc) : Bool :=
  let x := b.st.strm
  mayStart s b && b.st.sub = 0 && d.claim && !x.claimOut && x.fault.isNone && x.fill = loadTiles d x && x.slots.length < d.ahead
    && (coreAt s core).claims.length < 4 && (wcOf s (core / 16)).waiting.isEmpty

/-- CLAIM_TEMPLATE (R138, R158): claim, FIFO, and the stream at the claimed position, ahead of the delivery of earlier ones; no work
ends the descriptor once they are delivered. (DEDUCED, log 62.) -/
def execClaimTemplate (core : Nat) (s : State) : Host.Outcome State Fault Refusal :=
  onUnit core 256 "core" <|
    match bound s .load core with
    | none => s
    | some b =>
      match b.st.strm.cur with
      | none => s
      | some d =>
        if mayClaim s b core d then
          let r := claimOp (wcOf s (core / 16))
          let s1 := modCore (modWc s (core / 16) fun _ => r.1) core fun x => { x with claimed := r.2 }
          match r.2 with
          | .got e i =>
            let s2 := modCore s1 core fun x => { x with claims := x.claims ++ [(e, i)] }
            let s3 := modStrm s2 b fun x => { x with claims := openClaims d x ++ [(x.fill, i.toNat)] }
            let s4 := claimOver s3 (rebind s3 b)
            loadAdvance s4 (rebind s4 b)
          | _ =>
            let s2 := modStrm s1 b fun x => { x with claimOut := true }
            loadProgress s2 (rebind s2 b)
        else s

/-! ### STORE -/

/-- The FIFO's head has been committed by the STORE: its tiles go to the claimed position (R138). (DEDUCED, log 63.) -/
def commitTaken (s : State) (b : Bound) (e : Byte) (i : Word) : State :=
  let s1 := modCore s b.st.unit fun x => { x with claims := x.claims.drop 1 }
  modStrm (modWc s1 (b.st.unit / 16) fun w => { w with landing := w.landing ++ [(b.st.unit, i)] }) b fun x =>
    { x with claimPos := some i.toNat, claimEpoch := e, recheck := false,
             tiles := match x.cur with
               | some d => x.tiles.map fun t => { t with pos := i.toNat * tilesPerOuter d.geom + t.num }
               | none => x.tiles }

/-- The writes of a core's accepted commit have landed, or are no longer on their way. -/
def landed (s : State) (core : Nat) : State :=
  modWc s (core / 16) fun w => { w with landing := w.landing.filter fun l => !(l.1 == core) }

/-- Handles of the tiles a STORE holds. -/
def tileHandles (x : Stream) : List Handle :=
  (x.tiles.map fun t => t.h :: (match t.comp with | some c => [c] | none => [])).flatten

/-- A refused commit (R139, R161): nothing is written, the tiles are consumed, the descriptor ends with STALE_CLAIM, and the
station goes on with its next descriptor once it is resumed. (DEDUCED, log 33; DESIGN CHOICE, log 70.) -/
def staleEnd (s : State) (b : Bound) : State :=
  let s1 := notifyEvent (landed s b.st.unit) b (match b.st.strm.cur with | some d => d.notify | none => false) .staleClaim
  let s2 := haltCore s1 b.slot b.idx .staleClaim
  let s3 := releaseAll s2 b.slot b.idx (tileHandles b.st.strm)
  let s4 := advance s3 b
  settle (modStation s4 b.slot b.idx fun x =>
    { x with run := .halted .staleClaim,
             strm := { newRun x.strm with cur := none, comp := none, idx := none, claimPos := none, recheck := false,
                                          rearmed := false, consumed := .ok, srcPoison := false } }) b.slot

/-- A STORE that waits to commit pair (e, i) at the head of its FIFO. -/
def storeWaits (b : Bound) (c : Core) (e : Byte) (i : Word) : Bool :=
  match b.st.strm.cur with
  | some d => d.claim && b.st.strm.claimPos.isNone && !b.st.strm.tiles.isEmpty && c.claims.head? == some (e, i)
  | none => false

/-- A COMMIT at the counter for a core, with its effect on the STORE that issued it (R136, R138, R139). (DEDUCED, log 63.) -/
def coreCommit (s : State) (core : Nat) (e : Byte) (i : Word) : State :=
  let r := commitOp s (core / 16) e
  match bound s .store core with
  | none => r.1
  | some b =>
    if mayFinish s b && storeWaits b (coreAt s core) e i then
      (if r.2 then commitTaken r.1 b e i
       else staleEnd (modCore r.1 core fun x => { x with claims := x.claims.drop 1 }) b)
    else r.1

/-- COMMIT; behind a RESET that waits it waits (R137). -/
def execCommit (core : Nat) (epoch : Byte) (index : Word) (s : State) : Host.Outcome State Fault Refusal :=
  onUnit core 256 "core" <|
    if (wcOf s (core / 16)).waiting.isEmpty then coreCommit s core epoch index
    else modWc s (core / 16) fun x => { x with waiting := x.waiting ++ [.commit core epoch index] }

/-- What waited behind a RESET sees the new epoch, up to the next RESET (R137). -/
def runHeld (s : State) (c : Nat) : List WcOp → State
  | [] => s
  | .claim x :: t => runHeld (modWc (coreClaim s x) c fun w => { w with waiting := t }) c t
  | .commit x e i :: t => runHeld (modWc (coreCommit s x e i) c fun w => { w with waiting := t }) c t
  | .reset base limit cmd :: t =>
    if (wcOf s c).landing.isEmpty then runHeld (modWc (applyReset s c base limit cmd) c fun w => { w with waiting := t }) c t
    else s

/-- WORK_COUNTER_RESET_APPLY: every accepted commit's write has landed. -/
def execWorkCounterResetApply (cluster : Nat) (s : State) : Host.Outcome State Fault Refusal :=
  onUnit cluster 16 "cluster" (runHeld s cluster (wcOf s cluster).waiting)

/-- Tiles of a STORE's run: those of one position under COMMIT. -/
def storePorts (d : StreamDesc) : List Nat := if d.comp then [d.port, d.port + 1] else [d.port]

/-- Tiles are popped while AHEAD and the input allow. -/
def popTiles (b : Bound) (d : StreamDesc) : Nat → State → State
  | 0, s => s
  | n + 1, s =>
    let x := (rebind s b).st.strm
    if x.fill < runTiles d x && x.tiles.length < max 1 d.ahead then
      match popAll s b.slot b.idx (storePorts d) with
      | none => waitInputs s b.slot b.idx (storePorts d)
      | some r =>
        let t : StoreTile := ⟨x.fill, tilePos d x x.fill, r.2.headD (emptyHandle 0#16 false), r.2[1]?, storeTag r.1 (rebind r.1 b) d x⟩
        popTiles b d n (modStrm r.1 b fun y => { y with tiles := y.tiles ++ [t], fill := y.fill + 1 })
    else s

def storeFill (s : State) (b : Bound) : State :=
  match b.st.strm.cur with
  | none => s
  | some d => if mayStart s b && b.st.sub = 0 && b.st.strm.outer != 0 then popTiles b d 16 s else s

/-- Every tile of the run is written: the next run, the end, or parking; a zero extent ends when its push has room (R145, R148). -/
def storeProgress (s : State) (b : Bound) : State :=
  match b.st.strm.cur with
  | none => s
  | some d =>
    let x := b.st.strm
    let again := d.rearm && !x.finish && !(d.claim)
    if x.outer = 0 then (if endRoom s b then settle (endStream s b .empty) b.slot else s)
    else if x.parked then parkedGo s b
    else if x.deliver = runTiles d x && x.tiles.isEmpty then
      if again || endRoom s b then settle (runDone (if d.claim then landed s b.st.unit else s) b) b.slot else s
    else s

/-- Byte `i` of a tile of `n` bytes belongs to an enabled element of predicate entry `p` (R130, R131). A STORE is given no M or N: it
judges by ROWS and COLS alone (DESIGN CHOICE, log 160). A tile an MMA pushed has 256-byte rows of 4-byte elements (R118); one of a
fused chain has the rows `fused` gives it, and only ROWS names elements of it. Of other tiles the STORE is not told the layout.
(DESIGN CHOICE, log 65.) -/
def byteOn (c : Core) (p : Nat) (mma : Bool) (fused : Option Nat) (n i : Nat) : Bool :=
  let rc := if mma then (match fused with
      | some rowB => (i / rowB, 64)
      | none => (i / 256, i % 256 / 4))
    else Config.tileElement n i
  enabledAt (predOf c p) rc.1 rc.2

/-- The enabled bytes of a partly enabled sector, by one read-modify-write (R131). `part` gives, per byte, its value and whether it
is enabled. -/
def writeSome (s : State) (lo : Nat) (part : List (Byte × Bool)) : State :=
  if part.any fun p => p.2 then
    let old := peek s lo part.length
    poke ((sectorViews lo part.length).foldl (writeSector lo lo) s) lo
      ((part.zip old).map fun q => if q.1.2 then q.1.1 else q.2)
  else s

/-- The sectors of a run that carry poison into host memory: each is a write request with the EP bit set (R462). -/
def epSectors (src : List (Byte × Bool × Bool)) : List Nat :=
  (List.range ((src.length + 31) / 32)).filter fun k => ((src.drop (32 * k)).take 32).any fun p => p.2.1 && p.2.2

/-- One run of a tile written: enabled bytes only, and poison carried on with the data (R131, R462). `src` gives, per byte, its
value, whether it is enabled, and whether its source sector was uncorrectable. -/
def writeRun (s : State) (space a : Nat) (src : List (Byte × Bool × Bool)) : Except TileStop State :=
  let n := src.length
  if space = 1 then
    match absentAt s a n with
    | some p => .error (pageStop 1 p)
    | none =>
      let t := (numbered src 0).foldl (fun t p => if p.2.2.1 then hostPoke t (a + p.1) [p.2.1] else t) s
      .ok { t with hostEp := t.hostEp ++ (epSectors src).map fun k => a + 32 * k }
  else if isAlias a then
    let w := aliasIn (aliasOp a)
    let o := aliasOut (aliasOp a)
    let els := (List.range (n / w)).filter fun i => ((src.drop (w * i)).take w).all fun p => p.2.1
    match aliasWriteSome s a (src.map Prod.fst) els with
    | none => .error (holeStop s space)
    | some t =>
      .ok (els.foldl (fun v i =>
        if ((src.drop (w * i)).take w).any fun p => p.2.2 then markBad v (aliasTarget a + i * o) o else v) t)
  else if !spanOk a n then .error (holeStop s space)
  else
    let secs := List.range (n / 32)
    .ok (secs.foldl (fun t k =>
      let part := (src.drop (32 * k)).take 32
      let lo := a + 32 * k
      let t1 := if part.all fun p => p.2.1 then (memWrite t lo (part.map Prod.fst)).getD t
        else writeSome t lo (part.map fun p => (p.1, p.2.1))
      if part.any fun p => p.2.1 && p.2.2 then markBad t1 lo 32 else t1) s)

/-- The runs of a tile written in order, up to a fault. -/
def writeRuns (s : State) (core space n : Nat) : List Nat → List (Byte × Bool × Bool) → State × Option TileStop
  | [], _ => (s, none)
  | a :: t, src =>
    match writeRun s space a (src.take n) with
    | .error e => (tick1 s, some e)
    | .ok s1 =>
      writeRuns (if space = 1 then s1 else dlMem s1 core (realAt a) n true) core space n t (src.drop n)

/-- The producer of the queue behind an input port is an MMA. (DESIGN CHOICE, log 65.) -/
def fedByMma (b : Bound) (port : Nat) : Bool :=
  match (consQueue b.g b.idx port).bind fun q => b.g.queues[q]? with
  | some q => match b.g.stations[q.prodAt]? with
    | some x => x.kind == .mma
    | none => false
  | none => false

/-- One geometry's part of a tile: read from its handle, written to its runs; the second component says a source sector was
uncorrectable. (DESIGN CHOICE, log 65; DEDUCED, log 120.) -/
def writePart (s : State) (b : Bound) (d : StreamDesc) (idx : Option Geom) (g : Geom) (outer pos port : Nat) (h : Handle) :
    State × Option TileStop × Bool :=
  let n := tileBytes g outer
  let r := memRead s h.addr n
  let go (t : State) (data : Bytes) (bad : Bool) : State × Option TileStop × Bool :=
    let c := coreAt t b.st.unit
    let mma := fedByMma b port
    let fused := (t.fusedTiles.find? fun x => x.1 == h.addr).map Prod.snd
    let src := (numbered data 0).map fun p =>
      (p.2, byteOn c h.pred mma fused n p.1, bad && isBad t (directD (h.addr + p.1) / 32))
    let ra := runAddrs (dlMem t b.st.unit (realAt h.addr) n false) b.st.unit d idx g (runIndices g outer pos)
    match ra.2 with
    | .error e => (ra.1, some e, bad)
    | .ok as =>
      let w := writeRuns ra.1 b.st.unit g.space g.c0 as src
      (w.1, w.2.map (atEntry w.1 b.st.unit d idx g outer pos), src.any fun p => p.2.1 && p.2.2)
  match r.2 with
  | .hole => (tick1 r.1, some (holeStop r.1 0), false)
  | .bad _ dta => go r.1 dta true
  | .ok dta => go r.1 dta false

/-- A tile's own halt: the position is saved at the tile, which keeps its handles (R160, R161). -/
def storeStop (s : State) (b : Bound) (t : StoreTile) (e : TileStop) : State :=
  streamHalt (landed s b.st.unit) b ⟨t.num, e.ends, e.cause, e.space, e.addr⟩ t.h.seq

/-- The tile is delivered: its handles are released (R161). -/
def tileDone (s : State) (b : Bound) (t : StoreTile) : State :=
  let s1 := releaseAll s b.slot b.idx (t.h :: (match t.comp with | some c => [c] | none => []))
  modStrm s1 b fun x => { x with deliver := t.num + 1, tiles := x.tiles.drop 1 }

/-- A tile whose handle carries an error: nothing is written, it counts as consumed, the station halts (R28). -/
def tileRefused (s : State) (b : Bound) (t : StoreTile) (st : Status) : State :=
  let s1 := modStrm (tileDone s b t) b fun x => { x with consumed := noteStatus x.consumed st }
  haltStation s1 (rebind s1 b) st

/-- The oldest popped tile written whole (R161, R462). -/
def writeTile (s : State) (b : Bound) (d : StreamDesc) (t : StoreTile) : State :=
  let x := b.st.strm
  let small := decide (t.h.bytes < tileBytes d.geom x.outer) || (match t.comp, x.comp with
    | some h, some g => decide (h.bytes < tileBytes g x.outerC)
    | _, _ => false)
  if small then
    storeStop (tick1 s) b t { holeStop s d.geom.space with
      addr := stopAddr s b.st.unit d x.idx d.geom ((runIndices d.geom x.outer t.pos).headD []) }
  else
    let p := writePart s b d x.idx d.geom x.outer t.pos d.port t.h
    match p.2.1 with
    | some e => storeStop p.1 b t e
    | none =>
      let q := match t.comp, x.comp with
        | some h, some g => writePart p.1 b d x.idx g x.outerC t.pos (d.port + 1) h
        | _, _ => (p.1, none, false)
      match q.2.1 with
      | some e => storeStop q.1 b t e
      | none =>
        let bad := p.2.2 || q.2.2
        let s1 := if bad then suPoison q.1 b.st.unit else q.1
        tileDone (modStrm s1 b fun y =>
          if bad then { y with srcPoison := true, consumed := noteStatus y.consumed .pagePoisoned } else y) b t

/-- The oldest popped tile after its commit: empty and error handles, then the write (R27, R28). -/
def storeTile (s : State) (b : Bound) (d : StreamDesc) (t : StoreTile) : State :=
  let hs := t.h :: (match t.comp with | some c => [c] | none => [])
  if hs.any isEmptyHandle then tileDone s b t
  else
    let st := carried (hs.map fun h => h.status)
    if statusFine st then writeTile s b d t else tileRefused s b t st

/-- The commit a STORE descriptor needs before its first byte, and the epoch check of a resumed one (R138, R161). -/
inductive CommitGate where
  | go (s : State)
  | stop (s : State)

/-- DEDUCED, log 63. -/
def commitGate (s : State) (b : Bound) (d : StreamDesc) : CommitGate :=
  let x := b.st.strm
  let core := b.st.unit
  let w := wcOf s (core / 16)
  if !d.claim then .go s
  else if x.claimPos.isSome then
    if !x.recheck then .go s
    else if !w.waiting.isEmpty then .stop s
    else if x.claimEpoch == w.epoch then
      .go (modStrm (modWc s (core / 16) fun y => { y with landing := y.landing ++ [(core, BitVec.ofNat 32 (x.claimPos.getD 0))] })
        b fun y => { y with recheck := false })
    else
      .stop (staleEnd (ctrSat (0x02800028 + 0x1000 * (core / 16)) w.stale (satAdd w.stale 1)
        (modWc s (core / 16) fun y => { y with stale := satAdd y.stale 1 })) b)
  else if !w.waiting.isEmpty then .stop s
  else
    match (coreAt s core).claims with
    | [] => .stop (haltStation s b .badDescriptor)
    | (e, i) :: _ =>
      let s1 := coreCommit s core e i
      if (rebind s1 b).st.strm.claimPos.isSome then .go s1 else .stop s1

/-- STORE_TILE_WRITTEN: the oldest popped tile is written and delivered (R161). -/
def execStoreTileWritten (core : Nat) (s : State) : Host.Outcome State Fault Refusal :=
  onUnit core 256 "core" <|
    match bound s .store core with
    | none => s
    | some b =>
      if mayFinish s b && b.st.sub = 0 then
        let s0 := storeFill s b
        let b0 := rebind s0 b
        match b0.st.strm.cur, b0.st.strm.tiles.head? with
        | some d, some _ =>
          match commitGate s0 b0 d with
          | .stop t => t
          | .go s1 =>
            let b1 := rebind s1 b0
            match b1.st.strm.tiles.head? with
            | none => s1
            | some t =>
              let s2 := storeTile s1 b1 d t
              let b2 := rebind s2 b1
              if mayFinish s2 b2 then storeProgress s2 b2 else s2
        | _, _ => storeProgress s0 b0
      else s

/-- A zero outermost count on STORE: one handle of each port popped and released, and EMPTY, whose push waits for room
(R145, R148). -/
def storeEmpty (s : State) (b : Bound) (p : StreamPlan) : State :=
  let s1 := modStation s b.slot b.idx fun x => { x with sub := 0, strm := { planIn p x.strm with tiles := [] } }
  let s2 := releaseAll s1 b.slot b.idx (tileHandles b.st.strm)
  storeProgress s2 (rebind s2 b)

/-- The anchor pop of a STORE: the first tile of its descriptor, popped before its shape word is read (R123, R145). -/
def anchorPop (s : State) (b : Bound) (ports : List Nat) : Option State :=
  if b.st.strm.fill > 0 then some s
  else
    match popAll s b.slot b.idx ports with
    | none => none
    | some r => some (modStrm r.1 b fun y =>
        { y with tiles := [⟨0, 0, r.2.headD (emptyHandle 0#16 false), r.2[1]?, 0#16⟩], fill := 1 })

/-- Tiles popped before their descriptor was current take their tags now (R155). -/
def tagTiles (s : State) (b : Bound) (d : StreamDesc) : State :=
  modStrm s b fun x => { x with tiles := x.tiles.map fun t => { t with tag := storeTag s b d { x with fill := t.num } } }

/-- The accepted descriptor of a STORE becomes current. -/
def storeCurrent (s : State) (b : Bound) (p : StreamPlan) : State :=
  if p.outer = 0 then storeEmpty s b p
  else
    let s0 := if p.d.geom.space = 2 then startReader s b (b.st.unit / 16) none else s
    let s1 := modStation s0 b.slot b.idx fun x =>
      { x with sub := 0, strm := { planIn p x.strm with recheck := p.d.claim && x.strm.claimPos.isSome } }
    let b1 := rebind s1 b
    let s2 := storeFill (tagTiles s1 b1 p.d) b1
    storeProgress s2 (rebind s2 b1)

/-- STORE_DESCRIPTOR: the next descriptor, or on a resumed stream the saved one read again. -/
def execStoreDescriptor (core : Nat) (s : State) : Host.Outcome State Fault Refusal :=
  onUnit core 256 "core" <|
    match bound s .store core with
    | none => s
    | some b =>
      if mayStart s b && b.st.wdi < b.st.workN && (b.st.strm.cur.isNone || b.st.sub ≠ 0) then
        let r0 := readCtl s (wdAddr b 128) 128 fun x => .ok (streamDescOf false x)
        match r0.2 with
        | .error e => streamRefused r0.1 b e
        | .ok d0 =>
          let ports := storePorts d0
          if !streamDescOk false d0 || !portsBound b ports (if d0.push then [d0.pushPort] else []) then
            streamRefused r0.1 b .badDescriptor
          else
            match anchorPop s b ports with
            | none => waitInputs s b.slot b.idx ports
            | some s1 =>
              let r := decodeStream s1 false core (wdAddr b 128)
              match r.2 with
              | .error e => streamRefused r.1 (rebind r.1 b) e
              | .ok p => storeCurrent r.1 (rebind r.1 b) p
      else s

/-! ### ATS (R160, R323) -/

/-- A host page's translation: cached when present. (DEDUCED, log 67.) -/
def atsNote (s : State) (page : Nat) (present : Bool) : State :=
  if present then
    { s with hostAbsent := s.hostAbsent.filter fun p => !(p == page)
             hif := { s.hif with atc := (insertNat (s.hif.atc.filter fun p => !(p == page)) page).take 4096 } }
  else { s with hostAbsent := insertNat s.hostAbsent page
                hif := { s.hif with atc := s.hif.atc.filter fun p => !(p == page) } }

/-- Some run of the tile touches the page, under AS 1. -/
def touches (s : State) (core : Nat) (p : StreamPlan) (pos page : Nat) : Bool :=
  let d := p.d
  let idx := p.idx
  let one (g : Geom) (outer : Nat) : Bool :=
    g.space == 1 && (match (runAddrs s core d idx g (runIndices g outer pos)).2 with
      | .ok as => as.any fun a => decide (a / 4096 ≤ page ∧ page ≤ (a + g.c0 - 1) / 4096)
      | .error _ => false)
  one d.geom p.outer || (match p.comp with
    | some g => one g p.outerC
    | none => false)

/-- ATS_RESPONSE (R160): an answer of not present or not permitted gives the stream that waits on the page a page fault. -/
def execAtsResponse (core : Nat) (side : Side) (iova : Nat) (present : Bool) (s : State) :
    Host.Outcome State Fault Refusal :=
  onUnit core 256 "core" <|
    let s1 := atsNote s (iova / 4096) present
    if present then s1
    else
      match side with
      | .load =>
        match bound s1 .load core with
        | none => s1
        | some b =>
          let waits (u : SlotUse) : Bool := !u.old && !u.landed && (match slotPlan b.st.strm u with
            | some p => touches s1 core p u.pos (iova / 4096)
            | none => false)
          match b.st.strm.slots.find? waits with
          | some u =>
            if mayFinish s1 b && b.st.sub = 0 then
              let s2 := slotStops s1 b u (pageStop 1 iova)
              loadAdvance s2 (rebind s2 b)
            else s1
          | none => s1
      | .store =>
        match bound s1 .store core with
        | none => s1
        | some b =>
          match b.st.strm.cur, b.st.strm.tiles.head? with
          | some d, some t =>
            let x := b.st.strm
            if mayFinish s1 b && b.st.sub = 0 && touches s1 core ⟨d, x.comp, x.idx, x.outer, x.outerC⟩ t.pos (iova / 4096) then
              storeStop s1 b t (pageStop 1 iova)
            else s1
          | _, _ => s1

/-- ATS_INVALIDATION: translations of the range leave the cache. -/
def execAtsInvalidation (iova bytes : Nat) (s : State) : Host.Outcome State Fault Refusal :=
  .next { s with hif := { s.hif with atc := s.hif.atc.filter fun p => !(decide (iova / 4096 ≤ p ∧ p * 4096 < iova + bytes)) } }

/-! ### Re-arming by a control core (R165, R166) -/

/-- A record stored to CLU_SU_REARM reaches the stream its bytes 12-13 name. -/
def clusterRearm (s : State) (v : Nat) : State × Status :=
  match rearmOf v with
  | none => (s, .badDescriptor)
  | some r =>
    if r.2 / 512 ≠ 0 then (s, .badDescriptor)
    else
      match bound s (if bit r.2 8 then .store else .load) (r.2 % 256) with
      | none => (s, .badDescriptor)
      | some b =>
        let q := rearmStream s b r.1
        (settle q.1 b.slot, q.2)

/-- CLU_SU_REARM: the lower word is held and clears DONE; the upper word acts (Table 21-13). -/
def opSuRearm (cluster : Nat) (upper : Bool) (value : Dword) (s : State) : State :=
  if upper then
    let q := clusterRearm s ((clusterAt s cluster).rearmLo.toNat + value.toNat * 2 ^ 64)
    modCluster q.1 cluster fun x => { x with rearmStatus := q.2, rearmDone := true }
  else modCluster s cluster fun x => { x with rearmLo := value, rearmDone := false }

def execCluSuRearm (cluster : Nat) (upper : Bool) (value : Dword) (s : State) : Host.Outcome State Fault Refusal :=
  onUnit cluster 16 "cluster" (opSuRearm cluster upper value s)

/-! ### Raw queue commands (R30-R33) -/

/-- QUEUE_PUSH: a producer pushes a handle; `release` is a popped handle of that input port, in hand, released with it. -/
def execQueuePush (slot station port : Nat) (h : Handle) (release_ : Option Nat) (s : State) :
    Host.Outcome State Fault Refusal :=
  onUnit slot 64 "graph slot" <|
    match slotGraph s slot with
    | none => s
    | some g =>
      match g.stations[station]? with
      | none => s
      | some st =>
        let b : Bound := ⟨slot, station, g, st⟩
        if !mayFinish s b then s
        else
          match pushHandle s slot station port h with
          | .stall => s
          | .halt t => settle t slot
          | .done t =>
            let t1 := modStation t slot station fun x =>
              { x with outSeq := x.outSeq.set port (h.seq + 1) }
            let t2 := match release_ with
              | none => t1
              | some p =>
                match st.inHand.find? fun q => q.1 == p with
                | none => t1
                | some q => release (modStation t1 slot station fun x => { x with inHand := x.inHand.erase q }) slot station q.2
            settle t2 slot

/-- QUEUE_POP: a consumer takes a handle, and either releases it at once or keeps it in hand. -/
def execQueuePop (slot station port : Nat) (release_ : Bool) (s : State) : Host.Outcome State Fault Refusal :=
  onUnit slot 64 "graph slot" <|
    match slotGraph s slot with
    | none => s
    | some g =>
      match g.stations[station]? with
      | none => s
      | some st =>
        let b : Bound := ⟨slot, station, g, st⟩
        if !mayStart s b then s
        else if (consQueue g station port).isNone then haltStation s b .badDescriptor
        else
          match popHandle s slot station port with
          | none => waitInputs s slot station [port]
          | some r =>
            let t := if release_ then release r.1 slot station r.2
              else modStation r.1 slot station fun x => { x with inHand := x.inHand ++ [(port, r.2)] }
            settle t slot

end Sys2Proof.Machine
end

