-- ==== Sys2Proof/Machine/Churn.lean ====
section
/-! DEFINITION. The Churn: ring contexts, handshakes, the ROTATE, tiles, credits and failures (chapter 11). -/

namespace Sys2Proof.Machine

/-! ### Ring records, descriptors, registers (Tables 11-1, 11-2, 11-7) -/

def ringRecOf (b : Bytes) : RingRec :=
  { tag := BitVec.ofNat 32 (leAt b 0 4), n := leAt b 4 2, rank := leAt b 6 2, east := leAt b 8 2, west := leAt b 10 2,
    eLanes := byteAt b 12, wLanes := byteAt b 13, eDie := byteAt b 14 % 2, wDie := byteAt b 14 / 2 % 2, depth := byteAt b 15,
    eCore := byteAt b 16, wCore := byteAt b 17, eSlot := 32 * (leAt b 18 2 % 2 ^ 14), wSlot := 32 * (leAt b 20 2 % 2 ^ 14),
    slotN := byteAt b 22 % 32, slotBytes := leAt b 24 3, timeoutUs := leAt b 28 4, group := leAt b 32 2 % 4096,
    resOk := byteAt b 14 / 4 == 0 && leAt b 18 2 / 2 ^ 14 == 0 && leAt b 20 2 / 2 ^ 14 == 0 && byteAt b 22 / 32 == 0
      && byteAt b 23 == 0 && byteAt b 27 == 0 && leAt b 32 2 / 4096 == 0 && allZero (sub b 34 30) }

/-- A lane request of Table 11-1. -/
def laneAskOk (l : Nat) : Bool := l % 8 == 0 && decide (8 ≤ l ∧ l ≤ 64)

/-- The limits of Table 11-1 (R239). -/
def ringRecOk (r : RingRec) : Bool :=
  r.resOk && decide (2 ≤ r.n ∧ r.n ≤ 256 ∧ r.rank < r.n ∧ 3 ≤ r.depth ∧ r.depth ≤ 8 ∧ 4 ≤ r.slotN ∧ r.slotN ≤ 16 ∧ 1 ≤ r.timeoutUs)
    && laneAskOk r.eLanes && laneAskOk r.wLanes && r.eCore / 128 == r.eDie && r.wCore / 128 == r.wDie && r.slotBytes % 32 == 0

/-- A CHURN work descriptor. -/
structure ChurnDesc where
  op     : Nat
  ctx    : Nat
  notify : Bool
  seqid  : Nat
  layer  : Nat
  tag    : Half
  rec_   : Nat
  resOk  : Bool
  deriving DecidableEq, Repr

def churnDescOf (b : Bytes) : ChurnDesc :=
  { op := byteAt b 0, ctx := byteAt b 1 % 4, notify := bit (byteAt b 2) 0, seqid := leAt b 4 4, layer := leAt b 8 2,
    tag := BitVec.ofNat 16 (leAt b 10 2), rec_ := leAt b 16 6,
    resOk := byteAt b 1 / 4 == 0 && byteAt b 2 / 2 == 0 && byteAt b 3 == 0 && leAt b 4 4 / 2 ^ 20 == 0 && leAt b 12 4 == 0
      && leAt b 22 2 == 0 && allZero (sub b 24 40) }

def chnCauseCode (c : ChnCause) : Nat :=
  match c with
  | .none => 0 | .mismatch => 1 | .timeout => 2 | .lanes => 3 | .linkDown => 4 | .withdraw => 5 | .order => 6

/-- CHN_RING_STATUS (Table 11-7). -/
def chnStatus (c : ChnCtx) : Nat :=
  4 * (c.state % 4) + 16 * flag c.xboundLast + 256 * (c.eGrant % 256) + 65536 * (c.wGrant % 256) + 2 ^ 24 * chnCauseCode c.cause

/-- The window offset of a direction's register (Table 21-4). -/
def chnReg (i : Nat) (west : Bool) (off : Nat) : Nat :=
  0x00800000 + 0x1000 * (i / 4) + 0x100 * (i % 4) + off + 0x40 * flag west

def chnDir (c : ChnCtx) (west : Bool) : ChnDir := if west then c.west else c.east

def modDir (s : State) (i : Nat) (west : Bool) (f : ChnDir → ChnDir) : State :=
  modChn s i fun c => if west then { c with west := f c.west } else { c with east := f c.east }

/-- The dies a record names, the east-going half's first. -/
def ringDies (r : RingRec) : List Nat := if r.eDie = r.wDie then [r.eDie] else [r.eDie, r.wDie]

/-- The directions that die `die` serves. -/
def ringDirs (r : RingRec) (die : Nat) : List Bool :=
  (if r.eDie = die then [false] else []) ++ (if r.wDie = die then [true] else [])

/-- The neighbour a direction sends to, and the one it receives from. -/
def ringTo (r : RingRec) (west : Bool) : Nat := if west then r.west else r.east
def ringFrom (r : RingRec) (west : Bool) : Nat := if west then r.east else r.west

/-- Where a direction's receive ring begins. -/
def ringBase (r : RingRec) (west : Bool) : Nat := if west then ringArea r.wCore + r.wSlot else ringArea r.eCore + r.eSlot

/-- A CHURN event: context and die, and the context's status (Table 19-5). -/
def churnEvent (s : State) (i : Nat) (st : Status) : State :=
  event s ⟨0x0B, st, 3, i / 4, Config.argPack [i % 4, i / 4], chnStatus (chnAt s i)⟩

/-- A CHURN_CTL packet: a handshake (kind word list headed 0) or credits (headed 1). -/
def churnCtl (s : State) (die dst : Nat) (tag : Word) (words : List Nat) : State :=
  sendPacket s die (newPacket s 0x02 dst tag (Config.kwLayout 0x02 words) [])

/-! ### OPEN (R239, R240) -/

/-- The receive rings of a record as ranges of each core's slot area. -/
def recRings (r : RingRec) : List (Nat × Nat × Nat) :=
  [(r.eCore, r.eSlot, r.slotN * r.slotBytes), (r.wCore, r.wSlot, r.slotN * r.slotBytes)]

/-- The ring of the LOAD descriptor that core `x` runs. -/
def loadRing (s : State) (x : Nat) : List (Nat × Nat) :=
  match bound s .load x with
  | none => []
  | some b => match b.st.strm.cur with
    | none => []
    | some d => [(d.slotBase, d.slotN * (d.slotBytes + d.cslotBytes))]

/-- The receive rings keep the ring-slot rules of R144. -/
def recRingsOk (s : State) (r : RingRec) : Bool :=
  (recRings r).all (fun q => q.2.1 + q.2.2 ≤ 0x80000
      && !((churnRings s q.1 ++ loadRing s q.1).any fun p => rangesMeet q.2.1 q.2.2 p.1 p.2))
    && !(r.eCore == r.wCore && rangesMeet r.eSlot (r.slotN * r.slotBytes) r.wSlot (r.slotN * r.slotBytes))

/-- Lanes granted to open groups: destination and lanes, each ring counted once. (DEDUCED, log 95.) -/
def laneGrants (s : State) : List (Nat × Nat) :=
  ((numbered s.chn 0).map fun p => match p.2.ring with
    | none => []
    | some r =>
      if p.2.state = 0 then []
      else (if r.eDie = p.1 / 4 then [(r.east, p.2.eGrant)] else []) ++ (if r.wDie = p.1 / 4 then [(r.west, p.2.wGrant)] else [])).flatten

/-- Lanes free toward a neighbour: those of its ports less what other groups hold on any of them. (DEDUCED, log 95.) -/
def lanesLeft (s : State) (grants : List (Nat × Nat)) (dst : Nat) : Nat :=
  let ps := routePorts s dst
  routeLanes s dst - ((grants.filter fun g => (routePorts s g.1).any ps.contains).map Prod.snd).sum

/-- The lanes a record is granted east and west. (DEDUCED, log 95.) -/
def grantLanes (s : State) (r : RingRec) : Nat × Nat :=
  let g := laneGrants s
  let e := min r.eLanes (lanesLeft s g r.east)
  (e, min r.wLanes (lanesLeft s ((r.east, e) :: g) r.west))

/-- A neighbour's handshake agrees with the record. -/
def shakeOk (r : RingRec) (west : Bool) (h : Shake) : Bool :=
  h.ringTag == r.tag && h.n == r.n && h.rank == (if west then (r.rank + r.n - 1) % r.n else (r.rank + 1) % r.n)

/-- The handshake of a neighbour that a context of the ring holds, no older than TIMEOUT_US. (DESIGN CHOICE, log 94.) -/
def heldShake (s : State) (r : RingRec) (ctx : Nat) (west : Bool) : Option Shake :=
  ((ringDies r).filterMap fun d => match (chnDir (chnAt s (4 * d + ctx)) west).shake with
    | some h => if s.now ≤ h.2 + 1000 * r.timeoutUs then some h.1 else none
    | none => none).head?

/-- Every context of the ring changed. -/
def modRingCtx (s : State) (r : RingRec) (ctx : Nat) (f : ChnCtx → ChnCtx) : State :=
  (ringDies r).foldl (fun t d => modChn t (4 * d + ctx) f) s

/-- A direction ready for its first ROTATE; its counters go on. -/
def dirOpened (d : ChnDir) : ChnDir :=
  { d with credits := 0, slots := d.slots.filter fun u => u.held, next := 0, rel := 0, relAt := 0, sent := 0, endsIn := 0,
           admitted := 0, lastOut := false, failed := false, answered := false }

/-- OPEN ends without a ring: the context closed with its cause, the lanes given back. (DESIGN CHOICE, log 94.) -/
def openFails (s : State) (r : RingRec) (ctx : Nat) (c : ChnCause) : State :=
  modRingCtx s r ctx fun x => { closedCtx x with cause := c }

/-- An open direction gives its sender the credits of an empty ring. -/
def firstCredits (s : State) (r : RingRec) (ctx : Nat) : State :=
  [false, true].foldl (fun t w =>
    churnCtl t (if w then r.wDie else r.eDie) (ringFrom r w) r.tag [1, ctx, flag w, r.slotN]) s

/-- What an OPEN in progress has come to. -/
inductive Opened where
  | waits
  | ends (c : ChnCause) (st : Status)

/-- Fewer than 8 lanes can be reserved toward a neighbour that a trained link reaches; where none does, the OPEN waits for its time
limit (R239, R250). -/
def lanesShort (s : State) (dst lanes : Nat) : Bool := decide (lanes < 8) && routeLanes s dst != 0

/-- The first status that applies (R239), without the time limit. (DESIGN CHOICE, log 94.) -/
def openStatus (s : State) (r : RingRec) (ctx : Nat) (lanes : Nat × Nat) : Opened :=
  let e := heldShake s r ctx false
  let w := heldShake s r ctx true
  let wrong (h : Option Shake) (west : Bool) : Bool := match h with
    | some x => !shakeOk r west x
    | none => false
  if wrong e false || wrong w true then .ends .mismatch .badDescriptor
  else if lanesShort s r.east lanes.1 || lanesShort s r.west lanes.2 then .ends .lanes .badDescriptor
  else if e.isSome && w.isSome && decide (8 ≤ lanes.1 ∧ 8 ≤ lanes.2) then .ends .none .ok
  else .waits

/-- The station that opened a context, of whatever die, while it may go on. -/
def churnOwner (s : State) (c : ChnCtx) : Option Bound :=
  match slotGraph s c.owner.1 with
  | none => none
  | some g => match g.stations[c.owner.2]? with
    | none => none
    | some x =>
      let b : Bound := ⟨c.owner.1, c.owner.2, g, x⟩
      if x.kind == .churn && mayFinish s b then some b else none

/-- An OPEN in progress is judged. (DESIGN CHOICE, log 94.) -/
def openJudge (s : State) (b : Bound) (r : RingRec) (ctx : Nat) (notify : Bool) (lanes : Nat × Nat) : State :=
  match openStatus s r ctx lanes with
  | .waits => s
  | .ends c st =>
    if st = .ok then
      let s1 := modRingCtx s r ctx fun x => { x with state := 2, cause := .none }
      settle (advance (notifyEvent (firstCredits s1 r ctx) b notify .ok) b) b.slot
    else haltStation (openFails s r ctx c) b st

/-- NOTIFY of the station's current descriptor. -/
def churnNotify (s : State) (b : Bound) : Bool := bit (byteAt (peek s (wdAddr b 64) 64) 2) 0

/-- An OPEN in progress on a context goes on after a handshake. -/
def openGoesOn (s : State) (die ctx : Nat) : State :=
  let c := chnAt s (4 * die + ctx)
  match c.ring with
  | none => s
  | some r =>
    if c.state != 1 then s
    else
      match churnOwner s c with
      | none => s
      | some b => openJudge s b r ctx (churnNotify s b) (c.eGrant, c.wGrant)

/-- A record is accepted: contexts opening, lanes reserved, a handshake to each neighbour (R239). (DESIGN CHOICE, log 94.) -/
def openStart (s : State) (b : Bound) (d : ChurnDesc) (r : RingRec) : State :=
  let lanes := grantLanes s r
  let s1 := modRingCtx s r d.ctx fun x =>
    { x with state := 1, cause := .none, eGrant := lanes.1, wGrant := lanes.2, ring := some r, owner := (b.slot, b.idx),
             openAt := s.now, rotating := false, east := dirOpened x.east, west := dirOpened x.west }
  let hello := [0, d.ctx, r.n, r.rank]
  let s2 := churnCtl (churnCtl s1 r.eDie r.east r.tag hello) r.wDie r.west r.tag hello
  openJudge s2 b r d.ctx d.notify lanes

/-- A CHURN command: the station's current descriptor, when it names that operation. -/
def churnCmd (die op : Nat) (run : Bound → ChurnDesc → State → State) (s : State) : Host.Outcome State Fault Refusal :=
  onUnit die 2 "die" <|
    match bound s .churn die with
    | none => s
    | some b =>
      if b.st.workN ≤ b.st.wdi || !(mayStart s b || (mayFinish s b && b.st.sub = 1)) then s
      else
        let r := ctrlRead s (wdAddr b 64) 64
        match r.2 with
        | .error e => haltStation r.1 b e
        | .ok v =>
          let d := churnDescOf v
          if !d.resOk || !decide (1 ≤ d.op ∧ d.op ≤ 3) then haltStation r.1 b .badDescriptor
          else if d.op = op then run b d (modStation r.1 b.slot b.idx fun x => { x with sub := 1 })
          else s

/-- A die on which the station's OPEN of a context is in progress; the record may name dies other than the station's. -/
def openingOn (s : State) (b : Bound) (ctx : Nat) : Option Nat :=
  [0, 1].find? fun x => let c := chnAt s (4 * x + ctx); c.state == 1 && c.owner == (b.slot, b.idx)

/-- OPEN (R239). -/
def runOpen (b : Bound) (d : ChurnDesc) (s : State) : State :=
  match openingOn s b d.ctx with
  | some x => openGoesOn s x d.ctx
  | none =>
    let q := ctrlRead s d.rec_ 64
    match q.2 with
    | .error e => haltStation q.1 b e
    | .ok v =>
      let r := ringRecOf v
      if !ringRecOk r || (ringDies r).any (fun x => (chnAt s (4 * x + d.ctx)).state != 0) || !recRingsOk s r then
        haltStation q.1 b .badDescriptor
      else openStart q.1 b d r

def execChurnOpen (die : Nat) (s : State) : Host.Outcome State Fault Refusal := churnCmd die 1 runOpen s

/-- The open context answers its neighbour once (R239). -/
def answerShake (s : State) (i : Nat) (west : Bool) (r : RingRec) : State :=
  if (chnDir (chnAt s i) west).answered then s
  else
    churnCtl (modDir s i west fun d => { d with answered := true }) (i / 4) (ringTo r west) r.tag [0, i % 4, r.n, r.rank]

/-- CHURN_HANDSHAKE_ARRIVAL: held, and answered once a matching OPEN is accepted (R239). -/
def execChurnHandshakeArrival (die ctx : Nat) (west : Bool) (shake : Shake) (s : State) : Host.Outcome State Fault Refusal :=
  onUnit die 2 "die" <|
    if 4 ≤ ctx then s
    else
      let i := 4 * die + ctx
      let s1 := modDir s i west fun d => { d with shake := some (shake, s.now) }
      let c := chnAt s1 i
      match c.ring with
      | none => s1
      | some r =>
        if (c.state = 1 || c.state = 2) && shakeOk r west shake then openGoesOn (answerShake s1 i west r) die ctx
        else if c.state = 1 then openGoesOn s1 die ctx
        else s1

/-- CHURN_CREDIT_ARRIVAL: slots free at the neighbour, and the latest round trip (R240, Table 11-8). -/
def execChurnCreditArrival (die ctx : Nat) (west : Bool) (credits rttNs : Nat) (s : State) : Host.Outcome State Fault Refusal :=
  onUnit die 2 "die" <|
    let i := 4 * die + ctx
    if 4 ≤ ctx || !((chnAt s i).state == 1 || (chnAt s i).state == 2) then s
    else modDir s i west fun d => { d with credits := d.credits + credits, rtt := BitVec.ofNat 16 (min rttNs 0xFFFF) }

/-! ### Failures (R251) -/

/-- A context has failed: it sends nothing more, and keeps only slots whose handles are held. -/
def failedCtx (c : ChnCtx) (cause : ChnCause) : ChnCtx :=
  let stop (d : ChnDir) : ChnDir :=
    { d with slots := (d.slots.filter fun u => u.held).map fun u => { u with fwd := false }, failed := true }
  { c with state := 3, cause := cause, rotating := false, east := stop c.east, west := stop c.west }

/-- A context fails; the ROTATE in progress there halts its station with `st` (R251). (DEDUCED, log 97.) -/
def failCtx (s : State) (i : Nat) (cause : ChnCause) (st : Status) : State :=
  let was := (chnAt s i).rotating
  let s1 := churnEvent (modChn s i fun c => failedCtx c cause) i st
  match bound s1 .churn (i / 4) with
  | some b => if was then haltStation s1 b st else s1
  | none => s1

/-- Every open context that `p` picks fails. -/
def failCtxs (s : State) (p : ChnCtx → RingRec → Bool) (cause : ChnCause) : State :=
  (List.range 8).foldl (fun t i =>
    let c := chnAt t i
    match c.ring with
    | some r => if c.state = 2 && p c r then failCtx t i cause .memberWithdrawn else t
    | none => t) s

/-- WITHDRAW for a group reaches the rings that name it. -/
def churnWithdraw (s : State) (group : Nat) : State := failCtxs s (fun _ r => r.group == group) .withdraw

/-- A link toward a neighbour has gone down. -/
def churnLinkDown (s : State) (link : Nat) : State :=
  failCtxs s (fun _ r => (routePorts s r.east).contains (link / 4) || (routePorts s r.west).contains (link / 4)) .linkDown

/-- CHURN_TIMEOUT: an OPEN no neighbour has answered, or an admitted block's tile that has not come (R239, R251).
(DEDUCED, log 100.) -/
def execChurnTimeout (die ctx : Nat) (west : Bool) (s : State) : Host.Outcome State Fault Refusal :=
  onUnit die 2 "die" <|
    let i := 4 * die + ctx
    let c := chnAt s i
    match c.ring with
    | none => s
    | some r =>
      if 4 ≤ ctx then s
      else if c.state = 1 then
        if c.openAt + 1000 * r.timeoutUs ≤ s.now && (heldShake s r ctx west).isNone then
          match churnOwner s c with
          | none => s
          | some b => haltStation (openFails s r ctx .timeout) b .memberWithdrawn
        else s
      else
        let d := chnDir c west
        if c.state = 2 && c.rotating && (ringDirs r die).contains west && d.endsIn + 1 < r.n && d.endsIn < d.admitted
            && d.lastRx + 1000 * r.timeoutUs ≤ s.now then
          failCtx s i .timeout .memberWithdrawn
        else s

/-! ### ROTATE (R241-R244, R248) -/

/-- The first head and the number of heads of a direction's half of a page (R241). -/
def halfHeads (hkv : Nat) (west : Bool) : Nat × Nat :=
  if hkv = 1 then (0, 1)
  else if west then ((hkv + 1) / 2, hkv - (hkv + 1) / 2) else (0, (hkv + 1) / 2)

/-- Bytes of a direction's half of a page. -/
def halfBytes (q : SeqRec) (west : Bool) : Nat := pageBytes q / q.hkv * (halfHeads q.hkv west).2

/-- The local pages a direction sends, in page-table order (R241, R242). -/
def localPages (q : SeqRec) (west : Bool) : List (Nat × Nat × Nat) :=
  if q.hkv = 1 then
    (spanPages q).filter fun p => (twoSpans q && decide (q.s1Pti ≤ p.1)) == west
  else spanPages q

/-- A ring tile's header (Table 11-4). (DEDUCED, log 98.) -/
def tileHead (r : RingRec) (q : SeqRec) (layer : Nat) (west : Bool) (p : Nat × Nat × Nat) (blockEnd poison : Bool) : Bytes :=
  leBytes 4 r.tag.toNat ++ leBytes 2 r.rank ++ leBytes 2 1 ++ leBytes 2 layer
    ++ leBytes 1 (flag west + 2 * flag blockEnd + 4 * flag poison) ++ leBytes 1 (q.pexp % 16) ++ leBytes 4 p.1 ++ leBytes 4 p.2.1
    ++ leBytes 2 (min (pageSize q) (p.2.2 - p.2.1)) ++ leBytes 1 q.cfmt ++ leBytes 1 (halfHeads q.hkv west).1
    ++ leBytes 1 (halfHeads q.hkv west).2 ++ leBytes 1 0 ++ leBytes 2 q.hdim ++ leBytes 4 0

/-- A tile leaves for the direction's neighbour: one credit used. -/
def sendTile (s : State) (i : Nat) (west : Bool) (r : RingRec) (tile : Bytes) : State :=
  sendBytes (modDir s i west fun d => { d with credits := d.credits - 1 }) (i / 4) 0x01 (ringTo r west) r.tag
    (fun k => Config.kwLayout 0x01 [flag west, k, tile.length]) tile

/-- A slot that its consumer and the onward send have both released. -/
def slotDone (u : RxSlot) : Bool := !u.toPush && !u.held && !u.fwd

/-- A staged block is counted, with the interval attention waited for it (R248). (DEDUCED, log 98.) -/
def countStaged (i : Nat) (west : Bool) (s : State) (u : RxSlot) : State :=
  match u.doneAt, u.blockEnd with
  | some t, true =>
    let d := chnDir (chnAt s i) west
    if u.hop ≤ d.rel && 1 ≤ u.hop then
      let o := d.xbound
      let s1 := modChn s i fun c => { c with xboundLast := true }
      ctrSat (chnReg i west 0x28) o (satAdd o 1) (modDir s1 i west fun x =>
        { x with steps := x.steps + 1, xbound := satAdd x.xbound 1, xwaitNs := x.xwaitNs + BitVec.ofNat 64 (t - d.relAt) })
    else
      modDir (modChn s i fun c => { c with xboundLast := false }) i west fun x => { x with steps := x.steps + 1 }
  | _, _ => s

/-- Released slots are counted, and free ones give their credits back (R16, R243). -/
def passSlots (s : State) (i : Nat) (west : Bool) (r : RingRec) : State :=
  let us := (chnDir (chnAt s i) west).slots
  let s1 := us.foldl (countStaged i west) s
  let gone := (us.filter slotDone).length
  let s2 := modDir s1 i west fun d =>
    { d with slots := (d.slots.filter fun u => !slotDone u).map fun u => { u with doneAt := none } }
  if gone = 0 then s2 else churnCtl s2 (i / 4) (ringFrom r west) r.tag [1, i % 4, flag west, gone]

/-- The highest block that may be admitted (R244). (DEDUCED, log 97.) -/
def admitTo (r : RingRec) (rel : Nat) : Nat := min (r.n - 1) (max r.depth (rel + r.depth - 1))

/-- A release handle is popped, or waited for, and further blocks are admitted unless the graph pauses (R42, R244, R253). The wait for
a tile that R251 limits begins where none was expected before. (DEDUCED, log 98.) -/
def passRelease (s : State) (b : Bound) (i : Nat) (west : Bool) (r : RingRec) : State :=
  let d := chnDir (chnAt s i) west
  let s1 := if r.n ≤ d.rel then s
    else match popHandle s b.slot b.idx (if west then 3 else 2) with
      | none => waitInputs s b.slot b.idx [if west then 3 else 2]
      | some q => modDir (release q.1 b.slot b.idx q.2) i west fun x => { x with rel := x.rel + 1, relAt := s.now }
  if (rebind s1 b).g.pausing.isSome then s1
  else modDir s1 i west fun x =>
    if x.admitted < admitTo r x.rel then
      { x with admitted := admitTo r x.rel, lastRx := if x.admitted ≤ x.endsIn then s.now else x.lastRx }
    else x

/-- The slot at an address changed. -/
def modSlotAt (s : State) (i : Nat) (west : Bool) (a : Nat) (f : RxSlot → RxSlot) : State :=
  modDir s i west fun d => { d with slots := d.slots.map fun u => if u.addr == a then f u else u }

/-- The oldest landed tile of the layer is pushed (R243). -/
def passPush (s : State) (b : Bound) (i : Nat) (west : Bool) (r : RingRec) : State :=
  let c := chnAt s i
  match (chnDir c west).slots.find? fun u => u.toPush && u.layer == c.layer with
  | none => s
  | some u =>
    let port := if west then 1 else 0
    if !canPush s b.slot b.idx port then s
    else
      let last := u.blockEnd && u.hop + 1 == r.n
      let s1 := modSlotAt (setRef s u.addr 1) i west u.addr fun x => { x with toPush := false, held := true }
      let s2 := if last then modDir s1 i west fun d => { d with lastOut := true } else s1
      emit s2 b.slot b.idx port
        ⟨if u.poison then .pagePoisoned else .ok, 0, last, 0#16, u.bytes, 0xFE, c.tag, u.addr⟩

/-- The oldest tile that goes further is sent onward, or waits for credit: one of the current layer, or one that an ended ROTATE has
pushed and not yet sent (R243, R248). (DEDUCED, log 98.) -/
def passForward (s : State) (i : Nat) (west : Bool) (r : RingRec) : State :=
  let c := chnAt s i
  let d := chnDir c west
  match d.slots.find? fun u => u.fwd && (u.layer == c.layer || !u.toPush) with
  | none => s
  | some u =>
    if d.credits = 0 then modSlotAt s i west u.addr fun x => { x with since := some (x.since.getD s.now) }
    else
      let q := memRead s u.addr u.bytes
      let t := gotBytes q.2
      let bad := match q.2 with | .ok _ => false | _ => true
      let t1 := overlay (overlay t 6 (leBytes 2 (u.hop + 1))) 10
        (leBytes 1 (if bad then byteAt t 10 / 8 * 8 + byteAt t 10 % 4 + 4 else byteAt t 10))
      let s1 := modDir (modSlotAt q.1 i west u.addr fun x => { x with fwd := false }) i west fun x =>
        { x with holdNs := x.holdNs + BitVec.ofNat 64 (s.now - u.since.getD s.now) }
      sendTile s1 i west r t1

/-- The next local payload is sent as a tile of HOP 1 (R242). -/
def passLocal (s : State) (b : Bound) (i : Nat) (west : Bool) (r : RingRec) (q : SeqRec) : State :=
  let c := chnAt s i
  let d := chnDir c west
  let ps := localPages q west
  match ps[d.sent]? with
  | none => s
  | some p =>
    if d.credits = 0 then s
    else
      match popHandle s b.slot b.idx (if west then 1 else 0) with
      | none => waitInputs s b.slot b.idx [if west then 1 else 0]
      | some x =>
        let h := x.2
        if h.bytes != halfBytes q west then haltStation s b .badDescriptor
        else
          let g := memRead x.1 h.addr h.bytes
          let poison := h.status != .ok || (match g.2 with | .ok _ => false | _ => true)
          let tile := tileHead r q c.layer west p (d.sent + 1 == ps.length) poison ++ padTo h.bytes (gotBytes g.2)
          let s1 := modDir g.1 i west fun y => { y with sent := y.sent + 1 }
          release (sendTile s1 i west r tile) b.slot b.idx h

/-- The station is still at work. -/
def stillGoing (s : State) (b : Bound) : Bool := (rebind s b).st.run == .going

/-- One pass over a direction. (DESIGN CHOICE, log 96.) -/
def passDir (b : Bound) (i : Nat) (r : RingRec) (q : SeqRec) (s : State) (west : Bool) : State :=
  let s1 := passPush (passRelease (passSlots s i west r) b i west r) b i west r
  if stillGoing s1 b then passLocal (passForward s1 i west r) b i west r q else s1

/-- A direction has pushed its last received tile and popped N releases, which is what ends its ROTATE (R244); onward sends that are
left go on. (DESIGN CHOICE, log 96.) -/
def dirDone (c : ChnCtx) (r : RingRec) (west : Bool) : Bool :=
  let d := chnDir c west
  d.lastOut && d.rel == r.n

/-- A direction at the start of a ROTATE of `layer`; tiles of that layer that came early are in their slots. -/
def dirStarted (s : State) (r : RingRec) (layer : Nat) (d : ChnDir) : ChnDir :=
  { d with rel := 0, relAt := s.now, sent := 0, admitted := min (r.n - 1) r.depth, lastOut := false, lastRx := s.now,
           endsIn := (d.slots.filter fun u => u.toPush && u.layer == layer && u.blockEnd).length }

/-- The slots hold a header and the largest half (R241). (DEDUCED, log 100.) -/
def slotFits (r : RingRec) (q : SeqRec) (dirs : List Bool) : Bool := dirs.all fun w => decide (32 + halfBytes q w ≤ r.slotBytes)

/-- The ports of Table 11-3 that the served directions use. -/
def churnPorts (dirs : List Bool) : List Nat × List Nat :=
  ((dirs.map fun w => if w then [1, 3] else [0, 2]).flatten, dirs.map fun w => if w then 1 else 0)

/-- ROTATE: it starts, makes a pass over each direction served, and ends when all are done.
(DESIGN CHOICE, log 96; DEDUCED, log 100.) -/
def runRotate (b : Bound) (d : ChurnDesc) (s : State) : State :=
  let i := 4 * b.st.unit + d.ctx
  let c := chnAt s i
  match c.ring with
  | none => haltStation s b .badDescriptor
  | some r =>
    let dirs := ringDirs r b.st.unit
    if c.state != 2 then haltStation s b .badDescriptor
    else
      let x := readSeq s d.seqid
      match x.2 with
      | .error e => haltStation x.1 b e
      | .ok q =>
        let ports := churnPorts dirs
        if q.nlayer ≤ d.layer || !slotFits r q dirs || !portsBound b ports.1 ports.2 then haltStation x.1 b .badDescriptor
        else
          let s1 := if c.rotating then x.1
            else
              modChn (dirs.foldl (fun t w => passSlots t i w r) x.1) i fun y =>
                { y with rotating := true, layer := d.layer, tag := d.tag,
                         east := if dirs.contains false then dirStarted s r d.layer y.east else y.east,
                         west := if dirs.contains true then dirStarted s r d.layer y.west else y.west }
          let s2 := dirs.foldl (fun t w => if stillGoing t b then passDir b i r q t w else t) s1
          let c2 := chnAt s2 i
          if c2.rotating && stillGoing s2 b && dirs.all (dirDone c2 r) then
            let b2 := rebind s2 b
            let s3 := modChn s2 i fun y => { y with rotating := false }
            settle (advance (notifyEvent s3 b2 d.notify .ok) b2) b.slot
          else pauseDone s2 b.slot

def execChurnRotate (die : Nat) (s : State) : Host.Outcome State Fault Refusal := churnCmd die 2 runRotate s

/-! ### Tiles (R243, R245) -/

/-- A discarded tile is counted: at a context of its tag where there is one (R245). (DESIGN CHOICE, log 99.) -/
def strayTile (s : State) (die : Nat) (west : Bool) (tag : Word) : State :=
  let same := (List.range 4).filter fun c => match (chnAt s (4 * die + c)).ring with
    | some r => r.tag == tag
    | none => false
  let at' := if same.isEmpty then List.range 4 else same
  let i := 4 * die + at'.getD (choose at'.length s.free) 0
  let o := (chnDir (chnAt s i) west).stray
  ctrSat (chnReg i west 0x48) o (satAdd o 1) (modDir (tick1 s) i west fun d => { d with stray := satAdd d.stray 1 })

/-- The open context of a die whose ring has the tag and whose direction the die serves. -/
def tileCtx (s : State) (die : Nat) (west : Bool) (tag : Word) : Option (Nat × RingRec) :=
  ((List.range 4).filterMap fun c => match (chnAt s (4 * die + c)).ring with
    | some r => if (chnAt s (4 * die + c)).state = 2 && r.tag == tag && (ringDirs r die).contains west
        then some (4 * die + c, r) else none
    | none => none).head?

/-- The origin of a tile after `hop` hops (R245, R246). -/
def originOf (r : RingRec) (west : Bool) (hop : Nat) : Nat :=
  if west then (r.rank + hop) % r.n else (r.rank + r.n - hop % r.n) % r.n

/-- The address of the next free slot, in ring order from the last one used. -/
def freeSlot (r : RingRec) (west : Bool) (d : ChnDir) : Option (Nat × Nat) :=
  ((List.range r.slotN).filterMap fun k =>
    let n := (d.next + k) % r.slotN
    let a := ringBase r west + n * r.slotBytes
    if d.slots.any fun u => u.addr == a then none else some (n, a)).head?

/-- A tile lands in a slot (R243). -/
def landRing (s : State) (i : Nat) (west : Bool) (r : RingRec) (tile : Bytes) (cur : Bool) (n a : Nat) : State :=
  let f := byteAt tile 10
  let hop := leAt tile 6 2
  let u : RxSlot := ⟨a, tile.length, hop, leAt tile 8 2, bit f 2, bit f 1, true, false, decide (hop + 1 < r.n),
    if cur && (chnDir (chnAt s i) west).credits == 0 then some s.now else none, none⟩
  modDir ((memWrite s a tile).getD s) i west fun d =>
    { d with slots := d.slots ++ [u], next := (n + 1) % r.slotN, bytesRx := d.bytesRx + BitVec.ofNat 64 tile.length,
             endsIn := if cur && bit f 1 then d.endsIn + 1 else d.endsIn, lastRx := s.now }

/-- RING_TILE_ARRIVAL (R243-R245). A tile of a block not admitted, or with no slot free, waits outside. (DEDUCED, log 97.) -/
def execRingTileArrival (die : Nat) (west : Bool) (tile : Bytes) (s : State) : Host.Outcome State Fault Refusal :=
  onUnit die 2 "die" <|
    let tag := BitVec.ofNat 32 (leAt tile 0 4)
    match tileCtx s die west tag with
    | none => strayTile s die west tag
    | some (i, r) =>
      let c := chnAt s i
      let d := chnDir c west
      let hop := leAt tile 6 2
      let expected := c.rotating && decide (d.endsIn + 1 < r.n)
      let cur := expected && leAt tile 8 2 == c.layer
      if hop = 0 || r.n ≤ hop || leAt tile 4 2 != originOf r west hop || (expected && !cur) || r.slotBytes < tile.length then
        let s1 := alarm s 4 (Config.argPack [i % 4, die])
        match bound s1 .churn die with
        | none => failCtx s1 i .order .internal
        | some b => if c.rotating then failCtx s1 i .order .internal else haltStation (failCtx s1 i .order .internal) b .internal
      else if decide ((if cur then d.admitted else r.depth) < hop) then s
      else match freeSlot r west d with
        | none => s
        | some (n, a) => landRing s i west r tile cur n a

/-! ### CLOSE (R253) -/

def runClose (b : Bound) (d : ChurnDesc) (s : State) : State :=
  let c := chnAt s (4 * b.st.unit + d.ctx)
  match c.ring with
  | none => haltStation s b .badDescriptor
  | some r =>
    if c.state = 0 || (ringDies r).any (fun x => (chnAt s (4 * x + d.ctx)).rotating) then haltStation s b .badDescriptor
    else
      let s1 := modRingCtx s r d.ctx closedCtx
      settle (advance (notifyEvent s1 b d.notify .ok) b) b.slot

def execChurnClose (die : Nat) (s : State) : Host.Outcome State Fault Refusal := churnCmd die 3 runClose s

end Sys2Proof.Machine
end

