-- ==== Sys2Proof/Machine/Operands.lean ====
section
/-! DEFINITION. Address arguments (R377): a place in module memory (AS 0) or in host memory (AS 1). -/

namespace Sys2Proof.Machine

/-- Its fields hold nothing reserved. -/
def argOk (a : AddrArg) : Bool := a.space < 2 && a.addr < 2 ^ 48

/-- What a read through an address argument gives: BAD_DESCRIPTOR at a hole, PAGE_POISONED at an uncorrectable sector,
PAGE_FAULT at a host page that is not present. -/
def argRead (s : State) (a : AddrArg) (n : Nat) : State × Except Status Bytes :=
  if !argOk a then (s, .error .badDescriptor)
  else if a.space = 1 then
    if hostPresent s a.addr n then (s, .ok (hostPeek s a.addr n)) else (s, .error .pageFault)
  else
    let r := memRead s a.addr n
    match r.2 with
    | .hole => (r.1, .error .badDescriptor)
    | .bad _ _ => (r.1, .error .pagePoisoned)
    | .ok b => (r.1, .ok b)

/-- A write through an address argument, all of it or none. -/
def argWrite (s : State) (a : AddrArg) (b : Bytes) : Except Status State :=
  if !argOk a then .error .badDescriptor
  else if a.space = 1 then
    if hostPresent s a.addr b.length then .ok (hostPoke s a.addr b) else .error .pageFault
  else
    match memWrite s a.addr b with
    | none => .error .badDescriptor
    | some t => .ok t

/-- The place `off` bytes further on. -/
def argAt (a : AddrArg) (off : Nat) : AddrArg := { a with addr := a.addr + off }

/-- An address argument in its 8 bytes: the address, AS, and whether the rest is zero. -/
def argOf (v : Nat) : AddrArg × Bool := (⟨bits v 48 2, bits v 0 48⟩, bits v 50 14 == 0)

end Sys2Proof.Machine
end

