-- ==== Sys2Proof/Machine/Fabric.lean ====
section
/-! DEFINITION. The Zheip fabric: training, cells and frames, replay, packets and routes, discovery, the cabling plan and
Equinox (chapter 13). -/

namespace Sys2Proof.Machine

/-! ### Links and their registers -/

/-- Ports 0 to 3 are board, 12 to 15 optical (Table 13-1). -/
def boardPort (p : Nat) : Bool := decide (p < 4)
def opticalPort (p : Nat) : Bool := decide (12 ≤ p)

/-- The router that serves a port (Table 13-1). -/
def portDie (p : Nat) : Nat := if p < 4 then p % 2 else if p < 8 then 0 else if p < 12 then 1 else p % 2

/-- The router runs: the fast clocks are not gated (R285), and in HOLD and WITHDRAWN it keeps forwarding (R276, R387).
(DESIGN CHOICE, log 108.) -/
def fabUp (s : State) : Bool := s.pwr.state == .active || s.pwr.state == .hold || s.pwr.state == .withdrawn

def phaseCode (p : Phase) : Nat :=
  match p with
  | .off => 0 | .detect => 1 | .equalise => 2 | .align => 3 | .handshake => 4 | .active => 5 | .down => 6

def linkCauseCode (c : LinkCause) : Nat :=
  match c with
  | .none => 0 | .layout => 1 | .width => 2 | .trainTimeout => 3 | .retry => 4 | .los => 5 | .disabled => 6

/-- FAB_LINK_STATUS (Table 13-13). -/
def linkStatus (x : Link) : Nat :=
  phaseCode x.phase + 2 ^ 15 * flag x.presetUsed + 2 ^ 16 * (x.lanesUp % 256) + 2 ^ 24 * linkCauseCode x.cause

/-- A per-port counter steps (Table 21-3). -/
def countPort (s : State) (p off : Nat) (get : Fab → List Word) (put : Fab → List Word → Fab) : State :=
  let old := (get s.fab).getD p 0#32
  ctrSat (0x00400000 + off + 16 * p) old (satAdd old 1) { s with fab := put s.fab ((get s.fab).modify p fun w => satAdd w 1) }

def countReplay (s : State) (p : Nat) : State := countPort s p 0x908 (·.replay) fun f l => { f with replay := l }
def countRetrain (s : State) (p : Nat) : State := countPort s p 0x90C (·.retrain) fun f l => { f with retrain := l }

def routerAt (s : State) (d : Nat) : RouterCtr := s.fab.routers.getD d routerAtThaw

/-- A router's counter steps by `k`. -/
def countRouter (s : State) (d off k : Nat) (get : RouterCtr → Word) (put : RouterCtr → Word → RouterCtr) : State :=
  let old := get (routerAt s d)
  ctrSat (0x00400A00 + 0x20 * d + off) old (satAdd old k) (modRouter s d fun r => put r (satAdd (get r) k))

def countLost (s : State) (d k : Nat) : State := countRouter s d 0x00 k (·.lost) fun r w => { r with lost := w }
def countBad (s : State) (d : Nat) : State := countRouter s d 0x04 1 (·.bad) fun r w => { r with bad := w }
def countNoRoute (s : State) (d : Nat) : State := countRouter s d 0x08 1 (·.noroute) fun r w => { r with noroute := w }
def countHops (s : State) (d : Nat) : State := countRouter s d 0x0C 1 (·.hops) fun r w => { r with hops := w }
def countStall (s : State) (d : Nat) : State := countRouter s d 0x10 1 (·.stall) fun r w => { r with stall := w }

/-! ### The cabling plan (R298, R299) -/

/-- LOC of a link. -/
def locOf (l : Nat) : Nat := l / 4 + 16 * (l % 4)
/-- The link a LOC names. -/
def linkOfLoc (loc : Nat) : Nat := 4 * (loc % 16) + loc / 16 % 4

/-- What a link sees: the peer's address and LOC, from its discovery record. -/
def seenAt (s : State) (l : Nat) : Option (Nat × Nat) := (linkAt s l).nbr.map fun r => (r.addr % 65536, r.port % 16 + 16 * (r.link % 4))

def linkActive (s : State) (l : Nat) : Bool := (linkAt s l).phase == .active

/-- A report entry: LOC, KIND, ARG and the peer seen. -/
structure ReportEntry where
  loc  : Nat
  kind : Nat
  arg  : Nat
  seen : Option (Nat × Nat)
  deriving DecidableEq, Repr

/-- The plan entry whose peer this link sees, and whose link sees this entry's peer. -/
def swappedWith (s : State) (plan : List PlanEntry) (e : PlanEntry) : Option PlanEntry :=
  plan.find? fun x =>
    x.loc != e.loc && linkActive s (linkOfLoc x.loc) && seenAt s (linkOfLoc e.loc) == some (x.peer, x.peerLoc)
      && seenAt s (linkOfLoc x.loc) == some (e.peer, e.peerLoc)

/-- Which module of CHAIN a link sees: k, from 1. -/
def bypassedTo (e : PlanEntry) (seen : Nat × Nat) : Option Nat :=
  let p := e.loc % 16
  let most := if boardPort p then 2 else if opticalPort p then 4 else 0
  (((e.chain.take e.nchain).take most).findIdx? fun a => seen == (a, e.peerLoc)).map (· + 1)

/-- The first KIND that applies to a plan entry (Table 13-10). -/
def reportOf (s : State) (plan : List PlanEntry) (e : PlanEntry) : ReportEntry :=
  let l := linkOfLoc e.loc
  let seen := if linkActive s l then seenAt s l else none
  if !linkActive s l then ⟨e.loc, if e.opt then 2 else 1, 0, none⟩
  else match swappedWith s plan e with
    | some x => ⟨e.loc, 4, x.loc, seen⟩
    | none =>
      match seen.bind (bypassedTo e) with
      | some k => ⟨e.loc, 5, k, seen⟩
      | none =>
        if seen != some (e.peer, e.peerLoc) then ⟨e.loc, 3, 0, seen⟩
        else if (linkAt s l).width ≠ 2 ^ e.width then ⟨e.loc, 6, (linkAt s l).width, seen⟩
        else ⟨e.loc, 0, 0, seen⟩

/-- The whole report: plan entries, then unexpected links in LOC order. (DEDUCED, log 115.) -/
def reportAll (s : State) (plan : List PlanEntry) : List ReportEntry :=
  plan.map (reportOf s plan) ++
    (((List.range 64).filter fun loc => linkActive s (linkOfLoc loc) && !(plan.any fun e => e.loc == loc)).map
      fun loc => ⟨loc, 7, 0, seenAt s (linkOfLoc loc)⟩)

def reportBytes (r : ReportEntry) : Bytes :=
  leBytes 1 r.loc ++ leBytes 1 r.kind ++ leBytes 1 r.arg ++ leBytes 1 0
    ++ (match r.seen with
        | some p => leBytes 2 p.1 ++ leBytes 1 p.2
        | none => leBytes 2 0 ++ leBytes 1 0xFF) ++ leBytes 1 0

/-- FAB_CABLE_SUMMARY of a report. -/
def summaryOf (rs : List ReportEntry) : Nat :=
  ((List.range 8).map fun k => min 15 (rs.filter fun r => r.kind == k).length * 16 ^ k).sum

/-- The stored plan is checked again: the summary, and the alarm on the first result that is not MATCH (R298). (DEDUCED, log 115.) -/
def cableRecheck (s : State) : State :=
  match s.fab.plan with
  | none => s
  | some plan =>
    let rs := reportAll s plan
    let s1 := { s with fab := { s.fab with cableSum := BitVec.ofNat 32 (summaryOf rs) } }
    match rs.find? fun r => r.kind != 0 with
    | none => s1
    | some r => if s.fab.cableBad then s1 else alarm { s1 with fab := { s1.fab with cableBad := true } } 8 r.loc

def planEntryOf (b : Bytes) : PlanEntry :=
  { loc := byteAt b 0, peerLoc := byteAt b 1, width := byteAt b 2 % 4, opt := bit (byteAt b 3) 0, nchain := byteAt b 3 / 2 % 8,
    peer := leAt b 4 2, chain := (List.range 4).map fun i => leAt b (6 + 2 * i) 2 }

def planEntryOk (b : Bytes) : Bool :=
  byteAt b 0 / 64 == 0 && byteAt b 1 / 64 == 0 && byteAt b 2 / 4 == 0 && byteAt b 3 / 16 == 0 && decide (byteAt b 3 / 2 % 8 ≤ 4)
    && leAt b 14 2 == 0

/-- A cabling plan, validated (R298). (DEDUCED, log 115.) -/
def planOf (b : Bytes) : Option (List PlanEntry) :=
  let n := leAt b 2 2
  let es := (List.range n).map fun i => sub b (32 + 16 * i) 16
  let locs := es.map fun x => byteAt x 0
  if leAt b 0 2 = 0x5A43 && decide (n ≤ 64) && allZero (sub b 4 28) && es.all planEntryOk && decide locs.Nodup then
    some (es.map planEntryOf)
  else none

/-- CABLE_CHECK: the plan validated, the report written, the plan kept (R298, R299). -/
def opCableCheck (h : HostHdr) (plan report : AddrArg) (s : State) : State :=
  if !argOk plan || !argOk report then complete s h .badDescriptor 0
  else
    let a := argRead s plan 32
    match a.2 with
    | .error st => complete a.1 h st 0
    | .ok hd =>
      let n := min 64 (leAt hd 2 2)
      let b := argRead a.1 (argAt plan 32) (16 * n)
      match b.2 with
      | .error st => complete b.1 h st 0
      | .ok es =>
        match planOf (hd ++ es) with
        | none => complete b.1 h .badDescriptor 0
        | some p =>
          let rs := reportAll b.1 p
          let s1 := cableRecheck { b.1 with fab := { b.1.fab with plan := some p, cableBad := false } }
          match argWrite s1 report (leBytes 4 rs.length ++ (rs.map reportBytes).flatten) with
          | .error st => complete s1 h st 0
          | .ok t => complete t h .ok 0

def execCableCheck (h : HostHdr) (plan report : AddrArg) (s : State) : Host.Outcome State Fault Refusal :=
  hostCmd s h .module false (opCableCheck h plan report)

/-! ### Cells (R287) -/

/-- A product in GF(2^10) with x^10 + x^3 + 1: the low `n` bits of `b` are taken. -/
def gfMul : Nat → Nat → Nat → Nat
  | 0, _, _ => 0
  | n + 1, a, b =>
    let a2 := if 1024 ≤ 2 * a then (2 * a) ^^^ 0x409 else 2 * a
    (if b % 2 = 1 then a else 0) ^^^ gfMul n a2 (b / 2)

def gfPow (a : Nat) : Nat → Nat
  | 0 => 1
  | n + 1 => gfMul 10 a (gfPow a n)

/-- The 55 symbols of a cell, highest power first: 52 of data, three of check. (DEDUCED, log 112.) -/
def cellSymbols (c : BitVec 544) : List Nat :=
  let d := bits c.toNat 2 512
  ((List.range 52).map fun i => bits d (10 * i) 10) ++ (List.range 3).map fun i => bits c.toNat (514 + 10 * i) 10

/-- The word's value at a point (Horner). -/
def gfEval (x : Nat) (ss : List Nat) : Nat := ss.foldl (fun v t => gfMul 10 v x ^^^ t) 0

/-- The power and value of a single wrong symbol: none where the cell is good or has more errors. -/
def cellError (ss : List Nat) : Option (Nat × Nat) :=
  let s0 := gfEval 1 ss
  let s1 := gfEval 2 ss
  let s2 := gfEval 4 ss
  if s0 = 0 then none
  else ((List.range 55).find? fun p => gfMul 10 s0 (gfPow 2 p) == s1 && gfMul 10 s0 (gfPow 4 p) == s2).map fun p => (p, s0)

/-- The 64 data bytes of a cell after correction, and whether a symbol was corrected. (DEDUCED, log 112.) -/
def cellData (c : BitVec 544) : Bytes × Bool :=
  let ss := cellSymbols c
  let fixed := match cellError ss with
    | some e => ss.set (54 - e.1) (ss.getD (54 - e.1) 0 ^^^ e.2)
    | none => ss
  (leBytes 64 (packNat10 (fixed.take 52)), (cellError ss).isSome)
where
  packNat10 : List Nat → Nat
    | [] => 0
    | x :: t => x % 1024 + 1024 * packNat10 t

/-- The three check symbols of a cell's 52 data symbols, highest power first: the remainder by (x - 1)(x - α)(x - α²), whose
coefficients are 7, 14 and 8. -/
def cellChecks (ds : List Nat) : Nat × Nat × Nat :=
  ds.foldl (fun r d =>
    let q := d ^^^ r.1
    (r.2.1 ^^^ gfMul 10 q 7, r.2.2 ^^^ gfMul 10 q 14, gfMul 10 q 8)) (0, 0, 0)

/-- A data cell of 64 bytes (R287). (DEDUCED, log 112.) -/
def cellOf (b : Bytes) : BitVec 544 :=
  let d := leAt b 0 64
  let r := cellChecks ((List.range 52).map fun i => bits d (10 * i) 10)
  BitVec.ofNat 544 (1 + 4 * d + 2 ^ 514 * r.1 + 2 ^ 524 * r.2.1 + 2 ^ 534 * r.2.2)

/-- A frame's 32 cells striped: cell i goes to lane i mod width (R288). -/
def frameLanes (width : Nat) (b : Bytes) : List (List (BitVec 544)) :=
  (List.range width).map fun k => ((List.range 32).filter fun i => i % width == k).map fun i => cellOf (sub b (64 * i) 64)

/-- The 2,048 bytes of a frame's cells and the corrections made; none where they are not 32 data cells. (DEDUCED, log 112.) -/
def frameBytes32 (cells : List (BitVec 544)) : Option (Bytes × Nat) :=
  if cells.length = 32 && cells.all fun c => bits c.toNat 0 2 == 1 then
    let ds := cells.map cellData
    some ((ds.map Prod.fst).flatten, (ds.filter fun d => d.2).length)
  else none

/-! ### Frames as they are sent (R288, R289) -/

/-- The bytes of a frame that a link sends (Table 13-5): its sequence number and TYPE, the last frame accepted in order with NAK, up to
255 of each credit owed, the body, and CHECK. -/
def sentBytes (x : Link) (type seq : Nat) (body : Bytes) : Bytes :=
  let b := leBytes 2 (seq % 4096 + 4096 * type) ++ leBytes 2 (x.rxLast + 2 ^ 15 * flag x.nak)
    ++ ((List.range 8).map fun i => BitVec.ofNat 8 (min 255 (x.owed.getD i 0))) ++ padTo 2032 body
  b ++ leBytes 4 (crc32c b)

/-- A frame goes out on the lanes; NAK is said once for the gap, and what CREDIT carried is no longer owed. -/
def sendFrame (type : Nat) (x : Link) (f : TxFrame) : Link :=
  { x with wire := x.wire ++ [.frame (frameLanes x.width (sentBytes x type f.seq f.body))], nak := false, ackSent := x.rxLast,
           owed := x.owed.map (· - 255) }

/-- A control frame goes out where an ACK, a NAK or credits wait and no other frame has carried them. (DESIGN CHOICE, log 113.) -/
def flushCtl (x : Link) : Link :=
  if x.phase == .active && (x.nak || x.ackSent != x.rxLast || x.owed.any (· != 0)) then sendFrame 2 x ⟨x.txSeq, [], 0⟩ else x

/-! ### Packets -/

/-- The 32-byte header of a packet with its payload (Table 13-6). -/
def packetBytes (p : Packet) : Bytes :=
  leBytes 1 p.kind ++ leBytes 1 (p.vc % 4 + 4 * flag p.dl) ++ leBytes 2 p.dst ++ leBytes 2 p.src ++ leBytes 1 p.hops ++ leBytes 1 0
    ++ leBytes 2 p.len ++ leBytes 2 0 ++ leBytes 4 p.tag32.toNat ++ padTo 16 p.kw ++ p.payload

def packetOf (b : Bytes) : Packet :=
  { kind := byteAt b 0, vc := byteAt b 1 % 4, dl := bit (byteAt b 1) 2, dst := leAt b 2 2, src := leAt b 4 2, hops := byteAt b 6,
    len := leAt b 8 2 % 8192, tag32 := BitVec.ofNat 32 (leAt b 12 4), kw := sub b 16 16, payload := b.drop 32,
    reservedClear := byteAt b 1 / 8 == 0 && byteAt b 7 == 0 && leAt b 8 2 / 8192 == 0 && leAt b 10 2 == 0 }

/-! ### Training (R284-R286) -/

/-- A link descriptor of FAB_PORT_CFG: its width (0 where not enabled) and first lane. -/
def linkField (cfg : Word) (k : Nat) : Nat × Nat :=
  let b := bits cfg.toNat (8 * k) 8
  (if bit b 7 then 2 ^ bits b 5 2 else 0, b % 8)

/-- The links of a port keep alignment and do not overlap. -/
def layoutOk (cfg : Word) : Bool :=
  let fs := ((List.range 4).map (linkField cfg)).filter fun f => f.1 != 0
  fs.all (fun f => f.2 % f.1 == 0 && decide (f.2 + f.1 ≤ 8))
    && decide ((fs.map fun f => (List.range f.1).map (f.2 + ·)).flatten.Nodup)

/-- The bits of FAB_PORT_CFG that are not reserved (Table 13-3). -/
def portCfgMask : Word := 0xE7E7E7E7#32

/-- A link at DETECT sends its identity beacon: digest, port and link (R285). -/
def beaconed (l : Nat) (x : Link) : Link := { x with wire := x.wire ++ [.beacon identityDigest (l / 4) (l % 4)] }

/-- A link as TRAIN sets it out from its port's layout. (DEDUCED, log 116.) -/
def linkLaid (s : State) (l : Nat) (x : Link) : Link :=
  let cfg := s.fab.portCfg.getD (l / 4) 0#32
  let f := linkField cfg (l % 4)
  if !layoutOk cfg then { x with phase := .off, cause := .layout, width := 0, first := 0 }
  else if f.1 = 0 then { x with phase := .off, cause := .none, width := 0, first := 0 }
  else if x.disable then { x with phase := .down, cause := .disabled, width := f.1, first := f.2, phaseAt := s.now }
  else beaconed l
    { x with phase := .detect, cause := .none, width := f.1, first := f.2, full := true, presetUsed := false, phaseAt := s.now }

/-- The codes of PWR_STATUS.STATE and of the Almanac's MSTATE (Table 17-10). -/
def mstateCode (p : PwrState) : Nat :=
  match p with
  | .off => 0 | .standby => 1 | .thaw => 2 | .idle => 3 | .active => 4 | .hold => 5 | .withdrawn => 6

/-- A DISC packet of this module for one of its links (R297). -/
def discPacket (s : State) (l : Nat) : Packet :=
  newPacket s 0x31 0 0#32 (Config.kwLayout 0x31 [identityDigest, s.fab.addr + 2 ^ 16 * flag s.fab.assigned, l / 4, l % 4, (linkAt s l).width, mstateCode s.pwr.state,
    flag s.pwr.bypassB, flag s.pwr.bypassO]) []

/-- FAB_CTRL.TRAIN: every enabled link trains at once. -/
def opFabTrain (value : Word) (s : State) : State :=
  if s.hif.lock then s
  else
    let s1 := { s with fab := { s.fab with train := value.getLsbD 0 } }
    if value.getLsbD 0 && !s.fab.laid then
      { s1 with fab := { s1.fab with laid := true, links := (numbered s.fab.links 0).map fun p => linkLaid s p.1 p.2 } }
    else s1

def execFabTrain (value : Word) (s : State) : Host.Outcome State Fault Refusal := whenUp s (opFabTrain value s)

/-- Packets the replay buffer and the transmit queue hold. -/
def linkPackets (x : Link) : Nat := (x.unacked.map fun f => f.ends).sum + x.txq.length

/-- A link goes DOWN: its packets are dropped and counted, its neighbour forgotten; an ACTIVE link that goes down is alarmed,
the plan is checked again, and rings over it fail (R251, R286, R290, R297, R298). (DEDUCED, log 116.) -/
def linkDown (s : State) (l : Nat) (c : LinkCause) : State :=
  let x := linkAt s l
  let was := x.phase == .active
  let n := linkPackets x
  let s1 := modLink s l fun y =>
    { y with phase := .down, cause := c, lanesUp := 0, phaseAt := s.now, nbr := none, unacked := [], txq := [], stalled := [],
             rxPart := [], owed := List.replicate 8 0, credits := List.replicate 8 0, peer := none }
  let s2 := if n = 0 then s1 else event (countLost s1 (portDie (l / 4)) n) ⟨0x04, .ok, 4, l / 4, l, n⟩
  let s3 := event s2 ⟨0x03, .ok, 4, l / 4, l, linkStatus (linkAt s2 l)⟩
  if was then
    let s4 := alarm s3 9 (Config.argPack [l / 4, l % 4, linkCauseCode c])
    let s5 := if s.fab.eqxPort == l / 4 && s.fab.eqxLink == l % 4 then { s4 with fab := { s4.fab with eqxSentT1 := none } } else s4
    churnLinkDown (cableRecheck s5) l
  else s3

/-- The preset of a link and its peer. -/
def presetMatch (l : Nat) (p : PeerInfo) (x : Preset) : Bool :=
  x.port == l / 4 && x.link == l % 4 && x.peer.digest == p.digest && x.peer.port == p.port && x.peer.link == p.link

/-- A key becomes the most recently used of at most 256 entries (R286). -/
def usePreset (s : State) (l : Nat) (p : PeerInfo) : State :=
  let rest := s.fab.presets.filter fun x => !presetMatch l p x
  { s with fab := { s.fab with presets := (⟨l / 4, l % 4, p⟩ :: rest).take 256 } }

/-- A link that has trained: its stored presets, its sequence numbers, its credits. -/
def linkUp (s : State) (l : Nat) : State :=
  let x := linkAt s l
  let s1 := modLink s l fun y =>
    { y with phase := .active, cause := .none, lanesUp := y.width, phaseAt := s.now, txSeq := 0, unacked := [], ackAt := s.now,
             replays := 0, rxLast := 4095, ackSent := 4095, nak := false, gap := false, rxPart := [],
             credits := (List.range 8).map fun i => Config.linkCredits (s.free + i), owed := List.replicate 8 0, txq := [], stalled := [] }
  let s2 := { s1 with free := s1.free + 8 }
  let s3 := match x.peer with
    | some p => if x.full && !opticalPort (l / 4) then usePreset s2 l p else s2
    | none => s2
  cableRecheck s3

/-- What the control frame at HANDSHAKE carries: the link's width, the credits this end grants, and its DISC record (R285, R297).
(DESIGN CHOICE, log 113.) -/
def handshakeBody (s : State) (l : Nat) : Bytes :=
  Config.kwLayout 0 ((linkAt s l).width :: (List.range 8).map Config.linkCredits) ++ packetBytes (discPacket s l)

/-- LINK_PHASE_DONE: a training phase ends; `peer` is what the beacon or the handshake shows. -/
def opLinkPhase (l : Nat) (peer : PeerInfo) (s : State) : State :=
  let x := linkAt s l
  if !fabUp s then s
  else match x.phase with
    | .detect =>
      let stored := !opticalPort (l / 4) && s.fab.presets.any (presetMatch l peer)
      let s1 := if stored then usePreset s l peer else s
      modLink s1 l fun y =>
        { y with phase := .equalise, phaseAt := s.now, peer := some peer, presetUsed := stored, full := !stored }
    | .equalise => modLink s l fun y => { y with phase := .align, phaseAt := s.now }
    | .align => modLink s l fun y => sendFrame 2 { y with phase := .handshake, phaseAt := s.now } ⟨0, handshakeBody s l, 0⟩
    | .handshake => if peer.width = x.width then linkUp s l else linkDown s l .width
    | _ => s

def execLinkPhaseDone (link : Nat) (peer : PeerInfo) (s : State) : Host.Outcome State Fault Refusal :=
  onUnit link 64 "link" (opLinkPhase link peer s)

/-- The limit of a phase in ns (Table 13-4). -/
def phaseLimit (l : Nat) (x : Link) : Option Nat :=
  match x.phase with
  | .equalise => some (if opticalPort (l / 4) then 20000000 else if x.full then 200000000 else 2000000)
  | .align => some 1000000
  | .handshake => some 1000000
  | _ => none

/-- TRAIN_TIMEOUT: an EQUALISE from presets falls back to full training; any other phase takes the link down (R286). -/
def execTrainTimeout (link : Nat) (s : State) : Host.Outcome State Fault Refusal :=
  onUnit link 64 "link" <|
    let x := linkAt s link
    match phaseLimit link x with
    | none => s
    | some t =>
      if s.now < x.phaseAt + t then s
      else if x.phase == .equalise && x.presetUsed && !x.full then
        modLink s link fun y => { y with full := true, presetUsed := false, phaseAt := s.now }
      else linkDown s link .trainTimeout

/-- LINK_RESTART: a DOWN link starts again 10 ms later, unless it is disabled (R286). -/
def execLinkRestart (link : Nat) (s : State) : Host.Outcome State Fault Refusal :=
  onUnit link 64 "link" <|
    let x := linkAt s link
    if x.phase == .down && !x.disable && x.phaseAt + 10000000 ≤ s.now then
      countRetrain (modLink s link fun y =>
        beaconed link { y with phase := .detect, cause := .none, presetUsed := false, full := true, phaseAt := s.now }) (link / 4)
    else s

/-- LOSS_OF_SIGNAL: a link that trains or runs goes DOWN (R300, R304). -/
def execLossOfSignal (link : Nat) (s : State) : Host.Outcome State Fault Refusal :=
  onUnit link 64 "link" <|
    match (linkAt s link).phase with
    | .off => s
    | .detect => s
    | .down => s
    | _ => linkDown s link .los

/-! ### Frames and packets on a link (R288-R292) -/

/-- Packets of a byte stream, and the bytes of one not yet whole. A zero byte at a packet's place ends the frame's packets. -/
def streamPackets : Nat → Bytes → List Packet × Bytes
  | 0, b => ([], b)
  | n + 1, b =>
    if b.isEmpty || byteAt b 0 = 0 then ([], [])
    else
      let k := 32 + leAt b 8 2 % 8192
      if b.length < 32 || b.length < k then ([], b)
      else
        let r := streamPackets n (b.drop k)
        (packetOf (b.take k) :: r.1, r.2)

/-- Credits a packet takes, in 256-byte units (Table 13-5). -/
def packetCredits (p : Packet) : Nat := (32 + p.len + 255) / 256

/-- The index of a packet's virtual channel and class. -/
def vcIndex (p : Packet) : Nat := 2 * (p.vc % 4) + flag p.dl

/-- Frames of the replay buffer that a link may hold: its share of the port's 512 (R289). -/
def replayShare (s : State) (l : Nat) : Nat :=
  512 / max 1 ((List.range 4).filter fun k => (linkAt s (4 * (l / 4) + k)).width != 0).length

/-- A packet's bytes cut into frame bodies; the last frame ends the packet. (DESIGN CHOICE, log 113.) -/
def packetFrames (b : Bytes) (seq : Nat) : List TxFrame :=
  let n := (b.length + 2031) / 2032
  (List.range n).map fun i => ⟨(seq + i) % 4096, padTo 2032 ((b.drop (2032 * i)).take 2032), flag (i + 1 == n)⟩

/-- What waits for the link goes as far as credits and the replay buffer allow; a packet never passes one of its own channel and
class. (DESIGN CHOICE, log 113.) -/
def pump (share : Nat) (now : Nat) : List (Packet × Nat) → List Nat → Link → Link
  | [], _, x => x
  | p :: t, held, x =>
    let k := vcIndex p.1
    let fs := packetFrames (packetBytes p.1) x.txSeq
    if held.contains k || x.credits.getD k 0 < packetCredits p.1 || share < x.unacked.length + fs.length then
      pump share now t (k :: held) { x with txq := x.txq ++ [p] }
    else
      pump share now t held <| fs.foldl (sendFrame 0)
        { x with credits := x.credits.modify k (· - packetCredits p.1), txSeq := (x.txSeq + fs.length) % 4096,
                 ackAt := if x.unacked.isEmpty then now else x.ackAt, unacked := x.unacked ++ fs,
                 stalled := x.stalled.filter fun i => !(i == k) }

def pumpLink (s : State) (l : Nat) : State :=
  let share := replayShare s l
  modLink s l fun x => pump share s.now x.txq [] { x with txq := [] }

/-- A packet goes to a link's transmit queue. -/
def queuePacket (s : State) (l : Nat) (p : Packet) : State :=
  pumpLink (modLink s l fun x => { x with txq := x.txq ++ [(p, s.now)] }) l

/-- Every unacknowledged frame goes again; after sixteen replays without progress the link goes DOWN (R289, R290). -/
def replay (s : State) (l : Nat) : State :=
  let x := linkAt s l
  if x.unacked.isEmpty then s
  else if 16 ≤ x.replays then linkDown s l .retry
  else countReplay (modLink s l fun y =>
    y.unacked.foldl (sendFrame 0) { y with replays := y.replays + 1, ackAt := s.now }) (l / 4)

/-- ACK, NAK and CREDIT of a frame (R289, Table 13-5). -/
def takeAck (s : State) (l : Nat) (f : Bytes) : State :=
  let a := leAt f 2 2 % 4096
  let s1 := modLink s l fun x =>
    let x1 := match x.unacked.findIdx? fun u => u.seq == a with
      | some i => { x with unacked := x.unacked.drop (i + 1), replays := 0, ackAt := s.now }
      | none => x
    { x1 with credits := (numbered x1.credits 0).map fun p => p.2 + byteAt f (4 + p.1) }
  pumpLink (if bit (leAt f 2 2) 15 then replay s1 l else s1) l

/-- A frame is not accepted: NAK once for the gap (R289). -/
def refuseFrame (s : State) (l : Nat) : State := modLink s l fun x => { x with nak := !x.gap || x.nak, gap := true }

/-- A frame's body joins the stream; its whole packets reach the router. -/
def takeBody (s : State) (l : Nat) (body : Bytes) : State :=
  let x := linkAt s l
  let r := streamPackets 128 (x.rxPart ++ body)
  let s1 := modLink s l fun y => { y with rxPart := r.2 }
  { s1 with fab := { s1.fab with rxq := s1.fab.rxq.modify (portDie (l / 4)) fun q => q ++ r.1.map fun p => (p, some l) } }

/-- FRAME_RECEIVE: cells corrected, CHECK and FSEQ judged, ACK and credits taken, packets delivered to the router.
(DEDUCED, log 112.) -/
def takeFrameIn (l : Nat) (cells : List (BitVec 544)) (s : State) : State :=
  let x := linkAt s l
  if !(x.phase == .active) || !fabUp s then s
  else match frameBytes32 cells with
    | none => refuseFrame s l
    | some (f, fixed) =>
      let s1 := { s with fab := { s.fab with fecCorr := s.fab.fecCorr.modify (l / 4) fun w => w + BitVec.ofNat 64 fixed } }
      let type := leAt f 0 2 / 4096
      let seq := leAt f 0 2 % 4096
      if leAt f 2044 4 ≠ crc32c (f.take 2044) || 3 ≤ type then refuseFrame s1 l
      else if type = 2 then takeAck s1 l f
      else if seq = (x.rxLast + 1) % 4096 then
        let s2 := modLink s1 l fun y => { y with rxLast := seq, gap := false, nak := false }
        let s3 := if type = 0 then takeBody s2 l (sub f 12 2032) else s2
        takeAck s3 l f
      else if (x.rxLast + 4096 - seq) % 4096 < 2048 then s1
      else refuseFrame s1 l

/-- What is then due to the peer goes back. -/
def opFrameReceive (l : Nat) (cells : List (BitVec 544)) (s : State) : State := modLink (takeFrameIn l cells s) l flushCtl

def execFrameReceive (link : Nat) (cells : List (BitVec 544)) (s : State) : Host.Outcome State Fault Refusal :=
  onUnit link 64 "link" (opFrameReceive link cells s)

/-- REPLAY_TIMEOUT: no progress in ACK within FAB_RETRY_NS. -/
def execReplayTimeout (link : Nat) (s : State) : Host.Outcome State Fault Refusal :=
  onUnit link 64 "link" <|
    let x := linkAt s link
    if x.phase == .active && !x.unacked.isEmpty && x.ackAt + (s.fab.retryNs.getD (link / 4) 0#32).toNat ≤ s.now then replay s link else s

/-- FAB_STALL_EXPIRY: a VC class has held a packet without a credit for FAB_STALL_US (R291). -/
def execFabStallExpiry (link vc : Nat) (dl : Bool) (s : State) : Host.Outcome State Fault Refusal :=
  onUnit link 64 "link" <|
    let x := linkAt s link
    let k := 2 * (vc % 4) + flag dl
    let late := x.txq.any fun p =>
      vcIndex p.1 == k && decide (p.2 + 1000 * s.fab.stallUs.toNat ≤ s.now) && decide (x.credits.getD k 0 < packetCredits p.1)
    if late && !x.stalled.contains k then
      alarm (countStall (modLink s link fun y => { y with stalled := k :: y.stalled }) (portDie (link / 4))) 5
        (Config.argPack [link / 4, link % 4, vc % 4, flag dl])
    else s

/-! ### Routing (R293-R295) -/

/-- What R293 refuses. -/
def packetBad (p : Packet) : Bool :=
  kindVc p.kind != some p.vc || !p.reservedClear || !(p.len % 32 == 0 && decide (p.len ≤ 4096))

/-- Free credit of a link. -/
def linkCredit (s : State) (l : Nat) : Nat := (linkAt s l).credits.sum

/-- One of several links by the entry's SPREAD (R295); `hash` is the flow's. (DEDUCED, log 114.) -/
def spreadPick (s : State) (spread hash kind : Nat) (cs : List (Nat × Nat)) : Nat :=
  let flowed := cs.getD (hash % max 1 cs.length) (0, 0)
  if spread = 0 then (cs.getD 0 (0, 0)).1
  else if spread = 2 && (kind = 0x01 || kind = 0x10) then
    let best := cs.foldl (fun m c => max m c.2) 0
    let tops := cs.filter fun c => c.2 == best
    (tops.getD (choose tops.length s.free) (0, 0)).1
  else flowed.1

/-- The link a packet leaves by: the port of the mask, then the link of the port. (DEDUCED, log 114.) -/
def outLink (s : State) (e : Word) (p : Packet) : Option Nat :=
  let spread := bits e.toNat 28 2
  let hash := Config.flowHash [p.src, p.dst, p.kind, p.tag32.toNat]
  let ports := (List.range 16).filter fun q => e.getLsbD q && !(portLinks s q).isEmpty
  if !e.getLsbD 31 || spread = 3 || ports.isEmpty then none
  else
    let q := spreadPick s spread hash p.kind (ports.map fun q => (q, ((portLinks s q).map (linkCredit s)).sum))
    some (spreadPick s spread hash p.kind ((portLinks s q).map fun l => (l, linkCredit s l)))

/-- The buffer a packet held on its way in is free: its credits go back to the link it came by. -/
def returnCredits (s : State) (p : Packet) (src : Option Nat) : State :=
  match src with
  | none => s
  | some l => modLink s l fun x => flushCtl { x with owed := x.owed.modify (vcIndex p) (· + packetCredits p) }

/-- A packet delivered to the module's endpoints. (DESIGN CHOICE, log 119.) -/
def deliverPacket (s : State) (die : Nat) (p : Packet) : State :=
  { s with fab := { s.fab with delivered := s.fab.delivered.modify die fun q => q ++ [p] } }

/-- No way on: dropped, counted, and alarmed once per entry until FAB_NOROUTE is cleared. -/
def noRoute (s : State) (die tbl idx : Nat) : State :=
  let s1 := countNoRoute s die
  if s.fab.noRouteLatched.contains (tbl, idx) then s1
  else alarm { s1 with fab := { s1.fab with noRouteLatched := (tbl, idx) :: s1.fab.noRouteLatched } } 7 (Config.argPack [tbl, idx])

/-- A packet that leaves by the other die's port crosses the die link (R282, R311, class FABRIC). (DESIGN CHOICE, log 71.) -/
def dlFabric (s : State) (die l : Nat) (p : Packet) : State :=
  if portDie (l / 4) = die then s else dlCount s 1 die (packetBytes p).length

/-- One packet judged and forwarded (R293, R294). (DEDUCED, log 114.) -/
def routePacket (s : State) (die : Nat) (p : Packet) : State :=
  if packetBad p then countBad s die
  else if p.kind = 0x30 || p.kind = 0x31 then deliverPacket s die p
  else if !s.fab.assigned then countNoRoute s die
  else if p.dst = s.fab.addr then deliverPacket s die p
  else if p.hops ≤ 1 then alarm (countHops s die) 6 (Config.argPack [p.src, p.dst])
  else
    let r := routeOf s p.dst
    match outLink s r.1 p with
    | none => noRoute s die r.2.1 r.2.2
    | some l => queuePacket (tick1 (dlFabric s die l p)) l { p with hops := p.hops - 1, dl := p.dl || r.1.getLsbD 30 }

/-- PACKET_FORWARD: a router takes its oldest packet. -/
def execPacketForward (die : Nat) (s : State) : Host.Outcome State Fault Refusal :=
  onUnit die 2 "die" <|
    if !fabUp s then s
    else match s.fab.rxq.getD die [] with
      | [] => s
      | p :: t =>
        let s1 := { s with fab := { s.fab with rxq := s.fab.rxq.set die t } }
        routePacket (returnCredits s1 p.1 p.2) die p.1

/-! ### Registers with effects (R295-R297) -/

/-- The select register of a requester (R441); they start at 0. (DEDUCED, log 22.) -/
def selectOf (s : State) (q : Requester) (off : Nat) : Nat :=
  match s.hif.selects.find? fun x => x.1 == q && x.2.1 == off with
  | some x => x.2.2
  | none => 0

/-- DEDUCED, log 22. -/
def setSelect (s : State) (q : Requester) (off v : Nat) : State :=
  { s with hif := { s.hif with selects := (s.hif.selects.filter fun x => !(x.1 == q && x.2.1 == off)) ++ [(q, off, v)] } }

/-- The window offset of FAB_RT_SEL. -/
def rtSelOff : Nat := 0x00400804

/-- FAB_RT_ENTRY: the entry FAB_RT_SEL names, in both routers at once; its reserved bits stay zero. -/
def opRtEntry (req : Requester) (value : Word) (s : State) : State :=
  let sel := selectOf s req rtSelOff
  let v := value &&& 0xF000FFFF#32
  if bit sel 8 then { s with fab := { s.fab with region := s.fab.region.set (sel % 256) v } }
  else { s with fab := { s.fab with local_ := s.fab.local_.set (sel % 256) v } }

def execFabRtEntry (req : Requester) (value : Word) (s : State) : Host.Outcome State Fault Refusal := whenUp s (opRtEntry req value s)

/-- FAB_LSHAPE, FAB_LCOORD, FAB_LMAP_BASE (`which` 0, 1, 2): ignored, with BUSY, while any group is open (R296). -/
def opLshape (which : Nat) (value : Dword) (s : State) : State :=
  if !s.groups.isEmpty then { s with fab := { s.fab with lbusy := true } }
  else match which with
    | 0 => { s with fab := { s.fab with lshape := value.setWidth 32 } }
    | 1 => { s with fab := { s.fab with lcoord := value.setWidth 32 } }
    | _ => { s with fab := { s.fab with lmapBase := value.toNat % 2 ^ 48 } }

def execFabLshape (which : Nat) (value : Dword) (s : State) : Host.Outcome State Fault Refusal :=
  if which < 3 then whenUp s (opLshape which value s) else .refused (.noSuchUnit "register")

/-- DISC: the neighbour's record is kept while the link is at HANDSHAKE or ACTIVE (R297). -/
def execDisc (link : Nat) (rec : DiscRec) (s : State) : Host.Outcome State Fault Refusal :=
  onUnit link 64 "link" <|
    match (linkAt s link).phase with
    | .handshake => modLink s link fun x => { x with nbr := some rec }
    | .active => modLink s link fun x => { x with nbr := some rec }
    | _ => s

/-- FAB_DISCOVER: DISC goes again on every ACTIVE link. -/
def opDiscover (value : Word) (s : State) : State :=
  if value.getLsbD 0 && fabUp s then
    ((List.range 64).filter (linkActive s)).foldl (fun t l => queuePacket t l (discPacket t l)) s
  else s

def execFabDiscover (value : Word) (s : State) : Host.Outcome State Fault Refusal := whenUp s (opDiscover value s)

/-! ### Equinox (R301, R302) -/

/-- The time counter in 1/8 ns. -/
def counter8 (s : State) : Nat := 8 * s.fab.counter.toNat

def eqxParent (s : State) : Nat := 4 * s.fab.eqxPort + s.fab.eqxLink

def eqxCode (e : Eqx) : Nat :=
  match e with
  | .unsync => 0 | .acquire => 1 | .sync => 2

/-- FAB_EQX_STATUS: the state, and the last θ in ns, signed and saturating. (DEDUCED, log 117.) -/
def eqxStatus (s : State) : Nat :=
  let ns := max (-32768) (min 32767 (s.fab.eqxTheta / 8))
  eqxCode s.fab.eqx + 2 ^ 16 * toField 16 ns

/-- The counter turns unsynchronised; timed starts that wait fail (R302, R378). -/
def eqxLost (s : State) : State := failTimed { s with fab := { s.fab with eqx := .unsync, eqxGood := 0, eqxTrimNs := 0 } }

/-- EQX_INTERVAL: a child sends EQX over its parent link. (DEDUCED, log 117.) -/
def execEqxInterval (s : State) : Host.Outcome State Fault Refusal :=
  .next <|
    if s.fab.eqxRoot || !linkActive s (eqxParent s) || !fabUp s || s.now < s.fab.eqxAt + 1000 * s.fab.eqxInterval then s
    else
      let t1 := counter8 s
      queuePacket { s with fab := { s.fab with eqxSentT1 := some t1, eqxAt := s.now } } (eqxParent s)
        (newPacket s 0x30 0 0#32 (Config.kwLayout 0x30 [0, t1]) [])

/-- EQX_REQUEST: the parent answers with t2, t3 and its SYNC bit. -/
def execEqxRequest (link : Nat) (t1 : Nat) (s : State) : Host.Outcome State Fault Refusal :=
  onUnit link 64 "link" <|
    if linkActive s link && fabUp s then
      queuePacket s link (newPacket s 0x30 0 0#32
        (Config.kwLayout 0x30 [1, t1, counter8 s, counter8 s, flag (s.fab.eqx == .sync)]) [])
    else s

/-- The asymmetry of the parent link in 1/8 ns. -/
def eqxAsym (s : State) : Int := if opticalPort s.fab.eqxPort then Config.opticalAsymmetry (eqxParent s) else 0

/-- The counter moved by θ. -/
def stepCounter (c : Dword) (theta : Int) : Dword := BitVec.ofInt 64 ((c.toNat : Int) + theta / 8)

/-- What of θ a rate within ±100 ppm removes over one interval of `us` µs, in 1/8 ns (R302). (DEDUCED, log 117.) -/
def trimOf (theta : Int) (us : Nat) : Int := max (-(8 * us / 10 : Nat)) (min (8 * us / 10 : Nat) theta)

/-- EQX_REPLY: θ, and the move of Table 13-11. (DEDUCED, log 117; DESIGN CHOICE, log 118.) -/
def opEqxReply (t1 t2 t3 t4 : Nat) (sync : Bool) (s : State) : State :=
  if s.fab.eqxRoot || s.fab.eqxSentT1 ≠ some t1 then s
  else
    let theta : Int := (((t2 : Int) - t1) - ((t4 : Int) - t3) - eqxAsym s) / 2
    let big := decide (8000 < theta.natAbs)
    let small := decide (theta.natAbs ≤ 32)
    let s1 := { s with fab := { s.fab with eqxSentT1 := none, eqxTheta := theta } }
    match s.fab.eqx with
    | .unsync =>
      if sync then
        { s1 with fab := { s1.fab with eqx := .acquire, eqxGood := 0, counter := stepCounter s.fab.counter theta, eqxLastGood := s.now } }
      else s1
    | st =>
      if big then eqxLost s1
      else
        let good := if small then s.fab.eqxGood + 1 else 0
        { s1 with fab := { s1.fab with
            eqxTrim := trimOf theta s.fab.eqxInterval
            eqxTrimNs := 1000 * s.fab.eqxInterval
            eqxFrac := 0
            eqxGood := good
            eqx := if st == .acquire && decide (8 ≤ good) then .sync else st
            eqxLastGood := if sync then s.now else s.fab.eqxLastGood } }

def execEqxReply (t1 t2 t3 t4 : Nat) (sync : Bool) (s : State) : Host.Outcome State Fault Refusal :=
  .next (opEqxReply t1 t2 t3 t4 sync s)

/-- EQX_LOCK_LOSS: no good exchange with a SYNC parent for 10 ms. -/
def execEqxLockLoss (s : State) : Host.Outcome State Fault Refusal :=
  .next (if s.fab.eqx == .sync && !s.fab.eqxRoot && s.fab.eqxLastGood + 10000000 ≤ s.now then eqxLost s else s)

/-- FAB_EQX_SET: the root takes the value and becomes SYNC. -/
def opEqxSet (value : Dword) (s : State) : State :=
  if s.fab.eqxRoot then { s with fab := { s.fab with counter := value, eqx := .sync } } else s

def execFabEqxSet (value : Dword) (s : State) : Host.Outcome State Fault Refusal := whenUp s (opEqxSet value s)

end Sys2Proof.Machine
end

