-- ==== Sys2Proof/Machine/Rings.lean ====
section
/-! DEFINITION. Rings, doorbells, interrupts and the lock of set-up (R365-R376, R380, R443, R444). Widths are in bits. -/

namespace Sys2Proof.Machine

/-! ### RING_CREATE and RING_DELETE (R370) -/

/-- DEDUCED, log 14. -/
def opRingCreate (h : HostHdr) (desc : BitVec 256) (s : State) : State :=
  let v := desc.toNat
  let r := bits v 192 16
  if ringDescOk s h.fn v && r != 0 && decide (r < (fnCfg s h.fn).ringN) && (findRing s h.fn r).isNone then
    complete { s with hif := { s.hif with rings := s.hif.rings ++ [ringOf h.fn r v] } } h .ok 0
  else complete s h .badDescriptor 0

/-- RING_CREATE. -/
def execRingCreate (h : HostHdr) (desc : BitVec 256) (s : State) : Host.Outcome State Fault Refusal :=
  hostCmd s h .ring true (opRingCreate h desc)

/-- A loaded graph of the function names the ring's CQ. -/
def cqNamed (s : State) (fn r : Nat) : Bool :=
  s.graphs.any fun sl => match sl.graph with
    | some g => g.fn == fn && g.cq == r
    | none => false

/-- DEDUCED, log 16. -/
def opRingDelete (h : HostHdr) (ring : Nat) (s : State) : State :=
  match findRing s h.fn ring with
  | none => complete s h .badDescriptor 0
  | some x =>
    if ring = 0 || cqNamed s h.fn ring || x.deleting.isSome then complete s h .badDescriptor 0
    else
      let q := startCmd s h 0x41
      afterCmd (modRing q.1 h.fn ring fun y => { y with deleting := some (q.2, h) })

/-- RING_DELETE: it waits until no command of the SQ is in progress and the CQ's backlog is empty. -/
def execRingDelete (h : HostHdr) (ring : Nat) (s : State) : Host.Outcome State Fault Refusal :=
  hostCmd s h .ring true (opRingDelete h ring)

/-! ### Doorbells (R367, R369, R372) -/

/-- The function's doorbell window takes writes (R367). -/
def windowOpen (s : State) (fn : Nat) : Bool := hostUp s.pwr.state && (fn == 0 || (s.hif.lock && (fnCfg s fn).en))

/-- A doorbell write that fits no register counts (R369). -/
def countDbErr (s : State) : State :=
  ctrSat 0x0010 s.hif.dbErr (satAdd s.hif.dbErr 1) { s with hif := { s.hif with dbErr := satAdd s.hif.dbErr 1 } }

def countRingErr (s : State) : State :=
  ctrSat 0x0014 s.hif.ringErr (satAdd s.hif.ringErr 1) { s with hif := { s.hif with ringErr := satAdd s.hif.ringErr 1 } }

/-- A wake event (R389): in IDLE the fast clocks start; in ACTIVE it beats a pending IDLE_REQ (R388). -/
def wakeEvent (s : State) : State :=
  match s.pwr.state with
  | .idle => { s with pwr := { s.pwr with waking := true } }
  | .active => { s with pwr := { s.pwr with wakeSeen := s.pwr.wakeSeen || s.pwr.idleReq } }
  | _ => s

/-- A doorbell write reaches the register of a ring that exists. -/
def doorbell (s : State) (fn ring width : Nat) (f : Ring → State) : Host.Outcome State Fault Refusal :=
  if 32 < fn then .refused (.noSuchUnit "function")
  else if 255 < ring then .refused (.noSuchUnit "doorbell page")
  else if !windowOpen s fn then .next s
  else if width ≠ 32 then .next (countDbErr s)
  else
    match findRing s fn ring with
    | none => .next (countDbErr s)
    | some x => .next (if resyncing s fn then s else f x)

/-- SQ_TAIL (R372). -/
def execSqTail (fn ring : Nat) (width : Nat) (value : Word) (s : State) : Host.Outcome State Fault Refusal :=
  doorbell s fn ring width fun x =>
    if value == x.tail then s
    else if (value - x.head).toNat ≤ 2 ^ x.sqExp && (value - x.tail).toNat ≤ 2 ^ x.sqExp then
      wakeEvent (modRing s fn ring fun y => { y with tail := value })
    else postEntry (countRingErr s) fn ring ⟨0#64, .ringOverrun, false, 0, 0, 0#16, x.head⟩

/-- CQ_HEAD (R372): entries that waited are written as far as the room reaches (R375). -/
def execCqHead (fn ring : Nat) (width : Nat) (value : Word) (s : State) : Host.Outcome State Fault Refusal :=
  doorbell s fn ring width fun x =>
    if (value - x.hhead).toNat ≤ (x.written - x.hhead).toNat then
      let s1 := modRing s fn ring fun y => { y with hhead := value }
      afterCmd (drainBacklog s1 fn ring x.backlog)
    else alarm (countRingErr s) 10 (Config.argPack [fn, ring])

/-! ### Interrupts (R380) -/

/-- MSIX_MODERATION_EXPIRY: MOD_US have passed since the first completion not yet signalled. -/
def execMsixModerationExpiry (fn ring : Nat) (s : State) : Host.Outcome State Fault Refusal :=
  match findRing s fn ring with
  | none => .next s
  | some x =>
    match x.unsigAt with
    | none => .next s
    | some t => .next (if !x.noirq && decide (t + 1000 * x.modUs ≤ s.now) then ringSignal s fn ring else s)

/-- MSIX_VECTOR_UNMASK: a pending vector of the function signals (R380). (DESIGN CHOICE, log 15.) -/
def unmask (fn vector : Nat) (s : State) : State :=
  let m := (fnCfg s fn).vecBase + vector
  let s1 := { s with hif := { s.hif with
    masked := s.hif.masked.filter fun v => !(v == m), pendVec := s.hif.pendVec.filter fun v => !(v == m) } }
  if (fnCfg s fn).vecN ≤ vector then s
  else if s.hif.pendVec.contains m then { s1 with hif := { s1.hif with signalled := m :: s1.hif.signalled } } else s1

/-- DESIGN CHOICE, log 15. -/
def execMsixVectorUnmask (fn vector : Nat) (s : State) : Host.Outcome State Fault Refusal :=
  if 32 < fn then .refused (.noSuchUnit "function")
  else onUnit vector 2048 "vector" (unmask fn vector s)

/-- A function's share runs past ring 255 or vector 2,047 (R367). (DESIGN CHOICE, log 19.) -/
def shareOver (c : FnCfg) : Bool := decide (256 < c.ringBase + c.ringN) || decide (2048 < c.vecBase + c.vecN)

/-- Two ranges share a number; an empty one shares none. -/
def sharesMeet (a n b m : Nat) : Bool := decide (0 < n ∧ 0 < m ∧ a < b + m ∧ b < a + n)

/-- Two functions' rings or vectors overlap (R367). (DESIGN CHOICE, log 19.) -/
def shareMeets (a b : FnCfg) : Bool :=
  sharesMeet a.ringBase a.ringN b.ringBase b.ringN || sharesMeet a.vecBase a.vecN b.vecBase b.vecN

/-- Some two functions of the list overlap. -/
def anyMeet : List FnCfg → Bool
  | [] => false
  | c :: t => t.any (shareMeets c) || anyMeet t

/-- What a write of LOCK is checked by (R367): the EN functions. (DESIGN CHOICE, log 19.) -/
def setupConflict (s : State) : Bool :=
  let cs := s.hif.fnCfg.filter fun c => c.en
  cs.any shareOver || anyMeet cs

/-- HIF_SETUP_LOCK (R367, R443). (DESIGN CHOICE, log 19.) -/
def opSetupLock (value : Word) (s : State) : State :=
  if !bit value.toNat 0 || s.hif.lock then s
  else if setupConflict s then { s with hif := { s.hif with conflict := true } }
  else { s with hif := { s.hif with lock := true, conflict := false } }

/-- HIF_SETUP_LOCK. -/
def execHifSetupLock (value : Word) (s : State) : Host.Outcome State Fault Refusal :=
  whenUp s (opSetupLock value s)

/-- A 256-bit register with its 64-bit word `w` replaced. -/
def putWord256 (v : BitVec 256) (w : Nat) (x : Dword) : BitVec 256 :=
  (v &&& ~~~((BitVec.allOnes 64).setWidth 256 <<< (64 * w))) ||| (x.setWidth 256 <<< (64 * w))

/-- HIF_RING0: words 1 to 3 are held, word 0 commits (R440, R444). -/
def opRing0 (fn word : Nat) (value : Dword) (s : State) : State :=
  if s.hif.lock then s
  else if word ≠ 0 then
    { s with hif := { s.hif with
        ring0Held := (s.hif.ring0Held.filter fun p => !(p.1 == fn && p.2.1 == word)) ++ [(fn, word, value)] } }
  else
    let old := s.hif.ring0.getD fn 0#256
    let v := (s.hif.ring0Held.filter fun p => p.1 == fn).foldl (fun x p => putWord256 x p.2.1 p.2.2) old
    let s1 := { s with hif := { s.hif with
      ring0 := s.hif.ring0.set fn (putWord256 v 0 value), ring0Held := s.hif.ring0Held.filter fun p => !(p.1 == fn) } }
    if ringBusy s1 fn 0 then { s1 with hif := { s1.hif with ring0Wait := insertNat s1.hif.ring0Wait fn } }
    else applyRing0 s1 fn

def execHifRing0 (fn : Nat) (word : Nat) (value : Dword) (s : State) : Host.Outcome State Fault Refusal :=
  if 32 < fn then .refused (.noSuchUnit "function")
  else if 3 < word then .refused (.noSuchUnit "word of HIF_RING0")
  else whenUp s (opRing0 fn word value s)

/-! ### The link (R365, R390, Table 21-2) -/

/-- PCIE_LINK_RETRAIN: the link's new rate (code 5 or 6), lanes and mode; retrains saturate at 0xFFFF; HOST_ERR is raised
(Table 19-2). -/
def execPcieLinkRetrain (rate lanes : Nat) (flit : Bool) (s : State) : Host.Outcome State Fault Refusal :=
  if hostUp s.pwr.state then
    .next (hostErr { s with hif := { s.hif with linkRate := rate % 8, linkLanes := lanes % 32, linkFlit := flit,
                                                retrains := min 0xFFFF (s.hif.retrains + 1) } })
  else .next s

/-- CONFIGURATION_REQUEST: Request Retry Status until IDLE; no answer while the package is not powered (R390). -/
def execConfigurationRequest (s : State) : Host.Outcome State Fault Refusal :=
  match s.pwr.state with
  | .off => .next s
  | .standby => .next s
  | .thaw => .next { s with hif := { s.hif with cfgServed := some false } }
  | _ => .next { s with hif := { s.hif with cfgServed := some true } }

end Sys2Proof.Machine
end

