-- ==== Sys2Proof/Machine/Index.lean ====
section
/-! DEFINITION. Search indexes as data: shards, nodes, buckets, generations, the searches of R354, and what batches and Harvests do
to a shard (R344-R351, R354, R356, R360). -/

namespace Sys2Proof.Machine

/-! ### Generations (R349) -/

/-- a ≤ b in the window of 2^23. -/
def genLe (a b : Nat) : Bool := decide ((b + 2 ^ 24 - a % 2 ^ 24) % 2 ^ 24 < 2 ^ 23)

/-! ### Codes and the geometry of an index (R344, R347, R348) -/

/-- Bits of a code. -/
def codeBits (x : Index) : Nat := 128 * x.code

/-- Hamming distance over `n` bits. -/
def hamming : Nat → Nat → Nat → Nat
  | 0, _, _ => 0
  | n + 1, a, b => (a % 2 + b % 2) % 2 + hamming n (a / 2) (b / 2)

/-- NS of an index: the smallest power of two that holds a node. -/
def nodeBytes (x : Index) : Nat :=
  let need := max 64 (32 + 16 * x.code + 8 * x.degree)
  if need ≤ 64 then 64 else if need ≤ 128 then 128 else if need ≤ 256 then 256 else if need ≤ 512 then 512 else 1024

/-- Nodes of a codeword. -/
def perCodeword (x : Index) : Nat := 4096 / nodeBytes x

/-- Codewords of a shard. -/
def codewords (x : Index) : Nat := 4 * x.nslot

/-- The shard of an item: its seven digits' sum (R348). -/
def itemShard (item : Nat) : Nat := ((List.range 7).map fun j => bits item (6 * j) 6).sum % 64

/-- The bucket key of an ATTR. -/
def bucketKey (x : Index) (attr : Dword) : Nat := bits attr.toNat x.lkeyLsb x.lkeyW

/-! ### Nodes of a shard -/

def nodeAt (sh : Shard) (n : Nat) : Option Node := assocGet sh.nodes n

def usedAt (sh : Shard) (n : Nat) : Bool :=
  match nodeAt sh n with
  | some v => v.used
  | none => false

/-- The node that holds a live item: USED and not DELETED. -/
def liveNode (sh : Shard) (item : Nat) : Option (Nat × Node) :=
  sh.nodes.find? fun p => p.2.used && !p.2.deleted && p.2.item == item

def anyUsed (sh : Shard) : Bool := sh.nodes.any fun p => p.2.used

/-- The lowest-numbered USED node. -/
def lowestUsed (sh : Shard) : Nat := ((sh.nodes.find? fun p => p.2.used).map Prod.fst).getD 0

/-- The first number from `n` on that a rising list does not hold. -/
def nextGap (n : Nat) : List Nat → Nat
  | [] => n
  | x :: t => if x < n then nextGap n t else if x = n then nextGap (n + 1) t else n

/-- Positions of a codeword that hold nodes of a FLAT index. (DESIGN CHOICE, log 134.) -/
def positions (x : Index) (c : Nat) : List Nat := (List.range (perCodeword x - 1)).map fun i => c * perCodeword x + 1 + i

def chainOf (sh : Shard) (key : Nat) : List Nat := (assocGet sh.chains key).getD []

/-- Codewords of a shard that some bucket's chain holds, rising. (DESIGN CHOICE, log 134.) -/
def chained (sh : Shard) : List Nat := (sh.chains.map Prod.snd).flatten.foldl insertNat []

/-- The node an insert takes, with the chains that then hold it (R350): on GRAPH the lowest free node; on FLAT the lowest free
one of the bucket's chain, or the first of the lowest free codeword, which joins the chain's end. -/
def freeNode (x : Index) (sh : Shard) (key : Nat) : Option (Nat × List (Nat × List Nat)) :=
  if x.graph then
    let n := nextGap 1 ((sh.nodes.filter fun p => p.2.used).map Prod.fst)
    if n < codewords x * perCodeword x then some (n, sh.chains) else none
  else
    let room := (((chainOf sh key).map (positions x)).flatten.filter fun n => !usedAt sh n).foldl insertNat []
    match room with
    | n :: _ => some (n, sh.chains)
    | [] =>
      let c := nextGap 0 (chained sh)
      if c < codewords x then some (c * perCodeword x + 1, assocPut sh.chains key (chainOf sh key ++ [c])) else none

/-- Free nodes of a shard (VSE_IDX_FREE). -/
def freeNodes (x : Index) (sh : Shard) : Nat :=
  (if x.graph then codewords x * perCodeword x - 1 else codewords x * (perCodeword x - 1))
    - (sh.nodes.filter fun p => p.2.used).length

/-! ### Filters (R356) -/

def termOf (b : Bytes) : Term :=
  let c := leAt b 0 2
  { lsb := bits c 0 6, width := bits c 6 6 + 1, op := bits c 12 3, or_ := bit c 15, value := leAt b 8 8,
    resOk := allZero (sub b 2 6) }

def termOk (t : Term) : Bool := t.resOk && decide (t.lsb + t.width ≤ 64)

def termHolds (attr : Dword) (t : Term) : Bool :=
  let f := bits attr.toNat t.lsb t.width
  match t.op with
  | 0 => f == t.value
  | 1 => f != t.value
  | 2 => decide (f < t.value)
  | 3 => decide (f ≤ t.value)
  | 4 => decide (t.value < f)
  | 5 => decide (t.value ≤ f)
  | 6 => f &&& t.value != 0
  | _ => f &&& t.value == t.value

/-- Terms in groups: each with OR set starts a new one. -/
def termGroups : List Term → List (List Term)
  | [] => []
  | t :: rest =>
    match rest, termGroups rest with
    | u :: _, g :: gs => if u.or_ then [t] :: g :: gs else (t :: g) :: gs
    | _, _ => [[t]]

/-- A node passes when every term of at least one group holds. -/
def passes (ts : List Term) (attr : Dword) : Bool :=
  ts.isEmpty || (termGroups ts).any fun g => g.all (termHolds attr)

/-- Visibility at a snapshot (R354). (DEDUCED, log 133.) -/
def visible (v : Node) (s : Nat) : Bool := v.used && genLe v.insGen s && !(v.deleted && genLe v.delGen s)

/-! ### Ordered lists -/

/-- A result put in its place by (distance, item). -/
def insertRes (r : Nat × Nat × Dword) : List (Nat × Nat × Dword) → List (Nat × Nat × Dword)
  | [] => [r]
  | x :: t => if r.1 < x.1 ∨ (r.1 = x.1 ∧ r.2.1 < x.2.1) then r :: x :: t else x :: insertRes r t

/-- A pair put in its place by its first and then its second number. -/
def insertPair (r : Nat × Nat) : List (Nat × Nat) → List (Nat × Nat)
  | [] => [r]
  | x :: t => if r.1 < x.1 ∨ (r.1 = x.1 ∧ r.2 < x.2) then r :: x :: t else x :: insertPair r t

/-! ### Searches (R354) -/

/-- A node found, as (distance, item, node), put in its place by distance and item. -/
def insertFound (r : Nat × Nat × Nat) : List (Nat × Nat × Nat) → List (Nat × Nat × Nat)
  | [] => [r]
  | x :: t => if r.1 < x.1 ∨ (r.1 = x.1 ∧ r.2.1 < x.2.1) then r :: x :: t else x :: insertFound r t

/-- A query that has not begun. -/
def queryOf (code : Nat) : Query :=
  { bkey := 0, allb := false, terms := [], user := 0#64, code := code, bad := false, poison := false, waiting := [], beam := [],
    expanded := [], seen := [], res := [], done := false }

/-- One codeword of a FLAT search. -/
def flatStep (x : Index) (sh : Shard) (snap k : Nat) (c : Nat) (q : Query) : Query :=
  { q with res := (positions x c).foldl (fun r n =>
      match nodeAt sh n with
      | none => r
      | some v =>
        if visible v snap && passes q.terms v.attr then (insertRes (hamming (codeBits x) q.code v.code, v.item, v.attr) r).take k
        else r) q.res }

/-- The beginning of a GRAPH search: ENTRY, or nothing in a shard without a USED node. -/
def graphBegin (x : Index) (sh : Shard) (q : Query) : Query :=
  if anyUsed sh then
    let d := match nodeAt sh sh.entry with
      | some v => hamming (codeBits x) q.code v.code
      | none => 0
    { q with beam := [(d, sh.entry)], seen := [sh.entry] }
  else { q with done := true }

/-- The first node of the beam not yet expanded. -/
def nextNode (q : Query) : Option Nat := (q.beam.find? fun p => !q.expanded.contains p.2).map Prod.snd

/-- A search with what its steps counted: stale edges dropped, and nodes a full seen set refused. -/
structure Searched where
  q     : Query
  drops : Nat
  fulls : Nat
  deriving DecidableEq, Repr

/-- One edge followed. -/
def followEdge (x : Index) (sh : Shard) (beam : Nat) (a : Searched) (e : Nat × Byte) : Searched :=
  match nodeAt sh e.1 with
  | none => { a with drops := a.drops + 1 }
  | some w =>
    if !w.used || w.tag != e.2 then { a with drops := a.drops + 1 }
    else if a.q.seen.contains e.1 then a
    else if 16384 ≤ a.q.seen.length then { a with fulls := a.fulls + 1 }
    else { a with q := { a.q with
      seen := e.1 :: a.q.seen
      beam := (insertPair (hamming (codeBits x) a.q.code w.code, e.1) a.q.beam).take beam } }

/-- The expansion of node `n`; `take` says which nodes are results. -/
def expandNode (x : Index) (sh : Shard) (k beam : Nat) (take : Node → Bool) (a : Searched) (n : Nat) : Searched :=
  let q := { a.q with expanded := n :: a.q.expanded }
  match nodeAt sh n with
  | none => { a with q := q }
  | some v =>
    let q1 := if take v then
        { q with res := (insertRes (hamming (codeBits x) q.code v.code, v.item, v.attr) q.res).take k }
      else q
    v.edges.foldl (followEdge x sh beam) { a with q := q1 }

/-- A whole GRAPH search. (DEDUCED, log 135.) -/
def searchAll (x : Index) (sh : Shard) (k beam : Nat) (take : Node → Bool) : Nat → Searched → Searched
  | 0, a => a
  | n + 1, a =>
    match nextNode a.q with
    | none => a
    | some v => searchAll x sh k beam take n (expandNode x sh k beam take a v)

/-! ### Batches (R350, R351) -/

def modNode (sh : Shard) (n : Nat) (f : Node → Node) : Shard :=
  match nodeAt sh n with
  | some v => { sh with nodes := assocPut sh.nodes n (f v) }
  | none => sh

/-- An edge from `u` to the new node `v`: appended, or in the place of the farthest edge when `v` is strictly nearer.
(DEDUCED, log 135.) -/
def linkBack (x : Index) (v : Nat) (nv : Node) (sh : Shard) (u : Nat) : Shard :=
  match nodeAt sh u with
  | none => sh
  | some nu =>
    if nu.edges.length < x.degree then modNode sh u fun y => { y with edges := y.edges ++ [(v, nv.tag)] }
    else
      let dist (n : Nat) : Nat := match nodeAt sh n with
        | some w => hamming (codeBits x) nu.code w.code
        | none => codeBits x
      let far := (nu.edges.map fun e => (dist e.1, e.1)).foldl (fun (a b : Nat × Nat) =>
        if a.1 < b.1 ∨ (a.1 = b.1 ∧ a.2 < b.2) then b else a) (0, 0)
      if hamming (codeBits x) nu.code nv.code < far.1 then
        match indexWhere (fun (e : Nat × Byte) => e.1 == far.2) nu.edges 0 with
        | some i => modNode sh u fun y => { y with edges := y.edges.set i (v, nv.tag) }
        | none => sh
      else sh

/-- What an entry of a batch did to its shard. -/
structure Applied where
  sh     : Shard
  status : Status
  drops  : Nat
  fulls  : Nat
  deriving DecidableEq, Repr

/-- The new node linked into a GRAPH shard, which held the nodes of `sh0` before (R351). (DESIGN CHOICE, log 134.) -/
def linkNode (x : Index) (sh0 sh : Shard) (n : Nat) (v : Node) : Applied :=
  if !anyUsed sh0 then ⟨{ sh with entry := n }, .ok, 0, 0⟩
  else
    let a := searchAll x sh0 x.degree x.efc (fun w => w.used) (sh0.nodes.length + 1) ⟨graphBegin x sh0 (queryOf v.code), 0, 0⟩
    let found := a.q.expanded.filterMap fun n => match nodeAt sh0 n with
      | some w => if w.used then some (hamming (codeBits x) v.code w.code, w.item, n) else none
      | none => none
    let best := (found.foldl (fun l r => insertFound r l) []).take x.degree
    let near := best.foldl (fun l r => insertPair (r.1, r.2.2) l) []
    let edges := near.filterMap fun p => (nodeAt sh0 p.2).map fun w => (p.2, w.tag)
    let sh1 := modNode sh n fun y => { y with edges := edges }
    ⟨near.foldl (fun t p => linkBack x n v t p.2) sh1, .ok, a.drops, a.fulls⟩

/-- An INSERT entry under generation `g`. (DEDUCED, log 135.) -/
def insertEntry (x : Index) (g : Nat) (sh : Shard) (item : Nat) (attr : Dword) (code : Nat) : Applied :=
  if (liveNode sh item).isSome then ⟨sh, .badDescriptor, 0, 0⟩
  else
    match freeNode x sh (bucketKey x attr) with
    | none => ⟨sh, .pageFault, 0, 0⟩
    | some r =>
      let tag := match nodeAt sh r.1 with
        | some o => o.tag
        | none => 0#8
      let v : Node := { attr := attr, item := item, tag := tag, used := true, deleted := false, insGen := g, delGen := 0,
                        code := code, edges := [] }
      let sh1 := { sh with nodes := assocPut sh.nodes r.1 v, chains := r.2 }
      if x.graph then linkNode x sh sh1 r.1 v else ⟨sh1, .ok, 0, 0⟩

/-- A DELETE entry; the second component says whether the item was absent. -/
def deleteEntry (g : Nat) (sh : Shard) (item : Nat) : Shard × Bool :=
  match liveNode sh item with
  | some p => (modNode sh p.1 fun v => { v with deleted := true, delGen := g }, false)
  | none => (sh, true)

/-! ### Harvest and the undoing of a batch (R349, R360) -/

/-- Deleted nodes up to generation `h` freed, edges to them removed, emptied codewords returned, ENTRY mended.
(DESIGN CHOICE, log 134.) -/
def harvestShard (h : Nat) (sh : Shard) : Shard :=
  let freed (v : Node) : Bool := v.used && v.deleted && genLe v.delGen h
  let gone (e : Nat × Byte) : Bool := match nodeAt sh e.1 with
    | some w => freed w && w.tag == e.2
    | none => false
  let sh1 : Shard := { sh with nodes := sh.nodes.map fun p =>
    (p.1, if freed p.2 then { p.2 with used := false, tag := p.2.tag + 1 }
          else { p.2 with edges := p.2.edges.filter fun e => !gone e }) }
  { sh1 with entry := if usedAt sh1 sh1.entry then sh1.entry else lowestUsed sh1 }

/-- Chains without the codewords that hold no USED node. (DESIGN CHOICE, log 134.) -/
def trimChains (x : Index) (sh : Shard) : Shard :=
  { sh with chains := (sh.chains.map fun p =>
      (p.1, p.2.filter fun c => (positions x c).any (usedAt sh))).filter fun p => !p.2.isEmpty }

/-- The shards of an index with every node write of an unfinished batch undone: what they were before it (R349).
(DEDUCED, log 133.) -/
def undoneShards (x : Index) : List Shard :=
  match x.batch with
  | some k => if k.durable then x.shards else k.before
  | none => x.shards

end Sys2Proof.Machine
end

