-- ==== Sys2Proof/Machine/Dot.lean ====
section
/-! DEFINITION. The dot product, bit for bit (chapter 4): expansion of weights, block sums, the FP32 and INT32 accumulators,
pieces and multi-pass products. -/

namespace Sys2Proof.Machine

/-- A product control word, field by field (Table 4-1, R68, R69). -/
structure Pcw where
  kpiece : Nat
  passes : Nat
  acc    : Bool
  accin  : Bool
  fmtA   : Nat
  fmtB   : Nat
  mxA    : Bool
  mxB    : Bool
  expB   : Nat
  resOk  : Bool
  acb    : Nat
  deriving DecidableEq, Repr

def pcwOf (v : Nat) : Pcw :=
  { kpiece := bits v 48 16, passes := bits v 46 2, acc := bit v 45, accin := bit v 44, fmtA := bits v 40 4,
    fmtB := bits v 36 4, mxA := bit v 35, mxB := bit v 34, expB := bits v 31 3, resOk := bits v 8 23 == 0,
    acb := bits v 0 8 }

/-- Formats that have no MX form (R70). -/
def noMx (c : Nat) : Bool := c == 0 || c == 1 || c == 8 || c == 0xF

/-- A plain integer operand: INT8 or INT4 that is neither MX nor expanded. -/
def plainInt (c : Nat) (mx : Bool) : Bool := (c == 7 || c == 8) && !mx

/-- The checks of R70 with those of R52 and R67. INT4 as operand A is in none of R67's accepted pairs, and no case of R70 names it:
it is rejected. (DESIGN CHOICE, log 160.) -/
def pcwOk (w : Pcw) : Bool :=
  let fa := fmtOfCode w.fmtA
  let fb := fmtOfCode w.fmtB
  let expanded := w.expB != 0
  let intA := plainInt w.fmtA w.mxA
  let intB := plainInt w.fmtB w.mxB && !expanded
  w.resOk && acbOk w.acb && !bit w.acb 7 && fa.isSome && fb.isSome && w.expB ≤ 4
    && (match w.expB with
        | 0 => w.fmtB != 8
        | 1 => w.fmtB == 8
        | 2 => w.fmtB == 8
        | _ => w.fmtB == 8 || w.fmtB == 7)
    && !(w.mxA && noMx w.fmtA) && !(w.mxB && noMx w.fmtB) && !(w.mxB && expanded)
    && (w.fmtA == 0xF || w.passes == 0) && (w.fmtB == 0xF || w.passes == 0)
    && !(w.passes == 0 && (w.fmtA == 0xF || w.fmtB == 0xF))
    && w.fmtA != 8
    && !(w.acc && !(w.fmtA == 7 && w.fmtB == 7 && !w.mxA && !w.mxB && !expanded))
    && (intA == intB)

/-- The window width of R74. -/
def winW (w : Pcw) : Nat :=
  let wide (c : Nat) : Bool := c == 0 || c == 1
  if wide w.fmtA || wide w.fmtB || w.expB != 0 || w.passes != 0 then 48 else 36

/-! ### Operand elements (R49, R50, R71) -/

/-- A weight through a scale-and-zero-point record, as a BF16 code (R50). Its reserved byte 3 is not examined.
(DESIGN CHOICE, log 160.) -/
def expandSz (rec4 : Bytes) (q : Int) : Nat × Nat :=
  let s := decodeF bf16 (leAt rec4 0 2)
  let z := signed 8 (byteAt rec4 2)
  match s with
  | .nan _ _ sig => (nanCode bf16, if sig then fNV else 0)
  | _ =>
    let p := mulVal (ofInt (q - z)) s
    if isNan p then (nanCode bf16, fNV) else convFloat ctl0 bf16 p

/-- How the elements of one operand are stored: its bytes by rows of `k` elements, its scales or records by row. -/
structure Opnd where
  fmt   : NumFmt
  mx    : Bool
  expB  : Nat
  /-- Elements along k of the whole reduction, for the index of a per-group record (R49). -/
  k     : Nat
  deriving DecidableEq, Repr

/-- A value with what its reading raised; `sub` marks a value FLUSH may read as zero. -/
structure Elem where
  v  : Val
  fl : Nat
  deriving DecidableEq, Repr

/-- One stored element as a value under FLUSH (R71): MX exactly scaled; expanded weights as BF16. `scale` is the byte or record
that covers it. -/
def elemVal (c : Ctl) (o : Opnd) (code : Nat) (scale : Bytes) : Elem :=
  if o.expB = 0 then
    if o.mx then ⟨mxDecode o.fmt (byteAt scale 0) code, 0⟩
    else match anyFmt o.fmt with
      | .flt f => let r := operand c f code; ⟨r.1, r.2⟩
      | .int w => ⟨ofInt (signed w code), 0⟩
  else if o.expB ≤ 2 then ⟨decodeF bf16 (leAt scale (2 * (code % 16)) 2), 0⟩
  else
    let w := elemBits o.fmt
    let r := expandSz scale (signed w code)
    ⟨decodeF bf16 r.1, r.2⟩

/-! ### Blocks (R75-R77) -/

/-- One exact product with its flags: 0 × ∞ and signalling operands set NV (R72, R76). (DEDUCED, log 39.) -/
def prodOf (a b : Elem) : Elem :=
  let p := mulVal a.v b.v
  ⟨p, a.fl ||| b.fl ||| (if invalid a.v b.v p || isSig a.v || isSig b.v then fNV else 0)⟩

/-- floor(±m × 2^e / 2^u) and whether a bit was discarded. -/
def alignTo (u : Int) (v : Val) : Int × Bool :=
  match v with
  | .fin neg m e =>
    if m = 0 then (0, false)
    else
      let r := roundAt 3 neg m e false u
      (if neg then -(r.1 : Int) else r.1, r.2)
  | _ => (0, false)

/-- The largest floor(log2) among non-zero products. -/
def blockExp (ps : List Val) : Option Int :=
  ps.foldl (fun a v => match v with
    | .fin _ m e => if m = 0 then a else match a with
      | none => some (lg m e)
      | some x => some (max x (lg m e))
    | _ => a) none

/-- The block result of R75 and R76: an FP32 code and the flags. -/
def blockResult (c : Ctl) (w : Nat) (ps : List Elem) : Nat × Nat :=
  let fl := ps.foldl (fun a p => a ||| p.fl) 0
  let vs := ps.map fun p => p.v
  if vs.any isNan then (nanCode f32, fl)
  else if (vs.any fun v => isInf v && negOf v) && (vs.any fun v => isInf v && !negOf v) then (nanCode f32, fl ||| fNV)
  else match vs.find? isInf with
    | some v => (infCode f32 (negOf v), fl)
    | none =>
      match blockExp vs with
      | none => (signBit f32 (vs.all negOf), fl)
      | some em =>
        let u := em - w
        let qs := vs.map (alignTo u)
        let sum : Int := qs.foldl (fun (a : Int) q => a + q.1) 0
        let nx := if qs.any fun q => q.2 then fNX else 0
        if sum = 0 then (0, fl ||| nx)
        else
          let r := arith c f32 (decide (sum < 0)) sum.natAbs u false
          (r.1, fl ||| nx ||| r.2)

/-- The FP32 code of −0. -/
def negZero32 : Nat := 0x80000000

/-- One addition into the accumulator (R77). -/
def accAdd (c : Ctl) (a : Nat × Nat) (b : Nat × Nat) : Nat × Nat :=
  let r := fpAdd c f32 a.1 b.1
  (r.1, a.2 ||| b.2 ||| r.2)

/-! ### Multi-pass parts (R85-R87) -/

/-- The three BF16 parts of a finite value, and the flags of the last rounding. (DEDUCED, log 39.) -/
def splitVal (v : Val) : List Val × Nat :=
  match v with
  | .fin neg m e =>
    if m = 0 then ([v, .zero false, .zero false], 0)
    else
      let rz : Ctl := { strict := true, mode := 1, flush := false, ieee := false }
      let hi := decodeF bf16 (roundFmt rz true bf16 neg m e false).1
      let r1 := addVal 0 v (withSign (!negOf hi) hi)
      let mid := match r1 with
        | .fin n m1 e1 => decodeF bf16 (roundFmt rz true bf16 n m1 e1 false).1
        | _ => r1
      let r2 := addVal 0 r1 (withSign (!negOf mid) mid)
      match r2 with
      | .fin n m2 e2 =>
        let lo := roundFmt ctl0 true bf16 n m2 e2 false
        ([hi, mid, decodeF bf16 lo.1], lo.2)
      | _ => ([hi, mid, r2], 0)
  | _ => ([v, v, v], 0)

/-- Terms of Table 4-6 as part indices of a and b: 0 hi, 1 mid, 2 lo. (DEDUCED, log 39.) -/
def termsOf (passes : Nat) : List (Nat × Nat) :=
  match passes with
  | 1 => [(0, 0)]
  | 2 => [(1, 0), (0, 1), (0, 0)]
  | 3 => [(2, 0), (1, 1), (0, 2), (1, 0), (0, 1), (0, 0)]
  | _ => []

/-- The products of one term; a pair with a NaN or infinite operand has only its hi·hi term (R87). -/
def termProds (t : Nat × Nat) : List (Elem × Elem) → List Elem
  | [] => []
  | (a, b) :: rest =>
    let special := isNan a.v || isNan b.v || isInf a.v || isInf b.v
    if special then (if t == (0, 0) then prodOf a b :: termProds t rest else termProds t rest)
    else
      let sa := splitVal a.v
      let sb := splitVal b.v
      prodOf ⟨sa.1.getD t.1 (.zero false), a.fl ||| sa.2⟩ ⟨sb.1.getD t.2 (.zero false), b.fl ||| sb.2⟩
        :: termProds t rest

/-! ### The dot product (R77, R80, R84) -/

/-- A pair at one k; none where it is absent (R73). -/
abbrev Pair := Option (Elem × Elem)

/-- One block's results added to the accumulator, term by term; a block or a term with no present product adds nothing. -/
def addBlock (c : Ctl) (w : Pcw) (acc : Nat × Nat) (b : List Pair) : Nat × Nat :=
  let ps := b.filterMap id
  if ps.isEmpty then acc
  else if w.passes = 0 then accAdd c acc (blockResult c (winW w) (ps.map fun p => prodOf p.1 p.2))
  else (termsOf w.passes).foldl (fun a t =>
    let xs := termProds t ps
    if xs.isEmpty then a else accAdd c a (blockResult c 48 xs)) acc

/-- Blocks of 32 from k = 0, in order (R73). -/
def blocksOf {α : Type} : Nat → List α → List (List α)
  | 0, _ => []
  | n + 1, xs => match xs with
    | [] => []
    | _ => xs.take 32 :: blocksOf n (xs.drop 32)

/-- Accumulation of a run of blocks from a start. -/
def accRun (c : Ctl) (w : Pcw) (start : Nat × Nat) (bs : List (List Pair)) : Nat × Nat := bs.foldl (addBlock c w) start

/-- Pieces of KPIECE blocks: each from its own start, the first from C; combined in increasing k (R80). -/
def dotPieces (c : Ctl) (w : Pcw) : Nat → List (List Pair) → Option (Nat × Nat) → Nat × Nat → Nat × Nat
  | 0, _, r, start => r.getD start
  | n + 1, bs, r, start =>
    match bs with
    | [] => r.getD start
    | _ =>
      let len := if w.kpiece = 0 then bs.length else w.kpiece
      let a := accRun c w start (bs.take len)
      let r' := match r with
        | none => a
        | some x => accAdd c x a
      dotPieces c w n (bs.drop len) (some r') (negZero32, 0)

/-- `dot` of R80 over the pairs in k order; `c0` is the C element under ACCIN. -/
def dotF (w : Pcw) (c0 : Option Nat) (ps : List Pair) : Nat × Nat :=
  let c := ctlOf w.acb
  let bs := blocksOf (ps.length + 1) ps
  dotPieces c w (bs.length + 1) bs none (c0.getD negZero32, 0)

/-- A saturating addition (R84): `lim` is 2^31 or 2^63. (DEDUCED, log 40.) -/
def satAddI (lim : Nat) (a b : Int) : Int × Nat :=
  let x := a + b
  if x > (lim : Int) - 1 then ((lim : Int) - 1, fOF)
  else if x < -(lim : Int) then (-(lim : Int), fOF)
  else (x, 0)

/-- A whole number's value, whatever the exponent it is kept with. -/
def intOf : Val → Int
  | .fin n m e =>
    let a := if e < 0 then m / 2 ^ (-e).toNat else scaled m e 0
    if n then -(a : Int) else a
  | _ => 0

/-- Blocks added exactly, one saturating addition each (R84). -/
def accRunI (start : Int × Nat) (bs : List (List Pair)) : Int × Nat :=
  bs.foldl (fun (a : Int × Nat) b =>
    let sum := (b.filterMap id).foldl (fun (x : Int) p => x + intOf p.1.v * intOf p.2.v) 0
    let q := satAddI (2 ^ 31) a.1 sum
    (q.1, a.2 ||| q.2)) start

/-- Pieces of the INT32 accumulator, combined in increasing k (R80, R84). (DEDUCED, log 40.) -/
def dotPiecesI (kpiece : Nat) : Nat → List (List Pair) → Option (Int × Nat) → Int × Nat → Int × Nat
  | 0, _, r, start => r.getD start
  | n + 1, bs, r, start =>
    match bs with
    | [] => r.getD start
    | _ =>
      let len := if kpiece = 0 then bs.length else kpiece
      let a := accRunI start (bs.take len)
      let r' := match r with
        | none => a
        | some x =>
          let q := satAddI (2 ^ 31) x.1 a.1
          (q.1, x.2 ||| a.2 ||| q.2)
      dotPiecesI kpiece n (bs.drop len) (some r') (0, 0)

/-- The INT32 accumulator (R84). -/
def dotI (w : Pcw) (c0 : Option Nat) (ps : List Pair) : Nat × Nat :=
  let bs := blocksOf (ps.length + 1) ps
  let r := dotPiecesI w.kpiece (bs.length + 1) bs none (signed 32 (c0.getD 0), 0)
  (toField 32 r.1, r.2)

/-- One output element (R79). -/
def dotElem (w : Pcw) (c0 : Option Nat) (ps : List Pair) : Nat × Nat :=
  if w.acc then dotI w c0 ps else dotF w c0 ps

end Sys2Proof.Machine
end

