-- ==== Sys2Proof/Machine/AttnMath.lean ====
section
/-! DEFINITION. Online softmax (R111-R113), its merge (R266), row statistics (R114, R115) and tree masks (R180), once for the
cores, the stacks and the routers. -/

namespace Sys2Proof.Machine

/-- Flags by the engine that raises them (R78). -/
structure Fl3 where
  mma : Nat
  vec : Nat
  sfu : Nat
  deriving DecidableEq, Repr

def fl0 : Fl3 := ⟨0, 0, 0⟩
def flOr (a b : Fl3) : Fl3 := ⟨a.mma ||| b.mma, a.vec ||| b.vec, a.sfu ||| b.sfu⟩
def flMma (f : Nat) : Fl3 := ⟨f, 0, 0⟩
def flVec (f : Nat) : Fl3 := ⟨0, f, 0⟩
def flSfu (f : Nat) : Fl3 := ⟨0, 0, f⟩
/-- All engines' flags in one word, for a unit that keeps one (R63). -/
def flAll (f : Fl3) : Nat := f.mma ||| f.vec ||| f.sfu

def negInf32 : Nat := 0xFF800000

/-- A row's initial state (R111). -/
def rowInit (d : Nat) : Row :=
  ⟨BitVec.ofNat 32 negInf32, BitVec.ofNat 32 negZero32, List.replicate d (BitVec.ofNat 32 negZero32)⟩

/-- A positive finite normal FP32 constant (R112). -/
def scaleOk (c : Nat) : Bool := 0x00800000 ≤ c && c < 0x7F800000

/-- The product control word of `dot(p, one)`: both operands in pfmt, one piece. -/
def onePcw (pfmt acb : Nat) : Pcw :=
  { kpiece := 0, passes := 0, acc := false, accin := false, fmtA := pfmt, fmtB := pfmt, mxA := false, mxB := false,
    expB := 0, resOk := true, acb := acb }

/-- The running maximum of R111 over present scores. -/
def rowMax (c : Ctl) (m : Nat) (ss : List (Option Nat)) : Nat × Nat :=
  ss.foldl (fun (a : Nat × Nat) x => match x with
    | none => a
    | some v => let r := fpSel c f32 true false a.1 v; (r.1, a.2 ||| r.2)) (m, 0)

/-- EXP2 of (x − m) × c in the format `dst` (R111): code and flags by engine. (DEDUCED, log 49.) -/
def expTerm (k : Ctl) (dst : Fmt) (c m x : Nat) : Nat × Fl3 :=
  let d := fpSub k f32 x m
  let p := fpMul k f32 d.1 c
  let e := romOp k 0 f32 dst p.1
  (e.1, ⟨0, d.2 ||| p.2, e.2⟩)

/-- One value column of a statistics tile: the dot product with the probabilities, folded with alpha (R111). -/
def foldCol (k : Ctl) (w2 : Pcw) (alpha : Nat) (ps : List (Option Elem)) (vs : List Elem) (o : Word) : Word × Nat :=
  let t := dotF { w2 with kpiece := 0 } none ((ps.zip vs).map fun x => x.1.map fun p => (p, x.2))
  let r := fpFma k f32 o.toNat alpha t.1
  (BitVec.ofNat 32 r.1, t.2 ||| r.2)

/-- `stats_update` of R111: scores (none where absent), value columns by column, the constant, pfmt. (DEDUCED, log 49.) -/
def statsUpdate (acb : Nat) (w2 : Pcw) (pfmt : NumFmt) (c : Nat) (ss : List (Option Nat)) (cols : List (List Elem))
    (r : Row) : Row × Fl3 :=
  let k := ctlOf acb
  if ss.all fun x => x.isNone then (r, fl0)
  else
    let mt := rowMax k negInf32 ss
    let mn := fpSel k f32 true false r.m.toNat mt.1
    if mn.1 = negInf32 then (r, fl0)
    else
      match anyFmt pfmt with
      | .int _ => (r, fl0)
      | .flt pf =>
        let al := expTerm k f32 c mn.1 r.m.toNat
        let ps := ss.map fun x => x.map (expTerm k pf c mn.1)
        let pv : List (Option Elem) := ps.map fun x => x.map fun p => ⟨decodeF pf p.1, 0⟩
        let fp := ps.foldl (fun a x => match x with
          | some p => flOr a p.2
          | none => a) al.2
        let one : Elem := ⟨.fin false 1 0, 0⟩
        let lt := dotF { w2 with kpiece := 0, fmtB := w2.fmtA, mxB := false, expB := 0 } none
          (pv.map fun x => x.map fun p => (p, one))
        let l := fpFma k f32 r.l.toNat al.1 lt.1
        let os := (r.o.zip cols).map fun x => foldCol k w2 al.1 pv x.2 x.1
        ({ m := BitVec.ofNat 32 mn.1, l := BitVec.ofNat 32 l.1, o := os.map Prod.fst },
         flOr fp ⟨lt.2 ||| l.2 ||| os.foldl (fun a x => a ||| x.2) 0, mt.2 ||| mn.2, 0⟩)

/-- A finished element (R113): o ÷ l; +0 and no flag when l is a zero. (DEDUCED, log 57.) -/
def finishElem (o l : Nat) : Nat × Nat :=
  if l % 2 ^ 31 = 0 then (0, 0) else fpDiv ctl0 f32 o l

/-- A code with value −∞. -/
def isNegInf (w : Word) : Bool := w.toNat == negInf32

/-- The merge of two rows (R266). -/
def mergeRow (c : Nat) (a b : Row) : Row × Nat :=
  if isNegInf b.m then (a, 0)
  else if isNegInf a.m then (b, 0)
  else
    let m := fpSel ctl0 f32 true false a.m.toNat b.m.toNat
    let ea := expTerm ctl0 f32 c m.1 a.m.toNat
    let eb := expTerm ctl0 f32 c m.1 b.m.toNat
    let join (x y : Word) : Word × Nat :=
      let p := fpMul ctl0 f32 x.toNat ea.1
      let q := fpMul ctl0 f32 y.toNat eb.1
      let r := fpAdd ctl0 f32 p.1 q.1
      (BitVec.ofNat 32 r.1, p.2 ||| q.2 ||| r.2)
    let l := join a.l b.l
    let os := (a.o.zip b.o).map fun p => join p.1 p.2
    (⟨BitVec.ofNat 32 m.1, l.1, os.map Prod.fst⟩,
     m.2 ||| flAll ea.2 ||| flAll eb.2 ||| l.2 ||| os.foldl (fun x p => x ||| p.2) 0)

/-! ### State tiles (R172) -/

/-- Bytes of a row. -/
def rowBytes (n2 : Nat) : Nat := 8 + 4 * n2
/-- Bytes of a state tile of `m` rows. -/
def stateBytes (m n2 : Nat) : Nat := roundUp (m * rowBytes n2) 32

def rowToBytes (r : Row) : Bytes :=
  leBytes 4 r.m.toNat ++ leBytes 4 r.l.toNat ++ (r.o.map fun x => leBytes 4 x.toNat).flatten

def rowAt (b : Bytes) (off n2 : Nat) : Row :=
  ⟨BitVec.ofNat 32 (leAt b off 4), BitVec.ofNat 32 (leAt b (off + 4) 4),
   (List.range n2).map fun i => BitVec.ofNat 32 (leAt b (off + 8 + 4 * i) 4)⟩

def rowsAt (b : Bytes) (m n2 : Nat) : List Row := (List.range m).map fun r => rowAt b (r * rowBytes n2) n2

def rowsToBytes (n2 : Nat) (rs : List Row) : Bytes :=
  padTo (stateBytes rs.length n2) (rs.map rowToBytes).flatten

/-! ### Row reductions (R114) -/

/-- Lane `i mod 64` accumulates element i: `f acc x`. A disabled element (none) is not examined (R131). -/
def laneFold (f : Nat → Nat → Nat × Nat) : List (Option Nat) → Nat → List Nat → Nat → List Nat × Nat
  | [], _, acc, fl => (acc, fl)
  | none :: t, i, acc, fl => laneFold f t (i + 1) acc fl
  | some x :: t, i, acc, fl =>
    let r := f (acc.getD (i % 64) negZero32) x
    laneFold f t (i + 1) (acc.set (i % 64) r.1) (fl ||| r.2)

/-- One level of the lane tree. -/
def treeLevel (w : Nat) (a : List Nat) : List Nat × Nat :=
  let rs := (List.range w).map fun i => fpAdd ctl0 f32 (a.getD i 0) (a.getD (i + w) 0)
  (rs.map Prod.fst, rs.foldl (fun x p => x ||| p.2) 0)

/-- `lane_tree` of R114. -/
def laneTree (a : List Nat) : Nat × Nat :=
  let r := [32, 16, 8, 4, 2, 1].foldl (fun (x : List Nat × Nat) w =>
    let y := treeLevel w x.1
    (y.1, x.2 ||| y.2)) (a, 0)
  (r.1.getD 0 0, r.2)

/-- A row reduction: lanes from −0, then the tree. -/
def rowReduce (f : Nat → Nat → Nat × Nat) (xs : List (Option Nat)) : Nat × Nat :=
  let l := laneFold f xs 0 (List.replicate 64 negZero32) 0
  let t := laneTree l.1
  (t.1, l.2 ||| t.2)

/-- An operation mapped over a row's enabled elements, its flags gathered. -/
def mapFl (f : Nat → Nat → Nat × Nat) (xs : List (Option Nat)) (ys : List Nat) : List (Option Nat) × Nat :=
  let rs := (xs.zip ys).map fun p => p.1.map fun x => f x p.2
  (rs.map fun r => r.map Prod.fst, rs.foldl (fun x p => x ||| (p.map Prod.snd).getD 0) 0)

/-- An operation with one constant mapped over a row. -/
def mapC (f : Nat → Nat → Nat × Nat) (xs : List (Option Nat)) (k : Nat) : List (Option Nat) × Nat :=
  mapFl f xs (xs.map fun _ => k)

/-- `rms_norm` of R115 before the final conversion: FP32 codes, VEC flags, SFU flags. -/
def rmsRow (xs : List (Option Nat)) (g : List Nat) (invN eps : Nat) : List (Option Nat) × Nat × Nat :=
  let ss := rowReduce (fun a x => fpFma ctl0 f32 x x a) xs
  let a := fpMul ctl0 f32 ss.1 invN
  let b := fpAdd ctl0 f32 a.1 eps
  let r := romOp ctl0 4 f32 f32 b.1
  let p := mapC (fpMul ctl0 f32) xs r.1
  let y := mapFl (fpMul ctl0 f32) p.1 g
  (y.1, ss.2 ||| a.2 ||| b.2 ||| p.2 ||| y.2, r.2)

/-- `layer_norm` of R115 before the final conversion. -/
def lnRow (xs : List (Option Nat)) (g be : List Nat) (invN eps : Nat) : List (Option Nat) × Nat × Nat :=
  let s1 := rowReduce (fun a x => fpAdd ctl0 f32 a x) xs
  let mu := fpMul ctl0 f32 s1.1 invN
  let d := mapC (fpSub ctl0 f32) xs mu.1
  let s2 := rowReduce (fun a x => fpFma ctl0 f32 x x a) d.1
  let v := fpMul ctl0 f32 s2.1 invN
  let b := fpAdd ctl0 f32 v.1 eps
  let r := romOp ctl0 4 f32 f32 b.1
  let p := mapC (fpMul ctl0 f32) d.1 r.1
  let q := mapFl (fpMul ctl0 f32) p.1 g
  let y := mapFl (fpAdd ctl0 f32) q.1 be
  (y.1, s1.2 ||| mu.2 ||| d.2 ||| s2.2 ||| v.2 ||| b.2 ||| p.2 ||| q.2 ||| y.2, r.2)

/-! ### Masks (R179, R180) -/

/-- A mask record (Table 8-2, R182, R185). -/
structure MaskRec where
  qpos0  : Nat
  group  : Nat
  causal : Bool
  window : Bool
  sink   : Bool
  glob   : Bool
  bitmap : Bool
  tree   : Bool
  summ   : Nat
  nsink  : Nat
  win    : Nat
  treeBase : Nat
  kpos   : List Nat
  gpos   : List Nat
  resOk  : Bool
  tm     : Bytes      -- the tree mask, when TREE
  bm     : Bytes      -- the bitmap, when BITMAP
  deriving DecidableEq, Repr

/-- Bytes a mask handle must have (R178). -/
def maskNeeds (ctrl : Nat) : Nat := 64 + 512 * bits ctrl 5 1 + 1024 * bits ctrl 4 1

def maskOf (b : Bytes) : MaskRec :=
  let c := byteAt b 5
  let t := if bit c 5 then 512 else 0
  { qpos0 := leAt b 0 4, group := byteAt b 4, causal := bit c 0, window := bit c 1, sink := bit c 2, glob := bit c 3,
    bitmap := bit c 4, tree := bit c 5, summ := bits (byteAt b 6) 0 2, nsink := byteAt b 7, win := leAt b 8 4,
    treeBase := leAt b 12 4, kpos := (List.range 4).map fun g => leAt b (16 + 4 * g) 4,
    gpos := (List.range 4).map fun g => leAt b (32 + 4 * g) 4,
    resOk := bits c 6 2 == 0 && byteAt b 6 / 4 == 0 && allZero (sub b 48 16),
    tm := sub b 64 t, bm := sub b (64 + t) (if bit c 4 then 1024 else 0) }

/-- The checks of R179. -/
def maskOk (r : MaskRec) : Bool :=
  r.resOk && r.summ != 3 && !(r.summ == 2 && ((r.window && r.win == 0) || r.group == 0))

/-- `p` is a global position; an entry of all ones is unused (Table 8-2). -/
def inGpos (r : MaskRec) (p : Nat) : Bool := p != 0xFFFFFFFF && r.gpos.contains p

/-- Presence under EVAL of an enabled pair (R180). -/
def evalPresent (r : MaskRec) (row j : Nat) : Bool :=
  let q := r.qpos0 + row / r.group
  let p := r.kpos.getD (j / 16) 0 + j % 16
  let ok :=
    if r.tree && r.treeBase ≤ q && r.treeBase ≤ p then
      let i := q - r.treeBase
      let k := p - r.treeBase
      i < 64 && k < 64 && bit (leAt r.tm (8 * i) 8) k
    else
      let okc := !(r.causal && q < p)
      let dist := if r.causal then q - p else (if p ≤ q then q - p else p - q)
      if okc && r.window && r.win ≤ dist then
        (r.sink && p < r.nsink) || (r.glob && (inGpos r p || inGpos r q))
      else okc
  ok && (!r.bitmap || bit (leAt r.bm (8 * row) 8) j)

/-- Presence of an enabled pair under the tile's summary (R181). -/
def maskPresent (r : MaskRec) (row j : Nat) : Bool :=
  match r.summ with
  | 0 => false
  | 1 => true
  | _ => evalPresent r row j

end Sys2Proof.Machine
end

