-- ==== Sys2Proof/Machine/SmallXfer.lean ====
section
/-! DEFINITION. Small transfers of the control cores (R167, R168), and pushes made by units that are no station. -/

namespace Sys2Proof.Machine

/-- The queue with a QID: its slot and its place in the graph. (DESIGN CHOICE, log 68.) -/
def findQid (qid : Nat) : List GraphSlot → Nat → Option (Nat × Nat × Queue)
  | [], _ => none
  | sl :: t, slot =>
    match sl.graph with
    | none => findQid qid t (slot + 1)
    | some g =>
      match indexWhere (fun (q : Queue) => q.qid == qid) g.queues 0 with
      | none => findQid qid t (slot + 1)
      | some i =>
        match g.queues[i]? with
        | some q => some (slot, i, q)
        | none => none

/-- A push by QID of a handle with POOL 0xFF, as the queue's first producer, with the SEQ it expects (R32). -/
inductive QidPush where
  | absent
  | full
  | done (s : State)

/-- DESIGN CHOICE, log 68. -/
def pushQid (s : State) (qid : Nat) (h : Handle) : QidPush :=
  match findQid qid s.graphs 0 with
  | none => .absent
  | some (slot, i, q) =>
    if queueRoom q 0 then
      .done (modGraph (modQueue s slot i fun x => enqueue x 0 { h with seq := q.nextSeq.getD 0 0#16 }) slot fun x =>
        notePush s.now i { x with lastMove := s.now, stallOut := false })
    else .full

/-- A command of Table 7-7, field by field. -/
def smallOf (slotAddr : Nat) (b : Bytes) : SmallCmd :=
  { slotAddr := slotAddr, srcAs := bits (leAt b 0 8) 48 2, src := bits (leAt b 0 8) 0 48,
    dstAs := bits (leAt b 8 8) 48 2, dst := bits (leAt b 8 8) 0 48, len := leAt b 16 2, push := bit (byteAt b 18) 0,
    qid := leAt b 20 2 % 4096,
    resOk := leAt b 0 8 / 2 ^ 50 == 0 && leAt b 8 8 / 2 ^ 50 == 0 && byteAt b 18 / 2 == 0 && leAt b 20 2 / 4096 == 0
      && leAt b 22 2 == 0 && bits (leAt b 0 8) 48 2 < 2 && bits (leAt b 8 8) 48 2 < 2 }

/-- SMALL_TRANSFER: a store to the port; a full queue of 16 stalls it. -/
def execSmallTransfer (cluster slotAddr : Nat) (cmd : BitVec 256) (s : State) : Host.Outcome State Fault Refusal :=
  onUnit cluster 16 "cluster" <|
    if (clusterAt s cluster).small.length < 16 then
      modCluster s cluster fun x => { x with small := x.small ++ [smallOf slotAddr (leBytes 32 cmd.toNat)] }
    else s

/-- The source of a small transfer; far bytes cross the die link (R311). -/
def smallRead (s : State) (cluster : Nat) (c : SmallCmd) : State × Except Status Bytes :=
  if c.srcAs = 1 then
    if hostPresent s c.src c.len then (s, .ok (hostPeek s c.src c.len)) else (s, .error .pageFault)
  else
    let r := memRead s c.src c.len
    match r.2 with
    | .hole => (r.1, .error .badDescriptor)
    | .bad _ _ => (r.1, .error .pagePoisoned)
    | .ok d => (dlCtrl r.1 (dieOf c.src) (cluster / 8) c.len, .ok d)

/-- The destination of a small transfer takes every byte. -/
def smallWrite (s : State) (cluster : Nat) (c : SmallCmd) (d : Bytes) : Except Status State :=
  if c.dstAs = 1 then
    if hostPresent s c.dst c.len then .ok (hostPoke s c.dst d) else .error .pageFault
  else
    match writeAny s c.dst d with
    | none => .error .badDescriptor
    | some t => .ok (dlCtrl t (cluster / 8) (dieOf (if isAlias c.dst then aliasTarget c.dst else c.dst)) c.len)

/-- The handle a small transfer pushes (R168); what the rule does not state of it is free. (DESIGN CHOICE, log 68.) -/
def smallHandle (s : State) (c : SmallCmd) : Handle :=
  let v := Config.freeNat s.free
  ⟨.ok, bits v 16 4, bit v 20, 0#16, roundUp c.len 32, 0xFF, BitVec.ofNat 16 v, c.dst⟩

/-- The command's STATUS goes into its own slot. -/
def smallEnd (s : State) (cluster : Nat) (c : SmallCmd) (st : Status) : State :=
  modCluster ((memWrite s (c.slotAddr + 19) [BitVec.ofNat 8 (statusCode st)]).getD s) cluster fun x =>
    { x with small := x.small.drop 1 }

/-- A small transfer whose fields are accepted: all of it or none, then its push. -/
def smallRun (s : State) (cluster : Nat) (c : SmallCmd) : State :=
  if c.push && (match pushQid s c.qid (smallHandle s c) with | .full => true | _ => false) then s
  else if c.push && (findQid c.qid s.graphs 0).isNone then smallEnd s cluster c .badDescriptor
  else
    let r := smallRead s cluster c
    match r.2 with
    | .error e => smallEnd r.1 cluster c e
    | .ok d =>
      match smallWrite r.1 cluster c d with
      | .error e => smallEnd r.1 cluster c e
      | .ok t =>
        if c.push then
          match pushQid (tick1 t) c.qid (smallHandle t c) with
          | .done u => smallEnd u cluster c .ok
          | _ => smallEnd t cluster c .ok
        else smallEnd t cluster c .ok

/-- SMALL_TRANSFER_DONE: the oldest command of the port completes (R168). -/
def execSmallTransferDone (cluster : Nat) (s : State) : Host.Outcome State Fault Refusal :=
  onUnit cluster 16 "cluster" <|
    match (clusterAt s cluster).small with
    | [] => s
    | c :: _ =>
      if !c.resOk || c.len = 0 || 256 < c.len then smallEnd s cluster c .badDescriptor else smallRun s cluster c

end Sys2Proof.Machine
end

