-- ==== Sys2Proof/Machine/Mma.lean ====
section
/-! DEFINITION. The MMA work descriptor (chapter 6), fused chains and block attention (chapter 8). -/

namespace Sys2Proof.Machine

/-! ### The descriptor (Table 6-1) and the fusion record (Table 6-3) -/

structure MmaDesc where
  pcw   : Pcw
  k     : Nat
  m     : Nat
  n     : Nat
  kMax  : Nat
  mMax  : Nat
  nMax  : Nat
  kta   : Nat
  ktb   : Nat
  aPort : Nat
  bPort : Nat
  cPort : Nat
  outPort : Nat
  aHold : Nat
  bHold : Nat
  pred  : Nat
  notify : Bool
  fuse  : Bool
  shape : Nat
  dyn   : Bool
  predLd : Nat
  predSet : Nat
  fuseRec : Nat
  resOk : Bool
  deriving DecidableEq, Repr

def mmaDescOf (b : Bytes) : MmaDesc :=
  let p := leAt b 28 4
  let sh := leAt b 32 8
  let pl := leAt b 40 8
  { pcw := pcwOf (leAt b 0 8), k := leAt b 8 3, m := byteAt b 11, n := byteAt b 12 % 128, kMax := leAt b 13 3,
    mMax := byteAt b 16, nMax := byteAt b 17 % 128, kta := leAt b 20 3, ktb := leAt b 23 3, aPort := bits p 0 3,
    bPort := bits p 3 3, cPort := bits p 6 3, outPort := bits p 9 3, aHold := bits p 12 2, bHold := bits p 14 2,
    pred := bits p 16 4, notify := bit p 20, fuse := bit p 21, shape := bits sh 0 48, dyn := bit sh 48,
    predLd := bits pl 0 48, predSet := bits pl 48 4, fuseRec := bits (leAt b 48 8) 0 48,
    resOk := byteAt b 12 / 128 == 0 && byteAt b 17 / 128 == 0 && leAt b 18 2 == 0 && leAt b 26 2 == 0 && p / 2 ^ 22 == 0
      && sh / 2 ^ 49 == 0 && pl / 2 ^ 52 == 0 && leAt b 48 8 / 2 ^ 48 == 0 && leAt b 56 8 == 0 }

structure FuseRec where
  mode  : Nat
  fid   : Nat
  pfmt  : Nat
  acb   : Nat
  n2    : Nat
  b2Port : Nat
  vPort : Nat
  first : Bool
  push  : Bool
  scale : Nat
  pcw2  : Pcw
  resOk : Bool
  deriving DecidableEq, Repr

def fuseOf (b : Bytes) : FuseRec :=
  { mode := byteAt b 0, fid := byteAt b 1 % 32, pfmt := byteAt b 2 % 16, acb := byteAt b 3, n2 := leAt b 4 2,
    b2Port := bits (byteAt b 6) 0 3, vPort := bits (byteAt b 6) 3 3, first := bit (byteAt b 7) 0, push := bit (byteAt b 7) 1,
    scale := leAt b 8 4, pcw2 := pcwOf (leAt b 16 8),
    resOk := byteAt b 1 / 32 == 0 && byteAt b 2 / 16 == 0 && byteAt b 6 / 64 == 0 && byteAt b 7 / 4 == 0 && leAt b 12 4 == 0
      && leAt b 24 8 == 0 }

def isStats (f : FuseRec) : Bool := f.mode == 2
def isGated (f : FuseRec) : Bool := f.mode == 1

/-- A second operand with scales or records arrives with a companion (R121). -/
def hasSide (w : Pcw) : Bool := w.mxB || w.expB != 0

/-- The fusion record with what it asks of a descriptor. -/
def fusePart (p : MmaPart) : Option FuseRec := if p.fuse.isEmpty then none else some (fuseOf p.fuse)

/-- C_PORT is popped (R122, R173). -/
def wantsC (d : MmaDesc) (f : Option FuseRec) : Bool :=
  d.pcw.accin && (match f with
    | some r => !isStats r || r.first
    | none => true)

/-- Every input port the descriptor names. -/
def namedPorts (d : MmaDesc) (f : Option FuseRec) : List Nat :=
  [d.aPort] ++ (if d.pcw.mxA then [d.aPort + 1] else []) ++ [d.bPort] ++ (if hasSide d.pcw then [d.bPort + 1] else [])
    ++ (if wantsC d f then [d.cPort] else [])
    ++ (match f with
        | none => []
        | some r =>
          (if isStats r then [r.b2Port] else if isGated r then r.b2Port :: (if hasSide d.pcw then [r.b2Port + 1] else []) else [])
            ++ r.vPort :: (if hasSide r.pcw2 then [r.vPort + 1] else []))

def allDistinct : List Nat → Bool
  | [] => true
  | x :: t => !t.contains x && allDistinct t

/-- The ports the descriptor pops: a held operand's are not popped (R126). -/
def poppedPorts (d : MmaDesc) (f : Option FuseRec) : List Nat :=
  (namedPorts d f).filter fun p =>
    !((2 ≤ d.aHold && (p == d.aPort || (d.pcw.mxA && p == d.aPort + 1)))
      || (2 ≤ d.bHold && (p == d.bPort || (hasSide d.pcw && p == d.bPort + 1))))

/-- The checks of R121, R70 and R127 at decode that need no fusion record (R5). -/
def descOk (d : MmaDesc) : Bool :=
  let kb := if d.dyn then d.kMax else d.k
  d.resOk && pcwOk d.pcw
    && decide (1 ≤ d.mMax ∧ d.mMax ≤ 128 ∧ 1 ≤ d.nMax ∧ d.nMax ≤ 64 ∧ d.n ≤ 64 ∧ 32 ≤ d.kta ∧ 32 ≤ d.ktb)
    && d.kta % 32 == 0 && d.ktb % 32 == 0 && !(d.predSet == 0 && d.predLd != 0)
    && !(d.aHold != 0 && d.kta < kb) && !(d.bHold != 0 && d.ktb < kb)

/-- The checks at decode, with those on the ports the fusion record names (R121, R178). -/
def mmaOk (d : MmaDesc) (f : Option FuseRec) : Bool :=
  descOk d && (namedPorts d f).all (fun p => p < 8) && allDistinct (namedPorts d f)

/-- The checks of R133, R135, R112 and R96 on a fusion record. A chain keeps one N2, and a STATS record, which names no function,
holds FID 0: a record with another is rejected. (DESIGN CHOICE, log 160.) -/
def fuseOk (x : Core) (d : MmaDesc) (f : FuseRec) : Bool :=
  f.resOk && f.mode < 3 && (fmtOfCode f.pfmt).isSome && f.pfmt != 8 && f.pfmt != 0xF && pcwOk f.pcw2 && acbOk f.acb
    && !bit f.acb 7 && f.pcw2.fmtA == f.pfmt && !f.pcw2.mxA && !f.pcw2.accin && f.pcw2.acb == f.acb
    && decide (1 ≤ f.n2 ∧ f.n2 ≤ 256 ∧ f.n2 * d.mMax * 4 ≤ 131072) && (f.first == x.chain.isNone)
    && (match x.chain with
        | some c => c.n2 == f.n2
        | none => true)
    && (if isStats f then
          !d.pcw.acc && f.pcw2.kpiece == 0 && scaleOk f.scale && f.fid == 0 && (f.pfmt == 0 || f.pfmt == 3)
        else f.scale == 0 && fidOk f.fid && (f.fid < 0x10 || bankValid (activeBank x) f.fid))

/-! ### Extents, predicates and operand bytes -/

/-- Handles of an operand (R122). (DEDUCED, log 51.) -/
def handlesFor (k kt : Nat) : Nat := if k = 0 then 1 else (k + kt - 1) / kt

/-- k carried by handle `i`. -/
def kOf (k kt i : Nat) : Nat := min kt (k - i * kt)

/-- Bytes of one row of an operand's handle, and of its companion's (R47, R49, R50). (DESIGN CHOICE, log 45.) -/
def rowBytesOf (fmt : NumFmt) (n : Nat) : Nat := packedBytes fmt n

/-- DESIGN CHOICE, log 45. -/
def sideBytesOf (mx : Bool) (expB n : Nat) : Nat :=
  let g := (n + 31) / 32
  if mx then g else match expB with | 0 => 0 | 1 => 32 | 2 => 32 * g | 3 => 4 | _ => 4 * g

/-- Handles queued on an input port that a consumer has still to take: in a JOIN queue those of rounds that fill, too, and of a
delivered round the one that is left (R30). -/
def queuedFor (g : Graph) (i port : Nat) : List Handle :=
  match (consQueue g i port).bind fun q => g.queues[q]? with
  | none => []
  | some q =>
    match q.mode with
    | .join => ((q.rounds.filter fun r => r.left.contains (i - q.consAt)).map fun r =>
        if r.delivered then ((roundFull r).map roundHandle).toList else r.got.filterMap id).flatten
    | .bcast => (q.entries.filter fun e => e.left.contains (i - q.consAt)).map fun e => e.h
    | _ => q.entries.map fun e => e.h

/-- Handles a station holds. (DEDUCED, log 51.) -/
def stationHandles (s : State) (x : Station) : List Handle :=
  x.inHand.map Prod.snd ++ (x.strm.tiles.map fun t => t.h :: (match t.comp with | some c => [c] | none => [])).flatten
    ++ (if x.kind == .mma then mmaHandles (coreAt s x.unit) else [])

/-- Handles that name entry `e` and are queued to the core or held by it (R132). (DEDUCED, log 51.) -/
def predCount (s : State) (core e : Nat) : Nat :=
  (s.graphs.map fun sl => match sl.graph with
    | none => 0
    | some g => ((numbered g.stations 0).map fun p =>
        if p.2.unit == core && (p.2.kind == .load || p.2.kind == .store || p.2.kind == .mma || p.2.kind == .vec) then
          (((List.range 8).map (queuedFor g p.1)).flatten ++ stationHandles s p.2).countP fun h => h.pred == e
        else 0).sum).sum

/-! ### One output element -/

/-- An operand as it was read: one entry per handle. -/
structure OperandBytes where
  fmt  : NumFmt
  mx   : Bool
  expB : Nat
  k    : Nat
  kt   : Nat
  rows : Nat
  parts : List (Bytes × Bytes)
  deriving DecidableEq, Repr

/-- Element `k` of row `r` (R71). -/
def operandElem (c : Ctl) (o : OperandBytes) (r k : Nat) : Elem :=
  let i := k / o.kt
  let j := k % o.kt
  let n := kOf o.k o.kt i
  let p := o.parts.getD i ([], [])
  let rb := rowBytesOf o.fmt n
  let sb := sideBytesOf o.mx o.expB n
  let unit := if o.mx then 1 else match o.expB with | 1 => 32 | 2 => 32 | _ => 4
  let grp := if o.mx || o.expB == 2 || o.expB == 4 then j / 32 else 0
  elemVal c ⟨o.fmt, o.mx, o.expB, o.k⟩ (elemAt o.fmt (sub p.1 (r * rb) rb) j) (sub p.2 (r * sb + unit * grp) unit)

/-- The pairs of output element (r, c) in k order. -/
def pairsOf (c : Ctl) (a b : OperandBytes) (r n : Nat) : List Pair :=
  (List.range a.k).map fun k => some (operandElem c a r k, operandElem c b n k)

def fmtA (w : Pcw) : NumFmt := (fmtOfCode w.fmtA).getD .bf16
def fmtB (w : Pcw) : NumFmt := (fmtOfCode w.fmtB).getD .bf16

/-- DESIGN CHOICE, log 45. -/
def operandA (d : MmaDesc) (p : MmaPart) (k m : Nat) : OperandBytes :=
  ⟨fmtA d.pcw, d.pcw.mxA, 0, k, d.kta, m, p.a⟩
/-- DESIGN CHOICE, log 45. -/
def operandB (d : MmaDesc) (parts : List (Bytes × Bytes)) (k n : Nat) : OperandBytes :=
  ⟨fmtB d.pcw, d.pcw.mxB, d.pcw.expB, k, d.ktb, n, parts⟩

/-- The C element of an accumulator tile (R118). (DEDUCED, log 38.) -/
def cElem (c : Option Bytes) (r n : Nat) : Option Nat := c.map fun b => leAt b (256 * r + 4 * n) 4

/-- Element (r, c) of a product: +0 and no flag where it is disabled (R131). -/
def productElem (w : Pcw) (en : BitVec 128 × BitVec 64) (a b : OperandBytes) (c : Option Bytes) (r n : Nat) : Nat × Nat :=
  if en.1.getLsbD r && en.2.getLsbD n then dotElem w (cElem c r n) (pairsOf (ctlOf w.acb) a b r n) else (0, 0)

def orAll (l : List Nat) : Nat := l.foldl (fun a x => a ||| x) 0

/-- The output tile of an ordinary product: M rows of 64 columns (R118), and the flags. -/
def productTile (d : MmaDesc) (en : BitVec 128 × BitVec 64) (p : MmaPart) (k m n : Nat) : Bytes × Nat :=
  let a := operandA d p k m
  let b := operandB d p.b k n
  let es := ((List.range m).map fun r => (List.range 64).map fun c =>
    if c < n then productElem d.pcw en a b p.c r c else (0, 0)).flatten
  ((es.map fun e => leBytes 4 e.1).flatten, orAll (es.map Prod.snd))

/-! ### Fused chains -/

/-- The second operand of the second product, element (k, column). Under STATS the rows are keys (R171); else they are
columns, as any B operand. -/
def secondElem (f : FuseRec) (v : Bytes × Bytes) (n : Nat) (j i : Nat) : Elem :=
  let c := if isStats f then ctl0 else ctlOf f.acb
  let w := f.pcw2
  let fm := fmtB w
  let ng := (n + 31) / 32
  let unit := if w.mxB then 1 else match w.expB with | 1 => 32 | 2 => 32 | _ => 4
  let side := if w.mxB || w.expB == 2 || w.expB == 4 then i * ng + j / 32 else i
  let code := if isStats f then elemAt fm (sub v.1 (j * packedBytes fm f.n2) (packedBytes fm f.n2)) i
    else elemAt fm (sub v.1 (i * packedBytes fm n) (packedBytes fm n)) j
  elemVal c ⟨fm, w.mxB, w.expB, n⟩ code (sub v.2 (unit * side) unit)

/-- Bytes the second operand's handle must hold, and its companion's. -/
def secondBytes (f : FuseRec) (n : Nat) : Nat × Nat :=
  (if isStats f then n * packedBytes (fmtB f.pcw2) f.n2 else f.n2 * packedBytes (fmtB f.pcw2) n,
   f.n2 * sideBytesOf f.pcw2.mxB f.pcw2.expB n)

/-- Rows up to `m`, new ones at their start. -/
def growTo {α : Type} (m : Nat) (x : α) (l : List α) : List α := l ++ List.replicate (m - l.length) x

/-- A chain as it opens (R133, R173). -/
def openChain (x : Core) (f : FuseRec) : Chain :=
  { mode := if isStats f then .stats else if isGated f then .gated else .elem, fid := f.fid, bank := x.active, n2 := f.n2,
    rows := [], acc := [], piece := [], pend := [], pendC := List.replicate f.n2 [], k := 0, pieces := 0, mark := .ok }

/-- Scores of a row: none where the pair is absent (R180). (DEDUCED, log 49.) -/
def scoresOf (d : MmaDesc) (en : BitVec 128 × BitVec 64) (mask : MaskRec) (a b : OperandBytes) (n r : Nat) :
    List (Option (Nat × Nat)) :=
  (List.range n).map fun j =>
    if en.1.getLsbD r && en.2.getLsbD j && maskPresent mask r j then
      some (dotF { d.pcw with accin := false } none (pairsOf (ctlOf d.pcw.acb) a b r j))
    else none

/-- One statistics tile folded into the rows, under ACB 0x00 as R111 fixes it; R135 lets the record hold another ACB.
(R111, R171; DEDUCED, log 162.) -/
def statsFold (d : MmaDesc) (f : FuseRec) (en : BitVec 128 × BitVec 64) (mask : MaskRec) (p : MmaPart) (k m n : Nat)
    (c : Chain) : Chain × Fl3 :=
  if mask.summ = 0 then (c, fl0)
  else
    let a := operandA d p k m
    let b := operandB d p.b k n
    let v := p.v.getD ([], [])
    let cols := (List.range f.n2).map fun i => (List.range n).map fun j => secondElem f v n j i
    let out := (numbered c.rows 0).map fun q =>
      if q.1 < m then
        let ss := scoresOf d en mask a b n q.1
        let r := statsUpdate 0 { f.pcw2 with acb := 0 } ((fmtOfCode f.pfmt).getD .bf16) f.scale (ss.map fun x => x.map Prod.fst) cols q.2
        (r.1, flOr r.2 ⟨orAll (ss.filterMap fun x => x.map Prod.snd), 0, 0⟩)
      else (q.2, fl0)
    ({ c with rows := out.map fun x => x.1 }, out.foldl (fun acc x => flOr acc x.2) fl0)

/-- An output format of the SFU (R95). -/
def isSfuFmt (code : Nat) : Bool := code == 0 || code == 1 || code == 2 || code == 3 || code == 0xF

/-- A first-product element as FP32: an INT32 one converts (R54), on VEC as in its unfused form (R90). (DEDUCED, log 162.) -/
def firstElem (c : Ctl) (w : Pcw) (x : Nat) : Nat × Nat := if w.acc then convAny c (.int 32) (.flt f32) x else (x, 0)

/-- P of a first-product element: f(S1), in GATED times S2, in PFMT (R134). A PFMT the SFU has no output in is reached from its FP32
output. (DEDUCED, log 162.) -/
def pElem (w : Pcw) (f : FuseRec) (bank : Bank) (s1 : Nat) (s2 : Option Nat) : Nat × Fl3 :=
  let c := ctlOf f.acb
  let dst := anyFmt ((fmtOfCode f.pfmt).getD .bf16)
  let x := firstElem c w s1
  match s2, dst with
  | none, .flt pf =>
    if isSfuFmt f.pfmt then
      let r := sfuOp c bank f.fid f32 pf x.1
      (r.1, ⟨0, x.2, r.2⟩)
    else
      let r := sfuOp c bank f.fid f32 f32 x.1
      let q := convAny c (.flt f32) dst r.1
      (q.1, ⟨0, x.2, r.2 ||| q.2⟩)
  | none, _ =>
    let r := sfuOp c bank f.fid f32 f32 x.1
    let q := convAny c (.flt f32) dst r.1
    (q.1, ⟨0, x.2, r.2 ||| q.2⟩)
  | some y, _ =>
    let r := sfuOp c bank f.fid f32 f32 x.1
    let z := firstElem c w y
    let m := fpMul c f32 r.1 z.1
    let q := convAny c (.flt f32) dst m.1
    (q.1, ⟨0, x.2 ||| z.2 ||| m.2 ||| q.2, r.2⟩)

/-- One row and column of the fused accumulator takes a block; `piece` is the piece in progress. -/
def chainBlock (f : FuseRec) (ps : List (Option Word)) (cs : List Dword) (acc : Word) : Word × Nat :=
  let c := ctlOf f.acb
  let pf := anyFmt ((fmtOfCode f.pfmt).getD .bf16)
  let prs : List Pair := (ps.zip cs).map fun x => x.1.map fun p =>
    let o := operandAny c pf p.toNat
    (⟨o.1, o.2⟩, ⟨decodeF f64 x.2.toNat, 0⟩)
  if f.pcw2.acc then
    let r := accRunI (signed 32 acc.toNat, 0) [prs]
    (BitVec.ofNat 32 (toField 32 r.1), r.2)
  else
    let r := addBlock c f.pcw2 (acc.toNat, 0) prs
    (BitVec.ofNat 32 r.1, r.2)

/-- The start of an accumulator: −0, or 0 for INT32 (R77, R84). -/
def accStart (w : Pcw) : Word := if w.acc then 0#32 else BitVec.ofNat 32 negZero32

/-- A finished piece joins the pieces before it (R80). -/
def joinPiece (f : FuseRec) (pieces : Nat) (acc piece : Word) : Word × Nat :=
  if pieces = 0 then (piece, 0)
  else if f.pcw2.acc then
    let r := satAddI (2 ^ 31) (signed 32 acc.toNat) (signed 32 piece.toNat)
    (BitVec.ofNat 32 (toField 32 r.1), r.2)
  else
    let r := accAdd (ctlOf f.acb) (acc.toNat, 0) (piece.toNat, 0)
    (BitVec.ofNat 32 r.1, r.2)

/-- The pending block goes into the piece in progress. -/
def chainFlush (f : FuseRec) (c : Chain) : Chain × Nat :=
  if c.pendC.all fun x => x.isEmpty then (c, 0)
  else
    let out := (c.piece.zip c.pend).map fun rp => (rp.1.zip c.pendC).map fun x => chainBlock f rp.2 x.2 x.1
    ({ c with piece := out.map fun r => r.map Prod.fst, pend := c.pend.map fun _ => [], pendC := c.pendC.map fun _ => [] },
     orAll (out.map fun r => orAll (r.map Prod.snd)))

/-- The piece in progress ends. -/
def chainPiece (f : FuseRec) (c : Chain) : Chain × Nat :=
  let out := (c.acc.zip c.piece).map fun x => (x.1.zip x.2).map fun y => joinPiece f c.pieces y.1 y.2
  ({ c with acc := out.map fun r => r.map Prod.fst, piece := c.piece.map fun r => r.map fun _ => accStart f.pcw2,
            pieces := c.pieces + 1 }, orAll (out.map fun r => orAll (r.map Prod.snd)))

/-- Column `j` of the first product enters the second product at the chain's next k (R134). -/
def chainColumn (f : FuseRec) (ps : List (Option Word)) (cs : List Dword) (c : Chain) : Chain × Nat :=
  let boundary := f.pcw2.kpiece != 0 && c.k != 0 && c.k % (32 * f.pcw2.kpiece) == 0
  let r := if boundary then chainPiece f c else (c, 0)
  let rows := (r.1.pend.zip ps).map fun x => x.1 ++ [x.2]
  let cols := (r.1.pendC.zip cs).map fun x => x.1 ++ [x.2]
  let c1 : Chain := { r.1 with pend := rows, pendC := cols, k := r.1.k + 1 }
  if c1.k % 32 = 0 then let q := chainFlush f c1; (q.1, r.2 ||| q.2) else (c1, r.2)

/-- An exact value as an FP64 code; a signalling NaN stays one, so that the product that meets it sets NV (R76). -/
def toF64 (v : Val) : Dword :=
  match v with
  | .nan n p true => BitVec.ofNat 64 (infCode f64 n + max 1 p)
  | _ => BitVec.ofNat 64 (convFloat { strict := true, mode := 0, flush := false, ieee := true } f64 v).1

/-- The columns of an ELEM or GATED descriptor folded in order (R134). The second product's k counts the columns there are, N of
them by descriptor. (DEDUCED, log 162.) -/
def elemFold (x : Core) (d : MmaDesc) (f : FuseRec) (en : BitVec 128 × BitVec 64) (p : MmaPart) (k m n : Nat) (c : Chain) :
    Chain × Fl3 :=
  let a := operandA d p k m
  let b := operandB d p.b k n
  let b2 := operandB d p.b2 k n
  let v := p.v.getD ([], [])
  let bank := x.banks.getD c.bank bankInvalid
  (List.range n).foldl (fun (st : Chain × Fl3) j =>
    let col := (List.range (max m st.1.acc.length)).map fun r =>
      if r < m && en.1.getLsbD r then
        if en.2.getLsbD j then
          let s1 := productElem d.pcw en a b p.c r j
          let s2 := if isGated f then some (productElem d.pcw en a b2 p.c r j) else none
          let q := pElem d.pcw f bank s1.1 (s2.map Prod.fst)
          (some (BitVec.ofNat 32 q.1), flOr q.2 ⟨s1.2 ||| (s2.map Prod.snd).getD 0, 0, 0⟩)
        else (some 0#32, fl0)
      else (none, fl0)
    let es := (List.range f.n2).map fun i => secondElem f v n j i
    let r := chainColumn f (col.map Prod.fst) (es.map fun e => toF64 e.v) st.1
    (r.1, flOr (col.foldl (fun t y => flOr t y.2) st.2) ⟨r.2 ||| (if col.any fun y => y.1.isSome then orAll (es.map fun e => e.fl) else 0), 0, 0⟩)) (c, fl0)

/-- Rows of a chain up to `m`. -/
def chainRows (f : FuseRec) (m : Nat) (c : Chain) : Chain :=
  if c.mode == .stats then { c with rows := growTo m (rowInit f.n2) c.rows }
  else
    { c with acc := growTo m (List.replicate f.n2 (accStart f.pcw2)) c.acc,
             piece := growTo m (List.replicate f.n2 (accStart f.pcw2)) c.piece,
             pend := growTo m (List.replicate ((c.pendC.headD []).length) none) c.pend }

/-- Bytes of a row of the tile a chain pushes: a state row (R172), or N2 values of 4 bytes and never fewer than the 64 columns of
an output tile (R118). (DEDUCED, log 47.) -/
def chainRowBytes (f : FuseRec) : Nat := if isStats f then rowBytes f.n2 else 4 * max 64 f.n2

/-- What the O_PUSH descriptor pushes: a state tile (R172), or O with disabled rows and the columns beyond N2 at +0 (R118, R131);
with the flags. (DEDUCED, log 47.) -/
def chainTile (f : FuseRec) (en : BitVec 128 × BitVec 64) (m : Nat) (c : Chain) : Bytes × Nat :=
  if c.mode == .stats then (padTo (stateBytes m f.n2) (rowsToBytes f.n2 (c.rows.take m)), 0)
  else
    let r1 := chainFlush f c
    let r2 := chainPiece f r1.1
    let rows := (numbered (r2.1.acc.take m) 0).map fun q => q.2.map fun w => if en.1.getLsbD q.1 then w else 0#32
    (padTo (roundUp (m * chainRowBytes f) 32)
      ((rows.map fun r => padTo (chainRowBytes f) (r.map fun w => leBytes 4 w.toNat).flatten).flatten),
      r1.2 ||| r2.2)

/-! ### Pops (R122, R123) -/

/-- Bytes of a popped handle under a mask: only sectors that hold a byte the engine examines are read, and one that is
uncorrectable makes the tile PAGE_POISONED (R131, R309). -/
structure Taken where
  st   : State
  data : Bytes
  status : Status

/-- The sectors of a range that hold an examined byte. -/
def seenSectors (a n : Nat) (on : Nat → Bool) : List Nat :=
  ((numbered (sectorsOf a n) 0).filter fun p =>
    (List.range 32).any fun j => a % 32 ≤ 32 * p.1 + j && 32 * p.1 + j < a % 32 + n && on (32 * p.1 + j - a % 32)).map Prod.snd

/-- A guarded read of the examined bytes of a range (R131, R308, R309). -/
def readSeen (s : State) (a n : Nat) (on : Nat → Bool) : State × Got :=
  if spanOk a n then
    let secs := seenSectors a n on
    let s1 := secs.foldl readSector s
    match secs.find? (isBad s) with
    | some k => (s1, .bad (32 * k) (peek s a n))
    | none => (s1, .ok (peek s a n))
  else (s, .hole)

/-- The first `n` bytes of a handle's tile: none where it is smaller or names a hole. An empty or poisoned handle is not read. -/
def takeBytes (s : State) (h : Handle) (n : Nat) (on : Nat → Bool) : Option Taken :=
  if h.status == .pagePoisoned || h.status == .chunkPoisoned || isEmptyHandle h then some ⟨s, [], h.status⟩
  else if h.bytes < n then none
  else
    let r := readSeen s h.addr n on
    match r.2 with
    | .hole => none
    | .bad _ d => some ⟨r.1, d, if statusFine h.status then .pagePoisoned else h.status⟩
    | .ok d => some ⟨r.1, d, h.status⟩

/-- The bytes of a tile whose rows of `rb` bytes are examined where `row` says. -/
def byRow (rb : Nat) (row : Nat → Bool) (i : Nat) : Bool := rb != 0 && row (i / rb)

/-- The descriptor in progress is given up: what it popped is released, and the station goes on with its next descriptor
(R124, R128). (DEDUCED, log 33.) -/
def mmaCut (s : State) (b : Bound) (p : MmaPart) (st : Status) : State :=
  let s1 := releaseAll s b.slot b.idx (partHandles p)
  let s2 := modCore s1 b.st.unit fun x => { x with part := none }
  let s3 := notifyEvent s2 b (mmaDescOf p.desc).notify st
  settle (modStation s3 b.slot b.idx fun x => { x with run := .halted st, wdi := b.st.wdi + 1, sub := 0 }) b.slot

/-- A halt after decode (R128). (DEDUCED, log 33.) -/
def mmaHalt (s : State) (b : Bound) (p : MmaPart) (st : Status) : State := mmaCut (haltCore s b.slot b.idx st) b p st

/-- The station has halted within its own descriptor: a release met a count at zero (R33). -/
def hasHalted (s : State) (b : Bound) : Bool :=
  match (slotGraph s b.slot).bind fun g => g.stations[b.idx]? with
  | some x => match x.run with
    | .halted _ => true
    | _ => false
  | none => false

/-- The extents of a shape word (R123). -/
def shapeExt (b : Bytes) : Option (Nat × Nat × Nat) :=
  if leAt b 0 8 / 2 ^ 39 = 0 then some (leAt b 0 3, byteAt b 3, bits (leAt b 0 8) 32 7) else none

/-- The extents once they are known, checked against their bounds (R124). -/
def readExt (s : State) (d : MmaDesc) : State × Except Status (Nat × Nat × Nat) :=
  let judge (e : Nat × Nat × Nat) : Except Status (Nat × Nat × Nat) :=
    if e.1 > d.kMax ∨ e.2.1 > d.mMax ∨ e.2.2 > d.nMax then .error .shapeOver else .ok e
  if d.dyn then
    let r := ctrlRead s d.shape 8
    match r.2 with
    | .error e => (r.1, .error e)
    | .ok b => match shapeExt b with
      | none => (r.1, .error .badDescriptor)
      | some e => (r.1, judge e)
  else (s, judge (d.k, d.m, d.n))

/-- What a descriptor pops, by its parts. -/
inductive PopKind where
  | a | b | c | mask | b2 | v
  deriving DecidableEq, Repr

/-- Ports of a pop of a kind. -/
def popPorts (d : MmaDesc) (f : Option FuseRec) : PopKind → List Nat
  | .a => if d.pcw.mxA then [d.aPort, d.aPort + 1] else [d.aPort]
  | .b => if hasSide d.pcw then [d.bPort, d.bPort + 1] else [d.bPort]
  | .c => [d.cPort]
  | .mask => match f with
    | some r => [r.b2Port]
    | none => []
  | .b2 => match f with
    | some r => if hasSide d.pcw then [r.b2Port, r.b2Port + 1] else [r.b2Port]
    | none => []
  | .v => match f with
    | some r => if hasSide r.pcw2 then [r.vPort, r.vPort + 1] else [r.vPort]
    | none => []

/-- Pops of a kind made so far. -/
def popsMade (p : MmaPart) : PopKind → Nat
  | .a => p.a.length + p.wa.length
  | .b => p.b.length + p.wb.length
  | .b2 => p.b2.length + p.wb2.length
  | .c => if p.wc.isEmpty then 0 else 1
  | .mask => if p.mask.isNone then 0 else 1
  | .v => if p.wv.isEmpty then 0 else 1

/-- Pops of a kind in all, for K extents of `k` (R122, R178). -/
def popsAsked (d : MmaDesc) (f : Option FuseRec) (k : Nat) : PopKind → Nat
  | .a => if d.aHold < 2 then handlesFor k d.kta else 0
  | .b => if d.bHold < 2 then handlesFor k d.ktb else 0
  | .b2 => match f with
    | some r => if isGated r then handlesFor k d.ktb else 0
    | none => 0
  | .c => flag (wantsC d f)
  | .mask => match f with
    | some r => flag (isStats r)
    | none => 0
  | .v => flag f.isSome

/-- Every pop has been made. -/
def popsDone (d : MmaDesc) (f : Option FuseRec) (p : MmaPart) (e : Nat × Nat × Nat) : Bool :=
  [PopKind.a, .b, .c, .mask, .b2, .v].all fun k => decide (popsAsked d f e.1 k ≤ popsMade p k)

/-- A mask record whose tile reads no key or value (R181). -/
def maskNone (f : Option FuseRec) (p : MmaPart) : Bool :=
  match f, p.mask with
  | some r, some m => isStats r && !m.isEmpty && (maskOf m).summ == 0
  | _, _ => false

/-- The first status in input-port order that is neither OK nor EMPTY (R28). (DEDUCED, log 48.) -/
def portStatus (l : List (Nat × Status)) : Status :=
  carried (((List.range 8).map fun p => (l.filter fun x => x.1 == p).map Prod.snd).flatten)

def isPoison (s : Status) : Bool := s == .pagePoisoned || s == .chunkPoisoned

/-- Operand bytes are read: no extent is zero (R125), no input is empty (R27) or poisoned (R28), and the mask leaves something
present (R181). -/
def readsOperands (f : Option FuseRec) (p : MmaPart) (e : Nat × Nat × Nat) : Bool :=
  decide (e.1 ≠ 0 ∧ e.2.1 ≠ 0 ∧ e.2.2 ≠ 0) && !p.empty && !isPoison (portStatus p.popped) && !maskNone f p

/-- What a pop adds to the descriptor's progress: its handles, and their statuses. -/
def putPop (p : MmaPart) (ports : List Nat) (hs : List Handle) (k : PopKind) : MmaPart :=
  let q := { p with popped := p.popped ++ ports.zip (hs.map fun (h : Handle) => h.status), empty := p.empty || hs.any isEmptyHandle }
  match k with
  | .a => { q with wa := q.wa ++ [hs], tag := if popsMade p .a = 0 then (hs.headD (emptyHandle 0#16 false)).tag else q.tag }
  | .b => { q with wb := q.wb ++ [hs] }
  | .b2 => { q with wb2 := q.wb2 ++ [hs] }
  | .c => { q with wc := hs }
  | .v => { q with wv := hs }
  | .mask => { q with rest := q.rest ++ hs }

/-- A pop's outcome for the descriptor. -/
inductive PopStep where
  | none                                   -- nothing of this kind remains, or nothing can be popped yet
  | wait (ports : List Nat)
  | halt (s : State) (p : MmaPart) (st : Status)
  | got (s : State) (p : MmaPart)

/-- A mask handle: a control structure, judged before folding (R178, R179, R402). -/
def takeMask (s : State) (p : MmaPart) (ports : List Nat) (h : Handle) : PopStep :=
  let q := putPop p ports [h] .mask
  if isEmptyHandle h || h.status == .pagePoisoned || h.status == .chunkPoisoned then .got s { q with mask := some [] }
  else if h.bytes < 64 then .halt s q .badDescriptor
  else
    let r := ctrlRead s h.addr 64
    match r.2 with
    | .error e => .halt r.1 q e
    | .ok hd =>
      let n := maskNeeds (byteAt hd 5)
      if h.bytes < n then .halt r.1 q .badDescriptor
      else
        let w := if n = 64 then (r.1, Except.ok []) else ctrlRead r.1 (h.addr + 64) (n - 64)
        match w.2 with
        | .error e => .halt w.1 q e
        | .ok tail =>
          if maskOk (maskOf (hd ++ tail)) then .got w.1 { q with mask := some (hd ++ tail) } else .halt w.1 q .badDescriptor

/-- One pop of a kind, while the descriptor has one left; before its extents are known it has its anchor pop alone (R123). -/
def popStep (s : State) (b : Bound) (d : MmaDesc) (f : Option FuseRec) (p : MmaPart) (k : PopKind) : PopStep :=
  let asked := match p.ext with
    | some e => popsAsked d f e.1 k
    | none => 1
  if asked ≤ popsMade p k then .none
  else
    let ports := popPorts d f k
    match popAll s b.slot b.idx ports with
    | none => .wait ports
    | some r =>
      if hasHalted r.1 b then .halt r.1 (putPop p ports r.2 k) .internal
      else if k == .mask then takeMask r.1 p ports (r.2.headD (emptyHandle 0#16 false))
      else .got r.1 (putPop p ports r.2 k)

/-! ### Use of popped handles (R122, R126) -/

/-- k covered by the pops of an operand; a held one covers all of it (R126). -/
def covered (held : Bool) (k kt pops : Nat) : Nat := if held then k else min k (pops * kt)

/-- The next handles of A, B or B2 have all they multiply with: the other operand's pops cover their k. In STATS they wait for
the mask, which decides whether they are read (R181). -/
def usable (d : MmaDesc) (f : Option FuseRec) (p : MmaPart) (e : Nat × Nat × Nat) (k : PopKind) : Bool :=
  let masked := match f with
    | some r => !isStats r || p.mask.isSome
    | none => true
  let gated := match f with
    | some r => isGated r
    | none => false
  let ca := covered (2 ≤ d.aHold) e.1 d.kta (popsMade p .a)
  let cb := covered (2 ≤ d.bHold) e.1 d.ktb (popsMade p .b)
  let cb2 := covered (!gated) e.1 d.ktb (popsMade p .b2)
  masked && (match k with
    | .a => !p.wa.isEmpty && decide (min e.1 ((p.a.length + 1) * d.kta) ≤ min cb cb2)
    | .b => !p.wb.isEmpty && decide (min e.1 ((p.b.length + 1) * d.ktb) ≤ ca)
    | .b2 => !p.wb2.isEmpty && decide (min e.1 ((p.b2.length + 1) * d.ktb) ≤ ca)
    | _ => false)

/-- Bytes of handle `i` of A or of B and of its companion (R47, R49, R50). -/
def sizesA (d : MmaDesc) (e : Nat × Nat × Nat) (i : Nat) : List Nat :=
  let n := kOf e.1 d.kta i
  [rowBytesOf (fmtA d.pcw) n, sideBytesOf d.pcw.mxA 0 n]
def sizesB (d : MmaDesc) (e : Nat × Nat × Nat) (i : Nat) : List Nat :=
  let n := kOf e.1 d.ktb i
  [rowBytesOf (fmtB d.pcw) n, sideBytesOf d.pcw.mxB d.pcw.expB n]

/-- Handles of one pop read by rows: `rows` of them, `rbs` bytes each by handle, the examined ones those of `on`; none where one is
too small (R122). The statuses found go with their ports. -/
def readHandles (rows : Nat) (on : Nat → Bool) (ports : List Nat) : State → List Handle → List Nat →
    Option (State × List Bytes × List (Nat × Status))
  | s, h :: hs, rb :: rbs =>
    match takeBytes s h (rows * rb) (byRow rb on) with
    | none => none
    | some t => (readHandles rows on (ports.drop 1) t.st hs rbs).map fun r =>
        (r.1, t.data :: r.2.1, (ports.headD 0, t.status) :: r.2.2)
  | s, _, _ => some (s, [], [])

/-- The next handles of an operand are used: read where the descriptor reads, kept under POP_HOLD, else released (R126).
None where one is too small. -/
def useNext (s : State) (b : Bound) (d : MmaDesc) (f : Option FuseRec) (p : MmaPart) (e : Nat × Nat × Nat) (k : PopKind) :
    Option (State × MmaPart) :=
  let en := predOf (coreAt s b.st.unit) d.pred
  let rowOn (r : Nat) : Bool := match k with
    | .a => en.1.getLsbD r
    | _ => en.2.getLsbD r
  let rows := match k with
    | .a => e.2.1
    | _ => e.2.2
  let i := match k with
    | .a => p.a.length
    | .b => p.b.length
    | _ => p.b2.length
  let hs := match k with
    | .a => p.wa.headD []
    | .b => p.wb.headD []
    | _ => p.wb2.headD []
  let sizes := match k with
    | .a => sizesA d e i
    | _ => sizesB d e i
  let got := if readsOperands f p e then readHandles rows rowOn (popPorts d f k) s hs sizes else some (s, [], [])
  match got with
  | none => none
  | some r =>
    let part := (r.2.1.headD [], r.2.1.getD 1 [])
    let keep := (k == .a && d.aHold == 1) || (k == .b && d.bHold == 1)
    let t := if keep then r.1 else releaseAll r.1 b.slot b.idx hs
    let q := { p with popped := p.popped ++ r.2.2 }
    some (t, match k with
      | .a => { q with a := q.a ++ [part], wa := q.wa.drop 1, keepA := if keep then hs else q.keepA }
      | .b => { q with b := q.b ++ [part], wb := q.wb.drop 1, keepB := if keep then hs else q.keepB }
      | _ => { q with b2 := q.b2 ++ [part], wb2 := q.wb2.drop 1 })

/-- Handles that have all they multiply with are used, in order of k. -/
def useReady (b : Bound) (d : MmaDesc) (f : Option FuseRec) (e : Nat × Nat × Nat) : Nat → State → MmaPart → PopStep
  | 0, s, p => .got s p
  | n + 1, s, p =>
    match [PopKind.a, .b, .b2].find? (usable d f p e) with
    | none => .got s p
    | some k =>
      match useNext s b d f p e k with
      | none => .halt s p .badDescriptor
      | some r => if hasHalted r.1 b then .halt r.1 r.2 .internal else useReady b d f e n r.1 r.2

/-- One pop of a kind, where the queues allow it; what becomes usable is used. -/
def popKind (b : Bound) (d : MmaDesc) (f : Option FuseRec) (e : Nat × Nat × Nat) (k : PopKind) (s : State) (p : MmaPart) :
    PopStep :=
  match popStep s b d f p k with
  | .none => .got s p
  | .wait ports => .got (waitInputs s b.slot b.idx ports) p
  | .halt t q st => .halt t q st
  | .got t q => useReady b d f e 16 t q

/-- One pop of every kind in turn, so that operands are used and released in step. -/
def popKinds (b : Bound) (d : MmaDesc) (f : Option FuseRec) (e : Nat × Nat × Nat) : List PopKind → State → MmaPart → PopStep
  | [], s, p => .got s p
  | k :: t, s, p =>
    match popKind b d f e k s p with
    | .got u q => popKinds b d f e t u q
    | x => x

/-- Turns of the pops; the queues hold at most 32 handles each, and one of each kind is taken in a turn. -/
def popTurns (b : Bound) (d : MmaDesc) (f : Option FuseRec) (e : Nat × Nat × Nat) : Nat → State → MmaPart → PopStep
  | 0, s, p => .got s p
  | n + 1, s, p =>
    match popKinds b d f e [.mask, .a, .b, .c, .b2, .v] s p with
    | .got u q => if q.popped.length = p.popped.length then .got u q else popTurns b d f e n u q
    | x => x

/-- The anchor pop (R123). -/
def anchorKind (d : MmaDesc) (f : Option FuseRec) : Option PopKind :=
  if d.aHold < 2 then some .a else if d.bHold < 2 then some .b else if wantsC d f then some .c else none

/-! ### Held operands (R126-R128) -/

/-- The held operands of the descriptor join its parts, their statuses and a held empty handle with them; none when one is too
small for the extents (R127). (DEDUCED, log 51.) -/
def useHeld (s : State) (x : Core) (d : MmaDesc) (f : Option FuseRec) (p : MmaPart) (e : Nat × Nat × Nat) :
    Option (State × MmaPart) :=
  let en := predOf x d.pred
  let seen (p : MmaPart) (hs : List Handle) (port : Nat) : MmaPart :=
    { p with popped := p.popped ++ ((numbered hs port).map fun h => (h.1, h.2.status)), empty := p.empty || hs.any isEmptyHandle }
  let p1 := if 2 ≤ d.aHold then
      { seen p x.holdA d.aPort with tag := (x.holdA.headD (emptyHandle 0#16 false)).tag } else p
  let p2 := if 2 ≤ d.bHold then seen p1 x.holdB d.bPort else p1
  if !readsOperands f p2 e then some (s, p2)
  else
    let ra := if 2 ≤ d.aHold then readHandles e.2.1 en.1.getLsbD [d.aPort, d.aPort + 1] s x.holdA (sizesA d e 0)
      else some (s, [], [])
    match ra with
    | none => none
    | some q =>
      let rb := if 2 ≤ d.bHold then readHandles e.2.2 en.2.getLsbD [d.bPort, d.bPort + 1] q.1 x.holdB (sizesB d e 0)
        else some (q.1, [], [])
      rb.map fun r => (r.1, { p2 with
        a := if 2 ≤ d.aHold then [(q.2.1.headD [], q.2.1.getD 1 [])] else p2.a
        b := if 2 ≤ d.bHold then [(r.2.1.headD [], r.2.1.getD 1 [])] else p2.b
        popped := p2.popped ++ q.2.2 ++ r.2.2 })

/-- What the descriptor's end releases of the held handles: those a POP mode replaces, before the new one is held, and those
HELD_RELEASE gives up (R126, R127). A descriptor that halts leaves what was held (R128), so this is done with its end.
(DEDUCED, log 51.) -/
def heldGone (x : Core) (d : MmaDesc) : List Handle :=
  (if d.aHold != 2 then x.holdA else []) ++ (if d.bHold != 2 then x.holdB else [])

/-- The hold state after the descriptor. -/
def updateHolds (s : State) (core : Nat) (d : MmaDesc) (p : MmaPart) : State :=
  modCore s core fun y =>
    { y with holdA := if d.aHold != 2 then p.keepA else y.holdA, holdB := if d.bHold != 2 then p.keepB else y.holdB }

/-! ### The tile C and the second operand -/

/-- C and the second operand, read where the descriptor needs them. A state tile is read whole for M rows whatever else is empty
(R172, R173); a product's C under the predicate (R131). None where a handle is too small. -/
def useLate (s : State) (b : Bound) (d : MmaDesc) (f : Option FuseRec) (p : MmaPart) (e : Nat × Nat × Nat) :
    Option (State × MmaPart) :=
  let en := predOf (coreAt s b.st.unit) d.pred
  let live := readsOperands f p e
  let stats := match f with
    | some r => if isStats r then some r else none
    | none => none
  let rc : Option (State × List Bytes × List (Nat × Status)) := match stats with
    | some r => if e.2.1 = 0 then some (s, [], [])
        else readHandles 1 (fun _ => true) [d.cPort] s p.wc [stateBytes e.2.1 r.n2]
    | none => if !live then some (s, [], [])
        else match p.wc with
          | [] => some (s, [], [])
          | h :: _ => (takeBytes s h (256 * e.2.1) fun i =>
              en.1.getLsbD (i / 256) && en.2.getLsbD (i % 256 / 4) && decide (i % 256 / 4 < e.2.2)).map fun t =>
              (t.st, [t.data], [(d.cPort, t.status)])
  match rc with
  | none => none
  | some q =>
    let rv : Option (State × List Bytes × List (Nat × Status)) := match f with
      | none => some (q.1, [], [])
      | some r =>
        if !live || p.wv.isEmpty then some (q.1, [], [])
        else
          let n := secondBytes r e.2.2
          match takeBytes q.1 (p.wv.headD (emptyHandle 0#16 false)) n.1 (if isStats r then byRow (n.1 / e.2.2) en.2.getLsbD else fun _ => true) with
          | none => none
          | some t =>
            (readHandles 1 (fun _ => true) [r.vPort + 1] t.st (p.wv.drop 1) [n.2]).map fun w =>
              (w.1, t.data :: w.2.1, (r.vPort, t.status) :: w.2.2)
    rv.map fun w => (w.1, { p with
      c := q.2.1.head?
      v := if f.isSome then some (w.2.1.headD [], w.2.1.getD 1 []) else none
      popped := p.popped ++ q.2.2 ++ w.2.2 })

/-! ### The end of a descriptor -/

/-- A tile in a buffer of the queue that the port feeds: the state, and the handle's address and pool; or why not. -/
inductive Drawn where
  | stall
  | bad
  | ok (s : State) (pool addr : Nat)

/-- The pool behind an output port has buffers of at least `n` bytes (R35). (DEDUCED, log 46.) -/
def poolHolds (s : State) (b : Bound) (port n : Nat) : Bool :=
  match ((prodQueue b.g b.idx port).bind fun q => b.g.queues[q]?).bind fun q => findPool s q.pool with
  | some p => n ≤ p.bytes
  | none => false

/-- A buffer of the queue behind an output port, of at least `n` bytes (R35). (DEDUCED, log 46.) -/
def drawBuffer (s : State) (b : Bound) (port n : Nat) : Drawn :=
  match (prodQueue b.g b.idx port).bind fun q => b.g.queues[q]? with
  | none => .bad
  | some q =>
    match findPool s q.pool with
    | none => .bad
    | some p =>
      if p.bytes < n then .bad
      else match takeBuffer s q.pool b.st.kind b.st.unit with
        | none => .stall
        | some r => .ok r.1 q.pool r.2

/-- A length, a multiple of 32, that fits the buffers of the queue an output port feeds: what a handle that carries only a
status holds is open (R28). (DEDUCED, log 91.) -/
def carryLen (s : State) (b : Bound) (port : Nat) : Nat :=
  match ((prodQueue b.g b.idx port).bind fun q => b.g.queues[q]?).bind fun q => findPool s q.pool with
  | some p => 32 * (1 + Config.freeNat s.free % (p.bytes / 32))
  | none => 32

def raise (s : State) (core : Nat) (f : Fl3) : State :=
  setCoreFlags (setCoreFlags (setCoreFlags s core .mma f.mma) core .vec f.vec) core .sfu f.sfu

/-- The descriptor is over: NOTIFY, the next descriptor. -/
def mmaEnd (s : State) (b : Bound) (d : MmaDesc) (st : Status) : State :=
  settle (advance (notifyEvent (modCore s b.st.unit fun x => { x with part := none }) b d.notify st) b) b.slot

/-- Bytes per row of the fused tile in a buffer, where it holds one. -/
def noteTile (s : State) (addr rowB : Nat) : State :=
  let l := s.fusedTiles.filter fun x => !(x.1 == addr)
  { s with fusedTiles := if rowB = 0 then l else (addr, rowB) :: l }

/-- A tile pushed on OUT_PORT: its bytes where there are any to write (R26, R28). -/
def mmaPush (s : State) (b : Bound) (d : MmaDesc) (tag : Half) (o : MmaOut) : Drawn :=
  if !canPush s b.slot b.idx d.outPort then .stall
  else
    match drawBuffer s b d.outPort o.bytes with
    | .ok t pool addr =>
      let t1 := match o.data with
        | some v => (memWrite t addr v).getD t
        | none => t
      .ok (emit (noteTile t1 addr o.rowB) b.slot b.idx d.outPort ⟨o.status, d.pred, true, 0#16, o.bytes, pool, tag, addr⟩)
        pool addr
    | x => x

/-- The output leaves as soon as its queue and its pool have room: an empty handle where the descriptor computed nothing (R27), and
nothing for a chain that stays open. -/
def mmaPushOut (s : State) (b : Bound) (d : MmaDesc) (p : MmaPart) (o : MmaOut) : State :=
  if !o.push then mmaEnd s b d o.done
  else if o.empty then
    if canPush s b.slot b.idx d.outPort then
      mmaEnd (emit s b.slot b.idx d.outPort { emptyHandle p.tag true with pred := d.pred }) b d o.done
    else s
  else match mmaPush s b d p.tag o with
    | .ok t _ _ => mmaEnd t b d o.done
    | _ => s

/-- The chain of a core changed. -/
def setChain (s : State) (core : Nat) (c : Option Chain) : State := modCore s core fun x => { x with chain := c }

/-- What a descriptor computed, before it is let out: its output, its flags, its chain. -/
structure MmaRes where
  out   : MmaOut
  fl    : Fl3
  chain : Option Chain
  deriving DecidableEq, Repr

/-- An ordinary product whose inputs are read (R118, R125). -/
def mmaProduct (x : Core) (d : MmaDesc) (p : MmaPart) (e : Nat × Nat × Nat) : MmaRes :=
  if e.1 = 0 ∨ e.2.1 = 0 ∨ e.2.2 = 0 ∨ p.empty = true then
    ⟨{ push := true, empty := true, status := .empty, bytes := 0, rowB := 0, data := none, done := .empty }, fl0, x.chain⟩
  else
    let st := portStatus p.popped
    let tile := if isPoison st then ([], 0) else productTile d (predOf x d.pred) p e.1 e.2.1 e.2.2
    ⟨{ push := true, empty := false, status := st, bytes := 256 * e.2.1, rowB := 0,
       data := if isPoison st then none else some tile.1, done := .ok }, ⟨tile.2, 0, 0⟩, x.chain⟩

/-- A fused descriptor whose inputs are read (R134, R173, R176). (DEDUCED, log 47; DEDUCED, log 48.) -/
def mmaFused (x : Core) (d : MmaDesc) (f : FuseRec) (p : MmaPart) (e : Nat × Nat × Nat) : MmaRes :=
  let m := e.2.1
  let zero := decide (e.1 = 0 ∨ m = 0 ∨ e.2.2 = 0)
  let en := predOf x d.pred
  let start0 := match x.chain with
    | some c => if f.first then openChain x f else c
    | none => openChain x f
  let start1 := match p.c with
    | some t => if isStats f && f.first && !t.isEmpty then { start0 with rows := rowsAt t m f.n2 } else start0
    | none => start0
  let c0 := chainRows f m start1
  let st := portStatus p.popped
  let c1 := { c0 with mark := noteStatus c0.mark st }
  let r := if zero || p.empty || isPoison st then (c1, fl0)
    else if isStats f then statsFold d f en (maskOf (p.mask.getD [])) p e.1 m e.2.2 c1
    else elemFold x d f en p e.1 m e.2.2 c1
  let done : Status := if zero then .empty else .ok
  if !f.push then
    ⟨{ push := false, empty := true, status := .ok, bytes := 0, rowB := 0, data := none, done := done }, r.2, some r.1⟩
  else if (isStats f && m = 0) || (!isStats f && (zero || p.empty)) then
    ⟨{ push := true, empty := true, status := .empty, bytes := 0, rowB := 0, data := none, done := .empty }, r.2, none⟩
  else
    let tile := chainTile f en m r.1
    ⟨{ push := true, empty := false, status := r.1.mark, bytes := tile.1.length, rowB := chainRowBytes f,
       data := if isPoison r.1.mark && !isStats f then none else some tile.1, done := done },
     flOr r.2 ⟨tile.2, 0, 0⟩, none⟩

/-- The operands' handles are released and the holds updated; then the flags, the chain and the output (R65, R126). A release that
meets a count at zero ends the descriptor with nothing pushed (R128). -/
def mmaClose (s : State) (b : Bound) (d : MmaDesc) (p : MmaPart) (r : MmaRes) : State :=
  let core := b.st.unit
  let x := coreAt s core
  let s1 := releaseAll s b.slot b.idx (heldGone x d ++ p.wc ++ p.wv ++ p.rest)
  if hasHalted s1 b then mmaCut s1 b { p with wc := [], wv := [], rest := [] } .internal
  else
    let q := { p with wc := [], wv := [], rest := [], keepA := [], keepB := [], out := some r.out }
    let s2 := modCore (setChain (raise (updateHolds s1 core d p) core r.fl) core r.chain) core fun y => { y with part := some q }
    mmaPushOut (if x.chain.isSome && r.chain.isNone then tileBoundary s2 core else s2) b d q r.out

/-- What an output needs of its pool is known from the extents; a pool that cannot hold it halts the station before the chain or
anything else changes. -/
def outBytes (f : Option FuseRec) (p : MmaPart) (e : Nat × Nat × Nat) : Nat :=
  match f with
  | none => if e.1 = 0 ∨ e.2.1 = 0 ∨ e.2.2 = 0 ∨ p.empty = true then 0 else 256 * e.2.1
  | some r =>
    if !r.push || e.2.1 = 0 || (!isStats r && (decide (e.1 = 0 ∨ e.2.2 = 0) || p.empty)) then 0
    else if isStats r then stateBytes e.2.1 r.n2 else roundUp (e.2.1 * chainRowBytes r) 32

/-- All pops made: held operands, C and the second operand join, and the descriptor computes. -/
def mmaFinish (s : State) (b : Bound) (d : MmaDesc) (f : Option FuseRec) (p : MmaPart) (e : Nat × Nat × Nat) : State :=
  match useHeld s (coreAt s b.st.unit) d f p e with
  | none => mmaHalt s b p .badDescriptor
  | some r =>
    match useLate r.1 b d f r.2 e with
    | none => mmaHalt s b p .badDescriptor
    | some q =>
      let n := outBytes f q.2 e
      if n ≠ 0 ∧ poolHolds q.1 b d.outPort n = false then mmaHalt q.1 b q.2 .badDescriptor
      else
        let x := coreAt q.1 b.st.unit
        mmaClose q.1 b d q.2 (match f with
          | none => mmaProduct x d q.2 e
          | some fr => mmaFused x d fr q.2 e)

/-- Progress kept for the next command. (DESIGN CHOICE, log 50.) -/
def saveBack (s : State) (b : Bound) (p : MmaPart) : State := modCore s b.st.unit fun x => { x with part := some p }

/-- Pops go on, and the descriptor ends once all are made and its output has room. (DESIGN CHOICE, log 50.) -/
def mmaGo (s : State) (b : Bound) (d : MmaDesc) (f : Option FuseRec) (p : MmaPart) (e : Nat × Nat × Nat) : State :=
  match popTurns b d f e 256 s p with
  | .got t q =>
    if popsDone d f q e then mmaFinish (saveBack t b q) b d f q e else saveBack t b q
  | .halt t q st => if st = .internal then mmaCut t b q st else mmaHalt t b q st
  | _ => s

/-- The extents of a descriptor that has just made its anchor pop, or needs none (R123, R124). -/
def mmaShape (s : State) (b : Bound) (d : MmaDesc) (f : Option FuseRec) (p : MmaPart) : State :=
  let r := readExt s d
  match r.2 with
  | .error e => mmaHalt r.1 b p e
  | .ok e =>
    let q := { p with ext := some e }
    match useReady b d f e 16 r.1 q with
    | .got t w => mmaGo t b d f w e
    | .halt t w st => if st = .internal then mmaCut t b w st else mmaHalt t b w st
    | _ => r.1

/-- The descriptor before its extents are known: its anchor pop comes first, alone, and then its shape (R123, R178). -/
def mmaAnchor (s : State) (b : Bound) (d : MmaDesc) (f : Option FuseRec) (p : MmaPart) : State :=
  match anchorKind d f with
  | none => mmaShape s b d f p
  | some k =>
    match popStep s b d f p k with
    | .got t q => mmaShape t b d f q
    | .wait ports => saveBack (waitInputs s b.slot b.idx ports) b p
    | .halt t q st => if st = .internal then mmaCut t b q st else mmaHalt t b q st
    | .none => mmaShape s b d f p

/-- The predicate entry of PRED_SET (R129); none while handles still name it (R132). (DEDUCED, log 51.) -/
def loadPred (s : State) (b : Bound) (d : MmaDesc) : Option (State × Except Status Unit) :=
  if d.predSet = 0 then some (s, .ok ())
  else if predCount s b.st.unit d.predSet ≠ 0 then none
  else
    let r := ctrlRead s d.predLd 32
    match r.2 with
    | .error e => some (r.1, .error e)
    | .ok v =>
      if leAt v 0 8 ≠ 0 then some (r.1, .error .badDescriptor)
      else some (modCore r.1 b.st.unit fun x =>
        { x with preds := x.preds.set (d.predSet - 1) (BitVec.ofNat 128 (leAt v 16 16), BitVec.ofNat 64 (leAt v 8 8)) }, .ok ())

/-- The fusion record of a descriptor with FUSE, once its own fields have passed. -/
def readFuse (s : State) (x : Core) (d : MmaDesc) : State × Except Status Bytes :=
  if !descOk d then (s, .error .badDescriptor)
  else if d.fuse then
    let r := ctrlRead s d.fuseRec 32
    match r.2 with
    | .error e => (r.1, .error e)
    | .ok v => (r.1, if fuseOk x d (fuseOf v) then .ok v else .error .badDescriptor)
  else (s, .ok [])

def partOf (desc fuse : Bytes) : MmaPart :=
  { desc := desc, fuse := fuse, ext := none, a := [], b := [], b2 := [], wa := [], wb := [], wb2 := [], wc := [], wv := [],
    rest := [], c := none, mask := none, v := none, popped := [], empty := false, tag := 0#16, keepA := [], keepB := [],
    out := none }

/-- HELD_KEEP or HELD_RELEASE finds no handle held (R127). -/
def heldMissing (x : Core) (d : MmaDesc) : Bool :=
  (decide (2 ≤ d.aHold) && x.holdA.isEmpty) || (decide (2 ≤ d.bHold) && x.holdB.isEmpty)

/-- A descriptor becomes current: decoded, checked, its predicate entry loaded, before its first pop (R121, R127, R129, R135). -/
def mmaStart (s : State) (b : Bound) : State :=
  let r := ctrlRead s (wdAddr b 64) 64
  match r.2 with
  | .error e => haltStation r.1 b e
  | .ok v =>
    let d := mmaDescOf v
    let x := coreAt r.1 b.st.unit
    let q := readFuse r.1 x d
    match q.2 with
    | .error e => haltStation q.1 b e
    | .ok fb =>
      let p := partOf v fb
      let f := fusePart p
      let pushes := match f with
        | some g => g.push
        | none => true
      if !mmaOk d f || !portsBound b (poppedPorts d f) (if pushes then [d.outPort] else []) then
        haltStation q.1 b .badDescriptor
      else if heldMissing x d then mmaHalt q.1 b p .badDescriptor
      else
        match loadPred q.1 b d with
        | none => s
        | some (t, .error e) => haltStation t b e
        | some (t, .ok _) => mmaAnchor t b d f p

/-- MMA_DESCRIPTOR (R120): the current descriptor goes as far as its inputs and its output allow. One that has computed waits only
for room, also while a pause is in progress; one that has not stops before its next pop (R40). -/
def execMmaDescriptor (core : Nat) (s : State) : Host.Outcome State Fault Refusal :=
  onUnit core 256 "core" <|
    match bound s .mma core with
    | none => s
    | some b =>
      match (coreAt s core).part with
      | some p =>
        let d := mmaDescOf p.desc
        match p.out with
        | some o => if mayFinish s b then mmaPushOut s b d p o else s
        | none =>
          if mayStart s b then
            match p.ext with
            | some e => mmaGo s b d (fusePart p) p e
            | none => mmaAnchor s b d (fusePart p) p
          else s
      | none => if mayStart s b && b.st.wdi < b.st.workN then mmaStart s b else s

end Sys2Proof.Machine
end

