-- ==== Sys2Proof/Machine/Whey.lean ====
section
/-! DEFINITION. The Whey store: pools, stored objects, transfers and the translation layer's upkeep (chapter 15). -/

namespace Sys2Proof.Machine

def modFls (s : State) (f : Fls → Fls) : State := { s with fls := f s.fls }

def modCh (s : State) (c : Nat) (f : FlashCh → FlashCh) : State :=
  modFls s fun x => { x with chans := x.chans.modify c f }

def flashChan (s : State) (c : Nat) : FlashCh := s.fls.chans.getD c flashChAtThaw

/-! ### Pools and object numbers (R333, R334) -/

def wheyPool (s : State) (p : Nat) : WheyPool := s.fls.pools.getD p ⟨false, false, 0, 0⟩

/-- Pool and slot of an object number. -/
def objPool (o : Nat) : Nat := o / 2 ^ 30
def objSlot (o : Nat) : Nat := o % 2 ^ 30
def objNum (p slot : Nat) : Nat := p * 2 ^ 30 + slot

def wheySlotBytes (p : WheyPool) : Nat := 4096 * p.size

/-- Some slot of the pool is allocated; an open index holds its slots. (DEDUCED, log 128.) -/
def poolInUse (s : State) (p : Nat) : Bool :=
  (s.fls.alloc.any fun o => objPool o == p) || (s.vse.indexes.any fun x => x.pool == p)

/-- The first number from `n` on that a rising list does not hold. -/
def firstGap (n : Nat) : List Nat → Nat
  | [] => n
  | x :: t => if x < n then firstGap n t else if x = n then firstGap (n + 1) t else n

/-- Allocated slots of a pool, rising. -/
def poolSlots (s : State) (p : Nat) : List Nat := (s.fls.alloc.filter fun o => objPool o == p).map objSlot

/-- The lowest free slot of a pool. -/
def lowestSlot (s : State) (p : Nat) : Option Nat :=
  let n := firstGap 0 (poolSlots s p)
  if n < (wheyPool s p).count then some n else none

/-- A free slot at or after a freely chosen one: R338 names no order. (DESIGN CHOICE, log 130.) -/
def someSlot (s : State) (p : Nat) : Option Nat :=
  let c := (wheyPool s p).count
  let n := firstGap (choose c s.free) (poolSlots s p)
  if n < c then some n else lowestSlot s p

def allocObj (s : State) (o : Nat) : State := modFls s fun x => { x with alloc := insertNat x.alloc o }

/-- A slot trimmed and free again. -/
def freeObj (s : State) (o : Nat) : State :=
  modFls s fun x => { x with alloc := x.alloc.filter fun y => !(y == o), objects := assocDrop x.objects o,
                             bad := x.bad.filter fun (y : Nat × Nat) => !(y.1 == o),
                             soft := x.soft.filter fun (y : Nat × Nat) => !(y.1 == o), reads := assocDrop x.reads o }

/-- FLS_POOL's fields (Table 15-6). (DEDUCED, log 128.) -/
def wheyPoolOf (v : Nat) : WheyPool := ⟨bit v 63, bit v 42, bits v 30 12, bits v 0 30⟩

/-- Slots of all valid pools, in 4 KiB units. (DEDUCED, log 128.) -/
def poolUnits (ps : List WheyPool) : Nat := (ps.map fun p => if p.valid then p.count * p.size else 0).sum

/-- A write of FLS_POOL (R334). 26 TiB are 6,979,321,856 units of 4 KiB. -/
def opFlsPool (pool : Nat) (value : Dword) (s : State) : State :=
  let p := wheyPoolOf value.toNat
  let o := wheyPool s pool
  let tooMuch := decide (6979321856 < poolUnits (s.fls.pools.set pool p))
  let clash := poolInUse s pool && (p.count != o.count || p.size != o.size || p.index != o.index)
  if tooMuch || clash then modFls s fun x => { x with poolErr := true }
  else modFls s fun x => { x with pools := x.pools.set pool p }

/-- FLS_POOL. -/
def execFlsPool (pool : Nat) (value : Dword) (s : State) : Host.Outcome State Fault Refusal :=
  if 16 ≤ pool then .refused (.noSuchUnit "Whey pool") else whenUp s (opFlsPool pool value s)

/-! ### Reading and writing objects (R330, R335, R337, R339) -/

/-- The channel of codeword `k` of an object: unit u of slot s lies on channel (s + u) mod 64, four codewords to a unit (R337). -/
def objChannel (o k : Nat) : Nat := (objSlot o + k / 4) % 64

/-- An uncorrectable page of a channel is counted, remembered for 24 hours, and recorded (R329, R330). (DESIGN CHOICE, log 131.) -/
def channelUe (s : State) (c arg : Nat) : State :=
  let v := (flashChan s c).ue
  event (ctrSat (0x01C00204 + 0x10 * c) v (satAdd v 1) (modCh s c fun x =>
    { x with ue := satAdd x.ue 1, ueTimes := (x.ueTimes.filter fun (t : Nat) => decide (s.now < t + dayNs)) ++ [s.now] }))
    ⟨0x02, .ok, 5, c, arg, 0⟩

/-- Codeword `k` of an object reads uncorrectable. -/
def flashUe (s : State) (o k : Nat) : State := channelUe s (objChannel o k) o

/-- DESIGN CHOICE, log 131. -/
def flashCe (s : State) (o k : Nat) : State :=
  let c := objChannel o k
  let v := (flashChan s c).ce
  event (ctrSat (0x01C00200 + 0x10 * c) v (satAdd v 1) (modCh s c fun x => { x with ce := satAdd x.ce 1 }))
    ⟨0x01, .ok, 5, c, o, 0⟩

/-- An object's number names an allocated slot of a configured pool that is no index pool (R339, R346). -/
def objOk (s : State) (o : Nat) : Bool :=
  let p := wheyPool s (objPool o)
  decide (o < 2 ^ 34) && p.valid && !p.index && decide (objSlot o < p.count) && s.fls.alloc.contains o

/-- Codewords of a slot. -/
def slotWords (s : State) (o : Nat) : Nat := (wheyPool s (objPool o)).size

/-- The numbers of an object's codewords in a list. -/
def wordsIn (l : List (Nat × Nat)) (o : Nat) : List Nat := (l.filter fun p => p.1 == o).map Prod.snd

def moreReloc (s : State) (c : Nat) : State :=
  let v := (flashChan s c).reloc
  ctrSat (0x01C00208 + 0x10 * c) v (satAdd v 1) (modCh s c fun x => { x with reloc := satAdd x.reloc 1 })

/-- Codewords that have gone soft or bad by now, beside those that had. (DESIGN CHOICE, log 131.) -/
def flashDecay (s : State) (o n : Nat) : State :=
  let now (v : Nat) : List (Nat × Nat) := ((List.range n).filter fun k => Config.flashFault s.free o k == v).map fun k => (o, k)
  tick1 (modFls s fun x =>
    { x with bad := x.bad ++ (now 2).filter fun p => !x.bad.contains p,
             soft := x.soft ++ (now 1).filter fun p => !(x.soft.contains p || x.bad.contains p) })

/-- The reads of an object are counted; by the 200,000th the layer has relocated its blocks (R330). (DESIGN CHOICE, log 131.) -/
def flashDisturb (s : State) (o n : Nat) : State :=
  let k := (assocGet s.fls.reads o).getD 0 + 1
  if k < 200000 then flashDecay (modFls s fun x => { x with reads := assocPut x.reads o k }) o n
  else flashDecay ((List.range ((n + 3) / 4)).foldl (fun t u => moreReloc t (objChannel o (4 * u)))
    (modFls s fun x => { x with reads := assocDrop x.reads o })) o n

/-- One codeword read, of an object whose bad and soft ones are given. -/
def readWord (o : Nat) (bad soft : List Nat) (s : State) (k : Nat) : State :=
  if bad.contains k then flashUe s o k
  else if soft.contains k then modFls (flashCe s o k) fun x => { x with soft := x.soft.filter fun (y : Nat × Nat) => !(y == (o, k)) }
  else s

/-- The first `n` codewords of an object read, of which those of `bad` and `soft` were so: the counting, and whether they decode
(R330). What the reads do to the cells shows in later reads. (DESIGN CHOICE, log 131.) -/
def flashReadAs (s : State) (o n : Nat) (bad soft : List Nat) : State × Bool :=
  (flashDisturb ((List.range n).foldl (readWord o bad soft) s) o n, !(List.range n).any bad.contains)

/-- The first `n` codewords of an object read as it stands. -/
def flashRead (s : State) (o n : Nat) : State × Bool := flashReadAs s o n (wordsIn s.fls.bad o) (wordsIn s.fls.soft o)

/-- The object's own CHECK holds (R335). -/
def wheyCheck (b : Bytes) : Bool :=
  let n := 32 + leAt b 4 4
  decide (n ≤ b.length) && leAt b 24 4 == crc32c (overlay (b.take n) 24 (leBytes 4 0))

/-- Mapped objects fill at most 90 % of the usable 26 TiB (R330). -/
def roomy (s : State) : Bool :=
  decide (10 * (s.fls.objects.map fun p => wheySlotBytes (wheyPool s (objPool p.1))).sum ≤ 9 * (26 * 2 ^ 40))

/-- Bytes that the layer programs beside the objects' own, at most `n` and within its write amplification. (DESIGN CHOICE, log 129.) -/
def layerProgram (s : State) (n : Nat) : State :=
  let k := Config.freeNat s.free % (min n s.fls.slack + 1)
  tick1 (modFls s fun x => { x with programmed := x.programmed + BitVec.ofNat 64 k, slack := x.slack - k })

/-- An object switched in, padded to its slot, with the bytes counted (R335, R339). The layer may program as many bytes again, or a
quarter as many while the store is not full (R330). -/
def storeObj (s : State) (o : Nat) (b : Bytes) : State :=
  let sz := wheySlotBytes (wheyPool s (objPool o))
  let more := if roomy s then b.length / 4 else b.length
  let s1 := modFls s fun x => { x with
    objects := assocPut x.objects o (padTo sz b)
    bad := x.bad.filter fun (y : Nat × Nat) => !(y.1 == o)
    soft := x.soft.filter fun (y : Nat × Nat) => !(y.1 == o)
    reads := assocDrop x.reads o
    written := x.written + BitVec.ofNat 64 b.length
    programmed := x.programmed + BitVec.ofNat 64 b.length
    slack := x.slack + more }
  layerProgram s1 s1.fls.slack

/-! ### Transfer records and their acceptance (R338, R339, Table 15-4) -/

def wheyRecOf (b : Bytes) : WheyRec :=
  { op := byteAt b 0, push := bit (byteAt b 1) 0, pool := byteAt b 3 % 16, qid := leAt b 4 2 % 4096, obj := leAt b 8 8 % 2 ^ 34,
    local_ := leAt b 16 6, count := leAt b 24 4, length := leAt b 28 4 }

def wheyResOk (b : Bytes) : Bool :=
  byteAt b 1 / 2 == 0 && byteAt b 3 / 16 == 0 && leAt b 4 2 / 4096 == 0 && leAt b 6 2 == 0 && leAt b 8 8 / 2 ^ 34 == 0
    && leAt b 22 2 == 0 && allZero (sub b 32 32) && decide (1 ≤ byteAt b 0 ∧ byteAt b 0 ≤ 6)

/-- LOCAL names direct HBM or cluster SRAM. -/
def localOk (a n : Nat) : Bool := inHbm a n || inSram a n

/-- Object numbers of a list in memory: 8 bytes each after a 4-byte count. -/
def listObjs (s : State) (a n : Nat) : List Nat :=
  (List.range n).map fun i => leNat (peek s (a + 4 + 8 * i) 8)

/-- A move-list entry (Table 9-11). -/
structure MoveEntry where
  src   : Dword
  dst   : Dword
  layer : Nat
  status : Nat
  pti   : Nat
  deriving DecidableEq, Repr

def moveEntryOf (b : Bytes) : MoveEntry :=
  ⟨BitVec.ofNat 64 (leAt b 0 8), BitVec.ofNat 64 (leAt b 8 8), leAt b 16 2, byteAt b 18, leAt b 20 4⟩

def moveEntryAt (list i : Nat) : Nat := list + 32 + 32 * i

/-- The objects a transfer names. -/
def xferObjs (s : State) (x : WheyRec) : List Nat :=
  let es := (List.range (leNat (peek s x.local_ 4))).map fun i => moveEntryOf (peek s (moveEntryAt x.local_ i) 32)
  match x.op with
  | 1 => [x.obj]
  | 2 => [x.obj]
  | 3 => es.filterMap fun e => if e.status = 0xFF then some e.dst.toNat else none
  | 4 => es.filterMap fun e => if e.status = 0xFF then some e.src.toNat else none
  | 6 => listObjs s x.local_ x.count
  | _ => []

/-- A move names a slot of an INDEX pool (R346). -/
def namesIndex (s : State) (x : WheyRec) : Bool := (xferObjs s x).any fun o => (wheyPool s (objPool o)).index

/-- The checks that end a transfer with BAD_DESCRIPTOR before any byte moves (R338, R339, R346). (DESIGN CHOICE, log 129.) -/
def wheyRecOk (s : State) (x : WheyRec) : Bool :=
  let sz := wheySlotBytes (wheyPool s (objPool x.obj))
  (!(x.push || x.op == 3 || x.op == 4) || (findQid x.qid s.graphs 0).isSome) &&
  match x.op with
  | 1 => objOk s x.obj && decide (32 ≤ x.length ∧ x.length ≤ sz) && x.length % 32 == 0 && localOk x.local_ x.length
  | 2 => objOk s x.obj && localOk x.local_ sz
  | 5 => (wheyPool s x.pool).valid && !(wheyPool s x.pool).index && localOk x.local_ (4 + 8 * x.count)
  | 6 => localOk x.local_ (4 + 8 * x.count) && (listObjs s x.local_ x.count).all (objOk s)
  | _ => localOk x.local_ 32 && !namesIndex s x

/-- STATUS written back into the record (Table 15-4). -/
def wheyStatus (s : State) (a : AddrArg) (st : Status) : State :=
  match argWrite s (argAt a 2) [BitVec.ofNat 8 (statusCode st)] with
  | .ok t => t
  | .error _ => s

/-- The end of a transfer's command, where a command submitted it. -/
def wheyAnswer (s : State) (cmd : Option (Nat × HostHdr)) (st : Status) : State :=
  match cmd with
  | some c => finishCmd s c st
  | none => s

/-- The store's tables are there (R332). -/
def wheyReady (s : State) : Bool := s.fls.state == .ready || s.fls.state == .readonly

/-- The single handle of a transfer with PUSH. -/
def pushOuts (x : WheyRec) (st : Status) : List Status := if x.push then [st] else []

/-- The handles of a transfer that ends before any byte moves: one, or for a move one per pending entry (R338).
(DESIGN CHOICE, log 130.) -/
def refusedOuts (s : State) (x : WheyRec) (st : Status) : List Status :=
  if x.op = 3 || x.op = 4 then (if localOk x.local_ 32 then (xferObjs s x).map fun _ => st else []) else pushOuts x st

/-- A transfer in the store's list. -/
def wheyQueue (s : State) (a : AddrArg) (cmd : Option (Nat × HostHdr)) (x : WheyRec) (ran : Bool) (st : Status) (outs : List Status) :
    State :=
  modFls s fun f => { f with
    nextXfer := f.nextXfer + 1
    xfers := f.xfers ++ [{ id := f.nextXfer, cmd := cmd, recAs := a.space, recAddr := a.addr, args := x,
                           old := if x.op = 2 then assocGet f.objects x.obj else none, oldBad := wordsIn f.bad x.obj,
                           oldSoft := wordsIn f.soft x.obj, ran := ran, status := st, outs := outs }] }

/-- A record is refused: its handles, where it has any to push, then its status and its command's completion. -/
def wheyRefuse (s : State) (a : AddrArg) (cmd : Option (Nat × HostHdr)) (x : WheyRec) (st : Status) : State :=
  if (findQid x.qid s.graphs 0).isSome && !(refusedOuts s x st).isEmpty then wheyQueue s a cmd x true st (refusedOuts s x st)
  else wheyAnswer (wheyStatus s a st) cmd st

/-- A record reaches the store: refused, or accepted as a transfer (R332, R338, R339). (DESIGN CHOICE, log 130.) -/
def wheySubmit (s : State) (a : AddrArg) (cmd : Option (Nat × HostHdr)) : State :=
  let r := argRead s a 64
  match r.2 with
  | .error e => wheyAnswer r.1 cmd e
  | .ok b =>
    let x := wheyRecOf b
    if !wheyResOk b then wheyRefuse r.1 a cmd x .badDescriptor
    else if !wheyReady s then wheyRefuse r.1 a cmd x .pageFault
    else if !wheyRecOk r.1 x then wheyRefuse r.1 a cmd x .badDescriptor
    else wheyQueue r.1 a cmd x false .ok []

def opWheyXfer (h : HostHdr) (rec : AddrArg) (s : State) : State :=
  let q := startCmd s h 0x32
  wheySubmit q.1 rec (some (q.2, h))

/-- WHEY_XFER. -/
def execWheyXfer (h : HostHdr) (rec : AddrArg) (s : State) : Host.Outcome State Fault Refusal :=
  hostCmd s h .data false (opWheyXfer h rec)

/-- FLS_WHEY_POST: the record lies in module memory. -/
def execFlsWheyPost (cluster : Nat) (addr : Nat) (s : State) : Host.Outcome State Fault Refusal :=
  if 16 ≤ cluster then .refused (.noSuchUnit "cluster") else whenUp s (wheySubmit s ⟨0, addr % 2 ^ 48⟩ none)

/-! ### The transfers' flash work -/

def findXfer (s : State) (id : Nat) : Option Xfer := s.fls.xfers.find? fun x => x.id == id

def modXfer (s : State) (id : Nat) (f : Xfer → Xfer) : State :=
  modFls s fun y => { y with xfers := y.xfers.map fun x => if x.id == id then f x else x }

/-- The work of a transfer that is accepted and has not run. -/
def xferRun (s : State) (id op : Nat) (run : Xfer → State → State) : Host.Outcome State Fault Refusal :=
  match findXfer s id with
  | none => .next s
  | some x => if x.args.op = op && !x.ran && hostUp s.pwr.state then .next (run x s) else .next s

/-- The work has ended with a status, and handles are to be pushed. -/
def xferEnds (s : State) (x : Xfer) (st : Status) (outs : List Status) : State :=
  modXfer s x.id fun y => { y with ran := true, status := st, outs := outs }

/-- PUT: the object is read from LOCAL, programmed and switched in one step (R339); a slot freed meanwhile is a free slot. -/
def runPut (x : Xfer) (s : State) : State :=
  if s.fls.state == .readonly then xferEnds s x .pageFault (pushOuts x.args .pageFault)
  else if !objOk s x.args.obj then xferEnds s x .badDescriptor (pushOuts x.args .badDescriptor)
  else
    let r := memRead s x.args.local_ x.args.length
    match r.2 with
    | .ok b => xferEnds (storeObj r.1 x.args.obj b) x .ok (pushOuts x.args .ok)
    | .bad _ _ => xferEnds r.1 x .pagePoisoned (pushOuts x.args .pagePoisoned)
    | .hole => xferEnds r.1 x .badDescriptor (pushOuts x.args .badDescriptor)

def execWheyPut (xfer : Nat) (s : State) : Host.Outcome State Fault Refusal := xferRun s xfer 1 runPut

/-- Bytes the spec leaves open. (DESIGN CHOICE, log 5.) -/
def openBytes (s : State) (n : Nat) : Bytes := (List.range n).map (Config.freeByte s.free)

/-- GET: the object as it stood at acceptance, to LOCAL. Where its codewords or its CHECK fail, what LOCAL holds is open.
(DESIGN CHOICE, log 129.) -/
def runGet (x : Xfer) (s : State) : State :=
  let r := flashReadAs s x.args.obj (slotWords s x.args.obj) x.oldBad x.oldSoft
  let sz := wheySlotBytes (wheyPool s (objPool x.args.obj))
  match x.old with
  | some b =>
    if r.2 && wheyCheck b then
      xferEnds ((memWrite r.1 x.args.local_ b).getD r.1) x .ok (pushOuts x.args .ok)
    else
      xferEnds (tick1 ((memWrite r.1 x.args.local_ (openBytes s sz)).getD r.1)) x .pagePoisoned (pushOuts x.args .pagePoisoned)
  | none =>
    xferEnds (tick1 ((memWrite r.1 x.args.local_ (openBytes s sz)).getD r.1)) x .pagePoisoned (pushOuts x.args .pagePoisoned)

def execWheyGet (xfer : Nat) (s : State) : Host.Outcome State Fault Refusal := xferRun s xfer 2 runGet

/-- The header and body of a page that leaves HBM (R335). -/
def pageObject (q : SeqRec) (seq : Nat) (form : Nat) (e : MoveEntry) (body : Bytes) : Bytes :=
  let b := leBytes 2 0x5748 ++ leBytes 1 1 ++ leBytes 1 (form + 16 * q.cfmt) ++ leBytes 4 body.length ++ leBytes 4 seq
    ++ leBytes 4 e.pti ++ leBytes 2 e.layer ++ leBytes 6 0 ++ leBytes 4 0 ++ leBytes 4 0 ++ body
  overlay b 24 (leBytes 4 (crc32c b))

/-- The bytes of a page as held in HBM: the plain page, or the Curd object. -/
def pageHeld (s : State) (q : SeqRec) (p : Pte) : State × Got :=
  let a := frameAddr s p.pool p.loc
  if p.form = 0 then memRead s a (pageBytes q)
  else
    let r := memRead s a 32
    match r.2 with
    | .ok h =>
      if leAt h 8 4 < 32 || frameBytes (poolAt s p.pool) < leAt h 8 4 then (r.1, .bad a h) else memRead r.1 a (leAt h 8 4)
    | g => (r.1, g)

/-- One entry of MOVE_OUT: HBM source by its PTE snapshot, destination object by its number. -/
def moveOutEntry (s : State) (e : MoveEntry) : State × Status :=
  let o := e.dst.toNat
  match s.kvc.moves.find? fun m => m.dst == o && m.kind == 6 && m.layer == e.layer && m.pti == e.pti with
  | none => (s, .badDescriptor)
  | some m =>
    if s.fls.state == .readonly then (s, .pageFault)
    else if !objOk s o then (s, .badDescriptor)
    else
      let r := readSeq s m.seq
      match r.2 with
      | .error st => (r.1, st)
      | .ok q =>
        let p := pteOf e.src.toNat
        if !frameOk r.1 p.pool p.loc then (r.1, .badDescriptor)
        else
          let g := pageHeld r.1 q p
          match g.2 with
          | .hole => (g.1, .badDescriptor)
          | .bad _ _ => (g.1, .pagePoisoned)
          | .ok body =>
            let b := pageObject q m.seq p.form e body
            if wheySlotBytes (wheyPool s (objPool o)) < b.length then (g.1, .badDescriptor) else (storeObj g.1 o b, .ok)

/-- One entry of MOVE_IN: the object's body to the frame. -/
def moveInEntry (s : State) (e : MoveEntry) : State × Status :=
  let o := e.src.toNat
  let p := pteOf e.dst.toNat
  if !objOk s o || !frameOk s p.pool p.loc then (s, .badDescriptor)
  else
    let r := flashRead s o (slotWords s o)
    match assocGet s.fls.objects o with
    | none => (r.1, .pagePoisoned)
    | some b =>
      if !r.2 || !wheyCheck b then (r.1, .pagePoisoned)
      else if frameBytes (poolAt s p.pool) < leAt b 4 4 then (r.1, .badDescriptor)
      else ((memWrite r.1 (frameAddr s p.pool p.loc) (sub b 32 (leAt b 4 4))).getD r.1, .ok)

/-- The pending entries of a move list in order: the statuses of their handles, and how the walk ended (R338). -/
def moveWalk (f : State → MoveEntry → State × Status) (list : Nat) : Nat → Nat → State → State × List Status × Status
  | 0, _, s => (s, [], .ok)
  | n + 1, i, s =>
    let r := ctrlRead s (moveEntryAt list i) 32
    match r.2 with
    | .error e => (r.1, [], e)
    | .ok b =>
      let e := moveEntryOf b
      if e.status ≠ 0xFF then moveWalk f list n (i + 1) r.1
      else
        let q := f r.1 e
        let t := moveWalk f list n (i + 1) q.1
        (t.1, q.2 :: t.2.1, t.2.2)

/-- A move; where its list has come to name a slot of an INDEX pool, no entry of it moves (R346). -/
def runMove (f : State → MoveEntry → State × Status) (x : Xfer) (s : State) : State :=
  let r := ctrlRead s x.args.local_ 32
  match r.2 with
  | .error e => xferEnds r.1 x e []
  | .ok b =>
    if namesIndex r.1 x.args then xferEnds r.1 x .badDescriptor (refusedOuts r.1 x.args .badDescriptor)
    else
      let t := moveWalk f x.args.local_ (leAt b 0 4) 0 r.1
      xferEnds t.1 x t.2.2 t.2.1

/-- MOVE_OUT. -/
def execWheyMoveOut (xfer : Nat) (s : State) : Host.Outcome State Fault Refusal := xferRun s xfer 3 (runMove moveOutEntry)

/-- MOVE_IN. -/
def execWheyMoveIn (xfer : Nat) (s : State) : Host.Outcome State Fault Refusal := xferRun s xfer 4 (runMove moveInEntry)

/-- Up to `n` free slots of a pool taken. -/
def takeSlots (p : Nat) : Nat → State → State × List Nat
  | 0, s => (s, [])
  | n + 1, s =>
    match someSlot s p with
    | none => (s, [])
    | some k =>
      let r := takeSlots p n (tick1 (allocObj s (objNum p k)))
      (r.1, objNum p k :: r.2)

/-- ALLOC: a count and the numbers; fewer when the pool runs short (R338). (DEDUCED, log 128.) -/
def runAlloc (x : Xfer) (s : State) : State :=
  let r := takeSlots x.args.pool x.args.count s
  let b := leBytes 4 r.2.length ++ (r.2.map (leBytes 8)).flatten
  xferEnds ((memWrite r.1 x.args.local_ b).getD r.1) x .ok (pushOuts x.args .ok)

def execWheyAlloc (xfer : Nat) (s : State) : Host.Outcome State Fault Refusal := xferRun s xfer 5 runAlloc

/-- FREE waits for every transfer accepted before it on its objects, then trims them (R338, R339). (DESIGN CHOICE, log 129.) -/
def runFree (x : Xfer) (s : State) : State :=
  let objs := xferObjs s x.args
  if s.fls.xfers.any fun y => decide (y.id < x.id) && (xferObjs s y.args).any fun o => objs.contains o then s
  else
    let r := memRead s x.args.local_ (4 + 8 * x.args.count)
    match r.2 with
    | .ok _ => xferEnds (objs.foldl freeObj r.1) x .ok (pushOuts x.args .ok)
    | .bad _ _ => xferEnds r.1 x .pagePoisoned (pushOuts x.args .pagePoisoned)
    | .hole => xferEnds r.1 x .badDescriptor (pushOuts x.args .badDescriptor)

def execWheyFree (xfer : Nat) (s : State) : Host.Outcome State Fault Refusal := xferRun s xfer 6 runFree

/-- A handle the store pushes: its status; of the rest only POOL is not free. (DESIGN CHOICE, log 130.) -/
def wheyHandle (s : State) (x : Xfer) (st : Status) : Handle :=
  let v := Config.freeNat s.free
  ⟨st, bits v 16 4, bit v 20, 0#16, 32 * bits v 21 19, 0xFF, BitVec.ofNat 16 v, x.args.local_⟩

/-- The handles a transfer has still to push, as far as the queue has room (R32). -/
def wheyPush (x : Xfer) : List Status → State → State × List Status
  | [], s => (s, [])
  | st :: t, s =>
    match pushQid (tick1 s) x.args.qid (wheyHandle s x st) with
    | .full => (s, st :: t)
    | .absent => (s, [])
    | .done u => wheyPush x t u

/-- WHEY_TRANSFER_DONE: its handles are pushed, its status is written back, and its command completes (R338, R340). -/
def execWheyTransferDone (xfer : Nat) (s : State) : Host.Outcome State Fault Refusal :=
  match findXfer s xfer with
  | none => .next s
  | some x =>
    if !x.ran then .next s
    else
      let p := wheyPush x x.outs s
      if !p.2.isEmpty then .next (modXfer p.1 xfer fun y => { y with outs := p.2 })
      else
        let s1 := wheyStatus p.1 ⟨x.recAs, x.recAddr⟩ x.status
        let s2 := modFls s1 fun f => { f with xfers := f.xfers.filter fun y => !(y.id == xfer) }
        .next (wheyAnswer s2 x.cmd x.status)

/-! ### The translation layer (R331, R332, R341) -/

/-- FLASH_SCAN_DONE: the tables are there. The first scan has erased every block once and counts each channel's spare blocks; 0.5 %
of its 16,384 raw blocks are 81.92. It runs from Thaw on, and not without power. (DESIGN CHOICE, log 131.) -/
def execFlashScanDone (s : State) : Host.Outcome State Fault Refusal :=
  if s.fls.state == .ready || s.fls.state == .readonly || !(s.pwr.state == .thaw || hostUp s.pwr.state) then .next s
  else
    let first := !s.fls.scanned
    .next (tick1 (modFls s fun x => { x with
      state := if x.readonly then .readonly else .ready
      scanned := true
      chans := (numbered x.chans 0).map fun c =>
        if first then { c.2 with spare := 82 + Config.freeNat (s.free + c.1) % 16303, wearMean := 1, wearMax := 1 } else c.2 }))

/-- Below the floor the store becomes READONLY for good, with its alarm (R331). (DESIGN CHOICE, log 131.) -/
def enterReadonly (s : State) (c : Nat) : State :=
  if s.fls.readonly || decide (82 ≤ (flashChan s c).spare) then s
  else
    alarm (modFls s fun x => { x with readonly := true, state := if x.state == .ready then .readonly else x.state }) 14
      (c + 2 ^ 32)

/-- Wear after upkeep: what is erased how often is the layer's affair, within R330. -/
def wearMore (s : State) (c : Nat) : State :=
  let v := Config.freeNat s.free
  let o := flashChan s c
  let mean := min 0xFFFF (o.wearMean + v % 2)
  let most := min 0xFFFF (max o.wearMax (min (mean + mean / 10 + 50) (o.wearMax + v / 2 % 2)))
  let s1 := modCh (tick1 s) c fun x => { x with wearMean := mean, wearMax := most, wearAlarm := x.wearAlarm || decide (2700 ≤ mean) }
  if decide (2700 ≤ mean) && !o.wearAlarm then alarm s1 14 c else s1

/-- A block's worth of bytes programmed by the layer itself, at most. (DESIGN CHOICE, log 130.) -/
def moreProgrammed (s : State) : State := layerProgram s 33554432

/-- FLASH_UPKEEP: no read returns anything else afterwards (R330, R341). -/
def execFlashUpkeep (channel : Nat) (what : Upkeep) (s : State) : Host.Outcome State Fault Refusal :=
  onUnit channel 64 "flash channel" <|
    if !wheyReady s then s
    else match what with
      | .relocate => wearMore (moreProgrammed (moreReloc s channel)) channel
      | .collect => wearMore (moreProgrammed s) channel
      | .refresh => wearMore (moreProgrammed s) channel
      | .badBlock => enterReadonly (modCh s channel fun x => { x with spare := x.spare - 1 }) channel

end Sys2Proof.Machine
end

