-- ==== Sys2Proof/Machine/Ssa.lean ====
section
/-! DEFINITION. Attention inside the stacks: jobs, descriptor tiles, the fold of a run, triples and mass tiles (chapter 10;
R206). -/

namespace Sys2Proof.Machine

/-! ### The work descriptor (R222, R227) -/

def ssaDescOf (b : Bytes) : SsaDesc :=
  let f := byteAt b 2
  { op := byteAt b 0, npart := byteAt b 1, notify := bit f 0, mass := bit f 1, window := bit f 2, sink := bit f 3,
    glob := bit f 4, pfmt := byteAt b 3 % 16, qfmt := byteAt b 4 % 16, group := byteAt b 5, nsink := byteAt b 6,
    scale := BitVec.ofNat 32 (leAt b 8 4), win := leAt b 12 4, gpos := (List.range 4).map fun i => leAt b (16 + 4 * i) 4,
    tag := BitVec.ofNat 16 (leAt b 32 2),
    resOk := f / 32 == 0 && byteAt b 3 / 16 == 0 && byteAt b 4 / 16 == 0 && byteAt b 7 == 0 && allZero (sub b 34 30) }

def ssaDescOk (d : SsaDesc) : Bool :=
  d.resOk && d.op == 1 && decide (1 ≤ d.npart ∧ d.npart ≤ 16 ∧ 1 ≤ d.group ∧ d.group ≤ 64) && (d.pfmt == 3 || d.pfmt == 0)
    && (d.qfmt == 2 || d.qfmt == 3) && !(d.window && d.win == 0) && scaleOk d.scale.toNat

/-! ### Descriptor tiles (R224-R227, Tables 10-3 to 10-5) -/

def tileHdrOf (b : Bytes) : TileHdr :=
  { seqid := leAt b 0 4, layer := leAt b 4 2, ndesc := byteAt b 6, final := bit (byteAt b 7) 0, sliceLo := leAt b 8 4,
    sliceHi := leAt b 12 4, qaddr := leAt b 16 6, hkv := byteAt b 24, hdim := leAt b 26 2,
    resOk := leAt b 0 4 / 2 ^ 20 == 0 && byteAt b 7 / 2 == 0 && leAt b 22 2 == 0 && byteAt b 25 == 0 && allZero (sub b 28 36) }

def pageDescOf (lo : Nat) (b : Bytes) : PageDesc :=
  { pte := BitVec.ofNat 64 (leAt b 0 8), pti := leAt b 8 4, pos0 := leAt b 12 4, nvalid := leAt b 16 2,
    pexp := byteAt b 18 % 16, cfmt := byteAt b 19, hkv := byteAt b 20, hdim := leAt b 22 2, addr := leAt b 24 6,
    sliceLo := lo, resOk := byteAt b 18 / 16 == 0 && byteAt b 21 == 0 && leAt b 30 2 == 0 }

/-- Elements of a page. -/
def pageElems (p : PageDesc) : Nat := p.hkv * 2 * 2 ^ p.pexp * p.hdim

/-- The limits of Table 10-5 for a header beside the job's first. -/
def tileHdrOk (h : Handle) (x : TileHdr) (first : Option TileHdr) : Bool :=
  x.resOk && decide (x.ndesc ≤ 62 ∧ 64 + 32 * x.ndesc ≤ h.bytes ∧ 64 ≤ x.hdim ∧ x.hdim ≤ 256 ∧ 1 ≤ x.hkv) && x.hdim % 32 == 0
    && match first with
       | none => true
       | some y => x.seqid == y.seqid && x.layer == y.layer && x.qaddr == y.qaddr && x.hkv == y.hkv && x.hdim == y.hdim

/-- The limits of Table 10-5 for a page of stack `k`, its whole frame in the stack, beside the pages that came before. -/
def pageDescOk (s : State) (k : Nat) (mass : Bool) (x : TileHdr) (before : List PageDesc) (p : PageDesc) : Bool :=
  let t := pteOf p.pte.toNat
  p.resOk && t.resOk && resident t && t.form != 3 && (p.cfmt == 2 || p.cfmt == 3) && p.hkv == x.hkv && p.hdim == x.hdim
    && decide (4 ≤ p.pexp ∧ p.pexp ≤ 12 ∧ 1 ≤ p.nvalid ∧ p.nvalid ≤ 2 ^ p.pexp ∧ x.sliceLo ≤ p.pti ∧ p.pti < x.sliceHi)
    && (!mass || decide (p.pexp ≤ 6))
    && decide (k * stackBytes ≤ p.addr
      ∧ p.addr + max (frameBytes (poolAt s t.pool)) (if t.form = 0 then pageElems p else 32) ≤ (k + 1) * stackBytes)
    && before.all fun q => q.pti != p.pti && q.cfmt == p.cfmt && q.pexp == p.pexp && (q.sliceLo != p.sliceLo || q.pti < p.pti)

/-- The page descriptors of a tile in order, each checked. -/
def takePages (s : State) (k : Nat) (mass : Bool) (x : TileHdr) (b : Bytes) : Nat → List PageDesc → Option (List PageDesc)
  | 0, before => some before
  | n + 1, before =>
    let p := pageDescOf x.sliceLo (sub b (64 + 32 * (x.ndesc - (n + 1))) 32)
    if pageDescOk s k mass x before p then takePages s k mass x b n (before ++ [p]) else none

/-- A handle reaches the job (R226, R227). (DEDUCED, log 91.) -/
def arriveTile (s : State) (k : Nat) (j : SsaJob) (h : Handle) : State × Except Status SsaJob :=
  if isEmptyHandle h then (s, .ok { j with closed := j.closed + 1 })
  else if h.status != .ok then
    (s, .ok { j with closed := j.closed + 1, bad := some (j.bad.getD h.status) })
  else
    let r := ctrlRead s h.addr (min h.bytes 2048)
    match r.2 with
    | .error e => (r.1, .error e)
    | .ok b =>
      let x := tileHdrOf b
      if h.bytes < 64 || !tileHdrOk h x j.hdr then (r.1, .error .badDescriptor)
      else
        match takePages r.1 k j.desc.mass x b x.ndesc j.pages with
        | none => (r.1, .error .badDescriptor)
        | some ps =>
          if 8192 < ps.length then (r.1, .error .shapeOver)
          else
            (r.1, .ok { j with closed := j.closed + flag x.final, hdr := some (j.hdr.getD x), pages := ps })

/-- The SSA's station halts; it keeps the descriptor tiles it has popped (R235). -/
def ssaHalt (s : State) (k : Nat) (b : Bound) (st : Status) : State :=
  haltStation (modSsa s k fun x => { x with halted := true, last := st }) b st

/-- The tiles of a job taken in anew after a halt (R235). -/
def retakeTiles (k : Nat) : State → SsaJob → List Handle → State × Except Status SsaJob
  | s, j, [] => (s, .ok j)
  | s, j, h :: t =>
    let r := arriveTile s k j h
    match r.2 with
    | .error e => (r.1, .error e)
    | .ok j1 => retakeTiles k r.1 j1 t

def setJob (s : State) (k : Nat) (j : Option SsaJob) : State := modSsa s k fun x => { x with job := j }

/-- The job begins again from the first page of its run. -/
def ssaRerun (s : State) (k : Nat) (b : Bound) (j : SsaJob) : State :=
  let r := retakeTiles k s { j with closed := 0, hdr := none, pages := [], bad := none } j.tiles
  match r.2 with
  | .error e => ssaHalt r.1 k b e
  | .ok j1 => modSsa (setJob r.1 k (some j1)) k fun x => { x with halted := false }

/-- A descriptor is decoded and opens its job. -/
def ssaOpen (s : State) (k : Nat) (b : Bound) : State :=
  let r := ctrlRead s (wdAddr b 64) 64
  match r.2 with
  | .error e => ssaHalt r.1 k b e
  | .ok v =>
    let d := ssaDescOf v
    if !ssaDescOk d || !portsBound b [0] (if d.mass then [0, 1] else [0]) then ssaHalt r.1 k b .badDescriptor
    else
      modSsa (setJob r.1 k (some ⟨b.slot, b.idx, d, 0, none, [], [], none⟩)) k fun x => { x with halted := false }

/-- SSA_ATTEND: the station's descriptor opens its job, or the job it halted in begins again. -/
def execSsaAttend (stack : Nat) (s : State) : Host.Outcome State Fault Refusal :=
  onUnit stack 8 "stack" <|
    match bound s .ssa stack with
    | none => s
    | some b =>
      match (ssaAt s stack).job with
      | some j => if (ssaAt s stack).halted && mayFinish s b then ssaRerun s stack b j else s
      | none => if b.st.wdi < b.st.workN && mayStart s b then ssaOpen s stack b else s

/-- DESCRIPTOR_TILE_ARRIVAL: the job takes the next handle of port 0. -/
def execDescriptorTileArrival (stack : Nat) (s : State) : Host.Outcome State Fault Refusal :=
  onUnit stack 8 "stack" <|
    match bound s .ssa stack, (ssaAt s stack).job with
    | some b, some j =>
      if (ssaAt s stack).halted || !mayFinish s b || j.desc.npart ≤ j.closed then s
      else
        match popHandle s b.slot b.idx 0 with
        | none => waitInputs s b.slot b.idx [0]
        | some (t, h) =>
          let r := arriveTile t stack j h
          match r.2 with
          | .error e => ssaHalt (setJob r.1 stack (some { j with tiles := j.tiles ++ [h] })) stack b e
          | .ok j1 => setJob r.1 stack (some { j1 with tiles := j1.tiles ++ [h] })
    | _, _ => s

/-! ### Pages as the fold reads them (R225, R227, R231, R234) -/

/-- A page of the run: its bytes by their form. -/
inductive PageBody where
  | plain                             -- read row by row where the slots are present
  | whole (b : Bytes)                 -- Curd lossless, decoded
  | mx (els scales : Bytes)           -- Curd MXFP4
  | lost                              -- uncorrectable, or its own check fails

/-- A page's object read and decoded. (DEDUCED, log 92.) -/
def loadPage (s : State) (p : PageDesc) : State × PageBody :=
  let form := (pteOf p.pte.toNat).form
  if form = 0 then (s, .plain)
  else
    let h := memRead s p.addr 32
    match h.2 with
    | .ok hb =>
      let n := leAt hb 8 4
      if n < 32 ∨ frameBytes (poolAt s (pteOf p.pte.toNat).pool) < n then (h.1, .lost)
      else
        let r := memRead h.1 p.addr n
        match r.2 with
        | .ok o =>
          match curdDecode form (if form = 1 then pageElems p else pageElems p / 2) o with
          | .ok a sc => (r.1, if form = 1 then .whole a else .mx a sc)
          | _ => (r.1, .lost)
        | _ => (r.1, .lost)
    | _ => (h.1, .lost)

def loadPages : State → List PageDesc → State × List (PageDesc × PageBody)
  | s, [] => (s, [])
  | s, p :: t =>
    let r := loadPage s p
    let q := loadPages r.1 t
    (q.1, (p, r.2) :: q.2)

/-- An MXFP4 value widened to BF16 (R216). -/
def widen (v : Val) : Elem :=
  let r := convFloat ctl0 bf16 v
  ⟨decodeF bf16 r.1, r.2⟩

/-- Row `half × 2^e + t` of a page as elements: half 2g holds head g's keys, 2g + 1 its values (R190). Whether a sector of
it is uncorrectable. -/
def pageRow (s : State) (p : PageDesc) (body : PageBody) (half t : Nat) : State × List Elem × Bool :=
  let i0 := (half * 2 ^ p.pexp + t) * p.hdim
  let fmt := (fmtOfCode p.cfmt).getD .e4m3
  let plainElems (b : Bytes) : List Elem := b.map fun x => elemVal ctl0 ⟨fmt, false, 0, p.hdim⟩ x.toNat []
  match body with
  | .plain =>
    let r := memRead s (p.addr + i0) p.hdim
    match r.2 with
    | .ok b => (r.1, plainElems b, false)
    | g => (r.1, plainElems (gotBytes g), true)
  | .whole b => (s, plainElems (sub b i0 p.hdim), false)
  | .mx els sc =>
    let vs := (List.range p.hdim).map fun i => mxDecode .e2m1 (byteAt sc ((i0 + i) / 32)) (elemAt .e2m1 els (i0 + i))
    (s, vs.map fun v => if half % 2 = 0 then ⟨v, 0⟩ else widen v, false)
  | .lost => (s, [], true)

/-- A present slot of a tile: its keys and values by head, and whether its key is an MX operand. -/
structure SlotData where
  keys : List (List Elem)
  vals : List (List Elem)
  mx   : Bool

def readSlot (s : State) (p : PageDesc) (body : PageBody) (t : Nat) : State × SlotData × Bool :=
  (List.range p.hkv).foldl (fun (a : State × SlotData × Bool) g =>
    let k := pageRow a.1 p body (2 * g) t
    let v := pageRow k.1 p body (2 * g + 1) t
    (v.1, { a.2.1 with keys := a.2.1.keys ++ [k.2.1], vals := a.2.1.vals ++ [v.2.1] }, a.2.2 || k.2.2 || v.2.2))
    (s, ⟨[], [], match body with | .mx _ _ => true | _ => false⟩, false)

/-- One column of a statistics tile: its page, its slot, and the slot's data where it is present. -/
structure Column where
  page : PageDesc
  slot : Nat
  data : Option SlotData

def readColumns : State → List (PageDesc × PageBody × Nat) → State × List Column × Bool
  | s, [] => (s, [], false)
  | s, (p, body, t) :: rest =>
    if p.nvalid ≤ t then
      let q := readColumns s rest
      (q.1, ⟨p, t, none⟩ :: q.2.1, q.2.2)
    else
      let r := readSlot s p body t
      let q := readColumns r.1 rest
      (q.1, ⟨p, t, some r.2.1⟩ :: q.2.1, r.2.2 || q.2.2)

/-- The run's slots in order, cut into tiles of 64 (R175). -/
def statTiles (ps : List (PageDesc × PageBody)) : List (List (PageDesc × PageBody × Nat)) :=
  let all := (ps.map fun p => (List.range (2 ^ p.1.pexp)).map fun t => (p.1, p.2, t)).flatten
  (List.range ((all.length + 63) / 64)).map fun i => (all.drop (64 * i)).take 64

/-! ### The fold (R225) -/

/-- What the fold of a job needs. -/
structure FoldArgs where
  desc  : SsaDesc
  qpos0 : Nat
  hq    : Nat
  hdim  : Nat
  cfmt  : Nat
  q     : List (List Elem)

/-- The presence rule of R225 as a mask record. -/
def ssaMask (a : FoldArgs) (cols : List Column) : MaskRec :=
  { qpos0 := a.qpos0, group := a.hq, causal := true, window := a.desc.window, sink := a.desc.sink, glob := a.desc.glob,
    bitmap := false, tree := false, summ := 2, nsink := a.desc.nsink, win := a.desc.win, treeBase := 0,
    kpos := (List.range 4).map fun g => match cols[16 * g]? with
      | some c => c.page.pos0 + c.slot
      | none => 0
    gpos := a.desc.gpos, resOk := true, tm := [], bm := [] }

/-- The control word of a product of the fold under ACB 0x00: formats of both operands. (DEDUCED, log 57.) -/
def foldPcw (fa fb : Nat) (mxB : Bool) : Pcw :=
  { kpiece := 0, passes := 0, acc := false, accin := false, fmtA := fa, fmtB := fb, mxA := false, mxB := mxB, expB := 0,
    resOk := true, acb := 0 }

/-- Scores of row `r`, none where absent. -/
def ssaScores (a : FoldArgs) (mask : MaskRec) (cols : List Column) (r : Nat) : List (Option (Nat × Nat)) :=
  let g := r % a.hq / a.desc.group
  let q := a.q.getD r []
  (numbered cols 0).map fun c => match c.2.data with
    | none => none
    | some d =>
      if evalPresent mask r c.1 then
        some (dotF (foldPcw a.desc.qfmt (if d.mx then 6 else a.cfmt) d.mx) none
          ((q.zip (d.keys.getD g [])).map fun x => some (x.1, x.2)))
      else none

/-- Value columns of head `g`. -/
def ssaCols (a : FoldArgs) (cols : List Column) (g : Nat) : List (List Elem) :=
  (List.range a.hdim).map fun i => cols.map fun c => match c.data with
    | some d => (d.vals.getD g []).getD i ⟨.fin false 0 0, 0⟩
    | none => ⟨.fin false 0 0, 0⟩

/-- A tile's value products are formed in BF16 as soon as one of its pages is MXFP4. (DEDUCED, log 92.) -/
def tileWide (cols : List Column) : Bool := cols.any fun c => match c.data with
  | some d => d.mx
  | none => false

/-- What a page of a tile contributes to a row's mass: the tile's running maximum, and the page's probabilities (R206). -/
structure MassPart where
  pti : Nat
  row : Nat
  mAt : Nat
  ps  : List Nat
  deriving DecidableEq, Repr

/-- The running maximum and the probabilities of R111 as FP32 codes. -/
def tileProbs (a : FoldArgs) (ss : List (Option Nat)) (r : Row) : Nat × List (Option Nat) :=
  let mn := fpSel ctl0 f32 true false r.m.toNat (rowMax ctl0 negInf32 ss).1
  if ss.all (fun x => x.isNone) then (r.m.toNat, ss)
  else if mn.1 = negInf32 then (r.m.toNat, ss.map fun _ => none)
  else
    match anyFmt ((fmtOfCode a.desc.pfmt).getD .bf16) with
    | .int _ => (mn.1, ss)
    | .flt pf => (mn.1, ss.map fun x => x.map fun v =>
        (convFloat ctl0 f32 (decodeF pf (expTerm ctl0 pf a.desc.scale.toNat mn.1 v).1)).1)

/-- The mass parts of one row of one tile. -/
def massParts (a : FoldArgs) (cols : List Column) (r : Nat) (ss : List (Option Nat)) (row : Row) : List MassPart :=
  let p := tileProbs a ss row
  let ptis := cols.foldl (fun (l : List Nat) c => if l.contains c.page.pti then l else l ++ [c.page.pti]) []
  ptis.map fun t => ⟨t, r, p.1, (cols.zip p.2).filterMap fun x => if x.1.page.pti = t then x.2 else none⟩

/-- What the fold carries from tile to tile. -/
structure Folding where
  rows  : List Row
  fl    : Nat
  bad   : Bool
  mass  : List MassPart

/-- One statistics tile: nothing, for any row, where a sector of it is uncorrectable (R234). (DEDUCED, log 92.) -/
def foldTile (a : FoldArgs) (s : State) (k : Nat) (x : Folding) (tile : List (PageDesc × PageBody × Nat)) : State × Folding :=
  let c := readColumns s tile
  if c.2.2 then
    let o := (ssaAt c.1 k).poison
    (ctrSat (0x0140000C + 0x100 * k) o (satAdd o 1) (modSsa c.1 k fun y => { y with poison := satAdd y.poison 1 }),
     { x with bad := true, mass := x.mass ++ (if a.desc.mass then
         ((numbered x.rows 0).map fun r => massParts a c.2.1 r.1 (c.2.1.map fun _ => none) r.2).flatten else []) })
  else
    let cols := c.2.1
    let mask := ssaMask a cols
    let w2 := foldPcw a.desc.pfmt (if tileWide cols then 0 else a.cfmt) false
    let out := (numbered x.rows 0).map fun r =>
      let ss := ssaScores a mask cols r.1
      let u := statsUpdate 0 w2 ((fmtOfCode a.desc.pfmt).getD .bf16) a.desc.scale.toNat (ss.map fun y => y.map Prod.fst)
        (ssaCols a cols (r.1 % a.hq / a.desc.group)) r.2
      (u.1, flAll u.2 ||| orAll (ss.filterMap fun y => y.map Prod.snd),
       if a.desc.mass then massParts a cols r.1 (ss.map fun y => y.map Prod.fst) r.2 else [])
    (c.1, { rows := out.map fun y => y.1, fl := x.fl ||| orAll (out.map fun y => y.2.1), bad := x.bad,
            mass := x.mass ++ (out.map fun y => y.2.2).flatten })

def foldTiles (a : FoldArgs) (k : Nat) : State → Folding → List (List (PageDesc × PageBody × Nat)) → State × Folding
  | s, x, [] => (s, x)
  | s, x, t :: rest =>
    let r := foldTile a s k x t
    foldTiles a k r.1 r.2 rest

/-! ### Mass tiles (R206, R229) -/

/-- FP32 of a small whole number. -/
def f32OfNat (n : Nat) : Nat := (convFloat ctl0 f32 (ofInt n)).1

/-- A row's share for a page: w grows by it (R206). -/
def massRow (c : Nat) (w : Nat × Nat) (row : Row) (p : MassPart) : Nat × Nat :=
  let mu := p.ps.foldl (fun (x : Nat × Nat) v => let r := fpAdd ctl0 f32 x.1 v; (r.1, x.2 ||| r.2)) (negZero32, 0)
  let e := expTerm ctl0 f32 c row.m.toNat p.mAt
  let m2 := fpMul ctl0 f32 mu.1 e.1
  if row.l.toNat % 2 ^ 31 = 0 then (w.1, w.2 ||| mu.2 ||| flAll e.2 ||| m2.2)
  else
    let q := fpDiv ctl0 f32 m2.1 row.l.toNat
    let r := fpAdd ctl0 f32 w.1 q.1
    (r.1, w.2 ||| mu.2 ||| flAll e.2 ||| m2.2 ||| q.2 ||| r.2)

/-- The sample of a page and the flags its making raises. -/
def massOf (c : Nat) (rows : List Row) (parts : List MassPart) (pti : Nat) : Nat × Nat :=
  let mine := parts.filter fun p => p.pti == pti
  let w := (numbered rows 0).foldl (fun x r => match mine.find? fun p => p.row == r.1 with
    | some p => massRow c x r.2 p
    | none => x) (negZero32, 0)
  let d := fpDiv ctl0 f32 w.1 (f32OfNat rows.length)
  (d.1, w.2 ||| d.2)

/-- The mass tile of a run, padded to a multiple of four entries. (DEDUCED, log 92.) -/
def massTile (c : Nat) (x : Folding) (ptis : List Nat) : Bytes × Nat :=
  let es := ptis.map fun t => (t, massOf c x.rows x.mass t)
  let pad := (4 - ptis.length % 4) % 4
  ((es.map fun e => leBytes 4 e.1 ++ leBytes 4 e.2.1).flatten
    ++ (List.replicate pad (leBytes 4 0xFFFFFFFF ++ leBytes 4 0)).flatten, orAll (es.map fun e => e.2.2))

/-! ### The end of a job (R226, R229, R230) -/

/-- A handle with bytes on an output port; it may have to wait for room. -/
def ssaPush (s : State) (b : Bound) (port : Nat) (tag : Half) (st : Status) (data : Bytes) : Drawn :=
  match drawBuffer s b port data.length with
  | .ok t pool addr =>
    .ok (emit ((memWrite t addr data).getD t) b.slot b.idx port ⟨st, 0, true, 0#16, data.length, pool, tag, addr⟩) pool addr
  | x => x

/-- Pushes of a job in port order. -/
inductive JobPush where
  | stall
  | bad
  | ok (s : State)

def ssaPushes (b : Bound) (tag : Half) (st : Status) : State → List (Nat × Bytes) → JobPush
  | s, [] => .ok s
  | s, (p, d) :: t =>
    match ssaPush s b p tag st d with
    | .stall => .stall
    | .bad => .bad
    | .ok u _ _ => ssaPushes b tag st u t

/-- The job is over: its tiles are released and the descriptor ends with OK. -/
def ssaDone (s : State) (k : Nat) (b : Bound) (j : SsaJob) (st : Status) : State :=
  let s1 := modSsa s k fun x => { x with job := none, last := st, jobs := x.jobs + 1, halted := false }
  let s2 := releaseAll s1 b.slot b.idx j.tiles
  settle (advance (notifyEvent s2 b j.desc.notify .ok) b) b.slot

def ssaPorts (j : SsaJob) : List Nat := if j.desc.mass then [0, 1] else [0]

/-- A job whose result is a handle that carries a status: its buffer holds no defined bytes (R226). (DEDUCED, log 91.) -/
def ssaCarry (s : State) (k : Nat) (b : Bound) (j : SsaJob) (st : Status) : State :=
  match ssaPushes b j.desc.tag st (tick1 s) ((ssaPorts j).map fun p => (p, openBytes s (carryLen s b p))) with
  | .stall => s
  | .bad => ssaHalt s k b .badDescriptor
  | .ok t => ssaDone t k b j st

/-- The run of a job folded, or the first state of every row where it has no page. (DESIGN CHOICE, log 93.) -/
def ssaFold (s : State) (k : Nat) (b : Bound) (j : SsaJob) (h : TileHdr) (qpos0 qt : Nat) : State :=
  let hq := h.hkv * j.desc.group
  let rows := qt * hq
  if rows = 0 ∨ 4096 < rows then ssaHalt s k b .badDescriptor
  else
    let qr := memRead s (h.qaddr - rows * h.hdim) (rows * h.hdim)
    match qr.2 with
    | .hole => ssaHalt qr.1 k b .badDescriptor
    | .bad _ _ => if j.pages.isEmpty then go s hq rows [] else ssaCarry qr.1 k b j .pagePoisoned
    | .ok q => if j.pages.isEmpty then go s hq rows [] else go qr.1 hq rows q
where
  /-- The fold and its pushes. -/
  go (t : State) (hq rows : Nat) (q : Bytes) : State :=
    let ps := j.pages.foldl (fun l p => insertPage p l) []
    let fmt := (fmtOfCode j.desc.qfmt).getD .e4m3
    let args : FoldArgs :=
      { desc := j.desc, qpos0 := qpos0, hq := hq, hdim := h.hdim, cfmt := (ps.head?.map fun p => p.cfmt).getD 3,
        q := (List.range rows).map fun r => (sub q (r * h.hdim) h.hdim).map fun x =>
          elemVal ctl0 ⟨fmt, false, 0, h.hdim⟩ x.toNat [] }
    let l := loadPages t ps
    let f := foldTiles args k l.1 ⟨List.replicate rows (rowInit h.hdim), 0, false, []⟩ (statTiles l.2)
    let m := massTile j.desc.scale.toNat f.2 (ps.map fun p => p.pti)
    let st : Status := if f.2.bad then .pagePoisoned else .ok
    let s1 := setSsaFlags f.1 k (f.2.fl ||| if j.desc.mass then m.2 else 0)
    match ssaPushes b j.desc.tag st s1 ((0, rowsToBytes h.hdim f.2.rows) :: if j.desc.mass then [(1, m.1)] else []) with
    | .stall => s
    | .bad => ssaHalt s k b .badDescriptor
    | .ok u => ssaDone u k b j st
  /-- Increasing PTE index (R225). -/
  insertPage (p : PageDesc) : List PageDesc → List PageDesc
    | [] => [p]
    | y :: t => if p.pti < y.pti then p :: y :: t else y :: insertPage p t

/-- A closed job ends (R226). (DEDUCED, log 91.) -/
def ssaEnd (s : State) (k : Nat) (b : Bound) (j : SsaJob) : State :=
  if !canPushAll s b.slot b.idx (ssaPorts j) then s
  else
    match j.bad, j.hdr with
    | some st, _ => ssaCarry s k b j st
    | none, none =>
      ssaDone ((ssaPorts j).foldl (fun t p => emit t b.slot b.idx p (emptyHandle j.desc.tag true)) s) k b j .empty
    | none, some h =>
      let t := memRead s h.qaddr 32
      match t.2 with
      | .hole => ssaHalt t.1 k b .badDescriptor
      | .bad _ _ => ssaCarry t.1 k b j .pagePoisoned
      | .ok q => if 64 < byteAt q 4 then ssaHalt t.1 k b .badDescriptor else ssaFold t.1 k b j h (leAt q 0 4) (byteAt q 4)

/-- SSA_JOB_CLOSE: the job whose slices have closed is folded and pushes what it made. (DESIGN CHOICE, log 93.) -/
def execSsaJobClose (stack : Nat) (s : State) : Host.Outcome State Fault Refusal :=
  onUnit stack 8 "stack" <|
    match bound s .ssa stack, (ssaAt s stack).job with
    | some b, some j =>
      if (ssaAt s stack).halted || !mayFinish s b || j.closed < j.desc.npart || decide ((stackAt s stack).level = 3) then s
      else ssaEnd s stack b j
    | _, _ => s

end Sys2Proof.Machine
end

