-- ==== Sys2Proof/Machine/Search.lean ====
section
/-! DEFINITION. The commands of the channel cores and the Skimmer: batches, queries, Harvest, indexes opened and freed, merging
(chapter 16). -/

namespace Sys2Proof.Machine

/-! ### Indexes in the state -/

def modVse (s : State) (f : Vse → Vse) : State := { s with vse := f s.vse }

def findIndex (s : State) (n : Nat) : Option Index := s.vse.indexes.find? fun x => x.num == n

def modIndex (s : State) (n : Nat) (f : Index → Index) : State :=
  modVse s fun v => { v with indexes := v.indexes.map fun x => if x.num == n then f x else x }

/-- The counters of an index (R364), each with its register offset. -/
inductive IdxCtr where
  | insRefused | delAbsent | edgeDrop | seenFull | poison | expired
  deriving DecidableEq, Repr

def idxCtrGet (c : IdxCtr) (x : Index) : Word :=
  match c with
  | .insRefused => x.insRefused | .delAbsent => x.delAbsent | .edgeDrop => x.edgeDrop | .seenFull => x.seenFull
  | .poison => x.poison | .expired => x.expired

def idxCtrSet (c : IdxCtr) (v : Word) (x : Index) : Index :=
  match c with
  | .insRefused => { x with insRefused := v } | .delAbsent => { x with delAbsent := v } | .edgeDrop => { x with edgeDrop := v }
  | .seenFull => { x with seenFull := v } | .poison => { x with poison := v } | .expired => { x with expired := v }

def idxCtrOff (c : IdxCtr) : Nat :=
  match c with
  | .insRefused => 0x02000028 | .delAbsent => 0x0200002C | .edgeDrop => 0x02000030 | .seenFull => 0x02000034
  | .poison => 0x02000038 | .expired => 0x0200003C

/-- A counter of an index rises by `k` (R414). -/
def idxCount (s : State) (n : Nat) (c : IdxCtr) (k : Nat) : State :=
  match findIndex s n with
  | none => s
  | some x =>
    let o := idxCtrGet c x
    ctrSat (idxCtrOff c) o (satAdd o k) (modIndex s n (idxCtrSet c (satAdd o k)))

/-! ### The SCAN work descriptor (R352) -/

structure ScanDesc where
  op     : Nat
  notify : Bool
  index  : Nat
  k      : Nat
  beam   : Nat
  tag    : Half
  recAddr : Nat
  resOk  : Bool
  deriving DecidableEq, Repr

def scanDescOf (b : Bytes) : ScanDesc :=
  { op := byteAt b 0, notify := bit (byteAt b 1) 0, index := byteAt b 2, k := leAt b 4 2, beam := leAt b 6 2,
    tag := BitVec.ofNat 16 (leAt b 8 2), recAddr := leAt b 16 6,
    resOk := byteAt b 1 / 2 == 0 && byteAt b 3 == 0 && leAt b 10 6 == 0 && leAt b 22 2 == 0 && allZero (sub b 24 40)
      && decide (1 ≤ byteAt b 0 ∧ byteAt b 0 ≤ 6) }

/-- The checks at decode, beside those of CREATE. -/
def scanDescOk (s : State) (d : ScanDesc) : Bool :=
  d.resOk && (d.op == 5 || match findIndex s d.index with
    | none => false
    | some x => d.op != 1 || (decide (1 ≤ d.k ∧ d.k ≤ 1024) && (!x.graph || decide (d.k ≤ d.beam ∧ d.beam ≤ 1024))))

/-- A batch or a Harvest of this station is in progress. (DESIGN CHOICE, log 138.) -/
def scanHeld (s : State) (b : Bound) : Bool :=
  s.vse.indexes.any fun x =>
    (match x.batch with | some k => k.slot == some b.slot && k.channel == b.st.unit | none => false)
      || (match x.harvest with | some k => k.slot == some b.slot && k.channel == b.st.unit | none => false)

def findJob (s : State) (b : Bound) : Option ScanJob := s.vse.jobs.find? fun j => j.slot == b.slot && j.channel == b.st.unit

def modJob (s : State) (b : Bound) (f : ScanJob → ScanJob) : State :=
  modVse s fun v => { v with jobs := v.jobs.map fun j => if j.slot == b.slot && j.channel == b.st.unit then f j else j }

def dropJob (s : State) (b : Bound) : State :=
  modVse s fun v => { v with jobs := v.jobs.filter fun j => !(j.slot == b.slot && j.channel == b.st.unit) }

/-- The station's current descriptor when it names operation `op`, its decode checks passed: handed to `run`. The store's tables
must be there (R358), and nothing of the station's own in progress. -/
def scanCmd (channel op : Nat) (ports : Bool) (run : State → Bound → ScanDesc → State) (s : State) :
    Host.Outcome State Fault Refusal :=
  onUnit channel 64 "flash channel" <|
    match bound s .scan channel with
    | none => s
    | some b =>
      if !mayStart s b || !wheyReady s || scanHeld s b || (findJob s b).isSome then s
      else
        let r := ctrlRead s (wdAddr b 64) 64
        match r.2 with
        | .error st => haltStation r.1 b st
        | .ok v =>
          let d := scanDescOf v
          if d.op ≠ op && decide (1 ≤ d.op ∧ d.op ≤ 6) then s
          else if !scanDescOk r.1 d || (ports && !portsBound b [0] [0]) then haltStation r.1 b .badDescriptor
          else run r.1 b d

/-- The descriptor is over: NOTIFY, the next one. -/
def scanEnd (s : State) (b : Bound) (notify : Bool) (st : Status) : State :=
  settle (advance (notifyEvent s b notify st) b) b.slot

/-- An input that carries nothing, or an error that forbids computing (R27, R28): what is pushed for it. (DEDUCED, log 137.) -/
def scanPass (s t : State) (b : Bound) (d : ScanDesc) (h : Handle) : State :=
  if isEmptyHandle h then
    if canPush t b.slot b.idx 0 then scanEnd (emit t b.slot b.idx 0 (emptyHandle d.tag true)) b d.notify .empty else s
  else
    match if canPush t b.slot b.idx 0 then ssaPush (tick1 t) b 0 d.tag h.status (openBytes t (carryLen t b 0)) else .stall with
    | .stall => s
    | .bad => haltStation s b .badDescriptor
    | .ok u _ _ => scanEnd (release u b.slot b.idx h) b d.notify .ok

/-! ### CREATE and DESTROY (R345, R361) -/

def indexOf (num : Nat) (b : Bytes) : Index :=
  { num := num, graph := byteAt b 0 == 1, code := byteAt b 1, degree := byteAt b 2, pool := byteAt b 3 % 16, slot0 := leAt b 4 4,
    nslot := leAt b 8 4, lkeyLsb := byteAt b 12 % 64, lkeyW := byteAt b 13, efc := leAt b 14 2, cur := 0, oldest := 0,
    batch := none, harvest := none, shards := List.replicate 64 ⟨0, [], []⟩, insRefused := 0#32, delAbsent := 0#32,
    edgeDrop := 0#32, seenFull := 0#32, poison := 0#32, expired := 0#32 }

/-- The checks of CREATE. (DESIGN CHOICE, log 138.) -/
def indexRecOk (s : State) (x : Index) (b : Bytes) : Bool :=
  let p := wheyPool s x.pool
  (byteAt b 0 == 1 || byteAt b 0 == 2) && decide (1 ≤ x.code ∧ x.code ≤ 8) && byteAt b 3 / 16 == 0 && byteAt b 12 / 64 == 0
    && allZero (sub b 16 16) && decide (x.lkeyW ≤ 16) && decide (1 ≤ x.nslot) && p.valid && p.index && p.size == 256
    && decide (x.slot0 + x.nslot ≤ p.count) && decide (x.lkeyLsb + x.lkeyW ≤ 64)
    && (if x.graph then decide (1 ≤ x.degree ∧ x.degree ≤ 64) && x.lkeyW == 0 && decide (1 ≤ x.efc ∧ x.efc ≤ 1024)
        else x.degree == 0 && x.efc == 0)
    && (findIndex s x.num).isNone
    && s.vse.indexes.all fun y => y.pool != x.pool || decide (y.slot0 + y.nslot ≤ x.slot0) || decide (x.slot0 + x.nslot ≤ y.slot0)

def runCreate (s : State) (b : Bound) (d : ScanDesc) : State :=
  let r := memRead s d.recAddr 32
  match r.2 with
  | .hole => haltStation r.1 b .badDescriptor
  | .bad _ _ => haltStation r.1 b .pagePoisoned
  | .ok v =>
    let x := indexOf d.index v
    if indexRecOk r.1 x v then scanEnd (modVse r.1 fun y => { y with indexes := y.indexes ++ [x] }) b d.notify .ok
    else haltStation r.1 b .badDescriptor

/-- CREATE. -/
def execScanCreate (channel : Nat) (s : State) : Host.Outcome State Fault Refusal := scanCmd channel 5 false runCreate s

/-- DESTROY waits until no query, batch or Harvest of the index is in flight. (DESIGN CHOICE, log 138.) -/
def runDestroy (s : State) (b : Bound) (d : ScanDesc) : State :=
  match findIndex s d.index with
  | none => s
  | some x =>
    if x.batch.isSome || x.harvest.isSome || s.vse.jobs.any (fun j => j.index == d.index) then s
    else scanEnd (modVse s fun v => { v with indexes := v.indexes.filter fun y => !(y.num == d.index) }) b d.notify .ok

/-- DESTROY. -/
def execScanDestroy (channel : Nat) (s : State) : Host.Outcome State Fault Refusal := scanCmd channel 6 false runDestroy s

/-! ### INSERT, DELETE and the end of a batch (R349, R350) -/

/-- One entry of a batch applied to its shard, with the index's counters; the status joins those before. -/
def batchEntry (n g : Nat) (insert : Bool) (a : State × List Nat) (e : Nat × Dword × Nat) : State × List Nat :=
  match findIndex a.1 n with
  | none => a
  | some x =>
    let item := e.1 % 2 ^ 40
    let k := itemShard item
    let sh := x.shards.getD k ⟨0, [], []⟩
    let put (t : State) (y : Shard) : State := modIndex t n fun z => { z with shards := z.shards.set k y }
    if a.1.fls.readonly then (a.1, a.2 ++ [statusCode .pageFault])
    else if insert then
      let r := insertEntry x g sh item e.2.1 (e.2.2 % 2 ^ codeBits x)
      let s1 := idxCount (idxCount (put a.1 r.sh) n .edgeDrop r.drops) n .seenFull r.fulls
      let s2 := if r.status == .ok then s1 else idxCount s1 n .insRefused 1
      (s2, a.2 ++ [statusCode r.status])
    else
      let r := deleteEntry g sh item
      let s1 := if r.2 then idxCount a.1 n .delAbsent 1 else put a.1 r.1
      (s1, a.2 ++ [statusCode .ok])

/-- A batch begins: its tile is popped, its entries are applied under g, their statuses are written back.
(DESIGN CHOICE, log 132; DEDUCED, log 133.) -/
def runBatch (insert : Bool) (s : State) (b : Bound) (d : ScanDesc) : State :=
  match findIndex s d.index with
  | none => s
  | some x =>
    if x.batch.isSome || x.harvest.isSome then s
    else
      let g := (x.cur + 1) % 2 ^ 24
      if 2 ^ 23 ≤ (x.cur + 1 + 2 ^ 24 - x.oldest) % 2 ^ 24 then haltStation (alarm s 15 d.index) b .tableBusy
      else
        match popHandle s b.slot b.idx 0 with
        | none => waitInputs s b.slot b.idx [0]
        | some (t, h) =>
          if isEmptyHandle h || isPoison h.status then scanPass s t b d h
          else
            let r := memRead t h.addr h.bytes
            match r.2 with
            | .hole => haltStation s b .badDescriptor
            | .bad _ _ => scanPass s r.1 b d { h with status := .pagePoisoned }
            | .ok v =>
              let q := (Config.updateEntries insert (codeBits x) v).foldl (batchEntry d.index g insert) (r.1, [])
              let s1 := (memWrite q.1 h.addr (padTo h.bytes (Config.updateWritten insert (codeBits x) v q.2))).getD q.1
              let k : Batch := { insert := insert, gen := g, channel := b.st.unit, slot := some b.slot, tag := d.tag,
                                 notify := d.notify, tile := h, durable := false, before := x.shards }
              modIndex s1 d.index fun y => { y with batch := some k }

/-- INSERT. -/
def execScanInsert (channel : Nat) (s : State) : Host.Outcome State Fault Refusal := scanCmd channel 2 true (runBatch true) s

/-- DELETE. -/
def execScanDelete (channel : Nat) (s : State) : Host.Outcome State Fault Refusal := scanCmd channel 3 true (runBatch false) s

/-- The update tile is pushed by the issuing station, when its queue has room. (DEDUCED, log 133.) -/
def batchPush (s : State) (n : Nat) (k : Batch) : State :=
  let free (t : State) : State := modIndex t n fun x => { x with batch := none }
  match k.slot, bound s .scan k.channel with
  | some sl, some b =>
    if b.slot ≠ sl then free s
    else if !mayFinish s b || !canPush s b.slot b.idx 0 then s
    else
      scanEnd (free (emit s b.slot b.idx 0 { k.tile with tag := k.tag, last := true })) b k.notify .ok
  | _, _ => free s

/-- INDEX_BATCH_DURABLE: every shard's writes are durable, so CUR is the batch's generation and its tile is pushed.
(DEDUCED, log 133.) -/
def execIndexBatchDurable (index : Nat) (s : State) : Host.Outcome State Fault Refusal :=
  match (findIndex s index).bind fun x => x.batch with
  | none => .next s
  | some k =>
    if !wheyReady s then .next s
    else .next (batchPush (modIndex s index fun x =>
      { x with cur := k.gen, batch := some { k with durable := true } }) index { k with durable := true })

/-! ### Harvest (R360) -/

/-- H: the smallest of CUR and the snapshots of the index's queries in flight. -/
def harvestH (s : State) (x : Index) : Nat :=
  ((s.vse.jobs.filter fun j => j.index == x.num).map fun j => j.snap).foldl (fun a b => if genLe b a then b else a) x.cur

/-- HARVEST begins: H is computed, then it waits for a running batch. -/
def runHarvest (s : State) (b : Bound) (d : ScanDesc) : State :=
  match findIndex s d.index with
  | none => s
  | some x =>
    if x.harvest.isSome then s
    else modIndex s d.index fun y => { y with harvest := some ⟨b.st.unit, some b.slot, d.notify, harvestH s x⟩ }

/-- HARVEST. -/
def execScanHarvest (channel : Nat) (s : State) : Host.Outcome State Fault Refusal := scanCmd channel 4 false runHarvest s

/-- HARVEST_DONE: every shard has finished, OLDEST is H, the descriptor completes with OK. -/
def execHarvestDone (index : Nat) (s : State) : Host.Outcome State Fault Refusal :=
  match findIndex s index with
  | none => .next s
  | some x =>
    match x.harvest with
    | none => .next s
    | some k =>
      if x.batch.isSome || !wheyReady s then .next s
      else
        let s1 := modIndex s index fun y => { y with
          oldest := k.h
          harvest := none
          shards := y.shards.map fun sh => if y.graph then harvestShard k.h sh else trimChains y (harvestShard k.h sh) }
        match k.slot, bound s1 .scan k.channel with
        | some sl, some b => if b.slot = sl then .next (scanEnd s1 b k.notify .ok) else .next s1
        | _, _ => .next s1

/-! ### QUERY (R353-R357) -/

/-- One list of a list tile. -/
def listBytes (k : Nat) (q : Query) : Bytes :=
  let st : Status := if q.bad then .badDescriptor else if q.poison then .pagePoisoned else .ok
  let es := if q.bad then [] else q.res.take k
  padTo (32 + 16 * k) (leBytes 2 es.length ++ leBytes 1 (statusCode st) ++ leBytes 1 0 ++ leBytes 8 q.user.toNat ++ leBytes 20 0
    ++ (es.map fun e => leBytes 8 (e.2.1 % 2 ^ 40 + e.1 * 2 ^ 40) ++ leBytes 8 e.2.2.toNat).flatten)

/-- The header of a list tile. -/
def listHead (nq snap : Nat) : Bytes := padTo 32 (leBytes 2 nq ++ leBytes 2 0 ++ leBytes 4 snap)

/-- A query record (R353, R356). (DEDUCED, log 137.) -/
def recordOf (x : Index) (b : Bytes) : Query :=
  let n := byteAt b 2
  let ts := (List.range (min n 8)).map fun i => termOf (sub b (32 + 16 * i) 16)
  { queryOf (leAt b 160 (16 * x.code)) with
    bkey := leAt b 0 2
    allb := bit (byteAt b 3) 0
    terms := ts
    user := BitVec.ofNat 64 (leAt b 8 8)
    bad := decide (8 < n) || byteAt b 3 / 2 != 0 || leAt b 4 4 != 0 || !allZero (sub b 16 16)
      || !allZero (sub b (32 + 16 * min n 8) (128 - 16 * min n 8)) || !ts.all termOk }

/-- A query's context takes it up: what it will read (R354). -/
def beginQuery (x : Index) (sh : Shard) (q : Query) : Query :=
  if q.bad then { q with done := true }
  else if x.graph then graphBegin x sh q
  else
    let w := if q.allb then (sh.chains.map Prod.snd).flatten else chainOf sh q.bkey
    { q with waiting := w, done := w.isEmpty }

/-- The shard that channel `c` searches. -/
def shardOf (x : Index) (c : Nat) : Shard := x.shards.getD c ⟨0, [], []⟩

/-- Queries that have just finished are counted. -/
def countQueries (s : State) (n : Nat) : State := modVse s fun v => { v with queries := v.queries + BitVec.ofNat 64 n }

/-- Every query of the tile is finished: the list tile is pushed, when its queue has room and a buffer, with the status that the
query tile carried (R28); what its lists met leaves the handle's status alone (R357). -/
def jobEnd (s : State) (b : Bound) (j : ScanJob) : State :=
  if !(j.queries.all fun q => q.done) || !mayFinish s b || !canPush s b.slot b.idx 0 then s
  else
    let data := listHead j.queries.length j.snap ++ (j.queries.map (listBytes j.k)).flatten
    match ssaPush s b 0 j.tag (carried [j.tile.status]) (padTo (roundUp data.length 32) data) with
    | .stall => s
    | .bad => haltStation (dropJob (release s b.slot b.idx j.tile) b) b .badDescriptor
    | .ok t _ _ => scanEnd (dropJob (release t b.slot b.idx j.tile) b) b j.notify .ok

/-- The lists of a tile whose snapshot lies before OLDEST. (DEDUCED, log 33; DEDUCED, log 137.) -/
def expired (s t : State) (b : Bound) (d : ScanDesc) (h : Handle) (snap : Nat) (qs : List Query) : State :=
  let list (q : Query) : Bytes :=
    padTo (32 + 16 * d.k) (leBytes 2 0 ++ leBytes 1 (statusCode .indexSnapshotExpired) ++ leBytes 1 0 ++ leBytes 8 q.user.toNat)
  let data := listHead qs.length snap ++ (qs.map list).flatten
  if !canPush t b.slot b.idx 0 then s
  else
    match ssaPush t b 0 d.tag (carried [h.status]) (padTo (roundUp data.length 32) data) with
    | .stall => s
    | .bad => haltStation s b .badDescriptor
    | .ok u _ _ =>
      let s0 := notifyEvent (idxCount (release u b.slot b.idx h) d.index .expired 1) b d.notify .indexSnapshotExpired
      let s1 := haltStation s0 b .indexSnapshotExpired
      modStation s1 b.slot b.idx fun x => { x with wdi := x.wdi + 1, sub := 0 }

/-- The resolved snapshot (R354): the tile's own, or what the compare-and-swap on its SNAP word gives. -/
def resolveSnap (t : State) (x : Index) (a snap : Nat) : State × Except Status Nat :=
  if snap ≠ 0xFFFFFFFF then (t, .ok snap)
  else if !amoOk a 4 then (t, .error .badDescriptor)
  else
    let r := adderRun t a 4 fun old => if old = 0xFFFFFFFF then x.cur else old
    match r.2 with
    | .old v => (r.1, .ok (if v.toNat = 0xFFFFFFFF then x.cur else v.toNat))
    | _ => (r.1, .error .pagePoisoned)

/-- A query tile is popped, its snapshot resolved, its queries taken up (R353, R354). (DEDUCED, log 137.) -/
def runQuery (s : State) (b : Bound) (d : ScanDesc) : State :=
  match findIndex s d.index with
  | none => s
  | some x =>
    match popHandle s b.slot b.idx 0 with
    | none => waitInputs s b.slot b.idx [0]
    | some (t, h) =>
      if isEmptyHandle h || isPoison h.status then scanPass s t b d h
      else
        let r := memRead t h.addr h.bytes
        match r.2 with
        | .hole => haltStation s b .badDescriptor
        | .bad _ _ => scanPass s r.1 b d { h with status := .pagePoisoned }
        | .ok v =>
          let nq := leAt v 4 2
          let rs := 160 + 16 * x.code
          if decide (256 < nq) || decide (h.bytes < 32 + nq * rs) || !allZero (sub v 6 26)
              || (leAt v 0 4 != 0xFFFFFFFF && byteAt v 3 != 0) then haltStation s b .badDescriptor
          else if nq = 0 then
            if canPush r.1 b.slot b.idx 0 then
              scanEnd (release (emit r.1 b.slot b.idx 0 (emptyHandle d.tag true)) b.slot b.idx h) b d.notify .empty
            else s
          else
            let sn := resolveSnap r.1 x h.addr (leAt v 0 4)
            match sn.2 with
            | .error .pagePoisoned => scanPass s sn.1 b d { h with status := .pagePoisoned }
            | .error st => haltStation s b st
            | .ok snap =>
              let qs := (List.range nq).map fun i => recordOf x (sub v (32 + i * rs) rs)
              if !genLe snap x.cur || 2 ^ 24 ≤ snap then haltStation sn.1 b .badDescriptor
              else if !genLe x.oldest snap then expired s sn.1 b d h snap qs
              else
                let sh := shardOf x b.st.unit
                let q1 := qs.map (beginQuery x sh)
                let j : ScanJob := { slot := b.slot, station := b.idx, channel := b.st.unit, index := d.index, k := d.k,
                                     beam := d.beam, tag := d.tag, notify := d.notify, tile := h, snap := snap, queries := q1 }
                let s1 := countQueries (modVse sn.1 fun y => { y with jobs := y.jobs ++ [j] }) (q1.filter fun q => q.done).length
                jobEnd s1 (rebind s1 b) j

/-- QUERY: a tile is taken up; where all queries of the one in progress are done, its list tile is pushed. -/
def execScanQuery (channel : Nat) (s : State) : Host.Outcome State Fault Refusal :=
  match (bound s .scan channel).bind fun b => (findJob s b).map fun j => (b, j) with
  | some x => onUnit channel 64 "flash channel" (jobEnd s x.1 x.2)
  | none => scanCmd channel 1 true runQuery s

/-- A codeword of a channel reads uncorrectable: the flash counter and its event (R330, R357). (DESIGN CHOICE, log 136.) -/
def scanUe (s : State) (c n : Nat) : State := channelUe s c (Config.argPack [n])

/-- What a query does with the codeword it has read: the query, and the edges dropped and nodes refused on the way.
(DESIGN CHOICE, log 136.) -/
def readStep (x : Index) (sh : Shard) (j : ScanJob) (q : Query) (poisoned : Bool) : Searched :=
  if x.graph then
    match nextNode q with
    | none => ⟨{ q with done := true }, 0, 0⟩
    | some n =>
      let a := if poisoned then ⟨{ q with expanded := n :: q.expanded, poison := true }, 0, 0⟩
        else expandNode x sh j.k j.beam (fun v => visible v j.snap && passes q.terms v.attr) ⟨q, 0, 0⟩ n
      { a with q := { a.q with done := (nextNode a.q).isNone } }
  else
    match q.waiting with
    | [] => ⟨{ q with done := true }, 0, 0⟩
    | c :: rest =>
      let q1 := if poisoned then { q with poison := true } else flatStep x sh j.snap j.k c q
      ⟨{ q1 with waiting := rest, done := rest.isEmpty }, 0, 0⟩

/-- CODEWORD_READ_DONE: one codeword of a query's search has been read (R343, R354, R357). (DESIGN CHOICE, log 136.) -/
def execCodewordReadDone (channel query : Nat) (poisoned : Bool) (s : State) : Host.Outcome State Fault Refusal :=
  onUnit channel 64 "flash channel" <|
    match bound s .scan channel with
    | none => s
    | some b =>
      if !mayFinish s b || !wheyReady s then s
      else
        match findJob s b with
        | none => s
        | some j =>
          match j.queries[query]?, findIndex s j.index with
          | some q, some x =>
            if q.done then s
            else
              let a := readStep x (shardOf x channel) j q poisoned
              let s1 := modVse s fun v => { v with reads := v.reads.modify channel fun n => n + 1 }
              let s2 := idxCount (idxCount s1 j.index .edgeDrop a.drops) j.index .seenFull a.fulls
              let s3 := if poisoned then idxCount (scanUe s2 channel j.index) j.index .poison 1 else s2
              let j1 := { j with queries := j.queries.set query a.q }
              let s4 := modJob s3 b fun _ => j1
              let s5 := if a.q.done then countQueries s4 1 else s4
              jobEnd s5 (rebind s5 b) j1
          | _, _ => s

/-! ### The Skimmer (R359) -/

structure SkimDesc where
  notify : Bool
  k      : Nat
  tag    : Half
  ok     : Bool
  deriving DecidableEq, Repr

def skimDescOf (b : Bytes) : SkimDesc :=
  { notify := bit (byteAt b 1) 0, k := leAt b 2 2, tag := BitVec.ofNat 16 (leAt b 4 2),
    ok := byteAt b 0 == 1 && byteAt b 1 / 2 == 0 && decide (1 ≤ leAt b 2 2 ∧ leAt b 2 2 ≤ 1024) && allZero (sub b 6 10) }

/-- A list tile read back (R357): NQ, SNAP, and per query its USER, STATUS and entries. -/
structure ListTile where
  nq   : Nat
  snap : Nat
  lists : List (Dword × Nat × List (Nat × Nat × Dword))
  deriving DecidableEq, Repr

/-- The layout follows from the tile's length: K is what fits. (DESIGN CHOICE, log 138.) -/
def listTileOf (b : Bytes) : ListTile :=
  let nq := leAt b 0 2
  let stride := (b.length - 32) / (max nq 1) / 16 * 16
  { nq := nq, snap := leAt b 4 4,
    lists := (List.range nq).map fun i =>
      let l := sub b (32 + i * stride) stride
      let es := (List.range (min (leAt l 0 2) ((stride - 32) / 16))).map fun e =>
        let v := leAt l (32 + 16 * e) 8
        (bits v 40 11, bits v 0 40, BitVec.ofNat 64 (leAt l (40 + 16 * e) 8))
      (BitVec.ofNat 64 (leAt l 4 8), byteAt l 2, es) }

/-- A list's status code that is neither OK nor EMPTY. -/
def codeFine (c : Nat) : Bool := c == 0 || c == 1

/-- Query `i` merged over the tiles: the K' best entries and the first error status, in tile order. -/
def mergeQuery (k : Nat) (ts : List ListTile) (i : Nat) : Bytes :=
  let ls := ts.filterMap fun t => t.lists[i]?
  let es := (ls.map fun l => l.2.2).flatten.foldl (fun r e => insertRes e r) []
  let best := es.take k
  let st := ((ls.map fun l => l.2.1).find? fun c => !codeFine c).getD 0
  padTo (32 + 16 * k) (leBytes 2 best.length ++ leBytes 1 st ++ leBytes 1 0
    ++ leBytes 8 ((ls.head?.map fun l => l.1.toNat).getD 0) ++ leBytes 20 0
    ++ (best.map fun e => leBytes 8 (e.2.1 + e.1 * 2 ^ 40) ++ leBytes 8 e.2.2.toNat).flatten)

/-- The tiles of a round read in order; the second component is the first that cannot be used. -/
def readTiles : State → List Handle → State × Except Status (List ListTile)
  | s, [] => (s, .ok [])
  | s, h :: rest =>
    let r := memRead s h.addr h.bytes
    match r.2 with
    | .hole => (r.1, .error .badDescriptor)
    | .bad _ _ => (r.1, .error .pagePoisoned)
    | .ok v =>
      if decide (v.length < 32) || decide (v.length < 32 + 32 * leAt v 0 2) then (r.1, .error .badDescriptor)
      else
        let q := readTiles r.1 rest
        match q.2 with
        | .error e => (q.1, .error e)
        | .ok l => (q.1, .ok (listTileOf v :: l))

/-- The output of a merge is pushed and every handle of the round released. -/
def skimPush (s t : State) (b : Bound) (d : SkimDesc) (hs : List Handle) (st : Status) (data : Option Bytes) : State :=
  if !canPush t b.slot b.idx 0 then s
  else
    let out := data.getD (openBytes t (carryLen t b 0))
    match ssaPush (if data.isSome then t else tick1 t) b 0 d.tag st (padTo (roundUp out.length 32) out) with
    | .stall => s
    | .bad => haltStation s b .badDescriptor
    | .ok u _ _ => scanEnd (releaseAll u b.slot b.idx hs) b d.notify .ok

/-- A round is merged (R27, R28, R359). -/
def skimRound (s t : State) (b : Bound) (d : SkimDesc) (hs : List Handle) : State :=
  let full := hs.filter fun h => !isEmptyHandle h
  let st := carried (hs.map fun h => h.status)
  if full.isEmpty then
    if canPush t b.slot b.idx 0 then scanEnd (emit t b.slot b.idx 0 (emptyHandle d.tag true)) b d.notify .empty else s
  else if hs.any fun h => isPoison h.status then skimPush s t b d full st none
  else
    let r := readTiles t full
    match r.2 with
    | .error .pagePoisoned => skimPush s r.1 b d full (if statusFine st then .pagePoisoned else st) none
    | .error e => haltStation s b e
    | .ok ts =>
      let nq := (ts.head?.map fun x => x.nq).getD 0
      let snap := (ts.head?.map fun x => x.snap).getD 0
      if ts.all fun x => x.nq == nq && x.snap == snap then
        skimPush s r.1 b d full st (some (listHead nq snap ++ ((List.range nq).map (mergeQuery d.k ts)).flatten))
      else haltStation s b .badDescriptor

/-- MERGE. -/
def execSkimMerge (die : Nat) (s : State) : Host.Outcome State Fault Refusal :=
  onUnit die 2 "die" <|
    match bound s .skim die with
    | none => s
    | some b =>
      if !mayStart s b then s
      else
        let r := ctrlRead s (wdAddr b 16) 16
        match r.2 with
        | .error st => haltStation r.1 b st
        | .ok v =>
          let d := skimDescOf v
          if !d.ok || !portsBound b [0] [0] then haltStation r.1 b .badDescriptor
          else
            match popRound r.1 b.slot b.idx 0 with
            | .bad => haltStation r.1 b .badDescriptor
            | .wait => waitInputs r.1 b.slot b.idx [0]
            | .got t hs => skimRound r.1 t b d hs

end Sys2Proof.Machine
end

