-- ==== Sys2Proof/Machine/Hss.lean ====
section
/-! DEFINITION. Verification of HSS signatures under RFC 8554 with the parameters of R421: SHA-256, LM-OTS W4, heights 10, 10
and 15. -/

namespace Sys2Proof.Machine

/-- A big-endian number of `n` bytes at `off`. -/
def beAt (b : Bytes) (off n : Nat) : Nat := ((sub b off n).map fun x => x.toNat).foldl (fun a x => 256 * a + x) 0

/-- Digit `i` of a string in base 16, high half of each byte first. -/
def coef4 (b : Bytes) (i : Nat) : Nat := let v := byteAt b (i / 2); if i % 2 = 0 then v / 16 else v % 16

/-- The 64 digits of a hash followed by the 3 of its checksum, shifted left by 4 as a 16-bit string. -/
def otsDigits (q : Bytes) : List Nat :=
  let ds := (List.range 64).map (coef4 q)
  let sum := (ds.map fun d => 15 - d).sum * 16
  ds ++ (List.range 3).map fun i => coef4 (beBytes 2 sum) i

/-- A Winternitz chain from step `j` for `n` more steps. -/
def otsChain (pre : Bytes) (i : Nat) : Nat → Nat → Bytes → Bytes
  | 0, _, x => x
  | n + 1, j, x => otsChain pre i n (j + 1) (sha256 (pre ++ beBytes 2 i ++ beBytes 1 j ++ x))

/-- The LM-OTS public key a signature of 2,180 bytes leads to; `pre` is I and q. -/
def otsKey (pre msg sig : Bytes) : Bytes :=
  let q := sha256 (pre ++ beBytes 2 0x8181 ++ sub sig 4 32 ++ msg)
  let zs := (numbered (otsDigits q) 0).map fun d => otsChain pre d.1 (15 - d.2) d.2 (sub sig (36 + 32 * d.1) 32)
  sha256 (pre ++ beBytes 2 0x8080 ++ zs.flatten)

/-- From a leaf up the path to the root. -/
def lmsClimb (ident : Bytes) : Nat → Nat → Bytes → Bytes → Bytes
  | 0, _, x, _ => x
  | n + 1, node, x, path =>
    let p := path.take 32
    let pair := if node % 2 = 1 then p ++ x else x ++ p
    lmsClimb ident n (node / 2) (sha256 (ident ++ beBytes 4 (node / 2) ++ beBytes 2 0x8383 ++ pair)) (path.drop 32)

/-- An LMS signature of height `h` over `msg` verifies under a 56-byte LMS public key. -/
def lmsVerify (h : Nat) (pub msg sig : Bytes) : Bool :=
  let type := if h = 15 then 7 else 6
  let q := beAt sig 0 4
  let ident := sub pub 8 16
  let ots := sub sig 4 2180
  let leaf := sha256 (ident ++ beBytes 4 (2 ^ h + q) ++ beBytes 2 0x8282 ++ otsKey (ident ++ beBytes 4 q) msg ots)
  beAt pub 0 4 == type && beAt pub 4 4 == 3 && beAt ots 0 4 == 3 && beAt sig 2184 4 == type && decide (q < 2 ^ h)
    && decide (pub.length = 56) && decide (sig.length = 2188 + 32 * h)
    && lmsClimb ident h (2 ^ h + q) leaf (sub sig 2188 (32 * h)) == sub pub 24 32

/-- An HSS signature of 7,800 bytes over `msg` verifies under a 60-byte HSS public key (R421). (DESIGN CHOICE, log 143.) -/
def hssVerify (pub msg sig : Bytes) : Bool :=
  let p1 := sub sig 2512 56
  let p2 := sub sig 5076 56
  decide (pub.length = 60) && decide (sig.length = 7800) && beAt pub 0 4 == 3 && beAt sig 0 4 == 2
    && lmsVerify 10 (sub pub 4 56) p1 (sub sig 4 2508) && lmsVerify 10 p1 p2 (sub sig 2568 2508)
    && lmsVerify 15 p2 msg (sub sig 5132 2668)

end Sys2Proof.Machine
end

