-- ==== Sys2Proof/Machine/Security.lean ====
section
/-! DEFINITION. Images and their slots, owner records, the signing key's leaves and attestation (chapter 20), with the sideband
opcodes that serve them (R454, R455). -/

namespace Sys2Proof.Machine

def modSec (s : State) (f : Sec → Sec) : State := { s with sec := f s.sec }

/-! ### The sideband (R454, R455, R393) -/

/-- The module controller answers requests: not in OFF, and not while its firmware restarts. -/
def sbServed (s : State) : Bool := s.pwr.state != .off && decide (s.pwr.ctlDownTo ≤ s.now)

/-- The response to a request; it discards one not yet read. (DEDUCED, log 142.) -/
def sbAnswer (s : State) (st : Status) (data : Bytes) : State := modSec s fun x => { x with sbAnswer := some (st, data) }

/-- A sideband request. The ROM monitor answers only staging and reads of SEC_BOOT_STATUS (R424). (DEDUCED, log 142.) -/
def sideband (s : State) (rom : Bool) (run : State → State) : Host.Outcome State Fault Refusal :=
  if !sbServed s || (s.pwr.romMonitor && !rom) then .next s else .next (run (modSec s fun x => { x with sbAnswer := none }))

/-! ### Images (R423, R424) -/

/-- Bytes of a slot of kind `k` (0 to 2). -/
def slotBytes (k : Nat) : Nat := if k = 0 then 0x200000 else if k = 1 then 0x1000000 else 0x100000

def imgSigner (b : Bytes) : Nat := byteAt b 3
def imgVersion (b : Bytes) : Nat := leAt b 4 4
def imgFloor (b : Bytes) : Nat := leAt b 8 4
def imgBodyLen (b : Bytes) : Nat := leAt b 12 4
def imgHash (b : Bytes) : Bytes := sub b 16 32
def imgBody (b : Bytes) : Bytes := (b.drop 8192).take (imgBodyLen b)

/-- FLAGS and HASH of owner slot `n` (1 to 4) of an owner record (Table 20-3). -/
def ownerFlags (o : Bytes) (n : Nat) : Nat := byteAt o (135 + n)
def ownerHash (o : Bytes) (n : Nat) : Bytes := sub o (8 + 32 * (n - 1)) 32

/-- The signer of an image is the root, or an owner slot that is VALID and permits its kind. -/
def signerOk (owner : Bytes) (k : Nat) (b : Bytes) : Bool :=
  let n := imgSigner b
  if n = 0 then sha256 (sub b 64 60) == padTo 32 Config.rootHash
  else decide (n ≤ 4) && bit (ownerFlags owner n) 0 && bit (ownerFlags owner n) (1 + k)
    && sha256 (sub b 64 60) == ownerHash owner n

/-- A slot is valid for kind `k` (R424). (DEDUCED, log 139.) -/
def imageValid (s : State) (k : Nat) (b : Bytes) : Bool :=
  decide (8192 + imgBodyLen b ≤ b.length) && leAt b 0 2 == 0x494D && byteAt b 2 == k + 1 && allZero (sub b 48 16)
    && leAt b 124 4 == 0 && allZero (sub b 7928 264) && signerOk s.sec.owner k b
    && hssVerify (sub b 64 60) (b.take 128) (sub b 128 7800) && sha256 (imgBody b) == imgHash b
    && decide ((s.sec.floors.getD k 0#32).toNat ≤ imgVersion b)

def slotsOf (s : State) (k : Nat) : Bytes × Bytes := s.sec.slots.getD k ([], [])

/-- The slot a boot takes: the valid one with the highest VERSION, A on a tie; some true is B. -/
def bootPick (s : State) (k : Nat) : Option Bool :=
  let p := slotsOf s k
  match imageValid s k p.1, imageValid s k p.2 with
  | true, true => some (decide (imgVersion p.1 < imgVersion p.2))
  | true, false => some false
  | false, true => some true
  | false, false => none

/-- The image booted of a kind; empty where there is none. -/
def bootedImage (s : State) (k : Nat) : Bytes :=
  match s.sec.booted.getD k none with
  | some false => (slotsOf s k).1
  | some true => (slotsOf s k).2
  | none => []

/-- The module-controller boot ROM checks its own kind: on entry to STANDBY and at each watchdog restart (R424).
(DEDUCED, log 142.) -/
def bootController (s : State) : State :=
  let p := bootPick s 2
  { modSec s (fun x => { x with booted := x.booted.set 2 p, bootCause := if p.isNone then 3 else x.bootCause }) with
    pwr := { s.pwr with romMonitor := p.isNone } }

/-! ### Stages (R426) -/

def setSlot (s : State) (k : Nat) (b : Bool) (v : Bytes) : State :=
  modSec s fun x => { x with slots := x.slots.modify k fun p => if b then (p.1, v) else (v, p.2) }

def getSlot (s : State) (k : Nat) (b : Bool) : Bytes := if b then (slotsOf s k).2 else (slotsOf s k).1

/-- The slot a stage writes: the one not booted at the last Thaw; either, where none was. (DESIGN CHOICE, log 140.) -/
def stageSlot (s : State) (k : Nat) : Bool :=
  match s.sec.booted.getD k none with
  | some b => !b
  | none => choose 2 s.free == 1

/-- Bytes written into a slot at an offset; what lies between is open. (DEDUCED, log 139.) -/
def slotPut (s : State) (b : Bytes) (off : Nat) (data : Bytes) : Bytes :=
  overlay (b ++ openBytes s (off + data.length - b.length)) off data

/-- The check of a staged slot. -/
def stageCheck (s : State) (k : Nat) (b : Bool) : Status := if imageValid s k (getSlot s k b) then .ok else .badDescriptor

/-- STAGE_OPEN: from here until STAGE_CLOSE the slot is invalid. (DEDUCED, log 139.) -/
def execStageOpen (kind : Nat) (s : State) : Host.Outcome State Fault Refusal :=
  sideband s true fun t =>
    if t.sec.stage.isSome then sbAnswer t .tableBusy []
    else if kind = 0 ∨ 3 < kind then sbAnswer t .badDescriptor []
    else
      let b := stageSlot t (kind - 1)
      sbAnswer (tick1 (modSec (setSlot t (kind - 1) b []) fun x => { x with stage := some (kind - 1, b) })) .ok []

/-- STAGE_DATA: 128 bytes at an offset of the slot. -/
def execStageData (offset : Nat) (data : Bytes) (s : State) : Host.Outcome State Fault Refusal :=
  sideband s true fun t =>
    match t.sec.stage with
    | none => sbAnswer t .badDescriptor []
    | some p =>
      if data.length ≠ 128 ∨ slotBytes p.1 < offset + 128 then sbAnswer t .badDescriptor []
      else sbAnswer (tick1 (setSlot t p.1 p.2 (slotPut t (getSlot t p.1 p.2) offset data))) .ok []

/-- STAGE_CLOSE: the slot is checked (R424). -/
def execStageClose (length : Nat) (s : State) : Host.Outcome State Fault Refusal :=
  sideband s true fun t =>
    match t.sec.stage with
    | none => sbAnswer t .badDescriptor []
    | some p =>
      let t1 := setSlot (modSec t fun x => { x with stage := none }) p.1 p.2 ((getSlot t p.1 p.2).take length)
      sbAnswer t1 (stageCheck t1 p.1 p.2) []

/-- A stage by the host: head and body read, the slot written and checked. (DESIGN CHOICE, log 140.) -/
def hostStage (s : State) : State × Status :=
  let k := s.sec.stageKind
  if s.sec.stage.isSome then (s, .tableBusy)
  else if k = 0 ∨ 3 < k then (s, .badDescriptor)
  else
    let b := stageSlot s (k - 1)
    let r := argRead (tick1 s) s.sec.stageAddr 8192
    match r.2 with
    | .error e => (r.1, e)
    | .ok head =>
      if slotBytes (k - 1) < 8192 + imgBodyLen head then (r.1, .badDescriptor)
      else
        let q := argRead r.1 (argAt s.sec.stageAddr 8192) (imgBodyLen head)
        match q.2 with
        | .error e => (setSlot q.1 (k - 1) b [], e)
        | .ok body =>
          let t := setSlot q.1 (k - 1) b (head ++ body)
          (t, stageCheck t (k - 1) b)

/-- A write of SEC_STAGE_CTRL: KIND, DONE cleared by a 1, GO (Table 20-5). -/
def opStageCtrl (value : Word) (s : State) : State :=
  let v := value.toNat
  let s1 := modSec s fun x => { x with stageKind := bits v 1 2, stageDone := x.stageDone && !bit v 17 }
  if bit v 0 then
    let r := hostStage s1
    modSec r.1 fun x => { x with stageStatus := r.2, stageDone := true }
  else s1

/-- SEC_STAGE_CTRL. -/
def execSecStageCtrl (value : Word) (s : State) : Host.Outcome State Fault Refusal := whenUp s (opStageCtrl value s)

/-! ### Owner records (R427) -/

/-- Some slot of an owner record is VALID. -/
def anyOwner (o : Bytes) : Bool := (List.range 4).any fun i => bit (ownerFlags o (i + 1)) 0

/-- MAGIC, reserved fields, and GEN. -/
def ownerForm (stored o : Bytes) : Bool :=
  leAt o 0 2 == 0x4F52 && leAt o 2 2 == 0 && (List.range 4).all (fun i => ownerFlags o (i + 1) / 32 == 0) && leAt o 141 3 == 0
    && leAt o 204 4 == 0 && leAt o 4 4 == leAt stored 4 4 + 1

/-- One of the three conditions of acceptance; `sb`: over the sideband in STANDBY. -/
def ownerAuth (stored o : Bytes) (sb : Bool) : Bool :=
  let n := byteAt o 140
  (decide (1 ≤ n ∧ n ≤ 4) && bit (ownerFlags stored n) 0 && bit (ownerFlags stored n) 4
      && sha256 (sub o 144 60) == ownerHash stored n && hssVerify (sub o 144 60) (o.take 208) (sub o 208 7800))
    || (sb && !anyOwner stored && n == 0) || (sb && !anyOwner o)

/-- A record is accepted and stored, or refused. -/
def ownerSubmit (s : State) (o : Bytes) (sb : Bool) : State × Status :=
  if ownerForm s.sec.owner o && ownerAuth s.sec.owner o sb then (modSec s fun x => { x with owner := o }, .ok)
  else (s, .badDescriptor)

/-- OWNER_DATA: 128 bytes into the always-on buffer. -/
def execOwnerData (offset : Nat) (data : Bytes) (s : State) : Host.Outcome State Fault Refusal :=
  sideband s false fun t =>
    if data.length ≠ 128 ∨ 8192 < offset + 128 then sbAnswer t .badDescriptor []
    else sbAnswer (modSec t fun x => { x with ownerBuf := overlay x.ownerBuf offset data }) .ok []

/-- OWNER_COMMIT. -/
def execOwnerCommit (s : State) : Host.Outcome State Fault Refusal :=
  sideband s false fun t =>
    let r := ownerSubmit t (t.sec.ownerBuf.take 8008) (t.pwr.state == .standby)
    sbAnswer r.1 r.2 []

/-- A write of SEC_OWNER_CTRL: DONE cleared by a 1, GO. -/
def opOwnerCtrl (value : Word) (s : State) : State :=
  let v := value.toNat
  let s1 := modSec s fun x => { x with ownerDone := x.ownerDone && !bit v 17 }
  if bit v 0 then
    let r := argRead s1 s1.sec.ownerAddr 8008
    let q := match r.2 with
      | .error e => (r.1, e)
      | .ok o => ownerSubmit r.1 o false
    modSec q.1 fun x => { x with ownerStatus := q.2, ownerDone := true }
  else s1

/-- SEC_OWNER_CTRL. -/
def execSecOwnerCtrl (value : Word) (s : State) : Host.Outcome State Fault Refusal := whenUp s (opOwnerCtrl value s)

/-! ### Attestation (R430-R432, Table 20-4) -/

/-- MSTATE of the Almanac and of PWR_STATUS; OFF has none. -/
def pwrCode (p : PwrState) : Nat :=
  match p with
  | .off => 0 | .standby => 1 | .thaw => 2 | .idle => 3 | .active => 4 | .hold => 5 | .withdrawn => 6

/-- The report's bytes 0 to 415 for leaf `q`. -/
def reportBody (s : State) (nonce : Bytes) (cert : Bool) (q : Nat) : Bytes :=
  let im := (List.range 3).map (bootedImage s)
  padTo 416 (leBytes 2 0x4154 ++ leBytes 2 1 ++ leBytes 4 (if cert then 16112 else 8216) ++ padTo 32 nonce
    ++ leBytes 8 (timeStamp s).toNat ++ leBytes 8 identityDigest ++ padTo 60 Config.devPub ++ leBytes 1 (pwrCode s.pwr.state)
    ++ (im.map fun b => leBytes 1 (imgSigner b)).flatten ++ leBytes 1 (flag s.hif.lock) ++ leBytes 3 0
    ++ leBytes 4 (leAt s.sec.owner 4 4) ++ (im.map fun b => leBytes 4 (imgVersion b)).flatten
    ++ (s.sec.floors.map fun f => leBytes 4 f.toNat).flatten ++ (im.map fun b => imgHash b).flatten ++ sub s.sec.owner 8 128
    ++ sub s.sec.owner 136 4 ++ leBytes 4 0 ++ leBytes 8 q)

/-- The report, signed, with the certificate where it is asked for. (DEDUCED, log 141.) -/
def attestBytes (s : State) (nonce : Bytes) (cert : Bool) (q : Nat) : Bytes :=
  let b := reportBody s nonce cert q
  b ++ padTo 7800 (Config.hssSign q b) ++ (if cert then padTo 7896 Config.devCert else [])

/-- Leaf q is spent: its log record first where q mod 64 is 0; a new bottom tree where q ends one (R430, R431). -/
def spendLeaf (s : State) : State :=
  modSec s fun x =>
    let q := x.leaf
    let ends := (q + 1) % 2 ^ 15 == 0
    { x with leafLog := if q % 64 = 0 then q + 64 else x.leafLog
             leaf := q + 1
             treesReady := x.treesReady && (!ends || x.nextBottom)
             nextBottom := x.nextBottom && !ends }

/-- The host's request is over. -/
def attHostEnd (s : State) (st : Status) : State := modSec s fun x => { x with attStatus := st, attBusy := false, attDone := true }

/-- One request served with its own leaf (R432): none is the host's. (DEDUCED, log 141.) -/
def attServe (s : State) (r : Option (Bytes × Bool)) : State :=
  match r with
  | none =>
    if !argOk s.sec.attAddr then attHostEnd s .badDescriptor
    else if 2 ^ 35 ≤ s.sec.leaf then attHostEnd s .tableBusy
    else
      let b := attestBytes s (leBytes 32 s.sec.attNonce.toNat) s.sec.attCert s.sec.leaf
      match argWrite (spendLeaf s) s.sec.attAddr b with
      | .ok t => attHostEnd t .ok
      | .error _ => attHostEnd (spendLeaf s) .pageFault
  | some (nonce, cert) =>
    if 2 ^ 35 ≤ s.sec.leaf then sbAnswer s .tableBusy []
    else
      let b := attestBytes s nonce cert s.sec.leaf
      sbAnswer (modSec (spendLeaf s) fun x => { x with report := b }) .ok (leBytes 4 b.length)

/-- Waiting requests are served in order while a tree is ready. -/
def attRun : Nat → State → State
  | 0, s => s
  | n + 1, s =>
    match s.sec.attWait with
    | [] => s
    | r :: t =>
      if s.sec.treesReady || decide (2 ^ 35 ≤ s.sec.leaf) then attRun n (attServe (modSec s fun x => { x with attWait := t }) r)
      else s

def attAll (s : State) : State := attRun (s.sec.attWait.length) s

def attQueue (s : State) (r : Option (Bytes × Bool)) : State := attAll (modSec s fun x => { x with attWait := x.attWait ++ [r] })

/-- A write of SEC_ATT_CTRL: CERT, DONE cleared by a 1, GO. A GO while BUSY asks nothing more. (DESIGN CHOICE, log 140.) -/
def opAttCtrl (value : Word) (s : State) : State :=
  let v := value.toNat
  let s1 := modSec s fun x => { x with attCert := bit v 1, attDone := x.attDone && !bit v 17 }
  if bit v 0 && !s.sec.attBusy then attQueue (modSec s1 fun x => { x with attBusy := true }) none else s1

/-- SEC_ATT_CTRL. -/
def execSecAttCtrl (value : Word) (s : State) : Host.Outcome State Fault Refusal := whenUp s (opAttCtrl value s)

/-- ATTEST. (DEDUCED, log 141.) -/
def execAttest (nonce : Bytes) (cert : Bool) (s : State) : Host.Outcome State Fault Refusal :=
  sideband s false fun t =>
    if hostUp t.pwr.state then attQueue t (some (padTo 32 nonce, cert)) else sbAnswer t .badDescriptor []

/-- ATTEST_READ: 128 bytes of the report; bytes past its end are open. (DEDUCED, log 141.) -/
def execAttestRead (offset : Nat) (s : State) : Host.Outcome State Fault Refusal :=
  sideband s false fun t =>
    if t.sec.report.length ≤ offset then sbAnswer t .badDescriptor []
    else
      let b := (t.sec.report.drop offset).take 128
      sbAnswer (tick1 t) .ok (b ++ openBytes t (128 - b.length))

/-- TREE_REGENERATION: the trees of q are ready, and what waited is served (R431). -/
def execTreeRegeneration (s : State) : Host.Outcome State Fault Refusal :=
  whenUp s (attAll (modSec s fun x => { x with treesReady := true }))

/-- BOTTOM_TREE_REPLACEMENT: the next bottom tree is built; it is in use at once where the last one has ended. -/
def execBottomTreeReplacement (s : State) : Host.Outcome State Fault Refusal :=
  whenUp s <|
    if decide (2 ^ 14 < s.sec.leaf % 2 ^ 15) then modSec s fun x => { x with nextBottom := true }
    else if s.sec.leaf % 2 ^ 15 = 0 && decide (0 < s.sec.leaf) then attAll (modSec s fun x => { x with treesReady := true })
    else s

end Sys2Proof.Machine
end

