-- ==== Sys2Proof/Machine/CollTree.lean ====
section
/-! DEFINITION. Plan trees, element types, chunks and the fold of collectives (R256, R259, R260, R264-R268). -/

namespace Sys2Proof.Machine

/-! ### The plan tree (R256) -/

/-- The highest level that rank `r` heads: how often FANIN divides it. -/
def headLevel (f : Nat) : Nat → Nat → Nat
  | 0, _ => 0
  | n + 1, r => if r % f = 0 then headLevel f n (r / f) + 1 else 0

/-- The remote children of a rank, over all the levels it heads, in the order of its fold (R264, R269). -/
def planKids (n f r : Nat) : List Nat :=
  ((List.range (headLevel f 17 r)).map fun l => (List.range (f - 1)).map fun j => r + (j + 1) * f ^ l).flatten.filter fun k => k < n

/-- The head above a rank other than 0. -/
def planParent (f r : Nat) : Nat := r - r % f ^ (headLevel f 17 r + 1)

/-- One past the last rank below a rank other than 0. -/
def planEnd (f r : Nat) : Nat := r + f ^ headLevel f 17 r

/-- A rank heads a node, though no other child of it need exist (R256). -/
def headsNode (n f r : Nat) : Bool := decide (1 < n) && r % f == 0

/-- The ranks next to a rank in the plan tree: its children, and its parent. -/
def planNear (n f r : Nat) : List Nat := planKids n f r ++ (if r = 0 then [] else [planParent f r])

/-- The neighbour of rank `r` on the way to another rank. -/
def planToward (n f r q : Nat) : Nat :=
  match (planKids n f r).find? fun k => decide (k ≤ q ∧ q < planEnd f k) with
  | some k => k
  | none => planParent f r

/-- The level of the root. -/
def planLevels (n f : Nat) : Nat := ((List.range 17).filter fun l => f ^ l < n).length

/-- Which child of the root a remote child's subtree belongs to (R274). -/
def rootRead (n f k : Nat) : Nat := k / f ^ (planLevels n f - 1)

/-! ### Element types (Table 12-3) -/

def collMoves (op : Nat) : Bool := decide (1 ≤ op ∧ op ≤ 4)

def collWidth (t hdim : Nat) : Nat :=
  match t with
  | 0 => 1 | 1 => 4 | 2 => 2 | 3 => 2 | 4 => 4 | 5 => 8 | _ => rowBytes hdim

/-- The accumulator's width. -/
def collAccWidth (t hdim : Nat) : Nat :=
  match t with
  | 2 => 4 | 3 => 4 | _ => collWidth t hdim

/-- A pair of Table 12-3 for an operation. (DEDUCED, log 102.) -/
def collTypesOk (op et ot : Nat) : Bool :=
  let pair := match et with
    | 1 => ot == 1 || ot == 2 || ot == 3
    | 2 => ot == 1 || ot == 2 || ot == 3
    | 3 => ot == 1 || ot == 2 || ot == 3
    | 4 => ot == 4
    | 5 => ot == 5 || ot == 4
    | _ => false
  if op = 7 then et == 6 && ot == 6
  else if collMoves op then (et == 0 && ot == 0) || (decide (et ≤ 5) && (ot == 0 || pair))
  else pair

/-! ### Chunks (R268) -/

/-- Elements of a chunk of a reduction. -/
def chunkElems (e : CollEntry) : Nat := e.chunkB / collAccWidth e.etype e.hdim

/-- Bytes of a block of data that moves. -/
def blockBytes (e : CollEntry) : Nat := e.count * collWidth e.etype e.hdim

/-- Chunks of `n` bytes of output. -/
def bytesChunks (e : CollEntry) (n : Nat) : Nat := (n + e.chunkB - 1) / e.chunkB

/-- Chunks of a block. -/
def blockChunks (e : CollEntry) : Nat :=
  if collMoves e.op then bytesChunks e (blockBytes e) else (e.count + chunkElems e - 1) / chunkElems e

/-- Chunks that are folded. -/
def foldTotal (g : Group) (e : CollEntry) : Nat :=
  if collMoves e.op then 0 else if e.op = 6 then g.n * blockChunks e else blockChunks e

/-- The first element of a reduction's chunk in its block, and how many it has. -/
def chunkSpan (e : CollEntry) (c : Nat) : Nat × Nat :=
  let lo := c % blockChunks e * chunkElems e
  (lo, min (chunkElems e) (e.count - lo))

/-- Bytes of an output element. -/
def outWidth (e : CollEntry) : Nat := collWidth e.otype e.hdim

/-- Bytes that an ALLTOALLV receives from a rank. -/
def partBytes (e : CollEntry) (q : Nat) : Nat := (e.counts.getD q none).getD 0 * collWidth e.etype e.hdim

/-- The rank whose data chunk `c` from `src` holds: blocks that every member receives pass from head to head (R293). -/
def chunkSource (e : CollEntry) (src c : Nat) : Nat :=
  match e.op with
  | 1 => e.root
  | 2 => c / blockChunks e
  | _ => src

/-- The first chunk of the output this member writes. -/
def outFirst (g : Group) (e : CollEntry) : Nat := if e.op = 6 then g.rank * blockChunks e else 0

/-- How many chunks this member writes. -/
def outCount (g : Group) (e : CollEntry) : Nat :=
  match e.op with
  | 2 => g.n * blockChunks e
  | 3 => g.n * blockChunks e
  | 4 => ((List.range g.n).map fun q => bytesChunks e (partBytes e q)).sum
  | 7 => if g.rank = 0 then blockChunks e else 0
  | _ => blockChunks e

/-- Where chunk `c` from rank `src` lies in the packed output. -/
def outOffset (e : CollEntry) (src c : Nat) : Nat :=
  match e.op with
  | 4 => ((List.range src).map (partBytes e)).sum + c * e.chunkB
  | 5 => (chunkSpan e c).1 * outWidth e
  | 6 => (chunkSpan e c).1 * outWidth e
  | 7 => (chunkSpan e c).1 * outWidth e
  | _ => c / blockChunks e * blockBytes e + c % blockChunks e * e.chunkB

/-- The number of chunk `c` from rank `src` among this member's output: an ALLTOALLV message counts within its part. -/
def outIndex (e : CollEntry) (src c : Nat) : Nat :=
  if e.op = 4 then ((List.range src).map fun q => bytesChunks e (partBytes e q)).sum + c else c

/-! ### Arithmetic (R264-R266) -/

/-- The format of a floating-point element type. -/
def collFmt (t : Nat) : Fmt := match t with | 2 => bf16 | 3 => f16 | _ => f32

def wordsOf (w : Nat) (b : Bytes) : List Nat := (List.range (b.length / w)).map fun i => leAt b (w * i) w

/-- Elements widened to the accumulator (R265). -/
def collWiden (et : Nat) (b : Bytes) : Bytes × Nat :=
  if et = 2 || et = 3 then
    let rs := (wordsOf 2 b).map fun c => convAny ctl0 (.flt (collFmt et)) (.flt f32) c
    ((rs.map fun r => leBytes 4 r.1).flatten, rs.foldl (fun f r => f ||| r.2) 0)
  else (b, 0)

/-- One step of a reduction on two elements (R265). -/
def collElem (et red : Nat) (a b : Nat) : Nat × Nat :=
  if et = 4 || et = 5 then
    let w := if et = 4 then 32 else 64
    let x := signed w a
    let y := signed w b
    match red with
    | 0 =>
      let v := x + y
      let r := if v > 2 ^ (w - 1) - 1 then ((2 ^ (w - 1) - 1 : Int), fOF) else if v < -2 ^ (w - 1) then (-2 ^ (w - 1), fOF) else (v, 0)
      (toField w r.1, r.2)
    | 1 => (if x < y then b else a, 0)
    | _ => (if y < x then b else a, 0)
  else match red with
    | 0 => fpAdd ctl0 f32 a b
    | 1 => fpSel ctl0 f32 true false a b
    | _ => fpSel ctl0 f32 false false a b

/-- The operator ⊕ on two values in accumulator form (R264-R266). -/
def collJoin (e : CollEntry) (a b : Bytes) : Bytes × Nat :=
  if e.op = 7 then
    let w := rowBytes e.hdim
    let n := min (a.length / w) (b.length / w)
    let rs := ((rowsAt a n e.hdim).zip (rowsAt b n e.hdim)).map fun p => mergeRow e.scale.toNat p.1 p.2
    ((rs.map fun r => rowToBytes r.1).flatten, rs.foldl (fun f r => f ||| r.2) 0)
  else
    let w := collAccWidth e.etype e.hdim
    let rs := ((wordsOf w a).zip (wordsOf w b)).map fun p => collElem e.etype e.red p.1 p.2
    ((rs.map fun r => leBytes w r.1).flatten, rs.foldl (fun f r => f ||| r.2) 0)

/-- ⊕ where a side may be an empty contribution (R262). -/
def collFold (e : CollEntry) (a b : Option Bytes) : Option Bytes × Nat :=
  match a, b with
  | some x, some y => let r := collJoin e x y; (some r.1, r.2)
  | x, none => if e.op = 7 then (x, 0) else (none, 0)
  | none, y => if e.op = 7 then (y, 0) else (none, 0)

/-- The result converted once to OTYPE (R265). -/
def collConvert (e : CollEntry) (b : Bytes) : Bytes × Nat :=
  if e.op = 7 then (b, 0)
  else if e.etype = 5 && e.otype = 4 then
    let rs := (wordsOf 8 b).map fun c => convAny ctl0 (.int 64) (.int 32) c
    ((rs.map fun r => leBytes 4 r.1).flatten, rs.foldl (fun f r => f ||| r.2) 0)
  else if e.otype = 2 || e.otype = 3 then
    let rs := (wordsOf 4 b).map fun c => convAny ctl0 (.flt f32) (.flt (collFmt e.otype)) c
    ((rs.map fun r => leBytes 2 r.1).flatten, rs.foldl (fun f r => f ||| r.2) 0)
  else (b, 0)

end Sys2Proof.Machine
end

