-- ==== Sys2Proof/Machine/Coll.lean ====
section
/-! DEFINITION. Groups, communication queues, collectives, the fence and the reset (chapter 12). -/

namespace Sys2Proof.Machine

/-! ### Groups and entries -/

def modEntry (s : State) (gid : Nat) (q : Word) (f : CollEntry → CollEntry) : State :=
  modGroup s gid fun g => { g with entries := g.entries.map fun e => if e.seq == q then f e else e }

def entryOf (g : Group) (q : Word) : Option CollEntry := g.entries.find? fun e => e.seq == q

/-- The operation that runs: the oldest that has not ended (R257). -/
def currentOf (g : Group) : Option CollEntry :=
  match g.entries.find? fun e => e.ended.isNone with
  | some e => if e.held then none else some e
  | none => none

def colCauseCode (c : ColCause) : Nat :=
  match c with
  | .none => 0 | .mismatch => 1 | .timeout => 2 | .withdraw => 3 | .poison => 4 | .vatWait => 5 | .input => 6

def colCauseOf (n : Nat) : ColCause :=
  match n with
  | 1 => .mismatch | 2 => .timeout | 3 => .withdraw | 4 => .poison | 5 => .vatWait | 6 => .input | _ => .none

/-- The first word of COL_G_STATUS (Table 12-7). -/
def colStatusWord (g : Group) : Nat := g.frank % 65536 + 65536 * colCauseCode g.cause + 2 ^ 24 * statusCode g.fstatus

/-- Vats that a group's chunks hold. -/
def vatsUsed (g : Group) : Nat := (g.entries.map fun e => (e.chunks.filter fun c => c.vat).length).sum

/-- A chunk of the operation takes a vat on this member (R269): it heads a node, or has several local inputs, or is the only
member and converts its contribution. (DEDUCED, log 104.) -/
def needsVat (g : Group) (e : CollEntry) : Bool :=
  headsNode g.n g.fanin g.rank || decide (1 < e.inputs.length)
    || (g.n == 1 && (e.etype != e.otype || collAccWidth e.etype e.hdim != collWidth e.etype e.hdim))

/-- A station of a loaded graph. (DESIGN CHOICE, log 106.) -/
def boundAt (s : State) (slot i : Nat) : Option Bound :=
  match slotGraph s slot with
  | none => none
  | some g => match g.stations[i]? with
    | some st => some ⟨slot, i, g, st⟩
    | none => none

/-! ### Messages (R257) -/

/-- What a message carries beside its payload: poison and the stamps of R280. -/
structure CollTag where
  poison : Bool
  early  : Nat
  late   : Nat
  lateRank : Nat
  synced : Bool
  deriving DecidableEq, Repr

def noTag : CollTag := ⟨false, 0, 0, 0, false⟩

def collKindCode (k : CollKind) : Nat :=
  match k with
  | .grant => 0 | .chunk => 1 | .result => 2 | .ack => 3 | .retire => 4

/-- The packet kind of a message (Table 13-7). (DESIGN CHOICE, log 111.) -/
def collPacket (k : CollKind) : Nat :=
  match k with
  | .chunk => 0x10
  | .result => 0x10
  | _ => 0x11

/-- A message of an operation goes to rank `dst`. -/
def collSend (s : State) (g : Group) (e : CollEntry) (dst : Nat) (k : CollKind) (c : Nat) (x : CollTag) (payload : Bytes) : State :=
  let kw := Config.kwLayout (collPacket k)
  let words := [collKindCode k, g.id, e.seq.toNat, e.op, e.etype, e.otype, e.red, e.count, c, g.rank, flag x.poison, x.early,
    x.late, x.lateRank, flag x.synced]
  sendBytes s g.die (collPacket k) (g.addrs.getD dst 0) g.gtag (fun i => kw (words ++ [i])) payload

/-- A message between members that belongs to no operation: 5 FENCE, 6 WITHDRAW, 7 the reset's exchange. -/
def groupSend (s : State) (g : Group) (dst k : Nat) (words : List Nat) : State :=
  let kind := if k = 7 then 0x11 else 0x12
  sendPacket s g.die (newPacket s kind (g.addrs.getD dst 0) g.gtag (Config.kwLayout kind (k :: g.id :: g.rank :: words)) [])

/-! ### How an operation ends (R43, R272, R273) -/

/-- A station whose descriptors are all entered and whose operations have all ended has ended its list. -/
def collListEnd (s : State) (slot i : Nat) : State :=
  match boundAt s slot i with
  | none => s
  | some b =>
    if b.st.run == .going && b.st.workN ≤ b.st.wdi
        && !(s.groups.any fun g => g.entries.any fun e => e.slot == slot && e.station == i && e.ended.isNone) then
      settle (modStation s slot i fun x => { x with run := .ended }) slot
    else pauseDone s slot

/-- The station of an operation halts at the operation's descriptor, once (R41, R273). -/
def haltEntry (s : State) (e : CollEntry) (st : Status) : State :=
  match boundAt s e.slot e.station with
  | none => s
  | some b => match b.st.run with
    | .halted _ => s
    | _ =>
      let s1 := modStation s e.slot e.station fun x => { x with wdi := e.wdi }
      settle (modStation (haltCore s1 e.slot e.station st) e.slot e.station fun x => { x with wdi := b.st.wdi }) e.slot

/-- The NOTIFY completion of an operation that the list has passed, whatever its status (R41, R43). (DESIGN CHOICE, log 101.) -/
def entryNotify (s : State) (e : CollEntry) (st : Status) : State :=
  if e.notify then graphEvent s e.slot 3 st e.station e.wdi else s

/-- Retired operations at the head of the queue leave it (R272). (DEDUCED, log 104.) -/
def dropRetired : Nat → State → Nat → State
  | 0, s, _ => s
  | n + 1, s, gid =>
    match findGroup s gid with
    | none => s
    | some g => match g.entries with
      | [] => s
      | e :: t =>
        if e.retired && e.ended.isSome && !e.held then
          let s1 := modGroup s gid fun x => { x with entries := t, retired := e.seq }
          dropRetired n (releaseAll s1 e.slot e.station e.inputs) gid
        else s

/-- A GROUP_CLOSE that waits: no operation of the group is in progress, and no reset (R278). (DEDUCED, log 107.) -/
def closeReady (g : Group) : Bool := g.state != 3 && !(g.state == 1 && (currentOf g).isSome)

/-- The group leaves; every entry is discarded and its inputs released. -/
def closeGroup (s : State) (gid : Nat) : State :=
  match findGroup s gid with
  | none => s
  | some g => match g.closeCmd with
    | none => s
    | some c =>
      if closeReady g then
        let s1 := { s with groups := s.groups.filter fun x => !(x.id == gid) }
        let s2 := g.entries.foldl (fun t e => releaseAll t e.slot e.station e.inputs) s1
        let s3 := g.entries.foldl (fun t e => collListEnd t e.slot e.station) s2
        finishCmd s3 c .ok
      else s

/-- An operation ends with `st`; OK, EMPTY and SHAPE_OVER do not fence (R273). -/
def collEnd (s : State) (gid : Nat) (e : CollEntry) (st : Status) (gone : Bool) : State :=
  let s1 := modEntry s gid e.seq fun x => { x with ended := some st, retired := x.retired || gone }
  let s2 := entryNotify s1 e st
  let s3 := if statusFine st then s2 else haltEntry s2 e st
  collListEnd (dropRetired 17 s3 gid) e.slot e.station

/-! ### Acknowledgement and retirement (R272) -/

/-- The window's verdict of R280: the rank most often slowest, ties to the larger summed lag and then to the lower rank. -/
def slowestOf (w : List (Nat × Nat)) : Nat × Nat :=
  let score (r : Nat) : Nat × Nat := ((w.filter fun p => p.1 == r).length, ((w.filter fun p => p.1 == r).map Prod.snd).sum)
  let better (a b : Nat) : Bool :=
    let x := score a
    let y := score b
    decide (y.1 < x.1) || (x.1 == y.1 && (decide (y.2 < x.2) || (x.2 == y.2 && decide (a < b))))
  match w with
  | [] => (0, 0)
  | p :: t =>
    let r := t.foldl (fun a q => if better q.1 a then q.1 else a) p.1
    (r, (score r).2 / max 1 (score r).1)

/-- The root's lag of a chunk that has completed (R280). (DEDUCED, log 110.) -/
def noteLag (s : State) (gid : Nat) (c : ChunkSt) : State :=
  modGroup s gid fun g =>
    if !c.synced then { g with unsyncSkip := true }
    else
      let w := g.window ++ [(c.lateRank, c.late - c.early)]
      if w.length < 16 then { g with window := w }
      else
        let v := slowestOf w
        { g with window := [], named := v.1, meanLag := min v.2 0xFFFF, slowValid := true, nameNew := true }

/-- A member's own lag for a chunk (R280). (DEDUCED, log 110.) -/
def noteOwnLag (s : State) (gid : Nat) (e : CollEntry) (early : Nat) (synced : Bool) : State :=
  modGroup s gid fun g =>
    if synced then { g with ownLag := min (e.stamp - early) 0xFFFF } else { g with unsyncSkip := true }

/-- The ranks whose acknowledgements of chunk `c` this member waits for before it passes one on: its own, and one for each subtree
that receives the chunk. -/
def acksNeeded (g : Group) (e : CollEntry) (c : Nat) : List Nat :=
  let kids := planKids g.n g.fanin g.rank
  match e.op with
  | 7 => if g.rank = 0 then [0] else []
  | 6 => (if c / blockChunks e = g.rank then [g.rank] else [])
      ++ kids.filter fun k => decide (k ≤ c / blockChunks e ∧ c / blockChunks e < planEnd g.fanin k)
  | _ => g.rank :: kids

/-- Acknowledgements of chunk `c` still to come. -/
def acksMissing (g : Group) (e : CollEntry) (c : Nat) : List Nat :=
  (acksNeeded g e c).filter fun r => !e.acks.contains (c, r)

/-- Chunks that the root waits to see acknowledged. -/
def ackTotal (g : Group) (e : CollEntry) : Nat :=
  match e.op with
  | 4 => 1
  | 6 => g.n * blockChunks e
  | 7 => blockChunks e
  | 1 => blockChunks e
  | 5 => blockChunks e
  | _ => g.n * blockChunks e

/-- RETIRE goes to the children, with the slowest rank's name where there is a new one and the operation's earliest stamp
(R272, R280). (DEDUCED, log 110.) -/
def sendRetire (s : State) (g : Group) (e : CollEntry) (x : CollTag) : State :=
  (planKids g.n g.fanin g.rank).foldl (fun t k => collSend t g e k .retire 0 x []) s

/-- The root retires an operation that every member has acknowledged. -/
def tryRetire (s : State) (gid : Nat) (q : Word) : State :=
  match findGroup s gid with
  | none => s
  | some g => match entryOf g q with
    | none => s
    | some e =>
      if g.rank = 0 && !e.retired && e.ended.isSome && ackTotal g e ≤ e.upDone then
        let early := e.earliest.getD (0, false)
        let s1 := sendRetire s g e ⟨!early.2, early.1, g.meanLag, g.named, g.nameNew⟩
        let s2 := modGroup (modEntry s1 gid q fun x => { x with retired := true }) gid fun x => { x with nameNew := false }
        dropRetired 17 s2 gid
      else s

/-- The acknowledgement of chunk `c` from rank `r`, the member's own or a subtree's; complete, it goes up, and at the root it frees
the vat. (DEDUCED, log 104.) -/
def gotAck (s : State) (gid : Nat) (q : Word) (c r : Nat) : State :=
  match findGroup s gid with
  | none => s
  | some g => match entryOf g q with
    | none => s
    | some e =>
      let e1 := { e with acks := (c, r) :: e.acks }
      if !(acksMissing g e1 c).isEmpty then modEntry s gid q fun x => { x with acks := e1.acks }
      else
        let s1 := modEntry s gid q fun x =>
          { x with acks := x.acks.filter fun (p : Nat × Nat) => !(p.1 == c), passed := x.passed.filter fun (d : Nat) => !(d == c),
                   upDone := x.upDone + 1 }
        if g.rank = 0 then
          tryRetire (modEntry s1 gid q fun x => { x with chunks := x.chunks.filter fun k => !(k.idx == c && k.sent) }) gid q
        else collSend s1 g e (planParent g.fanin g.rank) .ack c noTag []

/-! ### Output chunks (R272) -/

/-- What an attempt to write and push the next output chunk comes to. -/
inductive OutStep where
  | none
  | did (s : State)
  | fail (s : State) (st : Status)

/-- The acknowledgements of data that moves where the output is one empty handle, or of the whole output of an ALLTOALLV. -/
def ackAll (s : State) (g : Group) (e : CollEntry) : State :=
  if e.op = 4 then gotAck s g.id e.seq 0 g.rank
  else (List.range (outCount g e)).foldl (fun t k => gotAck t g.id e.seq (outFirst g e + k) g.rank) s

/-- A chunk written where it belongs: its handle's pool and address. (DEDUCED, log 105.) -/
def writeChunk (s : State) (b : Bound) (e : CollEntry) (r : CollResult) : Drawn :=
  if e.outAddr then
    match memWrite s (e.dst + r.off) r.data with
    | some t => .ok t 0xFF (e.dst + r.off)
    | none => .bad
  else
    match drawBuffer s b e.outPort (roundUp r.data.length 32) with
    | .ok t pool a => .ok ((memWrite t a r.data).getD t) pool a
    | x => x

/-- The sources of an operation whose blocks must have begun to arrive before any is pushed: one may turn out empty.
(DEDUCED, log 105.) -/
def sourcesHeard (g : Group) (e : CollEntry) : Bool :=
  match e.op with
  | 2 => (List.range g.n).all fun r => e.heard.contains r
  | 3 => (List.range g.n).all fun r => e.heard.contains r
  | _ => true

/-- The next output chunk, written in full and pushed with its valid signal and the status that this member's inputs carried (R28);
`ack`: the group is open and acknowledges it. Where a reduction's output is empty, one empty handle is pushed and each empty chunk is
acknowledged as it comes (R262). (DEDUCED, log 109.) -/
def outStep (s : State) (g : Group) (e : CollEntry) (ack : Bool) : OutStep :=
  match boundAt s e.slot e.station with
  | none => .none
  | some b =>
    let acked (t : State) : State := if ack then ackAll t g e else t
    if e.emptyOut && !e.emptyDone && e.pushedN = 0 then
      if !canPush s b.slot b.idx e.outPort then .none
      else .did (modEntry (emit s b.slot b.idx e.outPort (emptyHandle e.tag true)) g.id e.seq fun x => { x with emptyDone := true })
    else if e.emptyOut && collMoves e.op then
      if e.doneN ≠ 0 then .none
      else .did (acked (modEntry s g.id e.seq fun x => { x with doneN := max 1 (outCount g e), emptyDone := true }))
    else if outCount g e ≤ e.doneN || !sourcesHeard g e then .none
    else
      let c := outFirst g e + e.doneN
      match e.results.find? fun r => r.idx == c with
      | none => .none
      | some r =>
        let fin (t : State) : State :=
          let t1 := modEntry t g.id e.seq fun x =>
            { x with doneN := x.doneN + 1, pushedN := max x.pushedN (e.doneN + 1), results := x.results.filter fun y => !(y.idx == c) }
          if ack && e.op ≠ 4 then gotAck t1 g.id e.seq c g.rank
          else if ack && e.doneN + 1 == outCount g e then gotAck t1 g.id e.seq 0 g.rank
          else t1
        if e.doneN < e.pushedN || r.empty then .did (fin s)
        else if !canPush s b.slot b.idx e.outPort then .none
        else
          match writeChunk s b e r with
          | .bad => .fail s .badDescriptor
          | .stall => .none
          | .ok t pool a =>
            .did (fin (emit t b.slot b.idx e.outPort
              ⟨carried (e.inputs.map fun (h : Handle) => h.status), 0, e.doneN + 1 == outCount g e, 0#16, roundUp r.data.length 32,
               pool, e.tag, a⟩))

/-- Output chunks that are at hand, one after another. -/
def outSteps : Nat → State → Nat → Word → Bool → OutStep
  | 0, s, _, _, _ => .did s
  | n + 1, s, gid, q, ack =>
    match findGroup s gid with
    | none => .did s
    | some g => match entryOf g q with
      | none => .did s
      | some e => match outStep s g e ack with
        | .none => .did s
        | .fail t st => .fail t st
        | .did t => outSteps n t gid q ack

/-- What has landed is pushed as far as the port takes it, whatever else happens. -/
def outLanded (s : State) (gid : Nat) (e : CollEntry) (ack : Bool) : State :=
  match outSteps (e.results.length + 1) s gid e.seq ack with
  | .did t => t
  | .fail t _ => t
  | .none => s

/-! ### The fence (R273) -/

/-- Every operation of a fenced group that has not ended ends: the current one with `own`, the later ones with GROUP_FENCED. -/
def fenceEntries (gid : Nat) (own : Status) : State → List CollEntry → State
  | s, [] => s
  | s, e :: t =>
    let s1 := modEntry s gid e.seq fun x => { x with ended := some own, held := false }
    fenceEntries gid .groupFenced (haltEntry s1 e own) t

/-- The group fences: what has landed is pushed, FENCE goes along the plan tree, the operations end, the vats are discarded.
`skip` is the rank FENCE came from; without `tell` no FENCE is sent (WITHDRAW has gone to all). (DEDUCED, log 110.) -/
def groupFence (s : State) (gid : Nat) (st own : Status) (cause : ColCause) (frank : Nat) (skip : Option Nat) (tell : Bool) : State :=
  match findGroup s gid with
  | none => s
  | some g =>
    if g.state != 1 then s
    else
      let s0 := match currentOf g with
        | some e => outLanded s gid e false
        | none => s
      let s1 := if tell then
          ((planNear g.n g.fanin g.rank).filter fun k => some k != skip).foldl
            (fun t k => groupSend t g k 5 [frank, statusCode st, colCauseCode cause]) s0
        else s0
      let s2 := modGroup s1 gid fun x =>
        { x with state := 2, fstatus := st, cause := cause, frank := frank, fencedSeen := true, inbox := [],
                 entries := x.entries.map fun e => { e with chunks := [], waitAt := none } }
      match findGroup s2 gid with
      | none => s2
      | some g2 =>
        let s3 := event s2 ⟨0x06, st, 3, g.die, gid, colStatusWord g2⟩
        closeGroup (fenceEntries gid own s3 (g2.entries.filter fun e => e.ended.isNone)) gid

/-- The operation in progress ends with a status of its own, and the group fences. -/
def collFail (s : State) (g : Group) (st : Status) (cause : ColCause) : State :=
  groupFence s g.id st st cause g.rank none true

/-- The module withdraws from every open group: HOLD and WITHDRAWN (R276, R387). -/
def withdrawAll (s : State) (own : Status) : State :=
  (s.groups.filter fun g => g.state == 1).foldl (fun t g =>
    let t1 := ((List.range g.n).filter fun r => r != g.rank).foldl (fun u r => groupSend u g r 6 []) t
    churnWithdraw (groupFence t1 g.id own own .withdraw g.rank none false) g.id) s

/-! ### Inputs (R262, R263) -/

/-- Bytes of one local input. (DEDUCED, log 109.) -/
def inputBytes (g : Group) (e : CollEntry) : Nat :=
  match e.op with
  | 3 => g.n * blockBytes e
  | 6 => g.n * blockBytes e
  | _ => blockBytes e

/-- Where local input `i` lies. (DEDUCED, log 109.) -/
def inputAt (g : Group) (e : CollEntry) (i : Nat) : Nat :=
  if e.inAddr then e.src + i * inputBytes g e
  else match e.inputs[i]? with
    | some h => h.addr
    | none => 0

/-- The status an input's handle ends the operation with: a poisoned one its own, a small one BAD_DESCRIPTOR (R28, R263). -/
def inputFault (e : CollEntry) (need : Nat) : Option Status :=
  match e.inputs.find? fun h => isPoison h.status with
  | some h => some h.status
  | none => if !e.inAddr && e.inputs.any fun h => !isEmptyHandle h && decide (h.bytes < need) then some .badDescriptor else none

/-- A read of input data: a hole ends the operation with BAD_DESCRIPTOR, an uncorrectable sector with PAGE_POISONED. -/
def collRead (s : State) (a n : Nat) : State × Except Status Bytes :=
  let r := memRead s a n
  match r.2 with
  | .hole => (r.1, .error .badDescriptor)
  | .bad _ _ => (r.1, .error .pagePoisoned)
  | .ok d => (r.1, .ok d)

/-- A member's contribution to a chunk: the fold of its local inputs; in accumulator form where the chunk has a vat. -/
def contribution (g : Group) (e : CollEntry) (vat : Bool) (c : Nat) :
    Nat → State → Option Bytes → Nat → List Handle → State × Except Status (Option Bytes × Nat)
  | _, s, v, fl, [] => (s, .ok (v, fl))
  | i, s, v, fl, h :: t =>
    if isEmptyHandle h then contribution g e vat c (i + 1) s v fl t
    else
      let w := collWidth e.etype e.hdim
      let sp := chunkSpan e c
      let r := collRead s (inputAt g e i + (if e.op = 6 then c / blockChunks e * blockBytes e else 0) + sp.1 * w) (sp.2 * w)
      match r.2 with
      | .error st => (r.1, .error st)
      | .ok b =>
        let x := if vat then collWiden e.etype b else (b, 0)
        let y := match v with
          | none => (x.1, 0)
          | some a => collJoin e a x.1
        contribution g e vat c (i + 1) r.1 (some y.1) (fl ||| x.2 ||| y.2) t

/-! ### Data that moves (R260, R261) -/

/-- A chunk of output has reached this member. -/
def addResult (s : State) (gid : Nat) (e : CollEntry) (src c : Nat) (data : Bytes) (empty : Bool) : State :=
  modEntry s gid e.seq fun x =>
    { x with results := if empty && collMoves e.op then x.results else x.results ++ [⟨outIndex e src c, outOffset e src c, data, empty⟩]
             emptyOut := x.emptyOut || empty, heard := insertNat x.heard src }

/-- A chunk goes to rank `dst`, or stays. -/
def moveChunk (s : State) (g : Group) (e : CollEntry) (dst c : Nat) (data : Bytes) (empty : Bool) : State :=
  if dst = g.rank then addResult s g.id e g.rank c data empty else collSend s g e dst .result c noTag data

/-- A block goes to rank `dst` in chunks numbered from `base`. -/
def moveBlock (s : State) (g : Group) (e : CollEntry) (dst base : Nat) (data : Bytes) : State :=
  (List.range (bytesChunks e data.length)).foldl
    (fun t i => moveChunk t g e dst (base + i) ((data.drop (i * e.chunkB)).take e.chunkB) false) s

/-- The ranks a member sends its data to: a block that every member receives goes once to each neighbour in the plan tree, whose
collective engine copies it on (R260, R293). (DEDUCED, log 105.) -/
def moveTo (g : Group) (e : CollEntry) : List Nat :=
  match e.op with
  | 1 => if g.rank = e.root then g.rank :: planNear g.n g.fanin g.rank else []
  | 2 => g.rank :: planNear g.n g.fanin g.rank
  | _ => List.range g.n

/-- The blocks a member sends, by destination: first chunk number, offset of the input, bytes. -/
def movesOf (g : Group) (e : CollEntry) : List (Nat × Nat × Nat × Nat) :=
  let n := blockBytes e
  match e.op with
  | 1 => (moveTo g e).map fun r => (r, 0, 0, n)
  | 2 => (moveTo g e).map fun r => (r, g.rank * blockChunks e, 0, n)
  | _ => (List.range g.n).map fun r => (r, g.rank * blockChunks e, r * n, n)

/-- An empty contribution to data that moves: every member's output is one empty handle. (DEDUCED, log 105.) -/
def moveEmpty (s : State) (g : Group) (e : CollEntry) : State :=
  (moveTo g e).foldl (fun t r => moveChunk t g e r (if e.op = 1 || e.op = 4 then 0 else g.rank * blockChunks e) [] true) s

/-- Number of a message of the first phase of ALLTOALLV: counts, and whether a total exceeds COUNT_MAX. (DESIGN CHOICE, log 103.) -/
def countsMsg : Nat := 0xFFFFFFFE
/-- DESIGN CHOICE, log 103. -/
def verdictMsg : Nat := 0xFFFFFFFF

/-- A member's send counts (R261). (DESIGN CHOICE, log 103.) -/
def sendCounts (s : State) (g : Group) (e : CollEntry) : State × Except Status (List Nat) :=
  let r := collRead s e.scounts (4 * g.n)
  match r.2 with
  | .error st => (r.1, .error st)
  | .ok b => (r.1, .ok (wordsOf 4 b))

/-- An attempt to begin an operation. -/
inductive CollStep where
  | wait
  | did (s : State)
  | fail (s : State) (st : Status) (cause : ColCause)

/-- The operation begins: its inputs are judged, and data that moves leaves (R260-R263). -/
def startEntry (s : State) (g : Group) (e : CollEntry) : CollStep :=
  let need := if e.op = 4 then 0 else inputBytes g e
  match inputFault e need with
  | some st => .fail s st .input
  | none =>
    let none' := !e.inputs.isEmpty && e.inputs.all isEmptyHandle
    let s1 := modEntry s g.id e.seq fun x => { x with started := true, emptyIn := none' }
    let go (t : State) (e' : CollEntry) : CollStep :=
      if e'.op = 4 then
        if none' then .did (moveEmpty t g e')
        else
          let r := sendCounts t g e'
          match r.2 with
          | .error st => .fail r.1 st .input
          | .ok cs =>
            if !e'.inAddr && e'.inputs.any fun h => decide (h.bytes < cs.sum * collWidth e'.etype e'.hdim) then .fail r.1 .badDescriptor .input
            else
              let t1 := ((List.range g.n).filter fun q => q != g.rank).foldl
                (fun u q => collSend u g e' q .chunk countsMsg noTag (leBytes 4 (cs.getD q 0))) r.1
              .did (modEntry t1 g.id e'.seq fun x => { x with counts := (List.replicate g.n none).set g.rank (some (cs.getD g.rank 0)) })
      else if collMoves e'.op then
        if none' then .did (moveEmpty t g e')
        else if (movesOf g e').isEmpty then .did t
        else
          let r := collRead t (inputAt g e' 0) (inputBytes g e')
          match r.2 with
          | .error st => .fail r.1 st .input
          | .ok b => .did ((movesOf g e').foldl (fun u m => moveBlock u g e' m.1 m.2.1 ((b.drop m.2.2.1).take m.2.2.2)) r.1)
      else .did t
    go s1 { e with started := true }

/-- The first phase of ALLTOALLV ends at this member: its receive counts are written, and its verdict goes out (R261). -/
def endPhase1 (s : State) (g : Group) (e : CollEntry) : CollStep :=
  let cs := e.counts.map fun c => c.getD 0
  match memWrite s e.rcounts (cs.map (leBytes 4)).flatten with
  | none => .fail s .badDescriptor .input
  | some t =>
    let big := decide (e.countMax < cs.sum)
    let t1 := ((List.range g.n).filter fun q => q != g.rank).foldl
      (fun u q => collSend u g e q .chunk verdictMsg noTag [BitVec.ofNat 8 (flag big)]) t
    .did (modEntry t1 g.id e.seq fun x => { x with verdicts := (g.rank, big) :: x.verdicts })

/-- The payload phase of ALLTOALLV (R261). -/
def movePhase2 (s : State) (g : Group) (e : CollEntry) : CollStep :=
  if e.verdicts.any fun v => v.2 then .did (collEnd s g.id e .shapeOver true)
  else
    let r := sendCounts s g e
    match r.2 with
    | .error st => .fail r.1 st .input
    | .ok cs =>
      let w := collWidth e.etype e.hdim
      let q := if cs.sum = 0 then (r.1, .ok []) else collRead r.1 (inputAt g e 0) (cs.sum * w)
      match q.2 with
      | .error st => .fail q.1 st .input
      | .ok b =>
        let quiet := cs.sum == 0 && (e.counts.all fun c => c == some 0)
        let e1 := { e with moved := true }
        let s1 := modEntry q.1 g.id e.seq fun x => { x with moved := true, emptyOut := x.emptyOut || quiet }
        let s2 := (List.range g.n).foldl (fun t d => moveBlock t g e1 d 0 ((b.drop ((cs.take d).sum * w)).take (cs.getD d 0 * w))) s1
        .did (if outCount g e = 0 && !quiet then gotAck s2 g.id e.seq 0 g.rank else s2)

/-- What ALLTOALLV does next. -/
def stepV (s : State) (g : Group) (e : CollEntry) : CollStep :=
  if e.op ≠ 4 || e.moved || e.emptyIn || e.emptyOut then .wait
  else if (e.verdicts.any fun v => v.1 == g.rank) then
    if e.verdicts.length = g.n then movePhase2 s g e else .wait
  else if e.counts.length = g.n && e.counts.all fun c => c.isSome then endPhase1 s g e
  else .wait

/-! ### Chunks of a reduction (R268-R274) -/

/-- The next chunk begins with this member's contribution; a vat is taken where one is needed (R271), and what its sectors do is a
free value (R274). (DESIGN CHOICE, log 106.) -/
def beginChunk (s : State) (g : Group) (e : CollEntry) (granted : Bool) : CollStep :=
  let vat := needsVat g e
  if foldTotal g e ≤ e.begun then .wait
  else if vat && decide (g.vats ≤ vatsUsed g) then
    if e.waitAt.isSome then .wait
    else .did (modEntry s g.id e.seq fun x => { x with waitAt := some s.now })
  else
    let r := contribution g e vat e.begun 0 s none 0 e.inputs
    match r.2 with
    | .error st => .fail r.1 st .input
    | .ok v =>
      let u := if vat then Config.vatFault r.1.free else (false, none)
      let s1 := if vat then tick1 r.1 else r.1
      let k : ChunkSt :=
        { idx := e.begun, vat := vat, val := v.1, folded := 0, asked := 0, granted := granted, sent := false, poison := false,
          early := e.stamp, late := e.stamp, lateRank := g.rank, synced := e.stampSync, soft := u.1, badAt := u.2 }
      .did (modEntry (setColFlags s1 g.die v.2) g.id e.seq fun x =>
        { x with begun := x.begun + 1, chunks := x.chunks ++ [k], waitAt := none })

def modChunk (s : State) (gid : Nat) (q : Word) (c : Nat) (f : ChunkSt → ChunkSt) : State :=
  modEntry s gid q fun e => { e with chunks := e.chunks.map fun k => if k.idx == c then f k else k }

/-- A vat is read: a correctable error is corrected and counted, an uncorrectable one counted (R274). -/
def countVat (s : State) (die : Nat) (k : ChunkSt) (bad : Bool) : State :=
  let old := s.col.getD die ⟨0#32, 0#32, 0#32, 0#5⟩
  let s1 := if k.soft then
      ctrSat (0x00C00024 + 0x1000 * die) old.corr (satAdd old.corr 1)
        { s with col := s.col.modify die fun x => { x with corr := satAdd x.corr 1 } }
    else s
  if bad then
    ctrSat (0x00C00028 + 0x1000 * die) old.poison (satAdd old.poison 1)
      { s1 with col := s1.col.modify die fun x => { x with poison := satAdd x.poison 1 } }
  else s1

/-- A complete value goes to the parent on its grant (R270); without a vat the chunk is then gone. -/
def sendUp (s : State) (g : Group) (e : CollEntry) (k : ChunkSt) : State :=
  let bad := k.vat && k.badAt == some 0
  let s1 := countVat s g.die k bad
  let s2 := collSend s1 g e (planParent g.fanin g.rank) .chunk k.idx ⟨k.poison || bad, k.early, k.late, k.lateRank, k.synced⟩ (k.val.getD [])
  if k.vat then modChunk s2 g.id e.seq k.idx fun x => { x with sent := true, soft := false }
  else modEntry s2 g.id e.seq fun x => { x with chunks := x.chunks.filter fun y => !(y.idx == k.idx) }

/-- The children that receive a result chunk: all, or for REDUCE_SCATTER the one whose subtree holds the block's rank.
(DEDUCED, log 104.) -/
def resultKids (g : Group) (e : CollEntry) (c : Nat) : List Nat :=
  (planKids g.n g.fanin g.rank).filter fun k =>
    match e.op with
    | 5 => true
    | 6 => decide (k ≤ c / blockChunks e ∧ c / blockChunks e < planEnd g.fanin k)
    | _ => false

/-- This member writes result chunk `c`. -/
def resultMine (g : Group) (e : CollEntry) (c : Nat) : Bool :=
  match e.op with
  | 6 => c / blockChunks e == g.rank
  | 7 => g.rank == 0
  | _ => true

/-- The root delivers a chunk: converted once, read from its vat once for each child in increasing j (R265, R274).
(DEDUCED, log 105.) -/
def rootDeliver (s : State) (g : Group) (e : CollEntry) (k : ChunkSt) : State :=
  let out := match k.val with
    | some v => if k.vat then collConvert e v else (v, 0)
    | none => ([], 0)
  let empty := k.val.isNone
  let bad (j : Nat) : Bool := k.poison || (k.vat && (match k.badAt with | some n => decide (n ≤ j) | none => false))
  let reads := if e.op = 7 then [0] else (0 :: (resultKids g e k.idx).map (rootRead g.n g.fanin))
  let hit := k.vat && !k.poison && reads.any bad
  let s1 := countVat (setColFlags s g.die out.2) g.die k hit
  let x (b : Bool) : CollTag := ⟨b, k.early, k.late, k.lateRank, k.synced⟩
  let s2 := (resultKids g e k.idx).foldl
    (fun t c => collSend t g e c .result k.idx (x (bad (rootRead g.n g.fanin c))) out.1) s1
  let s3 := modEntry (modChunk (noteOwnLag (noteLag s2 g.id k) g.id e k.early k.synced) g.id e.seq k.idx fun y =>
      { y with sent := true, soft := false }) g.id e.seq fun y =>
    { y with passed := insertNat y.passed k.idx, earliest := some (k.early, k.synced) }
  let s4 := if resultMine g e k.idx && !bad 0 then addResult s3 g.id e g.rank k.idx out.1 empty else s3
  if bad 0 then collFail s4 g .chunkPoisoned .poison
  else if hit then groupFence s4 g.id .chunkPoisoned .groupFenced .poison g.rank none true
  else if e.op = 7 || k.vat then s4
  else modEntry s4 g.id e.seq fun y => { y with chunks := y.chunks.filter fun z => !(z.idx == k.idx) }

/-- One chunk goes on: the next grant, the send to the parent, or the root's delivery. -/
def chunkStep (gid : Nat) (q : Word) (s : State) (c : Nat) : State :=
  match findGroup s gid with
  | none => s
  | some g => match entryOf g q with
    | none => s
    | some e =>
      if g.state != 1 || e.ended.isSome then s
      else match e.chunks.find? fun k => k.idx == c with
        | none => s
        | some k =>
          let kids := planKids g.n g.fanin g.rank
          if k.sent then s
          else if k.folded < kids.length then
            if k.asked = k.folded then
              collSend (modChunk s gid q c fun x => { x with asked := x.asked + 1 }) g e (kids.getD k.folded 0) .grant c noTag []
            else s
          else if g.rank = 0 then rootDeliver s g e k
          else if k.granted then sendUp s g e k
          else s

/-! ### Messages reach an operation -/

/-- The other fields of a message agree with the member's entry (R257). (DEDUCED, log 102.) -/
def msgAgrees (e : CollEntry) (m : CollMsg) : Bool :=
  m.op == e.op && m.etype == e.etype && m.otype == e.otype && m.red == e.red && m.count == e.count

/-- A child's chunk folds into the vat (R264, R280), widened first where the child sent it straight from its input buffer (R269); the
child is told, and may give up its own vat. (DEDUCED, log 104.) -/
def foldChunk (s : State) (g : Group) (e : CollEntry) (k : ChunkSt) (m : CollMsg) : State :=
  let b := if m.payload.isEmpty then (none, 0)
    else if !headsNode g.n g.fanin m.src && e.op ≠ 7 then
      let r := collWiden e.etype m.payload; (some r.1, r.2)
    else (some m.payload, 0)
  let v := collFold e k.val b.1
  let s1 := modChunk (setColFlags s g.die (b.2 ||| v.2)) g.id e.seq m.chunk fun x =>
    { x with val := v.1, folded := x.folded + 1, poison := x.poison || m.poison, early := min x.early m.early,
             late := max x.late m.late, lateRank := if x.late < m.late then m.lateRank else x.lateRank, synced := x.synced && m.synced }
  collSend s1 g e m.src .ack m.chunk noTag []

/-- The ranks a result chunk goes on to: the children, or, for data that every member receives, the neighbours other than the one
it came from (R274, R293). -/
def onwardOf (g : Group) (e : CollEntry) (m : CollMsg) : List Nat :=
  if e.op = 1 || e.op = 2 then (planNear g.n g.fanin g.rank).filter fun k => k != m.src
  else if collMoves e.op then []
  else resultKids g e m.chunk

/-- A head forwards what it receives (R274). -/
def forwardResult (s : State) (g : Group) (e : CollEntry) (m : CollMsg) : State :=
  (onwardOf g e m).foldl (fun t k => collSend t g e k .result m.chunk ⟨m.poison, m.early, m.late, m.lateRank, m.synced⟩ m.payload) s

/-- A result chunk: forwarded, then this member's (R273, R274). -/
def takeResult (s : State) (g : Group) (e : CollEntry) (m : CollMsg) : State :=
  let s1 := forwardResult s g e m
  let s2 := if collMoves e.op then s1
    else noteOwnLag (modEntry s1 g.id e.seq fun y =>
      { y with chunks := y.chunks.filter fun (z : ChunkSt) => !(z.idx == m.chunk && z.sent), passed := insertNat y.passed m.chunk })
      g.id e m.early m.synced
  if m.poison then collFail s2 g .chunkPoisoned .poison
  else if resultMine g e m.chunk then addResult s2 g.id e (chunkSource e m.src m.chunk) m.chunk m.payload m.payload.isEmpty
  else s2

/-- A message from a rank has come: what is expected of it next is expected from now on (R275). -/
def heardFrom (s : State) (gid : Nat) (q : Word) (r : Nat) : State :=
  modEntry s gid q fun e => { e with expectAt := assocDrop e.expectAt r }

/-- A message tried against the state: none while it must wait. -/
def applyMsg (s0 : State) (gid : Nat) (k : CollKind) (m : CollMsg) : Option State :=
  match findGroup s0 gid with
  | none => some s0
  | some g => match entryOf g m.seq with
    | none => if (m.seq - g.retired - 1#32).toNat < 2 ^ 31 then none else some s0
    | some e =>
      if e.held then none
      else if !msgAgrees e m then some (collFail s0 g .badDescriptor .mismatch)
      else
        let s := heardFrom s0 gid m.seq m.src
        let cur := match currentOf g with
          | some x => x.seq == e.seq && e.started
          | none => false
        match k with
        | .ack =>
          if g.rank ≠ 0 && m.src = planParent g.fanin g.rank then
            some (modEntry s gid m.seq fun x => { x with chunks := x.chunks.filter fun (c : ChunkSt) => !(c.idx == m.chunk && c.sent) })
          else some (gotAck s gid m.seq m.chunk m.src)
        | .retire =>
          let s1 := sendRetire s g e ⟨m.poison, m.early, m.late, m.lateRank, m.synced⟩
          let s2 := if m.synced then modGroup s1 gid fun x => { x with named := m.lateRank, meanLag := m.late % 65536, slowValid := true } else s1
          let s3 := if e.op = 6 || e.op = 7 then noteOwnLag s2 gid e m.early (!m.poison) else s2
          some (dropRetired 17 (modEntry s3 gid m.seq fun x => { x with retired := true }) gid)
        | .result =>
          if e.ended.isSome then some s
          else if cur && (e.op ≠ 4 || e.moved || m.payload.isEmpty) then some (takeResult s g e m)
          else none
        | .grant =>
          if e.ended.isSome then some s
          else if !cur then none
          else if e.chunks.any fun c => c.idx == m.chunk then
            some (modChunk s gid m.seq m.chunk fun x => { x with granted := true })
          else if !needsVat g e && m.chunk = e.begun then
            match beginChunk s g e true with
            | .did t => some t
            | .fail t st c => some (collFail t g st c)
            | .wait => some s
          else none
        | .chunk =>
          if e.ended.isSome then some s
          else if !cur then none
          else if e.op = 4 then
            if m.chunk = countsMsg then
              if e.counts.length = g.n then
                some (modEntry s gid m.seq fun x => { x with counts := x.counts.set m.src (some (leAt m.payload 0 4)) })
              else if e.emptyIn || e.emptyOut then some s
              else none
            else
              some (modEntry s gid m.seq fun x => { x with verdicts := x.verdicts ++ [(m.src, byteAt m.payload 0 != 0)] })
          else
            match e.chunks.find? fun c => c.idx == m.chunk with
            | none => some s
            | some c =>
              if c.folded < c.asked && (planKids g.n g.fanin g.rank).getD c.folded g.n = m.src then some (foldChunk s g e c m) else some s

/-- The waiting messages of a group are tried in order. -/
def tryInbox (gid : Nat) : State → List (CollKind × CollMsg) → State
  | s, [] => s
  | s, p :: t =>
    match applyMsg s gid p.1 p.2 with
    | some u => tryInbox gid u t
    | none => tryInbox gid (modGroup s gid fun g => { g with inbox := g.inbox ++ [p] }) t

/-! ### What a group does next -/

/-- Every output chunk is written and every chunk of the fold has left. -/
def entryDone (g : Group) (e : CollEntry) : Bool :=
  let out := if e.emptyOut && collMoves e.op then e.emptyDone && decide (e.doneN ≠ 0)
    else decide (outCount g e ≤ e.doneN) && (!e.emptyOut || e.emptyDone || decide (e.pushedN ≠ 0))
  e.started && out && e.begun == foldTotal g e && e.chunks.all (fun k => k.sent) && (e.op != 4 || e.moved || e.emptyOut)

/-- A step that may fail the operation. -/
def stepOr (s : State) (g : Group) (r : CollStep) : State :=
  match r with
  | .wait => s
  | .did t => t
  | .fail t st c => collFail t g st c

/-- An operation with COUNT 0, in its turn: its inputs are released, its empty handle is pushed, and it ends with EMPTY (R262). -/
def runZero (s : State) (g : Group) (e : CollEntry) : State :=
  let silent := e.op == 7 && g.rank != 0
  if !silent && !canPush s e.slot e.station e.outPort then s
  else
    let s1 := modEntry (releaseAll s e.slot e.station e.inputs) g.id e.seq fun x => { x with started := true, inputs := [] }
    let s2 := if silent then s1 else emit s1 e.slot e.station e.outPort (emptyHandle e.tag true)
    collEnd s2 g.id { e with inputs := [] } .empty true

/-- The current operation of an open group goes on. (DESIGN CHOICE, log 101.) -/
def runCurrent (s : State) (gid : Nat) : State :=
  match findGroup s gid with
  | none => s
  | some g =>
    if g.state != 1 then s
    else match currentOf g with
      | none => closeGroup s gid
      | some e =>
        if e.count = 0 then closeGroup (runZero s g e) gid
        else if !e.started then stepOr s g (startEntry s g e)
        else
          let s1 := stepOr s g (stepV s g e)
          let s2 := match findGroup s1 gid with
            | some g1 => match entryOf g1 e.seq with
              | some e1 =>
                if g1.state == 1 && e1.ended.isNone && (needsVat g1 e1 || g1.rank == 0) then stepOr s1 g1 (beginChunk s1 g1 e1 false) else s1
              | none => s1
            | none => s1
          let s3 := (((findGroup s2 gid).bind fun g2 => entryOf g2 e.seq).map fun e2 => e2.chunks.map fun k => k.idx).getD []
            |>.foldl (chunkStep gid e.seq) s2
          match findGroup s3 gid with
          | none => s3
          | some g3 =>
            if g3.state != 1 then s3
            else match outSteps 64 s3 gid e.seq true with
              | .fail t st => collFail t g3 st .input
              | .none => s3
              | .did t =>
                match findGroup t gid with
                | none => t
                | some g4 => match entryOf g4 e.seq with
                  | none => t
                  | some e4 =>
                    if g4.state == 1 && e4.ended.isNone && entryDone g4 e4 then
                      let t1 := collEnd t gid e4 (if e4.emptyOut then .empty else .ok) false
                      closeGroup (tryRetire t1 gid e.seq) gid
                    else t

/-- A group goes on as far as what has come lets it: each round tries the waiting messages and the current operation.
(DESIGN CHOICE, log 101; DESIGN CHOICE, log 108.) -/
def collRun : Nat → State → Nat → State
  | 0, s, _ => s
  | n + 1, s, gid =>
    if s.pwr.state != .active then s
    else match findGroup s gid with
      | none => s
      | some g =>
        if g.state != 1 then s
        else
          let s1 := tryInbox gid (modGroup s gid fun x => { x with inbox := [] }) g.inbox
          collRun n (runCurrent s1 gid) gid

/-- Rounds enough for the vats of a group and the operations of its queue. -/
def collRounds : Nat := 96

/-! ### What a member expects (R275) -/

/-- Output chunks of this member that have not come. -/
def outMissing (g : Group) (e : CollEntry) : List Nat :=
  (List.range (outCount g e)).filter fun i => decide (e.doneN ≤ i) && !e.results.any fun r => r.idx == outFirst g e + i

/-- The rank whose part of an ALLTOALLV's output holds chunk `i`. -/
def outPart (e : CollEntry) (i : Nat) : List Nat → Nat
  | [] => 0
  | q :: t => if i < outIndex e (q + 1) 0 then q else outPart e i t

/-- The rank that an output chunk of an operation that moves data is expected from. -/
def outFrom (g : Group) (e : CollEntry) (i : Nat) : Nat :=
  match e.op with
  | 1 => planToward g.n g.fanin g.rank e.root
  | 2 => planToward g.n g.fanin g.rank (i / blockChunks e)
  | 3 => i / blockChunks e
  | _ => outPart e i (List.range g.n)

/-- The ranks from which a message of the operation is expected: a grant, a child's chunk, a result chunk, an acknowledgement or
RETIRE (R275). (DEDUCED, log 110.) -/
def peersDue (g : Group) (e : CollEntry) : List Nat :=
  if g.n ≤ 1 || e.held || !e.started || e.retired then []
  else
    let kids := planKids g.n g.fanin g.rank
    let fold := if e.ended.isSome then [] else
      (e.chunks.filter fun k => decide (k.folded < k.asked)).map fun k => kids.getD k.folded 0
    let acks := ((e.passed ++ e.acks.map Prod.fst).map fun c => (acksMissing g e c).filter fun r => r != g.rank).flatten
    let top := !collMoves e.op && e.ended.isNone
      && (e.chunks.any (fun k => k.sent || k.folded == kids.length) || (!needsVat g e && decide (e.begun < foldTotal g e))
          || (!(outMissing g e).isEmpty && e.begun == foldTotal g e))
    let retire := e.ended.isSome && acks.isEmpty
    let moves := if !collMoves e.op || e.ended.isSome || e.emptyOut then []
      else if e.op = 4 && !e.moved then
        if e.verdicts.any fun v => v.1 == g.rank then (List.range g.n).filter fun r => !e.verdicts.any fun v => v.1 == r
        else (List.range g.n).filter fun r => (e.counts.getD r none).isNone
      else (outMissing g e).map (outFrom g e)
    let up := if g.rank ≠ 0 && (top || retire) then [planParent g.fanin g.rank] else []
    ((fold ++ acks ++ moves ++ up).filter fun r => r != g.rank).foldl insertNat []

/-- Each rank that something is expected from has been waited for since it first was, or since its latest message. -/
def markWaits (s : State) (gid : Nat) : State :=
  modGroup s gid fun g => { g with entries := g.entries.map fun e =>
    { e with expectAt := (peersDue g e).map fun r => (r, (assocGet e.expectAt r).getD s.now) } }

/-- A rank has been waited for longer than CHUNK_US. -/
def waitedOut (g : Group) (now : Nat) (e : CollEntry) : Bool := e.expectAt.any fun p => decide (p.2 + 1000 * g.chunkUs ≤ now)

/-- A group goes on, and what it then expects is noted. -/
def collGo (s : State) (gid : Nat) : State := markWaits (collRun collRounds s gid) gid

/-! ### Messages arrive -/

/-- A message with no matching group is discarded and counted on the router that received it (R257). -/
def strayMsg (s : State) (die : Nat) : State :=
  let old := (s.col.getD die ⟨0#32, 0#32, 0#32, 0#5⟩).stray
  ctrSat (0x00C0002C + 0x1000 * die) old (satAdd old 1) { s with col := s.col.modify die fun x => { x with stray := satAdd x.stray 1 } }

/-- The open group that a message's GTAG matches; where several have that GTAG, the one with the message's group ID (R257).
(DEDUCED, log 102.) -/
def msgGroup (s : State) (m : CollMsg) : Option Group :=
  match s.groups.find? fun g => g.gtag == m.gtag && g.id == m.group with
  | some g => some g
  | none => s.groups.find? fun g => g.gtag == m.gtag

/-- A result in flight to a fenced member is forwarded, lands and is pushed (R273, R274). -/
def lateResult (s : State) (g : Group) (m : CollMsg) : State :=
  match entryOf g m.seq with
  | none => s
  | some e =>
    if !e.started || !msgAgrees e m || (e.op = 4 && !e.moved) then s
    else
      let s1 := forwardResult s g e m
      if m.poison || !resultMine g e m.chunk then s1
      else
        let s2 := addResult s1 g.id e (chunkSource e m.src m.chunk) m.chunk m.payload m.payload.isEmpty
        outLanded s2 g.id { e with results := e.results ++ [⟨0, 0, [], false⟩] } false

/-- A message of an operation arrives. A module that is not ACTIVE delivers and folds nothing (R276). -/
def collArrive (k : CollKind) (die : Nat) (m : CollMsg) (s : State) : Host.Outcome State Fault Refusal :=
  onUnit die 2 "die" <|
    match msgGroup s m with
    | none => strayMsg s die
    | some g =>
      if g.state = 2 then (if k == .result && s.pwr.state == .active then lateResult s g m else s)
      else if g.state = 1 && m.group ≠ g.id then collFail s g .badDescriptor .mismatch
      else collGo (modGroup s g.id fun x => { x with inbox := x.inbox ++ [(k, m)] }) g.id

def execGrantArrival (die : Nat) (msg : CollMsg) (s : State) : Host.Outcome State Fault Refusal := collArrive .grant die msg s
def execChunkArrival (die : Nat) (msg : CollMsg) (s : State) : Host.Outcome State Fault Refusal := collArrive .chunk die msg s
def execResultChunkArrival (die : Nat) (msg : CollMsg) (s : State) : Host.Outcome State Fault Refusal := collArrive .result die msg s
def execAcknowledgementArrival (die : Nat) (msg : CollMsg) (s : State) : Host.Outcome State Fault Refusal := collArrive .ack die msg s
def execRetire (die : Nat) (msg : CollMsg) (s : State) : Host.Outcome State Fault Refusal := collArrive .retire die msg s

/-- FENCE: the operation ends with GROUP_FENCED (R273). -/
def execFence (die : Nat) (msg : CollMsg) (frank : Nat) (status : Status) (cause : Nat) (s : State) :
    Host.Outcome State Fault Refusal :=
  onUnit die 2 "die" <|
    match msgGroup s msg with
    | none => strayMsg s die
    | some g => groupFence s g.id status .groupFenced (colCauseOf cause) frank (some msg.src) true

/-- WITHDRAW: the member fences its group with MEMBER_WITHDRAWN, and the rings that name the group fail (R251, R275). -/
def execWithdraw (die : Nat) (msg : CollMsg) (s : State) : Host.Outcome State Fault Refusal :=
  onUnit die 2 "die" <|
    match msgGroup s msg with
    | none => strayMsg s die
    | some g =>
      churnWithdraw (groupFence s g.id .memberWithdrawn .memberWithdrawn .withdraw msg.src (some msg.src) true) g.id

/-! ### Time limits (R271, R275, R277) -/

/-- CHUNK_US_EXPIRY: a reset no member has answered, or an expected message that has not come. -/
def execChunkUsExpiry (die group : Nat) (s : State) : Host.Outcome State Fault Refusal :=
  onUnit die 2 "die" <|
    match findGroup s group with
    | none => s
    | some g =>
      if g.die ≠ die then s
      else if g.state = 3 then
        if g.resetAt + 1000 * g.chunkUs ≤ s.now then
          match g.resetCmd with
          | some c => closeGroup (finishCmd (modGroup s group fun x => { x with state := 2, resetCmd := none }) c .memberWithdrawn) group
          | none => s
        else s
      else if g.state = 1 && g.entries.any (waitedOut g s.now) then
        groupFence s group .memberWithdrawn .memberWithdrawn .timeout g.rank none true
      else s

/-- VAT_WAIT_TIMEOUT: the chunk that waits longest for a vat has waited longer than VAT_WAIT_US. -/
def execVatWaitTimeout (die group : Nat) (s : State) : Host.Outcome State Fault Refusal :=
  onUnit die 2 "die" <|
    match findGroup s group with
    | none => s
    | some g =>
      match currentOf g with
      | none => s
      | some e => match e.waitAt with
        | none => s
        | some t => if g.die = die && g.state = 1 && t + 1000 * g.vatWaitUs < s.now then collFail s g .vatWaitTimeout .vatWait else s

/-! ### Entering an operation (R257, R258, R262, R263) -/

/-- A COLL work descriptor: the entry it would make, its GROUP, input ports and reserved fields. -/
structure CollDesc where
  e     : CollEntry
  group : Nat
  inPort : Nat
  xPort : Nat
  nxtra : Nat
  resOk : Bool
  deriving DecidableEq, Repr

def collDescOf (b : Bytes) : CollDesc :=
  let f := byteAt b 1
  let ck := leAt b 56 3
  { e :=
      { seq := 0#32, op := byteAt b 0, etype := byteAt b 4 % 16, otype := byteAt b 4 / 16, red := byteAt b 5 % 4,
        root := leAt b 6 2, count := leAt b 8 4, countMax := leAt b 12 4, src := leAt b 16 6, dst := leAt b 24 6,
        scounts := leAt b 32 6, rcounts := leAt b 40 6, scale := BitVec.ofNat 32 (leAt b 48 4), hdim := leAt b 52 2,
        outPort := byteAt b 54 / 8 % 8, chunkB := if ck = 0 then 262144 else ck, tag := BitVec.ofNat 16 (leAt b 60 2),
        notify := bit f 0, inAddr := bit f 1, outAddr := bit f 2, slot := 0, station := 0, wdi := 0, inputs := [], stamp := 0,
        stampSync := false, started := false, emptyIn := false, begun := 0, chunks := [], results := [], heard := [],
        emptyOut := false, emptyDone := false, doneN := 0, acks := [], passed := [], earliest := none, upDone := 0, counts := [],
        verdicts := [], moved := false, pushedN := 0, ended := none, retired := false, held := false, waitAt := none, expectAt := [] }
    group := leAt b 2 2 % 4096, inPort := byteAt b 54 % 8, xPort := byteAt b 55 % 8, nxtra := byteAt b 55 / 8 % 16
    resOk := f / 8 == 0 && leAt b 2 2 / 4096 == 0 && byteAt b 5 / 4 == 0 && leAt b 22 2 == 0 && leAt b 30 2 == 0
      && leAt b 38 2 == 0 && leAt b 46 2 == 0 && byteAt b 54 / 64 == 0 && byteAt b 55 / 128 == 0 && byteAt b 59 == 0
      && leAt b 62 2 == 0 }

/-- The checks at decode (R258, R266, R268). (DEDUCED, log 102.) -/
def collDescOk (g : Group) (die : Nat) (d : CollDesc) : Bool :=
  let e := d.e
  d.resOk && decide (1 ≤ e.op ∧ e.op ≤ 7) && e.red != 3 && g.die == die && decide (d.nxtra ≤ 8) && e.chunkB % 32 == 0
    && decide (e.chunkB ≤ 262144) && collTypesOk e.op e.etype e.otype && (collMoves e.op || g.vats != 0)
    && (e.op != 1 || decide (e.root < g.n))
    && (e.op != 7 || (scaleOk e.scale.toNat && e.hdim % 32 == 0 && decide (32 ≤ e.hdim ∧ e.hdim ≤ 256 ∧ rowBytes e.hdim ≤ e.chunkB)))

/-- The ports an operation pops and pushes on this member. -/
def collPorts (g : Group) (d : CollDesc) : List Nat × List Nat :=
  (if d.e.op = 1 && g.rank ≠ d.e.root then [] else if d.e.op = 7 && d.nxtra ≠ 0 then [d.inPort, d.xPort] else [d.inPort],
   if d.e.op = 7 && g.rank ≠ 0 then [] else [d.e.outPort])

/-- Several handles from one port; all or none. -/
def popMany (s : State) (slot i port : Nat) : Nat → Option (State × List Handle)
  | 0 => some (s, [])
  | n + 1 =>
    match popHandle s slot i port with
    | none => none
    | some r => match popMany r.1 slot i port n with
      | none => none
      | some q => some (q.1, r.2 :: q.2)

/-- The local inputs of an operation, popped in the order of R263. -/
def popInputs (s : State) (b : Bound) (g : Group) (d : CollDesc) : RoundPop :=
  if d.e.op = 1 && g.rank ≠ d.e.root then .got s []
  else if d.e.op = 7 then
    match popRound s b.slot b.idx d.inPort with
    | .bad => .bad
    | .wait => .wait
    | .got t hs => match popMany t b.slot b.idx d.xPort d.nxtra with
      | none => .wait
      | some q => .got q.1 (hs ++ q.2)
  else match popHandle s b.slot b.idx d.inPort with
    | none => .wait
    | some q => .got q.1 [q.2]

/-- An operation enters the group's queue with the inputs it has popped (R257, R262). (DESIGN CHOICE, log 101.) -/
def enterOp (s : State) (b : Bound) (g : Group) (d : CollDesc) (hs : List Handle) : State :=
  let e := { d.e with seq := g.nextSeq, slot := b.slot, station := b.idx, wdi := b.st.wdi, inputs := hs,
                      stamp := s.fab.counter.toNat, stampSync := s.fab.eqx == .sync }
  let s1 := modGroup s g.id fun x => { x with nextSeq := x.nextSeq + 1, entries := x.entries ++ [e] }
  modStation s1 b.slot b.idx fun x => { x with wdi := x.wdi + 1, sub := 0 }

/-- The station's descriptor enters its operation, when it names `op` (R257, R258, R262, R273). -/
def collEnter (s : State) (b : Bound) (die op : Nat) : State :=
  let r := ctrlRead s (wdAddr b 64) 64
  match r.2 with
  | .error st => haltStation r.1 b st
  | .ok v =>
    let d := collDescOf v
    match findGroup r.1 d.group with
    | none => if d.e.op = op || !decide (1 ≤ d.e.op ∧ d.e.op ≤ 7) then haltStation r.1 b .badDescriptor else s
    | some g =>
      let ports := collPorts g d
      if d.e.op ≠ op && decide (1 ≤ d.e.op ∧ d.e.op ≤ 7) then s
      else if !collDescOk g die d || !portsBound b ports.1 ports.2 then haltStation r.1 b .badDescriptor
      else if d.e.countMax < d.e.count then haltStation r.1 b .shapeOver
      else if g.state ≠ 1 then haltStation r.1 b .groupFenced
      else if 16 ≤ g.entries.length then r.1
      else match popInputs r.1 b g d with
        | .bad => haltStation r.1 b .badDescriptor
        | .wait => waitInputs r.1 b.slot b.idx ports.1
        | .got t hs => enterOp t b g d hs

/-- A COLL command: the station's descriptor is entered where it can be, and the die's groups go on. -/
def collCmd (die op : Nat) (s : State) : Host.Outcome State Fault Refusal :=
  onUnit die 2 "die" <|
    match bound s .coll die with
    | none => s
    | some b =>
      let s1 := if b.st.wdi < b.st.workN && mayStart s b then collEnter s b die op else s
      let s2 := ((s1.groups.filter fun g => g.die == die).map fun g => g.id).foldl collGo s1
      collListEnd s2 b.slot b.idx

def execCollBcast (die : Nat) (s : State) : Host.Outcome State Fault Refusal := collCmd die 1 s
def execCollAllgather (die : Nat) (s : State) : Host.Outcome State Fault Refusal := collCmd die 2 s
def execCollAlltoall (die : Nat) (s : State) : Host.Outcome State Fault Refusal := collCmd die 3 s
def execCollAlltoallv (die : Nat) (s : State) : Host.Outcome State Fault Refusal := collCmd die 4 s
def execCollAllreduce (die : Nat) (s : State) : Host.Outcome State Fault Refusal := collCmd die 5 s
def execCollReduceScatter (die : Nat) (s : State) : Host.Outcome State Fault Refusal := collCmd die 6 s
def execCollAttnMerge (die : Nat) (s : State) : Host.Outcome State Fault Refusal := collCmd die 7 s

/-! ### GROUP_OPEN (R254, R255, R296) -/

/-- A coordinate in four bytes. -/
def coords (v : Nat) : List Nat := (List.range 4).map fun a => v / 256 ^ a % 256

/-- The number of a coordinate in a box of the given extents, axis 0 fastest. -/
def boxIndex : List Nat → List Nat → Nat
  | x :: xs, n :: ns => x + n * boxIndex xs ns
  | _, _ => 0

/-- The coordinate of a number in a box. -/
def boxCoord : List Nat → Nat → List Nat
  | [], _ => []
  | n :: ns, i => i % n :: boxCoord ns (i / n)

/-- A group from its record and the members' addresses. -/
def groupOf (fn : Nat) (b : Bytes) (n rank : Nat) (addrs : List Nat) : Group :=
  { id := leAt b 0 2 % 4096, die := byteAt b 2 % 2, fn := fn, fanin := byteAt b 3, vats := byteAt b 12,
    gtag := BitVec.ofNat 32 (leAt b 16 4), chunkUs := leAt b 20 4, vatWaitUs := leAt b 24 4, n := n, rank := rank, addrs := addrs,
    nextSeq := 0#32, retired := BitVec.allOnes 32, state := 1, fstatus := .ok, cause := .none, frank := 0, unsyncSkip := false,
    fencedSeen := false, named := 0, slowValid := false, meanLag := 0, ownLag := 0, window := [], nameNew := false, entries := [],
    inbox := [], resetGot := [], resetCmd := none, resetAt := 0, closeCmd := none }

/-- The limits of Table 12-1. (DEDUCED, log 109.) -/
def groupRecOk (b : Bytes) : Bool :=
  leAt b 0 2 / 4096 == 0 && byteAt b 2 / 2 == 0 && decide (2 ≤ byteAt b 3 ∧ byteAt b 3 ≤ 16 ∧ byteAt b 12 ≤ 64)
    && allZero (sub b 13 3) && leAt b 20 4 != 0 && leAt b 24 4 != 0 && allZero (sub b 28 36)

/-- GROUP_OPEN's own rules. -/
def openGroup (s : State) (fn : Nat) (b : Bytes) : State × Status :=
  let lo := coords (leAt b 4 4)
  let ext := (coords (leAt b 8 4)).map (· + 1)
  let shape := (coords s.fab.lshape.toNat).map (· + 1)
  let own := coords s.fab.lcoord.toNat
  let n := ext.foldl (· * ·) 1
  let at4 (l : List Nat) (a : Nat) : Nat := l.getD a 0
  let inside := (List.range 4).all fun a => decide (at4 lo a ≤ at4 own a ∧ at4 own a < at4 lo a + at4 ext a)
  let beyond := (List.range 4).any fun a => decide (at4 shape a < at4 lo a + at4 ext a)
  let used := ((s.groups.filter fun g => g.die == byteAt b 2 % 2).map fun g => g.vats).sum
  if !groupRecOk b || 65536 < n || !inside || beyond || (findGroup s (leAt b 0 2 % 4096)).isSome || 64 < used + byteAt b 12 then
    (s, .badDescriptor)
  else
    let r := (List.range n).foldl (fun (p : State × Except Status (List Nat)) k =>
      match p.2 with
      | .error _ => p
      | .ok l =>
        let x := (List.range 4).map fun a => at4 lo a + at4 (boxCoord ext k) a
        let q := collRead p.1 (s.fab.lmapBase + 4 * boxIndex x shape) 4
        match q.2 with
        | .error st => (q.1, .error st)
        | .ok d => if leAt d 0 4 / 65536 = 1 then (q.1, .ok (l ++ [leAt d 0 4 % 65536])) else (q.1, .error .badDescriptor)) (s, .ok [])
    match r.2 with
    | .error st => (r.1, st)
    | .ok addrs =>
      let rank := boxIndex ((List.range 4).map fun a => at4 own a - at4 lo a) ext
      ({ r.1 with groups := r.1.groups ++ [groupOf fn b n rank addrs] }, .ok)

def opGroupOpen (h : HostHdr) (rec_ : AddrArg) (s : State) : State :=
  if !argOk rec_ then complete s h .badDescriptor 0
  else
    let r := argRead s rec_ 64
    match r.2 with
    | .error st => complete r.1 h st 0
    | .ok b =>
      let q := openGroup r.1 h.fn b
      complete q.1 h q.2 0

def execGroupOpen (h : HostHdr) (rec : AddrArg) (s : State) : Host.Outcome State Fault Refusal :=
  hostCmd s h .group false (opGroupOpen h rec)

/-! ### GROUP_RESET and GROUP_CLOSE (R277, R278, R417) -/

/-- An entry that will run again from chunk 0; what was pushed stays pushed, and one with COUNT 0 that is done stays done.
(DEDUCED, log 107.) -/
def entryAgain (e : CollEntry) : CollEntry :=
  if e.count = 0 && e.retired then { e with held := true }
  else
    { e with started := false, emptyIn := false, begun := 0, chunks := [], results := [], heard := [], emptyOut := false, doneN := 0,
             acks := [], passed := [], upDone := 0, counts := [], verdicts := [], moved := false, ended := none, retired := false,
             held := true, waitAt := none, expectAt := [] }

/-- Every member has answered: the highest retired value is adopted (R277, R417). -/
def resetTry (s : State) (gid : Nat) : State :=
  match findGroup s gid with
  | none => s
  | some g => match g.resetCmd with
    | none => s
    | some c =>
      if g.state = 3 && (List.range g.n).all fun r => r == g.rank || (assocGet g.resetGot r).isSome then
        let key (v : Word) : Nat := (v - (g.nextSeq - 32#32)).toNat
        let hi := (g.resetGot.map Prod.snd).foldl (fun a v => if key a < key v then v else a) g.retired
        let gone := g.entries.filter fun e => decide (key e.seq ≤ key hi)
        let s1 := modGroup s gid fun x =>
          { x with state := 1, retired := hi, nextSeq := hi + 1, resetGot := [], resetCmd := none,
                   entries := (x.entries.filter fun e => !decide (key e.seq ≤ key hi)).map entryAgain,
                   inbox := x.inbox.filter fun p => decide (key hi < key p.2.seq) }
        let s2 := gone.foldl (fun t e => releaseAll t e.slot e.station e.inputs) s1
        closeGroup (finishCmd s2 c .ok) gid
      else s

/-- DEDUCED, log 107. -/
def opGroupReset (h : HostHdr) (group : Nat) (s : State) : State :=
  match findGroup s group with
  | none => complete s h .badDescriptor 0
  | some g =>
    if g.fn ≠ h.fn || g.state ≠ 2 then complete s h .badDescriptor 0
    else
      let q := startCmd s h 0x21
      let s1 := modGroup q.1 group fun x => { x with state := 3, resetCmd := some (q.2, h), resetAt := s.now, inbox := [] }
      let s2 := ((List.range g.n).filter fun r => r != g.rank).foldl (fun t r => groupSend t g r 7 [g.retired.toNat]) s1
      resetTry s2 group

def execGroupReset (h : HostHdr) (group : Nat) (s : State) : Host.Outcome State Fault Refusal :=
  hostCmd s h .group false (opGroupReset h group)

/-- RESET_EXCHANGE_ARRIVAL: a member's COL_G_RETIRED; all of them end the reset. One that finds the group OPEN belongs to no reset of
this member. (DEDUCED, log 107.) -/
def execResetExchangeArrival (die group rank : Nat) (retired : Word) (s : State) : Host.Outcome State Fault Refusal :=
  onUnit die 2 "die" <|
    match findGroup s group with
    | none => strayMsg s die
    | some g =>
      if g.n ≤ rank || g.state = 1 then s
      else resetTry (modGroup s group fun x => { x with resetGot := assocPut x.resetGot rank retired }) group

/-- DEDUCED, log 107. -/
def opGroupClose (h : HostHdr) (group : Nat) (s : State) : State :=
  match findGroup s group with
  | none => complete s h .badDescriptor 0
  | some g =>
    if g.fn ≠ h.fn || g.closeCmd.isSome then complete s h .badDescriptor 0
    else
      let q := startCmd s h 0x22
      closeGroup (modGroup q.1 group fun x => { x with closeCmd := some (q.2, h) }) group

def execGroupClose (h : HostHdr) (group : Nat) (s : State) : Host.Outcome State Fault Refusal :=
  hostCmd s h .group true (opGroupClose h group)

end Sys2Proof.Machine
end

