-- ==== Sys2Proof/Machine/Withdraw.lean ====
section
/-! DEFINITION. The module withdraws: failed stacks and flash channels (R22, R326, R329, R387). -/

namespace Sys2Proof.Machine

def stackCauseCode (c : StackCause) : Nat :=
  match c with
  | .train => 1 | .link => 2 | .ueRate => 3 | .sensor => 4

def flashCauseCode (c : FlashCause) : Nat :=
  match c with
  | .train => 1 | .noAnswer => 2 | .ueRate => 3

/-- MEM_FAIL (Table 14-11). -/
def memFailWord (f : Option (Nat × StackCause)) : Nat :=
  match f with
  | some p => p.1 * 256 + stackCauseCode p.2
  | none => 0

/-- FLS_FAIL (Table 15-7). -/
def flsFailWord (f : Option (Nat × FlashCause)) : Nat :=
  match f with
  | some p => p.1 * 256 + flashCauseCode p.2
  | none => 0

/-- The module leaves its groups and rings: WITHDRAW to every open group, and every ring context it serves fails (R251, R276).
(DEDUCED, log 150.) -/
def leaveGroups (s : State) (own : Status) : State := failCtxs (withdrawAll s own) (fun _ _ => true) .withdraw

/-- The fast clocks run again where IDLE had gated them: the time counter reads unsynchronised (Table 13-11). -/
def clocksBack (s : State) : State := if s.pwr.state == .idle then eqxLost s else s

/-- From IDLE, ACTIVE or HOLD the module becomes WITHDRAWN and withdraws from its groups (R387). `why` packs the cause, for
which Tables 19-2 and 19-5 give no code. (DESIGN CHOICE, log 122.) -/
def withdrawModule (s : State) (why : Nat) : State :=
  if s.pwr.state == .idle || s.pwr.state == .active || s.pwr.state == .hold then
    let s0 := clocksBack s
    let s1 := alarm { s0 with pwr := { s0.pwr with state := .withdrawn, idleReq := false } } 18 why
    leaveGroups (event s1 ⟨0x0A, .memberWithdrawn, 7, 0, why, 0⟩) .memberWithdrawn
  else s

/-- A stack fails: MEM_FAIL keeps the first, the alarm latches (R326). (DESIGN CHOICE, log 122.) -/
def noteStackFail (s : State) (stack : Nat) (cause : StackCause) : State :=
  alarm { s with memc := { s.memc with fail := some (s.memc.fail.getD (stack, cause)) } } 12
    (memFailWord (some (stack, cause)))

/-- A flash channel fails (R329). (DESIGN CHOICE, log 122.) -/
def noteFlashFail (s : State) (channel : Nat) (cause : FlashCause) : State :=
  alarm { s with fls := { s.fls with fail := some (s.fls.fail.getD (channel, cause)) } } 13
    (flsFailWord (some (channel, cause)))

/-- One pseudo-channel of a stack has given more than MEM_UE_LIMIT distinct uncorrectable sectors in 24 hours (R326). -/
def stackUeOver (s : State) (stack : Nat) : Bool :=
  let seen := (stackAt s stack).ueSeen.filter fun p => decide (s.now < p.2 + dayNs)
  (List.range 64).any fun c => decide (s.memc.ueLimit.toNat < (seen.filter fun p => channelOf (32 * p.1) == c).length)

/-- A channel has returned more than FLS_UE_LIMIT uncorrectable pages within 24 hours (R329). -/
def channelUeOver (s : State) (c : Nat) : Bool :=
  decide (s.fls.ueLimit.toNat < ((flashChan s c).ueTimes.filter fun t => decide (s.now < t + dayNs)).length)

/-- STACK_FAIL. At THAW the failure is part of THAW_SEQUENCE (R391). Under cause UE_RATE the counts must exceed MEM_UE_LIMIT; retried
accesses, which are physical, are the command's own claim. (DESIGN CHOICE, log 122.) -/
def execStackFail (stack : Nat) (cause : StackCause) (s : State) : Host.Outcome State Fault Refusal :=
  onUnit stack 8 "stack" <|
    if hostUp s.pwr.state && (cause != .ueRate || stackUeOver s stack) then
      withdrawModule (noteStackFail s stack cause) (Config.argPack [0, stack, stackCauseCode cause])
    else s

/-- FLASH_CHANNEL_FAIL. Under cause UE_RATE the count must exceed FLS_UE_LIMIT. (DESIGN CHOICE, log 122.) -/
def execFlashChannelFail (channel : Nat) (cause : FlashCause) (s : State) : Host.Outcome State Fault Refusal :=
  onUnit channel 64 "flash channel" <|
    if hostUp s.pwr.state && (cause != .ueRate || channelUeOver s channel) then
      withdrawModule (noteFlashFail s channel cause) (Config.argPack [1, channel, flashCauseCode cause])
    else s

end Sys2Proof.Machine
end

