-- ==== Sys2Proof/Machine/Power.lean ====
section
/-! DEFINITION. The module's states, Thaw, the sensors, curves and caps, hold and trip, and the watchdogs (chapter 18). -/

namespace Sys2Proof.Machine

def modPwr (s : State) (f : Pwr → Pwr) : State := { s with pwr := f s.pwr }
def modThm (s : State) (f : Thm → Thm) : State := { s with thm := f s.thm }

/-- A powered state (R387). -/
def powered (p : PwrState) : Bool := p == .thaw || hostUp p

/-! ### Loss of package power (R387, R409, Table 18-3) -/

/-- An index at the loss of power: its stored state stays; its counters reset at THAW (R349, Table 21-11). -/
def indexKept (n : Index) : Index :=
  { n with
    batch := none
    harvest := none
    shards := undoneShards n
    insRefused := 0#32
    delAbsent := 0#32
    edgeDrop := 0#32
    seenFull := 0#32
    poison := 0#32
    expired := 0#32 }

/-- What flash keeps (R332, R333): objects, tables, wear, pools. (DEDUCED, log 144.) -/
def flashKept (f : Fls) : Fls :=
  { flsAtThaw with
    written := f.written
    programmed := f.programmed
    pools := f.pools
    chans := f.chans.map fun c => { c with ce := 0#32, ue := 0#32, reloc := 0#32, ueTimes := [] }
    objects := f.objects
    alloc := f.alloc
    bad := f.bad
    soft := f.soft
    reads := f.reads
    slack := f.slack
    readonly := f.readonly
    scanned := f.scanned }

/-- What NOR and the always-on domain keep of the security state (R409, R422, R430). (DEDUCED, log 144.) -/
def secKept (x : Sec) : Sec :=
  { secAtThaw with
    slots := x.slots
    booted := x.booted
    floors := x.floors
    floorsMac := x.floorsMac
    leafMac := x.leafMac
    owner := x.owner
    leaf := x.leaf
    leafLog := x.leafLog
    bootCause := x.bootCause
    stage := x.stage
    ownerBuf := x.ownerBuf
    sbAnswer := x.sbAnswer }

/-- The package loses power: HBM, SRAM and every register outside the always-on domain are lost. The time counter runs on.
(DEDUCED, log 144.) -/
def powerLost (s : State) : State :=
  { State.reset with
    pending := s.pending
    now := s.now
    free := s.free
    hostMem := s.hostMem
    hostAbsent := s.hostAbsent
    pwr := s.pwr
    thm := s.thm
    hif := { hifAtThaw with signalled := s.hif.signalled }
    tel := { telAtThaw with sum := s.tel.sum, sbMask := s.tel.sbMask }
    sec := secKept s.sec
    fab := { fabAtThaw with presets := s.fab.presets, counter := s.fab.counter }
    fls := { flashKept s.fls with dark := some (s.fls.dark.getD s.now) }
    vse := { vseAtThaw with indexes := s.vse.indexes.map indexKept } }

/-- STANDBY with a cause: rails removed, bypasses closed, the controller's firmware checked (R12, R387, R424). (DEDUCED, log 144.) -/
def enterStandby (s : State) (cause : StbyCause) : State :=
  bootController <| modPwr (powerLost s) fun p =>
    { p with
      state := .standby
      lastCause := cause
      idleReq := false
      wakeBit := false
      waking := false
      wakeSeen := false
      firstSweep := false
      bypassB := true
      bypassO := true }

/-- A powered module goes to STANDBY; in OFF and STANDBY nothing happens. -/
def dropTo (s : State) (cause : StbyCause) : State := if powered s.pwr.state then enterStandby s cause else s

/-- UNDERVOLTAGE (Table 18-1): only below 45 V. (DEDUCED, log 146.) -/
def execUndervoltage (mv : Nat) (s : State) : Host.Outcome State Fault Refusal :=
  .next (if mv < 45000 then dropTo (modPwr s fun p => { p with inMv := mv }) .uv else s)

/-- OVERVOLTAGE: only above 63 V. (DEDUCED, log 146.) -/
def execOvervoltage (mv : Nat) (s : State) : Host.Outcome State Fault Refusal :=
  .next (if 63000 < mv then dropTo (modPwr s fun p => { p with inMv := mv }) .ov else s)

/-- OFF: the always-on domain has stopped; only NOR, flash and LAST_CAUSE are kept (R385, R409). (DEDUCED, log 144.) -/
def switchOff (s : State) : State :=
  let t := powerLost s
  let t1 := match t.sec.stage with
    | some p => setSlot t p.1 p.2 []
    | none => t
  { t1 with
    pwr := { pwrAtThaw with
      state := .off
      lastCause := s.pwr.lastCause
      modRstN := s.pwr.modRstN
      bypassB := true
      bypassO := true }
    thm := { thmAtThaw with curve := s.thm.curve }
    tel := telAtThaw
    sec := { t1.sec with stage := none, ownerBuf := List.replicate 8192 0#8, sbAnswer := none }
    fab := { t1.fab with counter := 0#64 } }

/-- INPUT_LOSS: below 40 V. (DEDUCED, log 146.) -/
def execInputLoss (mv : Nat) (s : State) : Host.Outcome State Fault Refusal :=
  .next (if mv < 40000 && s.pwr.state != .off then switchOff s else s)

/-- INPUT_RISE: above 44 V the always-on domain starts (R387); SLOT_ID is read (R451, R450). -/
def execInputRise (mv : Nat) (slotId : BitVec 4) (s : State) : Host.Outcome State Fault Refusal :=
  .next <|
    if 44000 < mv && s.pwr.state == .off then
      bootController (modPwr s fun p => { p with state := .standby, slotId := slotId, inMv := mv })
    else s

/-- RAIL_FAULT (R386). (DEDUCED, log 146.) -/
def execRailFault (rail : Nat) (s : State) : Host.Outcome State Fault Refusal :=
  onUnit rail 13 "rail" (dropTo s .rail)

/-- MOD_RST_N_LOW (R387, R451). -/
def execModRstNLow (s : State) : Host.Outcome State Fault Refusal :=
  .next <|
    dropTo (modPwr s fun p => { p with modRstN := false, resetAt := if p.state == .off then p.resetAt else some s.now }) .reset

/-! ### Start of Thaw (R465) -/

/-- TEMP of the CAP 0 entry of the curve in force. -/
def dieHold (s : State) : Option Int := ((s.thm.curve.find? fun e => e.valid && e.cap == 0)).map fun e => (e.temp : Int)

def tempAt (temps : List (Option Int)) (i : Nat) : Option Int := (temps[i]?).bind id

/-- A sensor reads at or below `hold`; one that does not answer reads nothing. -/
def notAbove (t : Option Int) (hold : Option Int) : Bool :=
  match t, hold with
  | some a, some b => decide (a ≤ b)
  | _, _ => true

/-- Every sensor of a die or stack is at or below its hold point (R398). (DEDUCED, log 145.) -/
def coolEnough (s : State) : Bool :=
  (List.range 42).all fun i => notAbove (tempAt s.thm.temps i) (if i < 34 then dieHold s else some 105)

/-- The two conditions of R465, and a module controller that may leave STANDBY (R424). (DEDUCED, log 145.) -/
def thawOk (s : State) : Bool :=
  decide (50000 ≤ s.pwr.inMv ∧ s.pwr.inMv ≤ 60000) && (s.pwr.lastCause != .trip || coolEnough s) && !s.pwr.romMonitor

/-- STANDBY to THAW. -/
def startThaw (s : State) : State := modPwr s fun p => { p with state := .thaw }

/-- MOD_RST_N_RISE: an edge starts Thaw; a high level starts nothing. (DEDUCED, log 145.) -/
def execModRstNRise (s : State) : Host.Outcome State Fault Refusal :=
  .next <|
    let t := modPwr s fun p => { p with modRstN := true }
    if !s.pwr.modRstN && s.pwr.state == .standby && thawOk s then startThaw t else t

/-- Sideband THAW. (DEDUCED, log 145.) -/
def execThaw (s : State) : Host.Outcome State Fault Refusal :=
  sideband s false fun t =>
    if t.pwr.state == .standby && t.pwr.modRstN && t.pwr.resetAt.isNone && thawOk t then sbAnswer (startThaw t) .ok []
    else sbAnswer t .badDescriptor []

/-- Sideband SHUTDOWN. -/
def execShutdown (s : State) : Host.Outcome State Fault Refusal :=
  sideband s false fun t =>
    if powered t.pwr.state then sbAnswer (enterStandby t .sideband) .ok [] else sbAnswer t .badDescriptor []

/-! ### Curves (R395) -/

/-- A THM_DIE_CURVE word (Table 18-7). -/
def curveEntryOf (w : Nat) : CurveEntry := ⟨bit w 31, bits w 16 8, bits w 0 7⟩

def curveWord (e : CurveEntry) : Nat := 2 ^ 31 * flag e.valid + 2 ^ 16 * (e.temp % 256) + e.cap % 128

def risesFalls : List CurveEntry → Bool
  | a :: b :: t => decide (a.temp < b.temp ∧ b.cap < a.cap) && risesFalls (b :: t)
  | _ => true

/-- A curve that passes. -/
def dieCurveOk (c : List CurveEntry) : Bool :=
  let v := c.filter fun e => e.valid
  risesFalls v && v.any fun e => e.cap == 0 && decide (e.temp ≤ 115)

/-- A committed curve is checked at a sweep: it applies, or the previous one stays. -/
def commitDieCurve (s : State) : State :=
  if !s.thm.committed then s
  else modThm s fun x =>
    if dieCurveOk x.pendCurve then
      { x with committed := false, curve := x.pendCurve, applying := List.replicate 2 (List.replicate 8 false) }
    else { x with committed := false, curveErr := true }

/-- THM_DIE_CURVE[0]: entry 0 of the pending copy, and its commit. -/
def opDieCurve0 (value : Word) (s : State) : State :=
  if s.hif.lock then s
  else modThm s fun x => { x with pendCurve := x.pendCurve.set 0 (curveEntryOf value.toNat), committed := true }

def execThmDieCurve (value : Word) (s : State) : Host.Outcome State Fault Refusal := whenUp s (opDieCurve0 value s)

/-! ### The clocks start and stop -/

/-- CAP of the highest non-hold entry of the curve in force (R394). (DEDUCED, log 148.) -/
def topCap (s : State) : Nat :=
  match (s.thm.curve.filter fun e => e.valid && e.cap != 0).getLast? with
  | some e => min e.cap 64
  | none => 0

/-- The fast clocks start: until the first full sweep each die runs at its top cap and each stack as in the 95 °C row (R314,
R394). -/
def startClocks (s : State) : State :=
  let t := modPwr s fun p =>
    { p with firstSweep := false, clockAt := s.now, dieCurveCap := List.replicate 2 (topCap s) }
  { t with
    memc := { t.memc with stk := t.memc.stk.map fun x => { x with level := 2 } }
    clusters := t.clusters.map fun c => { c with wdogAt := s.now } }

/-- A link whose router's clock is gated: in DETECT, what it held dropped (R285, R388). (DEDUCED, log 147.) -/
def linkGated (l : Nat) (x : Link) : Link :=
  if x.phase == .off || x.phase == .down then x
  else
    (if x.phase == .detect then id else beaconed l) { x with
      phase := .detect
      lanesUp := 0
      nbr := none
      peer := none
      unacked := []
      txq := []
      stalled := []
      rxPart := []
      owed := List.replicate 8 0
      credits := List.replicate 8 0 }

/-- IDLE: fast clocks gated, links in DETECT, which is a link change (R298); the trees are made anew (R388, R431). (DEDUCED, log 147.) -/
def enterIdle (s : State) : State :=
  let t := modPwr s fun p => { p with state := .idle, idleReq := false, waking := false, wakeSeen := false }
  let dropped := (numbered s.fab.links 0).foldl (fun u p =>
    if p.2.phase == .active then countLost u (portDie (p.1 / 4)) (linkPackets p.2) else u) t
  cableRecheck { dropped with
    fab := { dropped.fab with links := (numbered dropped.fab.links 0).map fun p => linkGated p.1 p.2 }
    sec := { dropped.sec with treesReady := false, nextBottom := false } }

/-! ### Thaw (R390, R391, Table 18-4) -/

/-- Thaw fails before the package is up: STANDBY with cause BOOT and SEC_BOOT_STATUS.CAUSE. -/
def thawFails (s : State) (cause : Nat) : State := modSec (enterStandby s .boot) fun x => { x with bootCause := cause }

/-- 90 days in nanoseconds (R330). -/
def retentionNs : Nat := 90 * dayNs

/-- The flash is powered again; after more than 90 days without power its objects may have gone bad (R330).
(DESIGN CHOICE, log 131.) -/
def flashAwake (s : State) : State :=
  let old := match s.fls.dark with
    | some t => decide (t + retentionNs < s.now)
    | none => false
  let s1 := modFls s fun x => { x with dark := none }
  if old then (s1.fls.objects.map Prod.fst).foldl (fun t o => flashDecay t o (slotWords t o)) s1 else s1

/-- Registers take their values at the end of Thaw (R442), links, curve and the special functions' default bank those of the
configuration image (R93). (DEDUCED, log 144.) -/
def thawRegisters (s0 : State) : State :=
  let s := flashAwake s0
  let img := imgBody (bootedImage s 0)
  let c := (List.range 8).map fun i => curveEntryOf ((Config.imageCurve img).getD i 0)
  let ok := dieCurveOk c
  { s with
    pwr := { pwrAtThaw with
      state := .thaw
      lastCause := s.pwr.lastCause
      modRstN := s.pwr.modRstN
      resetAt := s.pwr.resetAt
      slotId := s.pwr.slotId
      ctlDownTo := s.pwr.ctlDownTo }
    thm := { thmAtThaw with curve := if ok then c else s.thm.curve, pendCurve := c, curveErr := !ok }
    tel := { s.tel with sbMask := 0#32 }
    hif := { s.hif with ids := Config.imageIds (bootedImage s 0), classCode := 0x12#8, aer := 0#32 }
    fab := { s.fab with portCfg := (List.range 16).map fun p => (Config.imagePortCfg img p).getD 0xE0#32 &&& portCfgMask }
    cores := s.cores.map fun x => { x with banks := [bankOf (bootedImage s 0), bankInvalid], active := 0, shadow := false }
    fls := { s.fls with state := if s.fls.scanned then .loading else .scanning }
    vse := { s.vse with indexes := s.vse.indexes.map indexKept } }

/-- Stored floors rise to the booted images' FLOOR when IDLE is reached (R425). -/
def raiseFloors (s : State) : State :=
  let up (p : Nat × Word) : Word := BitVec.ofNat 32 (max p.2.toNat (imgFloor (bootedImage s p.1)))
  modSec s fun x => { x with floors := (numbered x.floors 0).map up }

/-- The rest of Thaw once images, PUF and MACs have passed: WITHDRAWN where a stack or channel failed, IDLE else. -/
def thawEnds (s : State) (finds : ThawFinds) : State :=
  let t := modSec (thawRegisters s) fun x => { x with leaf := x.leafLog, bootCause := 0 }
  let t1 := finds.stackFails.foldl (fun u k => noteStackFail u k .train) t
  let t2 := finds.flashFails.foldl (fun u c => noteFlashFail u c .train) t1
  if finds.stackFails.isEmpty && finds.flashFails.isEmpty then raiseFloors (enterIdle t2)
  else
    let why := Config.argPack [flag !finds.stackFails.isEmpty, flag !finds.flashFails.isEmpty]
    startClocks (event (alarm (modPwr t2 fun p => { p with state := .withdrawn }) 18 why) ⟨0x0A, .memberWithdrawn, 7, 0, why, 0⟩)

/-- The Thaw sequence. -/
def thawSequence (finds : ThawFinds) (s : State) : State :=
  let a := bootPick s 0
  let b := bootPick s 1
  let t := modSec s fun x => { x with booted := (x.booted.set 0 a).set 1 b }
  if a.isNone then thawFails t 1
  else if b.isNone then thawFails t 2
  else if !finds.pufOk then thawFails t 4
  else if !(s.sec.floorsMac && s.sec.leafMac) then thawFails t 5
  else thawEnds t finds

/-- THAW_SEQUENCE: acts in THAW alone. -/
def execThawSequence (finds : ThawFinds) (s : State) : Host.Outcome State Fault Refusal :=
  if finds.stackFails.any fun k => decide (7 < k) then .refused (.noSuchUnit "stack")
  else if finds.flashFails.any fun c => decide (63 < c) then .refused (.noSuchUnit "flash channel")
  else .next (if s.pwr.state == .thaw then thawSequence finds s else s)

/-! ### IDLE and wake (R388, R389) -/

/-- A write of 1 to PWR_CTRL.IDLE_REQ. (DEDUCED, log 147.) -/
def opIdleReq (s : State) : State :=
  if s.pwr.state == .active then modPwr s fun p => { p with idleReq := true, wakeSeen := p.idleReq && p.wakeSeen } else s

def execIdleReq (s : State) : Host.Outcome State Fault Refusal := .next (opIdleReq s)

/-- A write of 1 to PWR_CTRL.WAKE: the bit clears on ACTIVE. (DEDUCED, log 147.) -/
def opPwrWake (s : State) : State :=
  wakeEvent (modPwr s fun p => { p with wakeBit := p.wakeBit || (p.state != .active) })

def execPwrCtrlWake (s : State) : Host.Outcome State Fault Refusal := whenUp s (opPwrWake s)

/-- Sideband WAKE: in IDLE (Table 22-3). (DEDUCED, log 147.) -/
def execWake (s : State) : Host.Outcome State Fault Refusal :=
  sideband s false fun t =>
    if t.pwr.state == .idle then sbAnswer (wakeEvent t) .ok [] else sbAnswer t .badDescriptor []

/-- ACTIVE: the clocks start. -/
def enterActive (s : State) : State :=
  startClocks (modPwr s fun p => { p with state := .active, waking := false, wakeBit := false, wakeSeen := false })

/-- WAKE_DONE: the module is ACTIVE and its time counter unsynchronised. -/
def execWakeDone (s : State) : Host.Outcome State Fault Refusal :=
  .next (if s.pwr.state == .idle && s.pwr.waking then eqxLost (enterActive s) else s)

/-- The conditions of R388 that block IDLE, as the bits of IDLE_BLOCK (Table 18-9). -/
def idleBlocks (s : State) : List Bool :=
  [s.graphs.any fun g => g.graph.isSome,
   !s.groups.isEmpty,
   s.chn.any fun c => c.state != 0,
   s.memc.grants.any fun g => g.valid,
   !s.memc.copies.isEmpty,
   !s.fls.xfers.isEmpty,
   s.vse.indexes.any fun n => n.batch.isSome || n.harvest.isSome,
   s.pwr.wakeSeen]

def boolBits (l : List Bool) : Nat := l.foldr (fun b n => flag b + 2 * n) 0

/-- A pending IDLE_REQ judged at a sweep. -/
def judgeIdle (s : State) : State :=
  if s.pwr.state == .active && s.pwr.idleReq then
    if (idleBlocks s).any id then
      modPwr s fun p => { p with idleReq := false, wakeSeen := false, idleBlock := BitVec.ofNat 8 (boolBits (idleBlocks s)) }
    else enterIdle s
  else s

/-! ### Hold (R397) -/

/-- A graph becomes HALTED with THERMAL_HOLD: its going stations stop, its completion and those of commands in progress on it.
(DEDUCED, log 150.) -/
def holdGraph (s : State) (slot : Nat) : State :=
  match slotGraph s slot with
  | none => s
  | some g =>
    let s1 := modGraph s slot fun x => { stopStations x with state := .halted, pausing := none, timed := none }
    let s2 := graphEvent (tick1 s1) slot 2 .thermalHold (choose 1024 s.free) (choose (2 ^ 24) s.free)
    let s3 := match g.pausing with
      | some c => finishCmd s2 c .thermalHold
      | none => s2
    let s4 := match g.timed with
      | some t => finishCmd s3 t.2 .thermalHold
      | none => s3
    settle s4 slot

/-- The SSA of a stack at 105 °C: its job ends with THERMAL_HOLD (R236). (DEDUCED, log 150.) -/
def holdSsa (hot : Nat → Bool) (s : State) (k : Nat) : State :=
  match (ssaAt s k).job, bound s .ssa k with
  | some _, some b => if hot k then ssaHalt s k b .thermalHold else s
  | _, _ => s

/-- HOLD begins: `unit` is the stack or die that caused it. (DEDUCED, log 150.) -/
def enterHold (s : State) (isDie : Bool) (unit : Nat) (hot : Nat → Bool) : State :=
  let s0 := clocksBack s
  let s1 := modPwr s0 fun p => { p with state := .hold, idleReq := false, waking := false, wakeSeen := false }
  let s2 := modThm s1 fun x => { x with holdSrcDie := isDie, holdUnit := unit, coolSweeps := 0 }
  let s3 := alarm s2 17 (1 + 256 * unit)
  let s4 := leaveGroups s3 .thermalHold
  let s5 := (List.range 8).foldl (holdSsa hot) s4
  (List.range 64).foldl holdGraph s5

/-! ### The sweep (R314, R385, R394-R398) -/

/-- The hotter of two readings. -/
def hotter (a b : Option Int) : Option Int :=
  match a, b with
  | some x, some y => some (max x y)
  | some x, none => some x
  | none, y => y

def hottest (l : List (Option Int)) : Option Int := l.foldl hotter none

/-- A die's 17 sensors: its clusters' and its router's (Table 21-15). -/
def dieSensors (temps : List (Option Int)) (d : Nat) : List (Option Int) :=
  tempAt temps (32 + d) :: (List.range 16).map fun i => tempAt temps (16 * d + i)

def dieTemp (temps : List (Option Int)) (d : Nat) : Option Int := hottest (dieSensors temps d)

/-- The sensor that shows a die's temperature. -/
def dieHotSensor (temps : List (Option Int)) (d : Nat) : Nat :=
  let t := dieTemp temps d
  (((List.range 16).map fun i => 16 * d + i).find? fun i => tempAt temps i == t).getD (32 + d)

def stackTemp (temps : List (Option Int)) (k : Nat) : Option Int := tempAt temps (34 + k)

/-- The reading is at least `v`. -/
def reads (t : Option Int) (v : Int) : Bool :=
  match t with
  | some x => decide (v ≤ x)
  | none => false

/-- The reading is below `v`. -/
def below (t : Option Int) (v : Int) : Bool :=
  match t with
  | some x => decide (x < v)
  | none => false

/-- A die has reached its hold point. -/
def dieAtHold (s : State) (t : Option Int) : Bool :=
  match dieHold s with
  | some h => reads t h
  | none => false

/-- The trip conditions (R398), against each die's reading at the previous sweep. (DEDUCED, log 148.) -/
def trips (s : State) (temps : List (Option Int)) : Bool :=
  ((List.range 8).any fun k => reads (stackTemp temps k) 115)
    || (List.range 2).any fun d =>
      let t := dieTemp temps d
      reads t 125
        || (dieAtHold s t && match t, (s.thm.prevDie[d]?).bind id with
            | some x, some y => decide (5 ≤ x - y)
            | _, _ => false)

def fullFunction (mv : Nat) : Bool := decide (50000 ≤ mv ∧ mv ≤ 60000)
def warnRange (mv : Nat) : Bool := decide (45000 ≤ mv ∧ mv < 50000 ∨ 60000 < mv ∧ mv ≤ 63000)

/-- PWR_STATUS (Table 18-9). -/
def stbyCode (c : StbyCause) : Nat :=
  match c with
  | .none => 0 | .uv => 1 | .ov => 2 | .trip => 3 | .reset => 4 | .sideband => 5 | .boot => 6 | .rail => 7

def pwrStatus (s : State) : Nat :=
  2 ^ 24 * stbyCode s.pwr.lastCause + 2 ^ 16 * s.pwr.idleBlock.toNat + 16 * flag s.pwr.inWarn + 8 * flag s.pwr.firstSweep
    + pwrCode s.pwr.state

def pwrIn (s : State) : Nat := s.pwr.inMv % 2 ^ 16 + 2 ^ 16 * (s.pwr.inW % 2 ^ 16)

/-- The input's range at a sweep (Table 18-1): the alarm is raised when the input enters a warning range. Without package
power only the summary bit is kept (R409). (DEDUCED, log 149.) -/
def inputSample (s : State) (old : Nat) : State :=
  let s1 := if fullFunction s.pwr.inMv then s else modPwr s fun p => { p with inWarn := true }
  if warnRange s.pwr.inMv && !warnRange old then
    if hostUp s.pwr.state then event (alarm s1 16 s.pwr.inMv) ⟨0x08, .ok, 7, 0, pwrIn s1, pwrStatus s1⟩
    else { s1 with tel := { s1.tel with sum := s1.tel.sum ||| (1#64 <<< 16) } }
  else s1

/-- Readings stored. -/
def takeSweep (s : State) (w : Sweep) : State :=
  let temps := (List.range 64).map (tempAt w.temps)
  let bases := (List.range 8).map (stackTemp temps)
  let hs := hottest bases
  let s1 := modPwr s fun p =>
    { p with inMv := w.inMv, inW := w.inW, rails := (List.range 13).map fun i => w.rails.getD i (0, 0), resetAt := none }
  modThm s1 fun x =>
    { x with
      temps := temps
      hotDie := (hottest [dieTemp temps 0, dieTemp temps 1]).getD 0
      hotStack := hs.getD 0
      hotStackNo := ((List.range 8).find? fun k => stackTemp temps k == hs).getD 0 }

/-- Sensors that no longer answer fail a stack or withdraw the module (R326, R387). (DEDUCED, log 151.) -/
def deafSensors (s : State) (old : List (Option Int)) : State :=
  let gone (i : Nat) : Bool :=
    (tempAt s.thm.temps i).isNone && (s.pwr.state != .withdrawn || (tempAt old i).isSome)
  let s1 := (List.range 8).foldl (fun t k =>
    if gone (34 + k) then withdrawModule (noteStackFail t k .sensor) (Config.argPack [0, k, 4]) else t) s
  (List.range 2).foldl (fun t d =>
    if (dieTemp t.thm.temps d).isNone then withdrawModule t (Config.argPack [2, d, 0]) else t) s1

/-- A stack's level by Table 14-4, with its hysteresis from the level before. (DEDUCED, log 148.) -/
def stackLevel (old : Nat) (t : Int) : Nat :=
  if 105 ≤ t then 3
  else if 95 ≤ t ∨ (2 ≤ old ∧ 92 ≤ t) then 2
  else if 85 ≤ t ∨ (1 ≤ old ∧ 82 ≤ t) then 1
  else 0

/-- The entries of a curve that apply to a die (R395). -/
def applyCurve (c : List CurveEntry) (was : List Bool) (t : Int) : List Bool :=
  (numbered c 0).map fun p =>
    p.2.valid && (decide ((p.2.temp : Int) ≤ t) || (was.getD p.1 false && decide ((p.2.temp : Int) - 3 < t)))

/-- CAP of the highest entry that applies, 64 where none does. -/
def curveCap (c : List CurveEntry) (on : List Bool) : Nat :=
  match ((c.zip on).filter fun p => p.2).getLast? with
  | some p => min p.1.cap 64
  | none => 64

/-- MEM_TEMP_STATE shows a stack's last temperature, whatever level is in force (Table 14-11). -/
def sweepTemp (s : State) (k : Nat) : State :=
  match stackTemp s.thm.temps k with
  | none => s
  | some t => modStk s k fun x => { x with temp := (t % 256).toNat }

/-- Stacks act on their temperature; a change of level is an event. (DEDUCED, log 149.) -/
def sweepStack (fresh : Bool) (s : State) (k : Nat) : State :=
  match stackTemp s.thm.temps k with
  | none => s
  | some t =>
    let old := (stackAt s k).level
    let n := stackLevel (if fresh then 0 else old) t
    let s1 := modStk s k fun x => { x with level := n, temp := (t % 256).toNat }
    if n == old then s1
    else event s1 ⟨0x07, .ok, 2, k, 34 + k, n + 256 * (t % 256).toNat⟩

/-- Dies act on theirs. (DEDUCED, log 149.) -/
def sweepDie (s : State) (d : Nat) : State :=
  match dieTemp s.thm.temps d with
  | none => s
  | some t =>
    let on := applyCurve s.thm.curve (s.thm.applying.getD d []) t
    let n := curveCap s.thm.curve on
    let old := s.pwr.dieCurveCap.getD d 64
    let s1 := modPwr (modThm s fun x => { x with applying := x.applying.set d on }) fun p =>
      { p with dieCurveCap := p.dieCurveCap.set d n }
    if n == old then s1 else event s1 ⟨0x07, .ok, 3, d, dieHotSensor s.thm.temps d, n⟩

/-- The power cap (R396). (DEDUCED, log 149.) -/
def sweepPower (s : State) : State :=
  modPwr s fun p =>
    if p.capEn && decide (p.cap < p.inW) then { p with diePowerCap := p.diePowerCap.map fun c => max 8 (c - 4) }
    else if 100 * p.inW < 95 * p.cap then { p with diePowerCap := p.diePowerCap.map fun c => min 64 (c + 1) }
    else p

/-- The first stack or die at its hold point. -/
def holdUnitOf (s : State) : Option (Bool × Nat) :=
  match (List.range 8).find? fun k => reads (stackTemp s.thm.temps k) 105 with
  | some k => some (false, k)
  | none => ((List.range 2).find? fun d => dieAtHold s (dieTemp s.thm.temps d)).map fun d => (true, d)

/-- A sweep meets the release condition of HOLD (R397). -/
def holdCool (s : State) : Bool :=
  ((List.range 8).all fun k => below (stackTemp s.thm.temps k) 92)
    && match s.thm.curve.find? fun e => e.valid with
      | some e => (List.range 2).all fun d => below (dieTemp s.thm.temps d) ((e.temp : Int) - 2)
      | none => true

/-- HOLD entered from IDLE or ACTIVE, or released after 8 cool sweeps. -/
def sweepHold (s : State) : State :=
  if s.pwr.state == .hold then
    let n := if holdCool s then s.thm.coolSweeps + 1 else 0
    if 8 ≤ n then alarm (enterActive (modThm s fun x => { x with coolSweeps := 0 })) 17 (256 * s.thm.holdUnit)
    else modThm s fun x => { x with coolSweeps := n }
  else if s.pwr.state == .idle || s.pwr.state == .active then
    match holdUnitOf s with
    | some u => enterHold s u.1 u.2 fun k => reads (stackTemp s.thm.temps k) 105
    | none => s
  else s

/-- Measured values govern: the first full sweep since the clocks started is over, or the fast clocks are gated (R394).
(DEDUCED, log 148.) -/
def governs (s : State) : Bool := s.pwr.firstSweep || s.pwr.state == .idle || s.pwr.state == .hold

/-- The latest reading of each die is kept for the next sweep. -/
def keepDies (s : State) : State := modThm s fun x => { x with prevDie := (List.range 2).map (dieTemp x.temps) }

/-- A sweep of a module that runs. (DEDUCED, log 148.) -/
def sweepRun (s : State) (old : List (Option Int)) : State :=
  let full := s.pwr.firstSweep || decide (s.pwr.clockAt + 2000000 ≤ s.now)
  let fresh := full && !s.pwr.firstSweep
  let s1 := commitDieCurve (deafSensors s old)
  let s2 := if s1.pwr.state == .idle || s1.pwr.state == .hold then s1 else modPwr s1 fun p => { p with firstSweep := full }
  let s3 := if governs s2 then
      sweepHold ((List.range 2).foldl sweepDie ((List.range 8).foldl (sweepStack fresh) s2))
    else (List.range 8).foldl sweepTemp s2
  judgeIdle (sweepPower s3)

/-- SENSOR_SWEEP. -/
def sensorSweep (w : Sweep) (s : State) : State :=
  let s1 := inputSample (takeSweep s w) s.pwr.inMv
  if powered s.pwr.state && trips s1 s1.thm.temps then keepDies (enterStandby s1 .trip)
  else if hostUp s.pwr.state then keepDies (sweepRun s1 s.thm.temps)
  else keepDies s1

def execSensorSweep (sweep : Sweep) (s : State) : Host.Outcome State Fault Refusal :=
  .next (if s.pwr.state == .off then s else sensorSweep sweep s)

/-! ### Watchdogs (R393) -/

/-- The control cores are clocked. (DEDUCED, log 151.) -/
def coresClocked (p : PwrState) : Bool := p == .active || p == .withdrawn

/-- CLU_WDOG_EXPIRY: the control core is reset, its WALK halts with INTERNAL. (DESIGN CHOICE, log 7; DEDUCED, log 151.) -/
def execCluWdogExpiry (cluster : Nat) (s : State) : Host.Outcome State Fault Refusal :=
  onUnit cluster 16 "cluster" <|
    let c := clusterAt s cluster
    if coresClocked s.pwr.state && c.wdogMs != 0#32 && decide (c.wdogAt + 1000000 * c.wdogMs.toNat ≤ s.now) then
      let s1 := modCluster s cluster fun x => { x with ctlResets := x.ctlResets + 1, wdogAt := s.now, resv := none }
      let s2 := match bound s1 .walk cluster with
        | some b => haltStation s1 b .internal
        | none => s1
      alarm s2 11 cluster
    else s

/-- CLU_WDOG_KICK. -/
def opWdogKick (cluster : Nat) (s : State) : State := modCluster s cluster fun x => { x with wdogAt := s.now }

def execCluWdogKick (cluster : Nat) (s : State) : Host.Outcome State Fault Refusal :=
  if hostUp s.pwr.state then onUnit cluster 16 "cluster" (opWdogKick cluster s)
  else onUnit cluster 16 "cluster" s

/-- CONTROLLER_WATCHDOG_EXPIRY: the firmware restarts from NOR within 50 ms; state, bypasses, counter and package stay.
(DEDUCED, log 151.) -/
def execControllerWatchdogExpiry (s : State) : Host.Outcome State Fault Refusal :=
  .next <|
    if s.pwr.state == .off then s
    else bootController (modSec (modPwr s fun p => { p with ctlDownTo := s.now + 50000000 }) fun x => { x with sbAnswer := none })

end Sys2Proof.Machine
end

