-- ==== Sys2Proof/Machine/Telemetry.lean ====
section
/-! DEFINITION. Alarms cleared, the event ring's consumption, the mirror and the traces (R408-R413). -/

namespace Sys2Proof.Machine

def modTel (s : State) (f : Tel → Tel) : State := { s with tel := f s.tel }

/-- TEL_ALARM_SUM: a 1 clears the bit and its latch (R408). -/
def opAlarmSum (value : Dword) (s : State) : State :=
  let clr (n : Nat) : Bool := decide (n < 22) && bit value.toNat n
  let lat (p : Nat × Latch) : Latch := if clr p.1 then ⟨0#64, 0#16, 0#48⟩ else p.2
  modTel s fun t =>
    { t with sum := t.sum &&& ~~~(value &&& 0x3FFFFF#64), latches := (numbered t.latches 0).map lat }

def execTelAlarmSum (value : Dword) (s : State) : Host.Outcome State Fault Refusal := whenUp s (opAlarmSum value s)

/-- The sideband alert is asserted (R408, R451). -/
def alertLow (s : State) : Bool :=
  s.pwr.state != .off && decide (s.tel.sum.toNat % 2 ^ 22 &&& (2 ^ 22 - 1 - s.tel.sbMask.toNat % 2 ^ 22) ≠ 0)

/-- TEL_EVT_HEAD (R411): in overflow only NEXT is accepted; otherwise a value between HEAD and NEXT. -/
def opEvtHead (value : Word) (s : State) : State :=
  if s.tel.ovf then
    if value == s.tel.evtNext then modTel s fun t => { t with evtHead := value, ovf := false } else s
  else if (value - s.tel.evtHead).toNat ≤ (s.tel.evtNext - s.tel.evtHead).toNat then modTel s fun t => { t with evtHead := value }
  else s

def execTelEvtHead (value : Word) (s : State) : Host.Outcome State Fault Refusal := whenUp s (opEvtHead value s)

/-! ### The mirror (R412, R413) -/

def trcSize (t : Tel) : Nat := 2 ^ t.trcExp

/-- Ring position of the oldest trace record not yet mirrored. -/
def trcOldest (t : Tel) : Nat := (t.trcNext + (trcSize t - t.trcCount % trcSize t)) % trcSize t

/-- 32 bytes of a ring as the mirror reads them: counted and corrected as any read is, and open where the sector is uncorrectable
(R309). -/
def ringRead (s : State) (a : Nat) : State × Bytes :=
  let r := memRead s a 32
  match r.2 with
  | .ok b => (r.1, b)
  | _ => (tick1 r.1, openBytes r.1 32)

/-- One copy: the oldest event position in write order, or, while none waits, the oldest trace record.
(DESIGN CHOICE, log 12; DEDUCED, log 152.) -/
def mirrorCopy (s : State) : State :=
  match s.tel.mirQueue with
  | e :: _ =>
    let r := ringRead s (s.tel.evtBase + 32 * e.1)
    modTel (hostPoke r.1 (s.tel.mirBase + 32 * e.1) r.2) fun t =>
      { t with mirQueue := t.mirQueue.filter fun (p : Nat × Word) => !(p == e), mirrored := e.2 + 1 }
  | [] =>
    if s.tel.trcCount = 0 then s
    else
      let p := trcOldest s.tel
      let r := ringRead s (s.tel.trcBase + 32 * p)
      modTel (hostPoke r.1 (s.tel.trcMir + 32 * p) r.2) fun t => { t with trcCount := t.trcCount - 1 }

/-- EVENT_MIRROR_COPY. -/
def execEventMirrorCopy (s : State) : Host.Outcome State Fault Refusal := whenUp s (mirrorCopy s)

/-- 64 new entries, or 100 µs since the first of them. (DEDUCED, log 152.) -/
def mirrorDue (s : State) : Bool :=
  decide (64 ≤ s.tel.mirNew) || (match s.tel.mirSince with
    | some t => decide (t + 100000 ≤ s.now)
    | none => false)

/-- EVENT_MIRROR_SIGNAL: TEL_EVT_VEC is signalled. (DEDUCED, log 152.) -/
def mirrorSignal (s : State) : State :=
  if mirrorDue s then signalVec (modTel s fun t => { t with mirNew := 0, mirSince := none }) 0 s.tel.evtVec else s

def execEventMirrorSignal (s : State) : Host.Outcome State Fault Refusal := whenUp s (mirrorSignal s)

/-! ### Traces (R413) -/

/-- Number of units of a counter group, and their unit kind (Table 19-4). (DESIGN CHOICE, log 21.) -/
def traceGroup (sel : Nat) : Nat × Nat :=
  match sel with
  | 0 => (256, 0) | 1 => (256, 0) | 2 => (8, 2) | 3 => (16, 4) | 4 => (64, 5) | _ => (0, 0)

/-- A record of unit `u`; the two counter values are not named by the rule. (DESIGN CHOICE, log 153.) -/
def traceRecord (s : State) (u : Nat) : Bytes :=
  leBytes 8 (timeStamp s).toNat ++ leBytes 2 (u + 4096 * (traceGroup s.tel.trcSel).2) ++ leBytes 1 s.tel.trcSel
    ++ List.replicate 5 0#8 ++ openBytes s 16

/-- One record goes to the ring, or is dropped and counted where the ring is full or its place does not exist.
(DESIGN CHOICE, log 153.) -/
def traceOne (s : State) (u : Nat) : State :=
  let drop := ctrSat 0x0380005C s.tel.trcDrop (satAdd s.tel.trcDrop 1) (modTel s fun t => { t with trcDrop := satAdd t.trcDrop 1 })
  if trcSize s.tel ≤ s.tel.trcCount then drop
  else
    match memWrite s (s.tel.trcBase + 32 * (s.tel.trcNext % trcSize s.tel)) (traceRecord s u) with
    | none => drop
    | some t => tick1 (modTel t fun x => { x with trcCount := x.trcCount + 1, trcNext := (x.trcNext + 1) % trcSize x })

/-- TRACE_SAMPLE: every PERIOD µs, one record per unit of the group. (DESIGN CHOICE, log 153.) -/
def traceSample (s : State) : State :=
  if s.tel.trcEn && s.tel.trcPeriod != 0 && decide (s.tel.trcLast + 1000 * s.tel.trcPeriod ≤ s.now) then
    (List.range (traceGroup s.tel.trcSel).1).foldl traceOne (modTel s fun t => { t with trcLast := s.now })
  else s

def execTraceSample (s : State) : Host.Outcome State Fault Refusal := whenUp s (traceSample s)

end Sys2Proof.Machine
end

