-- ==== Sys2Proof/Machine/Almanac.lean ====
section
/-! DEFINITION. The Almanac (R381-R383): header, directory and the ten sections, and how a request is served. -/

namespace Sys2Proof.Machine

/-! ### The sections (Table 17-10) -/

/-- SFU_RELOAD_STATUS's fields: a reload in progress, and those that wait (Table 21-12). -/
def reloadBusy (s : State) : Bool := s.sfu.cur.isSome

def flsStateCode (x : FlsSt) : Nat :=
  match x with
  | .scanning => 0 | .loading => 1 | .ready => 2 | .readonly => 3

/-- FLS_STATE (Table 15-7). -/
def flsStateWord (s : State) : Nat := flsStateCode s.fls.state + 256 * flag s.fls.poolErr

def almModule (s : State) : List Bytes :=
  [padTo 64 (leBytes 8 s.tel.sum.toNat ++ leBytes 1 (flag s.hif.lock) ++ leBytes 1 (flsStateCode s.fls.state)
    ++ leBytes 1 s.sfu.waiting.length ++ leBytes 1 (flag (reloadBusy s)) ++ leBytes 4 (memFailWord s.memc.fail)
    ++ leBytes 4 (flsFailWord s.fls.fail) ++ leBytes 4 s.sfu.seq.toNat ++ leBytes 4 (eqxStatus s) ++ leBytes 4 0
    ++ leBytes 8 s.kvc.epoch.toNat)]

/-- The function's rings in order of their numbers. -/
def fnRings (s : State) (fn : Nat) : List Ring := (List.range 256).filterMap (findRing s fn)

def almRing (x : Ring) : Bytes :=
  padTo 32 (leBytes 1 x.ring ++ leBytes 1 x.sqExp ++ leBytes 1 x.cqExp ++ leBytes 1 0 ++ leBytes 4 x.tail.toNat
    ++ leBytes 4 x.head.toNat ++ leBytes 4 x.written.toNat ++ leBytes 4 x.hhead.toNat ++ leBytes 2 (min 64 x.backlog.length)
    ++ leBytes 2 x.vector)

def gstateCode (g : GState) : Nat :=
  match g with
  | .loaded => 0 | .running => 1 | .paused => 2 | .halted => 3 | .drained => 4

/-- The function's loaded graphs with their slots. -/
def fnGraphs (s : State) (fn : Nat) : List (Nat × Graph) :=
  (numbered s.graphs 0).filterMap fun p => match p.2.graph with
    | some g => if g.fn == fn then some (p.1, g) else none
    | none => none

def almGraph (s : State) (p : Nat × Graph) : Bytes :=
  padTo 32 (leBytes 2 (gidOf s p.1) ++ leBytes 1 (gstateCode p.2.state) ++ leBytes 1 p.2.cq
    ++ leBytes 1 (statusCode p.2.lastStatus) ++ leBytes 1 p.2.lastEvent ++ leBytes 2 p.2.haltSt ++ leBytes 8 p.2.user.toNat
    ++ leBytes 3 p.2.haltWdi ++ leBytes 1 0 ++ leBytes 4 p.2.events)

def kindCode (k : Kind) : Nat :=
  match k with
  | .load => 1 | .store => 2 | .mma => 3 | .vec => 4 | .ssa => 5 | .churn => 6 | .coll => 7 | .scan => 8 | .skim => 9 | .walk => 10

/-- The status a station's saved position carries (R40, R41). -/
def stationStatus (x : Station) : Nat :=
  match x.run with
  | .halted st => statusCode st
  | _ => 0

/-- The port whose SEQ a stream's saved position shows: its descriptor's; port 0 for the rest. (DEDUCED, log 25.) -/
def seqPort (x : Station) : Nat :=
  match x.strm.cur with
  | some d => if x.kind == .store then d.pushPort else d.port
  | none => 0

/-- DEDUCED, log 25. -/
def almStation (s : State) (slot : Nat) (p : Nat × Station) : Bytes :=
  leBytes 2 (gidOf s slot) ++ leBytes 2 p.1 ++ leBytes 1 (stationStatus p.2) ++ leBytes 1 (kindCode p.2.kind)
    ++ leBytes 2 (p.2.outSeq.getD (seqPort p.2) 0#16).toNat ++ leBytes 3 p.2.wdi ++ leBytes 1 0 ++ leBytes 3 p.2.strm.fill
    ++ leBytes 1 0

def almStations (s : State) (fn : Nat) : List Bytes :=
  ((fnGraphs s fn).map fun p =>
    if p.2.state == .paused || p.2.state == .halted then (numbered p.2.stations 0).map (almStation s p.1) else []).flatten

def almFlags (s : State) : List Bytes :=
  ((s.cores.map fun x => x.flags.toNat) ++ (s.ssa.map fun x => x.flags.toNat) ++ (s.col.map fun x => x.flags.toNat)
    ++ (s.clusters.map fun x => x.adderFlags.toNat) ++ (s.memc.stk.map fun x => x.adderFlags.toNat)).map (leBytes 4)

/-- COL_G_SLOW (Table 12-8). -/
def slowWord (g : Group) : Nat :=
  2 ^ 48 * (g.named % 65536) + 2 ^ 47 * flag g.slowValid + 65536 * min g.meanLag 0xFFFF + min g.ownLag 0xFFFF

def almGroup (g : Group) : Bytes :=
  padTo 32 (leBytes 2 g.id ++ leBytes 1 g.die ++ leBytes 1 g.state ++ leBytes 4 g.nextSeq.toNat ++ leBytes 4 g.retired.toNat
    ++ leBytes 1 (statusCode g.fstatus) ++ leBytes 1 (colCauseCode g.cause) ++ leBytes 2 g.frank ++ leBytes 8 (slowWord g))

def almCounter (x : Cluster) : Bytes :=
  padTo 32 (leBytes 1 x.wc.epoch.toNat ++ leBytes 3 0 ++ leBytes 4 x.wc.base.toNat ++ leBytes 4 x.wc.limit.toNat
    ++ leBytes 4 x.wc.next.toNat ++ leBytes 4 x.wc.committed.toNat ++ leBytes 4 x.wc.stale.toNat)

/-- CHN_XBOUND of a context: that of the direction its die serves; either where it serves both. (DEDUCED, log 25.) -/
def almXbound (s : State) (i : Nat) (c : ChnCtx) : Word :=
  let both : Bool := match c.ring with
    | some r => r.eDie == r.wDie
    | none => true
  let east : Bool := match c.ring with
    | some r => r.eDie == i / 4
    | none => true
  if if both then choose 2 s.free == 0 else east then c.east.xbound else c.west.xbound

def almChurn (s : State) (p : Nat × ChnCtx) : Bytes :=
  let tag := match p.2.ring with
    | some r => r.tag.toNat
    | none => 0
  leBytes 1 (p.1 / 4) ++ leBytes 1 (p.1 % 4) ++ leBytes 2 0 ++ leBytes 4 (chnStatus p.2) ++ leBytes 4 tag
    ++ leBytes 4 (almXbound s p.1 p.2).toNat

def almIndex (n : Index) : Bytes :=
  padTo 16 (leBytes 1 n.num ++ leBytes 1 (flag n.batch.isSome + 2 * flag n.harvest.isSome) ++ leBytes 2 0 ++ leBytes 3 n.cur
    ++ leBytes 1 0 ++ leBytes 3 n.oldest)

/-- Each command fetched and not completed: those that run, and those a FENCE holds. (DEDUCED, log 25.) -/
def almInflight (s : State) (fn : Nat) : List Bytes :=
  ((s.hif.inflight.filter fun i => i.hdr.fn == fn).map fun i =>
      padTo 16 (leBytes 8 i.hdr.user.toNat ++ leBytes 1 i.opc ++ leBytes 1 i.hdr.ring))
    ++ ((fnRings s fn).map fun x => x.fetched.map fun b => padTo 16 (sub b 8 8 ++ sub b 0 1 ++ leBytes 1 x.ring)).flatten

/-- The ten sections as entry bytes and entries; the module-wide ones are empty without PERM's MODULE. -/
def almSections (s : State) (fn : Nat) : List (Nat × List Bytes) :=
  let wide (l : List Bytes) : List Bytes := if (fnCfg s fn).perm.getLsbD 3 then l else []
  [(64, wide (almModule s)), (32, (fnRings s fn).map almRing), (32, (fnGraphs s fn).map (almGraph s)), (16, almStations s fn),
   (4, wide (almFlags s)), (32, (s.groups.filter fun g => g.fn == fn).map almGroup), (32, wide (s.clusters.map almCounter)),
   (16, wide ((numbered s.chn 0).map (almChurn s))), (16, wide (s.vse.indexes.map almIndex)), (16, almInflight s fn)]

/-! ### The document (R383, Table 17-9) -/

/-- A section's bytes, padded to a multiple of 32. -/
def almBody (x : Nat × List Bytes) : Bytes :=
  let b := x.2.flatten
  padTo ((b.length + 31) / 32 * 32) b

/-- Directory entries from ID `i`, with the first section at `pos`. -/
def almDir (i pos : Nat) : List (Nat × List Bytes) → Bytes
  | [] => []
  | x :: t =>
    leBytes 1 i ++ leBytes 1 0 ++ leBytes 2 x.1 ++ leBytes 4 x.2.length ++ leBytes 4 pos ++ leBytes 4 0
      ++ almDir (i + 1) (pos + (almBody x).length) t

/-- The header; `bytes` is the total size. -/
def almHeader (s : State) (fn bytes : Nat) (resync : Bool) (subs cmpls : Nat) : Bytes :=
  padTo 64 (leBytes 2 0x414C ++ leBytes 2 1 ++ leBytes 4 bytes ++ leBytes 8 (s.fab.counter.toNat % 2 ^ 63)
    ++ leBytes 1 (flag (s.fab.eqx == .sync) + 2 * flag resync + 4 * flag s.fab.assigned) ++ leBytes 1 (pwrCode s.pwr.state)
    ++ leBytes 1 fn ++ leBytes 1 10 ++ leBytes 4 (s.hif.alm.getD fn ⟨0#64, 0#32, .ok, false, false, 0#32⟩).serial.toNat
    ++ leBytes 4 subs ++ leBytes 4 cmpls ++ leBytes 2 s.fab.addr)

/-- The Almanac as of this instant. (DEDUCED, log 25.) -/
def almBytes (s : State) (fn : Nat) (resync : Bool) (subs cmpls : Nat) : Bytes :=
  let secs := almSections s fn
  let body := (secs.map almBody).flatten
  padTo 256 (almHeader s fn (256 + body.length) resync subs cmpls ++ almDir 1 256 secs) ++ body

/-! ### A request (R381, R382) -/

def modAlm (s : State) (fn : Nat) (f : AlmFn → AlmFn) : State := { s with hif := { s.hif with alm := s.hif.alm.modify fn f } }

/-- The function's rings changed. -/
def modFnRings (s : State) (fn : Nat) (f : Ring → Ring) : State :=
  { s with hif := { s.hif with rings := s.hif.rings.map fun x => if x.fn == fn then f x else x } }

/-- Entries of the function's rings that can be written now are (R375). -/
def drainFn (s : State) (fn : Nat) : State :=
  (s.hif.rings.filter fun x => x.fn == fn).foldl (fun t x =>
    match findRing t fn x.ring with
    | some y => drainBacklog t fn x.ring y.backlog
    | none => t) s

/-- Step 6: the command's completion, or ALM_STATUS, DONE and vector 0. -/
def almEnd (s : State) (r : AlmReq) (st : Status) : State :=
  let s1 := { s with hif := { s.hif with almReqs := s.hif.almReqs.erase r } }
  match r.cmd with
  | some c => finishCmd s1 c st
  | none =>
    let s2 := modAlm s1 r.fn fun a => { a with status := st, busy := false, done := true }
    if 0 < (fnCfg s2 r.fn).vecN then signalVec s2 r.fn 0 else s2

/-- The buffer written: page 0's ALM_ADDR is a whole 64-bit IOVA, a command's an address argument. (DESIGN CHOICE, log 26.) -/
def almWrite (s : State) (r : AlmReq) (b : Bytes) : Except Status State :=
  match r.cmd with
  | some _ => argWrite s r.buf b
  | none => if hostPresent s r.buf.addr b.length then .ok (hostPoke s r.buf.addr b) else .error .pageFault

/-- The entries that stations hold behind their CQ's backlog join it again, behind what it holds. -/
def rejoin (s : State) (x : Ring) : State :=
  modRing s x.fn x.ring fun y => { y with backlog := y.backlog ++ x.backlog.drop 64 }

/-- Steps 3 to 6 of a request that is well-formed. RESYNC discards the backlog, and not the events that stations hold behind it;
its command's completion is the first entry that its CQ then receives. (DEDUCED, log 13; DESIGN CHOICE, log 26.) -/
def almServe (s : State) (r : AlmReq) : State :=
  let rings := s.hif.rings.filter fun x => x.fn == r.fn
  let subs := if r.resync then (rings.map fun x => (x.tail - x.head).toNat).sum else 0
  let cmpls := if r.resync then (rings.map fun x => min 64 x.backlog.length).sum else 0
  let s1 := modAlm s r.fn fun a => { a with serial := a.serial + 1 }
  let doc := almBytes s1 r.fn r.resync subs cmpls
  let out := if r.len < doc.length then doc.take 64 else doc
  let w := match almWrite s1 r out with
    | .ok t => (t, if r.len < doc.length then Status.shapeOver else .ok)
    | .error e => (s1, e)
  let s2 := if r.resync then modFnRings w.1 r.fn fun x => { x with tail := x.head, hhead := x.written, backlog := [] } else w.1
  let s3 := almEnd (tick1 s2) r w.2
  if r.resync then drainFn (rings.foldl rejoin s3) r.fn else s3

/-- Step 2: no ring of the function holds a fetched entry that is not decoded, but for those that wait for an ALMANAC. -/
def almReady (s : State) (fn : Nat) : Bool :=
  (s.hif.rings.filter fun x => x.fn == fn).all fun x =>
    x.fetched.isEmpty || s.hif.inflight.any fun i => i.opc == 0x7F && i.hdr.fn == fn && i.hdr.ring == x.ring

/-- The function's requests, in order, as far as they are ready. -/
def almRun (fn : Nat) : Nat → State → State
  | 0, s => s
  | n + 1, s =>
    match s.hif.almReqs.find? fun r => r.fn == fn with
    | none => s
    | some r => if almReady s fn then almRun fn n (almServe s r) else s

def almAll (s : State) (fn : Nat) : State := almRun fn s.hif.almReqs.length s

/-- A request joins the function's queue. (DESIGN CHOICE, log 26.) -/
def almAsk (s : State) (r : AlmReq) : State :=
  almAll { s with hif := { s.hif with almReqs := s.hif.almReqs ++ [r] } } r.fn

/-- The buffer is long enough and its address has no reserved bit. (DESIGN CHOICE, log 26.) -/
def almBufOk (buf : AddrArg) (len : Nat) : Bool := argOk buf && decide (64 ≤ len)

def opAlmanac (h : HostHdr) (buf : AddrArg) (len : Word) (resync : Bool) (s : State) : State :=
  if almBufOk buf len.toNat then
    let q := startCmd s h 0x7F
    almAsk q.1 ⟨h.fn, some (q.2, h), buf, len.toNat, resync⟩
  else complete s h .badDescriptor 0

/-- ALMANAC. -/
def execAlmanac (h : HostHdr) (buf : AddrArg) (len : Word) (resync : Bool) (s : State) : Host.Outcome State Fault Refusal :=
  hostCmd s h .almanac true (opAlmanac h buf len resync)

/-- A request of the function, a command or a register request, has not ended (R381). -/
def almBusy (s : State) (fn : Nat) : Bool :=
  (match s.hif.alm[fn]? with
    | some a => a.busy
    | none => true) || s.hif.almReqs.any fun r => r.fn == fn

/-- ALM_GO with ALM_ADDR and ALM_LEN as page 0 holds them: ignored while BUSY; it wakes an IDLE module (R389).
(DESIGN CHOICE, log 26.) -/
def opAlmGo (fn : Nat) (addr : Dword) (len value : Word) (s : State) : State :=
  let s1 := modAlm s fn fun a => { a with addr := addr, len := len }
  if !bit value.toNat 0 || almBusy s fn then s1
  else
    let s2 := wakeEvent (modAlm s1 fn fun a => { a with busy := true, done := false })
    let r : AlmReq := ⟨fn, none, ⟨1, addr.toNat⟩, len.toNat, bit value.toNat 1⟩
    if (fnCfg s fn).perm.getLsbD 4 && decide (64 ≤ len.toNat) then almAsk s2 r else almEnd s2 r .badDescriptor

/-- ALM_GO. -/
def execAlmGo (fn : Nat) (addr : Dword) (len : Word) (value : Word) (s : State) : Host.Outcome State Fault Refusal :=
  if 32 < fn then .refused (.noSuchUnit "function")
  else if windowOpen s fn then .next (opAlmGo fn addr len value s)
  else .next s

end Sys2Proof.Machine
end

