-- ==== Sys2Proof/Machine/FnReset.lean ====
section
/-! DEFINITION. Function-level reset and PERST_N (R368, R451). -/

namespace Sys2Proof.Machine

/-- A graph's station is inside a collective of the group. -/
def groupHolds (g : Group) (slot : Nat) : Bool := g.state == 1 && g.entries.any fun e => e.slot == slot && e.ended.isNone

/-- WITHDRAW to the other members of a group, and its fence here. (DESIGN CHOICE, log 24.) -/
def withdrawGroup (s : State) (g : Group) : State :=
  let t := ((List.range g.n).filter fun r => r != g.rank).foldl (fun u r => groupSend u g r 6 []) s
  churnWithdraw (groupFence t g.id .memberWithdrawn .memberWithdrawn .withdraw g.rank none false) g.id

/-- A slot of the reset function: its COLL stations withdraw, its graph is unloaded, the function's commands on it are gone. -/
def resetSlot (fn : Nat) (s : State) (slot : Nat) : State :=
  let s1 := match slotGraph s slot with
    | some g =>
      if g.fn == fn then
        unloadGraph ((s.groups.filter fun g => groupHolds g slot).foldl withdrawGroup s) slot
      else s
    | none => s
  let others (w : Nat × HostHdr × SlotCmd) : Bool := !(w.2.1.fn == fn)
  settle (modSlot s1 slot fun x => { x with waiting := x.waiting.filter others }) slot

/-- A group of the function closes: what its operations hold is released. -/
def dropGroup (s : State) (g : Group) : State :=
  let s1 := { s with groups := s.groups.filter fun x => !(x.id == g.id) }
  let s2 := g.entries.foldl (fun t e => releaseAll t e.slot e.station e.inputs) s1
  g.entries.foldl (fun t e => collListEnd t e.slot e.station) s2

/-- The reset of one function (R368): graphs, groups, rings and commands in progress; ring 0 anew from HIF_RING0.
(DESIGN CHOICE, log 24.) -/
def resetFn (s : State) (fn : Nat) : State :=
  let s1 := (List.range 64).foldl (resetSlot fn) s
  let s2 := (s1.groups.filter fun g => g.fn == fn).foldl dropGroup s1
  let keep (r : AlmReq) : Bool := !(r.fn == fn)
  let s3 := { s2 with hif := { s2.hif with
      rings := s2.hif.rings.filter fun x => !(x.fn == fn)
      inflight := s2.hif.inflight.filter fun i => !(i.hdr.fn == fn)
      almReqs := s2.hif.almReqs.filter keep
      alm := s2.hif.alm.modify fn fun a => { a with busy := false } } }
  applyRing0 s3 fn

/-- A reset of the PF acts on every function. (DESIGN CHOICE, log 24.) -/
def flr (fn : Nat) (s : State) : State :=
  afterCmd (if fn = 0 then (List.range 33).foldl resetFn s else resetFn s fn)

/-- FUNCTION_LEVEL_RESET. (DESIGN CHOICE, log 24.) -/
def execFunctionLevelReset (fn : Nat) (s : State) : Host.Outcome State Fault Refusal :=
  if 32 < fn then .refused (.noSuchUnit "function") else whenUp s (flr fn s)

/-- PERST_N_LOW: the link is reset, and the PF with every function (R451). (DESIGN CHOICE, log 24.) -/
def execPerstNLow (s : State) : Host.Outcome State Fault Refusal :=
  if (hostUp s.pwr.state || s.pwr.state == .thaw) then .next (flr 0 { s with hif := { s.hif with linkRate := 0, linkLanes := 0, linkFlit := false } })
  else .next s

end Sys2Proof.Machine
end

