-- ==== Sys2Proof/Machine/Graph.lean ====
section
/-! DEFINITION. The graph commands (chapter 2): GRAPH_LOAD with the checks of R36, and the commands of Table 2-10. -/

namespace Sys2Proof.Machine

/-! ### Pools in memory -/

/-- The direct intervals a range covers; an aliased range covers at most one interval of each stack of its die (R306). -/
def directPieces (a n : Nat) : List (Nat × Nat) :=
  if 0x008000000000 ≤ a ∧ a < 0x00E000000000 then
    let one (die lo hi : Nat) : List (Nat × Nat) :=     -- offsets lo to hi in the alias of `die`
      if hi ≤ lo then []
      else (List.range 4).filterMap fun j =>
        let g0 := lo / 4096
        let g1 := (hi - 1) / 4096
        let first := g0 + (j + 4 - g0 % 4) % 4
        let last := g1 - (g1 % 4 + 4 - j) % 4
        if g1 < first ∨ (g1 < (g1 % 4 + 4 - j) % 4) then none
        else
          let b := (4 * die + j) * stackBytes
          let start := b + first / 4 * 4096 + (if first = g0 then lo % 4096 else 0)
          let stop := b + last / 4 * 4096 + (if last = g1 then (hi - 1) % 4096 + 1 else 4096)
          some (start, stop - start)
    let base := 0x008000000000
    let half := 0x003000000000
    let lo := a - base
    let hi := lo + n
    one 0 lo (min hi half) ++ (if hi ≤ half then [] else one 1 (lo - half) (hi - half))
  else [(a, n)]

def intervalsMeet (x y : Nat × Nat) : Bool := decide (x.1 < y.1 + y.2 ∧ y.1 < x.1 + x.2)

/-- The memory of a pool: the pieces of each of its copies. -/
def poolPieces (clusters : Half) (scope base n : Nat) : List (Nat × Nat) :=
  if scope = 0 then directPieces base n else (poolBases clusters scope base).map fun b => (b, n)

def piecesMeet (x y : List (Nat × Nat)) : Bool := x.any fun a => y.any (intervalsMeet a)

/-- Every buffer address of a pool. -/
def poolBuffers (clusters : Half) (scope base count bytes : Nat) : List Nat :=
  ((poolBases clusters scope base).map fun b => (List.range count).map fun i => b + i * bytes).flatten

/-! ### The graph image (R35, R36) -/

def kindOf (c : Nat) : Option Kind :=
  match c with
  | 1 => some .load | 2 => some .store | 3 => some .mma | 4 => some .vec | 5 => some .ssa | 6 => some .churn
  | 7 => some .coll | 8 => some .scan | 9 => some .skim | 10 => some .walk | _ => none

/-- Units of a kind (Table 2-1). -/
def unitsOf : Kind → Nat
  | .load => 256 | .store => 256 | .mma => 256 | .vec => 256 | .ssa => 8 | .churn => 2 | .coll => 2 | .scan => 64
  | .skim => 2 | .walk => 16

def coreLevel (k : Kind) : Bool := k == .load || k == .store || k == .mma || k == .vec

/-- The cluster of a core-level unit or of a WALK. -/
def unitCluster (k : Kind) (u : Nat) : Nat := if k == .walk then u else u / 16

/-- The header is accepted (Table 2-5): its counts, its ring and its reserved bytes. (DEDUCED, log 28.) -/
def headerOk (s : State) (fn : Nat) (b : Bytes) : Bool :=
  leAt b 0 2 == 1 && decide (1 ≤ leAt b 2 2 ∧ leAt b 2 2 ≤ 1024 ∧ 1 ≤ leAt b 4 2 ∧ leAt b 4 2 ≤ 1024 ∧ byteAt b 6 ≤ 240)
    && leAt b 10 2 == 0 && leAt b 24 8 == 0 && (findRing s fn (byteAt b 7)).isSome

def stationAtLoad (image : Nat) (b : Bytes) (k : Kind) : Station :=
  { kind := k, unit := byteAt b 1, work := image + leAt b 4 4, workN := leAt b 8 3, wdi := 0, run := .going,
    outSeq := List.replicate 8 0#16, inHand := [], sub := 0, wait := none, strm := streamAtLoad }

/-- A station entry, or none where R36 refuses it; `before` are the graph's earlier entries. (DEDUCED, log 28.) -/
def stationEntry (s : State) (image : Nat) (clusters : Half) (before : List Station) (b : Bytes) : Option Station :=
  match kindOf (byteAt b 0) with
  | none => none
  | some k =>
    let u := byteAt b 1
    if leAt b 2 2 = 0 && leAt b 11 5 = 0 && u < unitsOf k && leAt b 4 4 % 64 = 0
        && (!(coreLevel k || k == .walk) || clusters.getLsbD (unitCluster k u))
        && (bound s k u).isNone && !(before.any fun x => x.kind == k && x.unit == u) then
      some (stationAtLoad image b k)
    else none

/-- A pool entry as read: the pool without its buffers. -/
def poolEntry (b : Bytes) : Pool :=
  { id := byteAt b 0, scope := byteAt b 1, count := leAt b 2 2, bytes := leAt b 4 3, base := leAt b 8 6, free := [] }

/-- A producer has a copy of the pool (R35). -/
def hasCopy (p : Pool) (k : Kind) : Bool :=
  match p.scope with
  | 0 => true
  | 1 => coreLevel k
  | _ => coreLevel k || k == .walk

/-- Producer and consumer counts of Table 2-3. -/
def countsOk (mode pn cn : Nat) : Bool :=
  match mode with
  | 0 => pn == 1 && decide (1 ≤ cn ∧ cn ≤ 64)
  | 1 => pn == 1 && decide (1 ≤ cn ∧ cn ≤ 16)
  | 2 => decide (1 ≤ pn ∧ 1 ≤ cn ∧ cn ≤ 16)
  | 3 => decide (1 ≤ pn ∧ pn ≤ 16) && cn == 1
  | _ => false

def qmodeOf (c : Nat) : QMode :=
  match c with | 0 => .bcast | 1 => .share | 2 => .join | _ => .fanin

/-- A queue entry as read. -/
def queueEntry (b : Bytes) : Queue :=
  { qid := leAt b 0 2, mode := qmodeOf (byteAt b 2), pool := byteAt b 3, prodPort := bits (leAt b 4 2) 13 3,
    prodAt := bits (leAt b 4 2) 0 10, prodN := byteAt b 6, consPort := bits (leAt b 8 2) 13 3,
    consAt := bits (leAt b 8 2) 0 10, consN := byteAt b 7, entries := [], rounds := [],
    nextSeq := List.replicate (byteAt b 6) 0#16, waits := [] }

/-- A producer endpoint is shared by two queues. -/
def sharesProducer (x y : Queue) : Bool :=
  x.prodPort == y.prodPort && decide (x.prodAt < y.prodAt + y.prodN ∧ y.prodAt < x.prodAt + x.prodN)

/-- A producer has a copy of a pool of another loaded graph: only in the clusters of that graph (R35). -/
def hasCopyThere (clusters : Half) (p : Pool) (x : Station) : Bool :=
  p.scope == 0 || (hasCopy p x.kind && clusters.getLsbD (unitCluster x.kind x.unit))

/-- The pools of every loaded graph, each with its graph's clusters. -/
def loadedPools (s : State) : List (Half × Pool) :=
  (s.graphs.map fun sl => match sl.graph with
    | some g => g.pools.map fun p => (g.clusters, p)
    | none => []).flatten

/-- Every producer of a queue entry has a copy of the pool it names, wherever that pool is (R35, R36). A POOL that no graph has is
not among R36's cases: its producers find no buffer. (DEDUCED, log 28.) -/
def producersHaveCopy (s : State) (pools : List Pool) (pool : Nat) (xs : List Station) : Bool :=
  match pools.find? fun p => p.id == pool with
  | some p => xs.all fun x => hasCopy p x.kind
  | none => match (loadedPools s).find? fun p => p.2.id == pool with
    | some p => xs.all fun x => hasCopyThere p.1 p.2 x
    | none => true

/-- The checks of R36 on a queue entry. (DEDUCED, log 28.) -/
def queueOk (s : State) (sts : List Station) (pools : List Pool) (before : List Queue) (b : Bytes) : Bool :=
  let q := queueEntry b
  q.qid < 4096 && !(bit q.qid 10 && bits q.qid 7 3 != 0) && byteAt b 2 < 4 && !(0xF0 ≤ q.pool && q.pool < 0xFE)
    && bits (leAt b 4 2) 10 3 = 0 && bits (leAt b 8 2) 10 3 = 0 && leAt b 10 6 = 0
    && decide (q.prodAt + q.prodN ≤ sts.length ∧ q.consAt + q.consN ≤ sts.length) && countsOk (byteAt b 2) q.prodN q.consN
    && !(before.any fun x => sharesProducer x q || x.qid == q.qid)
    && !(s.graphs.any fun sl => match sl.graph with
          | some g => g.queues.any fun x => x.qid == q.qid
          | none => false)
    && producersHaveCopy s pools q.pool ((sts.drop q.prodAt).take q.prodN)

/-- The pools of every loaded graph, as memory. -/
def loadedPieces (s : State) : List (Nat × Nat) :=
  (s.graphs.map fun sl => match sl.graph with
    | some g => (g.pools.map fun p => poolPieces g.clusters p.scope p.base (p.count * p.bytes)).flatten
    | none => []).flatten

/-- The checks of R36 on a pool entry. (DEDUCED, log 28.) -/
def poolOk (s : State) (clusters : Half) (before : List Pool) (b : Bytes) : Bool :=
  let p := poolEntry b
  let n := p.count * p.bytes
  decide (p.id < 0xF0 ∧ p.scope < 3 ∧ 1 ≤ p.count ∧ p.count ≤ 1024 ∧ 32 ≤ p.bytes) && p.bytes % 32 = 0 && p.base % 32 = 0
    && byteAt b 7 = 0 && leAt b 14 2 = 0 && (findPool s p.id).isNone && !(before.any fun x => x.id == p.id)
    && (match p.scope with
        | 0 => spanOk p.base n
        | 1 => p.base + n ≤ 0x100000
        | _ => p.base + n ≤ 0xC00000)
    && !(piecesMeet (poolPieces clusters p.scope p.base n)
          (loadedPieces s ++ (before.map fun x => poolPieces clusters x.scope x.base (x.count * x.bytes)).flatten))

/-- An image being read: where it was refused, or what it holds so far. -/
structure Reading (α : Type) where
  st  : State
  out : Except (Nat × Status) (List α)

/-- Entries `i` to `i + n - 1` of a section at `off`, each read and judged in turn. -/
def readEntries {α : Type} (image off : Nat) (judge : State → List α → Bytes → Option α) :
    Nat → Nat → State → List α → Reading α
  | 0, _, s, acc => ⟨s, .ok acc⟩
  | n + 1, i, s, acc =>
    let o := off + 16 * i
    let r := ctrlRead s (image + o) 16
    match r.2 with
    | .error e => ⟨r.1, .error (o, e)⟩
    | .ok b =>
      match judge r.1 acc b with
      | none => ⟨r.1, .error (o, .badDescriptor)⟩
      | some x => readEntries image off judge n (i + 1) r.1 (acc ++ [x])

/-- The free slots. (DEDUCED, log 27.) -/
def freeSlots (s : State) : List Nat :=
  (numbered s.graphs 0).filterMap fun p => if p.2.graph.isNone then some p.1 else none

/-- The pools of an image ahead of their own checks: a queue entry is judged against the scopes they state. (DEDUCED, log 28.) -/
def peekPools (s : State) (image off n : Nat) : List Pool :=
  (List.range n).map fun i => poolEntry (peek s (image + off + 16 * i) 16)

/-- The accepted graph takes a slot (Table 2-10). (DEDUCED, log 27.) -/
def loadInto (s : State) (slot image : Nat) (fn : Nat) (b : Bytes) (sts : List Station) (qs : List Queue) (ps : List Pool) :
    State :=
  let cl := BitVec.ofNat 16 (leAt b 8 2)
  let full := ps.map fun p => { p with free := poolBuffers cl p.scope p.base p.count p.bytes }
  modSlot s slot fun x =>
    { x with
      gen := x.gen + 1
      graph := some { fn := fn, cq := byteAt b 7, image := image, clusters := cl, stallUs := leAt b 12 4,
                      user := BitVec.ofNat 64 (leAt b 16 8), state := .loaded, stations := sts, queues := qs, pools := full,
                      pausing := none, timed := none, lastMove := s.now, stallOut := false, lastStatus := .ok,
                      lastEvent := 0, haltSt := 0, haltWdi := 0, events := 0 } }

/-- GRAPH_LOAD (R35-R38, R374): the graph is bound whole, or refused at the first offending entry. -/
def opGraphLoad (h : HostHdr) (image : AddrArg) (s : State) : State :=
  let refuse (t : State) (e : Nat × Status) : State := complete t h e.2 (e.1 / 16)
  if image.space ≠ 0 then refuse s (0, .badDescriptor)
  else
    let a := image.addr
    let r := ctrlRead s a 32
    match r.2 with
    | .error e => refuse r.1 (0, e)
    | .ok b =>
      match (freeSlots r.1)[choose (freeSlots r.1).length r.1.free]? with
      | none => refuse r.1 (0, .badDescriptor)
      | some slot =>
        if !headerOk r.1 h.fn b then refuse r.1 (0, .badDescriptor)
        else
          let ns := leAt b 2 2
          let nq := leAt b 4 2
          let np := byteAt b 6
          let cl := BitVec.ofNat 16 (leAt b 8 2)
          let qo := 32 + 16 * ns
          let po := qo + 16 * nq
          let rs := readEntries a 32 (fun t acc e => stationEntry t a cl acc e) ns 0 r.1 []
          match rs.out with
          | .error e => refuse rs.st e
          | .ok sts =>
            let ahead := peekPools rs.st a po np
            let rq := readEntries a qo
              (fun t acc e => if queueOk t sts ahead acc e then some (queueEntry e) else none) nq 0 rs.st []
            match rq.out with
            | .error e => refuse rq.st e
            | .ok qs =>
              let rp := readEntries a po
                (fun t acc e => if poolOk t cl acc e then some (poolEntry e) else none) np 0 rq.st []
              match rp.out with
              | .error e => refuse rp.st e
              | .ok ps =>
                let t := loadInto (tick1 rp.st) slot a h.fn b sts qs ps
                complete t h .ok (gidOf t slot)

def execGraphLoad (h : HostHdr) (image : AddrArg) (s : State) : Host.Outcome State Fault Refusal :=
  hostCmd s h .graph false (opGraphLoad h image)

/-! ### The commands that name a graph -/

def opGraphStart (h : HostHdr) (gid : Half) (startAt : Dword) (s : State) : State :=
  slotCmd s h 0x02 (gid.toNat % 64) (.start gid startAt)

/-- GRAPH_START (R39, R378). -/
def execGraphStart (h : HostHdr) (gid : Half) (startAt : Dword) (s : State) : Host.Outcome State Fault Refusal :=
  hostCmd s h .graph false (opGraphStart h gid startAt)

/-- A timed start's instant, or the loss of alignment (R378). -/
def execTimedStartFire (slot : Nat) (s : State) : Host.Outcome State Fault Refusal :=
  onUnit slot 64 "graph slot" (timedFire s slot)

def opGraphPause (h : HostHdr) (gid : Half) (s : State) : State := slotCmd s h 0x03 (gid.toNat % 64) (.pause gid)

/-- GRAPH_PAUSE (R39, R40). -/
def execGraphPause (h : HostHdr) (gid : Half) (s : State) : Host.Outcome State Fault Refusal :=
  hostCmd s h .graph true (opGraphPause h gid)

/-- Every station has stopped: PAUSED (R40). -/
def execGraphPauseDone (slot : Nat) (s : State) : Host.Outcome State Fault Refusal :=
  onUnit slot 64 "graph slot" (pauseDone s slot)

def opGraphResume (h : HostHdr) (gid : Half) (s : State) : State := slotCmd s h 0x04 (gid.toNat % 64) (.resume gid)

/-- GRAPH_RESUME (R39, R41, R162). -/
def execGraphResume (h : HostHdr) (gid : Half) (s : State) : Host.Outcome State Fault Refusal :=
  hostCmd s h .graph false (opGraphResume h gid)

def opGraphUnload (h : HostHdr) (gid : Half) (s : State) : State := slotCmd s h 0x05 (gid.toNat % 64) (.unload gid)

/-- GRAPH_UNLOAD (R39). -/
def execGraphUnload (h : HostHdr) (gid : Half) (s : State) : Host.Outcome State Fault Refusal :=
  hostCmd s h .graph true (opGraphUnload h gid)

def opStreamRearm (h : HostHdr) (gid : Half) (station : Nat) (rec : BitVec 128) (s : State) : State :=
  slotCmd s h 0x06 (gid.toNat % 64) (.rearm gid station rec)

/-- STREAM_REARM (R165, R166). -/
def execStreamRearm (h : HostHdr) (gid : Half) (station : Nat) (rec : BitVec 128) (s : State) :
    Host.Outcome State Fault Refusal :=
  hostCmd s h .graph false (opStreamRearm h gid station rec)

/-! ### The progress watchdog (R42) -/

/-- The queue whose waiting pop is longest outstanding; among equal waits the first in the image. (DEDUCED, log 30.) -/
def oldestWait : List Queue → Option (Nat × Nat) → Option (Nat × Nat)
  | [], best => best
  | q :: t, best =>
    match (q.waits.map Prod.snd).min?, best with
    | none, _ => oldestWait t best
    | some w, none => oldestWait t (some (w, q.qid))
    | some w, some b => oldestWait t (if w < b.1 then some (w, q.qid) else some b)

/-- The watchdog's completion names the queue; where no pop waits the spec names none and the QID is free. (DEDUCED, log 30.) -/
def stallReport (s : State) (slot : Nat) (g : Graph) : State :=
  let q := match oldestWait g.queues none with
    | some b => b.2
    | none => (Config.freeWord s.free).toNat % 4096
  graphEvent (modGraph (tick1 s) slot fun x => { x with stallOut := true }) slot 4 .internal 0 q

/-- STALL_US has passed without a move in a RUNNING graph (R42); the watchdog re-arms after the next move. -/
def execStallUsExpiry (slot : Nat) (s : State) : Host.Outcome State Fault Refusal :=
  onUnit slot 64 "graph slot" <|
    match slotGraph s slot with
    | none => s
    | some g =>
      if g.state == .running && decide (g.stallUs ≠ 0 ∧ g.lastMove + 1000 * g.stallUs ≤ s.now) && !g.stallOut then
        stallReport s slot g
      else s

end Sys2Proof.Machine
end

