-- ==== Sys2Proof/Machine/MemLend.lean ====
section
/-! DEFINITION. The memory controllers' own commands: the patrol scrubber (R310), margining (R325), and the lending of memory
(R318-R322). -/

namespace Sys2Proof.Machine

def modMem (s : State) (f : MemCtl → MemCtl) : State := { s with memc := f s.memc }

/-! ### The patrol scrubber (R310) -/

/-- Sectors of a stack that read with an error, rising. (DESIGN CHOICE, log 123.) -/
def stackErrors (s : State) (stack : Nat) : List Nat :=
  ((s.poison ++ s.soft).filter fun k => decide (32 * k / stackBytes = stack)).foldl insertNat []

/-- What has gone wrong in a stack's cells since its last pass: a free value. (DESIGN CHOICE, log 123.) -/
def upsetStack (s : State) (stack : Nat) : State :=
  let sec (k : Nat) : Nat := stack * (stackBytes / 32) + k % (stackBytes / 32)
  tick1 ((Config.cellUpset s.free stack).foldl (fun t p =>
    if p.2 then { t with poison := insertNat t.poison (sec p.1), soft := t.soft.filter fun k => !(k == sec p.1) }
    else if isBad t (sec p.1) then t else { t with soft := insertNat t.soft (sec p.1) }) s)

/-- PATROL_SCRUB: one pass over a stack. 0 in MEM_SCRUB_H disables it; it pauses in self-refresh (R314, R397).
(DESIGN CHOICE, log 123.) -/
def execPatrolScrub (stack : Nat) (s : State) : Host.Outcome State Fault Refusal :=
  onUnit stack 8 "stack" <|
    if (s.pwr.state == .active || s.pwr.state == .withdrawn) && s.memc.scrubH != 0#32 then
      let t := upsetStack s stack
      (stackErrors t stack).foldl readSector t
    else s

/-! ### Margining (R325, Table 14-10) -/

/-- Its conditions: no lock yet, no graph loaded, no grant VALID. -/
def marginOk (s : State) : Bool :=
  !s.hif.lock && (s.graphs.all fun g => g.graph.isNone) && s.memc.grants.all fun g => !g.valid

/-- A write of MEM_MARGIN_CTL: the RWL fields before the lock, then GO. A GO while a sweep runs starts none. (DESIGN CHOICE, log 124.) -/
def opMarginCtl (value : Word) (s : State) : State :=
  let s1 := if s.hif.lock then s else modMem s fun m => { m with margin := value &&& 0x7FF00000#32 }
  if !value.getLsbD 31 || s.memc.marginGo then s1
  else if marginOk s then
    modMem s1 fun m => { m with marginGo := true, marginResult := 3, marginStack := bits m.margin.toNat 28 3 }
  else modMem s1 fun m => { m with marginResult := 2 }

/-- MEM_MARGIN_CTL. -/
def execMemMarginCtl (value : Word) (s : State) : Host.Outcome State Fault Refusal := whenUp s (opMarginCtl value s)

/-- MARGIN_SWEEP_DONE: the results, and the first 16 MiB of the stack lost (R325): what they hold now is open.
(DESIGN CHOICE, log 124.) -/
def execMarginSweepDone (results : List Half) (s : State) : Host.Outcome State Fault Refusal :=
  if !s.memc.marginGo then .next s
  else
    let a := s.memc.marginStack * stackBytes
    let s1 := tick1 ((memWrite s a (openBytes s 0x1000000)).getD s)
    .next (modMem s1 fun m => { m with
      marginGo := false
      marginResult := 1
      marginRes := (results ++ List.replicate 32 0#16).take 32 })

/-! ### Lend grants (R318, R446, Table 14-6) -/

def grantAt (s : State) (g : Nat) : Grant := s.memc.grants.getD g grantAtThaw

def modGrant (s : State) (g : Nat) (f : Grant → Grant) : State := modMem s fun m => { m with grants := m.grants.modify g f }

def grantFrame (g : Grant) : Nat := 1024 * g.fsizeK

/-- The fields a write of the whole register gives. -/
def grantFields (g : Grant) (hi lo : Nat) : Grant :=
  { g with base := bits hi 16 48, count := bits lo 56 8 + 256 * bits hi 0 16, borrower := bits lo 40 16, fsizeK := bits lo 16 16,
           wr := bit lo 3, rd := bit lo 2 }

/-- The stated ranges, and frames that lie in direct HBM. (DEDUCED, log 125.) -/
def grantOk (g : Grant) : Bool :=
  [8, 16, 32, 64, 128, 256, 512, 1024, 2048, 4096, 8192].contains g.fsizeK && decide (1 ≤ g.count)
    && g.base % grantFrame g == 0 && inHbm g.base (g.count * grantFrame g)

/-- The present upper word, as a read gives it. -/
def grantHi (g : Grant) : Nat := g.base * 2 ^ 16 + g.count / 256 % 2 ^ 16

/-- Word 0 is written: the whole register is checked and applied (R440, R446). (DEDUCED, log 125.) -/
def grantCommit (g : Grant) (lo : Nat) : Grant :=
  let g1 := { g with held := none }
  if g.valid then
    { g1 with revoke := g.revoke || bit lo 1, valid := bit lo 0 }
  else
    let n := grantFields g1 ((g.held.map fun v => v.toNat).getD (grantHi g)) lo
    if !bit lo 0 || g.revoke then n
    else if grantOk n then { n with valid := true, gen := (g.gen + 1) % 256, revoke := bit lo 1 }
    else g1

def opLendGrant (grant word : Nat) (value : Dword) (s : State) : State :=
  modGrant s grant fun g => if word = 0 then grantCommit g value.toNat else { g with held := some value }

/-- MEM_LEND_GRANT: the other word is held (R440). -/
def execMemLendGrant (grant word : Nat) (value : Dword) (s : State) : Host.Outcome State Fault Refusal :=
  if 16 ≤ grant ∨ 2 ≤ word then .refused (.noSuchUnit "lend grant") else whenUp s (opLendGrant grant word value s)

/-- REVOKE: new requests are refused. (DEDUCED, log 125.) -/
def execRevoke (grant : Nat) (s : State) : Host.Outcome State Fault Refusal :=
  if 16 ≤ grant then .refused (.noSuchUnit "lend grant")
  else whenUp s (modGrant s grant fun g => { g with revoke := g.revoke || g.valid })

/-- REVOKE_DONE: no accepted request remains (each is served in its own step), so REVOKE and VALID clear. (DEDUCED, log 125.) -/
def execRevokeDone (grant : Nat) (s : State) : Host.Outcome State Fault Refusal :=
  if 16 ≤ grant then .refused (.noSuchUnit "lend grant")
  else .next (modGrant s grant fun g => if g.revoke then { g with revoke := false, valid := false } else g)

/-! ### The lender (R321) -/

/-- The answer to a request (Table 14-8). (DEDUCED, log 126.) -/
def lendAnswer (s : State) (die : Nat) (p : LendReqPkt) (st : Status) (payload : Bytes) : State :=
  let kw := leBytes 1 p.op ++ leBytes 1 (statusCode st) ++ leBytes 2 0 ++ leBytes 4 0 ++ leBytes 4 p.offset ++ leBytes 2 p.rlen
    ++ leBytes 2 p.rid
  sendPacket s die (newPacket s 0x21 p.src p.tag kw payload)

/-- The conditions that refuse a request with PAGE_FAULT do not hold. (DEDUCED, log 126.) -/
def lendAllowed (g : Grant) (p : LendReqPkt) : Bool :=
  g.valid && !g.revoke && p.gen == g.gen && p.src == g.borrower && (if p.op = 1 then g.rd else p.op == 2 && g.wr)
    && decide (p.frame < g.count) && decide (p.offset + p.rlen ≤ grantFrame g) && decide (p.rlen ≤ 4096)
    && (p.op == 1 || p.payload.length == p.rlen)

/-- DEDUCED, log 126. -/
def opLendReq (die : Nat) (p : LendReqPkt) (s : State) : State :=
  match s.pwr.state with
  | .hold => lendAnswer s die p .thermalHold []
  | .withdrawn => lendAnswer s die p .memberWithdrawn []
  | .active =>
    let g := grantAt s p.grant
    let a := g.base + p.frame * grantFrame g + p.offset
    if !lendAllowed g p then lendAnswer s die p .pageFault []
    else if p.op = 1 then
      let r := memRead s a p.rlen
      match r.2 with
      | .ok b => lendAnswer r.1 die p .ok b
      | .bad _ b => lendAnswer r.1 die p .pagePoisoned b
      | .hole => lendAnswer r.1 die p .pageFault []
    else
      match memWrite s a p.payload with
      | some t => lendAnswer t die p .ok []
      | none => lendAnswer s die p .pageFault []
  | _ => s

/-- LEND_REQ: outside ACTIVE, HOLD and WITHDRAWN no packet is served. -/
def execLendReq (die : Nat) (pkt : LendReqPkt) (s : State) : Host.Outcome State Fault Refusal :=
  onUnit die 2 "die" (opLendReq die pkt s)

/-! ### The borrower (R319, R320, R322) -/

/-- The die whose lend engine runs a copy: the one that holds LOCAL. -/
def lendDie (a : Nat) : Nat :=
  match placeOf a with
  | .hbm k => k / 4
  | .sram c => c / 8

/-- A lend-copy record (Table 14-7). -/
def lendCopyOf (num : Nat) (cmd : Option (Nat × HostHdr)) (recAddr : Option Nat) (b : Bytes) : LendCopy :=
  let a := leAt b 24 6
  { num := num, die := lendDie a, cmd := cmd, recAddr := recAddr, put := byteAt b 0 == 1, grant := byteAt b 1 % 16,
    gen := byteAt b 2, lender := leAt b 4 2, frame := leAt b 8 3, offset := leAt b 12 4, length := leAt b 16 4,
    timeoutUs := leAt b 20 4, local_ := a, nextOff := 0, nextRid := 0, outst := [] }

/-- Reserved fields, DIR, the stated ranges, and LOCAL. (DEDUCED, log 127.) -/
def lendRecOk (b : Bytes) : Bool :=
  decide (byteAt b 0 ≤ 1) && byteAt b 1 / 16 == 0 && leAt b 6 2 == 0 && byteAt b 11 == 0 && leAt b 12 4 % 32 == 0
    && leAt b 16 4 % 32 == 0 && decide (32 ≤ leAt b 16 4) && leAt b 20 4 != 0 && leAt b 30 2 == 0 && allZero (sub b 32 32)
    && localOk (leAt b 24 6) (leAt b 16 4)

def findCopy (s : State) (die num : Nat) : Option LendCopy := s.memc.copies.find? fun c => c.die == die && c.num == num

def modCopy (s : State) (num : Nat) (f : LendCopy → LendCopy) : State :=
  modMem s fun m => { m with copies := m.copies.map fun c => if c.num == num then f c else c }

/-- The outcome reported: the STATUS of a posted record, the completion of a command. (DEDUCED, log 127.) -/
def lendReport (s : State) (cmd : Option (Nat × HostHdr)) (recAddr : Option Nat) (st : Status) : State :=
  let s1 := match recAddr with
    | some a => (memWrite s (a + 3) [BitVec.ofNat 8 (statusCode st)]).getD s
    | none => s
  wheyAnswer s1 cmd st

/-- A copy ends. A failed GET leaves the bytes at LOCAL open (R322). (DEDUCED, log 127.) -/
def lendEnd (s : State) (c : LendCopy) (st : Status) : State :=
  let s1 := modMem s fun m => { m with copies := m.copies.filter fun x => !(x.num == c.num) }
  let s2 := if st == .ok || c.put then s1
    else tick1 ((memWrite s1 c.local_ (openBytes s1 c.length)).getD s1)
  lendReport s2 c.cmd c.recAddr st

/-- One request of a copy (R319, R320): what it sends, or the end of a PUT whose source is uncorrectable. (DEDUCED, log 127.) -/
def lendSend (s : State) (c : LendCopy) : State :=
  let n := min 4096 (c.length - c.nextOff)
  let kw := leBytes 1 (if c.put then 2 else 1) ++ leBytes 1 c.grant ++ leBytes 1 c.gen ++ leBytes 1 0 ++ leBytes 4 c.frame
    ++ leBytes 4 (c.offset + c.nextOff) ++ leBytes 2 n ++ leBytes 2 c.nextRid
  let next (t : State) : State := modCopy t c.num fun x => { x with
    nextOff := c.nextOff + n
    nextRid := (c.nextRid + 1) % 65536
    outst := c.outst ++ [⟨c.nextRid, c.nextOff, n, t.now⟩] }
  if c.put then
    let r := memRead s (c.local_ + c.nextOff) n
    match r.2 with
    | .ok b => next (sendPacket r.1 c.die (newPacket s 0x20 c.lender (BitVec.ofNat 32 c.num) kw b))
    | .bad _ _ => lendEnd r.1 c .pagePoisoned
    | .hole => lendEnd r.1 c .badDescriptor
  else next (sendPacket s c.die (newPacket s 0x20 c.lender (BitVec.ofNat 32 c.num) kw []))

/-- A die's engine issues requests, oldest copy first, while fewer than 64 are outstanding. -/
def lendPump (die : Nat) : Nat → State → State
  | 0, s => s
  | n + 1, s =>
    let mine := s.memc.copies.filter fun c => c.die == die
    if 64 ≤ (mine.map fun c => c.outst.length).sum then s
    else
      match mine.find? fun c => decide (c.nextOff < c.length) with
      | none => s
      | some c => lendPump die n (lendSend s c)

/-- More rounds than 64 outstanding requests and the copies that could end at once take. -/
def lendFill (s : State) (die : Nat) : State := lendPump die (65 + s.memc.copies.length) s

/-- A record reaches the lend engines. -/
def lendSubmit (s : State) (a : AddrArg) (cmd : Option (Nat × HostHdr)) : State :=
  let post := if cmd.isSome then none else some a.addr
  let r := argRead s a 64
  match r.2 with
  | .error e => lendReport r.1 cmd post e
  | .ok b =>
    if !lendRecOk b then lendReport r.1 cmd post .badDescriptor
    else
      let c := lendCopyOf r.1.memc.nextCopy.toNat cmd post b
      lendFill (modMem r.1 fun m => { m with nextCopy := m.nextCopy + 1, copies := m.copies ++ [c] }) c.die

def opLendCopy (h : HostHdr) (rec : AddrArg) (s : State) : State :=
  let q := startCmd s h 0x31
  lendSubmit q.1 rec (some (q.2, h))

/-- LEND_COPY. -/
def execLendCopy (h : HostHdr) (rec : AddrArg) (s : State) : Host.Outcome State Fault Refusal :=
  hostCmd s h .data false (opLendCopy h rec)

/-- MEM_LEND_POST: the record lies in module memory. -/
def execMemLendPost (cluster addr : Nat) (s : State) : Host.Outcome State Fault Refusal :=
  if 16 ≤ cluster then .refused (.noSuchUnit "cluster") else whenUp s (lendSubmit s ⟨0, addr % 2 ^ 48⟩ none)

/-- A response that answers an outstanding request of its copy. -/
def lendMatches (c : LendCopy) (k : LendPart) (p : LendRspPkt) : Bool :=
  k.rid == p.rid && p.op == (if c.put then 2 else 1) && p.offset == c.offset + k.off && p.rlen == k.len
    && (c.put || !statusFine p.status || decide (k.len ≤ p.payload.length))

/-- DEDUCED, log 127. -/
def opLendRsp (die : Nat) (p : LendRspPkt) (s : State) : State :=
  match findCopy s die p.tag.toNat with
  | none => s
  | some c =>
    match c.outst.find? fun k => lendMatches c k p with
    | none => s
    | some k =>
      if p.status != .ok then lendFill (lendEnd s c p.status) die
      else
        let s1 := if c.put then s else (memWrite s (c.local_ + k.off) (p.payload.take k.len)).getD s
        let rest := c.outst.filter fun x => !(x.rid == k.rid)
        let s2 := modCopy s1 c.num fun x => { x with outst := rest }
        if rest.isEmpty && decide (c.length ≤ c.nextOff) then lendFill (lendEnd s2 c .ok) die else lendFill s2 die

/-- LEND_RSP: a response to a copy that has ended is discarded. -/
def execLendRsp (die : Nat) (pkt : LendRspPkt) (s : State) : Host.Outcome State Fault Refusal :=
  onUnit die 2 "die" (opLendRsp die pkt s)

/-- LEND_TIMEOUT: a request whose response has not come within TIMEOUT_US ends its copy. -/
def execLendTimeout (die copy : Nat) (s : State) : Host.Outcome State Fault Refusal :=
  onUnit die 2 "die" <|
    match findCopy s die copy with
    | none => s
    | some c =>
      if c.outst.any fun k => decide (k.sentAt + 1000 * c.timeoutUs ≤ s.now) then
        lendFill (lendEnd s c .memberWithdrawn) die
      else s

end Sys2Proof.Machine
end

