-- ==== Sys2Proof/Machine/Walk.lean ====
section
/-! DEFINITION. WALK operations: ATTEND, PREPARE, EXTEND, KV_COMMIT, FORK, TRUNCATE, RELEASE, SCORE, FREEZE, UNFREEZE
(chapter 9; R186-R189, R218, R224). -/

namespace Sys2Proof.Machine

/-! ### The descriptor and the frame of every operation (R197, R198) -/

/-- A WALK work descriptor (Table 9-5). -/
structure WalkDesc where
  op     : Nat
  notify : Bool
  seqid  : Nat
  layer0 : Nat
  layers : Nat
  pos    : Nat
  count  : Nat
  rec_   : Nat
  tag    : Half
  resOk  : Bool
  deriving DecidableEq, Repr

def walkDescOf (b : Bytes) : WalkDesc :=
  { op := byteAt b 0, notify := bit (byteAt b 1) 0, seqid := leAt b 4 4, layer0 := leAt b 8 2, layers := leAt b 10 2,
    pos := leAt b 12 4, count := leAt b 16 4, rec_ := leAt b 24 6, tag := BitVec.ofNat 16 (leAt b 32 2),
    resOk := byteAt b 1 / 4 == 0 && leAt b 2 2 == 0 && leAt b 4 4 / 2 ^ 20 == 0 && leAt b 20 4 == 0 && leAt b 30 2 == 0
      && allZero (sub b 34 30) }

/-- An operation code of Table 9-6. -/
def walkOpOk (op : Nat) : Bool := decide (1 ≤ op ∧ op ≤ 0xD)

/-- How an attempt at an operation ends. -/
inductive Walked where
  | wait (s : State)                            -- it waits and is tried again
  | done (s : State) (st : Status)              -- it completes with OK or EMPTY
  | halt (s : State) (st : Status)              -- it completes with an error; the position stays at the descriptor
  | skip (s : State) (st : Status)              -- the same, and GRAPH_RESUME goes on with the next descriptor

/-- The station waits before its operation goes on. (DESIGN CHOICE, log 7.) -/
def walkWait (s : State) (b : Bound) : State :=
  modStation s b.slot b.idx fun x => { x with wait := some (x.wait.getD s.now) }

/-- The end of an attempt: the descriptor's completion, or its halt (R41, R43). (DEDUCED, log 82.) -/
def walkEnd (b : Bound) (d : WalkDesc) : Walked → State
  | .wait s => walkWait s b
  | .done s st =>
    let s1 := modStation s b.slot b.idx fun x => { x with wait := none }
    settle (advance (notifyEvent s1 b d.notify st) b) b.slot
  | .halt s st => haltStation (endReader (modStation s b.slot b.idx fun x => { x with wait := none }) b) b st
  | .skip s st =>
    let s0 := notifyEvent (modStation s b.slot b.idx fun x => { x with wait := none }) b d.notify st
    let s1 := haltCore s0 b.slot b.idx st
    settle (endReader (modStation s1 b.slot b.idx fun x => { x with wdi := x.wdi + 1, sub := 0 }) b) b.slot

/-- The operation in progress of a WALK station. -/
def walkBusy (s : State) (b : Bound) : Bool :=
  b.st.wait.isSome || s.kvc.readers.any fun r => r.station == (b.slot, b.idx) && r.running

/-- A WALK command: the station's current descriptor, when it names that operation (R197, R402). -/
def walkCmd (cluster op : Nat) (run : Bound → WalkDesc → State → Walked) (s : State) : Host.Outcome State Fault Refusal :=
  onUnit cluster 16 "cluster" <|
    match bound s .walk cluster with
    | none => s
    | some b =>
      if b.st.workN ≤ b.st.wdi || !(mayStart s b || (mayFinish s b && walkBusy s b)) then s
      else
        let r := ctrlRead s (wdAddr b 64) 64
        match r.2 with
        | .error e => haltStation r.1 b e
        | .ok v =>
          let d := walkDescOf v
          if !d.resOk || !walkOpOk d.op then haltStation r.1 b .badDescriptor
          else if d.op = op then walkEnd b d (run b d r.1)
          else s

/-- The operation may take the locks of `seqs`: no commit of another cluster runs on them, and nothing that waits for one of
them came before it (R198). (DEDUCED, log 76.) -/
def lockFree (s : State) (seqs : List Nat) (cluster : Nat) : Bool :=
  seqs.all fun q =>
    !(s.kvc.committing.any fun c => c.1 == q && c.2 != cluster)
      && (match s.kvc.lockQ.find? fun l => l.1 == q with
          | some l => l.2 == cluster
          | none => true)

/-- A locked operation: it waits for its locks in the order of acceptance, then runs (R198). It reads KVC_EPOCH before any
entry (R204). An operation that waits for a move to end, or on a FROZEN sequence, holds no lock meanwhile. (DEDUCED, log 76.) -/
def locked (b : Bound) (seqs : List Nat) (run : State → Walked) (s : State) : Walked :=
  let c := b.st.unit
  let s1 := startReader s b c none
  if lockFree s1 seqs c then
    run { s1 with kvc := { s1.kvc with lockQ := s1.kvc.lockQ.filter fun l => !(l.2 == c) } }
  else
    let add := seqs.filter fun q => !(s1.kvc.lockQ.contains (q, c))
    .wait { s1 with kvc := { s1.kvc with lockQ := s1.kvc.lockQ ++ add.map fun q => (q, c) } }

/-- How work on one page ends. -/
inductive Paged where
  | ok (s : State) (bad : Bool)       -- bad: a copy read an uncorrectable sector (R464)
  | wait (s : State) (bad : Bool)
  | err (s : State) (st : Status)

/-- Work on pages in order. -/
def pages {α : Type} (f : State → α → Paged) : State → Bool → List α → Paged
  | s, bad, [] => .ok s bad
  | s, bad, x :: t =>
    match f s x with
    | .ok s1 b1 => pages f s1 (bad || b1) t
    | .wait s1 b1 => .wait s1 (bad || b1)
    | .err s1 e => .err s1 e

/-- The layers of a descriptor, refused beyond the sequence's. (DEDUCED, log 72.) -/
def layersOf (d : WalkDesc) (r : SeqRec) : Option (List Nat) :=
  if d.layer0 + d.layers ≤ r.nlayer then some ((List.range d.layers).map fun i => d.layer0 + i) else none

/-- Every pair of a layer and a page. -/
def layerPages {α : Type} (layers : List Nat) (ps : List α) : List (Nat × α) :=
  (layers.map fun l => ps.map fun p => (l, p)).flatten

/-! ### Copies (R200, R464) -/

/-- Bytes copied sector by sector: an uncorrectable source sector leaves the destination's marked (R464). -/
def copySectors (s : State) (src dst n : Nat) : State × Bool :=
  let r := memRead s src n
  let bad := (List.range ((n + 31) / 32)).filter fun i => isBad s (directD (src + 32 * i) / 32)
  match r.2 with
  | .hole => (r.1, false)
  | _ =>
    let s1 := (memWrite r.1 dst (gotBytes r.2)).getD r.1
    (bad.foldl (fun t i => markBad t (dst + 32 * i) 32) s1, !bad.isEmpty)

/-- A page made writable (R200): its entry as it then stands, or why not. -/
inductive Writable where
  | wait
  | err (s : State) (st : Status)
  | ok (s : State) (p : Pte) (bad : Bool)

/-- The cases of R200 in order. (DESIGN CHOICE, log 77.) -/
def makeWritable (s : State) (r : SeqRec) (layer pti : Nat) : Writable :=
  let q := readPte s r layer pti
  match q.2 with
  | .error e => .err q.1 e
  | .ok x =>
    let p := x.pte
    if isEmptyPte p then
      match takeFrame q.1 r.ppool (pageBytes r) with
      | .wait => .wait
      | .err t e => .err t e
      | .ok t f =>
        let p1 : Pte := ⟨0, 1, 0, false, false, r.ppool, f, true⟩
        let t1 := writePte t x.addr p1
        .ok ((memWrite t1 x.score (leBytes 4 (curveAt t1 r.curve 0))).getD t1) p1 false
    else if inTransit p then .wait
    else if !plainResident p then .err q.1 .pageFault
    else if !p.share then .ok q.1 p false
    else if !frameOk q.1 p.pool p.loc then .err q.1 .badDescriptor
    else
      match takeFrame q.1 r.ppool (pageBytes r) with
      | .wait => .wait
      | .err t e => .err t e
      | .ok t f =>
        let c := copySectors t (frameAddr t p.pool p.loc) (frameAddr t r.ppool f) (pageBytes r)
        let p1 := { p with share := false, pool := r.ppool, loc := f }
        let d := dropFrame (writePte c.1 x.addr p1) p.pool p.loc
        match d.2 with
        | some e => .err d.1 e
        | none => .ok d.1 p1 c.2

/-! ### PREPARE and EXTEND (R200, R463) -/

/-- The pages that cover [pos, pos + count), or the status that refuses them (R193, R419). -/
def coverPages (r : SeqRec) (pos count : Nat) : Except Status (List Nat) :=
  if 0xFFFFFFFF < pos + count then .error .shapeOver
  else
    let ps := (List.range count).map fun i => locate r (pos + i)
    match ps.findSome? fun x => match x with | .error e => some e | .ok _ => none with
    | some e => .error e
    | none => .ok (dedup (ps.filterMap fun x => match x with | .ok y => some y.1 | .error _ => none))
where
  /-- Repeats that follow one another dropped. -/
  dedup : List Nat → List Nat
    | x :: y :: t => if x = y then dedup (y :: t) else x :: dedup (y :: t)
    | l => l

/-- One page of PREPARE. (DESIGN CHOICE, log 77.) -/
def preparePage (r : SeqRec) (s : State) (lp : Nat × Nat) : Paged :=
  match makeWritable s r lp.1 lp.2 with
  | .wait => .wait s false
  | .err t e => .err t e
  | .ok t _ bad => .ok t bad

/-- DEDUCED, log 73; DESIGN CHOICE, log 77. -/
def runPrepare (b : Bound) (d : WalkDesc) (s : State) : Walked :=
  if d.layers = 0 then .done s .empty
  else
    locked b [d.seqid] (fun s =>
      let q := readSeq s d.seqid
      match q.2 with
      | .error e => .halt q.1 e
      | .ok r =>
        if r.frozen then .wait s
        else
          match layersOf d r, coverPages r d.pos d.count with
          | none, _ => .halt q.1 .badDescriptor
          | _, .error e => .halt q.1 e
          | some ls, .ok ps =>
            match pages (preparePage r) q.1 false (layerPages ls ps) with
            | .err t e => .halt t e
            | .wait t bad => .wait (if bad then modStation t b.slot b.idx fun x => { x with sub := 1 } else t)
            | .ok t bad => if bad || b.st.sub ≠ 0 then .skip t .pagePoisoned else .done t .ok) s

/-- PREPARE. -/
def execPrepare (cluster : Nat) (s : State) : Host.Outcome State Fault Refusal := walkCmd cluster 0x02 runPrepare s

def runExtend (b : Bound) (d : WalkDesc) (s : State) : Walked :=
  locked b [d.seqid] (fun s =>
    let q := readSeq s d.seqid
    match q.2 with
    | .error e => .halt q.1 e
    | .ok r =>
      if d.pos < seqLength r then .halt q.1 .badDescriptor
      else if d.pos = seqLength r then .done q.1 .ok
      else
        match locateIn r r.tail (d.pos - 1) with
        | .error e => .halt q.1 e
        | .ok _ => .done (writeSeq q.1 d.seqid (setLength r d.pos)) .ok) s

/-- EXTEND. -/
def execExtend (cluster : Nat) (s : State) : Host.Outcome State Fault Refusal := walkCmd cluster 0x03 runExtend s

/-! ### TRUNCATE, RELEASE and freeing (R202, R203, R205) -/

/-- Page-table indices of the tail span whose first position is at or above `pos`, up to the span's bound. (DEDUCED, log 78.) -/
def tailPages (r : SeqRec) (pos : Nat) : List Nat :=
  let sp := spanOf r r.tail
  let k := (pos - sp.1 + pageSize r - 1) / pageSize r
  (List.range (sp.2.2 - (sp.2.1 + k))).map fun i => sp.2.1 + k + i

/-- A page that a move holds: TRUNCATE and RELEASE wait for it (R205). -/
def moving (s : State) (r : SeqRec) (lp : Nat × Nat) : Bool :=
  match (readPte s r lp.1 lp.2).2 with
  | .ok x => inTransit x.pte
  | .error _ => false

/-- Entries in host memory or the Whey store among the pages: what a return list will hold (R202). -/
def ownedLocs (s : State) (r : SeqRec) (lps : List (Nat × Nat)) : List Nat :=
  lps.filterMap fun lp => match (readPte s r lp.1 lp.2).2 with
    | .ok x => if x.pte.state = 1 && (x.pte.tier = 1 || x.pte.tier = 2) then some x.pte.loc else none
    | .error _ => none

/-- One page freed: its entry EMPTY, an HBM frame let go (R203), also the source frame of a page on the move, for which only a
commit does not wait (R187). (DEDUCED, log 79.) -/
def freePage (r : SeqRec) (s : State) (lp : Nat × Nat) : Paged :=
  let q := readPte s r lp.1 lp.2
  match q.2 with
  | .error e => .err q.1 e
  | .ok x =>
    if isEmptyPte x.pte then .ok q.1 false
    else
      let s1 := writePte q.1 x.addr emptyPte
      if resident x.pte || (x.pte.tier == 0 && inTransit x.pte) then
        let d := dropFrame s1 x.pte.pool x.pte.loc
        match d.2 with
        | some e => .err d.1 e
        | none => .ok d.1 false
      else .ok s1 false

/-- The return list at REC: a count and the LOCs (R202). -/
def returnList (locs : List Nat) : Bytes := leBytes 4 locs.length ++ (locs.map (leBytes 8)).flatten

/-- Pages freed with their return list; it waits while a move holds one of them, and REC must name writable memory.
(DESIGN CHOICE, log 80.) -/
def freeWithList (d : WalkDesc) (r : SeqRec) (lps : List (Nat × Nat)) (fin : State → State) (s : State) : Walked :=
  if lps.any (moving s r) then .wait s
  else
    let locs := ownedLocs s r lps
    if !spanOk d.rec_ (4 + 8 * locs.length) then .halt s .badDescriptor
    else
      match pages (freePage r) s false lps with
      | .err t e => .halt t e
      | .wait t _ => .wait t
      | .ok t _ => .done ((memWrite (fin t) d.rec_ (returnList locs)).getD (fin t)) .ok

def runTruncate (b : Bound) (d : WalkDesc) (s : State) : Walked :=
  locked b [d.seqid] (fun s =>
    let q := readSeq s d.seqid
    match q.2 with
    | .error e => .halt q.1 e
    | .ok r =>
      if d.pos < (spanOf r r.tail).1 then .halt q.1 .badDescriptor
      else
        freeWithList d r (layerPages (List.range r.nlayer) (tailPages r d.pos))
          (fun t => if d.pos < seqLength r then writeSeq t d.seqid (setLength r d.pos) else t) q.1) s

/-- TRUNCATE. -/
def execTruncate (cluster : Nat) (s : State) : Host.Outcome State Fault Refusal := walkCmd cluster 0x06 runTruncate s

def runRelease (b : Bound) (d : WalkDesc) (s : State) : Walked :=
  locked b [d.seqid] (fun s =>
    let q := readSeq s d.seqid
    match q.2 with
    | .error e => .halt q.1 e
    | .ok r =>
      freeWithList d r (layerPages (List.range r.nlayer) (List.range r.ptCap))
        (fun t => writeSeq t d.seqid { r with valid := false }) q.1) s

/-- RELEASE. -/
def execRelease (cluster : Nat) (s : State) : Host.Outcome State Fault Refusal := walkCmd cluster 0x07 runRelease s

/-! ### FREEZE and UNFREEZE (R218) -/

def runFreeze (v : Bool) (b : Bound) (d : WalkDesc) (s : State) : Walked :=
  locked b [d.seqid] (fun s =>
    let q := readSeq s d.seqid
    match q.2 with
    | .error e => .halt q.1 e
    | .ok r => .done (writeSeq q.1 d.seqid { r with frozen := v }) .ok) s

/-- FREEZE sets FROZEN. -/
def execFreeze (cluster : Nat) (s : State) : Host.Outcome State Fault Refusal := walkCmd cluster 0x0C (runFreeze true) s

/-- UNFREEZE clears FROZEN. -/
def execUnfreeze (cluster : Nat) (s : State) : Host.Outcome State Fault Refusal := walkCmd cluster 0x0D (runFreeze false) s

/-! ### FORK (R201) -/

/-- The two records agree where R201 asks it. -/
def forkMatch (a b : SeqRec) : Bool :=
  a.nlayer == b.nlayer && a.hdim == b.hdim && a.hkv == b.hkv && a.pexp == b.pexp && a.cfmt == b.cfmt
    && a.s0Start == b.s0Start && a.s1Start == b.s1Start && a.s1Pti == b.s1Pti

/-- Held pages that begin below `pos`. -/
def pagesBelow (r : SeqRec) (pos : Nat) : List Nat := (spanPages r).filterMap fun p => if p.2.1 < pos then some p.1 else none

/-- What the checks of R201 find over the pages in order. -/
inductive ForkCheck where
  | wait
  | err (st : Status)
  | ok
  deriving DecidableEq

def forkDst (s : State) (r : SeqRec) (lps : List (Nat × Nat)) : Option Status :=
  lps.findSome? fun lp => match (readPte s r lp.1 lp.2).2 with
    | .error e => some e
    | .ok x => if isEmptyPte x.pte then none else some .badDescriptor

def forkSrc (s : State) (r : SeqRec) (lps : List (Nat × Nat)) : ForkCheck :=
  lps.foldl (fun a lp => if a == .ok then (match (readPte s r lp.1 lp.2).2 with
    | .error e => .err e
    | .ok x => if inTransit x.pte then .wait else if plainResident x.pte then .ok else .err .pageFault) else a) .ok

/-- A REF would pass 2^31 − 1, or names no frame. -/
def forkRefs (s : State) (r : SeqRec) (lps : List (Nat × Nat)) : Bool :=
  lps.any fun lp => match (readPte s r lp.1 lp.2).2 with
    | .error _ => true
    | .ok x => !frameOk s x.pte.pool x.pte.loc || decide (2147483647 ≤ refCount s x.pte.pool x.pte.loc)

/-- One page shared (R201 steps 1 to 3). -/
def forkPage (src dst : SeqRec) (s : State) (lp : Nat × Nat) : Paged :=
  let a := readPte s src lp.1 lp.2
  match a.2 with
  | .error e => .err a.1 e
  | .ok x =>
    let c := readPte a.1 dst lp.1 lp.2
    match c.2 with
    | .error e => .err c.1 e
    | .ok y =>
      let p := { x.pte with share := true }
      let r := refAdd (writePte c.1 x.addr p) p.pool p.loc 1
      match r.2 with
      | .error e => .err r.1 e
      | .ok _ =>
        let s1 := writePte r.1 y.addr p
        let sc := memRead s1 x.score 4
        .ok ((memWrite sc.1 y.score (gotBytes sc.2)).getD sc.1) false

def runFork (b : Bound) (d : WalkDesc) (s : State) : Walked :=
  let srcId := d.count % 2 ^ 20
  locked b [min d.seqid srcId, max d.seqid srcId] (fun s =>
    let qd := readSeq s d.seqid
    match qd.2 with
    | .error e => .halt qd.1 e
    | .ok dst =>
      let qs := readSeq qd.1 srcId
      match qs.2 with
      | .error e => .halt qs.1 e
      | .ok src =>
        let lps := layerPages (List.range src.nlayer) (pagesBelow src d.pos)
        if src.frozen || dst.frozen then .wait s
        else if !forkMatch src dst then .halt qs.1 .badDescriptor
        else if heldOver src (fun p => p.2.1 < d.pos) || lps.any fun lp => dst.ptCap ≤ lp.2 then .halt qs.1 .shapeOver
        else
          match forkDst qs.1 dst lps with
          | some e => .halt qs.1 e
          | none =>
            match forkSrc qs.1 src lps with
            | .wait => .wait s
            | .err e => .halt qs.1 e
            | .ok =>
              if forkRefs qs.1 src lps then .halt qs.1 .badDescriptor
              else
                match pages (forkPage src dst) qs.1 false lps with
                | .err t e => .halt t e
                | .wait t _ => .wait t
                | .ok t _ =>
                  .done (writeSeq t d.seqid
                    { dst with s0N := min src.s0N (d.pos - src.s0Start), s1N := min src.s1N (d.pos - src.s1Start),
                               tail := src.tail }) .ok) s

/-- FORK. -/
def execFork (cluster : Nat) (s : State) : Host.Outcome State Fault Refusal := walkCmd cluster 0x05 runFork s

/-! ### KV_COMMIT (R186-R189) -/

/-- A commit record (Table 8-4). -/
structure CommitRec where
  seqid : Nat
  base  : Nat
  c     : Nat
  a     : Nat
  tree  : Nat
  path  : List Nat
  resOk : Bool
  deriving DecidableEq, Repr

/-- DEDUCED, log 81. -/
def commitRecOf (b : Bytes) : CommitRec :=
  let p := leAt b 32 48
  { seqid := leAt b 0 4, base := leAt b 4 4, c := byteAt b 8, a := byteAt b 9, tree := leAt b 16 6,
    path := (List.range 64).map fun i => bits p (6 * i) 6,
    resOk := leAt b 0 4 / 2 ^ 20 == 0 && allZero (sub b 10 6) && leAt b 22 2 == 0 && leAt b 24 8 == 0
      && allZero (sub b 80 16) }

/-- The checks of R187 that need no table. -/
def commitRecOk (r : CommitRec) : Bool :=
  r.resOk && decide (1 ≤ r.c ∧ r.c ≤ 64 ∧ r.a ≤ r.c) && (r.path.drop r.a).all (fun x => x == 0)
    && (r.path.take r.a).all fun x => x < r.c

/-- The accepted path is one chain from a root (R187). -/
def pathOk (r : CommitRec) (tree : Bytes) : Bool :=
  let row (i : Nat) : Nat := leAt tree (8 * i) 8
  let p (i : Nat) : Nat := r.path.getD i 0
  r.a == 0 || (row (p 0) / 2 ^ p 0 / 2 == 0 && row (p 0) % 2 ^ p 0 == 0
    && (List.range (r.a - 1)).all fun i => decide (p i < p (i + 1)) && bit (row (p (i + 1))) (p i))

/-- Moves of R188 step 3: from candidate path[i] to i. -/
def commitMoves (r : CommitRec) : List (Nat × Nat) :=
  (numbered (r.path.take r.a) 0).filterMap fun x => if x.2 = x.1 then none else some (x.2, x.1)

/-- The pages of a slot in the tail span. -/
def slotPage (q : SeqRec) (p : Nat) : Nat × Nat := match locateIn q q.tail p with
  | .ok x => x
  | .error _ => (0, 0)

/-- Every page of a move is resident and plain, in every layer (R187). -/
def commitPages (q : SeqRec) (r : CommitRec) : List (Nat × Nat) :=
  layerPages (List.range q.nlayer)
    (((commitMoves r).map fun m => [(slotPage q (r.base + m.1)).1, (slotPage q (r.base + m.2)).1]).flatten)

def commitReady (s : State) (q : SeqRec) (r : CommitRec) : Option Status :=
  (commitPages q r).findSome? fun lp => match (readPte s q lp.1 lp.2).2 with
    | .error e => some e
    | .ok x => if plainResident x.pte then none else some .pageFault

/-- One row copy of R188: slot BASE + from to slot BASE + to, in one layer, every head, keys and values (R190). -/
def commitRow (q : SeqRec) (r : CommitRec) (s : State) (lm : Nat × (Nat × Nat)) : Paged :=
  let sp := slotPage q (r.base + lm.2.1)
  let dp := slotPage q (r.base + lm.2.2)
  match makeWritable s q lm.1 dp.1 with
  | .wait => .wait s false
  | .err t e => .err t e
  | .ok t p bad =>
    let x := readPte t q lm.1 sp.1
    match x.2 with
    | .error e => .err x.1 e
    | .ok y =>
      let rb := q.hdim * cfmtBytes q.cfmt
      let at_ (base half slot : Nat) : Nat := base + (half * pageSize q + slot) * rb
      let out := (List.range (2 * q.hkv)).foldl (fun (a : State × Bool) half =>
        let c := copySectors a.1 (at_ (frameAddr a.1 y.pte.pool y.pte.loc) half (r.base + lm.2.1 - sp.2))
          (at_ (frameAddr a.1 p.pool p.loc) half (r.base + lm.2.2 - dp.2)) rb
        (c.1, a.2 || c.2)) (x.1, bad)
      .ok out.1 out.2

/-- Descriptors of the sequence that a WALK emitted and that are not yet answered (R188 step 2). -/
def unanswered (s : State) (q : Nat) : Bool :=
  s.kvc.readers.any fun r => r.seqid == some q && !r.bufs.isEmpty

def unmark (s : State) (q c : Nat) : State :=
  { s with kvc := { s.kvc with committing := s.kvc.committing.filter fun x => !(x == (q, c)) } }

/-- Steps 3 to 5 of R188. (DEDUCED, log 79.) -/
def commitRun (c : Nat) (q : SeqRec) (r : CommitRec) (s : State) : Walked :=
  let moves := ((commitMoves r).map fun m => (List.range q.nlayer).map fun l => (l, m)).flatten
  match pages (commitRow q r) s false moves with
  | .err t e => .halt (unmark t r.seqid c) e
  | .wait t _ => .wait t
  | .ok t bad =>
    let s1 := writeSeq t r.seqid (setLength q (r.base + r.a))
    match pages (freePage q) s1 false (layerPages (List.range q.nlayer) (tailPages q (r.base + r.a))) with
    | .err u e => .halt (unmark u r.seqid c) e
    | .wait u _ => .wait u
    | .ok u _ => if bad then .skip (unmark u r.seqid c) .pagePoisoned else .done (unmark u r.seqid c) .ok

/-- The pool that copy-on-write draws from is being initialised. -/
def poolWaits (s : State) (q : SeqRec) : Bool := (poolAt s q.ppool).initBusy

/-- DEDUCED, log 81; DEDUCED, log 82. -/
def runCommit (b : Bound) (d : WalkDesc) (s : State) : Walked :=
  let rr := ctrlRead s d.rec_ 96
  match rr.2 with
  | .error e => .halt rr.1 e
  | .ok rb =>
    let r := commitRecOf rb
    let c := b.st.unit
    if !commitRecOk r then .halt rr.1 .badDescriptor
    else
      locked b [r.seqid] (fun s =>
        let sq := readSeq s r.seqid
        match sq.2 with
        | .error e => .halt sq.1 e
        | .ok q =>
          let tr := if r.a = 0 then (sq.1, Except.ok []) else ctrlRead sq.1 r.tree 512
          match tr.2 with
          | .error e => .halt tr.1 e
          | .ok tree =>
            if r.base ≠ seqLength q || !pathOk r tree then .halt tr.1 .badDescriptor
            else if 0xFFFFFFFF < r.base + r.a then .halt tr.1 .shapeOver
            else
              -- the last path entry is the farthest slot the copies need
              match (if r.a = 0 then Except.ok (0, 0) else locateIn q q.tail (r.base + r.path.getD (r.a - 1) 0)) with
              | .error e => .halt tr.1 e
              | .ok _ =>
                match commitReady tr.1 q r with
                | some e => if e == .pageFault then .skip tr.1 e else .halt tr.1 e
                | none =>
                  if poolWaits s q then .wait s
                  else
                    let s1 := { tr.1 with kvc := { tr.1.kvc with
                      committing := if tr.1.kvc.committing.contains (r.seqid, c) then tr.1.kvc.committing
                                    else tr.1.kvc.committing ++ [(r.seqid, c)] } }
                    if unanswered s1 r.seqid then .wait s1 else commitRun c q r s1) rr.1

/-- KV_COMMIT. -/
def execKvCommit (cluster : Nat) (s : State) : Host.Outcome State Fault Refusal := walkCmd cluster 0x04 runCommit s

/-! ### SCORE (R207) -/

/-- idx of R207 for a ≥ 1. -/
def decayIndex (a : Nat) : Nat := min 63 (2 * Nat.log2 a + (if a = 1 then 0 else bits a (Nat.log2 a - 1) 1))

def countScoreSkip (s : State) : State :=
  let o := s.kvc.scoreSkip
  ctrSat 0x01000344 o (satAdd o 1) { s with kvc := { s.kvc with scoreSkip := satAdd o 1 } }

/-- One entry of a mass tile applied with one copy of the curve table. (DEDUCED, log 84.) -/
def scoreEntry (r : SeqRec) (layer : Nat) (curve : Bytes) (s : State) (e : Nat × Nat) : Paged :=
  if r.ptCap ≤ e.1 then .ok (countScoreSkip s) false
  else
    let q := readPte s r layer e.1
    match q.2 with
    | .error x => .err q.1 x
    | .ok y =>
      if !resident y.pte then .ok (countScoreSkip q.1) false
      else
        let a := max 1 (seqLength r - firstPos r e.1)
        let sc := memRead q.1 y.score 4
        let v := fpFma ctl0 f32 (leNat (gotBytes sc.2)) (leAt curve (32 + 4 * decayIndex a) 4) e.2
        .ok ((memWrite sc.1 y.score (leBytes 4 v.1)).getD sc.1) false

/-- DEDUCED, log 73; DEDUCED, log 84. -/
def runScore (b : Bound) (d : WalkDesc) (s : State) : Walked :=
  if d.layers = 0 then .done s .empty
  else if !portsBound b [0] [] then .halt s .badDescriptor
  else
    let q := readSeq (startReader s b b.st.unit none) d.seqid
    match q.2 with
    | .error e => .halt q.1 e
    | .ok r =>
      if r.nlayer ≤ d.layer0 then .halt q.1 .badDescriptor
      else
        match popHandle q.1 b.slot b.idx 0 with
        | none => .wait (waitInputs q.1 b.slot b.idx [0])
        | some (t, h) =>
          if isEmptyHandle h then .done t .empty
          else if h.status != .ok then .done (release t b.slot b.idx h) .ok
          else
            let m := memRead t h.addr h.bytes
            match m.2 with
            | .hole => .halt (release m.1 b.slot b.idx h) .badDescriptor
            | .bad _ _ => .done (release m.1 b.slot b.idx h) .ok
            | .ok v =>
              let es := (List.range (h.bytes / 8)).map fun i => (leAt v (8 * i) 4, leAt v (8 * i + 4) 4)
              match pages (scoreEntry r d.layer0 (m.1.kvc.curves.getD r.curve [])) m.1 false es with
              | .err u e => .halt (release u b.slot b.idx h) e
              | .wait u _ => .wait u
              | .ok u _ => .done (release u b.slot b.idx h) .ok

/-- SCORE. -/
def execScore (cluster : Nat) (s : State) : Host.Outcome State Fault Refusal := walkCmd cluster 0x08 runScore s

/-! ### ATTEND (R199, R224) -/

/-- The slice of an ATTEND. -/
def sliceOf (d : WalkDesc) (ptCap : Nat) : Nat × Nat :=
  if d.pos = 0 ∧ d.count = 0 then (0, ptCap) else (d.pos, min 0xFFFFFFFF (d.pos + d.count))

/-- A descriptor-tile header (Table 10-3). -/
def tileHeader (d : WalkDesc) (r : SeqRec) (q : Handle) (layer ndesc : Nat) (final : Bool) : Bytes :=
  let sl := sliceOf d r.ptCap
  padTo 64 (leBytes 4 d.seqid ++ leBytes 2 layer ++ leBytes 1 ndesc ++ leBytes 1 (flag final) ++ leBytes 4 sl.1
    ++ leBytes 4 sl.2 ++ leBytes 8 ((q.addr + q.bytes - 32) % 2 ^ 48) ++ leBytes 1 r.hkv ++ leBytes 1 0 ++ leBytes 2 r.hdim)

/-- A page descriptor (Table 10-4). -/
def pageDescBytes (s : State) (r : SeqRec) (pti pos0 end_ : Nat) (p : Pte) : Bytes :=
  leBytes 8 (pteVal p) ++ leBytes 4 pti ++ leBytes 4 pos0
    ++ leBytes 2 (min (pageSize r) (min (end_ - pos0) (seqLength r - pos0)))
    ++ leBytes 1 r.pexp ++ leBytes 1 r.cfmt ++ leBytes 1 r.hkv ++ leBytes 1 0 ++ leBytes 2 r.hdim
    ++ leBytes 8 (frameAddr s p.pool p.loc)

/-- Descriptor tiles of a stack's descriptors: 62 to a tile, the last FINAL. -/
def tilesOf (d : WalkDesc) (r : SeqRec) (q : Handle) (layer port : Nat) (last : Bool) : Nat → List Bytes → List WalkOut
  | 0, _ => []
  | n + 1, ds =>
    let fin := ds.length ≤ 62
    let here := ds.take 62
    ⟨port, some (padTo 2048 (tileHeader d r q layer here.length fin ++ here.flatten)), .ok, last && fin⟩
      :: (if fin then [] else tilesOf d r q layer port last n (ds.drop 62))

/-- The stack that holds an HBM address. -/
def stackOf (a : Nat) : Nat := directD a / stackBytes

/-- The descriptors of a layer by stack, in increasing index (R199). (DEDUCED, log 83.) -/
def walkLayer (s : State) (d : WalkDesc) (r : SeqRec) (layer : Nat) : State × Except Status (List (Nat × Bytes)) :=
  let sl := sliceOf d r.ptCap
  let here (p : Nat × Nat × Nat) : Bool := decide (sl.1 ≤ p.1 ∧ p.1 < sl.2 ∧ p.2.1 < seqLength r)
  if heldOver r here then (s, .error .shapeOver)
  else ((spanPages r).filter here).foldl (fun (a : State × Except Status (List (Nat × Bytes))) p =>
    match a.2 with
    | .error _ => a
    | .ok l =>
      let q := readPte a.1 r layer p.1
      match q.2 with
      | .error e => (q.1, .error e)
      | .ok x =>
        if !resident x.pte then (q.1, .ok l)
        else if !frameOk q.1 x.pte.pool x.pte.loc then (q.1, .error .badDescriptor)
        else
          (q.1, .ok (l ++ [(stackOf (frameAddr q.1 x.pte.pool x.pte.loc), pageDescBytes q.1 r p.1 p.2.1 p.2.2 x.pte)])))
    (s, .ok [])

/-- What a walked layer pushes: tiles for each stack that received descriptors, an empty handle for each other one. -/
def layerOuts (d : WalkDesc) (r : SeqRec) (q : Handle) (layer : Nat) (last : Bool) (ds : List (Nat × Bytes)) : List WalkOut :=
  ((List.range 8).map fun k =>
    let mine := (ds.filter fun x => x.1 == k).map Prod.snd
    if mine.isEmpty then [⟨k, none, .empty, last⟩] else tilesOf d r q layer k last (mine.length / 62 + 1) mine).flatten

/-- What an ATTEND that walks nothing pushes for its layers: empty handles, or tiles that carry the query's status. -/
def quietOuts (d : WalkDesc) (layers : Nat) (tile : Nat → Option Bytes) (st : Status) : List WalkOut :=
  ((List.range layers).map fun i => (List.range 8).map fun k =>
    (⟨k, tile (d.layer0 + i), st, i + 1 == layers⟩ : WalkOut)).flatten

/-- The station's own reader. -/
def readerOf (s : State) (b : Bound) : Option Reader :=
  s.kvc.readers.find? fun r => r.station == (b.slot, b.idx) && r.running

def setReader (s : State) (b : Bound) (f : Reader → Reader) : State :=
  { s with kvc := { s.kvc with readers := s.kvc.readers.map fun r =>
      if r.station == (b.slot, b.idx) && r.running then f r else r } }

/-- How the pushes of an ATTEND go. -/
inductive Flushed where
  | all (s : State)
  | stall (s : State)
  | bad (s : State)

/-- The pushes that wait, in order, as far as there is room. -/
def flushOuts (b : Bound) (d : WalkDesc) : State → List WalkOut → Flushed
  | s, [] => .all s
  | s, o :: t =>
    if !canPush s b.slot b.idx o.port then .stall (setReader s b fun r => { r with out := o :: t })
    else
      match o.body with
      | none => flushOuts b d (emit s b.slot b.idx o.port (emptyHandle d.tag o.last)) t
      | some v =>
        match drawBuffer s b o.port 2048 with
        | .stall => .stall (setReader s b fun r => { r with out := o :: t })
        | .bad => .bad (setReader s b fun r => { r with out := o :: t })
        | .ok s1 pool a =>
          let s2 := readerEmits ((memWrite s1 a v).getD s1) b a
          flushOuts b d (emit s2 b.slot b.idx o.port ⟨o.status, 0, o.last, 0#16, 2048, pool, d.tag, a⟩) t

/-- The ATTEND has pushed all: its query is let go once its tiles are released (R224), and it completes. (DEDUCED, log 82.) -/
def attendEnd (s : State) (b : Bound) : Walked :=
  match readerOf s b with
  | none => .done s .ok
  | some r =>
    let s1 := setReader s b fun x => { x with running := false }
    let s2 := match r.query with
      | some h =>
        if r.bufs.isEmpty then
          release { s1 with kvc := { s1.kvc with readers := s1.kvc.readers.filter fun x =>
            !(x.station == (b.slot, b.idx) && !x.running && x.bufs.isEmpty) } } b.slot b.idx h
        else s1
      | none => s1
    if statusFine r.ends then .done s2 r.ends else .skip s2 r.ends

/-- Layers go on: pushes that wait, then the next layer, then the end. A pause stops before the next layer (R40); a commit in
progress holds a layer back (R188). (DEDUCED, log 83.) -/
def attendGo (b : Bound) (d : WalkDesc) (r : SeqRec) : Nat → State → Walked
  | 0, s => .wait s
  | n + 1, s =>
    match readerOf s b with
    | none => .wait s
    | some rd =>
      match flushOuts b d s rd.out with
      | .stall t => .wait t
      | .bad t => .halt t .badDescriptor
      | .all t =>
        let t1 := setReader t b fun x => { x with out := [] }
        let i := (rebind t1 b).st.sub
        if d.layers ≤ i then attendEnd t1 b
        else if !mayStart t1 (rebind t1 b) || t1.kvc.committing.any (fun c => c.1 == d.seqid) then .wait t1
        else
          let w := walkLayer t1 d r (d.layer0 + i)
          match w.2, rd.query with
          | .error e, _ => .halt w.1 e
          | .ok _, none => .wait w.1
          | .ok ds, some q =>
            let outs := layerOuts d r q (d.layer0 + i) (i + 1 == d.layers) ds
            let t2 := modStation w.1 b.slot b.idx fun x => { x with sub := i + 1 }
            attendGo b d r n (setReader t2 b fun x => { x with out := outs })

/-- An ATTEND takes its query and settles what it will do (R199). -/
def attendStart (b : Bound) (d : WalkDesc) (rec_ : Option SeqRec) (s : State) : Walked :=
  match popHandle s b.slot b.idx 0 with
  | none => .wait (waitInputs s b.slot b.idx [0])
  | some (t, h) =>
    let t1 := startReader t b b.st.unit (some d.seqid)
    let quiet (tile : Nat → Option Bytes) (st ends : Status) : Walked :=
      let n := max 1 d.layers
      let t2 := modStation t1 b.slot b.idx fun x => { x with sub := d.layers }
      let t3 := setReader t2 b fun x => { x with query := some h, out := quietOuts d n tile st, ends := ends }
      attendGo b d (rec_.getD (seqRecOf [])) 2 t3
    match rec_ with
    | none => quiet (fun _ => none) .empty .empty
    | some r =>
      if r.frozen then quiet (fun _ => none) .empty .pageFault
      else if isEmptyHandle h then quiet (fun _ => none) .empty .empty
      else if h.status != .ok then quiet (fun l => some (padTo 2048 (tileHeader d r h l 0 true))) h.status .ok
      else attendGo b d r (d.layers + 2) (setReader t1 b fun x => { x with query := some h })

/-- DEDUCED, log 73; DEDUCED, log 83. -/
def runAttend (b : Bound) (d : WalkDesc) (s : State) : Walked :=
  if !portsBound b [0] (List.range 8) then .halt s .badDescriptor
  else
    match readerOf s b with
    | some rd =>
      if d.layers ≤ b.st.sub then attendGo b d (seqRecOf []) 2 s
      else
        let q := readSeq s d.seqid
        match q.2 with
        | .error e => .halt q.1 e
        | .ok r => if rd.query.isSome then attendGo b d r (d.layers + 2) q.1 else attendStart b d (some r) q.1
    | none =>
      if d.layers = 0 then attendStart b d none s
      else
        let q := readSeq s d.seqid
        match q.2 with
        | .error e => .halt q.1 e
        | .ok r =>
          if (layersOf d r).isNone then .halt q.1 .badDescriptor
          else if q.1.kvc.committing.any fun c => c.1 == d.seqid then .wait s
          else attendStart b d (some r) q.1

/-- An ATTEND that halts in its walk keeps its reader and its query; it goes on with the layer on GRAPH_RESUME. -/
def attendKeep (s : State) (b : Bound) (st : Status) : State :=
  haltStation (modStation s b.slot b.idx fun x => { x with wait := none }) b st

/-- ATTEND. -/
def execAttend (cluster : Nat) (s : State) : Host.Outcome State Fault Refusal :=
  walkCmd cluster 0x01 (fun b d t => match runAttend b d t with
    | .halt u e => if (readerOf u b).isSome then .wait (attendKeep u b e) else .halt u e
    | x => x) s

end Sys2Proof.Machine
end

