-- ==== Sys2Proof/Machine/Move.lean ====
section
/-! DEFINITION. Moving pages between tiers: MOVE_BEGIN, MOVE_END, MOVE_ABORT (R209-R213, R336, R363), and the grant of a
sequence lock (R198). -/

namespace Sys2Proof.Machine

/-! ### Move records, protected pages and selection (R209, R211) -/

/-- A move record (Table 9-10). -/
structure MoveRec where
  kind   : Nat
  select : Nat
  dpool  : Nat
  outMax : Nat
  src    : Nat
  slots  : Nat
  out    : Nat
  resOk  : Bool
  deriving DecidableEq, Repr

def moveRecOf (b : Bytes) : MoveRec :=
  { kind := byteAt b 0, select := byteAt b 1, dpool := byteAt b 2 % 16, outMax := leAt b 4 4, src := leAt b 8 6,
    slots := leAt b 16 6, out := leAt b 24 6,
    resOk := decide (1 ≤ byteAt b 0 ∧ byteAt b 0 ≤ 8 ∧ byteAt b 1 ≤ 3) && byteAt b 2 / 16 == 0 && byteAt b 3 == 0
      && leAt b 14 2 == 0 && leAt b 22 2 == 0 && leAt b 30 2 == 0 }

/-- The kinds Table 9-9 marks "eviction". -/
def evicts (kind : Nat) : Bool := kind == 4 || kind == 6 || kind == 8

/-- The kinds whose destination is a frame of DPOOL. -/
def toHbm (kind : Nat) : Bool := kind == 2 || kind == 3 || kind == 4 || kind == 5 || kind == 7

/-- First position of a page and the end of its span. -/
def pageExtent (r : SeqRec) (pti : Nat) : Nat × Nat :=
  (firstPos r pti, if twoSpans r && r.s1Pti ≤ pti then r.s1Start + r.s1N else r.s0Start + r.s0N)

/-- A page is protected (R209). GRACE comes from the scorer's copy of the sequence's curve table. -/
def protectedPage (s : State) (r : SeqRec) (pti : Nat) (p : Pte) : Bool :=
  let x := pageExtent r pti
  let n := seqLength r
  let last := min (min x.2 n) (x.1 + pageSize r)
  let grace := leAt (s.kvc.curves.getD r.curve []) 8 4
  (decide (x.1 < last) && (decide (x.1 < r.nsink) || decide (n - r.window ≤ last - 1) || decide (n - grace ≤ last - 1)))
    || p.pin || (p.share && p.tier == 0 && decide (1 < refCount s p.pool p.loc))

/-- The page is in the kind's source state (Table 9-9). Cache formats 2 and 3 are E5M2 and E4M3. -/
def inSource (r : SeqRec) (kind : Nat) (p : Pte) : Bool :=
  match kind with
  | 1 => resident p
  | 2 => p.tier == 1 && p.state == 1
  | 3 => plainResident p && (r.cfmt == 2 || r.cfmt == 3)
  | 4 => plainResident p
  | 5 => resident p && p.form == 1
  | 6 => resident p
  | 7 => p.tier == 2 && p.state == 1
  | 8 => resident p
  | _ => false

/-- MOVE_BEGIN skips the page (R211). -/
def moveSkips (s : State) (r : SeqRec) (kind pti : Nat) (p : Pte) : Bool :=
  !inSource r kind p || (evicts kind && protectedPage s r pti p)
    || (kind == 1 && p.share && decide (1 < refCount s p.pool p.loc))

/-- The pages of RANGE in one layer: held pages that meet [POS, POS + COUNT). (DEDUCED, log 87.) -/
def rangePages (r : SeqRec) (pos count : Nat) : List Nat :=
  (spanPages r).filterMap fun p => if p.2.1 < pos + count ∧ pos < min p.2.2 (p.2.1 + pageSize r) then some p.1 else none

/-- The order of scores: NaN lowest, then the values. -/
def scoreKey (v : Nat) : Int :=
  let m : Int := (v % 2 ^ 31 : Nat)
  if 0x7F800000 < v % 2 ^ 31 then -(2 ^ 32 : Nat) else if v / 2 ^ 31 % 2 = 1 then -m else m

/-- Inserted in order of score, ties to the lower PTE index. -/
def insertScore (x : Int × Nat) : List (Int × Nat) → List (Int × Nat)
  | [] => [x]
  | y :: t => if x.1 < y.1 ∨ (x.1 = y.1 ∧ x.2 < y.2) then x :: y :: t else y :: insertScore x t

/-- Results of reading in order, the first error kept. -/
def collect {α β : Type} (f : State → α → State × Except Status (Option β)) :
    State → List α → State × Except Status (List β)
  | s, [] => (s, .ok [])
  | s, x :: t =>
    let r := f s x
    match r.2 with
    | .error e => (r.1, .error e)
    | .ok o =>
      let q := collect f r.1 t
      match q.2 with
      | .error e => (q.1, .error e)
      | .ok l => (q.1, .ok (match o with | some y => y :: l | none => l))

/-- SCORE in one layer: the COUNT lowest-scored pages that may be moved. (DEDUCED, log 87.) -/
def scorePages (r : SeqRec) (kind count : Nat) (s : State) (layer : Nat) :
    State × Except Status (Option (List (Nat × Nat))) :=
  let q := collect (fun t (pti : Nat) =>
    let x := readPte t r layer pti
    match x.2 with
    | .error e => (x.1, .error e)
    | .ok y =>
      if !inSource r kind y.pte || protectedPage t r pti y.pte then (x.1, .ok none)
      else
        let m := memRead x.1 y.score 4
        (m.1, .ok (some (scoreKey (leNat (gotBytes m.2)), pti)))) s ((spanPages r).map fun p => p.1)
  match q.2 with
  | .error e => (q.1, .error e)
  | .ok l => (q.1, .ok (some (((l.foldl (fun a x => insertScore x a) []).take count).map fun x => (layer, x.2))))

/-- LIST: COUNT entries at SRC. (DEDUCED, log 87.) -/
def listPages (r : SeqRec) (src count : Nat) (s : State) : State × Except Status (List (Nat × Nat)) :=
  collect (fun t (i : Nat) =>
    let q := ctrlRead t (src + 8 * i) 8
    match q.2 with
    | .error e => (q.1, .error e)
    | .ok b =>
      if leAt b 6 2 ≠ 0 ∨ r.nlayer ≤ leAt b 0 2 ∨ r.ptCap ≤ leAt b 2 4 then (q.1, .error .badDescriptor)
      else (q.1, .ok (some (leAt b 0 2, leAt b 2 4)))) s (List.range count)

/-- Objects that a list tile names in tile order, first occurrences (R357, R363). -/
def tileObjects (b : Bytes) (bytes : Nat) : List Nat :=
  let nq := leAt b 0 2
  let stride := 32 + ((bytes - 32) / max 1 nq - 32) / 16 * 16
  let of (i : Nat) : List Nat := (List.range (leAt b (32 + stride * i) 2)).map fun j =>
    leAt b (32 + stride * i + 32 + 16 * j) 5 / 64
  ((List.range nq).map of).flatten.foldl (fun a o => if a.contains o then a else a ++ [o]) []

/-- The page that an object's header names, where R336 lets it through. -/
def objectPage (r : SeqRec) (seq : Nat) (s : State) (o : Nat) : State × Option (Nat × Nat) :=
  if !wheyReady s || !objOk s o then (s, none)
  else
    let f := flashRead s o 1
    match assocGet s.fls.objects o with
    | none => (f.1, none)
    | some b =>
      let layer := leAt b 16 2
      let pti := leAt b 12 4
      if !f.2 || leAt b 0 2 ≠ 0x5748 || byteAt b 2 ≠ 1 || leAt b 8 4 ≠ seq || r.nlayer ≤ layer || r.ptCap ≤ pti then (f.1, none)
      else
        let x := readPte f.1 r layer pti
        match x.2 with
        | .error _ => (x.1, none)
        | .ok y =>
          (x.1, if y.pte.tier == 2 && y.pte.state == 1 && y.pte.loc == o then some (layer, pti) else none)

/-- SKIM: the pages of the objects, and how many results were skipped. (DEDUCED, log 87.) -/
def skimPages (r : SeqRec) (seq : Nat) : State → List Nat → State × List (Nat × Nat) × Nat
  | s, [] => (s, [], 0)
  | s, o :: t =>
    let f := objectPage r seq s o
    let q := skimPages r seq f.1 t
    match f.2 with
    | some p => (q.1, p :: q.2.1, q.2.2)
    | none => (q.1, q.2.1, q.2.2 + 1)

/-! ### MOVE_BEGIN (R211) -/

/-- What is known of the list as it grows. -/
structure MoveOut where
  entries : List Bytes
  skipped : Nat
  stop    : Bool

/-- A destination for a page. -/
inductive Dest where
  | none (s : State)
  | ok (s : State) (dst : Nat)

/-- The form a page has at its destination (Table 9-9). -/
def destForm (kind : Nat) (p : Pte) : Nat := match kind with | 3 => 1 | 4 => 2 | 5 => 0 | _ => p.form

/-- The destination of the page as the list's DST (R211 step 1, R212). (DEDUCED, log 88.) -/
def moveDest (s : State) (r : SeqRec) (m : MoveRec) (p : Pte) (n : Nat) : Dest :=
  if toHbm m.kind then
    match takeFrame s m.dpool (if destForm m.kind p = 0 then pageBytes r else 0) with
    | .wait => .none s
    | .err t _ => .none t
    | .ok t f =>
      .ok t (pteVal { p with tier := 0, state := 1, form := destForm m.kind p, pool := m.dpool, loc := f })
  else if m.kind = 1 then
    let q := ctrlRead s (m.slots + 4 * n) 4
    match q.2 with
    | .error _ => .none q.1
    | .ok b => .ok q.1 (leNat b)
  else if m.kind = 6 then
    let p := wheyPool s m.dpool
    if s.fls.state ≠ .ready || !p.valid || p.index then .none s
    else
      match lowestSlot s m.dpool with
      | none => .none s
      | some k => .ok (allocObj s (objNum m.dpool k)) (objNum m.dpool k)
  else .ok s 0

/-- The entry's SRC (R212). -/
def moveSrc (p : Pte) : Nat := if p.tier = 0 then pteVal { p with state := 1 } else p.loc

def entryBytes (src dst layer pti item : Nat) : Bytes :=
  leBytes 8 src ++ leBytes 8 dst ++ leBytes 2 layer ++ leBytes 1 0xFF ++ leBytes 1 0 ++ leBytes 4 pti ++ leBytes 8 item

/-- One page chosen. -/
def movePage (seq : Nat) (r : SeqRec) (m : MoveRec) (a : State × Except Status MoveOut) (lp : Nat × Nat) :
    State × Except Status MoveOut :=
  match a.2 with
  | .error _ => a
  | .ok o =>
    if o.stop then a
    else if m.outMax ≤ o.entries.length then (a.1, .ok { o with stop := true })
    else
      let x := readPte a.1 r lp.1 lp.2
      match x.2 with
      | .error e => (x.1, .error e)
      | .ok y =>
        if moveSkips x.1 r m.kind lp.2 y.pte then (x.1, .ok { o with skipped := o.skipped + 1 })
        else
          match moveDest x.1 r m y.pte o.entries.length with
          | .none t => (t, .ok { o with stop := true })
          | .ok t dst =>
            let e := entryBytes (moveSrc y.pte) dst lp.1 lp.2 (if m.kind = 6 then 64 * dst else 0)
            let t1 := (memWrite t (moveEntryAt m.out o.entries.length) e).getD t
            let t2 := writePte t1 y.addr { y.pte with state := 2 }
            ({ t2 with kvc := { t2.kvc with moves := t2.kvc.moves ++ [⟨seq, lp.1, lp.2, m.kind, dst⟩] } },
             .ok { o with entries := o.entries ++ [e] })

/-- The list header, and the handle on port 0: empty where there is no entry. (DEDUCED, log 88.) -/
def moveEnds (b : Bound) (d : WalkDesc) (m : MoveRec) (st : Status) (n skipped : Nat) (s : State) : Walked :=
  let s1 := (memWrite s m.out (padTo 32 (leBytes 4 n ++ leBytes 4 skipped))).getD s
  if st != .ok then .done (emit s1 b.slot b.idx 0 ⟨st, 0, true, 0#16, 32, 0xFF, d.tag, m.out⟩) .empty
  else if n = 0 then .done (emit s1 b.slot b.idx 0 (emptyHandle d.tag true)) .empty
  else .done (emit s1 b.slot b.idx 0 ⟨.ok, 0, true, 0#16, 32 * (n + 1), 0xFF, d.tag, m.out⟩) .ok

/-- A chosen page would go in plain form to frames smaller than it (R191). -/
def destSmall (s : State) (r : SeqRec) (m : MoveRec) (pti : Nat) (p : Pte) : Bool :=
  toHbm m.kind && destForm m.kind p == 0 && decide (frameBytes (poolAt s m.dpool) < pageBytes r)
    && !moveSkips s r m.kind pti p

/-- The pages chosen are marked and listed; an entry that cannot be read stops it before any change (R402), and so does a pool whose
frames are smaller than a page (R191). (DEDUCED, log 89.) -/
def moveList (b : Bound) (d : WalkDesc) (r : SeqRec) (m : MoveRec) (skipped : Nat) (ps : List (Nat × Nat)) (s : State) :
    Walked :=
  match ps.findSome? fun lp => match (readPte s r lp.1 lp.2).2 with
    | .error e => some ((readPte s r lp.1 lp.2).1, e)
    | .ok x => if destSmall s r m lp.2 x.pte then some (s, .badDescriptor) else none with
  | some x => .halt x.1 x.2
  | none =>
    let q := ps.foldl (movePage d.seqid r m) (s, .ok ⟨[], skipped, false⟩)
    match q.2 with
    | .error e => .halt q.1 e
    | .ok o => moveEnds b d m .ok o.entries.length o.skipped q.1

/-- SKIM's tile is popped and read. (DEDUCED, log 87.) -/
def moveSkim (b : Bound) (d : WalkDesc) (r : SeqRec) (m : MoveRec) (s : State) : Walked :=
  match popHandle s b.slot b.idx 0 with
  | none => .wait (waitInputs s b.slot b.idx [0])
  | some (t, h) =>
    if isEmptyHandle h then moveEnds b d m .ok 0 0 t
    else if h.status != .ok then moveEnds b d m h.status 0 0 (release t b.slot b.idx h)
    else
      let g := memRead t h.addr h.bytes
      match g.2 with
      | .hole => .halt (release g.1 b.slot b.idx h) .badDescriptor
      | .bad _ _ => moveEnds b d m .pagePoisoned 0 0 (release g.1 b.slot b.idx h)
      | .ok v =>
        let q := skimPages r d.seqid g.1 (tileObjects v h.bytes)
        moveList b d r m q.2.2 q.2.1 (release q.1 b.slot b.idx h)

/-- The pages of RANGE, SCORE or LIST. (DEDUCED, log 87.) -/
def movePages (d : WalkDesc) (r : SeqRec) (m : MoveRec) (s : State) : State × Except Status (List (Nat × Nat)) :=
  if m.select = 0 then listPages r m.src d.count s
  else
    match layersOf d r with
    | none => (s, .error .badDescriptor)
    | some ls =>
      let here (p : Nat × Nat × Nat) : Bool := m.select == 2 || (rangePages r d.pos d.count).contains p.1
      if heldOver r here then (s, .error .shapeOver)
      else if m.select = 1 then (s, .ok (layerPages ls (rangePages r d.pos d.count)))
      else
        let q := collect (scorePages r m.kind d.count) s ls
        (q.1, match q.2 with | .error e => .error e | .ok l => .ok l.flatten)

/-- DEDUCED, log 73; DEDUCED, log 88. -/
def runMoveBegin (b : Bound) (d : WalkDesc) (s : State) : Walked :=
  let rr := ctrlRead s d.rec_ 32
  match rr.2 with
  | .error e => .halt rr.1 e
  | .ok rb =>
    let m := moveRecOf rb
    if !m.resOk || !portsBound b (if m.select = 3 then [0] else []) [0] then .halt rr.1 .badDescriptor
    else if !canPush rr.1 b.slot b.idx 0 then .wait rr.1
    else if d.layers = 0 && (m.select == 1 || m.select == 2) then
      .done (emit rr.1 b.slot b.idx 0 (emptyHandle d.tag true)) .empty
    else
      locked b [d.seqid] (fun s =>
        let q := readSeq s d.seqid
        match q.2 with
        | .error e => .halt q.1 e
        | .ok r =>
          if !spanOk m.out (32 + 32 * m.outMax) then .halt q.1 .badDescriptor
          else if toHbm m.kind && !(poolAt s m.dpool).valid then .halt q.1 .badDescriptor
          else if toHbm m.kind && (poolAt s m.dpool).initBusy then .wait s
          else if m.select = 3 then moveSkim b d r m q.1
          else
            let ps := movePages d r m q.1
            match ps.2 with
            | .error e => .halt ps.1 e
            | .ok l => moveList b d r m 0 l ps.1) rr.1

/-- MOVE_BEGIN. -/
def execMoveBegin (cluster : Nat) (s : State) : Host.Outcome State Fault Refusal := walkCmd cluster 0x09 runMoveBegin s

/-! ### MOVE_END and MOVE_ABORT (R213) -/

def countMoveFail (s : State) : State :=
  let o := s.kvc.moveFail
  ctrSat 0x01000348 o (satAdd o 1) { s with kvc := { s.kvc with moveFail := satAdd o 1 } }

/-- A host slot or Whey object is appended to the return list. -/
def returnLoc (s : State) (ret loc : Nat) : State :=
  let n := leNat (peek s ret 4)
  let s1 := (memWrite s (ret + 4 + 8 * n) (leBytes 8 loc)).getD s
  (memWrite s1 ret (leBytes 4 (n + 1))).getD s1

/-- A place in some tier is let go: a frame by R203, else the return list takes it. -/
def releasePlace (s : State) (ret : Nat) (hbm : Bool) (pool loc : Nat) : State × Option Status :=
  if hbm then dropFrame s pool loc else (returnLoc s ret loc, none)

/-- The destination PTE of a move that succeeded, SHARE and PIN kept (Table 9-9). (DESIGN CHOICE, log 90.) -/
def destPte (kind : Nat) (p : Pte) (dst : Nat) : Pte :=
  match kind with
  | 1 => { p with tier := 1, state := 1, pool := 0, loc := dst }
  | 6 => { p with tier := 2, state := 1, pool := 0, loc := dst }
  | 8 => { p with tier := 0, state := 3, form := 0, pool := 0, loc := 0 }
  | _ =>
    let q := pteOf dst
    { p with tier := 0, state := 1, form := q.form, pool := q.pool, loc := q.loc }

/-- The destination of a move that failed is let go. (DESIGN CHOICE, log 90.) -/
def releaseDest (s : State) (ret kind dst : Nat) : State × Option Status :=
  if toHbm kind then dropFrame s (pteOf dst).pool (pteOf dst).loc
  else if kind = 8 then (s, none)
  else (returnLoc s ret dst, none)

/-- One entry ends: installed on OK, rolled back otherwise. Where a commit has freed the page meanwhile, its destination is let go
(R187, R188). (DESIGN CHOICE, log 86.) -/
def endEntry (seq : Nat) (r : SeqRec) (ret : Nat) (e : MoveEntry) (ok : Bool) (s : State) : State × Option Status :=
  let x := readPte s r e.layer e.pti
  match x.2 with
  | .error st => (x.1, some st)
  | .ok y =>
    match s.kvc.moves.find? fun m => m.seq == seq && m.layer == e.layer && m.pti == e.pti with
    | none => (x.1, some .badDescriptor)
    | some m =>
      let gone (t : State) : State := { t with kvc := { t.kvc with moves := t.kvc.moves.filter fun z => !(z == m) } }
      let s1 := gone x.1
      if !inTransit y.pte then releaseDest (if ok then s1 else countMoveFail s1) ret m.kind e.dst.toNat
      else if ok then
        let s2 := writePte s1 y.addr (destPte m.kind y.pte e.dst.toNat)
        let s3 := if m.kind = 7 then (memWrite s2 y.score (leBytes 4 (curveAt s2 r.curve 4))).getD s2 else s2
        releasePlace s3 ret (y.pte.tier == 0) y.pte.pool y.pte.loc
      else
        releaseDest (countMoveFail (writePte s1 y.addr { y.pte with state := 1 })) ret m.kind e.dst.toNat

/-- The entry's STATUS. -/
def setEntryStatus (s : State) (list i st : Nat) : State :=
  (memWrite s (moveEntryAt list i + 18) (leBytes 1 st)).getD s

/-- How the entries of a list end. -/
inductive Ended where
  | all (s : State)
  | wait (s : State)
  | err (s : State) (st : Status)

/-- Entries from `i` on. `next` gives a pending entry's status, or waits. -/
def endEntries (b : Bound) (d : WalkDesc) (r : SeqRec) (ret : Nat)
    (next : State → Option (State × Nat × Option Handle)) : Nat → Nat → State → Ended
  | 0, _, s => .all s
  | n + 1, i, s =>
    let q := ctrlRead s (moveEntryAt d.rec_ i) 32
    match q.2 with
    | .error e => .err q.1 e
    | .ok v =>
      let e := moveEntryOf v
      if byteAt v 19 ≠ 0 ∨ leAt v 29 3 ≠ 0 then .err q.1 .badDescriptor
      else if e.status ≠ 0xFF then endEntries b d r ret next n (i + 1) q.1
      else
        match next q.1 with
        | none => .wait q.1
        | some (t, st, h) =>
          let f := endEntry d.seqid r ret e (st == 0) t
          let f1 := match h with
            | some x => release f.1 b.slot b.idx x
            | none => f.1
          match f.2 with
          | some err => .err f1 err
          | none => endEntries b d r ret next n (i + 1) (setEntryStatus f1 d.rec_ i st)

/-- MOVE_END and MOVE_ABORT over the list at REC; while MOVE_END waits for a handle it keeps its lock. (DEDUCED, log 76.) -/
def moveFinish (b : Bound) (d : WalkDesc) (next : State → Option (State × Nat × Option Handle)) (s : State) : Walked :=
  let c := b.st.unit
  locked b [d.seqid] (fun s =>
    let q := readSeq s d.seqid
    match q.2 with
    | .error e => .halt q.1 e
    | .ok r =>
      let hd := ctrlRead q.1 d.rec_ 32
      match hd.2 with
      | .error e => .halt hd.1 e
      | .ok hb =>
        let n := leAt hb 0 4
        let ret := d.rec_ + 32 * (n + 1)
        if !spanOk d.rec_ (32 * (n + 1) + 4 + 8 * n) || !allZero (sub hb 8 24) then .halt hd.1 .badDescriptor
        else
          let s1 := if b.st.sub = 0 then (memWrite hd.1 ret (leBytes 4 0)).getD hd.1 else hd.1
          let s2 := modStation s1 b.slot b.idx fun x => { x with sub := 1 }
          match endEntries b d r ret next n 0 s2 with
          | .all t => .done t .ok
          | .err t e => .halt t e
          | .wait t => .wait (waitInputs { t with kvc := { t.kvc with lockQ := (d.seqid, c) :: t.kvc.lockQ } } b.slot b.idx [0])) s

def runMoveEnd (b : Bound) (d : WalkDesc) (s : State) : Walked :=
  if !portsBound b [0] [] then .halt s .badDescriptor
  else moveFinish b d (fun t => (popHandle t b.slot b.idx 0).map fun x => (x.1, statusCode x.2.status, some x.2)) s

/-- MOVE_END. -/
def execMoveEnd (cluster : Nat) (s : State) : Host.Outcome State Fault Refusal := walkCmd cluster 0x0A runMoveEnd s

/-- MOVE_ABORT: every pending entry has failed. What STATUS it writes is not stated; the entry is no longer pending.
(DESIGN CHOICE, log 90.) -/
def runMoveAbort (b : Bound) (d : WalkDesc) (s : State) : Walked :=
  moveFinish b d (fun t => some (tick1 t, 1 + Config.freeNat t.free % 254, none)) s

def execMoveAbort (cluster : Nat) (s : State) : Host.Outcome State Fault Refusal := walkCmd cluster 0x0B runMoveAbort s

/-! ### SEQUENCE_LOCK_GRANT (R198) -/

/-- The operation that a WALK station is waiting in, tried again. -/
def retryWalk (op : Nat) (cluster : Nat) (s : State) : Host.Outcome State Fault Refusal :=
  match op with
  | 0x01 => execAttend cluster s
  | 0x02 => execPrepare cluster s
  | 0x03 => execExtend cluster s
  | 0x04 => execKvCommit cluster s
  | 0x05 => execFork cluster s
  | 0x06 => execTruncate cluster s
  | 0x07 => execRelease cluster s
  | 0x08 => execScore cluster s
  | 0x09 => execMoveBegin cluster s
  | 0x0A => execMoveEnd cluster s
  | 0x0B => execMoveAbort cluster s
  | 0x0C => execFreeze cluster s
  | 0x0D => execUnfreeze cluster s
  | _ => .next s

/-- SEQUENCE_LOCK_GRANT: the operation of a cluster that waits goes on once it may. -/
def execSequenceLockGrant (cluster : Nat) (s : State) : Host.Outcome State Fault Refusal :=
  if 16 ≤ cluster then .refused (.noSuchUnit "cluster")
  else
    match bound s .walk cluster with
    | none => .next s
    | some b => if b.st.wait.isNone then .next s else retryWalk (byteAt (peek s (wdAddr b 64) 1) 0) cluster s

end Sys2Proof.Machine
end

