-- ==== Sys2Proof/Machine/RegMap.lean ====
section
/-! DEFINITION. The registers of the set-up window as a read finds them: Tables 21-1 to 21-16, and the read latch (R436-R441). -/

namespace Sys2Proof.Machine

/-- A register that holds a byte of the window: its offset in the block, its bytes, its value. -/
structure RegVal where
  base  : Nat
  bytes : Nat
  val   : Nat
  deriving DecidableEq, Repr

/-- The register of `n` bytes at `b`, where block offset `o` lies in it. -/
def reg (o b n v : Nat) : Option RegVal := if b ≤ o ∧ o < b + n then some ⟨b, n, v⟩ else none

/-- The register of an array of `k` at `b`, `stride` apart. -/
def regs (o b stride k n : Nat) (f : Nat → Nat) : Option RegVal :=
  let i := (o - b) / stride
  if b ≤ o ∧ i < k then reg o (b + stride * i) n (f i) else none

def boolAt (l : List Word) (i : Nat) : Nat := (l.getD i 0#32).toNat

/-! ### HIF, FAB (Tables 21-2, 21-3) -/

def fnCfgWord (c : FnCfg) : Nat :=
  c.ringBase % 256 + 2 ^ 8 * (c.ringN % 512) + 2 ^ 17 * (c.vecBase % 2048) + 2 ^ 28 * (c.vecN % 4096) + 2 ^ 40 * c.perm.toNat
    + 2 ^ 48 * flag c.en

def regHif (s : State) (o : Nat) : Option RegVal :=
  let h := s.hif
  reg o 0x0000 4 (flag h.lock + 2 * flag h.conflict)
    <|> reg o 0x0008 4 (h.linkRate % 8 + 8 * (h.linkLanes % 32) + 256 * flag h.linkFlit + 65536 * (h.retrains % 65536))
    <|> reg o 0x0010 4 h.dbErr.toNat <|> reg o 0x0014 4 h.ringErr.toNat <|> reg o 0x0018 4 h.cqDrop.toNat
    <|> reg o 0x001C 4 h.winErr.toNat <|> reg o 0x0020 8 h.cqFullNs.toNat
    <|> regs o 0x1000 8 33 8 (fun f => fnCfgWord (fnCfg s f))
    <|> regs o 0x2000 0x20 33 32 (fun f => (h.ring0.getD f 0#256).toNat)

/-- FAB_NBR: VALID and the record of R297, whose layout no table gives. -/
def nbrWord (x : Link) : Nat :=
  match x.nbr with
  | some r => leNat (padTo 16 (Config.kwLayout 0x31 [1, r.digest.toNat, r.addr, r.port, r.link, r.width, r.mstate, flag r.bypass]))
  | none => 0

def routerWord (r : RouterCtr) (j : Nat) : Nat :=
  match j with
  | 0 => r.lost.toNat | 1 => r.bad.toNat | 2 => r.noroute.toNat | 3 => r.hops.toNat | _ => r.stall.toNat

def rtEntryWord (s : State) (q : Requester) : Nat :=
  let sel := selectOf s q rtSelOff
  boolAt (if bit sel 8 then s.fab.region else s.fab.local_) (sel % 256)

def regFab (s : State) (q : Requester) (o : Nat) : Option RegVal :=
  let f := s.fab
  reg o 0x0000 4 (f.addr % 65536 + 65536 * flag f.assigned) <|> reg o 0x0004 4 (flag f.train)
    <|> regs o 0x0010 4 16 4 (boolAt f.portCfg) <|> regs o 0x0100 4 64 4 (fun l => flag (linkAt s l).disable)
    <|> regs o 0x0200 4 64 4 (fun l => linkStatus (linkAt s l)) <|> regs o 0x0400 16 64 16 (fun l => nbrWord (linkAt s l))
    <|> reg o 0x0800 4 0 <|> reg o 0x0804 4 (selectOf s q rtSelOff) <|> reg o 0x0808 4 (rtEntryWord s q)
    <|> reg o 0x0810 4 f.lshape.toNat <|> reg o 0x0814 4 f.lcoord.toNat <|> reg o 0x0818 8 f.lmapBase
    <|> reg o 0x0820 4 (flag f.lbusy) <|> regs o 0x0840 4 16 4 (boolAt f.retryNs) <|> reg o 0x0880 4 f.stallUs.toNat
    <|> reg o 0x0888 4 f.cableSum.toNat <|> regs o 0x0900 16 16 8 (fun p => (f.fecCorr.getD p 0#64).toNat)
    <|> regs o 0x0908 16 16 4 (boolAt f.replay) <|> regs o 0x090C 16 16 4 (boolAt f.retrain)
    <|> (if o < 0x0A40 then regs o 0x0A00 4 16 4 (fun i => if i % 8 < 5 then routerWord (routerAt s (i / 8)) (i % 8) else 0)
         else none)
    <|> reg o 0x0B00 4 (flag f.eqxRoot + 64 * (f.eqxPort % 16) + 1024 * (f.eqxLink % 4) + 4096 * (f.eqxInterval % 2 ^ 20))
    <|> reg o 0x0B08 8 0 <|> reg o 0x0B10 8 f.counter.toNat <|> reg o 0x0B18 4 f.eqxLatched.toNat

/-! ### CHN, COL (Tables 21-4, 21-5) -/

def regChnDir (d : ChnDir) (b o : Nat) : Option RegVal :=
  reg o (b + 0x20) 8 d.steps.toNat <|> reg o (b + 0x28) 4 d.xbound.toNat <|> reg o (b + 0x30) 8 d.xwaitNs.toNat
    <|> reg o (b + 0x38) 8 d.holdNs.toNat <|> reg o (b + 0x40) 8 d.bytesRx.toNat <|> reg o (b + 0x48) 4 d.stray.toNat
    <|> reg o (b + 0x4C) 4 d.rtt.toNat

/-- A direction's counters as a die shows them: zero on the die that does not serve the direction (Table 21-4). -/
def chnShown (c : ChnCtx) (die : Nat) (west : Bool) : ChnDir :=
  let d := chnDir c west
  match c.ring with
  | some r =>
    if (ringDirs r die).contains west then d
    else { d with steps := 0, xbound := 0, xwaitNs := 0, holdNs := 0, bytesRx := 0, stray := 0, rtt := 0 }
  | none => d

def regChn (s : State) (o : Nat) : Option RegVal :=
  if o < 0x2000 ∧ o % 0x1000 < 0x400 then
    let b := o / 0x100 * 0x100
    let c := chnAt s (4 * (o / 0x1000) + o % 0x1000 / 0x100)
    reg o b 4 (chnStatus c) <|> regChnDir (chnShown c (o / 0x1000) false) b o
      <|> regChnDir (chnShown c (o / 0x1000) true) (b + 0x40) o
  else none

/-- The window offset of COL_GSEL of a die. -/
def gselOff (d : Nat) : Nat := 0x00C00000 + 0x1000 * d

/-- The group COL_GSEL names on a router (R281). -/
def shownGroup (s : State) (q : Requester) (d : Nat) : Option Group :=
  (findGroup s (selectOf s q (gselOff d))).filter fun g => g.die == d

/-- COL_G_STATUS's second word (Table 12-7). -/
def groupState2 (g : Group) : Nat := g.state % 4 + 4 * flag g.fencedSeen + 8 * flag g.unsyncSkip

def vatFree (s : State) (d : Nat) : Nat := 64 - ((s.groups.filter fun g => g.die == d).map fun g => g.vats).sum

def regCol (s : State) (q : Requester) (o : Nat) : Option RegVal :=
  let d := o / 0x1000
  let b := d * 0x1000
  let g := shownGroup s q d
  let of (f : Group → Nat) (z : Nat) : Nat := (g.map f).getD z
  match s.col[d]? with
  | none => none
  | some c =>
    reg o b 4 (selectOf s q (gselOff d)) <|> reg o (b + 0x08) 4 (of colStatusWord 0) <|> reg o (b + 0x0C) 4 (of groupState2 0)
      <|> reg o (b + 0x10) 4 (of (fun g => g.nextSeq.toNat) 0) <|> reg o (b + 0x14) 4 (of (fun g => g.retired.toNat) 0xFFFFFFFF)
      <|> reg o (b + 0x18) 8 (of slowWord 0) <|> reg o (b + 0x20) 4 (vatFree s d) <|> reg o (b + 0x24) 4 c.corr.toNat
      <|> reg o (b + 0x28) 4 c.poison.toNat <|> reg o (b + 0x2C) 4 c.stray.toNat <|> reg o (b + 0x30) 4 c.flags.toNat

/-! ### KVC, SSA, MEM (Tables 21-6 to 21-9) -/

def poolRegWord (p : FramePool) : Nat :=
  p.base % 2 ^ 48 + 2 ^ 63 * flag p.valid + 2 ^ 64 * (p.ftab % 2 ^ 48) + 2 ^ 128 * (p.count % 2 ^ 31)
    + 2 ^ 176 * (p.fsizeK % 2 ^ 16)

def kvcStatusWord (s : State) : Nat :=
  flag s.kvc.poolErr + 2 ^ 16 * boolBits (s.kvc.pools.map fun p => p.initBusy)

def regKvc (s : State) (o : Nat) : Option RegVal :=
  let k := s.kvc
  reg o 0x0000 8 k.seqBase <|> reg o 0x0008 4 k.seqN <|> reg o 0x0010 8 k.epoch.toNat <|> reg o 0x0018 4 (kvcStatusWord s)
    <|> reg o 0x0020 8 k.curveBase <|> reg o 0x0028 4 0 <|> reg o 0x002C 4 k.curveStatus.toNat <|> reg o 0x0030 8 k.sketchBase
    <|> regs o 0x0040 8 16 8 (oldest s) <|> regs o 0x0100 0x20 16 24 (fun i => poolRegWord (k.pools.getD i poolAtThaw))
    <|> regs o 0x0300 4 16 4 (boolAt k.poolEmpty) <|> reg o 0x0340 4 k.refErr.toNat <|> reg o 0x0344 4 k.scoreSkip.toNat
    <|> reg o 0x0348 4 k.moveFail.toNat <|> reg o 0x034C 4 k.curdSkip.toNat

/-- SSA_STATE[1:0]: idle, running, halted, hold. -/
def ssaStateCode (s : State) (k : Nat) : Nat :=
  let x := ssaAt s k
  if decide (3 ≤ (stackAt s k).level) || s.pwr.state == .hold then 3
  else if x.halted then 2 else if x.job.isSome then 1 else 0

def regSsa (s : State) (o : Nat) : Option RegVal :=
  let k := o / 0x100
  let b := k * 0x100
  let x := ssaAt s k
  if 8 ≤ k then none
  else
    reg o b 4 x.share <|> reg o (b + 0x04) 4 x.flags.toNat
      <|> reg o (b + 0x08) 4 (ssaStateCode s k + 256 * statusCode x.last) <|> reg o (b + 0x0C) 4 x.poison.toNat
      <|> reg o (b + 0x10) 8 x.jobs.toNat <|> reg o (b + 0x18) 8 x.throttleNs.toNat

def stackMemWord (x : StackMem) (j : Nat) : Nat :=
  match j with
  | 0 => x.level + 256 * (x.temp % 256) | 1 => x.ce.toNat | 2 => x.ue.toNat | 3 => x.updPoison.toNat | _ => x.adderFlags.toNat

def partRegWord (r : PartReg) : Nat := r.rate % 256 + 256 * (r.burst % 256) + 2 ^ 19 * flag r.wc

/-- MEM_LEND_GRANT (Table 14-6). -/
def grantWord (g : Grant) : Nat :=
  flag g.valid + 2 * flag g.revoke + 4 * flag g.rd + 8 * flag g.wr + 2 ^ 16 * (g.fsizeK % 2 ^ 16) + 2 ^ 32 * (g.gen % 256)
    + 2 ^ 40 * (g.borrower % 2 ^ 16) + 2 ^ 56 * (g.count % 2 ^ 24) + 2 ^ 80 * (g.base % 2 ^ 48)

def marginWord (m : MemCtl) : Nat := m.margin.toNat + 2 ^ 31 * flag m.marginGo + m.marginResult % 4

def regMem (s : State) (o : Nat) : Option RegVal :=
  let m := s.memc
  reg o 0x0000 16 m.partMap.toNat <|> reg o 0x0010 4 m.dlShare <|> reg o 0x0018 8 m.dlFullNs.toNat
    <|> regs o 0x0020 8 6 8 (fun i => (m.dlBytes.getD i 0#64).toNat) <|> reg o 0x0050 4 m.scrubH.toNat
    <|> reg o 0x0054 4 m.linkLimit.toNat <|> reg o 0x0058 4 m.ueLimit.toNat <|> reg o 0x005C 4 (memFailWord m.fail)
    <|> reg o 0x0060 4 (marginWord m) <|> regs o 0x0080 4 32 4 (fun i => (m.marginRes.getD i 0#16).toNat)
    <|> (if o < 0x0200 then
           regs o 0x0100 4 64 4 (fun i => if i % 8 < 5 then stackMemWord (stackAt s (i / 8)) (i % 8) else 0) else none)
    <|> (if o < 0x0400 then regs o 0x0200 4 128 4 (fun i =>
           if i % 16 < 8 then partRegWord ((stackAt s (i / 16)).regs.getD (i % 16) ⟨true, 0x10, 0⟩) else 0) else none)
    <|> regs o 0x0400 0x10 16 16 (fun g => grantWord (grantAt s g)) <|> reg o 0x0500 8 0

/-! ### FLS, VSE, SFU, CLU (Tables 21-10 to 21-14) -/

def wheyPoolWord (p : WheyPool) : Nat :=
  p.count % 2 ^ 30 + 2 ^ 30 * (p.size % 4096) + 2 ^ 42 * flag p.index + 2 ^ 63 * flag p.valid

def flashWord (c : FlashCh) (j : Nat) : Nat :=
  match j with
  | 0 => c.ce.toNat | 1 => c.ue.toNat | 2 => c.reloc.toNat | _ => c.wearMean % 65536 + 65536 * (c.wearMax % 65536)

def regFls (s : State) (o : Nat) : Option RegVal :=
  let f := s.fls
  reg o 0x0000 4 (flsStateWord s) <|> reg o 0x0004 4 f.share <|> reg o 0x0008 4 f.ueLimit.toNat
    <|> reg o 0x000C 4 (flsFailWord f.fail) <|> reg o 0x0010 8 0 <|> reg o 0x0018 8 f.written.toNat
    <|> reg o 0x0020 8 f.programmed.toNat <|> regs o 0x0100 8 16 8 (fun p => wheyPoolWord (f.pools.getD p ⟨false, false, 0, 0⟩))
    <|> (if o < 0x0600 then regs o 0x0200 4 256 4 (fun i => flashWord (f.chans.getD (i / 4) flashChAtThaw) (i % 4)) else none)
    <|> regs o 0x0600 4 64 4 (fun c => (f.chans.getD c flashChAtThaw).spare)

/-- The window offset of VSE_IDX_SEL. -/
def idxSelOff : Nat := 0x02000000

def idxStateWord (x : Index) : Nat :=
  x.cur % 2 ^ 24 + 2 ^ 24 * (x.oldest % 2 ^ 24) + 2 ^ 48 + 2 ^ 49 * flag x.batch.isSome + 2 ^ 50 * flag x.harvest.isSome

/-- Bytes 0 to 15 of the index record (Table 16-1). -/
def idxCfgWord (x : Index) : Nat :=
  (if x.graph then 1 else 2) + 2 ^ 8 * (x.code % 256) + 2 ^ 16 * (x.degree % 256) + 2 ^ 24 * (x.pool % 16)
    + 2 ^ 32 * (x.slot0 % 2 ^ 32) + 2 ^ 64 * (x.nslot % 2 ^ 32) + 2 ^ 96 * (x.lkeyLsb % 64) + 2 ^ 104 * (x.lkeyW % 256)
    + 2 ^ 112 * (x.efc % 65536)

def idxFreeWord (x : Index) : Nat := (x.shards.map (freeNodes x)).sum

def idxCtrs : List IdxCtr := [.insRefused, .delAbsent, .edgeDrop, .seenFull, .poison, .expired]

def ctxBusy (s : State) (c : Nat) : Nat :=
  ((s.vse.jobs.filter fun j => j.channel == c).map fun j => (j.queries.filter fun q => !q.done).length).sum

def regVse (s : State) (q : Requester) (o : Nat) : Option RegVal :=
  let x := findIndex s (selectOf s q idxSelOff % 256)
  let of (f : Index → Nat) : Nat := (x.map f).getD 0
  reg o 0x0000 4 (selectOf s q idxSelOff) <|> reg o 0x0008 8 (of idxStateWord) <|> reg o 0x0010 16 (of idxCfgWord)
    <|> reg o 0x0020 8 (of idxFreeWord)
    <|> regs o 0x0028 4 6 4 (fun i => of fun y => (idxCtrGet (idxCtrs.getD i .expired) y).toNat)
    <|> reg o 0x0040 8 s.vse.queries.toNat <|> regs o 0x0100 4 64 4 (ctxBusy s)
    <|> regs o 0x0200 8 64 8 (fun c => (s.vse.reads.getD c 0#64).toNat)

def regSfu (s : State) (o : Nat) : Option RegVal :=
  regs o 0x00 8 4 8 (fun i => boolBits ((List.range 64).map fun j => (coreAt s (64 * i + j)).active == 1))
    <|> reg o 0x20 4 s.sfu.seq.toNat <|> reg o 0x24 4 (flag (reloadBusy s) + 2 * s.sfu.waiting.length)

/-- CLU_WC_STATE (Table 21-14). -/
def wcWord (w : WorkCtr) : Nat :=
  w.epoch.toNat + 2 ^ 32 * w.base.toNat + 2 ^ 64 * w.limit.toNat + 2 ^ 96 * w.next.toNat + 2 ^ 128 * w.committed.toNat

/-- A stream fault register (Table 7-4). -/
def faultWord (f : FaultReg) : Nat :=
  f.seq.toNat + 2 ^ 16 * (f.wdi % 2 ^ 24) + 2 ^ 40 * (f.tile % 2 ^ 24) + 2 ^ 68 * flag f.valid + 2 ^ 69 * flag f.again
    + 2 ^ 70 * (f.space % 4) + 2 ^ 72 * statusCode f.cause + 2 ^ 80 * (f.addr % 2 ^ 48)

def regClu (s : State) (o : Nat) : Option RegVal :=
  if o < 0x10000 then
    let c := o / 0x1000
    let b := c * 0x1000
    let x := clusterAt s c
    reg o b 24 (wcWord x.wc) <|> reg o (b + 0x20) 8 0 <|> reg o (b + 0x28) 4 x.wc.stale.toNat
      <|> reg o (b + 0x30) 4 x.outstanding.toNat <|> reg o (b + 0x38) 4 x.adderFlags.toNat <|> reg o (b + 0x40) 4 x.sramCe.toNat
      <|> reg o (b + 0x44) 4 x.sramUe.toNat <|> reg o (b + 0x48) 4 x.wdogMs.toNat <|> reg o (b + 0x4C) 4 0
      <|> reg o (b + 0x50) 16 0 <|> reg o (b + 0x60) 4 (statusCode x.rearmStatus + 256 * flag x.rearmDone)
  else if 0x100000 ≤ o ∧ o < 0x110000 then
    let b := o / 0x100 * 0x100
    let x := coreAt s ((o - 0x100000) / 0x100)
    reg o b 4 x.flags.toNat <|> reg o (b + 0x04) 4 x.suPoison.toNat <|> reg o (b + 0x10) 16 (faultWord x.faultLd)
      <|> reg o (b + 0x20) 16 (faultWord x.faultSt)
  else none

/-! ### PWR, THM, SEC, TEL (Tables 21-15, 21-16) -/

def dieCapWord (s : State) (d : Nat) : Nat :=
  let c := s.pwr.dieCurveCap.getD d 64
  let p := s.pwr.diePowerCap.getD d 64
  (if s.pwr.capEn then min c p else c) + 256 * c + 65536 * p

def regPwr (s : State) (o : Nat) : Option RegVal :=
  let p := s.pwr
  reg o 0x0000 4 (flag p.capEn + 2 * flag p.idleReq + 4 * flag p.wakeBit) <|> reg o 0x0004 4 (pwrStatus s)
    <|> reg o 0x0008 4 (pwrIn s) <|> reg o 0x000C 4 (p.cap % 65536) <|> regs o 0x0010 4 2 4 (dieCapWord s)
    <|> regs o 0x0020 4 13 4 (fun n => let r := p.rails.getD n (0, 0); r.1 % 65536 + 65536 * (r.2 % 65536))

def tempByte (t : Option Int) : Nat :=
  match t with
  | some x => (x % 256).toNat
  | none => 0x80

def thmStatus (s : State) : Nat :=
  2 ^ 24 * (s.thm.hotDie % 256).toNat + 2 ^ 16 * (s.thm.hotStack % 256).toNat + 256 * (s.thm.hotStackNo % 8)
    + 32 * flag s.thm.curveErr + 16 * flag s.thm.holdSrcDie

def regThm (s : State) (o : Nat) : Option RegVal :=
  reg o 0x0000 4 (thmStatus s) <|> regs o 0x0020 4 8 4 (fun i => curveWord (s.thm.curve.getD i ⟨false, 0, 0⟩))
    <|> regs o 0x0100 4 64 4 (fun i => tempByte (tempAt s.thm.temps i))

/-- SEC_BOOT_STATUS (Table 20-5). -/
def bootStatus (s : State) : Nat :=
  s.sec.bootCause % 16 + 16 * boolBits (s.sec.booted.map fun b => b == some true)
    + 256 * (imgSigner (bootedImage s 1) % 8)

/-- SEC_ATT_CTRL, SEC_STAGE_CTRL and SEC_OWNER_CTRL: STATUS, BUSY and DONE. GO never reads 1: it clears at once, also while
its request waits with BUSY. (DESIGN CHOICE, log 140: R6 and Table 20-5 do not say when GO clears.) -/
def ctrlWord (st : Status) (busy done : Bool) : Nat := 256 * statusCode st + 2 ^ 16 * flag busy + 2 ^ 17 * flag done

def argWord (a : AddrArg) : Nat := a.addr % 2 ^ 48 + 2 ^ 48 * (a.space % 4)

def regSec (s : State) (o : Nat) : Option RegVal :=
  let x := s.sec
  reg o 0x00 4 (bootStatus s)
    <|> reg o 0x10 16 (boolAt x.floors 0 + 2 ^ 32 * boolAt x.floors 1 + 2 ^ 64 * boolAt x.floors 2)
    <|> reg o 0x20 8 identityDigest <|> reg o 0x28 8 x.leaf <|> reg o 0x40 32 0 <|> reg o 0x60 8 (argWord x.attAddr)
    <|> reg o 0x70 8 (argWord x.stageAddr) <|> reg o 0x80 8 (argWord x.ownerAddr)
    <|> reg o 0x68 4 (ctrlWord x.attStatus x.attBusy x.attDone + 2 * flag x.attCert)
    <|> reg o 0x78 4 (ctrlWord x.stageStatus x.stageBusy x.stageDone + 2 * (x.stageKind % 4))
    <|> reg o 0x88 4 (ctrlWord x.ownerStatus x.ownerBusy x.ownerDone)

def latchWord (l : Latch) : Nat := l.arg.toNat + 2 ^ 48 * l.count.toNat + 2 ^ 64 * l.firstT.toNat

def regTel (s : State) (o : Nat) : Option RegVal :=
  let t := s.tel
  reg o 0x0000 8 t.sum.toNat <|> reg o 0x0008 4 t.sbMask.toNat <|> reg o 0x0010 4 t.almVec <|> reg o 0x0018 8 t.evtBase
    <|> reg o 0x0020 4 (flag t.evtEn + 256 * t.evtExp + 65536 * t.evtVec) <|> reg o 0x0024 4 t.evtHead.toNat
    <|> reg o 0x0028 4 t.evtNext.toNat <|> reg o 0x002C 4 t.mirrored.toNat <|> reg o 0x0030 4 (flag t.ovf + 2 * flag t.evtEn)
    <|> reg o 0x0034 4 t.evtDrop.toNat <|> reg o 0x0038 8 t.mirBase <|> reg o 0x0040 4 t.mirRate <|> reg o 0x0048 8 t.trcBase
    <|> reg o 0x0050 8 t.trcMir
    <|> reg o 0x0058 4 (flag t.trcEn + 2 * (t.trcExp - 12) + 32 * t.trcSel + 256 * t.trcPeriod)
    <|> reg o 0x005C 4 t.trcDrop.toNat
    <|> regs o 0x1000 0x10 64 16 (fun n => latchWord (t.latches.getD n ⟨0#64, 0#16, 0#48⟩))

/-- The register that holds window offset `off`, its base as a window offset; none at a hole (R436, R438). -/
def regAt (s : State) (q : Requester) (off : Nat) : Option RegVal :=
  let o := off % 0x400000
  let up (r : Option RegVal) : Option RegVal := r.map fun x => { x with base := off - o + x.base }
  match off / 0x400000 with
  | 0 => up (regHif s o) | 1 => up (regFab s q o) | 2 => up (regChn s o) | 3 => up (regCol s q o) | 4 => up (regKvc s o)
  | 5 => up (regSsa s o) | 6 => up (regMem s o) | 7 => up (regFls s o) | 8 => up (regVse s q o) | 9 => up (regSfu s o)
  | 10 => up (regClu s o) | 11 => up (regPwr s o) | 12 => up (regThm s o) | 13 => up (regSec s o) | 14 => up (regTel s o)
  | _ => none

/-! ### Reading (R438, R439) -/

/-- The snapshot a requester holds. (DESIGN CHOICE, log 20.) -/
def latchOf (s : State) (q : Requester) : Option (Nat × Nat) := (s.hif.latches.find? fun l => l.1 == q).map fun l => l.2

def setLatch (s : State) (q : Requester) (l : Option (Nat × Nat)) : State :=
  let rest := s.hif.latches.filter fun x => !(x.1 == q)
  { s with hif := { s.hif with latches := match l with
      | some p => rest ++ [(q, p.1, p.2)]
      | none => rest } }

/-- A read of FAB_EQX_TIME's low half latches FAB_EQX_STATUS (Table 21-3). -/
def eqxTimeOff : Nat := 0x00400B10

/-- A read of `n` bytes of the one register at an aligned offset: the lowest part of a register captures it whole, a higher
part of a captured register gives the snapshot, a hole gives zero (R439). (DESIGN CHOICE, log 20.) -/
def readPart (s : State) (q : Requester) (off n : Nat) : State × Nat :=
  match regAt s q off with
  | none => (s, 0)
  | some r =>
    if off = r.base then
      let s1 := setLatch s q (if n < r.bytes then some (r.base, r.val) else none)
      let s2 := if off = eqxTimeOff then { s1 with fab := { s1.fab with eqxLatched := BitVec.ofNat 32 (eqxStatus s) } } else s1
      (s2, r.val % 2 ^ (8 * n))
    else
      let v := match latchOf s q with
        | some l => if l.1 = r.base then l.2 else r.val
        | none => r.val
      (s, v / 2 ^ (8 * (off - r.base)) % 2 ^ (8 * n))

/-- Some register holds both halves of the 64-bit word at `off`. -/
def oneRegister (s : State) (q : Requester) (off : Nat) : Bool :=
  match regAt s q off with
  | some r => decide (off + 4 < r.base + r.bytes)
  | none => false

/-- A read of `n` bytes (4 or 8) at an aligned offset. A 64-bit read whose halves are two 32-bit registers reads both, the lower
offset in bits 31:0 (R438). -/
def readReg (s : State) (q : Requester) (off n : Nat) : State × Nat :=
  if n = 8 ∧ oneRegister s q off = false then
    let lo := readPart s q off 4
    let hi := readPart lo.1 q (off + 4) 4
    (hi.1, lo.2 + 2 ^ 32 * hi.2)
  else readPart s q off n

end Sys2Proof.Machine
end

