-- ==== Sys2Proof/Machine/Regs.lean ====
section
/-! DEFINITION. Writes of the set-up window (R438, R440-R448, Tables 21-2 to 21-16), and the registers the sideband reaches
(R456). -/

namespace Sys2Proof.Machine

/-! ### Shapes of a write -/

/-- An RWL field: ignored once set-up is locked (R367, R443, R327, R399, R420, R435). -/
def rwl (s t : State) : State := if s.hif.lock then s else t

/-- "RO, W1C clears": any write of a non-zero value resets the whole counter (R414). -/
def zeroIf (v old : Word) : Word := if v = 0#32 then old else 0#32

/-- W1C flags. -/
def clear1 {n : Nat} (v : Word) (old : BitVec n) : BitVec n := old &&& ~~~(v.setWidth n)

/-- Element of an array of 32-bit registers at `b`, `stride` apart. -/
def elem (o b stride k : Nat) : Option Nat :=
  if b ≤ o ∧ (o - b) % stride = 0 ∧ (o - b) / stride < k then some ((o - b) / stride) else none

def modHif (s : State) (f : Hif → Hif) : State := { s with hif := f s.hif }
def modFab (s : State) (f : Fab → Fab) : State := { s with fab := f s.fab }
def modKvc (s : State) (f : Kvc → Kvc) : State := { s with kvc := f s.kvc }

/-! ### 32-bit registers, by block -/

def wHif (o : Nat) (v : Word) (s : State) : State :=
  match o with
  | 0x0000 => opSetupLock v s
  | 0x0010 => modHif s fun h => { h with dbErr := zeroIf v h.dbErr }
  | 0x0014 => modHif s fun h => { h with ringErr := zeroIf v h.ringErr }
  | 0x0018 => modHif s fun h => { h with cqDrop := zeroIf v h.cqDrop }
  | 0x001C => modHif s fun h => { h with winErr := zeroIf v h.winErr }
  | _ => s

/-- FAB_LINK_CTL: DISABLE takes a link of the layout DOWN (Table 13-13). (DEDUCED, log 116.) -/
def opLinkCtl (l : Nat) (v : Word) (s : State) : State :=
  let d := v.getLsbD 0
  let x := linkAt s l
  let s1 := modLink s l fun y => { y with disable := d }
  if d && x.phase != .off && x.phase != .down then linkDown s1 l .disabled else s1

/-- A router counter cleared; with FAB_NOROUTE the entries already alarmed are forgotten (R295). -/
def clearRouter (d j : Nat) (v : Word) (s : State) : State :=
  let s1 := modRouter s d fun r =>
    match j with
    | 0 => { r with lost := zeroIf v r.lost }
    | 1 => { r with bad := zeroIf v r.bad }
    | 2 => { r with noroute := zeroIf v r.noroute }
    | 3 => { r with hops := zeroIf v r.hops }
    | _ => { r with stall := zeroIf v r.stall }
  if j = 2 ∧ v ≠ 0#32 then modFab s1 fun f => { f with noRouteLatched := [] } else s1

def wFabArrays (o : Nat) (v : Word) (s : State) : State :=
  match elem o 0x0010 4 16, elem o 0x0100 4 64, elem o 0x0840 4 16, elem o 0x0A00 4 16 with
  | some p, _, _, _ => rwl s (modFab s fun f => { f with portCfg := f.portCfg.set p (v &&& portCfgMask) })
  | _, some l, _, _ => opLinkCtl l v s
  | _, _, some p, _ => modFab s fun f => { f with retryNs := f.retryNs.set p v }
  | _, _, _, some i => if i % 8 < 5 then clearRouter (i / 8) (i % 8) v s else s
  | _, _, _, _ => s

def wFab (q : Requester) (o : Nat) (v : Word) (s : State) : State :=
  match o with
  | 0x0000 => rwl s (modFab s fun f => { f with addr := v.toNat % 65536, assigned := v.getLsbD 16 })
  | 0x0004 => opFabTrain v s
  | 0x0800 => opDiscover v s
  | 0x0804 => setSelect s q rtSelOff (v.toNat % 512)
  | 0x0808 => opRtEntry q v s
  | 0x0810 => opLshape 0 (v.setWidth 64) s
  | 0x0814 => opLshape 1 (v.setWidth 64) s
  | 0x0820 => modFab s fun f => { f with lbusy := f.lbusy && !v.getLsbD 0 }
  | 0x0880 => modFab s fun f => { f with stallUs := v }
  | 0x0B00 => modFab s fun f => { f with eqxRoot := v.getLsbD 0
                                         eqxPort := bits v.toNat 6 4
                                         eqxLink := bits v.toNat 10 2
                                         eqxInterval := bits v.toNat 12 20 }
  | _ => wFabArrays o v s

def wCol (q : Requester) (o : Nat) (v : Word) (s : State) : State :=
  let d := o / 0x1000
  if 2 ≤ d then s
  else match o % 0x1000 with
    | 0x00 => setSelect s q (gselOff d) (v.toNat % 4096)
    | 0x0C =>
      match shownGroup s q d with
      | some g => modGroup s g.id fun x => { x with unsyncSkip := x.unsyncSkip && !v.getLsbD 3
                                                    fencedSeen := x.fencedSeen && !v.getLsbD 2 }
      | none => s
    | 0x30 => { s with col := s.col.modify d fun c => { c with flags := clear1 v c.flags } }
    | _ => s

/-- DESIGN CHOICE, log 21. -/
def wKvc (o : Nat) (v : Word) (s : State) : State :=
  match o with
  | 0x0008 => rwl s (modKvc s fun k => { k with seqN := v.toNat % 2 ^ 21 })
  | 0x0018 => modKvc s fun k => { k with poolErr := k.poolErr && !v.getLsbD 0 }
  | 0x0028 => opCurveCommit v s
  | 0x002C => modKvc s fun k => { k with curveStatus := clear1 v k.curveStatus }
  | 0x0340 => modKvc s fun k => { k with refErr := zeroIf v k.refErr }
  | 0x0344 => modKvc s fun k => { k with scoreSkip := zeroIf v k.scoreSkip }
  | 0x0348 => modKvc s fun k => { k with moveFail := zeroIf v k.moveFail }
  | 0x034C => modKvc s fun k => { k with curdSkip := zeroIf v k.curdSkip }
  | _ =>
    match elem o 0x0300 4 16 with
    | some p => modKvc s fun k => { k with poolEmpty := k.poolEmpty.modify p (zeroIf v) }
    | none => s

def wSsa (o : Nat) (v : Word) (s : State) : State :=
  match o % 0x100 with
  | 0x00 => rwl s (if v.toNat % 16 = 0 then s else modSsa s (o / 0x100) fun x => { x with share := v.toNat % 16 })
  | 0x04 => modSsa s (o / 0x100) fun x => { x with flags := clear1 v x.flags }
  | _ => s

/-- A write of MEM_REG; a BURST of 0 is ignored (Table 14-3). -/
def partRegOf (r : PartReg) (v : Nat) : PartReg := ⟨bit v 19, if bits v 8 8 = 0 then r.burst else bits v 8 8, bits v 0 8⟩

/-- DESIGN CHOICE, log 21. -/
def wMem (o : Nat) (v : Word) (s : State) : State :=
  match o with
  | 0x0010 => rwl s (modMem s fun m => { m with dlShare := v.toNat % 16 })
  | 0x0050 => modMem s fun m => { m with scrubH := v }
  | 0x0054 => rwl s (modMem s fun m => { m with linkLimit := v })
  | 0x0058 => rwl s (modMem s fun m => { m with ueLimit := v })
  | 0x0060 => opMarginCtl v s
  | _ =>
    match elem o 0x0110 0x20 8, elem o 0x0200 4 128 with
    | some k, _ => modStk s k fun x => { x with adderFlags := clear1 v x.adderFlags }
    | _, some i =>
      if i % 16 < 8 then modStk s (i / 16) fun x => { x with regs := x.regs.modify (i % 16) fun r => partRegOf r v.toNat } else s
    | _, _ => s

def wFls (o : Nat) (v : Word) (s : State) : State :=
  match o with
  | 0x0000 => modFls s fun f => { f with poolErr := f.poolErr && !v.getLsbD 8 }
  | 0x0004 => rwl s (if v.toNat % 16 = 0 then s else modFls s fun f => { f with share := v.toNat % 16 })
  | 0x0008 => rwl s (modFls s fun f => { f with ueLimit := v })
  | _ => s

def wVse (q : Requester) (o : Nat) (v : Word) (s : State) : State :=
  match o with
  | 0x0000 => setSelect s q idxSelOff (v.toNat % 256)
  | _ =>
    match elem o 0x0028 4 6 with
    | some i =>
      let c := idxCtrs.getD i .expired
      modIndex s (selectOf s q idxSelOff % 256) fun x => idxCtrSet c (zeroIf v (idxCtrGet c x)) x
    | none => s

/-- CLU_SU_OUTSTANDING's ranges (Table 7-3, R447). (DESIGN CHOICE, log 21.) -/
def outstandingOk (v : Nat) : Bool :=
  decide (1 ≤ bits v 0 7 ∧ 1 ≤ bits v 8 7 ∧ bits v 8 7 ≤ 64 ∧ 1 ≤ bits v 16 7 ∧ bits v 16 7 ≤ 64 ∧ 1 ≤ bits v 24 7)

/-- DESIGN CHOICE, log 21. -/
def wClu (o : Nat) (v : Word) (s : State) : State :=
  let c := o / 0x1000
  if o < 0x10000 then
    match o % 0x1000 with
    | 0x30 => rwl s (if outstandingOk v.toNat then modCluster s c fun x => { x with outstanding := v &&& 0x7F7F7F7F#32 } else s)
    | 0x38 => modCluster s c fun x => { x with adderFlags := clear1 v x.adderFlags }
    | 0x48 => rwl s (modCluster s c fun x => { x with wdogMs := v &&& 0xFFFF#32 })
    | 0x4C => opWdogKick c s
    | _ => s
  else if 0x100000 ≤ o ∧ o < 0x110000 ∧ o % 0x100 = 0 then
    modCore s ((o - 0x100000) / 0x100) fun x => { x with flags := clear1 v x.flags }
  else s

/-- PWR_CTRL (Table 18-8). -/
def opPwrCtrl (v : Word) (s : State) : State :=
  let s1 := modPwr s fun p => { p with capEn := v.getLsbD 0 }
  let s2 := if v.getLsbD 1 then opIdleReq s1 else s1
  if v.getLsbD 2 then opPwrWake s2 else s2

def wPwr (o : Nat) (v : Word) (s : State) : State :=
  match o with
  | 0x0000 => opPwrCtrl v s
  | 0x0004 => modPwr s fun p => { p with inWarn := p.inWarn && !v.getLsbD 4 }
  | 0x000C => modPwr s fun p => { p with cap := v.toNat % 65536 }
  | _ => s

def wThm (o : Nat) (v : Word) (s : State) : State :=
  match o with
  | 0x0000 => modThm s fun t => { t with curveErr := t.curveErr && !v.getLsbD 5 }
  | 0x0020 => opDieCurve0 v s
  | _ =>
    match elem o 0x0020 4 8 with
    | some i => rwl s (modThm s fun t => { t with pendCurve := t.pendCurve.set i (curveEntryOf v.toNat) })
    | none => s

def wSec (o : Nat) (v : Word) (s : State) : State :=
  match o with
  | 0x68 => opAttCtrl v s
  | 0x78 => opStageCtrl v s
  | 0x88 => opOwnerCtrl v s
  | _ => s

/-- The event ring lies wholly in direct HBM at a multiple of 4,096, or EN is clear (R410). -/
def evtRingOk (t : Tel) : Bool := !t.evtEn || (t.evtBase % 4096 == 0 && inHbm t.evtBase (32 * 2 ^ t.evtExp))

/-- TEL_EVT_CFG: ignored as a whole where EXP is out of range or the ring would not lie in direct HBM. -/
def opEvtCfg (v : Word) (s : State) : State :=
  let w := v.toNat
  let t : Tel := { s.tel with evtEn := bit w 0, evtExp := bits w 8 5, evtVec := bits w 16 11 }
  if decide (12 ≤ t.evtExp ∧ t.evtExp ≤ 20) && evtRingOk t then { s with tel := t } else s

def opEvtBase (v : Nat) (s : State) : State :=
  let t : Tel := { s.tel with evtBase := v % 2 ^ 48 }
  if evtRingOk t then { s with tel := t } else s

/-- TEL_TRC_CFG: a TEXP beyond 22 is ignored as a whole; sampling starts a PERIOD after EN is set.
(DESIGN CHOICE, log 21; DESIGN CHOICE, log 153.) -/
def opTrcCfg (v : Word) (s : State) : State :=
  let w := v.toNat
  if 10 < bits w 1 4 then s
  else modTel s fun t =>
    { t with trcEn := bit w 0
             trcExp := 12 + bits w 1 4
             trcSel := bits w 5 3
             trcPeriod := bits w 8 24
             trcLast := if t.trcEn then t.trcLast else s.now }

def wTel (o : Nat) (v : Word) (s : State) : State :=
  match o with
  | 0x0008 => modTel s fun t => { t with sbMask := v &&& 0x3FFFFF#32 }
  | 0x0010 => rwl s (modTel s fun t => { t with almVec := v.toNat % 2048 })
  | 0x0020 => rwl s (opEvtCfg v s)
  | 0x0024 => opEvtHead v s
  | 0x0034 => modTel s fun t => { t with evtDrop := zeroIf v t.evtDrop }
  | 0x0040 => modTel s fun t => { t with mirRate := v.toNat % 65536 }
  | 0x0058 => opTrcCfg v s
  | 0x005C => modTel s fun t => { t with trcDrop := zeroIf v t.trcDrop }
  | _ => s

/-- A 32-bit write of a 32-bit register; a hole and a read-only register ignore it. (DEDUCED, log 154.) -/
def write32 (q : Requester) (off : Nat) (v : Word) (s : State) : State :=
  let o := off % 0x400000
  match off / 0x400000 with
  | 0 => wHif o v s | 1 => wFab q o v s | 3 => wCol q o v s | 4 => wKvc o v s | 5 => wSsa o v s | 6 => wMem o v s
  | 7 => wFls o v s | 8 => wVse q o v s | 10 => wClu o v s | 11 => wPwr o v s | 12 => wThm o v s | 13 => wSec o v s
  | 14 => wTel o v s | _ => s

/-! ### Words of registers wider than 32 bits -/

/-- A 64-bit word of a wide register: what a half write joins with, whether an upper half is held until the lower one comes
(RW and RWL fields, R440), and what the whole word does. A word other than word 0 of a register that commits on word 0 is held
as it is written, half by half. -/
structure WideWord where
  cur   : Nat
  holds : Bool
  act   : Dword → State → State

/-- A word of a register that commits on word 0, before its commit: what is held, else what is in force. -/
def ring0Cur (s : State) (f w : Nat) : Nat :=
  match s.hif.ring0Held.find? fun p => p.1 == f && p.2.1 == w with
  | some p => p.2.2.toNat
  | none => (s.hif.ring0.getD f 0#256).toNat / 2 ^ (64 * w) % 2 ^ 64

def fnCfgOf (v : Nat) : FnCfg :=
  { en := bit v 48, perm := BitVec.ofNat 8 (bits v 40 5), vecN := bits v 28 12, vecBase := bits v 17 11, ringN := bits v 8 9,
    ringBase := bits v 0 8 }

def wideHif (s : State) (o : Nat) : Option WideWord :=
  match elem o 0x1000 8 33, elem o 0x2000 8 132 with
  | some f, _ => some ⟨fnCfgWord (fnCfg s f), true, fun v t =>
      rwl t (modHif t fun h => { h with fnCfg := h.fnCfg.set f (fnCfgOf v.toNat) })⟩
  | _, some i => some ⟨ring0Cur s (i / 4) (i % 4), i % 4 == 0, opRing0 (i / 4) (i % 4)⟩
  | _, _ => none

def wideFab (s : State) (o : Nat) : Option WideWord :=
  match o with
  | 0x0818 => some ⟨s.fab.lmapBase, true, opLshape 2⟩
  | 0x0B08 => some ⟨0, false, opEqxSet⟩
  | _ => none

def poolCur (p : FramePool) (w : Nat) : Nat :=
  match assocGet p.held w with
  | some v => v.toNat
  | none => poolRegWord p / 2 ^ (64 * w) % 2 ^ 64

def wideKvc (s : State) (o : Nat) : Option WideWord :=
  match o with
  | 0x0000 => some ⟨s.kvc.seqBase, true, fun v t => rwl t (modKvc t fun k => { k with seqBase := v.toNat % 2 ^ 48 })⟩
  | 0x0020 => some ⟨s.kvc.curveBase, true, fun v t => rwl t (modKvc t fun k => { k with curveBase := v.toNat % 2 ^ 48 })⟩
  | 0x0030 => some ⟨s.kvc.sketchBase, true, fun v t => modKvc t fun k => { k with sketchBase := v.toNat % 2 ^ 48 }⟩
  | _ =>
    match elem o 0x0100 8 64 with
    | some i => if i % 4 < 3 then some ⟨poolCur (poolAt s (i / 4)) (i % 4), i % 4 == 0, opKvcPool (i / 4) (i % 4)⟩ else none
    | none => none

/-- MEM_PART_MAP without its reserved bits (R312). (DESIGN CHOICE, log 20.) -/
def partMapOf (v : Nat) : BitVec 96 := BitVec.ofNat 96 v &&& 0x077777777777777777777777#96

def grantCur (g : Grant) (w : Nat) : Nat :=
  if w = 0 then grantWord g % 2 ^ 64
  else match g.held with
    | some v => v.toNat
    | none => grantWord g / 2 ^ 64

def wideMem (s : State) (o : Nat) : Option WideWord :=
  let m := s.memc.partMap.toNat
  match o with
  | 0x0000 => some ⟨m % 2 ^ 64, true, fun v t =>
      rwl t (modMem t fun x => { x with partMap := partMapOf (x.partMap.toNat / 2 ^ 64 * 2 ^ 64 + v.toNat) })⟩
  | 0x0008 => some ⟨m / 2 ^ 64, true, fun v t =>
      rwl t (modMem t fun x => { x with partMap := partMapOf (x.partMap.toNat % 2 ^ 64 + v.toNat * 2 ^ 64) })⟩
  | 0x0500 => some ⟨0, false, fun v t => lendSubmit t ⟨0, v.toNat % 2 ^ 48⟩ none⟩
  | _ =>
    match elem o 0x0400 8 32 with
    | some i => some ⟨grantCur (grantAt s (i / 2)) (i % 2), i % 2 == 0, opLendGrant (i / 2) (i % 2)⟩
    | none => none

def wideFls (s : State) (o : Nat) : Option WideWord :=
  match o with
  | 0x0010 => some ⟨0, false, fun v t => wheySubmit t ⟨0, v.toNat % 2 ^ 48⟩ none⟩
  | _ =>
    match elem o 0x0100 8 16 with
    | some p => some ⟨wheyPoolWord (s.fls.pools.getD p ⟨false, false, 0, 0⟩), true, opFlsPool p⟩
    | none => none

/-- OVER and VALID of a fault register cleared by a 1 (Table 7-4), by its upper word. -/
def clearFault (v : Nat) (f : FaultReg) : FaultReg := { f with valid := f.valid && !bit v 4, again := f.again && !bit v 5 }

def wideClu (o : Nat) : Option WideWord :=
  let c := o / 0x1000
  if o < 0x10000 then
    match o % 0x1000 with
    | 0x20 => some ⟨0, false, opCluWcReset c⟩
    | 0x50 => some ⟨0, false, opSuRearm c false⟩
    | 0x58 => some ⟨0, false, opSuRearm c true⟩
    | _ => none
  else if 0x100000 ≤ o ∧ o < 0x110000 then
    match o % 0x100 with
    | 0x18 => some ⟨0, false, fun v t => modCore t ((o - 0x100000) / 0x100) fun x => { x with faultLd := clearFault v.toNat x.faultLd }⟩
    | 0x28 => some ⟨0, false, fun v t => modCore t ((o - 0x100000) / 0x100) fun x => { x with faultSt := clearFault v.toNat x.faultSt }⟩
    | _ => none
  else none

/-- A 64-bit word of the nonce replaced. (DESIGN CHOICE, log 20.) -/
def nonceWord (x : BitVec 256) (w : Nat) (v : Dword) : BitVec 256 := putWord256 x w v

def wideSec (s : State) (o : Nat) : Option WideWord :=
  let arg (v : Dword) : AddrArg := ⟨bits v.toNat 48 2, bits v.toNat 0 48⟩
  match o with
  | 0x60 => some ⟨argWord s.sec.attAddr, true, fun v t => modSec t fun x => { x with attAddr := arg v }⟩
  | 0x70 => some ⟨argWord s.sec.stageAddr, true, fun v t => modSec t fun x => { x with stageAddr := arg v }⟩
  | 0x80 => some ⟨argWord s.sec.ownerAddr, true, fun v t => modSec t fun x => { x with ownerAddr := arg v }⟩
  | _ =>
    match elem o 0x40 8 4 with
    | some i => some ⟨s.sec.attNonce.toNat / 2 ^ (64 * i) % 2 ^ 64, false, fun v t =>
        modSec t fun x => { x with attNonce := nonceWord x.attNonce i v }⟩
    | none => none

def wideTel (s : State) (o : Nat) : Option WideWord :=
  match o with
  | 0x0000 => some ⟨0, false, opAlarmSum⟩
  | 0x0018 => some ⟨s.tel.evtBase, true, fun v t => rwl t (opEvtBase v.toNat t)⟩
  | 0x0038 => some ⟨s.tel.mirBase, true, fun v t => rwl t (modTel t fun x => { x with mirBase := v.toNat % 2 ^ 48 })⟩
  | 0x0048 => some ⟨s.tel.trcBase, true, fun v t => rwl t (modTel t fun x => { x with trcBase := v.toNat % 2 ^ 48 })⟩
  | 0x0050 => some ⟨s.tel.trcMir, true, fun v t => rwl t (modTel t fun x => { x with trcMir := v.toNat % 2 ^ 48 })⟩
  | _ => none

/-- The writable 64-bit word at an aligned offset, where there is one. (DESIGN CHOICE, log 20.) -/
def wideAt (s : State) (off : Nat) : Option WideWord :=
  let o := off % 0x400000
  match off / 0x400000 with
  | 0 => wideHif s o | 1 => wideFab s o | 4 => wideKvc s o | 6 => wideMem s o | 7 => wideFls s o | 10 => wideClu o
  | 13 => wideSec s o | 14 => wideTel s o | _ => none

/-- A requester's held upper half (R440). (DESIGN CHOICE, log 20.) -/
def heldHi (s : State) (q : Requester) (off : Nat) : Option Word :=
  (s.hif.heldHi.find? fun p => p.1 == q && p.2.1 == off).map fun p => p.2.2

def dropHeld (s : State) (q : Requester) (off : Nat) : State :=
  modHif s fun h => { h with heldHi := h.heldHi.filter fun p => !(p.1 == q && p.2.1 == off) }

def holdHi (s : State) (q : Requester) (off : Nat) (v : Word) : State :=
  modHif (dropHeld s q off) fun h => { h with heldHi := h.heldHi ++ [(q, off, v)] }

def joinWord (hi lo : Nat) : Dword := BitVec.ofNat 64 (hi % 2 ^ 32 * 2 ^ 32 + lo % 2 ^ 32)

/-- A 32-bit write of the half `upper` of a wide word at `off`. (DESIGN CHOICE, log 20.) -/
def writeHalf (q : Requester) (off : Nat) (x : WideWord) (upper : Bool) (v : Word) (s : State) : State :=
  let cur := x.cur
  if upper then
    if x.holds then holdHi s q off v else x.act (joinWord v.toNat cur) s
  else
    let hi := match heldHi s q off with
      | some h => if x.holds then h.toNat else cur / 2 ^ 32
      | none => cur / 2 ^ 32
    x.act (joinWord hi v.toNat) (dropHeld s q off)

/-- A naturally aligned 32-bit write. -/
def writeAt32 (q : Requester) (off : Nat) (v : Word) (s : State) : State :=
  match wideAt s (off / 8 * 8) with
  | some x => writeHalf q (off / 8 * 8) x (off % 8 == 4) v s
  | none => write32 q off v s

/-- A naturally aligned 64-bit write: a wide word whole, or two 32-bit registers, the lower offset first. -/
def writeAt64 (q : Requester) (off : Nat) (v : Dword) (s : State) : State :=
  match wideAt s off with
  | some x => x.act v (dropHeld s q off)
  | none => write32 q (off + 4) ((v >>> 32).setWidth 32) (write32 q off (v.setWidth 32) s)

/-- HIF_WIN_ERR counts an access of another width, or one that is misaligned. -/
def countWinErr (s : State) : State :=
  ctrSat 0x001C s.hif.winErr (satAdd s.hif.winErr 1) (modHif s fun h => { h with winErr := satAdd h.winErr 1 })

/-- A write of the set-up window; `width` in bits (R438). -/
def regWrite (q : Requester) (off width : Nat) (v : Dword) (s : State) : State :=
  if width = 32 ∧ off % 4 = 0 then writeAt32 q off (v.setWidth 32) s
  else if width = 64 ∧ off % 8 = 0 then writeAt64 q off v s
  else countWinErr s

/-- A requester the module has: the host, a control core, the module controller (R439). -/
def requesterOk (q : Requester) : Bool :=
  match q with
  | .core c => decide (c < 16)
  | _ => true

/-- REGISTER_WRITE. (DEDUCED, log 154.) -/
def execRegisterWrite (req : Requester) (offset : Nat) (width : Nat) (value : Dword) (s : State) :
    Host.Outcome State Fault Refusal :=
  if !requesterOk req then .refused (.noSuchUnit "cluster")
  else if 0x04000000 ≤ offset then .refused (.noSuchUnit "offset of the set-up window")
  else whenUp s (regWrite req offset width value s)

/-- FAB_EQX_TIME: a read latches the counter for its requester, and FAB_EQX_STATUS (R302, R439). -/
def execFabEqxTime (req : Requester) (s : State) : Host.Outcome State Fault Refusal :=
  if !requesterOk req then .refused (.noSuchUnit "cluster") else whenUp s (readReg s req eqxTimeOff 4).1

/-! ### The sideband's registers (R456, Table 22-4) -/

/-- A register of Table 22-4: some true where its domain is the package. (DESIGN CHOICE, log 23.) -/
def sbDomain (off : Nat) : Option Bool :=
  if off % 4 ≠ 0 then none
  else if [0x03800000, 0x03800004, 0x03800008, 0x02C00004, 0x02C00008, 0x02C0000C, 0x03000000, 0x03400000, 0x03400020,
      0x03400024].contains off then some false
  else if 0x02C00020 ≤ off ∧ off < 0x02C00054 then some false
  else if 0x03000100 ≤ off ∧ off < 0x03000200 then some false
  else if 0x03400010 ≤ off ∧ off < 0x03400020 then some false
  else if [0x0180005C, 0x01C0000C, 0x00400000, 0x00000008].contains off then some true
  else if 0x03801000 ≤ off ∧ off < 0x03801400 then some true
  else none

/-- SEC_BOOT_STATUS, the one register the ROM monitor reads (R424). -/
def bootStatusOff : Nat := 0x03400000

/-- READ32. (DESIGN CHOICE, log 23.) -/
def execRead32 (offset : Nat) (s : State) : Host.Outcome State Fault Refusal :=
  sideband s (offset == bootStatusOff) fun t =>
    match sbDomain offset with
    | none => sbAnswer t .badDescriptor []
    | some pkg =>
      if pkg && !powered t.pwr.state then sbAnswer t .empty (leBytes 4 0)
      else
        let r := readReg t .controller offset 4
        sbAnswer r.1 .ok (leBytes 4 r.2)

/-- The registers the sideband writes: TEL_ALARM_SUM, TEL_ALARM_SB_MASK, PWR_CAP and THM_STATUS; the rest are read-only to it.
(DESIGN CHOICE, log 23.) -/
def sbWrites (off : Nat) : Bool := [0x03800000, 0x03800004, 0x03800008, 0x02C0000C, 0x03000000].contains off

/-- WRITE32. (DESIGN CHOICE, log 23.) -/
def execWrite32 (offset : Nat) (value : Word) (s : State) : Host.Outcome State Fault Refusal :=
  sideband s false fun t =>
    match sbDomain offset with
    | none => sbAnswer t .badDescriptor []
    | some pkg =>
      if pkg && !powered t.pwr.state then sbAnswer t .empty []
      else sbAnswer (if sbWrites offset then writeAt32 .controller offset value t else t) .ok []

end Sys2Proof.Machine
end

