-- ==== Sys2Proof/Machine/SqFetch.lean ====
section
/-! DEFINITION. The fetch of submission entries and their decoding (R371, R373, R377, Tables 17-5 and 17-7). -/

namespace Sys2Proof.Machine

/-- A decoded command: its class, whether it proceeds in HOLD and WITHDRAWN, and its own rules. -/
structure HostOp where
  cls    : CmdClass
  always : Bool
  run    : HostHdr → State → State

/-- An address argument at byte `i` of an entry; none with a reserved bit set. -/
def entryArg (b : Bytes) (i : Nat) : Option AddrArg :=
  let r := argOf (leAt b i 8)
  if r.2 then some r.1 else none

/-- The bytes of an entry from byte `i` on are zero. (DEDUCED, log 18.) -/
def restZero (b : Bytes) (i : Nat) : Bool := allZero (b.drop i)

/-- A 12-bit group ID at byte 16. -/
def entryGroup (b : Bytes) : Option Nat :=
  if leAt b 16 2 < 4096 ∧ restZero b 18 then some (leAt b 16 2) else none

/-- A graph ID at byte 16 with nothing behind it. -/
def entryGid (b : Bytes) : Option Half := if restZero b 18 then some (BitVec.ofNat 16 (leAt b 16 2)) else none

/-- The command of an entry by OPC; none where the OPC is reserved or a reserved field of its arguments is not zero. -/
def hostOpOf (b : Bytes) : Option HostOp :=
  match byteAt b 0 with
  | 0x01 => if restZero b 24 then (entryArg b 16).map fun a => ⟨.graph, false, fun h => opGraphLoad h a⟩ else none
  | 0x02 =>
    if allZero (sub b 18 6) && restZero b 32 then
      some ⟨.graph, false, fun h => opGraphStart h (BitVec.ofNat 16 (leAt b 16 2)) (BitVec.ofNat 64 (leAt b 24 8))⟩
    else none
  | 0x03 => (entryGid b).map fun g => ⟨.graph, true, fun h => opGraphPause h g⟩
  | 0x04 => (entryGid b).map fun g => ⟨.graph, false, fun h => opGraphResume h g⟩
  | 0x05 => (entryGid b).map fun g => ⟨.graph, true, fun h => opGraphUnload h g⟩
  | 0x06 =>
    if leAt b 18 2 < 1024 && allZero (sub b 20 12) && restZero b 48 then
      some ⟨.graph, false, fun h =>
        opStreamRearm h (BitVec.ofNat 16 (leAt b 16 2)) (leAt b 18 2) (BitVec.ofNat 128 (leAt b 32 16))⟩
    else none
  | 0x10 =>
    if byteAt b 28 < 2 && restZero b 29 then
      (entryArg b 16).map fun a => ⟨.module, false, fun h =>
        opTableLoad h a (leAt b 24 2) (BitVec.ofNat 16 (leAt b 26 2)) (byteAt b 28 == 1)⟩
    else none
  | 0x11 =>
    if allZero (sub b 17 3) && restZero b 28 then
      some ⟨.graph, false, fun h =>
        opWcReset h (byteAt b 16) (BitVec.ofNat 32 (leAt b 20 4)) (BitVec.ofNat 32 (leAt b 24 4))⟩
    else none
  | 0x20 => if restZero b 24 then (entryArg b 16).map fun a => ⟨.group, false, fun h => opGroupOpen h a⟩ else none
  | 0x21 => (entryGroup b).map fun g => ⟨.group, false, fun h => opGroupReset h g⟩
  | 0x22 => (entryGroup b).map fun g => ⟨.group, true, fun h => opGroupClose h g⟩
  | 0x30 =>
    if restZero b 32 then
      match entryArg b 16, entryArg b 24 with
      | some p, some r => some ⟨.module, false, fun h => opCableCheck h p r⟩
      | _, _ => none
    else none
  | 0x31 => if restZero b 24 then (entryArg b 16).map fun a => ⟨.data, false, fun h => opLendCopy h a⟩ else none
  | 0x32 => if restZero b 24 then (entryArg b 16).map fun a => ⟨.data, false, fun h => opWheyXfer h a⟩ else none
  | 0x40 => if restZero b 48 then some ⟨.ring, true, fun h => opRingCreate h (BitVec.ofNat 256 (leAt b 16 32))⟩ else none
  | 0x41 => if restZero b 18 then some ⟨.ring, true, fun h => opRingDelete h (leAt b 16 2)⟩ else none
  | 0x7F =>
    if byteAt b 28 < 2 && restZero b 29 then
      (entryArg b 16).map fun a => ⟨.almanac, true, fun h =>
        opAlmanac h a (BitVec.ofNat 32 (leAt b 24 4)) (byteAt b 28 == 1)⟩
    else none
  | _ => none

/-- The header of an entry. -/
def entryHdr (fn ring : Nat) (b : Bytes) : HostHdr := ⟨fn, ring, BitVec.ofNat 64 (leAt b 8 8), bit (byteAt b 1) 1⟩

/-- One entry decoded: BAD_DESCRIPTOR for a reserved OPC or field (R377), else the command. (DEDUCED, log 18.) -/
def decodeEntry (fn ring : Nat) (b : Bytes) (s : State) : State :=
  let h := entryHdr fn ring b
  if byteAt b 1 / 4 ≠ 0 || !allZero (sub b 2 6) then complete s h .badDescriptor 0
  else match hostOpOf b with
    | some c => hostGate s h c.cls c.always (c.run h)
    | none => complete s h .badDescriptor 0

/-- A FENCE entry waits while an earlier command of its SQ has not completed (R373). -/
def entryWaits (s : State) (fn ring : Nat) (b : Bytes) : Bool :=
  bit (byteAt b 1) 0 && s.hif.inflight.any fun i => i.hdr.fn == fn && i.hdr.ring == ring

/-- The fetched entries decoded in order, as far as no FENCE holds them. (DEDUCED, log 18.) -/
def decodeRun (fn ring : Nat) : Nat → State → State
  | 0, s => s
  | n + 1, s =>
    match findRing s fn ring with
    | none => s
    | some x =>
      match x.fetched with
      | [] => s
      | b :: t =>
        if entryWaits s fn ring b then s
        else decodeRun fn ring n (decodeEntry fn ring b (modRing s fn ring fun y => { y with fetched := t }))

/-- Entries of a burst: up to 16, none while completions wait (R375) or a RESYNC stops the fetch (R382). (DEDUCED, log 18.) -/
def burst (s : State) (x : Ring) : Nat :=
  if !x.backlog.isEmpty || !x.fetched.isEmpty || resyncing s x.fn then 0 else min 16 (x.tail - x.head).toNat

/-- The 64 bytes of SQ entry `i`. -/
def sqEntry (s : State) (x : Ring) (i : Nat) : Bytes := hostPeek s (x.sqBase + 64 * (i % 2 ^ x.sqExp)) 64

/-- One burst fetched, and what is fetched decoded; then what waited for the decoding. (DESIGN CHOICE, log 12; DEDUCED, log 18.) -/
def sqFetch (fn ring : Nat) (s : State) : State :=
  match findRing s fn ring with
  | none => s
  | some x =>
    let n := burst s x
    let es := (List.range n).map fun i => sqEntry s x (x.head.toNat + i)
    let s1 := modRing s fn ring fun y => { y with fetched := y.fetched ++ es, head := y.head + BitVec.ofNat 32 n }
    almAll (afterCmd (decodeRun fn ring (x.fetched.length + n) s1)) fn

/-- SQ_FETCH. Commands wait undecoded while the module does not run (R389). -/
def execSqFetch (fn ring : Nat) (s : State) : Host.Outcome State Fault Refusal :=
  if 32 < fn then .refused (.noSuchUnit "function")
  else .next (if decoding s.pwr.state then sqFetch fn ring s else s)

end Sys2Proof.Machine
end

