-- ==== Sys2Proof/Machine/Vec.lean ====
section
/-! DEFINITION. The operations of VEC and of its special-function unit (R61, R66, R89-R96, R113-R116, R217, R219). One command
works one tile of the current work descriptor. -/

namespace Sys2Proof.Machine

/-! ### Tiles of packed rows -/

/-- Bytes of a tile of `m` rows of `n` elements, each row packed by R47. -/
def packTileBytes (k : NumFmt) (m n : Nat) : Nat := roundUp (m * packedBytes k n) 32

/-- Element (r, c) of a tile of packed rows. -/
def tileElem (k : NumFmt) (n : Nat) (d : Bytes) (r c : Nat) : Nat :=
  elemAt k (sub d (r * packedBytes k n) (packedBytes k n)) c

/-- The tile rows pack into. -/
def packRows (k : NumFmt) (rows : List (List Nat)) : Bytes :=
  let b := (rows.map (pack k)).flatten
  padTo (roundUp b.length 32) b

/-- What a tile's body makes of its inputs. -/
inductive VecRes where
  | bad                                            -- BAD_DESCRIPTOR before the tile's output is written
  | poison (s : State)                             -- a vector it reads is uncorrectable
  | skip (s : State)                               -- an empty handle is pushed
  | ok (s : State) (outs : List Bytes) (fl : Fl3)

/-! ### The frame of every operation -/

/-- Buffers for a tile's outputs, one per port. -/
inductive DrawnAll where
  | stall
  | bad
  | ok (s : State) (at_ : List (Nat × Nat))

def drawAll (s : State) (b : Bound) : List (Nat × Nat) → DrawnAll
  | [] => .ok s []
  | p :: t =>
    match drawBuffer s b p.1 p.2 with
    | .stall => .stall
    | .bad => .bad
    | .ok s1 pool a =>
      match drawAll s1 b t with
      | .ok s2 l => .ok s2 ((pool, a) :: l)
      | x => x

/-- The tile is over: a tile boundary of the core (R108), and the descriptor's end with its last tile (R43).
(DESIGN CHOICE, log 53.) -/
def vecEnd (s : State) (b : Bound) (io : VecIO) (st : Status) : State :=
  let s1 := tileBoundary s io.core
  settle (if io.last then advance (notifyEvent s1 b io.notify st) b else s1) b.slot

/-- An empty handle on every output (R27). -/
def vecEmpty (s : State) (b : Bound) (io : VecIO) (outs : List Nat) (pred : Nat) : State :=
  vecEnd (outs.foldl (fun t p => emit t b.slot b.idx p { emptyHandle io.tag io.last with pred := pred }) s) b io .empty

/-- One handle per output: written bytes where there are any, the status R28 gives. -/
def vecPush (s : State) (b : Bound) (io : VecIO) (pred : Nat) (st : Status) (outs : List (Nat × Nat))
    (at_ : List (Nat × Nat)) (data : List Bytes) : State :=
  let one (s : State) (x : Nat × (Nat × Nat) × (Nat × Nat)) : State :=
    let s1 := match data[x.1]? with
      | some d => (memWrite s x.2.2.2 d).getD s
      | none => s
    emit s1 b.slot b.idx x.2.1.1 ⟨st, pred, io.last, 0#16, x.2.1.2, x.2.2.1, io.tag, x.2.2.2⟩
  vecEnd ((numbered (outs.zip at_) 0).foldl one s) b io .ok

/-- The outputs drawn and pushed, then the inputs released; nothing happens while the output pool is empty (R35). -/
def vecOut (s0 s : State) (b : Bound) (io : VecIO) (hs : List Handle) (pred : Nat) (st : Status) (outs : List (Nat × Nat))
    (data : List Bytes) (fl : Fl3) : State :=
  match drawAll s b outs with
  | .stall => s0
  | .bad => haltStation s0 b .badDescriptor
  | .ok t at_ => vecPush (releaseAll (raise t io.core fl) b.slot b.idx hs) b io pred st outs at_ data

/-- Every input's bytes, from input `i` on, where `sees` names the bytes that are examined (R131): none where a handle is shorter
than its operand. -/
def vecRead (sees : Nat → Nat → Bool) : Nat → State → List (Handle × Nat) → Option (State × List Bytes × List Status)
  | _, s, [] => some (s, [], [])
  | i, s, p :: t =>
    match takeBytes s p.1 p.2 (sees i) with
    | none => none
    | some x => (vecRead sees (i + 1) x.st t).map fun r => (r.1, x.data :: r.2.1, x.status :: r.2.2)

/-- Byte `i` of a tile of packed rows belongs to an enabled element. -/
def elemSeen (k : NumFmt) (m n : Nat) (en : BitVec 128 × BitVec 64) (i : Nat) : Bool :=
  let pb := packedBytes k n
  let w := elemBits k
  let r := i / pb
  let c := 8 * (i % pb) / w
  pb != 0 && r < m && (List.range (8 / w + 2)).any fun j =>
    c + j < n && decide ((c + j) * w < 8 * (i % pb) + 8) && enabledAt en r (c + j)

/-- Byte `i` of a tile of rows of `rb` bytes lies in a row with an enabled element. -/
def rowSeen (rb n : Nat) (en : BitVec 128 × BitVec 64) (i : Nat) : Bool :=
  rb != 0 && (List.range n).any fun c => enabledAt en (i / rb) c

/-- An operation. `okRec`: its record passes decode. `needs`: bytes of each input. `sees`: which bytes of an input are examined.
`outs`: ports and bytes of the outputs. `body`: what the popped bytes become under the consumed handle's predicate entry (R130). -/
structure VecPlan where
  okRec : Bool
  needs : Handle → List Nat
  sees  : BitVec 128 × BitVec 64 → Nat → Nat → Bool
  outs  : Handle → List (Nat × Nat)
  body  : State → BitVec 128 × BitVec 64 → List Bytes → VecRes

/-- One tile of an operation. Of several inputs, the first listed gives the predicate entry. (DESIGN CHOICE, log 53; DEDUCED, log 54;
DESIGN CHOICE, log 160.) -/
def vecTile (s : State) (io : VecIO) (p : VecPlan) : State :=
  match bound s .vec io.core with
  | none => s
  | some b =>
    let h0 := emptyHandle io.tag io.last
    let ports := (p.outs h0).map Prod.fst
    if !mayStart s b || b.st.workN ≤ b.st.wdi then s
    else if !p.okRec || !portsBound b io.inPorts ports || (p.needs h0).length ≠ io.inPorts.length || !allDistinct io.inPorts then
      haltStation s b .badDescriptor
    else if !canPushAll s b.slot b.idx ports then s
    else
      match popAll s b.slot b.idx io.inPorts with
      | none => waitInputs s b.slot b.idx io.inPorts
      | some r =>
        let hs := r.2
        let h := hs.headD h0
        if hs.any isEmptyHandle || io.m = 0 || io.n = 0 then vecEmpty (releaseAll r.1 b.slot b.idx hs) b io ports h.pred
        else
          match vecRead (p.sees (predOf (coreAt r.1 io.core) h.pred)) 0 r.1 (hs.zip (p.needs h)) with
          | none => haltStation s b .badDescriptor
          | some q =>
            let st := portStatus (io.inPorts.zip q.2.2)
            if isPoison st then vecOut s q.1 b io hs h.pred st (p.outs h) [] fl0
            else
              match p.body q.1 (predOf (coreAt q.1 io.core) h.pred) q.2.1 with
              | .bad => haltStation s b .badDescriptor
              | .poison t => vecOut s t b io hs h.pred .pagePoisoned (p.outs h) [] fl0
              | .skip t => vecEmpty (releaseAll t b.slot b.idx hs) b io ports h.pred
              | .ok t ds fl =>
                vecOut s t b io hs h.pred st ((p.outs h).zip ds |>.map fun x => (x.1.1, x.2.length)) ds fl

/-- A VEC command as a step: the core must exist. -/
def vecCmd (s : State) (io : VecIO) (p : VecPlan) : Host.Outcome State Fault Refusal :=
  onUnit io.core 256 "core" (vecTile s io p)

/-! ### Rows of results -/

/-- Results of every element, none where it is disabled; and their flags. -/
def overTile (en : BitVec 128 × BitVec 64) (m n : Nat) (f : Nat → Nat → Nat × Fl3) : List (List (Option Nat)) × Fl3 :=
  let rows := (List.range m).map fun r => (List.range n).map fun c => if enabledAt en r c then some (f r c) else none
  (rows.map fun r => r.map fun e => e.map Prod.fst,
   rows.foldl (fun a r => r.foldl (fun x e => flOr x ((e.map Prod.snd).getD fl0)) a) fl0)

/-- Codes with +0 in place of a disabled element (R131). -/
def plainRows (rows : List (List (Option Nat))) : List (List Nat) := rows.map fun r => r.map fun e => e.getD 0

/-- Values converted to MX blocks along each row (R58, R91): elements, then scales. (DEDUCED, log 54.) -/
def mxRows (c : Ctl) (src : AnyFmt) (k : NumFmt) (rows : List (List (Option Nat))) : List Bytes × Nat :=
  let out := rows.map fun r =>
    let vs := r.map fun e => match e with
      | some x => operandAny c src x
      | none => (Val.zero false, 0)
    let q := convMxRow c k (r.length / 32 + 1) (vs.map Prod.fst)
    (q.1, q.2.1, q.2.2 ||| orAll (vs.map Prod.snd))
  let sc := (out.map fun x => x.1.map fun v => BitVec.ofNat 8 v).flatten
  ([packRows k (out.map fun x => x.2.1), padTo (roundUp sc.length 32) sc], orAll (out.map fun x => x.2.2))

/-- The final conversion of rows of codes (R54-R58, R91). -/
def finalRows (c : Ctl) (src : AnyFmt) (k : NumFmt) (mx : Bool) (rows : List (List (Option Nat))) : List Bytes × Nat :=
  if mx then mxRows c src k rows
  else
    let out := rows.map fun r => r.map fun e => e.map fun x => convAny c src (anyFmt k) x
    ([packRows k (plainRows (out.map fun r => r.map fun e => e.map Prod.fst))],
     orAll (out.map fun r => orAll (r.map fun e => (e.map Prod.snd).getD 0)))

/-- Ports and bytes of a result of `m` rows of `n`: the scales of MX blocks leave on the next port (R47, R121). (DEDUCED, log 54.) -/
def outPortsOf (io : VecIO) (k : NumFmt) (mx : Bool) : List (Nat × Nat) :=
  (io.outPort, packTileBytes k io.m io.n)
    :: (if mx then [(io.outPort + 1, roundUp (io.m * ((io.n + 31) / 32)) 32)] else [])

/-! ### Vectors in memory -/

/-- Vectors read, those not wanted left out: none at a hole; and whether a sector was uncorrectable (R308, R309).
(DEDUCED, log 55.) -/
def readVecs (s : State) : List (Bool × Nat × Nat) → Option (State × List Bytes × Bool)
  | [] => some (s, [], false)
  | p :: t =>
    if !p.1 then (readVecs s t).map fun r => (r.1, [] :: r.2.1, r.2.2)
    else
      let q := memRead s p.2.1 p.2.2
      match q.2 with
      | .hole => none
      | .bad _ d => (readVecs q.1 t).map fun r => (r.1, d :: r.2.1, true)
      | .ok d => (readVecs q.1 t).map fun r => (r.1, d :: r.2.1, r.2.2)

/-- An element of a vector of FP32, or of BF16 widened exactly. -/
def vecElem (isBf : Bool) (d : Bytes) (i : Nat) : Nat := if isBf then leAt d (2 * i) 2 * 65536 else leAt d (4 * i) 4

/-! ### Special functions (R96) -/

/-- The formats of R95. -/
def sfuFmt (code : Nat) : Option NumFmt := if code = 0 || code = 1 || code = 2 || code = 3 || code = 0xF then fmtOfCode code else none

/-- A floating-point format of a name; FP32 stands for the integers, which no caller passes. -/
def fltOf (k : NumFmt) : Fmt :=
  match anyFmt k with
  | .flt f => f
  | .int _ => f32

/-- SFU_OPERATION (R96): one function per element. An invalid bank slot stops the tile before its output. -/
def sfuOperationPlan (io : VecIO) (rec : Word) : VecPlan :=
  let v := rec.toNat
  let fid := bits v 0 5
  let src := (sfuFmt (bits v 8 4)).getD .fp32
  let dst := (sfuFmt (bits v 16 4)).getD .fp32
  let acb := bits v 24 8
  let okRec := bits v 5 3 == 0 && bits v 12 4 == 0 && bits v 20 4 == 0 && fidOk fid && (sfuFmt (bits v 8 4)).isSome
    && (sfuFmt (bits v 16 4)).isSome && acbOk acb && !bit acb 7 && io.inFmt == src
  VecPlan.mk okRec (fun _ => [io.m * packedBytes src io.n]) (fun en _ => elemSeen src io.m io.n en)
    (fun _ => outPortsOf io dst false) fun t en ds =>
    let bank := activeBank (coreAt t io.core)
    if 0x10 ≤ fid && !bankValid bank fid then .bad
    else
      let r := overTile en io.m io.n fun i j =>
        let q := sfuOp (ctlOf acb) bank fid (fltOf src) (fltOf dst) (tileElem src io.n (ds.headD []) i j)
        (q.1, flSfu q.2)
      .ok t [packRows dst (plainRows r.1)] r.2

def execSfuOperation (io : VecIO) (rec : Word) (s : State) : Host.Outcome State Fault Refusal :=
  vecCmd s io (sfuOperationPlan io rec)

/-! ### Row statistics (R114-R116) -/

/-- The row-statistics record (Table 5-11). -/
structure StatRec where
  gamma : Nat
  beta  : Nat
  invN  : Nat
  eps   : Nat
  op    : Nat
  gEn   : Bool
  bEn   : Bool
  isBf  : Bool
  fmt   : Nat
  mx    : Bool
  acb   : Nat
  resOk : Bool
  deriving DecidableEq, Repr

def statRecOf (v : Nat) : StatRec :=
  { gamma := bits v 0 48, beta := bits v 64 48, invN := bits v 128 32, eps := bits v 160 32, op := bits v 192 2,
    gEn := bit v 194, bEn := bit v 195, isBf := bit v 196, fmt := bits v 197 4, mx := bit v 201, acb := bits v 208 8,
    resOk := bits v 48 16 == 0 && bits v 112 16 == 0 && bits v 202 6 == 0 && bits v 216 40 == 0 }

/-- FP32 that R116 accepts for INV_N and EPS: neither negative, infinite nor NaN. (DEDUCED, log 55.) -/
def statNum (c : Nat) : Bool := c < 0x7F800000 || c == 0x80000000

/-- An output format with or without MX blocks (R90, R116). -/
def outFmtOk (code : Nat) (mx : Bool) : Bool :=
  match fmtOfCode code with
  | none => false
  | some k => !mx || mxFormat k

/-- Formats that widen exactly to FP32 (Table 3-3). -/
def widens (k : NumFmt) : Bool := k == .fp32 || (convAllowed k .fp32 && k != .fp64 && k != .int32)

/-- DEDUCED, log 55. -/
def statOk (io : VecIO) (r : StatRec) (op : Nat) : Bool :=
  r.resOk && r.op == op && statNum r.invN && statNum r.eps && acbOk r.acb && !bit r.acb 7 && outFmtOk r.fmt r.mx
    && widens io.inFmt

/-- A tile of rows normalised: `row` gives a row's FP32 results and the flags of VEC and SFU. A row with no enabled element is
not computed (R131). (DEDUCED, log 54.) -/
def statTile (io : VecIO) (r : StatRec) (row : List (Option Nat) → List Nat → List Nat → List (Option Nat) × Nat × Nat)
    (s : State) (en : BitVec 128 × BitVec 64) (ds : List Bytes) : VecRes :=
  let w := if r.isBf then 2 * io.n else 4 * io.n
  match readVecs s [(r.gEn, r.gamma, w), (r.bEn && r.op == 1, r.beta, w)] with
  | none => .bad
  | some (t, vs, bad) =>
    if bad then .poison t
    else
      let x := overTile en io.m io.n fun i j =>
        let q := convAny ctl0 (anyFmt io.inFmt) (.flt f32) (tileElem io.inFmt io.n (ds.headD []) i j)
        (q.1, flVec q.2)
      let g := (List.range io.n).map fun j => if r.gEn then vecElem r.isBf (vs.headD []) j else 0x3F800000
      let b := (List.range io.n).map fun j => if r.bEn then vecElem r.isBf (vs.getD 1 []) j else 0
      let ys := x.1.map fun xs => if xs.all fun e => e.isNone then (xs, 0, 0) else row xs g b
      let out := finalRows (ctlOf r.acb) (.flt f32) ((fmtOfCode r.fmt).getD .fp32) r.mx (ys.map Prod.fst)
      .ok t out.1 (flOr x.2 ⟨0, orAll (ys.map fun y => y.2.1) ||| out.2, orAll (ys.map fun y => y.2.2)⟩)

/-- RMS (R115): the record's OP is 0b00. -/
def rmsPlan (io : VecIO) (rec : BitVec 256) : VecPlan :=
  let r := statRecOf rec.toNat
  VecPlan.mk (statOk io r 0) (fun _ => [io.m * packedBytes io.inFmt io.n])
    (fun en _ => elemSeen io.inFmt io.m io.n en) (fun _ => outPortsOf io ((fmtOfCode r.fmt).getD .fp32) r.mx)
    (statTile io r fun xs g _ => rmsRow xs g r.invN r.eps)

def execRms (io : VecIO) (rec : BitVec 256) (s : State) : Host.Outcome State Fault Refusal :=
  vecCmd s io (rmsPlan io rec)

/-- LAYER_NORM (R115): the record's OP is 0b01. -/
def layerNormPlan (io : VecIO) (rec : BitVec 256) : VecPlan :=
  let r := statRecOf rec.toNat
  VecPlan.mk (statOk io r 1) (fun _ => [io.m * packedBytes io.inFmt io.n])
    (fun en _ => elemSeen io.inFmt io.m io.n en) (fun _ => outPortsOf io ((fmtOfCode r.fmt).getD .fp32) r.mx)
    (statTile io r fun xs g b => lnRow xs g b r.invN r.eps)

def execLayerNorm (io : VecIO) (rec : BitVec 256) (s : State) : Host.Outcome State Fault Refusal :=
  vecCmd s io (layerNormPlan io rec)

/-! ### The output stage (R89-R91) -/

/-- The output-stage record (Table 4-8). -/
structure OutRec where
  row   : Nat
  col   : Nat
  bias  : Nat
  lo    : Nat
  hi    : Nat
  rowEn : Bool
  colEn : Bool
  biasEn : Bool
  clipEn : Bool
  isBf  : Bool
  fmt   : Nat
  mx    : Bool
  acb   : Nat
  resOk : Bool
  deriving DecidableEq, Repr

def outRecOf (v : Nat) : OutRec :=
  { row := bits v 0 48, col := bits v 64 48, bias := bits v 128 48, lo := bits v 192 32, hi := bits v 224 32,
    rowEn := bit v 256, colEn := bit v 257, biasEn := bit v 258, clipEn := bit v 259, isBf := bit v 260,
    fmt := bits v 261 4, mx := bit v 265, acb := bits v 272 8,
    resOk := bits v 48 16 == 0 && bits v 112 16 == 0 && bits v 176 16 == 0 && bits v 266 6 == 0 && bits v 280 104 == 0 }

def isNan32 (c : Nat) : Bool := isNan (decodeF f32 c)

/-- The checks of R90. (DESIGN CHOICE, log 56.) -/
def outOk (io : VecIO) (r : OutRec) : Bool :=
  r.resOk && acbOk r.acb && outFmtOk r.fmt r.mx && (io.inFmt == .fp32 || io.inFmt == .int32) && decide (io.m ≤ 128 ∧ io.n ≤ 256)
    && !(r.clipEn && (isNan32 r.lo || isNan32 r.hi || (fpCmp .gt (decodeF f32 r.lo) (decodeF f32 r.hi)).1))

/-- A step that is enabled, and its flags; a step that is not leaves the value. -/
def stepIf (on : Bool) (f : Nat → Nat × Nat) (x : Nat × Nat) : Nat × Nat :=
  if on then let q := f x.1; (q.1, x.2 ||| q.2) else x

/-- One element through steps 1 to 5 of R90: an FP32 code and the flags. -/
def outElem (io : VecIO) (r : OutRec) (rs cs bs : Nat) (code : Nat) : Nat × Nat :=
  let c := ctlOf r.acb
  let clip (k : Cmp) (lim x : Nat) : Nat × Nat :=
    let q := fpCmp k (decodeF f32 x) (decodeF f32 lim)
    (if q.1 then lim else x, q.2)
  let x0 : Nat × Nat := if io.inFmt == .int32 then convAny c (.int 32) (.flt f32) code else (code, 0)
  let x1 := stepIf r.rowEn (fun x => fpScale c f32 x rs) x0
  let x2 := stepIf r.colEn (fun x => fpScale c f32 x cs) x1
  let x3 := stepIf r.biasEn (fun x => fpAdd c f32 x bs) x2
  stepIf r.clipEn (clip .gt r.hi) (stepIf r.clipEn (clip .lt r.lo) x3)

/-- Bytes of a row of an accumulator tile (R118): 64 columns, or the N2 of a fused accumulator's that has more. (DEDUCED, log 47.) -/
def accRow (n : Nat) : Nat := 4 * max 64 n

/-- OUTPUT_STAGE (R90): an accumulator tile (R118) becomes stored values. -/
def outputStagePlan (io : VecIO) (rec : BitVec 384) : VecPlan :=
  let r := outRecOf rec.toNat
  let k := (fmtOfCode r.fmt).getD .fp32
  VecPlan.mk (outOk io r) (fun _ => [accRow io.n * io.m])
    (fun en _ i => i / accRow io.n < io.m && i % accRow io.n / 4 < io.n && enabledAt en (i / accRow io.n) (i % accRow io.n / 4))
    (fun _ => outPortsOf io k r.mx) fun t en ds =>
    match readVecs t [(r.rowEn, r.row, 4 * io.m), (r.colEn, r.col, 4 * io.n),
        (r.biasEn, r.bias, if r.isBf then 2 * io.n else 4 * io.n)] with
    | none => .bad
    | some (t1, vs, bad) =>
      if bad then .poison t1
      else
        let x := overTile en io.m io.n fun i j =>
          let q := outElem io r (leAt (vs.headD []) (4 * i) 4) (leAt (vs.getD 1 []) (4 * j) 4)
            (vecElem r.isBf (vs.getD 2 []) j) (leAt (ds.headD []) (accRow io.n * i + 4 * j) 4)
          (q.1, flVec q.2)
        let out := finalRows (ctlOf r.acb) (.flt f32) k r.mx x.1
        .ok t1 out.1 (flOr x.2 (flVec out.2))

def execOutputStage (io : VecIO) (rec : BitVec 384) (s : State) : Host.Outcome State Fault Refusal :=
  vecCmd s io (outputStagePlan io rec)

/-! ### Curd (R217) -/

/-- KVC_CURD_SKIP counts one (R217). -/
def countCurdSkip (s : State) : State :=
  let o := s.kvc.curdSkip
  ctrSat 0x0100034C o (satAdd o 1) { s with kvc := { s.kvc with curdSkip := satAdd o 1 } }

/-- CURD_ENC (R217): one plain page becomes one object, or an empty handle where the object exceeds a frame of `dpool`.
(DESIGN CHOICE, log 56.) -/
def curdEncPlan (io : VecIO) (rec : Word) (dpool : Nat) : VecPlan :=
  let v := rec.toNat
  let okRec := bits v 16 16 == 0 && (curdEncode (bits v 0 8) (bits v 8 8) []).isSome && dpool < 16
  VecPlan.mk okRec (fun h => [h.bytes]) (fun _ _ _ => true) (fun h => [(io.outPort, h.bytes)]) fun t _ ds =>
    match curdEncode (bits v 0 8) (bits v 8 8) (ds.headD []) with
    | none => .bad
    | some (o, fl) =>
      if frameBytes (poolAt t dpool) < o.length then .skip (raise (countCurdSkip t) io.core (flVec fl))
      else .ok t [o] (flVec fl)

def execCurdEnc (io : VecIO) (rec : Word) (dpool : Nat) (s : State) : Host.Outcome State Fault Refusal :=
  vecCmd s io (curdEncPlan io rec dpool)

/-! ### Comparison and selection (R61) -/

/-- A comparison of two tiles under the descriptor's ACB (R52, R59): one byte per element, as Config says.
(DESIGN CHOICE, log 43; DEDUCED, log 44.) -/
def comparePlan (k : Cmp) (io : VecCmpIO) : VecPlan :=
  let need := io.m * packedBytes io.inFmt io.n
  let okRec := acbOk io.acb.toNat && (match anyFmt io.inFmt with
    | .flt _ => true
    | .int _ => false)
  VecPlan.mk okRec (fun _ => [need, need]) (fun en _ => elemSeen io.inFmt io.m io.n en)
    (fun _ => [(io.outPort, roundUp (io.m * io.n) 32)]) fun t en ds =>
    let x := overTile en io.m io.n fun i j =>
      let rd (e : Nat) := operand (ctlOf io.acb.toNat) (fltOf io.inFmt) (tileElem io.inFmt io.n (ds.getD e []) i j)
      let q := fpCmp k (rd 0).1 (rd 1).1
      ((Config.compareByte q.1).toNat, flVec ((rd 0).2 ||| (rd 1).2 ||| q.2))
    .ok t [packRows .int8 (plainRows x.1)] x.2

def execVecEq (io : VecCmpIO) (s : State) : Host.Outcome State Fault Refusal :=
  vecCmd s io.toVecIO (comparePlan .eq io)
def execVecNe (io : VecCmpIO) (s : State) : Host.Outcome State Fault Refusal :=
  vecCmd s io.toVecIO (comparePlan .ne io)
def execVecLt (io : VecCmpIO) (s : State) : Host.Outcome State Fault Refusal :=
  vecCmd s io.toVecIO (comparePlan .lt io)
def execVecLe (io : VecCmpIO) (s : State) : Host.Outcome State Fault Refusal :=
  vecCmd s io.toVecIO (comparePlan .le io)
def execVecGt (io : VecCmpIO) (s : State) : Host.Outcome State Fault Refusal :=
  vecCmd s io.toVecIO (comparePlan .gt io)
def execVecGe (io : VecCmpIO) (s : State) : Host.Outcome State Fault Refusal :=
  vecCmd s io.toVecIO (comparePlan .ge io)

/-- A selection of two tiles (R61). (DEDUCED, log 44.) -/
def selectPlan (isMax num : Bool) (io : VecIO) (acb : Byte) : VecPlan :=
  let need := io.m * packedBytes io.inFmt io.n
  let okRec := acbOk acb.toNat && (match anyFmt io.inFmt with
    | .flt _ => true
    | .int _ => false)
  VecPlan.mk okRec (fun _ => [need, need]) (fun en _ => elemSeen io.inFmt io.m io.n en)
    (fun _ => outPortsOf io io.inFmt false) fun t en ds =>
    let x := overTile en io.m io.n fun i j =>
      let q := fpSel (ctlOf acb.toNat) (fltOf io.inFmt) isMax num (tileElem io.inFmt io.n (ds.headD []) i j)
        (tileElem io.inFmt io.n (ds.getD 1 []) i j)
      (q.1, flVec q.2)
    .ok t [packRows io.inFmt (plainRows x.1)] x.2

def execVecMax (io : VecIO) (acb : Byte) (s : State) : Host.Outcome State Fault Refusal :=
  vecCmd s io (selectPlan true false io acb)
def execVecMin (io : VecIO) (acb : Byte) (s : State) : Host.Outcome State Fault Refusal :=
  vecCmd s io (selectPlan false false io acb)
def execVecMaxnum (io : VecIO) (acb : Byte) (s : State) : Host.Outcome State Fault Refusal :=
  vecCmd s io (selectPlan true true io acb)
def execVecMinnum (io : VecIO) (acb : Byte) (s : State) : Host.Outcome State Fault Refusal :=
  vecCmd s io (selectPlan false true io acb)

/-! ### Element-wise arithmetic (R66, R113) -/

/-- How many tiles an operation takes. -/
def eltInputs : EltOp → Nat
  | .fma => 3
  | .finish => 1
  | .sqrt => 1
  | .rint => 1
  | _ => 2

/-- Operations that strict mode alone has (Table 3-8). -/
def strictOnly : EltOp → Bool
  | .sqrt => true
  | .rem => true
  | .rint => true
  | _ => false

/-- One element: its operands in port order. -/
def eltElem (c : Ctl) (f : Fmt) (op : EltOp) (a b d : Nat) : Nat × Nat :=
  match op with
  | .add => fpAdd c f a b
  | .sub => fpSub c f a b
  | .mul => fpMul c f a b
  | .fma => fpFma c f a b d
  | .div => fpDiv c f a b
  | .finish => finishElem a b
  | .sqrt => fpSqrt c f a
  | .rem => fpRem c f a b
  | .rint => fpRint c f a

/-- ELEMENT_WISE_ARITHMETIC (R66); `finish` divides the rows of a state tile, o ÷ l (R113). The operations that only strict mode
has are rejected in fast mode. (DEDUCED, log 44.) -/
def arithmeticPlan (io : VecIO) (op : EltOp) (acb : Byte) : VecPlan :=
  let fin := op == .finish
  let need := if fin then stateBytes io.m io.n else io.m * packedBytes io.inFmt io.n
  let okRec := acbOk acb.toNat && (io.inFmt == .fp32 || (io.inFmt == .fp64 && !fin)) && (!strictOnly op || (ctlOf acb.toNat).strict)
  VecPlan.mk okRec (fun _ => List.replicate (eltInputs op) need)
    (fun en _ => if fin then rowSeen (rowBytes io.n) io.n en else elemSeen io.inFmt io.m io.n en)
    (fun _ => outPortsOf io io.inFmt false) fun t en ds =>
    let x := overTile en io.m io.n fun i j =>
      let e (q : Nat) := tileElem io.inFmt io.n (ds.getD q []) i j
      let q :=
        if fin then
          let base := i * rowBytes io.n
          finishElem (leAt (ds.headD []) (base + 8 + 4 * j) 4) (leAt (ds.headD []) (base + 4) 4)
        else eltElem (ctlOf acb.toNat) (fltOf io.inFmt) op (e 0) (e 1) (e 2)
      (q.1, flVec q.2)
    .ok t [packRows io.inFmt (plainRows x.1)] x.2

def execElementWiseArithmetic (io : VecIO) (op : EltOp) (acb : Byte) (s : State) : Host.Outcome State Fault Refusal :=
  vecCmd s io (arithmeticPlan io op acb)

/-! ### Conversion (R54-R59) -/

/-- An element of an MX operand converted (R46): its scale comes from the companion tile. -/
def mxToPlain (c : Ctl) (src dst : NumFmt) (sc code : Nat) : Nat × Nat :=
  let v := mxDecode src sc code
  match anyFmt dst with
  | .flt f => convFloat c f v
  | .int w => convInt c w v

/-- CONVERSION (R54). With `mx` and one input the target is MX blocks; with `mx` and two inputs the source is, its scales on the
second port. (DESIGN CHOICE, log 56.) -/
def conversionPlan (io : VecIO) (outFmt : NumFmt) (mx : Bool) (acb : Byte) : VecPlan :=
  let c := ctlOf acb.toNat
  let fromMx := mx && io.inPorts.length == 2
  let toMx := mx && !fromMx
  let okRec := acbOk acb.toNat
    && (if fromMx then mxFormat io.inFmt && (outFmt != .int64 && outFmt != .int32)
        else if toMx then mxFormat outFmt && io.inFmt != .int64
        else convAllowed io.inFmt outFmt)
  let scb := (io.n + 31) / 32
  VecPlan.mk okRec
    (fun _ => io.m * packedBytes io.inFmt io.n :: (if fromMx then [io.m * scb] else []))
    (fun en q => if q = 0 then elemSeen io.inFmt io.m io.n en
      else fun i => (List.range 32).any fun j => i % scb * 32 + j < io.n && enabledAt en (i / scb) (i % scb * 32 + j))
    (fun _ => outPortsOf io outFmt toMx) fun t en ds =>
    if fromMx then
      let x := overTile en io.m io.n fun i j =>
        let q := mxToPlain c io.inFmt outFmt (byteAt (ds.getD 1 []) (i * scb + j / 32))
          (tileElem io.inFmt io.n (ds.headD []) i j)
        (q.1, flVec q.2)
      .ok t [packRows outFmt (plainRows x.1)] x.2
    else
      let x := overTile en io.m io.n fun i j => (tileElem io.inFmt io.n (ds.headD []) i j, fl0)
      let out := finalRows c (anyFmt io.inFmt) outFmt toMx x.1
      .ok t out.1 (flVec out.2)

def execConversion (io : VecIO) (outFmt : NumFmt) (mx : Bool) (acb : Byte) (s : State) : Host.Outcome State Fault Refusal :=
  vecCmd s io (conversionPlan io outFmt mx acb)

/-! ### Sketches (R219) -/

/-- The vector of a tile: the FP32 sum of its rows in order, from −0. -/
def sketchVec (io : VecIO) (rows : List (List (Option Nat))) : List (Option Nat × Nat) :=
  (List.range io.n).map fun j =>
    rows.foldl (fun (a : Option Nat × Nat) r => match (r.getD j none) with
      | none => a
      | some x => let q := fpAdd ctl0 f32 (a.1.getD negZero32) x; (some q.1, a.2 ||| q.2)) (none, 0)

/-- Bit `b` of the sketch of a vector, with the flags of its additions. -/
def sketchBit (mat : Bytes) (v : List (Option Nat)) (b : Nat) : Bool × Nat :=
  let y := (numbered v 0).foldl (fun (a : Nat × Nat) p => match p.2 with
    | none => a
    | some x =>
      let z := if bit (byteAt mat (32 * b + p.1 / 8)) (p.1 % 8) then x else negCode f32 x
      let q := fpAdd ctl0 f32 a.1 z
      (q.1, a.2 ||| q.2)) (negZero32, 0)
  (0 < y.1 && y.1 ≤ 0x7F800000, y.2)

/-- SKETCH (R219): the 256 bits of a page's or a query's vector, whose keys or rows are the tile's rows. (DESIGN CHOICE, log 56.) -/
def sketchPlan (io : VecIO) : VecPlan :=
  VecPlan.mk (widens io.inFmt && decide (io.n ≤ 256)) (fun _ => [io.m * packedBytes io.inFmt io.n])
    (fun en _ => elemSeen io.inFmt io.m io.n en) (fun _ => [(io.outPort, 32)]) fun t en ds =>
    match readVecs t [(true, t.kvc.sketchBase, 8192)] with
    | none => .bad
    | some (t1, vs, bad) =>
      if bad then .poison t1
      else
        let x := overTile en io.m io.n fun i j =>
          let q := convAny ctl0 (anyFmt io.inFmt) (.flt f32) (tileElem io.inFmt io.n (ds.headD []) i j)
          (q.1, flVec q.2)
        let v := sketchVec io x.1
        let bs := (List.range 256).map fun b => sketchBit (vs.headD []) (v.map Prod.fst) b
        .ok t1 [leBytes 32 (packNat 1 (bs.map fun b => flag b.1))]
          (flOr x.2 (flVec (orAll (v.map Prod.snd) ||| orAll (bs.map Prod.snd))))

def execSketch (io : VecIO) (s : State) : Host.Outcome State Fault Refusal :=
  vecCmd s io (sketchPlan io)

end Sys2Proof.Machine
end

