-- ==== Sys2Proof/Machine/Dispatch.lean ====
section
/-! DEFINITION. The dispatcher: one arm per command. -/

namespace Sys2Proof.Machine

/-- The effect of a command on everything but the queue of commands. -/
def exec (i : Instr) (s : State) : Host.Outcome State Fault Refusal :=
  match i with
  | .graphLoad h image => Sys2Proof.Machine.execGraphLoad h image s
  | .graphStart h gid startAt => Sys2Proof.Machine.execGraphStart h gid startAt s
  | .timedStartFire slot => Sys2Proof.Machine.execTimedStartFire slot s
  | .graphPause h gid => Sys2Proof.Machine.execGraphPause h gid s
  | .graphPauseDone slot => Sys2Proof.Machine.execGraphPauseDone slot s
  | .graphResume h gid => Sys2Proof.Machine.execGraphResume h gid s
  | .graphUnload h gid => Sys2Proof.Machine.execGraphUnload h gid s
  | .stallUsExpiry slot => Sys2Proof.Machine.execStallUsExpiry slot s
  | .streamRearm h gid station rec => Sys2Proof.Machine.execStreamRearm h gid station rec s
  | .cluSuRearm cluster upper value => Sys2Proof.Machine.execCluSuRearm cluster upper value s
  | .tableLoad h image segCount mask block => Sys2Proof.Machine.execTableLoad h image segCount mask block s
  | .tableReloadRun => Sys2Proof.Machine.execTableReloadRun s
  | .sfuBankSwitch core => Sys2Proof.Machine.execSfuBankSwitch core s
  | .wcReset h cluster base limit => Sys2Proof.Machine.execWcReset h cluster base limit s
  | .cluWcReset cluster value => Sys2Proof.Machine.execCluWcReset cluster value s
  | .workCounterResetApply cluster => Sys2Proof.Machine.execWorkCounterResetApply cluster s
  | .claim core => Sys2Proof.Machine.execClaim core s
  | .commit core epoch index => Sys2Proof.Machine.execCommit core epoch index s
  | .groupOpen h rec => Sys2Proof.Machine.execGroupOpen h rec s
  | .groupReset h group => Sys2Proof.Machine.execGroupReset h group s
  | .groupClose h group => Sys2Proof.Machine.execGroupClose h group s
  | .cableCheck h plan report => Sys2Proof.Machine.execCableCheck h plan report s
  | .lendCopy h rec => Sys2Proof.Machine.execLendCopy h rec s
  | .memLendPost cluster addr => Sys2Proof.Machine.execMemLendPost cluster addr s
  | .wheyXfer h rec => Sys2Proof.Machine.execWheyXfer h rec s
  | .flsWheyPost cluster addr => Sys2Proof.Machine.execFlsWheyPost cluster addr s
  | .wheyPut xfer => Sys2Proof.Machine.execWheyPut xfer s
  | .wheyGet xfer => Sys2Proof.Machine.execWheyGet xfer s
  | .wheyMoveOut xfer => Sys2Proof.Machine.execWheyMoveOut xfer s
  | .wheyMoveIn xfer => Sys2Proof.Machine.execWheyMoveIn xfer s
  | .wheyAlloc xfer => Sys2Proof.Machine.execWheyAlloc xfer s
  | .wheyFree xfer => Sys2Proof.Machine.execWheyFree xfer s
  | .wheyTransferDone xfer => Sys2Proof.Machine.execWheyTransferDone xfer s
  | .ringCreate h desc => Sys2Proof.Machine.execRingCreate h desc s
  | .ringDelete h ring => Sys2Proof.Machine.execRingDelete h ring s
  | .almanac h buf len resync => Sys2Proof.Machine.execAlmanac h buf len resync s
  | .almGo fn addr len value => Sys2Proof.Machine.execAlmGo fn addr len value s
  | .sqTail fn ring width value => Sys2Proof.Machine.execSqTail fn ring width value s
  | .cqHead fn ring width value => Sys2Proof.Machine.execCqHead fn ring width value s
  | .sqFetch fn ring => Sys2Proof.Machine.execSqFetch fn ring s
  | .msixModerationExpiry fn ring => Sys2Proof.Machine.execMsixModerationExpiry fn ring s
  | .functionLevelReset fn => Sys2Proof.Machine.execFunctionLevelReset fn s
  | .perstNLow => Sys2Proof.Machine.execPerstNLow s
  | .atsResponse core side iova present => Sys2Proof.Machine.execAtsResponse core side iova present s
  | .hostReadCompletion core tile how => Sys2Proof.Machine.execHostReadCompletion core tile how s
  | .hifSetupLock value => Sys2Proof.Machine.execHifSetupLock value s
  | .hifRing0 fn word value => Sys2Proof.Machine.execHifRing0 fn word value s
  | .registerWrite req offset width value => Sys2Proof.Machine.execRegisterWrite req offset width value s
  | .queuePush slot station port h release => Sys2Proof.Machine.execQueuePush slot station port h release s
  | .queuePop slot station port release => Sys2Proof.Machine.execQueuePop slot station port release s
  | .loadDescriptor core => Sys2Proof.Machine.execLoadDescriptor core s
  | .storeDescriptor core => Sys2Proof.Machine.execStoreDescriptor core s
  | .streamTransferDone core tile => Sys2Proof.Machine.execStreamTransferDone core tile s
  | .storeTileWritten core => Sys2Proof.Machine.execStoreTileWritten core s
  | .claimTemplate core => Sys2Proof.Machine.execClaimTemplate core s
  | .smallTransfer cluster slotAddr cmd => Sys2Proof.Machine.execSmallTransfer cluster slotAddr cmd s
  | .smallTransferDone cluster => Sys2Proof.Machine.execSmallTransferDone cluster s
  | .mmaDescriptor core => Sys2Proof.Machine.execMmaDescriptor core s
  | .sfuOperation io rec => Sys2Proof.Machine.execSfuOperation io rec s
  | .rms io rec => Sys2Proof.Machine.execRms io rec s
  | .layerNorm io rec => Sys2Proof.Machine.execLayerNorm io rec s
  | .outputStage io rec => Sys2Proof.Machine.execOutputStage io rec s
  | .curdEnc io rec dpool => Sys2Proof.Machine.execCurdEnc io rec dpool s
  | .vecEq io => Sys2Proof.Machine.execVecEq io s
  | .vecNe io => Sys2Proof.Machine.execVecNe io s
  | .vecLt io => Sys2Proof.Machine.execVecLt io s
  | .vecLe io => Sys2Proof.Machine.execVecLe io s
  | .vecGt io => Sys2Proof.Machine.execVecGt io s
  | .vecGe io => Sys2Proof.Machine.execVecGe io s
  | .vecMax io acb => Sys2Proof.Machine.execVecMax io acb s
  | .vecMin io acb => Sys2Proof.Machine.execVecMin io acb s
  | .vecMaxnum io acb => Sys2Proof.Machine.execVecMaxnum io acb s
  | .vecMinnum io acb => Sys2Proof.Machine.execVecMinnum io acb s
  | .ssaAttend stack => Sys2Proof.Machine.execSsaAttend stack s
  | .descriptorTileArrival stack => Sys2Proof.Machine.execDescriptorTileArrival stack s
  | .ssaJobClose stack => Sys2Proof.Machine.execSsaJobClose stack s
  | .attend cluster => Sys2Proof.Machine.execAttend cluster s
  | .prepare cluster => Sys2Proof.Machine.execPrepare cluster s
  | .extend cluster => Sys2Proof.Machine.execExtend cluster s
  | .kvCommit cluster => Sys2Proof.Machine.execKvCommit cluster s
  | .fork cluster => Sys2Proof.Machine.execFork cluster s
  | .truncate cluster => Sys2Proof.Machine.execTruncate cluster s
  | .release cluster => Sys2Proof.Machine.execRelease cluster s
  | .score cluster => Sys2Proof.Machine.execScore cluster s
  | .moveBegin cluster => Sys2Proof.Machine.execMoveBegin cluster s
  | .moveEnd cluster => Sys2Proof.Machine.execMoveEnd cluster s
  | .moveAbort cluster => Sys2Proof.Machine.execMoveAbort cluster s
  | .freeze cluster => Sys2Proof.Machine.execFreeze cluster s
  | .unfreeze cluster => Sys2Proof.Machine.execUnfreeze cluster s
  | .sequenceLockGrant cluster => Sys2Proof.Machine.execSequenceLockGrant cluster s
  | .frameReclaim pool => Sys2Proof.Machine.execFrameReclaim pool s
  | .kvcPool req pool word value => Sys2Proof.Machine.execKvcPool req pool word value s
  | .poolInitDone pool => Sys2Proof.Machine.execPoolInitDone pool s
  | .kvcCurveCommit value => Sys2Proof.Machine.execKvcCurveCommit value s
  | .churnOpen die => Sys2Proof.Machine.execChurnOpen die s
  | .churnRotate die => Sys2Proof.Machine.execChurnRotate die s
  | .churnClose die => Sys2Proof.Machine.execChurnClose die s
  | .churnHandshakeArrival die ctx west shake => Sys2Proof.Machine.execChurnHandshakeArrival die ctx west shake s
  | .ringTileArrival die west tile => Sys2Proof.Machine.execRingTileArrival die west tile s
  | .churnCreditArrival die ctx west credits rttNs => Sys2Proof.Machine.execChurnCreditArrival die ctx west credits rttNs s
  | .churnTimeout die ctx west => Sys2Proof.Machine.execChurnTimeout die ctx west s
  | .collBcast die => Sys2Proof.Machine.execCollBcast die s
  | .collAllgather die => Sys2Proof.Machine.execCollAllgather die s
  | .collAlltoall die => Sys2Proof.Machine.execCollAlltoall die s
  | .collAlltoallv die => Sys2Proof.Machine.execCollAlltoallv die s
  | .collAllreduce die => Sys2Proof.Machine.execCollAllreduce die s
  | .collReduceScatter die => Sys2Proof.Machine.execCollReduceScatter die s
  | .collAttnMerge die => Sys2Proof.Machine.execCollAttnMerge die s
  | .grantArrival die msg => Sys2Proof.Machine.execGrantArrival die msg s
  | .chunkArrival die msg => Sys2Proof.Machine.execChunkArrival die msg s
  | .resultChunkArrival die msg => Sys2Proof.Machine.execResultChunkArrival die msg s
  | .acknowledgementArrival die msg => Sys2Proof.Machine.execAcknowledgementArrival die msg s
  | .retire die msg => Sys2Proof.Machine.execRetire die msg s
  | .fence die msg frank status cause => Sys2Proof.Machine.execFence die msg frank status cause s
  | .withdraw die msg => Sys2Proof.Machine.execWithdraw die msg s
  | .chunkUsExpiry die group => Sys2Proof.Machine.execChunkUsExpiry die group s
  | .vatWaitTimeout die group => Sys2Proof.Machine.execVatWaitTimeout die group s
  | .scanQuery channel => Sys2Proof.Machine.execScanQuery channel s
  | .scanInsert channel => Sys2Proof.Machine.execScanInsert channel s
  | .scanDelete channel => Sys2Proof.Machine.execScanDelete channel s
  | .indexBatchDurable index => Sys2Proof.Machine.execIndexBatchDurable index s
  | .scanHarvest channel => Sys2Proof.Machine.execScanHarvest channel s
  | .scanCreate channel => Sys2Proof.Machine.execScanCreate channel s
  | .scanDestroy channel => Sys2Proof.Machine.execScanDestroy channel s
  | .skimMerge die => Sys2Proof.Machine.execSkimMerge die s
  | .updateAliasWrite addr data => Sys2Proof.Machine.execUpdateAliasWrite addr data s
  | .amo cluster op wide addr value => Sys2Proof.Machine.execAmo cluster op wide addr value s
  | .compareAndSwap channel addr expected new => Sys2Proof.Machine.execCompareAndSwap channel addr expected new s
  | .patrolScrub stack => Sys2Proof.Machine.execPatrolScrub stack s
  | .memMarginCtl value => Sys2Proof.Machine.execMemMarginCtl value s
  | .marginSweepDone results => Sys2Proof.Machine.execMarginSweepDone results s
  | .stackFail stack cause => Sys2Proof.Machine.execStackFail stack cause s
  | .memLendGrant grant word value => Sys2Proof.Machine.execMemLendGrant grant word value s
  | .revoke grant => Sys2Proof.Machine.execRevoke grant s
  | .revokeDone grant => Sys2Proof.Machine.execRevokeDone grant s
  | .lendReq die pkt => Sys2Proof.Machine.execLendReq die pkt s
  | .lendRsp die pkt => Sys2Proof.Machine.execLendRsp die pkt s
  | .lendTimeout die copy => Sys2Proof.Machine.execLendTimeout die copy s
  | .flsPool pool value => Sys2Proof.Machine.execFlsPool pool value s
  | .flashScanDone => Sys2Proof.Machine.execFlashScanDone s
  | .flashUpkeep channel what => Sys2Proof.Machine.execFlashUpkeep channel what s
  | .flashChannelFail channel cause => Sys2Proof.Machine.execFlashChannelFail channel cause s
  | .fabTrain value => Sys2Proof.Machine.execFabTrain value s
  | .linkPhaseDone link peer => Sys2Proof.Machine.execLinkPhaseDone link peer s
  | .trainTimeout link => Sys2Proof.Machine.execTrainTimeout link s
  | .linkRestart link => Sys2Proof.Machine.execLinkRestart link s
  | .lossOfSignal link => Sys2Proof.Machine.execLossOfSignal link s
  | .frameReceive link cells => Sys2Proof.Machine.execFrameReceive link cells s
  | .replayTimeout link => Sys2Proof.Machine.execReplayTimeout link s
  | .packetForward die => Sys2Proof.Machine.execPacketForward die s
  | .fabStallExpiry link vc dl => Sys2Proof.Machine.execFabStallExpiry link vc dl s
  | .fabRtEntry req value => Sys2Proof.Machine.execFabRtEntry req value s
  | .fabLshape which value => Sys2Proof.Machine.execFabLshape which value s
  | .disc link rec => Sys2Proof.Machine.execDisc link rec s
  | .fabDiscover value => Sys2Proof.Machine.execFabDiscover value s
  | .eqxInterval => Sys2Proof.Machine.execEqxInterval s
  | .eqxRequest link t1 => Sys2Proof.Machine.execEqxRequest link t1 s
  | .eqxReply t1 t2 t3 t4 sync => Sys2Proof.Machine.execEqxReply t1 t2 t3 t4 sync s
  | .eqxLockLoss => Sys2Proof.Machine.execEqxLockLoss s
  | .fabEqxSet value => Sys2Proof.Machine.execFabEqxSet value s
  | .fabEqxTime req => Sys2Proof.Machine.execFabEqxTime req s
  | .inputRise mv slotId => Sys2Proof.Machine.execInputRise mv slotId s
  | .undervoltage mv => Sys2Proof.Machine.execUndervoltage mv s
  | .overvoltage mv => Sys2Proof.Machine.execOvervoltage mv s
  | .inputLoss mv => Sys2Proof.Machine.execInputLoss mv s
  | .railFault rail => Sys2Proof.Machine.execRailFault rail s
  | .modRstNRise => Sys2Proof.Machine.execModRstNRise s
  | .modRstNLow => Sys2Proof.Machine.execModRstNLow s
  | .thawSequence finds => Sys2Proof.Machine.execThawSequence finds s
  | .treeRegeneration => Sys2Proof.Machine.execTreeRegeneration s
  | .bottomTreeReplacement => Sys2Proof.Machine.execBottomTreeReplacement s
  | .idleReq => Sys2Proof.Machine.execIdleReq s
  | .wake => Sys2Proof.Machine.execWake s
  | .pwrCtrlWake => Sys2Proof.Machine.execPwrCtrlWake s
  | .wakeDone => Sys2Proof.Machine.execWakeDone s
  | .sensorSweep sweep => Sys2Proof.Machine.execSensorSweep sweep s
  | .thmDieCurve value => Sys2Proof.Machine.execThmDieCurve value s
  | .cluWdogExpiry cluster => Sys2Proof.Machine.execCluWdogExpiry cluster s
  | .cluWdogKick cluster => Sys2Proof.Machine.execCluWdogKick cluster s
  | .controllerWatchdogExpiry => Sys2Proof.Machine.execControllerWatchdogExpiry s
  | .read32 offset => Sys2Proof.Machine.execRead32 offset s
  | .write32 offset value => Sys2Proof.Machine.execWrite32 offset value s
  | .thaw => Sys2Proof.Machine.execThaw s
  | .shutdown => Sys2Proof.Machine.execShutdown s
  | .stageOpen kind => Sys2Proof.Machine.execStageOpen kind s
  | .stageData offset data => Sys2Proof.Machine.execStageData offset data s
  | .stageClose length => Sys2Proof.Machine.execStageClose length s
  | .ownerData offset data => Sys2Proof.Machine.execOwnerData offset data s
  | .ownerCommit => Sys2Proof.Machine.execOwnerCommit s
  | .attest nonce cert => Sys2Proof.Machine.execAttest nonce cert s
  | .attestRead offset => Sys2Proof.Machine.execAttestRead offset s
  | .secAttCtrl value => Sys2Proof.Machine.execSecAttCtrl value s
  | .secStageCtrl value => Sys2Proof.Machine.execSecStageCtrl value s
  | .secOwnerCtrl value => Sys2Proof.Machine.execSecOwnerCtrl value s
  | .telAlarmSum value => Sys2Proof.Machine.execTelAlarmSum value s
  | .telEvtHead value => Sys2Proof.Machine.execTelEvtHead value s
  | .eventMirrorCopy => Sys2Proof.Machine.execEventMirrorCopy s
  | .eventMirrorSignal => Sys2Proof.Machine.execEventMirrorSignal s
  | .traceSample => Sys2Proof.Machine.execTraceSample s
  | .codewordReadDone channel query poisoned => Sys2Proof.Machine.execCodewordReadDone channel query poisoned s
  | .harvestDone index => Sys2Proof.Machine.execHarvestDone index s
  | .resetExchangeArrival die group rank retired => Sys2Proof.Machine.execResetExchangeArrival die group rank retired s
  | .msixVectorUnmask fn vector => Sys2Proof.Machine.execMsixVectorUnmask fn vector s
  | .pcieLinkRetrain rate lanes flit => Sys2Proof.Machine.execPcieLinkRetrain rate lanes flit s
  | .configurationRequest => Sys2Proof.Machine.execConfigurationRequest s
  | .atsInvalidation iova bytes => Sys2Proof.Machine.execAtsInvalidation iova bytes s
  | .elementWiseArithmetic io op acb => Sys2Proof.Machine.execElementWiseArithmetic io op acb s
  | .conversion io outFmt mx acb => Sys2Proof.Machine.execConversion io outFmt mx acb s
  | .sketch io => Sys2Proof.Machine.execSketch io s

end Sys2Proof.Machine
end

