-- ==== Sys2Proof/Machine/Step.lean ====
section
/-! DEFINITION. One step of the block: the command at the front of the queue, or one reference tick when none waits. -/

namespace Sys2Proof.Machine

/-- One step. DESIGN CHOICE (log 2): with no command waiting, one 40 ns tick of the 25 MHz reference passes.
(DESIGN CHOICE, log 1; DESIGN CHOICE, log 2.) -/
def step (s : State) : Host.Outcome State Fault Refusal :=
  match s.pending with
  | [] => .next (refTick s)
  | c :: rest => exec c { s with pending := rest }

/-- The command that a word spells, put at the front of the queue (no row of the table has bits: none is spelt).
(DESIGN CHOICE, log 1.) -/
def State.withFetchWord (s : State) (nbits w : Nat) : State :=
  match decodeTableWord nbits w with
  | some c => { s with pending := c :: s.pending }
  | none => s

end Sys2Proof.Machine
end

