-- ==== Sys2Proof/WellFormed.lean ====
section
/-! DEFINITION. Which commands are well formed: every operand that names a unit names one the module has (Tables 1-1, 2-1, 13-1,
R305, R321, R368, R437).  A value that the spec lets a unit judge is no part of this: the unit answers it with a status. -/

namespace Sys2Proof

/-- The functions are the physical function and 32 virtual ones (R368). -/
def HostHdr.wf (h : HostHdr) : Bool := decide (h.fn < 33)

/-- A VEC descriptor belongs to one of 256 cores. -/
def VecIO.wf (io : VecIO) : Bool := decide (io.core < 256)

/-- A control core is that of one of 16 clusters (R437). -/
def Requester.wf (r : Requester) : Bool :=
  match r with
  | .host => true
  | .core cluster => decide (cluster < 16)
  | .controller => true

/-- Thaw finds trouble only in stacks 0-7 and flash channels 0-63. -/
def ThawFinds.wf (f : ThawFinds) : Bool :=
  !(f.stackFails.any fun k => decide (7 < k)) && !(f.flashFails.any fun c => decide (63 < c))

/-- Every unit a command names exists. (DESIGN CHOICE, log 6.) -/
def Instr.wf (i : Instr) : Bool :=
  match i with
  | .graphLoad h _ => h.wf
  | .graphStart h _ _ => h.wf
  | .timedStartFire slot => decide (slot < 64)
  | .graphPause h _ => h.wf
  | .graphPauseDone slot => decide (slot < 64)
  | .graphResume h _ => h.wf
  | .graphUnload h _ => h.wf
  | .stallUsExpiry slot => decide (slot < 64)
  | .streamRearm h _ _ _ => h.wf
  | .cluSuRearm cluster _ _ => decide (cluster < 16)
  | .tableLoad h _ _ _ _ => h.wf
  | .tableReloadRun => true
  | .sfuBankSwitch core => decide (core < 256)
  | .wcReset h _ _ _ => h.wf
  | .cluWcReset cluster _ => decide (cluster < 16)
  | .workCounterResetApply cluster => decide (cluster < 16)
  | .claim core => decide (core < 256)
  | .commit core _ _ => decide (core < 256)
  | .groupOpen h _ => h.wf
  | .groupReset h _ => h.wf
  | .groupClose h _ => h.wf
  | .cableCheck h _ _ => h.wf
  | .lendCopy h _ => h.wf
  | .memLendPost cluster _ => decide (cluster < 16)
  | .wheyXfer h _ => h.wf
  | .flsWheyPost cluster _ => decide (cluster < 16)
  | .wheyPut _ => true
  | .wheyGet _ => true
  | .wheyMoveOut _ => true
  | .wheyMoveIn _ => true
  | .wheyAlloc _ => true
  | .wheyFree _ => true
  | .wheyTransferDone _ => true
  | .ringCreate h _ => h.wf
  | .ringDelete h _ => h.wf
  | .almanac h _ _ _ => h.wf
  | .almGo fn _ _ _ => decide (fn < 33)
  | .sqTail fn ring _ _ => decide (fn < 33) && decide (ring < 256)
  | .cqHead fn ring _ _ => decide (fn < 33) && decide (ring < 256)
  | .sqFetch fn _ => decide (fn < 33)
  | .msixModerationExpiry _ _ => true
  | .functionLevelReset fn => decide (fn < 33)
  | .perstNLow => true
  | .atsResponse core _ _ _ => decide (core < 256)
  | .hostReadCompletion core _ _ => decide (core < 256)
  | .hifSetupLock _ => true
  | .hifRing0 fn word _ => decide (fn < 33) && decide (word < 4)
  | .registerWrite req offset _ _ => req.wf && decide (offset < 0x04000000)
  | .queuePush slot _ _ _ _ => decide (slot < 64)
  | .queuePop slot _ _ _ => decide (slot < 64)
  | .loadDescriptor core => decide (core < 256)
  | .storeDescriptor core => decide (core < 256)
  | .streamTransferDone core _ => decide (core < 256)
  | .storeTileWritten core => decide (core < 256)
  | .claimTemplate core => decide (core < 256)
  | .smallTransfer cluster _ _ => decide (cluster < 16)
  | .smallTransferDone cluster => decide (cluster < 16)
  | .mmaDescriptor core => decide (core < 256)
  | .sfuOperation io _ => io.wf
  | .rms io _ => io.wf
  | .layerNorm io _ => io.wf
  | .outputStage io _ => io.wf
  | .curdEnc io _ _ => io.wf
  | .vecEq io => io.wf
  | .vecNe io => io.wf
  | .vecLt io => io.wf
  | .vecLe io => io.wf
  | .vecGt io => io.wf
  | .vecGe io => io.wf
  | .vecMax io _ => io.wf
  | .vecMin io _ => io.wf
  | .vecMaxnum io _ => io.wf
  | .vecMinnum io _ => io.wf
  | .ssaAttend stack => decide (stack < 8)
  | .descriptorTileArrival stack => decide (stack < 8)
  | .ssaJobClose stack => decide (stack < 8)
  | .attend cluster => decide (cluster < 16)
  | .prepare cluster => decide (cluster < 16)
  | .extend cluster => decide (cluster < 16)
  | .kvCommit cluster => decide (cluster < 16)
  | .fork cluster => decide (cluster < 16)
  | .truncate cluster => decide (cluster < 16)
  | .release cluster => decide (cluster < 16)
  | .score cluster => decide (cluster < 16)
  | .moveBegin cluster => decide (cluster < 16)
  | .moveEnd cluster => decide (cluster < 16)
  | .moveAbort cluster => decide (cluster < 16)
  | .freeze cluster => decide (cluster < 16)
  | .unfreeze cluster => decide (cluster < 16)
  | .sequenceLockGrant cluster => decide (cluster < 16)
  | .frameReclaim pool => decide (pool < 16)
  | .kvcPool _ pool word _ => decide (pool < 16) && decide (word < 3)
  | .poolInitDone pool => decide (pool < 16)
  | .kvcCurveCommit _ => true
  | .churnOpen die => decide (die < 2)
  | .churnRotate die => decide (die < 2)
  | .churnClose die => decide (die < 2)
  | .churnHandshakeArrival die _ _ _ => decide (die < 2)
  | .ringTileArrival die _ _ => decide (die < 2)
  | .churnCreditArrival die _ _ _ _ => decide (die < 2)
  | .churnTimeout die _ _ => decide (die < 2)
  | .collBcast die => decide (die < 2)
  | .collAllgather die => decide (die < 2)
  | .collAlltoall die => decide (die < 2)
  | .collAlltoallv die => decide (die < 2)
  | .collAllreduce die => decide (die < 2)
  | .collReduceScatter die => decide (die < 2)
  | .collAttnMerge die => decide (die < 2)
  | .grantArrival die _ => decide (die < 2)
  | .chunkArrival die _ => decide (die < 2)
  | .resultChunkArrival die _ => decide (die < 2)
  | .acknowledgementArrival die _ => decide (die < 2)
  | .retire die _ => decide (die < 2)
  | .fence die _ _ _ _ => decide (die < 2)
  | .withdraw die _ => decide (die < 2)
  | .chunkUsExpiry die _ => decide (die < 2)
  | .vatWaitTimeout die _ => decide (die < 2)
  | .scanQuery channel => decide (channel < 64)
  | .scanInsert channel => decide (channel < 64)
  | .scanDelete channel => decide (channel < 64)
  | .indexBatchDurable _ => true
  | .scanHarvest channel => decide (channel < 64)
  | .scanCreate channel => decide (channel < 64)
  | .scanDestroy channel => decide (channel < 64)
  | .skimMerge die => decide (die < 2)
  | .updateAliasWrite _ _ => true
  | .amo cluster _ _ _ _ => decide (cluster < 16)
  | .compareAndSwap channel _ _ _ => decide (channel < 64)
  | .patrolScrub stack => decide (stack < 8)
  | .memMarginCtl _ => true
  | .marginSweepDone _ => true
  | .stackFail stack _ => decide (stack < 8)
  | .memLendGrant grant word _ => decide (grant < 16) && decide (word < 2)
  | .revoke grant => decide (grant < 16)
  | .revokeDone grant => decide (grant < 16)
  | .lendReq die _ => decide (die < 2)
  | .lendRsp die _ => decide (die < 2)
  | .lendTimeout die _ => decide (die < 2)
  | .flsPool pool _ => decide (pool < 16)
  | .flashScanDone => true
  | .flashUpkeep channel _ => decide (channel < 64)
  | .flashChannelFail channel _ => decide (channel < 64)
  | .fabTrain _ => true
  | .linkPhaseDone link _ => decide (link < 64)
  | .trainTimeout link => decide (link < 64)
  | .linkRestart link => decide (link < 64)
  | .lossOfSignal link => decide (link < 64)
  | .frameReceive link _ => decide (link < 64)
  | .replayTimeout link => decide (link < 64)
  | .packetForward die => decide (die < 2)
  | .fabStallExpiry link _ _ => decide (link < 64)
  | .fabRtEntry _ _ => true
  | .fabLshape which _ => decide (which < 3)
  | .disc link _ => decide (link < 64)
  | .fabDiscover _ => true
  | .eqxInterval => true
  | .eqxRequest link _ => decide (link < 64)
  | .eqxReply _ _ _ _ _ => true
  | .eqxLockLoss => true
  | .fabEqxSet _ => true
  | .fabEqxTime req => req.wf
  | .inputRise _ _ => true
  | .undervoltage _ => true
  | .overvoltage _ => true
  | .inputLoss _ => true
  | .railFault rail => decide (rail < 13)
  | .modRstNRise => true
  | .modRstNLow => true
  | .thawSequence finds => finds.wf
  | .treeRegeneration => true
  | .bottomTreeReplacement => true
  | .idleReq => true
  | .wake => true
  | .pwrCtrlWake => true
  | .wakeDone => true
  | .sensorSweep _ => true
  | .thmDieCurve _ => true
  | .cluWdogExpiry cluster => decide (cluster < 16)
  | .cluWdogKick cluster => decide (cluster < 16)
  | .controllerWatchdogExpiry => true
  | .read32 _ => true
  | .write32 _ _ => true
  | .thaw => true
  | .shutdown => true
  | .stageOpen _ => true
  | .stageData _ _ => true
  | .stageClose _ => true
  | .ownerData _ _ => true
  | .ownerCommit => true
  | .attest _ _ => true
  | .attestRead _ => true
  | .secAttCtrl _ => true
  | .secStageCtrl _ => true
  | .secOwnerCtrl _ => true
  | .telAlarmSum _ => true
  | .telEvtHead _ => true
  | .eventMirrorCopy => true
  | .eventMirrorSignal => true
  | .traceSample => true
  | .codewordReadDone channel _ _ => decide (channel < 64)
  | .harvestDone _ => true
  | .resetExchangeArrival die _ _ _ => decide (die < 2)
  | .msixVectorUnmask fn vector => decide (fn < 33) && decide (vector < 2048)
  | .pcieLinkRetrain _ _ _ => true
  | .configurationRequest => true
  | .atsInvalidation _ _ => true
  | .elementWiseArithmetic io _ _ => io.wf
  | .conversion io _ _ _ => io.wf
  | .sketch io => io.wf

end Sys2Proof
end

