-- ==== Sys2Proof/Safety.lean ====
section
/-! DEFINITION. The terms that claims use: what counts as a safe run, when a command may act, and what stays as it was. -/

namespace Sys2Proof

/-- Both memories are in canonical form. -/
abbrev MemoryWf (s : Machine.State) : Prop := Machine.Memory.wf s.mem ∧ Machine.Memory.wf s.hostMem

/-- What every step keeps: both memories in canonical form, a curve that R395 lets through, power caps within 8 and 64 (R396), and a
leaf log whose records cover the next leaf (R430). -/
def Invariant (s : Machine.State) : Prop :=
  MemoryWf s ∧ Machine.dieCurveOk s.thm.curve = true ∧ (∀ c ∈ s.pwr.diePowerCap, 8 ≤ c ∧ c ≤ 64) ∧
    s.sec.leaf ≤ s.sec.leafLog ∧ s.sec.leafLog % 64 = 0

/-- A step answers a next state. -/
def Completes (s : Machine.State) : Prop := ∃ t, Machine.step s = .next t

/-- A host command reaches its own rules: its function exists and allows its class (R370, R377), and the module decodes it, in
HOLD and WITHDRAWN only where it always proceeds (R373). -/
def Accepts (s : Machine.State) (h : HostHdr) (c : Machine.CmdClass) (always : Bool) : Prop :=
  h.fn < 33 ∧ Machine.classAllowed s h c = true ∧
    (s.pwr.state = .active ∨ (always = true ∧ (s.pwr.state = .hold ∨ s.pwr.state = .withdrawn)))

/-- The number a host command that runs on takes. -/
def cmdId (s : Machine.State) (h : HostHdr) : Nat × HostHdr := (s.hif.nextCmd, h)

/-- The state once a host command that runs on is noted as in flight. -/
def noted (s : Machine.State) (h : HostHdr) (opc : Nat) : Machine.State := (Machine.startCmd s h opc).1

/-- A graph ID names a graph that the commanding function loaded, and no command on its slot is in progress or waits (R38, R373,
R377). -/
def Names (s : Machine.State) (h : HostHdr) (gid : Half) (g : Machine.Graph) : Prop :=
  Machine.slotGraph s (gid.toNat % 64) = some g ∧ Machine.gidOf s (gid.toNat % 64) = gid.toNat ∧ g.fn = h.fn ∧
    g.pausing = none ∧ g.timed = none ∧ (s.graphs[gid.toNat % 64]?).map (fun x => x.waiting) = some []

/-- The station bound to a unit may begin its current work descriptor (R25, R40, R375). -/
def Ready (s : Machine.State) (k : Machine.Kind) (u : Nat) (b : Machine.Bound) : Prop :=
  Machine.bound s k u = some b ∧ Machine.mayStart s b = true ∧ b.st.wdi < b.st.workN

/-- Every sector of a range reads without error (R309). -/
def Clean (s : Machine.State) (a n : Nat) : Prop :=
  ∀ k ∈ Machine.sectorsOf a n, k ∉ s.poison ∧ k ∉ s.soft

/-- A direct address lies in the event ring, which the module writes by itself (R410). -/
def InEventRing (s : Machine.State) (a : Nat) : Prop :=
  s.tel.evtEn = true ∧ ∃ i < 32 * 2 ^ s.tel.evtExp, a = Machine.directD (s.tel.evtBase + i)

/-- The VEC operation that a command runs on one tile: its ports and what it computes. -/
def vecPlan (c : Instr) : Option (VecIO × Machine.VecPlan) :=
  match c with
  | .sfuOperation io rec => some (io, Machine.sfuOperationPlan io rec)
  | .rms io rec => some (io, Machine.rmsPlan io rec)
  | .layerNorm io rec => some (io, Machine.layerNormPlan io rec)
  | .outputStage io rec => some (io, Machine.outputStagePlan io rec)
  | .curdEnc io rec dpool => some (io, Machine.curdEncPlan io rec dpool)
  | .vecEq io => some (io.toVecIO, Machine.comparePlan .eq io)
  | .vecNe io => some (io.toVecIO, Machine.comparePlan .ne io)
  | .vecLt io => some (io.toVecIO, Machine.comparePlan .lt io)
  | .vecLe io => some (io.toVecIO, Machine.comparePlan .le io)
  | .vecGt io => some (io.toVecIO, Machine.comparePlan .gt io)
  | .vecGe io => some (io.toVecIO, Machine.comparePlan .ge io)
  | .vecMax io acb => some (io, Machine.selectPlan true false io acb)
  | .vecMin io acb => some (io, Machine.selectPlan false false io acb)
  | .vecMaxnum io acb => some (io, Machine.selectPlan true true io acb)
  | .vecMinnum io acb => some (io, Machine.selectPlan false true io acb)
  | .elementWiseArithmetic io op acb => some (io, Machine.arithmeticPlan io op acb)
  | .conversion io outFmt mx acb => some (io, Machine.conversionPlan io outFmt mx acb)
  | .sketch io => some (io, Machine.sketchPlan io)
  | _ => none

/-- A cluster's WALK station is at a descriptor that passes decode and names the operation, and may begin it or go on with it
(R197, R198); `r` is the state once the descriptor is read. -/
def WalkAt (s : Machine.State) (cluster op : Nat) (b : Machine.Bound) (d : Machine.WalkDesc) (r : Machine.State) : Prop :=
  cluster < 16 ∧ Machine.bound s .walk cluster = some b ∧ b.st.wdi < b.st.workN ∧
    (Machine.mayStart s b = true ∨ (Machine.mayFinish s b = true ∧ Machine.walkBusy s b = true)) ∧ (1 ≤ op ∧ op ≤ 13) ∧
    ∃ v, Machine.ctrlRead s (Machine.wdAddr b 64) 64 = (r, .ok v) ∧ d = Machine.walkDescOf v ∧ d.resOk = true ∧ d.op = op

/-- The locks of the sequences are free for the station (R198): `t` is the state in which its operation runs. -/
def Granted (s : Machine.State) (b : Machine.Bound) (seqs : List Nat) (t : Machine.State) : Prop :=
  let s1 := Machine.startReader s b b.st.unit none
  Machine.lockFree s1 seqs b.st.unit = true ∧
    t = { s1 with kvc := { s1.kvc with lockQ := s1.kvc.lockQ.filter fun l => !(l.2 == b.st.unit) } }

/-- A die's CHURN station is at a descriptor that passes decode and names the operation (R238); `r` is the state once it is read. -/
def ChurnAt (s : Machine.State) (die op : Nat) (b : Machine.Bound) (d : Machine.ChurnDesc) (r : Machine.State) : Prop :=
  die < 2 ∧ Machine.bound s .churn die = some b ∧ b.st.wdi < b.st.workN ∧
    (Machine.mayStart s b = true ∨ (Machine.mayFinish s b = true ∧ b.st.sub = 1)) ∧ (1 ≤ op ∧ op ≤ 3) ∧
    ∃ v t, Machine.ctrlRead s (Machine.wdAddr b 64) 64 = (t, .ok v) ∧ d = Machine.churnDescOf v ∧ d.resOk = true ∧ d.op = op ∧
      r = Machine.modStation t b.slot b.idx fun x => { x with sub := 1 }

/-- A channel's SCAN station is at a descriptor that passes decode and names the operation (R342), with nothing in progress; `r`
is the state once it is read. -/
def ScanAt (s : Machine.State) (channel op : Nat) (ports : Bool) (b : Machine.Bound) (d : Machine.ScanDesc)
    (r : Machine.State) : Prop :=
  channel < 64 ∧ Machine.bound s .scan channel = some b ∧ Machine.mayStart s b = true ∧ Machine.wheyReady s = true ∧
    Machine.scanHeld s b = false ∧ Machine.findJob s b = none ∧
    (ports = true → Machine.portsBound b [0] [0] = true) ∧
    ∃ v, Machine.ctrlRead s (Machine.wdAddr b 64) 64 = (r, .ok v) ∧ d = Machine.scanDescOf v ∧ d.op = op ∧
      Machine.scanDescOk r d = true

end Sys2Proof
end

