-- ==== Sys2Proof/Certificates/Slice0/Obligations.lean ====
section
/-! DEFINITION. The statements for the provers. -/

open Sys2Proof Sys2Proof.Machine

/-- One step with a command at the front of the queue is the command's effect on the state with the queue's rest. -/
def Obligations.StepTakesFrontCommand : Prop :=
  ∀ (s : State) (c : Instr) (rest : List Instr), s.pending = c :: rest →
    step s = exec c { s with pending := rest }

/-- With no command waiting, one tick of the 25 MHz reference passes (the model's choice, log 2): the module's clock and the time
counter advance by 40 ns, the counter not in OFF (R13, R409); while an exchange's trim is in force the counter also moves by its
share of the trim (R302). No other register changes but HIF_CQ_FULL_NS and SSA_THROTTLE_NS. -/
def Obligations.IdleStepIsOneTick : Prop :=
  ∀ s : State, s.pending = [] →
    ∃ t, step s = .next t ∧ t.now = s.now + 40 ∧
      (s.pwr.state = .off → t.fab = s.fab) ∧
      (s.pwr.state ≠ .off → s.fab.eqxTrimNs = 0 → t.fab.counter = s.fab.counter + 40) ∧
      (s.pwr.state ≠ .off → s.fab.eqxTrimNs ≠ 0 → t.fab.counter = BitVec.ofInt 64
        (s.fab.counter.toNat + 40 + (s.fab.eqxFrac + 320 * s.fab.eqxTrim) / (64000 * (s.fab.eqxInterval : Int)))) ∧
      t.mem = s.mem ∧ t.hostMem = s.hostMem ∧ t.pwr = s.pwr ∧ t.thm = s.thm ∧ t.tel = s.tel ∧ t.sec = s.sec ∧
      t.graphs = s.graphs ∧ t.cores = s.cores ∧ t.clusters = s.clusters ∧ t.sfu = s.sfu ∧ t.kvc = s.kvc ∧ t.chn = s.chn ∧
      t.col = s.col ∧ t.groups = s.groups ∧ t.memc = s.memc ∧ t.fls = s.fls ∧ t.vse = s.vse ∧ t.pending = []

/-- A command whose every named unit exists always answers a next state; one that names a unit the module does not have is
refused, and nothing happens. -/
def Obligations.ExistingUnitsNeverRefused : Prop :=
  ∀ (i : Instr) (s : State),
    (i.wf = true → ∃ t, exec i s = .next t) ∧ (i.wf = false → ∃ u, exec i s = .refused (.noSuchUnit u))

/-- A host command that its function may not send completes with BAD_DESCRIPTOR (R377, R370); in HOLD and WITHDRAWN a command that
does not always proceed completes with THERMAL_HOLD or MEMBER_WITHDRAWN (R373), and does nothing else. -/
def Obligations.HostCommandGate : Prop :=
  ∀ (h : HostHdr) (c : CmdClass) (always : Bool) (run : State → State) (s : State), h.fn < 33 →
    (decoding s.pwr.state = true → classAllowed s h c = false →
      hostCmd s h c always run = .next (complete s h .badDescriptor 0)) ∧
    (classAllowed s h c = true → s.pwr.state = .hold → always = false →
      hostCmd s h c always run = .next (complete s h .thermalHold 0)) ∧
    (classAllowed s h c = true → s.pwr.state = .withdrawn → always = false →
      hostCmd s h c always run = .next (complete s h .memberWithdrawn 0)) ∧
    (Accepts s h c always → hostCmd s h c always run = .next (run s))

/-- GRAPH_START, GRAPH_PAUSE, GRAPH_RESUME, GRAPH_UNLOAD and STREAM_REARM on a graph in a state that Table 2-10 allows: the graph
starts at the head of every work list, begins its pause, resumes, is unloaded, or its stream takes the re-arm, and the command
completes. A command that names a graph of another generation or another function's graph is refused with BAD_DESCRIPTOR (R38,
R377). -/
def Obligations.GraphCommandsComplete : Prop :=
  (∀ (h : HostHdr) (gid : Half) (g : Graph) (s : State), Names s h gid g →
     (Accepts s h .graph false → (g.state = .loaded ∨ g.state = .drained) →
       exec (.graphStart h gid 0#64) s
         = .next (finishCmd (startGraph (noted s h 0x02) (gid.toNat % 64)) (cmdId s h) .ok)) ∧
     (Accepts s h .graph false → (g.state = .loaded ∨ g.state = .drained) → s.fab.eqx = .sync → ∀ at' : Dword, at' ≠ 0#64 →
       s.fab.counter.toNat < at'.toNat → at'.toNat ≤ s.fab.counter.toNat + 1000000000 →
       exec (.graphStart h gid at') s
         = .next (modGraph (noted s h 0x02) (gid.toNat % 64) fun x => { x with timed := some (at', cmdId s h) })) ∧
     (Accepts s h .graph true → g.state = .running →
       exec (.graphPause h gid) s
         = .next (modGraph (noted s h 0x03) (gid.toNat % 64) fun x => { x with pausing := some (cmdId s h) })) ∧
     (Accepts s h .graph false → (g.state = .paused ∨ g.state = .halted) →
       exec (.graphResume h gid) s = .next (finishCmd (resumeGraph (noted s h 0x04) (gid.toNat % 64)) (cmdId s h) .ok)) ∧
     (Accepts s h .graph true → g.state ≠ .running →
       exec (.graphUnload h gid) s = .next (finishCmd (unloadGraph (noted s h 0x05) (gid.toNat % 64)) (cmdId s h) .ok)) ∧
     (Accepts s h .graph false → ∀ (i : Nat) (rec : BitVec 128) (x : Station) (r : Rearm) (w : Nat) (d : StreamDesc),
       g.stations[i]? = some x → rearmOf rec.toNat = some (r, w) → (x.kind = .load ∨ x.kind = .store) →
       x.strm.cur = some d → d.rearm = true → x.strm.pendRearm = none → x.strm.parked = false →
       exec (.streamRearm h gid i rec) s
         = .next (finishCmd (modStation (noted s h 0x06) (gid.toNat % 64) i
             fun y => { y with strm := { y.strm with pendRearm := some r } }) (cmdId s h) .ok))) ∧
  (∀ (h : HostHdr) (gid : Half) (s : State) (g : Graph), Accepts s h .graph false →
     slotGraph s (gid.toNat % 64) = some g → g.pausing = none → g.timed = none →
     (s.graphs[gid.toNat % 64]?).map (fun x => x.waiting) = some [] →
     (gidOf s (gid.toNat % 64) ≠ gid.toNat ∨ g.fn ≠ h.fn) →
     exec (.graphStart h gid 0#64) s = .next (finishCmd (noted s h 0x02) (cmdId s h) .badDescriptor) ∧
     exec (.graphPause h gid) s = .next (finishCmd (noted s h 0x03) (cmdId s h) .badDescriptor) ∧
     exec (.graphResume h gid) s = .next (finishCmd (noted s h 0x04) (cmdId s h) .badDescriptor) ∧
     exec (.graphUnload h gid) s = .next (finishCmd (noted s h 0x05) (cmdId s h) .badDescriptor))

/-- GRAPH_LOAD of an image whose header and entries are all well formed binds the graph whole into a free slot, whose generation
advances by one (R36, R38), and completes with OK and the graph ID. -/
def Obligations.GraphLoadBindsWhole : Prop :=
  ∀ (h : HostHdr) (image : AddrArg) (s : State) (b : Bytes) (slot : Nat) (r1 r2 r3 : State) (sts : List Station)
    (qs : List Queue) (ps : List Pool),
    let r := (ctrlRead s image.addr 32).1
    let cl := BitVec.ofNat 16 (leAt b 8 2)
    let qo := 32 + 16 * leAt b 2 2
    let po := qo + 16 * leAt b 4 2
    Accepts s h .graph false → image.space = 0 → (ctrlRead s image.addr 32).2 = .ok b →
    (freeSlots r)[choose (freeSlots r).length r.free]? = some slot → headerOk r h.fn b = true →
    readEntries image.addr 32 (fun t acc e => stationEntry t image.addr cl acc e) (leAt b 2 2) 0 r [] = ⟨r1, .ok sts⟩ →
    readEntries image.addr qo (fun t acc e =>
      if queueOk t sts (peekPools r1 image.addr po (byteAt b 6)) acc e then some (queueEntry e) else none)
      (leAt b 4 2) 0 r1 [] = ⟨r2, .ok qs⟩ →
    readEntries image.addr po (fun t acc e => if poolOk t cl acc e then some (poolEntry e) else none) (byteAt b 6) 0 r2 []
      = ⟨r3, .ok ps⟩ →
    ∃ t, exec (.graphLoad h image) s = .next t ∧
      t = complete (loadInto (tick1 r3) slot image.addr h.fn b sts qs ps) h .ok
        (gidOf (loadInto (tick1 r3) slot image.addr h.fn b sts qs ps) slot) ∧
      (slot < r3.graphs.length →
        ∃ g, slotGraph t slot = some g ∧ g.state = .loaded ∧ g.fn = h.fn ∧ g.stations = sts ∧ g.queues = qs ∧
          g.cq = byteAt b 7 ∧ g.stallUs = leAt b 12 4 ∧ g.user = BitVec.ofNat 64 (leAt b 16 8) ∧
          (t.graphs[slot]?).map (fun x => x.gen) = (r3.graphs[slot]?).map fun x => x.gen + 1)

/-- What happens to a graph without a command: a timed start fires when the time counter reaches START_AT while SYNC holds
(R378), a pause completes when every station has stopped (R40), and the progress watchdog reports a RUNNING graph in which no queue
has moved for STALL_US (R42). -/
def Obligations.GraphTimersComplete : Prop :=
  ∀ (slot : Nat) (g : Graph) (s : State), slot < 64 → slotGraph s slot = some g →
    (∀ (at' : Dword) (c : Nat × HostHdr), g.timed = some (at', c) → s.fab.eqx = .sync → at'.toNat ≤ s.fab.counter.toNat →
      exec (.timedStartFire slot) s = .next (settle (finishCmd (startGraph s slot) c .ok) slot)) ∧
    (∀ (at' : Dword) (c : Nat × HostHdr), g.timed = some (at', c) → s.fab.eqx ≠ .sync →
      exec (.timedStartFire slot) s
        = .next (settle (finishCmd (modGraph s slot fun x => { x with timed := none }) c .unsyncedTime) slot)) ∧
    (∀ c : Nat × HostHdr, g.pausing = some c → allStopped s slot g = true →
      exec (.graphPauseDone slot) s
        = .next (settle (finishCmd (modGraph s slot fun x => { stopStations x with state := .paused, pausing := none }) c .ok)
            slot)) ∧
    (g.state = .running → g.stallUs ≠ 0 → g.lastMove + 1000 * g.stallUs ≤ s.now → g.stallOut = false →
      exec (.stallUsExpiry slot) s = .next (stallReport s slot g) ∧
      ∀ q w, oldestWait g.queues none = some (w, q) →
        exec (.stallUsExpiry slot) s
          = .next (graphEvent (modGraph (tick1 s) slot fun x => { x with stallOut := true }) slot 4 .internal 0 q))

/-- TABLE_LOAD starts or queues a reload (R93), TABLE_RELOAD_RUN writes a good image to the shadow bank of every core of the mask, and
a core switches banks at its tile boundary, never inside a chain that holds a bank. -/
def Obligations.TableReloadCompletes : Prop :=
  (∀ (h : HostHdr) (image : AddrArg) (segCount : Nat) (mask : Half) (block : Bool) (s : State), Accepts s h .module false →
    image.space = 0 →
    (s.sfu.cur = none →
      exec (.tableLoad h image segCount mask block) s = .next { noted s h 0x10 with
        sfu := { s.sfu with cur := some ⟨s.hif.nextCmd, h, image.addr, segCount, mask⟩, written := false } }) ∧
    (s.sfu.cur ≠ none → block = true → s.sfu.waiting.length < 4 →
      exec (.tableLoad h image segCount mask block) s = .next { noted s h 0x10 with
        sfu := { s.sfu with waiting := s.sfu.waiting ++ [⟨s.hif.nextCmd, h, image.addr, segCount, mask⟩] } }) ∧
    (s.sfu.cur ≠ none → (block = false ∨ 4 ≤ s.sfu.waiting.length) →
      exec (.tableLoad h image segCount mask block) s = .next (complete s h .tableBusy 0))) ∧
  (∀ (r : Reload) (b : Bytes) (t s : State), s.sfu.cur = some r → s.sfu.written = false →
    ctrlRead s r.image (2048 + 32 * r.segCount) = (t, .ok b) → imageOk (b.take 2048) (b.drop 2048) r.segCount = true →
    let u := (reloadCores r.mask).foldl (writeShadow (b.take 2048) (b.drop 2048)) t
    let v := { u with sfu := { u.sfu with written := true } }
    exec .tableReloadRun s
      = .next (reloadDone ((reloadCores r.mask).foldl switchBank v))) ∧
  (∀ (core : Nat) (s : State), core < 256 → (coreAt s core).shadow = true → chainHolds (coreAt s core) = false →
    exec (.sfuBankSwitch core) s
      = .next (reloadDone (modCore s core fun x => { x with active := 1 - x.active, shadow := false })))

/-- A CLAIM returns (EPOCH, BASE + NEXT) and advances NEXT; when NEXT has reached LIMIT, or the index would exceed 32 bits, it
returns no work and changes nothing else (R136, Table 6-4). Behind an operation that waits it waits (R137). A COMMIT in the current
epoch is accepted and counted in COMMITTED; any other is refused, counted in CLU_WC_STALE without wrapping, and accepts nothing
(R136, Table 6-4). A RESET whose earlier commits have all landed advances EPOCH, takes BASE and LIMIT, and clears NEXT and
COMMITTED; one that meets a write still to land, or an operation that waits, waits (R136, R137, R140). -/
def Obligations.WorkCounterCompletes : Prop :=
  (∀ (core : Nat) (s : State), core < 256 →
     let w := wcOf s (core / 16)
     (w.waiting = [] → w.next.toNat < w.limit.toNat → w.base.toNat + w.next.toNat ≤ 0xFFFFFFFF →
       exec (.claim core) s = .next (modCore (modWc s (core / 16) fun _ => { w with next := w.next + 1 }) core
         fun x => { x with claimed := .got w.epoch (w.base + w.next) })) ∧
     (w.waiting = [] → (w.limit.toNat ≤ w.next.toNat ∨ 0xFFFFFFFF < w.base.toNat + w.next.toNat) →
       exec (.claim core) s
         = .next (modCore (modWc s (core / 16) fun _ => w) core fun x => { x with claimed := .noWork })) ∧
     (w.waiting ≠ [] →
       exec (.claim core) s = .next (modWc s (core / 16) fun x => { x with waiting := x.waiting ++ [.claim core] }))) ∧
  (∀ (core : Nat) (e : Byte) (i : Word) (s : State), core < 256 → bound s .store core = none →
     (wcOf s (core / 16)).waiting = [] →
     (e = (wcOf s (core / 16)).epoch →
       exec (.commit core e i) s = .next (modWc s (core / 16) fun x => { x with committed := x.committed + 1 })) ∧
     (e ≠ (wcOf s (core / 16)).epoch → ∃ t, exec (.commit core e i) s = .next t ∧
       t = ctrSat (0x02800028 + 0x1000 * (core / 16)) (wcOf s (core / 16)).stale (satAdd (wcOf s (core / 16)).stale 1)
         (modWc s (core / 16) fun x => { x with stale := satAdd x.stale 1 }))) ∧
  (∀ (cluster : Nat) (s : State), cluster < 16 →
     let w := wcOf s cluster
     (∀ value : Dword, w.landing = [] → w.waiting = [] →
       exec (.cluWcReset cluster value) s = .next (modWc s cluster fun x =>
         { x with epoch := x.epoch + 1, base := value.setWidth 32, limit := (value >>> 32).setWidth 32, next := 0#32,
                  committed := 0#32 })) ∧
     (∀ value : Dword, (w.landing ≠ [] ∨ w.waiting ≠ []) →
       exec (.cluWcReset cluster value) s = .next (modWc s cluster fun x =>
         { x with waiting := x.waiting ++ [.reset (value.setWidth 32) ((value >>> 32).setWidth 32) none] })) ∧
     (∀ (h : HostHdr) (base limit : Word), Accepts s h .graph false → foreignCluster s h.fn cluster = false →
       w.landing = [] → w.waiting = [] →
       exec (.wcReset h cluster base limit) s = .next (finishCmd (modWc (noted s h 0x11) cluster fun x =>
         { x with epoch := x.epoch + 1, base := base, limit := limit, next := 0#32, committed := 0#32 }) (cmdId s h) .ok)) ∧
     (∀ (base limit : Word), w.waiting = [.reset base limit none] → w.landing = [] → cluster < s.clusters.length →
       ∃ t, exec (.workCounterResetApply cluster) s = .next t ∧
         wcOf t cluster = { w with epoch := w.epoch + 1, base := base, limit := limit, next := 0#32, committed := 0#32,
                                   waiting := [] }))

/-- A completion that is owed goes to the next slot of the ring pair's CQ as the 16 bytes of Table 17-6, whose phase is 1 on the
first pass over the CQ and changes on each further pass (R374, R375); no other byte of host memory changes. A QUIET command whose
status is OK or EMPTY writes no completion (R371, R374). -/
def Obligations.CompletionWritesItsSlot : Prop :=
  (∀ (s : State) (h : HostHdr) (st : Status) (res : Nat) (x : Ring), Memory.wf s.hostMem →
     (h.quiet = false ∨ statusFine st = false) → findRing s h.fn h.ring = some x → x.backlog = [] → cqFull x = false →
     resyncing s h.fn = false →
     let slot := x.cqBase + 16 * (x.written.toNat % 2 ^ x.cqExp)
     let e := leBytes 8 h.user.toNat ++ leBytes 1 (statusCode st) ++ leBytes 1 (1 - x.written.toNat / 2 ^ x.cqExp % 2)
       ++ leBytes 2 (BitVec.ofNat 16 res).toNat ++ leBytes 4 x.head.toNat
     (∀ i < 16, cellGet (complete s h st res).hostMem (slot + i) = e.getD i 0#8) ∧
     (∀ a, a < slot ∨ slot + 16 ≤ a → cellGet (complete s h st res).hostMem a = cellGet s.hostMem a) ∧
     (complete s h st res).mem = s.mem ∧
     (findRing (complete s h st res) h.fn h.ring).map (fun y => (y.written, y.head, y.tail, y.hhead))
       = some (x.written + 1, x.head, x.tail, x.hhead)) ∧
  (∀ (s : State) (h : HostHdr) (res : Nat), h.quiet = true → complete s h .ok res = s ∧ complete s h .empty res = s)

/-- RING_CREATE with a good descriptor for an absent ring below RING_N adds a ring pair with every count at zero; RING_DELETE of a ring
that no graph names begins the deletion (R370). -/
def Obligations.RingCommandsComplete : Prop :=
  (∀ (h : HostHdr) (desc : BitVec 256) (s : State), Accepts s h .ring true →
    let r := bits desc.toNat 192 16
    ringDescOk s h.fn desc.toNat = true → r ≠ 0 → r < (fnCfg s h.fn).ringN → findRing s h.fn r = none →
    let x : Ring :=
      { fn := h.fn, ring := r, sqBase := bits desc.toNat 0 64, cqBase := bits desc.toNat 64 64,
        sqExp := bits desc.toNat 128 5, cqExp := bits desc.toNat 136 5, vector := bits desc.toNat 144 11,
        noirq := bit desc.toNat 159, modCnt := bits desc.toNat 160 8, modUs := bits desc.toNat 176 10, tail := 0#32,
        head := 0#32, written := 0#32, hhead := 0#32, backlog := [], fetched := [], unsig := 0, unsigAt := none,
        deleting := none }
    exec (.ringCreate h desc) s
      = .next (complete { s with hif := { s.hif with rings := s.hif.rings ++ [x] } } h .ok 0)) ∧
  (∀ (h : HostHdr) (ring : Nat) (x : Ring) (s : State), Accepts s h .ring true → ring ≠ 0 → findRing s h.fn ring = some x →
    cqNamed s h.fn ring = false → x.deleting = none →
    exec (.ringDelete h ring) s
      = .next (afterCmd (modRing (noted s h 0x41) h.fn ring fun y => { y with deleting := some (cmdId s h) }))) ∧
  (∀ (h : HostHdr) (ring : Nat) (s : State), Accepts s h .ring true →
    (ring = 0 ∨ findRing s h.fn ring = none ∨ cqNamed s h.fn ring = true) →
    exec (.ringDelete h ring) s = .next (complete s h .badDescriptor 0))

/-- A 32-bit write of a doorbell whose value stays within the ring moves TAIL, and wakes an IDLE module (R372, R389), or moves the
host's CQ head, whereupon waiting completions are written (R375). SQ_FETCH takes up to 16 entries between HEAD and TAIL, 64 bytes
each, advances HEAD past them, and decodes what is fetched as far as no FENCE holds it (R371, R373). -/
def Obligations.DoorbellsAndFetchComplete : Prop :=
  (∀ (fn ring : Nat) (value : Word) (x : Ring) (s : State), fn < 33 → ring < 256 → windowOpen s fn = true →
     findRing s fn ring = some x → resyncing s fn = false →
     (value ≠ x.tail → (value - x.head).toNat ≤ 2 ^ x.sqExp → (value - x.tail).toNat ≤ 2 ^ x.sqExp →
       exec (.sqTail fn ring 32 value) s = .next (wakeEvent (modRing s fn ring fun y => { y with tail := value }))) ∧
     ((value - x.hhead).toNat ≤ (x.written - x.hhead).toNat →
       exec (.cqHead fn ring 32 value) s
         = .next (afterCmd (drainBacklog (modRing s fn ring fun y => { y with hhead := value }) fn ring x.backlog))) ∧
     (∀ width, width ≠ 32 →
       exec (.sqTail fn ring width value) s = .next (countDbErr s) ∧
       exec (.cqHead fn ring width value) s = .next (countDbErr s))) ∧
  (∀ (fn ring : Nat) (x : Ring) (s : State), fn < 33 → decoding s.pwr.state = true → findRing s fn ring = some x →
     x.backlog = [] → x.fetched = [] → resyncing s x.fn = false →
     let n := min 16 (x.tail - x.head).toNat
     exec (.sqFetch fn ring) s = .next (almAll (afterCmd (decodeRun fn ring n
       (modRing s fn ring fun y => { y with
         fetched := y.fetched ++ ((List.range n).map fun i =>
           hostPeek s (x.sqBase + 64 * ((x.head.toNat + i) % 2 ^ x.sqExp)) 64)
         head := y.head + BitVec.ofNat 32 n }))) fn))

/-- Interrupts (R380): moderation's time signals the CQ's vector, and unmasking a pending vector signals it; a masked vector only
becomes pending. The endpoint (R368, R382, R390, R451): function-level reset, PERST#, a retrained link, configuration requests, and
invalidation of cached translations. -/
def Obligations.InterruptsAndEndpointComplete : Prop :=
  ((∀ (fn ring t : Nat) (x : Ring) (s : State), findRing s fn ring = some x → x.unsigAt = some t → x.noirq = false →
     t + 1000 * x.modUs ≤ s.now → exec (.msixModerationExpiry fn ring) s = .next (ringSignal s fn ring)) ∧
   (∀ (fn vector : Nat) (s : State), fn < 33 → vector < 2048 → vector < (fnCfg s fn).vecN →
     (fnCfg s fn).vecBase + vector ∈ s.hif.pendVec →
     exec (.msixVectorUnmask fn vector) s = .next { s with hif := { s.hif with
       masked := s.hif.masked.filter (fun v => !(v == (fnCfg s fn).vecBase + vector))
       pendVec := s.hif.pendVec.filter (fun v => !(v == (fnCfg s fn).vecBase + vector))
       signalled := ((fnCfg s fn).vecBase + vector) :: s.hif.signalled } }) ∧
   (∀ (fn v : Nat) (s : State), (fnCfg s fn).vecBase + v ∈ s.hif.masked →
     (signalVec s fn v).hif.signalled = s.hif.signalled ∧ (fnCfg s fn).vecBase + v ∈ (signalVec s fn v).hif.pendVec) ∧
   (∀ (fn v : Nat) (s : State), (fnCfg s fn).vecBase + v ∉ s.hif.masked →
     (signalVec s fn v).hif.signalled = ((fnCfg s fn).vecBase + v) :: s.hif.signalled)) ∧
  ((∀ (fn : Nat) (s : State), fn < 33 → hostUp s.pwr.state = true →
     exec (.functionLevelReset fn) s
       = .next (afterCmd (if fn = 0 then (List.range 33).foldl resetFn s else resetFn s fn))) ∧
   (∀ s : State, (hostUp s.pwr.state = true ∨ s.pwr.state = .thaw) →
     exec .perstNLow s = .next (afterCmd ((List.range 33).foldl resetFn
       { s with hif := { s.hif with linkRate := 0, linkLanes := 0, linkFlit := false } }))) ∧
   (∀ (rate lanes : Nat) (flit : Bool) (s : State), hostUp s.pwr.state = true → rate < 8 → lanes < 32 →
     exec (.pcieLinkRetrain rate lanes flit) s = .next (alarm { s with hif := { s.hif with
       linkRate := rate, linkLanes := lanes, linkFlit := flit, retrains := min 0xFFFF (s.hif.retrains + 1) } } 21
       s.hif.aer.toNat)) ∧
   (∀ s : State, s.pwr.state = .thaw →
     exec .configurationRequest s = .next { s with hif := { s.hif with cfgServed := some false } }) ∧
   (∀ s : State, hostUp s.pwr.state = true →
     exec .configurationRequest s = .next { s with hif := { s.hif with cfgServed := some true } }) ∧
   (∀ (iova bytes : Nat) (s : State),
     exec (.atsInvalidation iova bytes) s = .next { s with hif := { s.hif with
       atc := s.hif.atc.filter fun p => !(decide (iova / 4096 ≤ p ∧ p * 4096 < iova + bytes)) } }))

/-- An Almanac that nothing delays is served at once (R381-R383): SERIAL counts it, the document, or its header alone with SHAPE_OVER
when the buffer is short, is written to the buffer, and the request completes. Under RESYNC the function's undecoded submissions and
unwritten completions are dropped. -/
def Obligations.AlmanacCompletes : Prop :=
  (∀ (h : HostHdr) (buf : AddrArg) (len : Word) (resync : Bool) (s : State), Accepts s h .almanac true → almBufOk buf len.toNat = true →
    almReady (noted s h 0x7F) h.fn = true → s.hif.almReqs = [] →
    exec (.almanac h buf len resync) s
      = .next (almServe { noted s h 0x7F with hif := { (noted s h 0x7F).hif with
          almReqs := [⟨h.fn, some (cmdId s h), buf, len.toNat, resync⟩] } } ⟨h.fn, some (cmdId s h), buf, len.toNat, resync⟩)) ∧
  (∀ (fn : Nat) (addr : Dword) (len value : Word) (a : AlmFn) (s : State), fn < 33 → windowOpen s fn = true →
    value.getLsbD 0 = true → s.hif.alm[fn]? = some a → a.busy = false → (∀ r ∈ s.hif.almReqs, r.fn ≠ fn) →
    (fnCfg s fn).perm.getLsbD 4 = true → 64 ≤ len.toNat →
    exec (.almGo fn addr len value) s
      = .next (almAsk (wakeEvent (modAlm s fn fun b => { b with addr := addr, len := len, busy := true, done := false }))
          ⟨fn, none, ⟨1, addr.toNat⟩, len.toNat, value.getLsbD 1⟩))

/-- GROUP_OPEN, GROUP_RESET and GROUP_CLOSE (R266, R277): the record's group joins the open ones; a FENCED group sends its retired number
to every other member and waits for theirs; a group closes. -/
def Obligations.GroupCommandsComplete : Prop :=
  (∀ (h : HostHdr) (r : AddrArg) (b : Bytes) (t u : State) (s : State), Accepts s h .group false → argOk r = true →
    argRead s r 64 = (t, .ok b) → openGroup t h.fn b = (u, .ok) →
    exec (.groupOpen h r) s = .next (complete u h .ok 0)) ∧
  (∀ (h : HostHdr) (group : Nat) (g : Group) (s : State), Accepts s h .group false → findGroup s group = some g →
    g.fn = h.fn → g.state = 2 →
    exec (.groupReset h group) s = .next (resetTry
      (((List.range g.n).filter fun k => k != g.rank).foldl (fun t k => groupSend t g k 7 [g.retired.toNat])
        (modGroup (noted s h 0x21) group fun x =>
          { x with state := 3, resetCmd := some (cmdId s h), resetAt := s.now, inbox := [] })) group)) ∧
  (∀ (h : HostHdr) (group : Nat) (g : Group) (s : State), Accepts s h .group true → findGroup s group = some g →
    g.fn = h.fn → g.closeCmd = none →
    exec (.groupClose h group) s
      = .next (closeGroup (modGroup (noted s h 0x22) group fun x => { x with closeCmd := some (cmdId s h) }) group)) ∧
  (∀ (die group rank : Nat) (retired : Word) (g : Group) (s : State), die < 2 → findGroup s group = some g → rank < g.n →
    g.state ≠ 1 →
    exec (.resetExchangeArrival die group rank retired) s
      = .next (resetTry (modGroup s group fun x => { x with resetGot := assocPut x.resetGot rank retired }) group))

/-- A collective's work descriptor that passes its checks and finds its inputs enters the group's sequence of operations, and the group's
operations go on as far as what they hold allows (R255-R263). -/
def Obligations.CollectiveOperationsComplete : Prop :=
  ∀ (die : Nat) (c : Instr) (op : Nat) (b : Bound) (v : Bytes) (g : Group) (r t s : State) (hs : List Handle), die < 2 →
    (c, op) ∈ [(.collBcast die, 1), (.collAllgather die, 2), (.collAlltoall die, 3), (.collAlltoallv die, 4),
      (.collAllreduce die, 5), (.collReduceScatter die, 6), (.collAttnMerge die, 7)] →
    Ready s .coll die b → ctrlRead s (wdAddr b 64) 64 = (r, .ok v) →
    let d := collDescOf v
    d.e.op = op → findGroup r d.group = some g → collDescOk g die d = true →
    portsBound b (collPorts g d).1 (collPorts g d).2 = true → d.e.count ≤ d.e.countMax → g.state = 1 → g.entries.length < 16 →
    popInputs r b g d = .got t hs →
    let u := enterOp t b g d hs
    exec c s = .next (collListEnd (((u.groups.filter fun x => x.die == die).map fun x => x.id).foldl collGo u) b.slot b.idx)

/-- A collective message reaches the group whose number and tag it names and joins the operation it belongs to; one whose tag is no
open group's is counted as stray, and one whose tag names an OPEN group under another number fences it with BAD_DESCRIPTOR (R257,
R270; the group number as the field that disagrees is the model's reading, log 102). FENCE and WITHDRAW fence the group (R274, R275).
A group whose operation has expected a member's message for CHUNK_US fences itself with MEMBER_WITHDRAWN (R273), a reset whose
exchange has lasted CHUNK_US ends with MEMBER_WITHDRAWN (R277), and an operation that has waited VAT_WAIT_US for a vat fails with
VAT_WAIT_TIMEOUT (R272). -/
def Obligations.CollectiveMessagesComplete : Prop :=
  (∀ (die : Nat) (m : CollMsg) (s : State), die < 2 →
     (∀ (c : Instr) (k : CollKind) (g : Group),
       (c, k) ∈ [(.grantArrival die m, .grant), (.chunkArrival die m, .chunk), (.resultChunkArrival die m, .result),
         (.acknowledgementArrival die m, .ack), (.retire die m, .retire)] →
       findGroup s m.group = some g → g.gtag = m.gtag → g.state ≠ 2 →
       exec c s = .next (collGo (modGroup s g.id fun x => { x with inbox := x.inbox ++ [(k, m)] }) g.id)) ∧
     (∀ (c : Instr) (g : Group), c ∈ [.grantArrival die m, .chunkArrival die m, .resultChunkArrival die m,
         .acknowledgementArrival die m, .retire die m] →
       (∀ x ∈ s.groups, x.gtag = m.gtag → x.id ≠ m.group) → (s.groups.find? fun x => x.gtag == m.gtag) = some g → g.state = 1 →
       exec c s = .next (groupFence s g.id .badDescriptor .badDescriptor .mismatch g.rank none true)) ∧
     (∀ c : Instr, c ∈ [.grantArrival die m, .chunkArrival die m, .resultChunkArrival die m, .acknowledgementArrival die m,
         .retire die m, .fence die m 0 .ok 0, .withdraw die m] → (∀ x ∈ s.groups, x.gtag ≠ m.gtag) →
       exec c s = .next (strayMsg s die)) ∧
     (∀ (frank cause : Nat) (st : Status) (g : Group), findGroup s m.group = some g → g.gtag = m.gtag →
       exec (.fence die m frank st cause) s
         = .next (groupFence s g.id st .groupFenced (colCauseOf cause) frank (some m.src) true)) ∧
     (∀ g : Group, findGroup s m.group = some g → g.gtag = m.gtag →
       exec (.withdraw die m) s = .next (churnWithdraw
         (groupFence s g.id .memberWithdrawn .memberWithdrawn .withdraw m.src (some m.src) true) g.id))) ∧
  (∀ (die group : Nat) (g : Group) (s : State), die < 2 → findGroup s group = some g → g.die = die →
     (g.state = 1 → (∃ e ∈ g.entries, ∃ p ∈ e.expectAt, p.2 + 1000 * g.chunkUs ≤ s.now) →
       exec (.chunkUsExpiry die group) s
         = .next (groupFence s group .memberWithdrawn .memberWithdrawn .timeout g.rank none true)) ∧
     (∀ c : Nat × HostHdr, g.state = 3 → g.resetCmd = some c → g.resetAt + 1000 * g.chunkUs ≤ s.now →
       exec (.chunkUsExpiry die group) s = .next (closeGroup
         (finishCmd (modGroup s group fun x => { x with state := 2, resetCmd := none }) c .memberWithdrawn) group)) ∧
     (∀ (e : CollEntry) (t : Nat), g.state = 1 → currentOf g = some e → e.waitAt = some t → t + 1000 * g.vatWaitUs < s.now →
       exec (.vatWaitTimeout die group) s
         = .next (groupFence s g.id .vatWaitTimeout .vatWaitTimeout .vatWait g.rank none true)))

/-- A lend-copy record reaches its die's engine, from the host or from a control core (R319, R322): a good record becomes a copy,
whose requests the engine sends while fewer than 64 are outstanding. What ends a borrower's copy (R320, R322): the last response of
all, an error status, or a request unanswered for TIMEOUT_US. -/
def Obligations.LendCopiesComplete : Prop :=
  ((∀ (h : HostHdr) (r : AddrArg) (b : Bytes) (t s : State), Accepts s h .data false →
     argRead (noted s h 0x31) r 64 = (t, .ok b) → lendRecOk b = true →
     let c := lendCopyOf t.memc.nextCopy.toNat (some (cmdId s h)) none b
     exec (.lendCopy h r) s = .next (lendFill
       { t with memc := { t.memc with nextCopy := t.memc.nextCopy + 1, copies := t.memc.copies ++ [c] } } c.die)) ∧
   (∀ (cluster addr : Nat) (b : Bytes) (t s : State), cluster < 16 → hostUp s.pwr.state = true → addr < 2 ^ 48 →
     argRead s ⟨0, addr⟩ 64 = (t, .ok b) → lendRecOk b = true →
     let c := lendCopyOf t.memc.nextCopy.toNat none (some addr) b
     exec (.memLendPost cluster addr) s = .next (lendFill
       { t with memc := { t.memc with nextCopy := t.memc.nextCopy + 1, copies := t.memc.copies ++ [c] } } c.die))) ∧
  (∀ (die : Nat) (c : LendCopy) (s : State), die < 2 →
     (∀ (p : LendRspPkt) (k : LendPart), findCopy s die p.tag.toNat = some c →
       c.outst.find? (fun k => lendMatches c k p) = some k → p.status ≠ .ok →
       exec (.lendRsp die p) s = .next (lendFill (lendEnd s c p.status) die)) ∧
     (∀ (p : LendRspPkt) (k : LendPart) (t : State), findCopy s die p.tag.toNat = some c →
       c.outst.find? (fun k => lendMatches c k p) = some k → p.status = .ok → c.put = false → c.length ≤ c.nextOff →
       c.outst.filter (fun x => !(x.rid == k.rid)) = [] → memWrite s (c.local_ + k.off) (p.payload.take k.len) = some t →
       exec (.lendRsp die p) s = .next (lendFill (lendEnd (modCopy t c.num fun x => { x with outst := [] }) c .ok) die)) ∧
     (∀ num, findCopy s die num = some c → (∃ k ∈ c.outst, k.sentAt + 1000 * c.timeoutUs ≤ s.now) →
       exec (.lendTimeout die num) s = .next (lendFill (lendEnd s c .memberWithdrawn) die)))

/-- A lender in ACTIVE serves a request that its grant allows and refuses any other with PAGE_FAULT; in HOLD and WITHDRAWN it
answers THERMAL_HOLD and MEMBER_WITHDRAWN (R321). A lender serves no request once REVOKE is set, or whose generation or sender is
not the grant's, or that names a frame at or beyond COUNT (R318, R321). MEM_LEND_GRANT (R318, R446): word 1 is held; word 0 commits
both, and a grant made VALID takes the next generation; a VALID grant's other fields do not change, and while REVOKE is set a write of
1 to VALID is ignored. REVOKE refuses new requests, and when the last accepted one is done REVOKE and VALID clear. -/
def Obligations.LendRequestsComplete : Prop :=
  (∀ (die : Nat) (p : LendReqPkt) (s : State), die < 2 →
     let g := grantAt s p.grant
     let a := g.base + p.frame * (1024 * g.fsizeK) + p.offset
     (∀ b t, s.pwr.state = .active → lendAllowed g p = true → p.op = 1 → memRead s a p.rlen = (t, .ok b) →
       exec (.lendReq die p) s = .next (lendAnswer t die p .ok b)) ∧
     (∀ t, s.pwr.state = .active → lendAllowed g p = true → p.op = 2 → memWrite s a p.payload = some t →
       exec (.lendReq die p) s = .next (lendAnswer t die p .ok [])) ∧
     (s.pwr.state = .active → lendAllowed g p = false →
       exec (.lendReq die p) s = .next (lendAnswer s die p .pageFault [])) ∧
     (s.pwr.state = .hold → exec (.lendReq die p) s = .next (lendAnswer s die p .thermalHold [])) ∧
     (s.pwr.state = .withdrawn → exec (.lendReq die p) s = .next (lendAnswer s die p .memberWithdrawn []))) ∧
  (∀ (die : Nat) (p : LendReqPkt) (s : State), die < 2 → s.pwr.state = .active →
     let g := grantAt s p.grant
     (g.valid = false ∨ g.revoke = true ∨ p.gen ≠ g.gen ∨ p.src ≠ g.borrower ∨ g.count ≤ p.frame ∨
       1024 * g.fsizeK < p.offset + p.rlen ∨ (p.op = 1 ∧ g.rd = false) ∨ (p.op = 2 ∧ g.wr = false)) →
     ∃ t, exec (.lendReq die p) s = .next t ∧ t = lendAnswer s die p .pageFault [] ∧ t.mem = s.mem ∧ t.poison = s.poison ∧
       t.memc = s.memc) ∧
  (∀ (grant : Nat) (s : State), grant < 16 → hostUp s.pwr.state = true →
     let g := grantAt s grant
     (∀ v : Dword, exec (.memLendGrant grant 1 v) s = .next (modGrant s grant fun x => { x with held := some v })) ∧
     (∀ lo : Dword, g.valid = true → grant < s.memc.grants.length → ∃ t, exec (.memLendGrant grant 0 lo) s = .next t ∧
       grantAt t grant = { g with held := none, revoke := g.revoke || lo.getLsbD 1, valid := lo.getLsbD 0 }) ∧
     (∀ lo : Dword, g.revoke = true → g.valid = false → grant < s.memc.grants.length →
       ∃ t, exec (.memLendGrant grant 0 lo) s = .next t ∧ (grantAt t grant).valid = false ∧ (grantAt t grant).gen = g.gen) ∧
     (∀ lo : Dword, lo.getLsbD 0 = true → lo.getLsbD 1 = false → g.valid = false → g.revoke = false →
       grant < s.memc.grants.length →
       let n := grantFields { g with held := none } ((g.held.map fun v => v.toNat).getD (grantHi g)) lo.toNat
       (grantOk n = true → ∃ t, exec (.memLendGrant grant 0 lo) s = .next t ∧
         grantAt t grant = { n with valid := true, gen := (g.gen + 1) % 256, revoke := false }) ∧
       (grantOk n = false → ∃ t, exec (.memLendGrant grant 0 lo) s = .next t ∧ grantAt t grant = { g with held := none })) ∧
     (exec (.revoke grant) s = .next (modGrant s grant fun x => { x with revoke := x.revoke || x.valid })) ∧
     (g.revoke = true → grant < s.memc.grants.length → ∃ t, exec (.revokeDone grant) s = .next t ∧
       grantAt t grant = { g with revoke := false, valid := false }))

/-- A Whey record that passes its checks is accepted as a transfer, from the host or from a control core (R338, R339). The flash
work of an accepted transfer (R335-R340): PUT stores the bytes read, GET delivers the object as it stood at acceptance, MOVE walks
its list, ALLOC takes slots, FREE trims its objects when no earlier transfer names them; then the status is written back, and the
command completes. A transfer that has run ends once its handles are pushed: the status written into its record, and its command
completed (R338, R340). -/
def Obligations.WheyTransfersComplete : Prop :=
  ((∀ (h : HostHdr) (r : AddrArg) (b : Bytes) (t s : State), Accepts s h .data false → wheyReady s = true →
     argRead (noted s h 0x32) r 64 = (t, .ok b) → wheyResOk b = true → wheyRecOk t (wheyRecOf b) = true →
     exec (.wheyXfer h r) s = .next { t with fls := { t.fls with
       nextXfer := t.fls.nextXfer + 1
       xfers := t.fls.xfers ++ [⟨t.fls.nextXfer, some (cmdId s h), r.space, r.addr, wheyRecOf b,
         if (wheyRecOf b).op = 2 then assocGet t.fls.objects (wheyRecOf b).obj else none, wordsIn t.fls.bad (wheyRecOf b).obj,
         wordsIn t.fls.soft (wheyRecOf b).obj, false, .ok, []⟩] } }) ∧
   (∀ (cluster addr : Nat) (b : Bytes) (t s : State), cluster < 16 → hostUp s.pwr.state = true → addr < 2 ^ 48 →
     wheyReady s = true → argRead s ⟨0, addr⟩ 64 = (t, .ok b) → wheyResOk b = true → wheyRecOk t (wheyRecOf b) = true →
     exec (.flsWheyPost cluster addr) s = .next { t with fls := { t.fls with
       nextXfer := t.fls.nextXfer + 1
       xfers := t.fls.xfers ++ [⟨t.fls.nextXfer, none, 0, addr, wheyRecOf b,
         if (wheyRecOf b).op = 2 then assocGet t.fls.objects (wheyRecOf b).obj else none, wordsIn t.fls.bad (wheyRecOf b).obj,
         wordsIn t.fls.soft (wheyRecOf b).obj, false, .ok, []⟩] } })) ∧
  (∀ (x : Xfer) (s : State), findXfer s x.id = some x → hostUp s.pwr.state = true → x.ran = false →
     (∀ b t, x.args.op = 1 → s.fls.state ≠ .readonly → objOk s x.args.obj = true → memRead s x.args.local_ x.args.length = (t, .ok b) →
       exec (.wheyPut x.id) s = .next (xferEnds (storeObj t x.args.obj b) x .ok (pushOuts x.args .ok))) ∧
     (∀ b t u, x.args.op = 2 → x.old = some b →
       flashReadAs s x.args.obj (slotWords s x.args.obj) x.oldBad x.oldSoft = (t, true) → wheyCheck b = true → memWrite t x.args.local_ b = some u →
       exec (.wheyGet x.id) s = .next (xferEnds u x .ok (pushOuts x.args .ok))) ∧
     (∀ b l st t u, x.args.op = 3 → ctrlRead s x.args.local_ 32 = (t, .ok b) → namesIndex t x.args = false →
       moveWalk moveOutEntry x.args.local_ (leAt b 0 4) 0 t = (u, l, st) →
       exec (.wheyMoveOut x.id) s = .next (xferEnds u x st l)) ∧
     (∀ b l st t u, x.args.op = 4 → ctrlRead s x.args.local_ 32 = (t, .ok b) → namesIndex t x.args = false →
       moveWalk moveInEntry x.args.local_ (leAt b 0 4) 0 t = (u, l, st) →
       exec (.wheyMoveIn x.id) s = .next (xferEnds u x st l)) ∧
     (∀ t u l, x.args.op = 5 → takeSlots x.args.pool x.args.count s = (t, l) →
       memWrite t x.args.local_ (leBytes 4 l.length ++ (l.map (leBytes 8)).flatten) = some u →
       exec (.wheyAlloc x.id) s = .next (xferEnds u x .ok (pushOuts x.args .ok))) ∧
     (∀ b t, x.args.op = 6 → (∀ y ∈ s.fls.xfers, y.id < x.id → ∀ o ∈ xferObjs s y.args, o ∉ xferObjs s x.args) →
       memRead s x.args.local_ (4 + 8 * x.args.count) = (t, .ok b) →
       exec (.wheyFree x.id) s = .next (xferEnds ((xferObjs s x.args).foldl freeObj t) x .ok (pushOuts x.args .ok)))) ∧
  (∀ (x : Xfer) (u s : State), findXfer s x.id = some x → x.ran = true → wheyPush x x.outs s = (u, []) →
     let v := wheyStatus u ⟨x.recAs, x.recAddr⟩ x.status
     exec (.wheyTransferDone x.id) s
       = .next (wheyAnswer { v with fls := { v.fls with xfers := v.fls.xfers.filter fun y => !(y.id == x.id) } } x.cmd x.status))

/-- The Whey's set-up and upkeep (R330-R334, R341): a pool definition that fits is taken, and one that does not sets POOL_ERR; the
first scan opens the store; upkeep relocates, collects, refreshes, or retires a block. Upkeep moves no object: what any read of the
Whey returns stays as it was (R330, R341). -/
def Obligations.FlashCommandsComplete : Prop :=
  ((∀ (pool : Nat) (v : Dword) (s : State), pool < 16 → hostUp s.pwr.state = true →
     let p := wheyPoolOf v.toNat
     (poolUnits (s.fls.pools.set pool p) ≤ 6979321856 → poolInUse s pool = false →
       exec (.flsPool pool v) s = .next { s with fls := { s.fls with pools := s.fls.pools.set pool p } }) ∧
     (6979321856 < poolUnits (s.fls.pools.set pool p) →
       exec (.flsPool pool v) s = .next { s with fls := { s.fls with poolErr := true } })) ∧
   (∀ s : State, s.fls.state = .scanning → (s.pwr.state = .thaw ∨ hostUp s.pwr.state = true) → ∃ t, exec .flashScanDone s = .next t ∧
     t.fls.state = (if s.fls.readonly then .readonly else .ready) ∧ t.fls.scanned = true ∧ t.fls.objects = s.fls.objects ∧
     t.fls.alloc = s.fls.alloc ∧ t.fls.pools = s.fls.pools ∧ t.mem = s.mem) ∧
   (∀ (c : Nat) (s : State), c < 64 → wheyReady s = true →
     exec (.flashUpkeep c .relocate) s = .next (wearMore (moreProgrammed (moreReloc s c)) c) ∧
     exec (.flashUpkeep c .collect) s = .next (wearMore (moreProgrammed s) c) ∧
     exec (.flashUpkeep c .refresh) s = .next (wearMore (moreProgrammed s) c) ∧
     exec (.flashUpkeep c .badBlock) s = .next (enterReadonly (modCh s c fun x => { x with spare := x.spare - 1 }) c))) ∧
  (∀ (c : Nat) (what : Upkeep) (s t : State), exec (.flashUpkeep c what) s = .next t →
     t.fls.objects = s.fls.objects ∧ t.fls.alloc = s.fls.alloc ∧ t.fls.bad = s.fls.bad ∧ t.fls.pools = s.fls.pools ∧
       t.fls.xfers = s.fls.xfers ∧ t.graphs = s.graphs ∧ t.kvc = s.kvc ∧ t.pwr = s.pwr ∧ t.sec = s.sec)

/-- A guarded write of bytes that exist is read back whole, through either view of the address map (R307), and leaves every other
byte as it was; a write or read that meets a hole changes nothing (R308). A read of clean sectors delivers the bytes and changes
nothing; a read that meets an uncorrectable sector says so (R309). A write of a whole sector replaces any earlier error (R310). -/
def Obligations.MemoryAccessesComplete : Prop :=
  (∀ (s : State) (a : Nat) (b : Bytes), Memory.wf s.mem →
     (spanOk a b.length = true → Clean s a b.length → ∃ t, memWrite s a b = some t ∧ peek t a b.length = b ∧ Memory.wf t.mem ∧
       (∀ d, (∀ i < b.length, d ≠ directD (a + i)) → cellGet t.mem d = cellGet s.mem d)) ∧
     (spanOk a b.length = false → memWrite s a b = none ∧ memRead s a b.length = (s, .hole))) ∧
  (∀ (s : State) (a n : Nat), spanOk a n = true →
     (Clean s a n → memRead s a n = (s, .ok (peek s a n))) ∧
     ((∃ k ∈ sectorsOf a n, k ∈ s.poison) → ∃ t k d, memRead s a n = (t, .bad k d) ∧ k / 32 ∈ s.poison)) ∧
  (∀ (s : State) (a : Nat) (b : Bytes) (t : State), a % 32 = 0 → b.length = 32 → memWrite s a b = some t →
     directD a / 32 ∉ t.poison ∧ directD a / 32 ∉ t.soft ∧ t.tel = s.tel ∧ t.memc = s.memc ∧ t.clusters = s.clusters ∧
       ∀ k, k ≠ directD a / 32 → (k ∈ t.poison ↔ k ∈ s.poison))

/-- An AMO (R317) on a target it reaches whose sectors are clean stores the operation's result, and the control core sees the old value,
a word sign-extended; LR and SC work on the control core's own cluster SRAM, where a reservation that stands (the model's choice what
it takes to stand, log 164) lets SC store; a compare-and-swap stores only where the old word is the expected one. Any other target is
an access fault. A write of one element to an update alias adds it to its target, with the adder's flags; one that R315 does not allow
changes no memory and is an access fault (R308, R315, R316). -/
def Obligations.AtomicsAndAliasesComplete : Prop :=
  (∀ (cluster : Nat) (op : AmoOp) (wide : Bool) (a : Nat) (v : Dword) (s : State), cluster < 16 →
    let n := if wide then 8 else 4
    let old := leNat (peek s a n)
    let plain := op ≠ .lr ∧ op ≠ .sc
    (plain → amoOk a n = true → Clean s a n → directD a / 32 ∉ s.poison →
      let t := poke s a (leBytes n (amoResult op (8 * n) old (v.toNat % 2 ^ (8 * n))))
      exec (.amo cluster op wide a v) s
        = .next (amoAnswer (dlCtrl (dlCtrl t (cluster / 8) (dieOf a) n) (dieOf a) (cluster / 8) n) cluster
            (amoSeen wide (.old (BitVec.ofNat 64 old))))) ∧
    ((if op = .lr ∨ op = .sc then ownSram cluster a n else amoOk a n) = false →
      exec (.amo cluster op wide a v) s = .next (modCluster s cluster fun x => { x with amo := .accessFault })) ∧
    (∀ (t : State) (b : Bytes), op = .lr → ownSram cluster a n = true → memRead s a n = (t, .ok b) →
      exec (.amo cluster op wide a v) s
        = .next (modCluster (amoAnswer t cluster (amoSeen wide (.old (BitVec.ofNat 64 (leNat b))))) cluster
            fun x => { x with resv := some (a, n, leNat b) })) ∧
    (op = .sc → ownSram cluster a n = true →
      let s1 := modCluster s cluster fun x => { x with resv := none }
      ((clusterAt s cluster).resv ≠ some (a, n, old) →
        exec (.amo cluster op wide a v) s = .next (amoAnswer s1 cluster (.old 1#64))) ∧
      (∀ t, (clusterAt s cluster).resv = some (a, n, old) → memWrite s1 a (leBytes n (v.toNat % 2 ^ (8 * n))) = some t →
        exec (.amo cluster op wide a v) s = .next (amoAnswer t cluster (.old 0#64))))) ∧
  (∀ (channel a : Nat) (expected new : Word) (s : State), channel < 64 →
    let old := leNat (peek s a 4)
    (amoOk a 4 = true → Clean s a 4 → directD a / 32 ∉ s.poison →
      exec (.compareAndSwap channel a expected new) s
        = .next { poke s a (leBytes 4 (if old = expected.toNat then new.toNat else old)) with
            vse := { s.vse with scanAmo := .old (BitVec.ofNat 64 old) } }) ∧
    (amoOk a 4 = false →
      exec (.compareAndSwap channel a expected new) s = .next { s with vse := { s.vse with scanAmo := .accessFault } })) ∧
  (∀ (a : Nat) (data : Bytes) (s : State),
    (aliasOk a data.length = true → data.length = aliasIn (aliasOp a) →
      Clean s (aliasTarget a) (aliasOut (aliasOp a)) → directD (aliasTarget a) / 32 ∉ s.poison →
      let r := aliasElem (aliasOp a) (leNat (peek s (aliasTarget a) (aliasOut (aliasOp a)))) (leNat data)
      exec (.updateAliasWrite a data) s
        = .next (noteStore (setAdderFlags (poke s (aliasTarget a) (leBytes (aliasOut (aliasOp a)) r.1)) (aliasTarget a) r.2)
            false)) ∧
    (aliasOk a data.length = false → exec (.updateAliasWrite a data) s = .next (noteStore s true)))

/-- Scrubbing, margining and failing units (R310, R325, R326, R329, R387). -/
def Obligations.MemoryUpkeepCompletes : Prop :=
  (∀ (stack : Nat) (s : State), stack < 8 → (s.pwr.state = .active ∨ s.pwr.state = .withdrawn) → s.memc.scrubH ≠ 0#32 →
    let t := upsetStack s stack
    exec (.patrolScrub stack) s = .next ((stackErrors t stack).foldl readSector t)) ∧
  (∀ (v : Word) (s : State), hostUp s.pwr.state = true → s.memc.marginGo = false → v.getLsbD 31 = true → marginOk s = true →
    exec (.memMarginCtl v) s = .next { s with memc := { s.memc with
      margin := v &&& 0x7FF00000#32, marginGo := true, marginResult := 3,
      marginStack := bits (v &&& 0x7FF00000#32).toNat 28 3 } }) ∧
  (∀ (v : Word) (s : State), hostUp s.pwr.state = true → s.memc.marginGo = false → v.getLsbD 31 = true → s.hif.lock = true →
    exec (.memMarginCtl v) s = .next { s with memc := { s.memc with marginResult := 2 } }) ∧
  (∀ (results : List Half) (t s : State), s.memc.marginGo = true → results.length = 32 →
    memWrite s (s.memc.marginStack * stackBytes) (openBytes s 0x1000000) = some t →
    exec (.marginSweepDone results) s = .next { tick1 t with memc := { t.memc with
      marginGo := false, marginResult := 1, marginRes := results } }) ∧
  (∀ (stack : Nat) (cause : StackCause) (s : State), stack < 8 → hostUp s.pwr.state = true →
    (cause ≠ .ueRate ∨ stackUeOver s stack = true) →
    exec (.stackFail stack cause) s
      = .next (withdrawModule (noteStackFail s stack cause) (Config.argPack [0, stack, stackCauseCode cause]))) ∧
  (∀ (c : Nat) (cause : FlashCause) (s : State), c < 64 → hostUp s.pwr.state = true →
    (cause ≠ .ueRate ∨ channelUeOver s c = true) →
    exec (.flashChannelFail c cause) s
      = .next (withdrawModule (noteFlashFail s c cause) (Config.argPack [1, c, flashCauseCode cause])))

/-- A small transfer is queued behind the others of its port, and the oldest completes with its status in its slot (R168). -/
def Obligations.SmallTransfersComplete : Prop :=
  ∀ (cluster : Nat) (s : State), cluster < 16 →
    (∀ (slotAddr : Nat) (cmd : BitVec 256), (clusterAt s cluster).small.length < 16 →
      exec (.smallTransfer cluster slotAddr cmd) s = .next (modCluster s cluster fun x =>
        { x with small := x.small ++ [smallOf slotAddr (leBytes 32 cmd.toNat)] })) ∧
    (∀ (c : SmallCmd) (rest : List SmallCmd) (d : Bytes) (t u : State), (clusterAt s cluster).small = c :: rest →
      c.resOk = true → 0 < c.len → c.len ≤ 256 → c.push = false → smallRead s cluster c = (t, .ok d) → smallWrite t cluster c d = .ok u →
      exec (.smallTransferDone cluster) s = .next (smallEnd u cluster c .ok))

/-- A handle with the SEQ its queue expects enters a queue with room (R31, R32); one with another SEQ halts its station with
INTERNAL, and one that meets a full queue changes nothing. A pop of a queue that holds a handle takes it and releases it, or keeps
it in hand; a pop of an empty queue waits, and its wait is timed for the watchdog (R31, R33, R42); a pop on a port nothing binds
halts the station (R25). -/
def Obligations.QueueCommandsComplete : Prop :=
  (∀ (slot i port : Nat) (h : Handle) (g : Graph) (st : Station) (qi : Nat) (q : Queue) (s : State), slot < 64 →
     slotGraph s slot = some g → g.stations[i]? = some st → mayFinish s ⟨slot, i, g, st⟩ = true →
     prodQueue g i port = some qi → g.queues[qi]? = some q →
     (queueRoom q (i - q.prodAt) = true → h.seq = q.nextSeq.getD (i - q.prodAt) 0#16 → q.mode ≠ .bcast →
       refOf s h.addr ≤ 255 →
       exec (.queuePush slot i port h none) s = .next (settle (modStation
         (modGraph (modQueue s slot qi fun x => enqueue x (i - q.prodAt) h) slot
           fun x => notePush s.now qi { x with lastMove := s.now, stallOut := false }) slot i
         fun x => { x with outSeq := x.outSeq.set port (h.seq + 1) }) slot)) ∧
     (queueRoom q (i - q.prodAt) = true → h.seq ≠ q.nextSeq.getD (i - q.prodAt) 0#16 →
       exec (.queuePush slot i port h none) s = .next (settle (haltCore (alarm s 0 q.qid) slot i .internal) slot)) ∧
     (queueRoom q (i - q.prodAt) = false → exec (.queuePush slot i port h none) s = .next s)) ∧
  (∀ (slot i port : Nat) (g : Graph) (st : Station) (s : State), slot < 64 → slotGraph s slot = some g →
     g.stations[i]? = some st → mayStart s ⟨slot, i, g, st⟩ = true →
     (∀ t h, (consQueue g i port).isSome = true → popHandle s slot i port = some (t, h) →
       exec (.queuePop slot i port true) s = .next (settle (release t slot i h) slot) ∧
       exec (.queuePop slot i port false) s
         = .next (settle (modStation t slot i fun x => { x with inHand := x.inHand ++ [(port, h)] }) slot)) ∧
     (∀ r, (consQueue g i port).isSome = true → popHandle s slot i port = none →
       exec (.queuePop slot i port r) s = .next (waitInputs s slot i [port])) ∧
     (∀ r, consQueue g i port = none →
       exec (.queuePop slot i port r) s = .next (haltStation s ⟨slot, i, g, st⟩ .badDescriptor)))

/-- A stream's next descriptor is read and judged: a good one becomes current, and a bad one halts the station (R144, R156); on STORE the
first tile's handles are popped with it. -/
def Obligations.StreamDescriptorsComplete : Prop :=
  ∀ (core : Nat) (b : Bound) (s : State), core < 256 →
    (∀ (r : State) (p : StreamPlan), Ready s .load core b → (b.st.strm.cur = none ∨ b.st.sub ≠ 0) →
      decodeStream s true core (wdAddr b 128) = (r, .ok p) →
      portsBound b [] (if hasComp p.d then [p.d.port, p.d.port + 1] else [p.d.port]) = true →
      exec (.loadDescriptor core) s = .next (loadCurrent r b p)) ∧
    (∀ (r : State) (e : Status), Ready s .load core b → (b.st.strm.cur = none ∨ b.st.sub ≠ 0) →
      decodeStream s true core (wdAddr b 128) = (r, .error e) →
      exec (.loadDescriptor core) s = .next (streamRefused r b e)) ∧
    (∀ (d : StreamDesc) (r0 s1 r : State) (p : StreamPlan), Ready s .store core b → (b.st.strm.cur = none ∨ b.st.sub ≠ 0) →
      readCtl s (wdAddr b 128) 128 (fun x => .ok (streamDescOf false x)) = (r0, .ok d) → streamDescOk false d = true →
      portsBound b (storePorts d) (if d.push then [d.pushPort] else []) = true → anchorPop s b (storePorts d) = some s1 →
      decodeStream s1 false core (wdAddr b 128) = (r, .ok p) →
      exec (.storeDescriptor core) s = .next (storeCurrent r (rebind r b) p))

/-- A LOAD's issued tile whose transfers have completed lands in its slot, and whole tiles are delivered in order (R150); a host read's
poisoned data lands marked, and its error is reported to the host and is a page fault (R365, R403). -/
def Obligations.LoadTransfersComplete : Prop :=
  ∀ (core tile : Nat) (b : Bound) (s : State), core < 256 → bound s .load core = some b → mayFinish s b = true → b.st.sub = 0 →
    (∀ (p : StreamPlan) (u : SlotUse),
      let s1 := issue s b
      let b1 := rebind s1 b
      openTile b1.st.strm tile = some u → slotPlan b1.st.strm u = some p →
      let t := fetchTile s1 b1 p u false
      exec (.streamTransferDone core tile) s = .next (loadAdvance t (rebind t b1))) ∧
    (∀ (p : StreamPlan) (u : SlotUse) (g : Geom) (outer : Nat), openTile b.st.strm tile = some u →
      slotPlan b.st.strm u = some p → hostGeom p = some (g, outer) →
      exec (.hostReadCompletion core tile .data) s
        = .next (loadAdvance (fetchTile s b p u false) (rebind (fetchTile s b p u false) b)) ∧
      exec (.hostReadCompletion core tile .poisoned) s
        = .next (loadAdvance (fetchTile s b p u true) (rebind (fetchTile s b p u true) b)) ∧
      let t := slotStops (aerNote s) b u ⟨.partialStop, .pageFault, 1, firstIova s core p g outer u.pos⟩
      exec (.hostReadCompletion core tile .error) s = .next (loadAdvance t (rebind t b)))

/-- A STORE's oldest popped tile, its commit accepted where it needs one, is written and delivered, and the stream goes on (R138,
R161). -/
def Obligations.StoreTilesComplete : Prop :=
  ∀ (core : Nat) (b : Bound) (d : StreamDesc) (t0 t : StoreTile) (s1 s : State), core < 256 → bound s .store core = some b →
    mayFinish s b = true → b.st.sub = 0 →
    let s0 := storeFill s b
    let b0 := rebind s0 b
    b0.st.strm.cur = some d → b0.st.strm.tiles.head? = some t0 → commitGate s0 b0 d = .go s1 →
    (rebind s1 b0).st.strm.tiles.head? = some t →
    let s2 := storeTile s1 (rebind s1 b0) d t
    let b2 := rebind s2 (rebind s1 b0)
    exec (.storeTileWritten core) s = .next (if mayFinish s2 b2 then storeProgress s2 b2 else s2)

/-- A claim template with a free place in the core's FIFO of four, and room ahead, claims an index, keeps it, and issues its tiles; an
index at or beyond the shape halts at its first tile. Once there is no more work it claims no more, and ends with OK when its tiles are
all delivered (R138, R158). An ATS answer that a page is present fills the translation cache; one that it is not gives the LOAD or
the STORE that waits on the page a page fault at its tile (R160, R161). A control core's re-arm register starts, keeps or refuses a
run (R165, R166). -/
def Obligations.ClaimTemplateAndSideCommands : Prop :=
  (∀ (core : Nat) (b : Bound) (d : StreamDesc) (s : State), core < 256 → bound s .load core = some b →
     b.st.strm.cur = some d → mayClaim s b core d = true →
     (∀ (w : WorkCtr) (e : Byte) (i : Word), claimOp (wcOf s (core / 16)) = (w, .got e i) →
       let s2 := modCore (modCore (modWc s (core / 16) fun _ => w) core fun x => { x with claimed := .got e i }) core
         fun x => { x with claims := x.claims ++ [(e, i)] }
       let s3 := modStrm s2 b fun x => { x with claims := openClaims d x ++ [(x.fill, i.toNat)] }
       let s4 := claimOver s3 (rebind s3 b)
       exec (.claimTemplate core) s = .next (loadAdvance s4 (rebind s4 b))) ∧
     (∀ w : WorkCtr, claimOp (wcOf s (core / 16)) = (w, .noWork) →
       let s2 := modStrm (modCore (modWc s (core / 16) fun _ => w) core fun x => { x with claimed := .noWork }) b
         fun x => { x with claimOut := true }
       exec (.claimTemplate core) s = .next (loadProgress s2 (rebind s2 b)))) ∧
  (∀ (b : Bound) (d : StreamDesc) (s : State), b.st.strm.cur = some d → d.claim = true → b.st.strm.claimOut = true →
     b.st.strm.fault = none → b.st.strm.parked = false → b.st.strm.deliver = loadTiles d b.st.strm →
     nextDelivery b.st.strm = none →
     let s1 := modStrm s b fun x => { x with claims := [] }
     loadProgress s b = settle (endStream s1 (rebind s1 b) .ok) b.slot) ∧
  ((∀ (core iova : Nat) (side : Side) (s : State), core < 256 →
     exec (.atsResponse core side iova true) s = .next (atsNote s (iova / 4096) true)) ∧
   (∀ (core iova : Nat) (b : Bound) (u : SlotUse) (s : State), core < 256 →
     let s1 := atsNote s (iova / 4096) false
     bound s1 .load core = some b →
     b.st.strm.slots.find? (fun u => !u.old && !u.landed && (match slotPlan b.st.strm u with
       | some p => touches s1 core p u.pos (iova / 4096)
       | none => false)) = some u →
     mayFinish s1 b = true → b.st.sub = 0 →
     let s2 := slotStops s1 b u ⟨.partialStop, .pageFault, 1, iova⟩
     exec (.atsResponse core .load iova false) s = .next (loadAdvance s2 (rebind s2 b))) ∧
   (∀ (core iova : Nat) (b : Bound) (d : StreamDesc) (t : StoreTile) (s : State), core < 256 →
     let s1 := atsNote s (iova / 4096) false
     bound s1 .store core = some b → b.st.strm.cur = some d → b.st.strm.tiles.head? = some t → mayFinish s1 b = true →
     b.st.sub = 0 →
     touches s1 core ⟨d, b.st.strm.comp, b.st.strm.idx, b.st.strm.outer, b.st.strm.outerC⟩ t.pos (iova / 4096) = true →
     exec (.atsResponse core .store iova false) s
       = .next (streamHalt (landed s1 b.st.unit) b ⟨t.num, .partialStop, .pageFault, 1, iova⟩ t.h.seq)) ∧
   (∀ (cluster : Nat) (v : Dword) (s : State), cluster < 16 →
     exec (.cluSuRearm cluster false v) s
       = .next (modCluster s cluster fun x => { x with rearmLo := v, rearmDone := false })) ∧
   (∀ (cluster : Nat) (v : Dword) (t : State) (st : Status) (s : State), cluster < 16 →
     clusterRearm s ((clusterAt s cluster).rearmLo.toNat + v.toNat * 2 ^ 64) = (t, st) →
     exec (.cluSuRearm cluster true v) s
       = .next (modCluster t cluster fun x => { x with rearmStatus := st, rearmDone := true })))

/-- An MMA descriptor that passes decode and whose held operands are there takes its anchor's pop, its shape, and then its other pops
(R119, R123, R125, R127). Once all are made it computes: an ordinary product is pushed as one FP32 or INT32 tile with its flags, and
the descriptor ends (R118, R120, R125); one whose pops are not all made keeps what it has, and one whose tile waits for room pushes it
when there is room (R40). -/
def Obligations.MmaDescriptorCompletes : Prop :=
  (∀ (core : Nat) (b : Bound) (v fb : Bytes) (e : Nat × Nat × Nat) (p1 p2 p : MmaPart) (s r q t u w y z : State), core < 256 →
    let d := mmaDescOf v
    let p0 := partOf v fb
    let f := fusePart p0
    Ready s .mma core b → (coreAt s core).part = none → ctrlRead s (wdAddr b 64) 64 = (r, .ok v) →
    readFuse r (coreAt r b.st.unit) d = (q, .ok fb) → mmaOk d f = true →
    portsBound b (poppedPorts d f) (if (match f with | some g => g.push | none => true) then [d.outPort] else []) = true →
    heldMissing (coreAt r b.st.unit) d = false → loadPred q b d = some (t, .ok ()) →
    (match anchorKind d f with
      | none => u = t ∧ p1 = p0
      | some k => popStep t b d f p0 k = .got u p1) →
    readExt u d = (w, .ok e) → useReady b d f e 16 w { p1 with ext := some e } = .got y p2 →
    popTurns b d f e 256 y p2 = .got z p →
    (popsDone d f p e = true → exec (.mmaDescriptor core) s = .next (mmaFinish (saveBack z b p) b d f p e)) ∧
    (popsDone d f p e = false → exec (.mmaDescriptor core) s = .next (saveBack z b p)) ∧
    (∀ (s2 s3 s6 : State) (p3 p4 : MmaPart) (pool addr : Nat), popsDone d f p e = true → f = none →
      0 < e.1 → 0 < e.2.1 → 0 < e.2.2 →
      useHeld (saveBack z b p) (coreAt (saveBack z b p) b.st.unit) d f p e = some (s2, p3) →
      useLate s2 b d f p3 e = some (s3, p4) → p4.empty = false → isPoison (portStatus p4.popped) = false →
      poolHolds s3 b d.outPort (256 * e.2.1) = true →
      let x := coreAt s3 b.st.unit
      let tile := productTile d (predOf x d.pred) p4 e.1 e.2.1 e.2.2
      let s4 := releaseAll s3 b.slot b.idx (heldGone x d ++ p4.wc ++ p4.wv ++ p4.rest)
      let o : MmaOut := ⟨true, false, portStatus p4.popped, 256 * e.2.1, 0, some tile.1, .ok⟩
      let s5 := modCore (setChain (raise (updateHolds s4 b.st.unit d p4) b.st.unit ⟨tile.2, 0, 0⟩) b.st.unit x.chain) b.st.unit
        fun y => { y with part := some { p4 with wc := [], wv := [], rest := [], keepA := [], keepB := [], out := some o } }
      hasHalted s4 b = false → mmaPush s5 b d p4.tag o = .ok s6 pool addr →
      exec (.mmaDescriptor core) s = .next (mmaEnd s6 b d .ok))) ∧
  (∀ (core : Nat) (b : Bound) (p : MmaPart) (o : MmaOut) (s t : State) (pool addr : Nat), core < 256 →
    bound s .mma core = some b → (coreAt s core).part = some p → p.out = some o → mayFinish s b = true → o.push = true →
    o.empty = false → mmaPush s b (mmaDescOf p.desc) p.tag o = .ok t pool addr →
    exec (.mmaDescriptor core) s = .next (mmaEnd t b (mmaDescOf p.desc) o.done))

/-- Every VEC operation on one tile: its inputs popped, its bytes computed under the predicate entry and written in buffers of the
output's pool, one handle pushed per port, and the tile ended (R28, R35, R43, R130); empty inputs push empty handles (R27), and a
poisoned input's status is carried without computing. -/
def Obligations.VecOperationsComplete : Prop :=
  ∀ (c : Instr) (io : VecIO) (p : VecPlan) (b : Bound) (s s1 : State) (hs : List Handle), vecPlan c = some (io, p) →
    io.core < 256 → Ready s .vec io.core b → p.okRec = true →
    let h0 := emptyHandle io.tag io.last
    let h := hs.headD h0
    let ports := (p.outs h0).map Prod.fst
    portsBound b io.inPorts ports = true → (p.needs h0).length = io.inPorts.length → allDistinct io.inPorts = true →
    canPushAll s b.slot b.idx ports = true → popAll s b.slot b.idx io.inPorts = some (s1, hs) →
    ((hs.any isEmptyHandle = true ∨ io.m = 0 ∨ io.n = 0) →
      exec c s = .next (vecEmpty (releaseAll s1 b.slot b.idx hs) b io ports h.pred)) ∧
    (∀ (s2 : State) (ds : List Bytes) (sts : List Status), hs.any isEmptyHandle = false → 0 < io.m → 0 < io.n →
      vecRead (p.sees (predOf (coreAt s1 io.core) h.pred)) 0 s1 (hs.zip (p.needs h)) = some (s2, ds, sts) →
      let st := portStatus (io.inPorts.zip sts)
      (∀ (s3 s4 : State) (outs : List Bytes) (fl : Fl3) (at' : List (Nat × Nat)), isPoison st = false →
        p.body s2 (predOf (coreAt s2 io.core) h.pred) ds = .ok s3 outs fl →
        let sizes := ((p.outs h).zip outs).map fun x => (x.1.1, x.2.length)
        drawAll s3 b sizes = .ok s4 at' →
        exec c s = .next (vecPush (releaseAll (raise s4 io.core fl) b.slot b.idx hs) b io h.pred st sizes at' outs)) ∧
      (∀ (s4 : State) (at' : List (Nat × Nat)), isPoison st = true → drawAll s2 b (p.outs h) = .ok s4 at' →
        exec c s = .next (vecPush (releaseAll (raise s4 io.core fl0) b.slot b.idx hs) b io h.pred st (p.outs h) at' [])))

/-- An SSA's descriptor opens its job (R226), the job takes a descriptor tile and the pages it names (R227), and a closed job with no
tile pushes empty handles, one with an error tile carries its status, and one with pages is folded (R225, R226). -/
def Obligations.SsaCommandsComplete : Prop :=
  ∀ (stack : Nat) (b : Bound) (s : State), stack < 8 → bound s .ssa stack = some b →
    (∀ (r : State) (v : Bytes), (ssaAt s stack).job = none → Ready s .ssa stack b →
      ctrlRead s (wdAddr b 64) 64 = (r, .ok v) → ssaDescOk (ssaDescOf v) = true →
      portsBound b [0] (if (ssaDescOf v).mass then [0, 1] else [0]) = true →
      exec (.ssaAttend stack) s = .next (modSsa (setJob r stack (some ⟨b.slot, b.idx, ssaDescOf v, 0, none, [], [], none⟩)) stack
        fun x => { x with halted := false })) ∧
    (∀ (j : SsaJob), (ssaAt s stack).job = some j → (ssaAt s stack).halted = false → mayFinish s b = true →
      (∀ (t : State) (h : Handle), j.closed < j.desc.npart → popHandle s b.slot b.idx 0 = some (t, h) →
        (isEmptyHandle h = true →
          exec (.descriptorTileArrival stack) s
            = .next (setJob t stack (some { j with closed := j.closed + 1, tiles := j.tiles ++ [h] }))) ∧
        (isEmptyHandle h = false → h.status ≠ .ok →
          exec (.descriptorTileArrival stack) s
            = .next (setJob t stack (some { j with closed := j.closed + 1, bad := some (j.bad.getD h.status),
                                                   tiles := j.tiles ++ [h] }))) ∧
        (∀ (u : State) (v : Bytes) (ps : List PageDesc), isEmptyHandle h = false → h.status = .ok →
          ctrlRead t h.addr (min h.bytes 2048) = (u, .ok v) → 64 ≤ h.bytes → tileHdrOk h (tileHdrOf v) j.hdr = true →
          takePages u stack j.desc.mass (tileHdrOf v) v (tileHdrOf v).ndesc j.pages = some ps → ps.length ≤ 8192 →
          exec (.descriptorTileArrival stack) s = .next (setJob u stack (some { j with
            closed := j.closed + flag (tileHdrOf v).final, hdr := some (j.hdr.getD (tileHdrOf v)), pages := ps,
            tiles := j.tiles ++ [h] })))) ∧
      (j.desc.npart ≤ j.closed → (stackAt s stack).level ≠ 3 → canPushAll s b.slot b.idx (ssaPorts j) = true →
        (j.bad = none → j.hdr = none →
          exec (.ssaJobClose stack) s = .next (ssaDone
            ((ssaPorts j).foldl (fun t p => emit t b.slot b.idx p (emptyHandle j.desc.tag true)) s) stack b j .empty)) ∧
        (∀ st, j.bad = some st → exec (.ssaJobClose stack) s = .next (ssaCarry s stack b j st)) ∧
        (∀ (h : TileHdr) (t : State) (q : Bytes), j.bad = none → j.hdr = some h → memRead s h.qaddr 32 = (t, .ok q) →
          byteAt q 4 ≤ 64 →
          exec (.ssaJobClose stack) s = .next (ssaFold t stack b j h (leAt q 0 4) (byteAt q 4)))))

/-- The WALK operations on one sequence, each with its locks free (R186-R189, R200-R203, R218, R463): the record takes the new length or
state, the pages are made writable or freed, and the descriptor ends. -/
def Obligations.SequenceOperationsComplete : Prop :=
  ∀ (cluster op : Nat) (b : Bound) (d : WalkDesc) (s r t u : State) (q : SeqRec), WalkAt s cluster op b d r →
    Granted r b [d.seqid] t → readSeq t d.seqid = (u, .ok q) →
    (∀ (ls ps : List Nat) (w : State), op = 0x02 → d.layers ≠ 0 → q.frozen = false → layersOf d q = some ls →
      coverPages q d.pos d.count = .ok ps → pages (preparePage q) u false (layerPages ls ps) = .ok w false → b.st.sub = 0 →
      exec (.prepare cluster) s = .next (walkEnd b d (.done w .ok))) ∧
    (∀ x, op = 0x03 → seqLength q < d.pos → locateIn q q.tail (d.pos - 1) = .ok x →
      exec (.extend cluster) s = .next (walkEnd b d (.done (writeSeq u d.seqid (setLength q d.pos)) .ok))) ∧
    (∀ w : State, op = 0x06 → (spanOf q q.tail).1 ≤ d.pos →
      let lps := layerPages (List.range q.nlayer) (tailPages q d.pos)
      let locs := ownedLocs u q lps
      lps.any (moving u q) = false → spanOk d.rec_ (4 + 8 * locs.length) = true → pages (freePage q) u false lps = .ok w false →
      let x := if d.pos < seqLength q then writeSeq w d.seqid (setLength q d.pos) else w
      exec (.truncate cluster) s = .next (walkEnd b d (.done ((memWrite x d.rec_ (returnList locs)).getD x) .ok))) ∧
    (∀ w : State, op = 0x07 →
      let lps := layerPages (List.range q.nlayer) (List.range q.ptCap)
      let locs := ownedLocs u q lps
      lps.any (moving u q) = false → spanOk d.rec_ (4 + 8 * locs.length) = true → pages (freePage q) u false lps = .ok w false →
      let x := writeSeq w d.seqid { q with valid := false }
      exec (.release cluster) s = .next (walkEnd b d (.done ((memWrite x d.rec_ (returnList locs)).getD x) .ok))) ∧
    (op = 0x0C →
      exec (.freeze cluster) s = .next (walkEnd b d (.done (writeSeq u d.seqid { q with frozen := true }) .ok)) ∧
      (byteAt (peek s (wdAddr b 64) 1) 0 = 0x0C → b.st.wait.isSome = true →
        exec (.sequenceLockGrant cluster) s
          = .next (walkEnd b d (.done (writeSeq u d.seqid { q with frozen := true }) .ok)))) ∧
    (op = 0x0D →
      exec (.unfreeze cluster) s = .next (walkEnd b d (.done (writeSeq u d.seqid { q with frozen := false }) .ok)))

/-- FORK shares the pages below POS of sequences that agree where R201 asks it: both entries of each page get SHARE = 1 and the same
frame, whose REF grows by one, the score is copied, and the destination gets its spans (R201). KV_COMMIT whose pages are plain and
resident moves the accepted rows to the front, sets the length to BASE + A and frees the pages past it (R188). ATTEND with LAYERS = 0
hands one empty handle to each of the eight ports and ends with EMPTY; an ATTEND that walks pushes each layer's tiles in order and ends
once the last is pushed (R199). SCORE adds a mass tile's samples to the decayed scores of resident pages and passes over the others;
LAYERS = 0 or an EMPTY tile ends it with EMPTY, and a tile with an error status, or one that reads poisoned, changes no score (R207). -/
def Obligations.SequenceReadersComplete : Prop :=
  (∀ (cluster op : Nat) (b : Bound) (d : WalkDesc) (s r : State), WalkAt s cluster op b d r →
    (∀ (t u w x : State) (dst src : SeqRec), op = 0x05 →
      Granted r b [min d.seqid (d.count % 2 ^ 20), max d.seqid (d.count % 2 ^ 20)] t →
      readSeq t d.seqid = (u, .ok dst) → readSeq u (d.count % 2 ^ 20) = (w, .ok src) →
      let lps := layerPages (List.range src.nlayer) (pagesBelow src d.pos)
      src.frozen = false → dst.frozen = false → forkMatch src dst = true →
      heldOver src (fun p => decide (p.2.1 < d.pos)) = false → (∀ lp ∈ lps, lp.2 < dst.ptCap) →
      forkDst w dst lps = none → forkSrc w src lps = .ok → forkRefs w src lps = false →
      pages (forkPage src dst) w false lps = .ok x false →
      exec (.fork cluster) s = .next (walkEnd b d (.done (writeSeq x d.seqid { dst with
        s0N := min src.s0N (d.pos - src.s0Start), s1N := min src.s1N (d.pos - src.s1Start), tail := src.tail }) .ok))) ∧
    (∀ (r1 t u v y z : State) (rb tree : Bytes) (q : SeqRec), op = 0x04 → ctrlRead r d.rec_ 96 = (r1, .ok rb) →
      let c := commitRecOf rb
      commitRecOk c = true → Granted r1 b [c.seqid] t → readSeq t c.seqid = (u, .ok q) →
      (c.a = 0 → v = u ∧ tree = []) → (c.a ≠ 0 → ctrlRead u c.tree 512 = (v, .ok tree) ∧
        ∃ x, locateIn q q.tail (c.base + c.path.getD (c.a - 1) 0) = .ok x) →
      c.base = seqLength q → pathOk c tree = true → c.base + c.a ≤ 0xFFFFFFFF → commitReady v q c = none →
      poolWaits t q = false →
      let cs := v.kvc.committing
      let x := { v with kvc := { v.kvc with
        committing := if cs.contains (c.seqid, b.st.unit) then cs else cs ++ [(c.seqid, b.st.unit)] } }
      unanswered x c.seqid = false →
      pages (commitRow q c) x false ((commitMoves c).map fun m => (List.range q.nlayer).map fun l => (l, m)).flatten
        = .ok y false →
      pages (freePage q) (writeSeq y c.seqid (setLength q (c.base + c.a))) false
        (layerPages (List.range q.nlayer) (tailPages q (c.base + c.a))) = .ok z false →
      exec (.kvCommit cluster) s = .next (walkEnd b d (.done (unmark z c.seqid b.st.unit) .ok))) ∧
    (∀ (t w : State) (h : Handle), op = 0x01 → portsBound b [0] (List.range 8) = true → readerOf r b = none → d.layers = 0 →
      popHandle r b.slot b.idx 0 = some (t, h) →
      let t1 := modStation (startReader t b b.st.unit (some d.seqid)) b.slot b.idx fun x => { x with sub := 0 }
      let outs := (List.range 8).map fun k => (⟨k, none, .empty, true⟩ : WalkOut)
      let t2 := setReader t1 b fun x => { x with query := some h, out := outs, ends := .empty }
      flushOuts b d t2 outs = .all w →
      let w1 := setReader (setReader w b fun x => { x with out := [] }) b fun x => { x with running := false }
      let w2 := { w1 with kvc := { w1.kvc with readers := w1.kvc.readers.filter fun x =>
        !(x.station == (b.slot, b.idx) && !x.running && x.bufs.isEmpty) } }
      exec (.attend cluster) s = .next (walkEnd b d (.done (release w2 b.slot b.idx h) .empty))) ∧
    (∀ (t u w : State) (st : Status) (h : Handle) (q : SeqRec), op = 0x01 → portsBound b [0] (List.range 8) = true →
      readerOf r b = none → d.layers ≠ 0 → readSeq r d.seqid = (u, .ok q) → (layersOf d q).isSome = true →
      (∀ c ∈ u.kvc.committing, c.1 ≠ d.seqid) → q.frozen = false →
      popHandle u b.slot b.idx 0 = some (t, h) → isEmptyHandle h = false → h.status = .ok →
      attendGo b d q (d.layers + 2)
        (setReader (startReader t b b.st.unit (some d.seqid)) b fun x => { x with query := some h }) = .done w st →
      exec (.attend cluster) s = .next (walkEnd b d (.done w st))) ∧
    (op = 0x08 → d.layers = 0 → exec (.score cluster) s = .next (walkEnd b d (.done r .empty))) ∧
    (∀ (t u : State) (h : Handle) (q : SeqRec), op = 0x08 → d.layers ≠ 0 → portsBound b [0] [] = true →
      readSeq (startReader r b b.st.unit none) d.seqid = (u, .ok q) → d.layer0 < q.nlayer →
      popHandle u b.slot b.idx 0 = some (t, h) →
      (isEmptyHandle h = true → exec (.score cluster) s = .next (walkEnd b d (.done t .empty))) ∧
      (isEmptyHandle h = false → h.status ≠ .ok →
        exec (.score cluster) s = .next (walkEnd b d (.done (release t b.slot b.idx h) .ok))) ∧
      (∀ (v : State) (k : Nat) (m : Bytes), isEmptyHandle h = false → h.status = .ok → memRead t h.addr h.bytes = (v, .bad k m) →
        exec (.score cluster) s = .next (walkEnd b d (.done (release v b.slot b.idx h) .ok))) ∧
      (∀ (v w : State) (m : Bytes), isEmptyHandle h = false → h.status = .ok → memRead t h.addr h.bytes = (v, .ok m) →
        pages (scoreEntry q d.layer0 (v.kvc.curves.getD q.curve [])) v false
          ((List.range (h.bytes / 8)).map fun i => (leAt m (8 * i) 4, leAt m (8 * i + 4) 4)) = .ok w false →
        exec (.score cluster) s = .next (walkEnd b d (.done (release w b.slot b.idx h) .ok))))) ∧
  (∀ (src dst : SeqRec) (l p : Nat) (x y : PteAt) (n : Int) (s a c t : State), readPte s src l p = (a, .ok x) →
    readPte a dst l p = (c, .ok y) →
    let e := { x.pte with share := true }
    refAdd (writePte c x.addr e) e.pool e.loc 1 = (t, .ok n) →
    let u := writePte t y.addr e
    ∀ (v w : State) (m : Bytes), memRead u x.score 4 = (v, .ok m) → memWrite v y.score m = some w →
      forkPage src dst s (l, p) = .ok w false) ∧
  (∀ (q : SeqRec) (layer i v : Nat) (curve : Bytes) (x : PteAt) (s a : State), i < q.ptCap → readPte s q layer i = (a, .ok x) →
    (resident x.pte = false → scoreEntry q layer curve s (i, v) = .ok (countScoreSkip a) false) ∧
    (∀ (c w : State) (m : Bytes), resident x.pte = true → memRead a x.score 4 = (c, .ok m) →
      let age := max 1 (seqLength q - firstPos q i)
      memWrite c x.score (leBytes 4 (fpFma ctl0 f32 (leNat m) (leAt curve (32 + 4 * decayIndex age) 4) v).1) = some w →
      scoreEntry q layer curve s (i, v) = .ok w false))

/-- MOVE_BEGIN marks the chosen pages, writes the list and pushes it (R211, R212); MOVE_END and MOVE_ABORT end the list's entries, each
installed or rolled back (R213). -/
def Obligations.MovesComplete : Prop :=
  ∀ (cluster op : Nat) (b : Bound) (d : WalkDesc) (s r : State), WalkAt s cluster op b d r →
    (∀ (r1 t u w : State) (rb : Bytes) (q : SeqRec) (ps : List (Nat × Nat)), op = 0x09 →
      ctrlRead r d.rec_ 32 = (r1, .ok rb) →
      let m := moveRecOf rb
      m.resOk = true → m.select ≠ 3 → portsBound b [] [0] = true → canPush r1 b.slot b.idx 0 = true → d.layers ≠ 0 →
      Granted r1 b [d.seqid] t → readSeq t d.seqid = (u, .ok q) → spanOk m.out (32 + 32 * m.outMax) = true →
      (toHbm m.kind = true → (poolAt t m.dpool).valid = true ∧ (poolAt t m.dpool).initBusy = false) →
      (poolAt u m.dpool).valid = (poolAt t m.dpool).valid → movePages d q m u = (w, .ok ps) →
      exec (.moveBegin cluster) s = .next (walkEnd b d (moveList b d q m 0 ps w)) ∧
      (ps = [] → moveList b d q m 0 ps w = .done (emit
        ((memWrite w m.out (padTo 32 (leBytes 4 0 ++ leBytes 4 0))).getD w) b.slot b.idx 0 (emptyHandle d.tag true)) .empty)) ∧
    (∀ (t u v w x : State) (hb : Bytes) (q : SeqRec), Granted r b [d.seqid] t → readSeq t d.seqid = (u, .ok q) →
      ctrlRead u d.rec_ 32 = (v, .ok hb) →
      let n := leAt hb 0 4
      let ret := d.rec_ + 32 * (n + 1)
      spanOk d.rec_ (32 * (n + 1) + 4 + 8 * n) = true → b.st.sub = 0 → memWrite v ret (leBytes 4 0) = some w →
      let w1 := modStation w b.slot b.idx fun y => { y with sub := 1 }
      (op = 0x0A → portsBound b [0] [] = true →
        endEntries b d q ret (fun t => (popHandle t b.slot b.idx 0).map fun y => (y.1, statusCode y.2.status, some y.2)) n 0 w1
          = .all x →
        exec (.moveEnd cluster) s = .next (walkEnd b d (.done x .ok))) ∧
      (op = 0x0B →
        endEntries b d q ret (fun t => some (tick1 t, 1 + Config.freeNat t.free % 254, none)) n 0 w1 = .all x →
        exec (.moveAbort cluster) s = .next (walkEnd b d (.done x .ok))))

/-- The oldest frame in limbo, and no other, leaves it for an end of its pool's free list once every reader began after its STAMP, and
not before (R204). KVC_POOL: words 1 and 2 are held and word 0 commits them; a pool that passes Table 21-7's checks comes into force with
its table's initialisation begun, one that fails them sets POOL_ERR and changes no other field of a pool, VALID = 0 retires the pool, and
under SETUP_LOCK nothing is written (R444, R445). The initialisation leaves every frame of the pool free (R445).
KVC_CURVE_COMMIT copies each table whose bit is set and that is good, and sets CURVE_STATUS for one that is not, which leaves the
earlier copy (R208). -/
def Obligations.FramePoolsComplete : Prop :=
  ∀ (pool : Nat) (s : State), pool < 16 →
    (∀ (f : Nat) (rest : List Nat) (r : State) (v : Bytes), (poolAt s pool).limbo = f :: rest →
      ctrlRead s (frameEntry s pool f) 16 = (r, .ok v) →
      ((∀ c < 16, leAt v 8 8 < oldest s c) →
        let s1 := putLink (modPoolK r pool fun x => { x with limbo := rest }) pool f setFree
        let old := (poolAt s1 pool).free
        (exec (.frameReclaim pool) s = .next (tick1 (modPoolK
            (putLink s1 pool f (setLinkTo (old.headD (Config.freeNat s1.free)))) pool fun x => { x with free := f :: x.free })) ∨
          exec (.frameReclaim pool) s = .next (tick1 (modPoolK
            (putLink (match old.getLast? with
              | some l => putLink s1 pool l (setLinkTo f)
              | none => s1) pool f (setLinkTo (Config.freeNat s1.free))) pool fun x => { x with free := x.free ++ [f] }))) ∧
        (∃ t, exec (.frameReclaim pool) s = .next t ∧ (pool < s.kvc.pools.length → (poolAt t pool).limbo = rest ∧
          ((poolAt t pool).free = f :: (poolAt s pool).free ∨ (poolAt t pool).free = (poolAt s pool).free ++ [f])))) ∧
      ((∃ c < 16, oldest s c ≤ leAt v 8 8) → exec (.frameReclaim pool) s = .next s)) ∧
    ((poolAt s pool).limbo = [] → exec (.frameReclaim pool) s = .next s) ∧
    (∀ (req : Requester) (value : Dword), hostUp s.pwr.state = true →
      (∀ word < 3, s.hif.lock = true → exec (.kvcPool req pool word value) s = .next s) ∧
      (∀ word < 3, s.hif.lock = false → 0 < word →
        exec (.kvcPool req pool word value) s = .next (modPoolK s pool fun x => { x with held := assocPut x.held word value })) ∧
      (s.hif.lock = false →
        let old := poolAt s pool
        let w (i now : Nat) : Nat := ((assocGet old.held i).map BitVec.toNat).getD now
        let p := poolWords value.toNat (w 1 old.ftab) (w 2 (old.count + old.fsizeK * 2 ^ 48))
        let others := (s.kvc.pools.eraseIdx pool).filter fun q => q.valid
        (p.valid = false → exec (.kvcPool req pool 0 value) s = .next (modPoolK s pool fun _ => p)) ∧
        (p.valid = true → framePoolOk p others = true → exec (.kvcPool req pool 0 value) s = .next { s with kvc := { s.kvc with
          pools := s.kvc.pools.set pool { p with initBusy := true }
          quarantine := s.kvc.quarantine.filter fun q => !(q.1 == pool) } }) ∧
        (p.valid = true → framePoolOk p others = false →
          exec (.kvcPool req pool 0 value) s = .next { s with kvc := { s.kvc with
            poolErr := true, pools := s.kvc.pools.modify pool fun x => { x with held := [] } } }))) ∧
    ((poolAt s pool).initBusy = true →
      exec (.poolInitDone pool) s = .next (modPoolK (tick1 (initTable s pool (poolAt s pool).count)) pool fun x =>
        { x with initBusy := false, free := List.range x.count, limbo := [] })) ∧
    (hostUp s.pwr.state = true →
      (∀ value : Word, exec (.kvcCurveCommit value) s
        = .next (((List.range 16).filter fun n => value.getLsbD n).foldl commitCurve s)) ∧
      (∀ (r : State) (v : Bytes), memRead s (s.kvc.curveBase + 288 * pool) 288 = (r, .ok v) →
        (curveOk v = true → exec (.kvcCurveCommit (1#32 <<< pool)) s
          = .next { r with kvc := { r.kvc with curves := r.kvc.curves.set pool v } }) ∧
        (curveOk v = false → exec (.kvcCurveCommit (1#32 <<< pool)) s
          = .next { r with kvc := { r.kvc with curveStatus := r.kvc.curveStatus ||| (1#16 <<< pool) } })))

/-- OPEN reserves lanes and judges its handshakes, ROTATE ends once every direction served has done its layer, CLOSE ends the context on
both dies (R239, R244, R253). -/
def Obligations.ChurnDescriptorsComplete : Prop :=
  ∀ (die op : Nat) (b : Bound) (d : ChurnDesc) (s r : State), ChurnAt s die op b d r →
    let c := chnAt r (4 * b.st.unit + d.ctx)
    (∀ (t : State) (v : Bytes), op = 1 → openingOn r b d.ctx = none → ctrlRead r d.rec_ 64 = (t, .ok v) →
      let q := ringRecOf v
      ringRecOk q = true → ((ringDies q).any fun x => (chnAt r (4 * x + d.ctx)).state != 0) = false → recRingsOk r q = true →
      exec (.churnOpen die) s = .next (openStart t b d q)) ∧
    (∀ (x : RingRec) (t : State) (q : SeqRec), op = 2 → c.ring = some x → c.state = 2 → c.rotating = true →
      readSeq r d.seqid = (t, .ok q) →
      let dirs := ringDirs x b.st.unit
      d.layer < q.nlayer → slotFits x q dirs = true → portsBound b (churnPorts dirs).1 (churnPorts dirs).2 = true →
      let u := dirs.foldl (fun t w => if stillGoing t b then passDir b (4 * b.st.unit + d.ctx) x q t w else t) t
      let e := chnAt u (4 * b.st.unit + d.ctx)
      e.rotating = true → stillGoing u b = true → dirs.all (dirDone e x) = true →
      exec (.churnRotate die) s = .next (settle (advance
        (notifyEvent (modChn u (4 * b.st.unit + d.ctx) fun y => { y with rotating := false }) (rebind u b) d.notify .ok)
        (rebind u b)) b.slot)) ∧
    (∀ (x : RingRec), op = 3 → c.ring = some x → c.state ≠ 0 →
      ((ringDies x).any fun y => (chnAt r (4 * y + d.ctx)).rotating) = false →
      exec (.churnClose die) s
        = .next (settle (advance (notifyEvent (modRingCtx r x d.ctx closedCtx) b d.notify .ok) b) b.slot))

/-- What a Churn ring's neighbours send: a handshake is held, credits are added, a tile of the layer in progress with a hop admitted lands
in the next free slot, and a block that does not come in time fails the context (R239, R240, R243, R251). -/
def Obligations.ChurnArrivalsComplete : Prop :=
  ∀ (die ctx : Nat) (west : Bool) (s : State), die < 2 → ctx < 4 →
    let i := 4 * die + ctx
    (∀ shake : Shake, (chnAt (modDir s i west fun d => { d with shake := some (shake, s.now) }) i).ring = none →
      exec (.churnHandshakeArrival die ctx west shake) s
        = .next (modDir s i west fun d => { d with shake := some (shake, s.now) })) ∧
    (∀ credits rttNs : Nat, ((chnAt s i).state = 1 ∨ (chnAt s i).state = 2) →
      exec (.churnCreditArrival die ctx west credits rttNs) s = .next (modDir s i west fun d =>
        { d with credits := d.credits + credits, rtt := BitVec.ofNat 16 (min rttNs 0xFFFF) })) ∧
    (∀ (tile : Bytes) (r : RingRec) (n a : Nat), tileCtx s die west (BitVec.ofNat 32 (leAt tile 0 4)) = some (i, r) →
      let c := chnAt s i
      let hop := leAt tile 6 2
      0 < hop → hop < r.n → leAt tile 4 2 = originOf r west hop → c.rotating = true → (chnDir c west).endsIn + 1 < r.n →
      leAt tile 8 2 = c.layer → tile.length ≤ r.slotBytes → hop ≤ (chnDir c west).admitted →
      freeSlot r west (chnDir c west) = some (n, a) →
      exec (.ringTileArrival die west tile) s = .next (landRing s i west r tile true n a)) ∧
    (∀ r : RingRec, (chnAt s i).ring = some r → (chnAt s i).state = 2 → (chnAt s i).rotating = true →
      (ringDirs r die).contains west = true → (chnDir (chnAt s i) west).endsIn + 1 < r.n →
      (chnDir (chnAt s i) west).endsIn < (chnDir (chnAt s i) west).admitted →
      (chnDir (chnAt s i) west).lastRx + 1000 * r.timeoutUs ≤ s.now →
      exec (.churnTimeout die ctx west) s = .next (failCtx s i .timeout .memberWithdrawn))

/-- CREATE registers an index and DESTROY ends it (R345, R361); INSERT and DELETE apply a tile's entries under the next generation (R349,
R350), and HARVEST fixes its generation (R360). -/
def Obligations.IndexDescriptorsComplete : Prop :=
  ∀ (channel op : Nat) (ports : Bool) (b : Bound) (d : ScanDesc) (s r : State), ScanAt s channel op ports b d r →
    (∀ (t : State) (v : Bytes), op = 5 → ports = false → memRead r d.recAddr 32 = (t, .ok v) →
      indexRecOk t (indexOf d.index v) v = true →
      exec (.scanCreate channel) s
        = .next (scanEnd (modVse t fun y => { y with indexes := y.indexes ++ [indexOf d.index v] }) b d.notify .ok)) ∧
    (∀ x : Index, op = 6 → ports = false → findIndex r d.index = some x → x.batch = none → x.harvest = none →
      (r.vse.jobs.any fun j => j.index == d.index) = false →
      exec (.scanDestroy channel) s
        = .next (scanEnd (modVse r fun v => { v with indexes := v.indexes.filter fun y => !(y.num == d.index) }) b d.notify .ok)) ∧
    (∀ x : Index, op = 4 → ports = false → findIndex r d.index = some x → x.harvest = none →
      exec (.scanHarvest channel) s = .next (modIndex r d.index fun y =>
        { y with harvest := some ⟨b.st.unit, some b.slot, d.notify, harvestH r x⟩ })) ∧
    (∀ (x : Index) (h : Handle) (t u : State) (v : Bytes), ports = true → findIndex r d.index = some x → x.batch = none →
      x.harvest = none → (x.cur + 1 + 2 ^ 24 - x.oldest) % 2 ^ 24 < 2 ^ 23 → popHandle r b.slot b.idx 0 = some (t, h) →
      isEmptyHandle h = false → isPoison h.status = false → memRead t h.addr h.bytes = (u, .ok v) →
      let g := (x.cur + 1) % 2 ^ 24
      let ends (insert : Bool) : State :=
        let q := (Config.updateEntries insert (codeBits x) v).foldl (batchEntry d.index g insert) (u, [])
        let s1 := (memWrite q.1 h.addr (padTo h.bytes (Config.updateWritten insert (codeBits x) v q.2))).getD q.1
        modIndex s1 d.index fun y => { y with batch := some ⟨insert, g, b.st.unit, some b.slot, d.tag, d.notify, h, false, x.shards⟩ }
      (op = 2 → exec (.scanInsert channel) s = .next (ends true)) ∧
      (op = 3 → exec (.scanDelete channel) s = .next (ends false)))

/-- QUERY resolves its snapshot and takes its queries up (R353, R354); one codeword read advances one query (R343, R357); a durable
batch becomes visible and its tile is pushed (R350); a Harvest that is done moves OLDEST (R360); MERGE pushes the merged lists
(R359). -/
def Obligations.SearchCommandsComplete : Prop :=
  (∀ (channel : Nat) (b : Bound) (d : ScanDesc) (x : Index) (h : Handle) (s r t u : State) (v : Bytes) (w : State)
      (snap : Nat), ScanAt s channel 1 true b d r → findIndex r d.index = some x → popHandle r b.slot b.idx 0 = some (t, h) →
    isEmptyHandle h = false → isPoison h.status = false → memRead t h.addr h.bytes = (u, .ok v) →
    let nq := leAt v 4 2
    let rs := 160 + 16 * x.code
    0 < nq → nq ≤ 256 → 32 + nq * rs ≤ h.bytes → allZero (sub v 6 26) = true →
    (leAt v 0 4 = 0xFFFFFFFF ∨ byteAt v 3 = 0) → resolveSnap u x h.addr (leAt v 0 4) = (w, .ok snap) →
    genLe snap x.cur = true → snap < 2 ^ 24 → genLe x.oldest snap = true →
    let qs := ((List.range nq).map fun i => recordOf x (sub v (32 + i * rs) rs)).map (beginQuery x (shardOf x b.st.unit))
    let j : ScanJob := ⟨b.slot, b.idx, b.st.unit, d.index, d.k, d.beam, d.tag, d.notify, h, snap, qs⟩
    let e := countQueries (modVse w fun y => { y with jobs := y.jobs ++ [j] }) (qs.filter fun q => q.done).length
    exec (.scanQuery channel) s = .next (jobEnd e (rebind e b) j)) ∧
  (∀ (channel query : Nat) (b : Bound) (j : ScanJob) (q : Query) (x : Index) (s : State), channel < 64 →
    bound s .scan channel = some b → mayFinish s b = true → wheyReady s = true → findJob s b = some j →
    j.queries[query]? = some q → findIndex s j.index = some x → q.done = false →
    let a := readStep x (shardOf x channel) j q false
    let s1 := modVse s fun v => { v with reads := v.reads.modify channel fun n => n + 1 }
    let s2 := idxCount (idxCount s1 j.index .edgeDrop a.drops) j.index .seenFull a.fulls
    let j1 := { j with queries := j.queries.set query a.q }
    let s3 := modJob s2 b fun _ => j1
    (a.q.done = false → exec (.codewordReadDone channel query false) s = .next (jobEnd s3 (rebind s3 b) j1)) ∧
    (a.q.done = true → exec (.codewordReadDone channel query false) s
      = .next (jobEnd (countQueries s3 1) (rebind (countQueries s3 1) b) j1))) ∧
  (∀ (index : Nat) (x : Index) (k : Batch) (s : State), findIndex s index = some x → x.batch = some k → wheyReady s = true →
    exec (.indexBatchDurable index) s = .next (batchPush (modIndex s index fun y =>
      { y with cur := k.gen, batch := some { k with durable := true } }) index { k with durable := true })) ∧
  (∀ (index : Nat) (x : Index) (k : HarvestJob) (b : Bound) (sl : Nat) (s : State), findIndex s index = some x →
    x.harvest = some k → x.batch = none → wheyReady s = true → k.slot = some sl →
    let s1 := modIndex s index fun y => { y with
      oldest := k.h, harvest := none,
      shards := y.shards.map fun sh => if y.graph then harvestShard k.h sh else trimChains y (harvestShard k.h sh) }
    bound s1 .scan k.channel = some b → b.slot = sl →
    exec (.harvestDone index) s = .next (scanEnd s1 b k.notify .ok)) ∧
  (∀ (die : Nat) (b : Bound) (s r t u : State) (v : Bytes) (hs : List Handle) (ts : List ListTile) (nq snap : Nat), die < 2 →
    bound s .skim die = some b → mayStart s b = true → ctrlRead s (wdAddr b 16) 16 = (r, .ok v) →
    (skimDescOf v).ok = true → portsBound b [0] [0] = true → popRound r b.slot b.idx 0 = .got t hs →
    let d := skimDescOf v
    let full := hs.filter fun h => !isEmptyHandle h
    full ≠ [] → (hs.any fun h => isPoison h.status) = false → readTiles t full = (u, .ok ts) →
    ts.head?.map (fun x => (x.nq, x.snap)) = some (nq, snap) → (ts.all fun x => x.nq == nq && x.snap == snap) = true →
    exec (.skimMerge die) s = .next (skimPush r u b d full (carried (hs.map fun h => h.status))
      (some (listHead nq snap ++ ((List.range nq).map (mergeQuery d.k ts)).flatten))))

/-- A naturally aligned 32-bit or 64-bit write of the set-up window acts on its register; a write of another width or alignment is
counted in HIF_WIN_ERR and changes nothing else (R438, R440). HIF_SETUP_LOCK sets LOCK when no two EN functions' rings or vectors
overlap and no share runs past its end, else CONFLICT (R367, R443); a write of HIF_RING0 word 1 to 3 is held and word 0 commits the
four words, while the lock is not set (R440, R444). -/
def Obligations.RegisterWritesComplete : Prop :=
  (∀ (req : Requester) (offset width : Nat) (value : Dword) (s : State), requesterOk req = true → offset < 0x04000000 →
     hostUp s.pwr.state = true →
     (width = 32 → offset % 4 = 0 → wideAt s (offset / 8 * 8) = none →
       exec (.registerWrite req offset width value) s = .next (write32 req offset (value.setWidth 32) s)) ∧
     (∀ x, width = 64 → offset % 8 = 0 → wideAt s offset = some x →
       exec (.registerWrite req offset width value) s = .next (x.act value (dropHeld s req offset))) ∧
     (∀ x, width = 32 → offset % 8 = 4 → wideAt s (offset / 8 * 8) = some x → x.holds = true →
       exec (.registerWrite req offset width value) s = .next (holdHi s req (offset / 8 * 8) (value.setWidth 32))) ∧
     (∀ x h, width = 32 → offset % 8 = 0 → wideAt s offset = some x → x.holds = true → heldHi s req offset = some h →
       exec (.registerWrite req offset width value) s
         = .next (x.act (joinWord h.toNat (value.setWidth 32).toNat) (dropHeld s req offset))) ∧
     (¬ (width = 32 ∧ offset % 4 = 0) → ¬ (width = 64 ∧ offset % 8 = 0) →
       exec (.registerWrite req offset width value) s = .next (countWinErr s))) ∧
  (∀ s : State, hostUp s.pwr.state = true →
     (∀ value : Word, value.getLsbD 0 = true → s.hif.lock = false → setupConflict s = false →
       exec (.hifSetupLock value) s = .next { s with hif := { s.hif with lock := true, conflict := false } }) ∧
     (∀ value : Word, value.getLsbD 0 = true → s.hif.lock = false → setupConflict s = true →
       exec (.hifSetupLock value) s = .next { s with hif := { s.hif with conflict := true } }) ∧
     (∀ (fn word : Nat) (value : Dword), fn < 33 → 0 < word → word < 4 → s.hif.lock = false →
       exec (.hifRing0 fn word value) s = .next { s with hif := { s.hif with
         ring0Held := (s.hif.ring0Held.filter fun p => !(p.1 == fn && p.2.1 == word)) ++ [(fn, word, value)] } }) ∧
     (∀ (fn : Nat) (value : Dword), fn < 33 → s.hif.lock = false → ringBusy s fn 0 = false →
       exec (.hifRing0 fn 0 value) s = .next (applyRing0 { s with hif := { s.hif with
         ring0 := s.hif.ring0.set fn (putWord256 ((s.hif.ring0Held.filter fun p => p.1 == fn).foldl
           (fun x p => putWord256 x p.2.1 p.2.2) (s.hif.ring0.getD fn 0#256)) 0 value)
         ring0Held := s.hif.ring0Held.filter (fun p => !(p.1 == fn)) } } fn)) ∧
     (∀ (fn word : Nat) (value : Dword), fn < 33 → word < 4 → s.hif.lock = true →
       exec (.hifRing0 fn word value) s = .next s))

/-- Training, faults and restarts of a link (R284-R286, R290, R300), its frames (R287-R289), and what its neighbour says of itself
(R297). -/
def Obligations.LinkCommandsComplete : Prop :=
  ∀ (link : Nat) (s : State), link < 64 →
    let x := linkAt s link
    (∀ value : Word, hostUp s.pwr.state = true → s.hif.lock = false → value.getLsbD 0 = true → s.fab.laid = false →
      exec (.fabTrain value) s = .next { s with fab := { s.fab with
        train := true, laid := true, links := (numbered s.fab.links 0).map fun p => linkLaid s p.1 p.2 } }) ∧
    (∀ peer : PeerInfo, fabUp s = true →
      (x.phase = .equalise → exec (.linkPhaseDone link peer) s
        = .next (modLink s link fun y => { y with phase := .align, phaseAt := s.now })) ∧
      (x.phase = .align → exec (.linkPhaseDone link peer) s = .next (modLink s link fun y =>
        sendFrame 2 { y with phase := .handshake, phaseAt := s.now } ⟨0, handshakeBody s link, 0⟩)) ∧
      (x.phase = .handshake → peer.width = x.width → exec (.linkPhaseDone link peer) s = .next (linkUp s link)) ∧
      (x.phase = .handshake → peer.width ≠ x.width → exec (.linkPhaseDone link peer) s = .next (linkDown s link .width))) ∧
    (∀ t, phaseLimit link x = some t → x.phaseAt + t ≤ s.now →
      (x.phase = .equalise → x.presetUsed = true → x.full = false → exec (.trainTimeout link) s
        = .next (modLink s link fun y => { y with full := true, presetUsed := false, phaseAt := s.now })) ∧
      (x.presetUsed = false → exec (.trainTimeout link) s = .next (linkDown s link .trainTimeout))) ∧
    (x.phase = .down → x.disable = false → x.phaseAt + 10000000 ≤ s.now →
      exec (.linkRestart link) s = .next (countRetrain (modLink s link fun y => beaconed link
        { y with phase := .detect, cause := .none, presetUsed := false, full := true, phaseAt := s.now }) (link / 4))) ∧
    ((x.phase = .equalise ∨ x.phase = .align ∨ x.phase = .handshake ∨ x.phase = .active) →
      exec (.lossOfSignal link) s = .next (linkDown s link .los)) ∧
    (∀ (cells : List (BitVec 544)) (f : Bytes) (fixed : Nat), x.phase = .active → fabUp s = true →
      frameBytes32 cells = some (f, fixed) → leAt f 2044 4 = crc32c (f.take 2044) → leAt f 0 2 / 4096 = 0 →
      leAt f 0 2 % 4096 = (x.rxLast + 1) % 4096 →
      let s1 := { s with fab := { s.fab with fecCorr := s.fab.fecCorr.modify (link / 4) fun w => w + BitVec.ofNat 64 fixed } }
      exec (.frameReceive link cells) s = .next (modLink (takeAck (takeBody (modLink s1 link fun y =>
        { y with rxLast := leAt f 0 2 % 4096, gap := false, nak := false }) link (sub f 12 2032)) link f) link flushCtl)) ∧
    (∀ cells : List (BitVec 544), x.phase = .active → fabUp s = true → frameBytes32 cells = none →
      exec (.frameReceive link cells) s
        = .next (modLink (modLink s link fun y => { y with nak := !y.gap || y.nak, gap := true }) link flushCtl)) ∧
    (x.phase = .active → x.unacked ≠ [] → x.ackAt + (s.fab.retryNs.getD (link / 4) 0#32).toNat ≤ s.now →
      (x.replays < 16 → exec (.replayTimeout link) s = .next (countReplay (modLink s link fun y =>
        y.unacked.foldl (sendFrame 0) { y with replays := y.replays + 1, ackAt := s.now }) (link / 4))) ∧
      (16 ≤ x.replays → exec (.replayTimeout link) s = .next (linkDown s link .retry))) ∧
    (∀ rec : DiscRec, (x.phase = .handshake ∨ x.phase = .active) →
      exec (.disc link rec) s = .next (modLink s link fun y => { y with nbr := some rec }))

/-- A router forwards its oldest packet by the table, or delivers it, or counts why it does not (R291, R293-R296). CABLE_CHECK of a good plan writes its
report and completes with OK; the plan is kept for later checks (R299, R300). -/
def Obligations.RoutingCompletes : Prop :=
  (∀ (die : Nat) (p : Packet) (src : Option Nat) (rest : List (Packet × Option Nat)) (s : State), die < 2 → fabUp s = true →
    s.fab.rxq.getD die [] = (p, src) :: rest →
    let t := returnCredits { s with fab := { s.fab with rxq := s.fab.rxq.set die rest } } p src
    (packetBad p = true → exec (.packetForward die) s = .next (countBad t die)) ∧
    (packetBad p = false → p.kind ≠ 0x30 → p.kind ≠ 0x31 → t.fab.assigned = true →
      (p.dst = t.fab.addr → exec (.packetForward die) s = .next (deliverPacket t die p)) ∧
      (p.dst ≠ t.fab.addr → p.hops ≤ 1 →
        exec (.packetForward die) s = .next (alarm (countHops t die) 6 (Config.argPack [p.src, p.dst]))) ∧
      (∀ (e : Word) (tbl idx : Nat), p.dst ≠ t.fab.addr → 1 < p.hops → routeOf t p.dst = (e, tbl, idx) →
        (∀ l, outLink t e p = some l → exec (.packetForward die) s
          = .next (queuePacket (tick1 (dlFabric t die l p)) l { p with hops := p.hops - 1, dl := p.dl || e.getLsbD 30 })) ∧
        (outLink t e p = none → exec (.packetForward die) s = .next (noRoute t die tbl idx))))) ∧
  (∀ (link vc : Nat) (dl : Bool) (s : State), link < 64 →
    let k := 2 * (vc % 4) + flag dl
    ((linkAt s link).txq.any fun p => vcIndex p.1 == k && decide (p.2 + 1000 * s.fab.stallUs.toNat ≤ s.now) &&
      decide ((linkAt s link).credits.getD k 0 < packetCredits p.1)) = true → (linkAt s link).stalled.contains k = false →
    exec (.fabStallExpiry link vc dl) s
      = .next (alarm (countStall (modLink s link fun y => { y with stalled := k :: y.stalled }) (portDie (link / 4))) 5
          (Config.argPack [link / 4, link % 4, vc % 4, flag dl]))) ∧
  (∀ (req : Requester) (value : Word) (s : State), hostUp s.pwr.state = true →
    let sel := selectOf s req rtSelOff
    (bit sel 8 = true → exec (.fabRtEntry req value) s
      = .next { s with fab := { s.fab with region := s.fab.region.set (sel % 256) (value &&& 0xF000FFFF#32) } }) ∧
    (bit sel 8 = false → exec (.fabRtEntry req value) s
      = .next { s with fab := { s.fab with local_ := s.fab.local_.set (sel % 256) (value &&& 0xF000FFFF#32) } })) ∧
  (∀ (value : Dword) (s : State), hostUp s.pwr.state = true →
    (s.groups = [] →
      exec (.fabLshape 0 value) s = .next { s with fab := { s.fab with lshape := value.setWidth 32 } } ∧
      exec (.fabLshape 1 value) s = .next { s with fab := { s.fab with lcoord := value.setWidth 32 } } ∧
      exec (.fabLshape 2 value) s = .next { s with fab := { s.fab with lmapBase := value.toNat % 2 ^ 48 } }) ∧
    (s.groups ≠ [] → ∀ which < 3, exec (.fabLshape which value) s = .next { s with fab := { s.fab with lbusy := true } })) ∧
  (∀ (value : Word) (s : State), hostUp s.pwr.state = true → fabUp s = true → value.getLsbD 0 = true →
    exec (.fabDiscover value) s
      = .next (((List.range 64).filter (linkActive s)).foldl (fun t l => queuePacket t l (discPacket t l)) s)) ∧
  (∀ (h : HostHdr) (plan report : AddrArg) (hd es : Bytes) (p : List PlanEntry) (t u v s : State), Accepts s h .module false →
    argOk plan = true → argOk report = true → argRead s plan 32 = (t, .ok hd) →
    argRead t (argAt plan 32) (16 * min 64 (leAt hd 2 2)) = (u, .ok es) → planOf (hd ++ es) = some p →
    let u1 := cableRecheck { u with fab := { u.fab with plan := some p, cableBad := false } }
    argWrite u1 report (leBytes 4 (reportAll u p).length ++ ((reportAll u p).map reportBytes).flatten) = .ok v →
    exec (.cableCheck h plan report) s = .next (complete v h .ok 0))

/-- The time counter's exchanges (R301, R302, Table 13-11): a child asks, a parent answers, θ steps, trims or unlocks the counter, the
root takes a value, and a read latches it. -/
def Obligations.EquinoxCompletes : Prop :=
  ∀ s : State,
    (s.fab.eqxRoot = false → linkActive s (eqxParent s) = true → fabUp s = true →
      s.fab.eqxAt + 1000 * s.fab.eqxInterval ≤ s.now →
      exec .eqxInterval s = .next (queuePacket { s with fab := { s.fab with
          eqxSentT1 := some (counter8 s), eqxAt := s.now } } (eqxParent s)
        (newPacket s 0x30 0 0#32 (Config.kwLayout 0x30 [0, counter8 s]) []))) ∧
    (∀ link t1 : Nat, link < 64 → linkActive s link = true → fabUp s = true →
      exec (.eqxRequest link t1) s = .next (queuePacket s link (newPacket s 0x30 0 0#32
        (Config.kwLayout 0x30 [1, t1, counter8 s, counter8 s, flag (s.fab.eqx == .sync)]) []))) ∧
    (∀ (t1 t2 t3 t4 : Nat) (sync : Bool), s.fab.eqxRoot = false → s.fab.eqxSentT1 = some t1 →
      let theta : Int := (((t2 : Int) - t1) - ((t4 : Int) - t3) - eqxAsym s) / 2
      let s1 := { s with fab := { s.fab with eqxSentT1 := none, eqxTheta := theta } }
      (s.fab.eqx = .unsync → sync = true → exec (.eqxReply t1 t2 t3 t4 sync) s = .next { s1 with fab := { s1.fab with
        eqx := .acquire, eqxGood := 0, counter := stepCounter s.fab.counter theta, eqxLastGood := s.now } }) ∧
      (s.fab.eqx ≠ .unsync → 8000 < theta.natAbs → exec (.eqxReply t1 t2 t3 t4 sync) s = .next (eqxLost s1)) ∧
      (s.fab.eqx = .acquire → theta.natAbs ≤ 32 → s.fab.eqxGood = 7 → sync = true →
        exec (.eqxReply t1 t2 t3 t4 sync) s = .next { s1 with fab := { s1.fab with
          eqxTrim := trimOf theta s.fab.eqxInterval, eqxTrimNs := 1000 * s.fab.eqxInterval, eqxFrac := 0, eqxGood := 8,
          eqx := .sync, eqxLastGood := s.now } })) ∧
    (s.fab.eqx = .sync → s.fab.eqxRoot = false → s.fab.eqxLastGood + 10000000 ≤ s.now →
      exec .eqxLockLoss s = .next (eqxLost s)) ∧
    (∀ value : Dword, hostUp s.pwr.state = true → s.fab.eqxRoot = true →
      exec (.fabEqxSet value) s = .next { s with fab := { s.fab with counter := value, eqx := .sync } }) ∧
    (∀ req : Requester, hostUp s.pwr.state = true → requesterOk req = true →
      exec (.fabEqxTime req) s = .next (readReg s req eqxTimeOff 4).1)

/-- The module's states (R385-R391, R424, R451, R465): input and rails, the reset pin, Thaw, IDLE and wake. -/
def Obligations.PowerStatesComplete : Prop :=
  ∀ s : State,
    (∀ (mv : Nat) (slotId : BitVec 4), s.pwr.state = .off → 44000 < mv →
      exec (.inputRise mv slotId) s
        = .next (bootController (modPwr s fun p => { p with state := .standby, slotId := slotId, inMv := mv }))) ∧
    (∀ mv : Nat, s.pwr.state ≠ .off → mv < 40000 → exec (.inputLoss mv) s = .next (switchOff s)) ∧
    (powered s.pwr.state = true →
      (∀ mv : Nat, mv < 45000 →
        exec (.undervoltage mv) s = .next (enterStandby (modPwr s fun p => { p with inMv := mv }) .uv)) ∧
      (∀ mv : Nat, 63000 < mv →
        exec (.overvoltage mv) s = .next (enterStandby (modPwr s fun p => { p with inMv := mv }) .ov)) ∧
      (∀ rail < 13, exec (.railFault rail) s = .next (enterStandby s .rail)) ∧
      exec .modRstNLow s
        = .next (enterStandby (modPwr s fun p => { p with modRstN := false, resetAt := some s.now }) .reset)) ∧
    (s.pwr.state = .standby → s.pwr.modRstN = false → thawOk s = true →
      exec .modRstNRise s = .next (startThaw (modPwr s fun p => { p with modRstN := true }))) ∧
    (∀ finds : ThawFinds, s.pwr.state = .thaw →
      (finds.stackFails.any fun k => decide (7 < k)) = false → (finds.flashFails.any fun c => decide (63 < c)) = false →
      let u := modSec s fun x => { x with booted := (x.booted.set 0 (bootPick s 0)).set 1 (bootPick s 1) }
      exec (.thawSequence finds) s = .next (match bootPick s 0, bootPick s 1 with
        | none, _ => thawFails u 1
        | some _, none => thawFails u 2
        | some _, some _ =>
          if finds.pufOk = false then thawFails u 4
          else if s.sec.floorsMac = true ∧ s.sec.leafMac = true then thawEnds u finds
          else thawFails u 5)) ∧
    (s.pwr.state = .active → s.pwr.idleReq = false →
      exec .idleReq s = .next (modPwr s fun p => { p with idleReq := true, wakeSeen := false })) ∧
    (s.pwr.state = .idle →
      exec .pwrCtrlWake s = .next (wakeEvent (modPwr s fun p => { p with wakeBit := true })) ∧
      (s.pwr.waking = true → exec .wakeDone s = .next (eqxLost (enterActive s))))

/-- A sensor sweep stores its readings and acts on them (R394-R398), a trip removes the rails, and the watchdogs restart a control core
or the controller (R393). -/
def Obligations.SweepAndWatchdogs : Prop :=
  ∀ s : State,
    (∀ w : Sweep,
      let s1 := inputSample (takeSweep s w) s.pwr.inMv
      (powered s.pwr.state = true → trips s1 s1.thm.temps = true →
        exec (.sensorSweep w) s = .next (keepDies (enterStandby s1 .trip))) ∧
      (hostUp s.pwr.state = true → trips s1 s1.thm.temps = false →
        exec (.sensorSweep w) s = .next (keepDies (sweepRun s1 s.thm.temps))) ∧
      (s.pwr.state = .standby → exec (.sensorSweep w) s = .next (keepDies s1))) ∧
    (∀ value : Word, hostUp s.pwr.state = true →
      (s.hif.lock = false → exec (.thmDieCurve value) s = .next (modThm s fun x =>
        { x with pendCurve := x.pendCurve.set 0 (curveEntryOf value.toNat), committed := true })) ∧
      (s.hif.lock = true → exec (.thmDieCurve value) s = .next s)) ∧
    (∀ cluster < 16, coresClocked s.pwr.state = true → (clusterAt s cluster).wdogMs ≠ 0#32 →
      (clusterAt s cluster).wdogAt + 1000000 * (clusterAt s cluster).wdogMs.toNat ≤ s.now →
      let s1 := modCluster s cluster fun x => { x with ctlResets := x.ctlResets + 1, wdogAt := s.now, resv := none }
      (bound s1 .walk cluster = none → exec (.cluWdogExpiry cluster) s = .next (alarm s1 11 cluster)) ∧
      (∀ b, bound s1 .walk cluster = some b →
        exec (.cluWdogExpiry cluster) s = .next (alarm (haltStation s1 b .internal) 11 cluster))) ∧
    (∀ cluster < 16, hostUp s.pwr.state = true →
      exec (.cluWdogKick cluster) s = .next (modCluster s cluster fun x => { x with wdogAt := s.now })) ∧
    (s.pwr.state ≠ .off → exec .controllerWatchdogExpiry s = .next (bootController (modSec
      (modPwr s fun p => { p with ctlDownTo := s.now + 50000000 }) fun x => { x with sbAnswer := none })))

/-- Sideband requests that the controller serves (R424, R454-R456). -/
def Obligations.SidebandCompletes : Prop :=
  ∀ s : State, sbServed s = true → s.pwr.romMonitor = false →
    let t := modSec s fun x => { x with sbAnswer := none }
    (∀ (offset : Nat) (pkg : Bool), sbDomain offset = some pkg → (pkg = true → powered s.pwr.state = true) →
      exec (.read32 offset) s
        = .next (sbAnswer (readReg t .controller offset 4).1 .ok (leBytes 4 (readReg t .controller offset 4).2)) ∧
      (∀ value : Word, sbWrites offset = true → exec (.write32 offset value) s
        = .next (sbAnswer (writeAt32 .controller offset value t) .ok []))) ∧
    (∀ offset : Nat, sbDomain offset = none →
      exec (.read32 offset) s = .next (sbAnswer t .badDescriptor []) ∧
      ∀ value, exec (.write32 offset value) s = .next (sbAnswer t .badDescriptor [])) ∧
    (s.pwr.state = .standby → s.pwr.modRstN = true → s.pwr.resetAt = none → thawOk s = true →
      exec .thaw s = .next (sbAnswer (startThaw t) .ok [])) ∧
    (powered s.pwr.state = true → exec .shutdown s = .next (sbAnswer (enterStandby t .sideband) .ok [])) ∧
    (s.pwr.state = .idle → exec .wake s = .next (sbAnswer (wakeEvent t) .ok [])) ∧
    (∀ kind : Nat, 1 ≤ kind → kind ≤ 3 → s.sec.stage = none →
      exec (.stageOpen kind) s = .next (sbAnswer (tick1 (modSec (setSlot t (kind - 1) (stageSlot t (kind - 1)) [])
        fun x => { x with stage := some (kind - 1, stageSlot t (kind - 1)) })) .ok [])) ∧
    (∀ (k : Nat) (b : Bool), s.sec.stage = some (k, b) →
      (∀ (offset : Nat) (data : Bytes), data.length = 128 → offset + 128 ≤ slotBytes k →
        exec (.stageData offset data) s
          = .next (sbAnswer (tick1 (setSlot t k b (slotPut t (getSlot t k b) offset data))) .ok [])) ∧
      (∀ length : Nat,
        let u := setSlot (modSec t fun x => { x with stage := none }) k b ((getSlot t k b).take length)
        exec (.stageClose length) s = .next (sbAnswer u (stageCheck u k b) []))) ∧
    (∀ (offset : Nat) (data : Bytes), data.length = 128 → offset + 128 ≤ 8192 →
      exec (.ownerData offset data) s
        = .next (sbAnswer (modSec t fun x => { x with ownerBuf := overlay x.ownerBuf offset data }) .ok [])) ∧
    (exec .ownerCommit s
      = .next (sbAnswer (ownerSubmit t (t.sec.ownerBuf.take 8008) (t.pwr.state == .standby)).1
          (ownerSubmit t (t.sec.ownerBuf.take 8008) (t.pwr.state == .standby)).2 [])) ∧
    (∀ (nonce : Bytes) (cert : Bool), hostUp s.pwr.state = true →
      exec (.attest nonce cert) s = .next (attQueue t (some (padTo 32 nonce, cert)))) ∧
    (∀ offset : Nat, offset < s.sec.report.length →
      exec (.attestRead offset) s = .next (sbAnswer (tick1 t) .ok (((s.sec.report.drop offset).take 128)
        ++ openBytes t (128 - ((s.sec.report.drop offset).take 128).length))))

/-- The security registers (R426, R427, R432) and the signing key's trees (R431): a host stage, an owner record, a report; while the
trees are ready a request is served with the next leaf, which is spent. -/
def Obligations.SecurityCommandsComplete : Prop :=
  ∀ s : State, hostUp s.pwr.state = true →
    (∀ value : Word, bit value.toNat 0 = false →
      exec (.secStageCtrl value) s = .next (modSec s fun x =>
        { x with stageKind := bits value.toNat 1 2, stageDone := x.stageDone && !bit value.toNat 17 }) ∧
      exec (.secOwnerCtrl value) s = .next (modSec s fun x => { x with ownerDone := x.ownerDone && !bit value.toNat 17 })) ∧
    (∀ value : Word, bit value.toNat 0 = true →
      let t := modSec s fun x =>
        { x with stageKind := bits value.toNat 1 2, stageDone := x.stageDone && !bit value.toNat 17 }
      let u := modSec s fun x => { x with ownerDone := x.ownerDone && !bit value.toNat 17 }
      exec (.secStageCtrl value) s
        = .next (modSec (hostStage t).1 fun x => { x with stageStatus := (hostStage t).2, stageDone := true }) ∧
      (∀ (v : State) (o : Bytes), argRead u u.sec.ownerAddr 8008 = (v, .ok o) →
        exec (.secOwnerCtrl value) s = .next (modSec (ownerSubmit v o false).1 fun x =>
          { x with ownerStatus := (ownerSubmit v o false).2, ownerDone := true }))) ∧
    (∀ value : Word, (bit value.toNat 0 = false ∨ s.sec.attBusy = true) → exec (.secAttCtrl value) s = .next (modSec s fun x =>
      { x with attCert := bit value.toNat 1, attDone := x.attDone && !bit value.toNat 17 })) ∧
    (∀ value : Word, bit value.toNat 0 = true → s.sec.attBusy = false → s.sec.attWait = [] → s.sec.treesReady = true →
      let t := modSec s fun x => { x with
        attCert := bit value.toNat 1, attDone := x.attDone && !bit value.toNat 17, attBusy := true, attWait := [] }
      exec (.secAttCtrl value) s = .next (attServe t none) ∧
      (∀ v : State, argOk s.sec.attAddr = true → s.sec.leaf < 2 ^ 35 →
        argWrite (spendLeaf t) t.sec.attAddr
          (attestBytes t (leBytes 32 t.sec.attNonce.toNat) t.sec.attCert t.sec.leaf) = .ok v →
        exec (.secAttCtrl value) s = .next (attHostEnd v .ok))) ∧
    (s.sec.attWait = [] → exec .treeRegeneration s = .next (modSec s fun x => { x with treesReady := true })) ∧
    (2 ^ 14 < s.sec.leaf % 2 ^ 15 → exec .bottomTreeReplacement s = .next (modSec s fun x => { x with nextBottom := true }))

/-- Alarms cleared, events consumed, mirrored and signalled, and trace records written (R408, R411-R413). -/
def Obligations.TelemetryCompletes : Prop :=
  ∀ s : State, hostUp s.pwr.state = true →
    (∀ value : Dword, ∃ t, exec (.telAlarmSum value) s = .next t ∧ t.tel.sum = s.tel.sum &&& ~~~(value &&& 0x3FFFFF#64) ∧
      t.tel.latches.length = s.tel.latches.length ∧
      ∀ n < s.tel.latches.length, t.tel.latches[n]? = if n < 22 ∧ bit value.toNat n then some ⟨0#64, 0#16, 0#48⟩
        else s.tel.latches[n]?) ∧
    (∀ value : Word,
      (s.tel.ovf = true → value = s.tel.evtNext → exec (.telEvtHead value) s
        = .next (modTel s fun t => { t with evtHead := value, ovf := false })) ∧
      (s.tel.ovf = true → value ≠ s.tel.evtNext → exec (.telEvtHead value) s = .next s) ∧
      (s.tel.ovf = false → (value - s.tel.evtHead).toNat ≤ (s.tel.evtNext - s.tel.evtHead).toNat →
        exec (.telEvtHead value) s = .next (modTel s fun t => { t with evtHead := value })) ∧
      (s.tel.ovf = false → (s.tel.evtNext - s.tel.evtHead).toNat < (value - s.tel.evtHead).toNat →
        exec (.telEvtHead value) s = .next s)) ∧
    (∀ e rest b r, s.tel.mirQueue = e :: rest → memRead s (s.tel.evtBase + 32 * e.1) 32 = (r, .ok b) →
      exec .eventMirrorCopy s = .next (modTel (hostPoke r (s.tel.mirBase + 32 * e.1) b) fun t =>
        { t with mirQueue := t.mirQueue.filter fun (p : Nat × Word) => !(p == e), mirrored := e.2 + 1 })) ∧
    (∀ b r, s.tel.mirQueue = [] → s.tel.trcCount ≠ 0 → memRead s (s.tel.trcBase + 32 * trcOldest s.tel) 32 = (r, .ok b) →
      exec .eventMirrorCopy s = .next (modTel (hostPoke r (s.tel.trcMir + 32 * trcOldest s.tel) b) fun t =>
        { t with trcCount := t.trcCount - 1 })) ∧
    (mirrorDue s = true → exec .eventMirrorSignal s
      = .next (signalVec (modTel s fun t => { t with mirNew := 0, mirSince := none }) 0 s.tel.evtVec)) ∧
    (s.tel.trcEn = true → s.tel.trcPeriod ≠ 0 → s.tel.trcLast + 1000 * s.tel.trcPeriod ≤ s.now →
      exec .traceSample s
        = .next ((List.range (traceGroup s.tel.trcSel).1).foldl traceOne (modTel s fun t => { t with trcLast := s.now })))

/-- FINISH of a state tile writes every element as the row's o ÷ l: one division rounded to nearest, and +0 without a flag where l is
±0 (R113). -/
def Obligations.FinishDividesEveryRow : Prop :=
  ∀ (io : VecIO) (acb : Byte) (t : State) (en : BitVec 128 × BitVec 64) (d : Bytes) (i j : Nat), io.inFmt = .fp32 →
    let o := leAt d (i * rowBytes io.n + 8 + 4 * j) 4
    let l := leAt d (i * rowBytes io.n + 4) 4
    (∃ out fl, (arithmeticPlan io .finish acb).body t en [d] = .ok t [packRows .fp32 (plainRows out)] fl ∧
      (i < io.m → j < io.n → enabledAt en i j = true →
        (out.getD i []).getD j none = some (if l % 2 ^ 31 = 0 then 0 else (fpDiv ctl0 f32 o l).1))) ∧
    (l = 0 ∨ l = 0x80000000 → finishElem o l = (0, 0)) ∧
    (∀ (so sl : Bool) (mo ml : Nat) (eo el : Int), decodeF f32 o = .fin so mo eo → decodeF f32 l = .fin sl ml el → ml ≠ 0 →
      finishElem o l = fpDiv ctl0 f32 o l)

/-- FAB_RT_SEL, COL_GSEL and VSE_IDX_SEL are kept for each requester: a write changes what its own requester selects and nothing that
another requester reads (R441). -/
def Obligations.SelectsArePerRequester : Prop :=
  ∀ (req other : Requester) (sel mask : Nat) (value : Dword) (s : State), hostUp s.pwr.state = true → requesterOk req = true →
    (sel, mask) ∈ [(rtSelOff, 512), (gselOff 0, 4096), (gselOff 1, 4096), (idxSelOff, 256)] →
    ∃ t, exec (.registerWrite req sel 32 value) s = .next t ∧ selectOf t req sel = (value.setWidth 32).toNat % mask ∧
      (∀ off, off ≠ sel → selectOf t req off = selectOf s req off) ∧
      (other ≠ req → ∀ off n, (readReg t other off n).2 = (readReg s other off n).2)

/-- A command whose effect lies in one unit's registers leaves everything else as it was: both memories, the graphs, and every other
unit's registers. -/
def Obligations.RegisterCommandsTouchOneUnit : Prop :=
  ∀ (c : Instr) (s t : State), exec c s = .next t →
    match c with
    | .atsInvalidation .. | .configurationRequest | .hifRing0 .. | .hifSetupLock .. | .msixModerationExpiry ..
    | .msixVectorUnmask .. => t = { s with hif := t.hif }
    | .disc .. | .eqxInterval | .eqxRequest .. | .fabDiscover .. | .fabEqxSet .. | .fabLshape .. | .fabRtEntry ..
    | .fabTrain .. => t = { s with fab := t.fab }
    | .memLendGrant .. | .memMarginCtl .. | .revoke .. | .revokeDone .. => t = { s with memc := t.memc }
    | .idleReq | .pwrCtrlWake | .modRstNRise => t = { s with pwr := t.pwr }
    | .ownerCommit | .ownerData .. | .stageClose .. => t = { s with sec := t.sec }
    | .telAlarmSum .. | .telEvtHead .. => t = { s with tel := t.tel }
    | .cluWdogKick .. | .smallTransfer .. => t = { s with clusters := t.clusters }
    | .churnCreditArrival .. => t = { s with chn := t.chn }
    | .flsPool .. => t = { s with fls := t.fls }
    | .thmDieCurve .. => t = { s with thm := t.thm }
    | .claim .. => t = { s with cores := t.cores, clusters := t.clusters }
    | .eventMirrorSignal => t = { s with hif := t.hif, tel := t.tel }
    | .fabEqxTime .. => t = { s with hif := t.hif, fab := t.fab }
    | .flashScanDone => t = { s with free := t.free, fls := t.fls }
    | .controllerWatchdogExpiry | .inputRise .. | .thaw | .wake => t = { s with pwr := t.pwr, sec := t.sec }
    | .attestRead .. | .stageData .. | .stageOpen .. => t = { s with free := t.free, sec := t.sec }
    | .read32 .. => t = { s with hif := t.hif, sec := t.sec, fab := t.fab }
    | _ => True

/-- A ring, table or counter command writes host memory in completion queues alone, and no module memory (R374, R375); the mirror
writes its own position of host memory alone, and reads module memory as any read does (R309, R412). -/
def Obligations.CompletionsStayInTheirQueues : Prop :=
  ∀ (c : Instr) (s t : State), exec c s = .next t →
    match c with
    | .tableLoad .. | .wcReset .. | .cluWcReset .. | .ringCreate .. | .ringDelete .. =>
      t = { s with hostMem := t.hostMem, hif := t.hif, clusters := t.clusters, sfu := t.sfu } ∧
        ∀ a, (∀ r ∈ s.hif.rings ++ t.hif.rings, a < r.cqBase ∨ r.cqBase + 16 * 2 ^ r.cqExp ≤ a) →
          cellGet t.hostMem a = cellGet s.hostMem a
    | .eventMirrorCopy =>
      t = { s with hostMem := t.hostMem, mem := t.mem, poison := t.poison, soft := t.soft, free := t.free, hif := t.hif,
                   tel := t.tel, memc := t.memc, clusters := t.clusters } ∧
        (∀ a, ¬ InEventRing s a → cellGet t.mem a = cellGet s.mem a) ∧
        let p := match s.tel.mirQueue with
          | e :: _ => s.tel.mirBase + 32 * e.1
          | [] => s.tel.trcMir + 32 * trcOldest s.tel
        ∀ a, (a < p ∨ p + 32 ≤ a) → cellGet t.hostMem a = cellGet s.hostMem a
    | _ => True

/-- A command that stores nothing itself changes module memory in the event ring alone (R410); an atomic or an update changes, beside
that, its target's bytes alone (R315, R317). None touches host memory, a graph's buffers, a core, a group or the vector search. -/
def Obligations.StoresStayInTheirTargets : Prop :=
  (∀ (c : Instr) (s t : State), exec c s = .next t →
    match c with
    | .pcieLinkRetrain .. | .kvcPool .. | .fabStallExpiry .. | .linkRestart .. | .flashUpkeep .. | .packetForward ..
    | .patrolScrub .. =>
      (∀ a, ¬ InEventRing s a → cellGet t.mem a = cellGet s.mem a) ∧
        t.hostMem = s.hostMem ∧ t.refs = s.refs ∧ t.graphs = s.graphs ∧ t.pwr = s.pwr ∧ t.thm = s.thm ∧ t.sec = s.sec ∧
        t.cores = s.cores ∧ t.sfu = s.sfu ∧ t.ssa = s.ssa ∧ t.chn = s.chn ∧ t.col = s.col ∧ t.groups = s.groups ∧ t.vse = s.vse
    | _ => True) ∧
  (∀ (c : Instr) (a n : Nat) (s t : State), exec c s = .next t →
    (match c with
     | .amo _ _ wide addr _ => a = addr ∧ n = if wide then 8 else 4
     | .compareAndSwap _ addr _ _ => a = addr ∧ n = 4
     | .updateAliasWrite addr data =>
       a = aliasTarget addr ∧ n = data.length / aliasIn (aliasOp addr) * aliasOut (aliasOp addr)
     | _ => False) →
    (∀ d, ¬ InEventRing s d → (∀ i < n, d ≠ directD (a + i)) → cellGet t.mem d = cellGet s.mem d) ∧
      t.hostMem = s.hostMem ∧ t.refs = s.refs ∧ t.graphs = s.graphs ∧ t.pwr = s.pwr ∧ t.thm = s.thm ∧ t.sec = s.sec ∧
      t.cores = s.cores ∧ t.sfu = s.sfu ∧ t.kvc = s.kvc ∧ t.ssa = s.ssa ∧ t.chn = s.chn ∧ t.col = s.col ∧
      t.groups = s.groups ∧ t.fab = s.fab ∧ t.fls = s.fls)

/-- Reset leaves the module as Thaw ends in IDLE: the values of the Reset columns (R442), nothing loaded, open or in flight, no command
waiting, and memory with nothing listed (the model's choice, log 3). -/
def Obligations.ResetState : Prop :=
  State.reset.pwr.state = .idle ∧ State.reset.pwr.cap = 2600 ∧ State.reset.pwr.capEn = true ∧
    State.reset.pwr.diePowerCap = [64, 64] ∧ State.reset.hif.lock = false ∧ State.reset.hif.rings = [] ∧
    State.reset.hif.inflight = [] ∧ State.reset.tel.sum = 0#64 ∧ State.reset.tel.evtEn = false ∧ State.reset.tel.evtExp = 12 ∧
    State.reset.memc.scrubH = 24#32 ∧ State.reset.memc.linkLimit = 1024#32 ∧ State.reset.memc.ueLimit = 16#32 ∧
    State.reset.fab.stallUs = 1000#32 ∧ State.reset.fab.eqx = .unsync ∧ State.reset.groups = [] ∧
    (∀ g ∈ State.reset.graphs, g.graph = none) ∧ (∀ c ∈ State.reset.chn, c.state = 0) ∧ State.reset.fls.xfers = [] ∧
    State.reset.vse.indexes = [] ∧ State.reset.pending = [] ∧ State.reset.mem = [] ∧ State.reset.hostMem = []

/-- At reset both memories are in canonical form, the curve in force is one that R395 lets through, the power caps lie in R396's range,
and no signing leaf is ahead of the leaf log. -/
def Obligations.ResetMeetsInvariant : Prop := Invariant State.reset

/-- Whatever a step does, both memories stay in canonical form, the curve in force stays one that R395 lets through, the power caps stay
in R396's range, and the next signing leaf stays within what the leaf log covers (R430). -/
def Obligations.StepsKeepInvariant : Prop := ∀ s t : State, Invariant s → step s = .next t → Invariant t

/-- No command touches the queue of the commands that wait behind it (the model's own state, log 1). -/
def Obligations.CommandsLeaveTheQueue : Prop := ∀ (c : Instr) (s t : State), exec c s = .next t → t.pending = s.pending

/-- No step lowers a stored floor, an image whose VERSION lies below its kind's floor is invalid, and a Thaw that reaches IDLE raises
each floor to the booted image's FLOOR (R425). -/
def Obligations.FloorsNeverFall : Prop :=
  (∀ (s t : State) (k : Nat), step s = .next t → (s.sec.floors.getD k 0#32).toNat ≤ (t.sec.floors.getD k 0#32).toNat) ∧
  (∀ (s : State) (k : Nat) (b : Bytes), imgVersion b < (s.sec.floors.getD k 0#32).toNat → imageValid s k b = false) ∧
  (∀ (s : State) (finds : ThawFinds), s.pwr.state = .thaw →
    (finds.stackFails.any fun k => decide (7 < k)) = false → (finds.flashFails.any fun c => decide (63 < c)) = false →
    ∃ t, exec (.thawSequence finds) s = .next t ∧ ∀ k < s.sec.floors.length,
      (t.sec.floors.getD k 0#32).toNat = if t.pwr.state = .idle
        then max (s.sec.floors.getD k 0#32).toNat (imgFloor (bootedImage t k)) else (s.sec.floors.getD k 0#32).toNat)
end

