-- ==== Sys2Proof/Laws/State.lean ====
section
/-! SUPPORT. One lemma per field per update of State: what an update of one place leaves as it was. -/

namespace Sys2Proof.Machine

/-! ### `modCore` -/

@[simp] theorem modCore_pending (s : State) (c : Nat) (f : Core → Core) : (modCore s c f).pending = s.pending := rfl
@[simp] theorem modCore_now (s : State) (c : Nat) (f : Core → Core) : (modCore s c f).now = s.now := rfl
@[simp] theorem modCore_free (s : State) (c : Nat) (f : Core → Core) : (modCore s c f).free = s.free := rfl
@[simp] theorem modCore_mem (s : State) (c : Nat) (f : Core → Core) : (modCore s c f).mem = s.mem := rfl
@[simp] theorem modCore_poison (s : State) (c : Nat) (f : Core → Core) : (modCore s c f).poison = s.poison := rfl
@[simp] theorem modCore_soft (s : State) (c : Nat) (f : Core → Core) : (modCore s c f).soft = s.soft := rfl
@[simp] theorem modCore_hostMem (s : State) (c : Nat) (f : Core → Core) : (modCore s c f).hostMem = s.hostMem := rfl
@[simp] theorem modCore_hostAbsent (s : State) (c : Nat) (f : Core → Core) : (modCore s c f).hostAbsent = s.hostAbsent := rfl
@[simp] theorem modCore_refs (s : State) (c : Nat) (f : Core → Core) : (modCore s c f).refs = s.refs := rfl
@[simp] theorem modCore_pwr (s : State) (c : Nat) (f : Core → Core) : (modCore s c f).pwr = s.pwr := rfl
@[simp] theorem modCore_thm (s : State) (c : Nat) (f : Core → Core) : (modCore s c f).thm = s.thm := rfl
@[simp] theorem modCore_hif (s : State) (c : Nat) (f : Core → Core) : (modCore s c f).hif = s.hif := rfl
@[simp] theorem modCore_tel (s : State) (c : Nat) (f : Core → Core) : (modCore s c f).tel = s.tel := rfl
@[simp] theorem modCore_sec (s : State) (c : Nat) (f : Core → Core) : (modCore s c f).sec = s.sec := rfl
@[simp] theorem modCore_graphs (s : State) (c : Nat) (f : Core → Core) : (modCore s c f).graphs = s.graphs := rfl
@[simp] theorem modCore_clusters (s : State) (c : Nat) (f : Core → Core) : (modCore s c f).clusters = s.clusters := rfl
@[simp] theorem modCore_sfu (s : State) (c : Nat) (f : Core → Core) : (modCore s c f).sfu = s.sfu := rfl
@[simp] theorem modCore_kvc (s : State) (c : Nat) (f : Core → Core) : (modCore s c f).kvc = s.kvc := rfl
@[simp] theorem modCore_ssa (s : State) (c : Nat) (f : Core → Core) : (modCore s c f).ssa = s.ssa := rfl
@[simp] theorem modCore_chn (s : State) (c : Nat) (f : Core → Core) : (modCore s c f).chn = s.chn := rfl
@[simp] theorem modCore_col (s : State) (c : Nat) (f : Core → Core) : (modCore s c f).col = s.col := rfl
@[simp] theorem modCore_groups (s : State) (c : Nat) (f : Core → Core) : (modCore s c f).groups = s.groups := rfl
@[simp] theorem modCore_fab (s : State) (c : Nat) (f : Core → Core) : (modCore s c f).fab = s.fab := rfl
@[simp] theorem modCore_memc (s : State) (c : Nat) (f : Core → Core) : (modCore s c f).memc = s.memc := rfl
@[simp] theorem modCore_fls (s : State) (c : Nat) (f : Core → Core) : (modCore s c f).fls = s.fls := rfl
@[simp] theorem modCore_vse (s : State) (c : Nat) (f : Core → Core) : (modCore s c f).vse = s.vse := rfl

/-! ### `modCluster` -/

@[simp] theorem modCluster_pending (s : State) (c : Nat) (f : Cluster → Cluster) : (modCluster s c f).pending = s.pending := rfl
@[simp] theorem modCluster_now (s : State) (c : Nat) (f : Cluster → Cluster) : (modCluster s c f).now = s.now := rfl
@[simp] theorem modCluster_free (s : State) (c : Nat) (f : Cluster → Cluster) : (modCluster s c f).free = s.free := rfl
@[simp] theorem modCluster_mem (s : State) (c : Nat) (f : Cluster → Cluster) : (modCluster s c f).mem = s.mem := rfl
@[simp] theorem modCluster_poison (s : State) (c : Nat) (f : Cluster → Cluster) : (modCluster s c f).poison = s.poison := rfl
@[simp] theorem modCluster_soft (s : State) (c : Nat) (f : Cluster → Cluster) : (modCluster s c f).soft = s.soft := rfl
@[simp] theorem modCluster_hostMem (s : State) (c : Nat) (f : Cluster → Cluster) : (modCluster s c f).hostMem = s.hostMem := rfl
@[simp] theorem modCluster_hostAbsent (s : State) (c : Nat) (f : Cluster → Cluster) : (modCluster s c f).hostAbsent = s.hostAbsent := rfl
@[simp] theorem modCluster_refs (s : State) (c : Nat) (f : Cluster → Cluster) : (modCluster s c f).refs = s.refs := rfl
@[simp] theorem modCluster_pwr (s : State) (c : Nat) (f : Cluster → Cluster) : (modCluster s c f).pwr = s.pwr := rfl
@[simp] theorem modCluster_thm (s : State) (c : Nat) (f : Cluster → Cluster) : (modCluster s c f).thm = s.thm := rfl
@[simp] theorem modCluster_hif (s : State) (c : Nat) (f : Cluster → Cluster) : (modCluster s c f).hif = s.hif := rfl
@[simp] theorem modCluster_tel (s : State) (c : Nat) (f : Cluster → Cluster) : (modCluster s c f).tel = s.tel := rfl
@[simp] theorem modCluster_sec (s : State) (c : Nat) (f : Cluster → Cluster) : (modCluster s c f).sec = s.sec := rfl
@[simp] theorem modCluster_graphs (s : State) (c : Nat) (f : Cluster → Cluster) : (modCluster s c f).graphs = s.graphs := rfl
@[simp] theorem modCluster_cores (s : State) (c : Nat) (f : Cluster → Cluster) : (modCluster s c f).cores = s.cores := rfl
@[simp] theorem modCluster_sfu (s : State) (c : Nat) (f : Cluster → Cluster) : (modCluster s c f).sfu = s.sfu := rfl
@[simp] theorem modCluster_kvc (s : State) (c : Nat) (f : Cluster → Cluster) : (modCluster s c f).kvc = s.kvc := rfl
@[simp] theorem modCluster_ssa (s : State) (c : Nat) (f : Cluster → Cluster) : (modCluster s c f).ssa = s.ssa := rfl
@[simp] theorem modCluster_chn (s : State) (c : Nat) (f : Cluster → Cluster) : (modCluster s c f).chn = s.chn := rfl
@[simp] theorem modCluster_col (s : State) (c : Nat) (f : Cluster → Cluster) : (modCluster s c f).col = s.col := rfl
@[simp] theorem modCluster_groups (s : State) (c : Nat) (f : Cluster → Cluster) : (modCluster s c f).groups = s.groups := rfl
@[simp] theorem modCluster_fab (s : State) (c : Nat) (f : Cluster → Cluster) : (modCluster s c f).fab = s.fab := rfl
@[simp] theorem modCluster_memc (s : State) (c : Nat) (f : Cluster → Cluster) : (modCluster s c f).memc = s.memc := rfl
@[simp] theorem modCluster_fls (s : State) (c : Nat) (f : Cluster → Cluster) : (modCluster s c f).fls = s.fls := rfl
@[simp] theorem modCluster_vse (s : State) (c : Nat) (f : Cluster → Cluster) : (modCluster s c f).vse = s.vse := rfl

/-! ### `modSsa` -/

@[simp] theorem modSsa_pending (s : State) (k : Nat) (f : Ssa → Ssa) : (modSsa s k f).pending = s.pending := rfl
@[simp] theorem modSsa_now (s : State) (k : Nat) (f : Ssa → Ssa) : (modSsa s k f).now = s.now := rfl
@[simp] theorem modSsa_free (s : State) (k : Nat) (f : Ssa → Ssa) : (modSsa s k f).free = s.free := rfl
@[simp] theorem modSsa_mem (s : State) (k : Nat) (f : Ssa → Ssa) : (modSsa s k f).mem = s.mem := rfl
@[simp] theorem modSsa_poison (s : State) (k : Nat) (f : Ssa → Ssa) : (modSsa s k f).poison = s.poison := rfl
@[simp] theorem modSsa_soft (s : State) (k : Nat) (f : Ssa → Ssa) : (modSsa s k f).soft = s.soft := rfl
@[simp] theorem modSsa_hostMem (s : State) (k : Nat) (f : Ssa → Ssa) : (modSsa s k f).hostMem = s.hostMem := rfl
@[simp] theorem modSsa_hostAbsent (s : State) (k : Nat) (f : Ssa → Ssa) : (modSsa s k f).hostAbsent = s.hostAbsent := rfl
@[simp] theorem modSsa_refs (s : State) (k : Nat) (f : Ssa → Ssa) : (modSsa s k f).refs = s.refs := rfl
@[simp] theorem modSsa_pwr (s : State) (k : Nat) (f : Ssa → Ssa) : (modSsa s k f).pwr = s.pwr := rfl
@[simp] theorem modSsa_thm (s : State) (k : Nat) (f : Ssa → Ssa) : (modSsa s k f).thm = s.thm := rfl
@[simp] theorem modSsa_hif (s : State) (k : Nat) (f : Ssa → Ssa) : (modSsa s k f).hif = s.hif := rfl
@[simp] theorem modSsa_tel (s : State) (k : Nat) (f : Ssa → Ssa) : (modSsa s k f).tel = s.tel := rfl
@[simp] theorem modSsa_sec (s : State) (k : Nat) (f : Ssa → Ssa) : (modSsa s k f).sec = s.sec := rfl
@[simp] theorem modSsa_graphs (s : State) (k : Nat) (f : Ssa → Ssa) : (modSsa s k f).graphs = s.graphs := rfl
@[simp] theorem modSsa_cores (s : State) (k : Nat) (f : Ssa → Ssa) : (modSsa s k f).cores = s.cores := rfl
@[simp] theorem modSsa_clusters (s : State) (k : Nat) (f : Ssa → Ssa) : (modSsa s k f).clusters = s.clusters := rfl
@[simp] theorem modSsa_sfu (s : State) (k : Nat) (f : Ssa → Ssa) : (modSsa s k f).sfu = s.sfu := rfl
@[simp] theorem modSsa_kvc (s : State) (k : Nat) (f : Ssa → Ssa) : (modSsa s k f).kvc = s.kvc := rfl
@[simp] theorem modSsa_chn (s : State) (k : Nat) (f : Ssa → Ssa) : (modSsa s k f).chn = s.chn := rfl
@[simp] theorem modSsa_col (s : State) (k : Nat) (f : Ssa → Ssa) : (modSsa s k f).col = s.col := rfl
@[simp] theorem modSsa_groups (s : State) (k : Nat) (f : Ssa → Ssa) : (modSsa s k f).groups = s.groups := rfl
@[simp] theorem modSsa_fab (s : State) (k : Nat) (f : Ssa → Ssa) : (modSsa s k f).fab = s.fab := rfl
@[simp] theorem modSsa_memc (s : State) (k : Nat) (f : Ssa → Ssa) : (modSsa s k f).memc = s.memc := rfl
@[simp] theorem modSsa_fls (s : State) (k : Nat) (f : Ssa → Ssa) : (modSsa s k f).fls = s.fls := rfl
@[simp] theorem modSsa_vse (s : State) (k : Nat) (f : Ssa → Ssa) : (modSsa s k f).vse = s.vse := rfl

/-! ### `modStk` -/

@[simp] theorem modStk_pending (s : State) (k : Nat) (f : StackMem → StackMem) : (modStk s k f).pending = s.pending := rfl
@[simp] theorem modStk_now (s : State) (k : Nat) (f : StackMem → StackMem) : (modStk s k f).now = s.now := rfl
@[simp] theorem modStk_free (s : State) (k : Nat) (f : StackMem → StackMem) : (modStk s k f).free = s.free := rfl
@[simp] theorem modStk_mem (s : State) (k : Nat) (f : StackMem → StackMem) : (modStk s k f).mem = s.mem := rfl
@[simp] theorem modStk_poison (s : State) (k : Nat) (f : StackMem → StackMem) : (modStk s k f).poison = s.poison := rfl
@[simp] theorem modStk_soft (s : State) (k : Nat) (f : StackMem → StackMem) : (modStk s k f).soft = s.soft := rfl
@[simp] theorem modStk_hostMem (s : State) (k : Nat) (f : StackMem → StackMem) : (modStk s k f).hostMem = s.hostMem := rfl
@[simp] theorem modStk_hostAbsent (s : State) (k : Nat) (f : StackMem → StackMem) : (modStk s k f).hostAbsent = s.hostAbsent := rfl
@[simp] theorem modStk_refs (s : State) (k : Nat) (f : StackMem → StackMem) : (modStk s k f).refs = s.refs := rfl
@[simp] theorem modStk_pwr (s : State) (k : Nat) (f : StackMem → StackMem) : (modStk s k f).pwr = s.pwr := rfl
@[simp] theorem modStk_thm (s : State) (k : Nat) (f : StackMem → StackMem) : (modStk s k f).thm = s.thm := rfl
@[simp] theorem modStk_hif (s : State) (k : Nat) (f : StackMem → StackMem) : (modStk s k f).hif = s.hif := rfl
@[simp] theorem modStk_tel (s : State) (k : Nat) (f : StackMem → StackMem) : (modStk s k f).tel = s.tel := rfl
@[simp] theorem modStk_sec (s : State) (k : Nat) (f : StackMem → StackMem) : (modStk s k f).sec = s.sec := rfl
@[simp] theorem modStk_graphs (s : State) (k : Nat) (f : StackMem → StackMem) : (modStk s k f).graphs = s.graphs := rfl
@[simp] theorem modStk_cores (s : State) (k : Nat) (f : StackMem → StackMem) : (modStk s k f).cores = s.cores := rfl
@[simp] theorem modStk_clusters (s : State) (k : Nat) (f : StackMem → StackMem) : (modStk s k f).clusters = s.clusters := rfl
@[simp] theorem modStk_sfu (s : State) (k : Nat) (f : StackMem → StackMem) : (modStk s k f).sfu = s.sfu := rfl
@[simp] theorem modStk_kvc (s : State) (k : Nat) (f : StackMem → StackMem) : (modStk s k f).kvc = s.kvc := rfl
@[simp] theorem modStk_ssa (s : State) (k : Nat) (f : StackMem → StackMem) : (modStk s k f).ssa = s.ssa := rfl
@[simp] theorem modStk_chn (s : State) (k : Nat) (f : StackMem → StackMem) : (modStk s k f).chn = s.chn := rfl
@[simp] theorem modStk_col (s : State) (k : Nat) (f : StackMem → StackMem) : (modStk s k f).col = s.col := rfl
@[simp] theorem modStk_groups (s : State) (k : Nat) (f : StackMem → StackMem) : (modStk s k f).groups = s.groups := rfl
@[simp] theorem modStk_fab (s : State) (k : Nat) (f : StackMem → StackMem) : (modStk s k f).fab = s.fab := rfl
@[simp] theorem modStk_fls (s : State) (k : Nat) (f : StackMem → StackMem) : (modStk s k f).fls = s.fls := rfl
@[simp] theorem modStk_vse (s : State) (k : Nat) (f : StackMem → StackMem) : (modStk s k f).vse = s.vse := rfl

/-! ### `modSlot` -/

@[simp] theorem modSlot_pending (s : State) (slot : Nat) (f : GraphSlot → GraphSlot) : (modSlot s slot f).pending = s.pending := rfl
@[simp] theorem modSlot_now (s : State) (slot : Nat) (f : GraphSlot → GraphSlot) : (modSlot s slot f).now = s.now := rfl
@[simp] theorem modSlot_free (s : State) (slot : Nat) (f : GraphSlot → GraphSlot) : (modSlot s slot f).free = s.free := rfl
@[simp] theorem modSlot_mem (s : State) (slot : Nat) (f : GraphSlot → GraphSlot) : (modSlot s slot f).mem = s.mem := rfl
@[simp] theorem modSlot_poison (s : State) (slot : Nat) (f : GraphSlot → GraphSlot) : (modSlot s slot f).poison = s.poison := rfl
@[simp] theorem modSlot_soft (s : State) (slot : Nat) (f : GraphSlot → GraphSlot) : (modSlot s slot f).soft = s.soft := rfl
@[simp] theorem modSlot_hostMem (s : State) (slot : Nat) (f : GraphSlot → GraphSlot) : (modSlot s slot f).hostMem = s.hostMem := rfl
@[simp] theorem modSlot_hostAbsent (s : State) (slot : Nat) (f : GraphSlot → GraphSlot) : (modSlot s slot f).hostAbsent = s.hostAbsent := rfl
@[simp] theorem modSlot_refs (s : State) (slot : Nat) (f : GraphSlot → GraphSlot) : (modSlot s slot f).refs = s.refs := rfl
@[simp] theorem modSlot_pwr (s : State) (slot : Nat) (f : GraphSlot → GraphSlot) : (modSlot s slot f).pwr = s.pwr := rfl
@[simp] theorem modSlot_thm (s : State) (slot : Nat) (f : GraphSlot → GraphSlot) : (modSlot s slot f).thm = s.thm := rfl
@[simp] theorem modSlot_hif (s : State) (slot : Nat) (f : GraphSlot → GraphSlot) : (modSlot s slot f).hif = s.hif := rfl
@[simp] theorem modSlot_tel (s : State) (slot : Nat) (f : GraphSlot → GraphSlot) : (modSlot s slot f).tel = s.tel := rfl
@[simp] theorem modSlot_sec (s : State) (slot : Nat) (f : GraphSlot → GraphSlot) : (modSlot s slot f).sec = s.sec := rfl
@[simp] theorem modSlot_cores (s : State) (slot : Nat) (f : GraphSlot → GraphSlot) : (modSlot s slot f).cores = s.cores := rfl
@[simp] theorem modSlot_clusters (s : State) (slot : Nat) (f : GraphSlot → GraphSlot) : (modSlot s slot f).clusters = s.clusters := rfl
@[simp] theorem modSlot_sfu (s : State) (slot : Nat) (f : GraphSlot → GraphSlot) : (modSlot s slot f).sfu = s.sfu := rfl
@[simp] theorem modSlot_kvc (s : State) (slot : Nat) (f : GraphSlot → GraphSlot) : (modSlot s slot f).kvc = s.kvc := rfl
@[simp] theorem modSlot_ssa (s : State) (slot : Nat) (f : GraphSlot → GraphSlot) : (modSlot s slot f).ssa = s.ssa := rfl
@[simp] theorem modSlot_chn (s : State) (slot : Nat) (f : GraphSlot → GraphSlot) : (modSlot s slot f).chn = s.chn := rfl
@[simp] theorem modSlot_col (s : State) (slot : Nat) (f : GraphSlot → GraphSlot) : (modSlot s slot f).col = s.col := rfl
@[simp] theorem modSlot_groups (s : State) (slot : Nat) (f : GraphSlot → GraphSlot) : (modSlot s slot f).groups = s.groups := rfl
@[simp] theorem modSlot_fab (s : State) (slot : Nat) (f : GraphSlot → GraphSlot) : (modSlot s slot f).fab = s.fab := rfl
@[simp] theorem modSlot_memc (s : State) (slot : Nat) (f : GraphSlot → GraphSlot) : (modSlot s slot f).memc = s.memc := rfl
@[simp] theorem modSlot_fls (s : State) (slot : Nat) (f : GraphSlot → GraphSlot) : (modSlot s slot f).fls = s.fls := rfl
@[simp] theorem modSlot_vse (s : State) (slot : Nat) (f : GraphSlot → GraphSlot) : (modSlot s slot f).vse = s.vse := rfl

/-! ### `modGraph` -/

@[simp] theorem modGraph_pending (s : State) (slot : Nat) (f : Graph → Graph) : (modGraph s slot f).pending = s.pending := rfl
@[simp] theorem modGraph_now (s : State) (slot : Nat) (f : Graph → Graph) : (modGraph s slot f).now = s.now := rfl
@[simp] theorem modGraph_free (s : State) (slot : Nat) (f : Graph → Graph) : (modGraph s slot f).free = s.free := rfl
@[simp] theorem modGraph_mem (s : State) (slot : Nat) (f : Graph → Graph) : (modGraph s slot f).mem = s.mem := rfl
@[simp] theorem modGraph_poison (s : State) (slot : Nat) (f : Graph → Graph) : (modGraph s slot f).poison = s.poison := rfl
@[simp] theorem modGraph_soft (s : State) (slot : Nat) (f : Graph → Graph) : (modGraph s slot f).soft = s.soft := rfl
@[simp] theorem modGraph_hostMem (s : State) (slot : Nat) (f : Graph → Graph) : (modGraph s slot f).hostMem = s.hostMem := rfl
@[simp] theorem modGraph_hostAbsent (s : State) (slot : Nat) (f : Graph → Graph) : (modGraph s slot f).hostAbsent = s.hostAbsent := rfl
@[simp] theorem modGraph_refs (s : State) (slot : Nat) (f : Graph → Graph) : (modGraph s slot f).refs = s.refs := rfl
@[simp] theorem modGraph_pwr (s : State) (slot : Nat) (f : Graph → Graph) : (modGraph s slot f).pwr = s.pwr := rfl
@[simp] theorem modGraph_thm (s : State) (slot : Nat) (f : Graph → Graph) : (modGraph s slot f).thm = s.thm := rfl
@[simp] theorem modGraph_hif (s : State) (slot : Nat) (f : Graph → Graph) : (modGraph s slot f).hif = s.hif := rfl
@[simp] theorem modGraph_tel (s : State) (slot : Nat) (f : Graph → Graph) : (modGraph s slot f).tel = s.tel := rfl
@[simp] theorem modGraph_sec (s : State) (slot : Nat) (f : Graph → Graph) : (modGraph s slot f).sec = s.sec := rfl
@[simp] theorem modGraph_cores (s : State) (slot : Nat) (f : Graph → Graph) : (modGraph s slot f).cores = s.cores := rfl
@[simp] theorem modGraph_clusters (s : State) (slot : Nat) (f : Graph → Graph) : (modGraph s slot f).clusters = s.clusters := rfl
@[simp] theorem modGraph_sfu (s : State) (slot : Nat) (f : Graph → Graph) : (modGraph s slot f).sfu = s.sfu := rfl
@[simp] theorem modGraph_kvc (s : State) (slot : Nat) (f : Graph → Graph) : (modGraph s slot f).kvc = s.kvc := rfl
@[simp] theorem modGraph_ssa (s : State) (slot : Nat) (f : Graph → Graph) : (modGraph s slot f).ssa = s.ssa := rfl
@[simp] theorem modGraph_chn (s : State) (slot : Nat) (f : Graph → Graph) : (modGraph s slot f).chn = s.chn := rfl
@[simp] theorem modGraph_col (s : State) (slot : Nat) (f : Graph → Graph) : (modGraph s slot f).col = s.col := rfl
@[simp] theorem modGraph_groups (s : State) (slot : Nat) (f : Graph → Graph) : (modGraph s slot f).groups = s.groups := rfl
@[simp] theorem modGraph_fab (s : State) (slot : Nat) (f : Graph → Graph) : (modGraph s slot f).fab = s.fab := rfl
@[simp] theorem modGraph_memc (s : State) (slot : Nat) (f : Graph → Graph) : (modGraph s slot f).memc = s.memc := rfl
@[simp] theorem modGraph_fls (s : State) (slot : Nat) (f : Graph → Graph) : (modGraph s slot f).fls = s.fls := rfl
@[simp] theorem modGraph_vse (s : State) (slot : Nat) (f : Graph → Graph) : (modGraph s slot f).vse = s.vse := rfl

/-! ### `modStation` -/

@[simp] theorem modStation_pending (s : State) (slot i : Nat) (f : Station → Station) : (modStation s slot i f).pending = s.pending := rfl
@[simp] theorem modStation_now (s : State) (slot i : Nat) (f : Station → Station) : (modStation s slot i f).now = s.now := rfl
@[simp] theorem modStation_free (s : State) (slot i : Nat) (f : Station → Station) : (modStation s slot i f).free = s.free := rfl
@[simp] theorem modStation_mem (s : State) (slot i : Nat) (f : Station → Station) : (modStation s slot i f).mem = s.mem := rfl
@[simp] theorem modStation_poison (s : State) (slot i : Nat) (f : Station → Station) : (modStation s slot i f).poison = s.poison := rfl
@[simp] theorem modStation_soft (s : State) (slot i : Nat) (f : Station → Station) : (modStation s slot i f).soft = s.soft := rfl
@[simp] theorem modStation_hostMem (s : State) (slot i : Nat) (f : Station → Station) : (modStation s slot i f).hostMem = s.hostMem := rfl
@[simp] theorem modStation_hostAbsent (s : State) (slot i : Nat) (f : Station → Station) : (modStation s slot i f).hostAbsent = s.hostAbsent := rfl
@[simp] theorem modStation_refs (s : State) (slot i : Nat) (f : Station → Station) : (modStation s slot i f).refs = s.refs := rfl
@[simp] theorem modStation_pwr (s : State) (slot i : Nat) (f : Station → Station) : (modStation s slot i f).pwr = s.pwr := rfl
@[simp] theorem modStation_thm (s : State) (slot i : Nat) (f : Station → Station) : (modStation s slot i f).thm = s.thm := rfl
@[simp] theorem modStation_hif (s : State) (slot i : Nat) (f : Station → Station) : (modStation s slot i f).hif = s.hif := rfl
@[simp] theorem modStation_tel (s : State) (slot i : Nat) (f : Station → Station) : (modStation s slot i f).tel = s.tel := rfl
@[simp] theorem modStation_sec (s : State) (slot i : Nat) (f : Station → Station) : (modStation s slot i f).sec = s.sec := rfl
@[simp] theorem modStation_cores (s : State) (slot i : Nat) (f : Station → Station) : (modStation s slot i f).cores = s.cores := rfl
@[simp] theorem modStation_clusters (s : State) (slot i : Nat) (f : Station → Station) : (modStation s slot i f).clusters = s.clusters := rfl
@[simp] theorem modStation_sfu (s : State) (slot i : Nat) (f : Station → Station) : (modStation s slot i f).sfu = s.sfu := rfl
@[simp] theorem modStation_kvc (s : State) (slot i : Nat) (f : Station → Station) : (modStation s slot i f).kvc = s.kvc := rfl
@[simp] theorem modStation_ssa (s : State) (slot i : Nat) (f : Station → Station) : (modStation s slot i f).ssa = s.ssa := rfl
@[simp] theorem modStation_chn (s : State) (slot i : Nat) (f : Station → Station) : (modStation s slot i f).chn = s.chn := rfl
@[simp] theorem modStation_col (s : State) (slot i : Nat) (f : Station → Station) : (modStation s slot i f).col = s.col := rfl
@[simp] theorem modStation_groups (s : State) (slot i : Nat) (f : Station → Station) : (modStation s slot i f).groups = s.groups := rfl
@[simp] theorem modStation_fab (s : State) (slot i : Nat) (f : Station → Station) : (modStation s slot i f).fab = s.fab := rfl
@[simp] theorem modStation_memc (s : State) (slot i : Nat) (f : Station → Station) : (modStation s slot i f).memc = s.memc := rfl
@[simp] theorem modStation_fls (s : State) (slot i : Nat) (f : Station → Station) : (modStation s slot i f).fls = s.fls := rfl
@[simp] theorem modStation_vse (s : State) (slot i : Nat) (f : Station → Station) : (modStation s slot i f).vse = s.vse := rfl

/-! ### `modQueue` -/

@[simp] theorem modQueue_pending (s : State) (slot q : Nat) (f : Queue → Queue) : (modQueue s slot q f).pending = s.pending := rfl
@[simp] theorem modQueue_now (s : State) (slot q : Nat) (f : Queue → Queue) : (modQueue s slot q f).now = s.now := rfl
@[simp] theorem modQueue_free (s : State) (slot q : Nat) (f : Queue → Queue) : (modQueue s slot q f).free = s.free := rfl
@[simp] theorem modQueue_mem (s : State) (slot q : Nat) (f : Queue → Queue) : (modQueue s slot q f).mem = s.mem := rfl
@[simp] theorem modQueue_poison (s : State) (slot q : Nat) (f : Queue → Queue) : (modQueue s slot q f).poison = s.poison := rfl
@[simp] theorem modQueue_soft (s : State) (slot q : Nat) (f : Queue → Queue) : (modQueue s slot q f).soft = s.soft := rfl
@[simp] theorem modQueue_hostMem (s : State) (slot q : Nat) (f : Queue → Queue) : (modQueue s slot q f).hostMem = s.hostMem := rfl
@[simp] theorem modQueue_hostAbsent (s : State) (slot q : Nat) (f : Queue → Queue) : (modQueue s slot q f).hostAbsent = s.hostAbsent := rfl
@[simp] theorem modQueue_refs (s : State) (slot q : Nat) (f : Queue → Queue) : (modQueue s slot q f).refs = s.refs := rfl
@[simp] theorem modQueue_pwr (s : State) (slot q : Nat) (f : Queue → Queue) : (modQueue s slot q f).pwr = s.pwr := rfl
@[simp] theorem modQueue_thm (s : State) (slot q : Nat) (f : Queue → Queue) : (modQueue s slot q f).thm = s.thm := rfl
@[simp] theorem modQueue_hif (s : State) (slot q : Nat) (f : Queue → Queue) : (modQueue s slot q f).hif = s.hif := rfl
@[simp] theorem modQueue_tel (s : State) (slot q : Nat) (f : Queue → Queue) : (modQueue s slot q f).tel = s.tel := rfl
@[simp] theorem modQueue_sec (s : State) (slot q : Nat) (f : Queue → Queue) : (modQueue s slot q f).sec = s.sec := rfl
@[simp] theorem modQueue_cores (s : State) (slot q : Nat) (f : Queue → Queue) : (modQueue s slot q f).cores = s.cores := rfl
@[simp] theorem modQueue_clusters (s : State) (slot q : Nat) (f : Queue → Queue) : (modQueue s slot q f).clusters = s.clusters := rfl
@[simp] theorem modQueue_sfu (s : State) (slot q : Nat) (f : Queue → Queue) : (modQueue s slot q f).sfu = s.sfu := rfl
@[simp] theorem modQueue_kvc (s : State) (slot q : Nat) (f : Queue → Queue) : (modQueue s slot q f).kvc = s.kvc := rfl
@[simp] theorem modQueue_ssa (s : State) (slot q : Nat) (f : Queue → Queue) : (modQueue s slot q f).ssa = s.ssa := rfl
@[simp] theorem modQueue_chn (s : State) (slot q : Nat) (f : Queue → Queue) : (modQueue s slot q f).chn = s.chn := rfl
@[simp] theorem modQueue_col (s : State) (slot q : Nat) (f : Queue → Queue) : (modQueue s slot q f).col = s.col := rfl
@[simp] theorem modQueue_groups (s : State) (slot q : Nat) (f : Queue → Queue) : (modQueue s slot q f).groups = s.groups := rfl
@[simp] theorem modQueue_fab (s : State) (slot q : Nat) (f : Queue → Queue) : (modQueue s slot q f).fab = s.fab := rfl
@[simp] theorem modQueue_memc (s : State) (slot q : Nat) (f : Queue → Queue) : (modQueue s slot q f).memc = s.memc := rfl
@[simp] theorem modQueue_fls (s : State) (slot q : Nat) (f : Queue → Queue) : (modQueue s slot q f).fls = s.fls := rfl
@[simp] theorem modQueue_vse (s : State) (slot q : Nat) (f : Queue → Queue) : (modQueue s slot q f).vse = s.vse := rfl

/-! ### `modRing` -/

@[simp] theorem modRing_pending (s : State) (fn r : Nat) (f : Ring → Ring) : (modRing s fn r f).pending = s.pending := rfl
@[simp] theorem modRing_now (s : State) (fn r : Nat) (f : Ring → Ring) : (modRing s fn r f).now = s.now := rfl
@[simp] theorem modRing_free (s : State) (fn r : Nat) (f : Ring → Ring) : (modRing s fn r f).free = s.free := rfl
@[simp] theorem modRing_mem (s : State) (fn r : Nat) (f : Ring → Ring) : (modRing s fn r f).mem = s.mem := rfl
@[simp] theorem modRing_poison (s : State) (fn r : Nat) (f : Ring → Ring) : (modRing s fn r f).poison = s.poison := rfl
@[simp] theorem modRing_soft (s : State) (fn r : Nat) (f : Ring → Ring) : (modRing s fn r f).soft = s.soft := rfl
@[simp] theorem modRing_hostMem (s : State) (fn r : Nat) (f : Ring → Ring) : (modRing s fn r f).hostMem = s.hostMem := rfl
@[simp] theorem modRing_hostAbsent (s : State) (fn r : Nat) (f : Ring → Ring) : (modRing s fn r f).hostAbsent = s.hostAbsent := rfl
@[simp] theorem modRing_refs (s : State) (fn r : Nat) (f : Ring → Ring) : (modRing s fn r f).refs = s.refs := rfl
@[simp] theorem modRing_pwr (s : State) (fn r : Nat) (f : Ring → Ring) : (modRing s fn r f).pwr = s.pwr := rfl
@[simp] theorem modRing_thm (s : State) (fn r : Nat) (f : Ring → Ring) : (modRing s fn r f).thm = s.thm := rfl
@[simp] theorem modRing_tel (s : State) (fn r : Nat) (f : Ring → Ring) : (modRing s fn r f).tel = s.tel := rfl
@[simp] theorem modRing_sec (s : State) (fn r : Nat) (f : Ring → Ring) : (modRing s fn r f).sec = s.sec := rfl
@[simp] theorem modRing_graphs (s : State) (fn r : Nat) (f : Ring → Ring) : (modRing s fn r f).graphs = s.graphs := rfl
@[simp] theorem modRing_cores (s : State) (fn r : Nat) (f : Ring → Ring) : (modRing s fn r f).cores = s.cores := rfl
@[simp] theorem modRing_clusters (s : State) (fn r : Nat) (f : Ring → Ring) : (modRing s fn r f).clusters = s.clusters := rfl
@[simp] theorem modRing_sfu (s : State) (fn r : Nat) (f : Ring → Ring) : (modRing s fn r f).sfu = s.sfu := rfl
@[simp] theorem modRing_kvc (s : State) (fn r : Nat) (f : Ring → Ring) : (modRing s fn r f).kvc = s.kvc := rfl
@[simp] theorem modRing_ssa (s : State) (fn r : Nat) (f : Ring → Ring) : (modRing s fn r f).ssa = s.ssa := rfl
@[simp] theorem modRing_chn (s : State) (fn r : Nat) (f : Ring → Ring) : (modRing s fn r f).chn = s.chn := rfl
@[simp] theorem modRing_col (s : State) (fn r : Nat) (f : Ring → Ring) : (modRing s fn r f).col = s.col := rfl
@[simp] theorem modRing_groups (s : State) (fn r : Nat) (f : Ring → Ring) : (modRing s fn r f).groups = s.groups := rfl
@[simp] theorem modRing_fab (s : State) (fn r : Nat) (f : Ring → Ring) : (modRing s fn r f).fab = s.fab := rfl
@[simp] theorem modRing_memc (s : State) (fn r : Nat) (f : Ring → Ring) : (modRing s fn r f).memc = s.memc := rfl
@[simp] theorem modRing_fls (s : State) (fn r : Nat) (f : Ring → Ring) : (modRing s fn r f).fls = s.fls := rfl
@[simp] theorem modRing_vse (s : State) (fn r : Nat) (f : Ring → Ring) : (modRing s fn r f).vse = s.vse := rfl

/-! ### `modLink` -/

@[simp] theorem modLink_pending (s : State) (l : Nat) (f : Link → Link) : (modLink s l f).pending = s.pending := rfl
@[simp] theorem modLink_now (s : State) (l : Nat) (f : Link → Link) : (modLink s l f).now = s.now := rfl
@[simp] theorem modLink_free (s : State) (l : Nat) (f : Link → Link) : (modLink s l f).free = s.free := rfl
@[simp] theorem modLink_mem (s : State) (l : Nat) (f : Link → Link) : (modLink s l f).mem = s.mem := rfl
@[simp] theorem modLink_poison (s : State) (l : Nat) (f : Link → Link) : (modLink s l f).poison = s.poison := rfl
@[simp] theorem modLink_soft (s : State) (l : Nat) (f : Link → Link) : (modLink s l f).soft = s.soft := rfl
@[simp] theorem modLink_hostMem (s : State) (l : Nat) (f : Link → Link) : (modLink s l f).hostMem = s.hostMem := rfl
@[simp] theorem modLink_hostAbsent (s : State) (l : Nat) (f : Link → Link) : (modLink s l f).hostAbsent = s.hostAbsent := rfl
@[simp] theorem modLink_refs (s : State) (l : Nat) (f : Link → Link) : (modLink s l f).refs = s.refs := rfl
@[simp] theorem modLink_pwr (s : State) (l : Nat) (f : Link → Link) : (modLink s l f).pwr = s.pwr := rfl
@[simp] theorem modLink_thm (s : State) (l : Nat) (f : Link → Link) : (modLink s l f).thm = s.thm := rfl
@[simp] theorem modLink_hif (s : State) (l : Nat) (f : Link → Link) : (modLink s l f).hif = s.hif := rfl
@[simp] theorem modLink_tel (s : State) (l : Nat) (f : Link → Link) : (modLink s l f).tel = s.tel := rfl
@[simp] theorem modLink_sec (s : State) (l : Nat) (f : Link → Link) : (modLink s l f).sec = s.sec := rfl
@[simp] theorem modLink_graphs (s : State) (l : Nat) (f : Link → Link) : (modLink s l f).graphs = s.graphs := rfl
@[simp] theorem modLink_cores (s : State) (l : Nat) (f : Link → Link) : (modLink s l f).cores = s.cores := rfl
@[simp] theorem modLink_clusters (s : State) (l : Nat) (f : Link → Link) : (modLink s l f).clusters = s.clusters := rfl
@[simp] theorem modLink_sfu (s : State) (l : Nat) (f : Link → Link) : (modLink s l f).sfu = s.sfu := rfl
@[simp] theorem modLink_kvc (s : State) (l : Nat) (f : Link → Link) : (modLink s l f).kvc = s.kvc := rfl
@[simp] theorem modLink_ssa (s : State) (l : Nat) (f : Link → Link) : (modLink s l f).ssa = s.ssa := rfl
@[simp] theorem modLink_chn (s : State) (l : Nat) (f : Link → Link) : (modLink s l f).chn = s.chn := rfl
@[simp] theorem modLink_col (s : State) (l : Nat) (f : Link → Link) : (modLink s l f).col = s.col := rfl
@[simp] theorem modLink_groups (s : State) (l : Nat) (f : Link → Link) : (modLink s l f).groups = s.groups := rfl
@[simp] theorem modLink_memc (s : State) (l : Nat) (f : Link → Link) : (modLink s l f).memc = s.memc := rfl
@[simp] theorem modLink_fls (s : State) (l : Nat) (f : Link → Link) : (modLink s l f).fls = s.fls := rfl
@[simp] theorem modLink_vse (s : State) (l : Nat) (f : Link → Link) : (modLink s l f).vse = s.vse := rfl

/-! ### `modRouter` -/

@[simp] theorem modRouter_pending (s : State) (d : Nat) (f : RouterCtr → RouterCtr) : (modRouter s d f).pending = s.pending := rfl
@[simp] theorem modRouter_now (s : State) (d : Nat) (f : RouterCtr → RouterCtr) : (modRouter s d f).now = s.now := rfl
@[simp] theorem modRouter_free (s : State) (d : Nat) (f : RouterCtr → RouterCtr) : (modRouter s d f).free = s.free := rfl
@[simp] theorem modRouter_mem (s : State) (d : Nat) (f : RouterCtr → RouterCtr) : (modRouter s d f).mem = s.mem := rfl
@[simp] theorem modRouter_poison (s : State) (d : Nat) (f : RouterCtr → RouterCtr) : (modRouter s d f).poison = s.poison := rfl
@[simp] theorem modRouter_soft (s : State) (d : Nat) (f : RouterCtr → RouterCtr) : (modRouter s d f).soft = s.soft := rfl
@[simp] theorem modRouter_hostMem (s : State) (d : Nat) (f : RouterCtr → RouterCtr) : (modRouter s d f).hostMem = s.hostMem := rfl
@[simp] theorem modRouter_hostAbsent (s : State) (d : Nat) (f : RouterCtr → RouterCtr) : (modRouter s d f).hostAbsent = s.hostAbsent := rfl
@[simp] theorem modRouter_refs (s : State) (d : Nat) (f : RouterCtr → RouterCtr) : (modRouter s d f).refs = s.refs := rfl
@[simp] theorem modRouter_pwr (s : State) (d : Nat) (f : RouterCtr → RouterCtr) : (modRouter s d f).pwr = s.pwr := rfl
@[simp] theorem modRouter_thm (s : State) (d : Nat) (f : RouterCtr → RouterCtr) : (modRouter s d f).thm = s.thm := rfl
@[simp] theorem modRouter_hif (s : State) (d : Nat) (f : RouterCtr → RouterCtr) : (modRouter s d f).hif = s.hif := rfl
@[simp] theorem modRouter_tel (s : State) (d : Nat) (f : RouterCtr → RouterCtr) : (modRouter s d f).tel = s.tel := rfl
@[simp] theorem modRouter_sec (s : State) (d : Nat) (f : RouterCtr → RouterCtr) : (modRouter s d f).sec = s.sec := rfl
@[simp] theorem modRouter_graphs (s : State) (d : Nat) (f : RouterCtr → RouterCtr) : (modRouter s d f).graphs = s.graphs := rfl
@[simp] theorem modRouter_cores (s : State) (d : Nat) (f : RouterCtr → RouterCtr) : (modRouter s d f).cores = s.cores := rfl
@[simp] theorem modRouter_clusters (s : State) (d : Nat) (f : RouterCtr → RouterCtr) : (modRouter s d f).clusters = s.clusters := rfl
@[simp] theorem modRouter_sfu (s : State) (d : Nat) (f : RouterCtr → RouterCtr) : (modRouter s d f).sfu = s.sfu := rfl
@[simp] theorem modRouter_kvc (s : State) (d : Nat) (f : RouterCtr → RouterCtr) : (modRouter s d f).kvc = s.kvc := rfl
@[simp] theorem modRouter_ssa (s : State) (d : Nat) (f : RouterCtr → RouterCtr) : (modRouter s d f).ssa = s.ssa := rfl
@[simp] theorem modRouter_chn (s : State) (d : Nat) (f : RouterCtr → RouterCtr) : (modRouter s d f).chn = s.chn := rfl
@[simp] theorem modRouter_col (s : State) (d : Nat) (f : RouterCtr → RouterCtr) : (modRouter s d f).col = s.col := rfl
@[simp] theorem modRouter_groups (s : State) (d : Nat) (f : RouterCtr → RouterCtr) : (modRouter s d f).groups = s.groups := rfl
@[simp] theorem modRouter_memc (s : State) (d : Nat) (f : RouterCtr → RouterCtr) : (modRouter s d f).memc = s.memc := rfl
@[simp] theorem modRouter_fls (s : State) (d : Nat) (f : RouterCtr → RouterCtr) : (modRouter s d f).fls = s.fls := rfl
@[simp] theorem modRouter_vse (s : State) (d : Nat) (f : RouterCtr → RouterCtr) : (modRouter s d f).vse = s.vse := rfl

/-! ### `modGroup` -/

@[simp] theorem modGroup_pending (s : State) (id : Nat) (f : Group → Group) : (modGroup s id f).pending = s.pending := rfl
@[simp] theorem modGroup_now (s : State) (id : Nat) (f : Group → Group) : (modGroup s id f).now = s.now := rfl
@[simp] theorem modGroup_free (s : State) (id : Nat) (f : Group → Group) : (modGroup s id f).free = s.free := rfl
@[simp] theorem modGroup_mem (s : State) (id : Nat) (f : Group → Group) : (modGroup s id f).mem = s.mem := rfl
@[simp] theorem modGroup_poison (s : State) (id : Nat) (f : Group → Group) : (modGroup s id f).poison = s.poison := rfl
@[simp] theorem modGroup_soft (s : State) (id : Nat) (f : Group → Group) : (modGroup s id f).soft = s.soft := rfl
@[simp] theorem modGroup_hostMem (s : State) (id : Nat) (f : Group → Group) : (modGroup s id f).hostMem = s.hostMem := rfl
@[simp] theorem modGroup_hostAbsent (s : State) (id : Nat) (f : Group → Group) : (modGroup s id f).hostAbsent = s.hostAbsent := rfl
@[simp] theorem modGroup_refs (s : State) (id : Nat) (f : Group → Group) : (modGroup s id f).refs = s.refs := rfl
@[simp] theorem modGroup_pwr (s : State) (id : Nat) (f : Group → Group) : (modGroup s id f).pwr = s.pwr := rfl
@[simp] theorem modGroup_thm (s : State) (id : Nat) (f : Group → Group) : (modGroup s id f).thm = s.thm := rfl
@[simp] theorem modGroup_hif (s : State) (id : Nat) (f : Group → Group) : (modGroup s id f).hif = s.hif := rfl
@[simp] theorem modGroup_tel (s : State) (id : Nat) (f : Group → Group) : (modGroup s id f).tel = s.tel := rfl
@[simp] theorem modGroup_sec (s : State) (id : Nat) (f : Group → Group) : (modGroup s id f).sec = s.sec := rfl
@[simp] theorem modGroup_graphs (s : State) (id : Nat) (f : Group → Group) : (modGroup s id f).graphs = s.graphs := rfl
@[simp] theorem modGroup_cores (s : State) (id : Nat) (f : Group → Group) : (modGroup s id f).cores = s.cores := rfl
@[simp] theorem modGroup_clusters (s : State) (id : Nat) (f : Group → Group) : (modGroup s id f).clusters = s.clusters := rfl
@[simp] theorem modGroup_sfu (s : State) (id : Nat) (f : Group → Group) : (modGroup s id f).sfu = s.sfu := rfl
@[simp] theorem modGroup_kvc (s : State) (id : Nat) (f : Group → Group) : (modGroup s id f).kvc = s.kvc := rfl
@[simp] theorem modGroup_ssa (s : State) (id : Nat) (f : Group → Group) : (modGroup s id f).ssa = s.ssa := rfl
@[simp] theorem modGroup_chn (s : State) (id : Nat) (f : Group → Group) : (modGroup s id f).chn = s.chn := rfl
@[simp] theorem modGroup_col (s : State) (id : Nat) (f : Group → Group) : (modGroup s id f).col = s.col := rfl
@[simp] theorem modGroup_fab (s : State) (id : Nat) (f : Group → Group) : (modGroup s id f).fab = s.fab := rfl
@[simp] theorem modGroup_memc (s : State) (id : Nat) (f : Group → Group) : (modGroup s id f).memc = s.memc := rfl
@[simp] theorem modGroup_fls (s : State) (id : Nat) (f : Group → Group) : (modGroup s id f).fls = s.fls := rfl
@[simp] theorem modGroup_vse (s : State) (id : Nat) (f : Group → Group) : (modGroup s id f).vse = s.vse := rfl

/-! ### `modChn` -/

@[simp] theorem modChn_pending (s : State) (i : Nat) (f : ChnCtx → ChnCtx) : (modChn s i f).pending = s.pending := rfl
@[simp] theorem modChn_now (s : State) (i : Nat) (f : ChnCtx → ChnCtx) : (modChn s i f).now = s.now := rfl
@[simp] theorem modChn_free (s : State) (i : Nat) (f : ChnCtx → ChnCtx) : (modChn s i f).free = s.free := rfl
@[simp] theorem modChn_mem (s : State) (i : Nat) (f : ChnCtx → ChnCtx) : (modChn s i f).mem = s.mem := rfl
@[simp] theorem modChn_poison (s : State) (i : Nat) (f : ChnCtx → ChnCtx) : (modChn s i f).poison = s.poison := rfl
@[simp] theorem modChn_soft (s : State) (i : Nat) (f : ChnCtx → ChnCtx) : (modChn s i f).soft = s.soft := rfl
@[simp] theorem modChn_hostMem (s : State) (i : Nat) (f : ChnCtx → ChnCtx) : (modChn s i f).hostMem = s.hostMem := rfl
@[simp] theorem modChn_hostAbsent (s : State) (i : Nat) (f : ChnCtx → ChnCtx) : (modChn s i f).hostAbsent = s.hostAbsent := rfl
@[simp] theorem modChn_refs (s : State) (i : Nat) (f : ChnCtx → ChnCtx) : (modChn s i f).refs = s.refs := rfl
@[simp] theorem modChn_pwr (s : State) (i : Nat) (f : ChnCtx → ChnCtx) : (modChn s i f).pwr = s.pwr := rfl
@[simp] theorem modChn_thm (s : State) (i : Nat) (f : ChnCtx → ChnCtx) : (modChn s i f).thm = s.thm := rfl
@[simp] theorem modChn_hif (s : State) (i : Nat) (f : ChnCtx → ChnCtx) : (modChn s i f).hif = s.hif := rfl
@[simp] theorem modChn_tel (s : State) (i : Nat) (f : ChnCtx → ChnCtx) : (modChn s i f).tel = s.tel := rfl
@[simp] theorem modChn_sec (s : State) (i : Nat) (f : ChnCtx → ChnCtx) : (modChn s i f).sec = s.sec := rfl
@[simp] theorem modChn_graphs (s : State) (i : Nat) (f : ChnCtx → ChnCtx) : (modChn s i f).graphs = s.graphs := rfl
@[simp] theorem modChn_cores (s : State) (i : Nat) (f : ChnCtx → ChnCtx) : (modChn s i f).cores = s.cores := rfl
@[simp] theorem modChn_clusters (s : State) (i : Nat) (f : ChnCtx → ChnCtx) : (modChn s i f).clusters = s.clusters := rfl
@[simp] theorem modChn_sfu (s : State) (i : Nat) (f : ChnCtx → ChnCtx) : (modChn s i f).sfu = s.sfu := rfl
@[simp] theorem modChn_kvc (s : State) (i : Nat) (f : ChnCtx → ChnCtx) : (modChn s i f).kvc = s.kvc := rfl
@[simp] theorem modChn_ssa (s : State) (i : Nat) (f : ChnCtx → ChnCtx) : (modChn s i f).ssa = s.ssa := rfl
@[simp] theorem modChn_col (s : State) (i : Nat) (f : ChnCtx → ChnCtx) : (modChn s i f).col = s.col := rfl
@[simp] theorem modChn_groups (s : State) (i : Nat) (f : ChnCtx → ChnCtx) : (modChn s i f).groups = s.groups := rfl
@[simp] theorem modChn_fab (s : State) (i : Nat) (f : ChnCtx → ChnCtx) : (modChn s i f).fab = s.fab := rfl
@[simp] theorem modChn_memc (s : State) (i : Nat) (f : ChnCtx → ChnCtx) : (modChn s i f).memc = s.memc := rfl
@[simp] theorem modChn_fls (s : State) (i : Nat) (f : ChnCtx → ChnCtx) : (modChn s i f).fls = s.fls := rfl
@[simp] theorem modChn_vse (s : State) (i : Nat) (f : ChnCtx → ChnCtx) : (modChn s i f).vse = s.vse := rfl

/-! ### `modWc` -/

@[simp] theorem modWc_pending (s : State) (c : Nat) (f : WorkCtr → WorkCtr) : (modWc s c f).pending = s.pending := rfl
@[simp] theorem modWc_now (s : State) (c : Nat) (f : WorkCtr → WorkCtr) : (modWc s c f).now = s.now := rfl
@[simp] theorem modWc_free (s : State) (c : Nat) (f : WorkCtr → WorkCtr) : (modWc s c f).free = s.free := rfl
@[simp] theorem modWc_mem (s : State) (c : Nat) (f : WorkCtr → WorkCtr) : (modWc s c f).mem = s.mem := rfl
@[simp] theorem modWc_poison (s : State) (c : Nat) (f : WorkCtr → WorkCtr) : (modWc s c f).poison = s.poison := rfl
@[simp] theorem modWc_soft (s : State) (c : Nat) (f : WorkCtr → WorkCtr) : (modWc s c f).soft = s.soft := rfl
@[simp] theorem modWc_hostMem (s : State) (c : Nat) (f : WorkCtr → WorkCtr) : (modWc s c f).hostMem = s.hostMem := rfl
@[simp] theorem modWc_hostAbsent (s : State) (c : Nat) (f : WorkCtr → WorkCtr) : (modWc s c f).hostAbsent = s.hostAbsent := rfl
@[simp] theorem modWc_refs (s : State) (c : Nat) (f : WorkCtr → WorkCtr) : (modWc s c f).refs = s.refs := rfl
@[simp] theorem modWc_pwr (s : State) (c : Nat) (f : WorkCtr → WorkCtr) : (modWc s c f).pwr = s.pwr := rfl
@[simp] theorem modWc_thm (s : State) (c : Nat) (f : WorkCtr → WorkCtr) : (modWc s c f).thm = s.thm := rfl
@[simp] theorem modWc_hif (s : State) (c : Nat) (f : WorkCtr → WorkCtr) : (modWc s c f).hif = s.hif := rfl
@[simp] theorem modWc_tel (s : State) (c : Nat) (f : WorkCtr → WorkCtr) : (modWc s c f).tel = s.tel := rfl
@[simp] theorem modWc_sec (s : State) (c : Nat) (f : WorkCtr → WorkCtr) : (modWc s c f).sec = s.sec := rfl
@[simp] theorem modWc_graphs (s : State) (c : Nat) (f : WorkCtr → WorkCtr) : (modWc s c f).graphs = s.graphs := rfl
@[simp] theorem modWc_cores (s : State) (c : Nat) (f : WorkCtr → WorkCtr) : (modWc s c f).cores = s.cores := rfl
@[simp] theorem modWc_sfu (s : State) (c : Nat) (f : WorkCtr → WorkCtr) : (modWc s c f).sfu = s.sfu := rfl
@[simp] theorem modWc_kvc (s : State) (c : Nat) (f : WorkCtr → WorkCtr) : (modWc s c f).kvc = s.kvc := rfl
@[simp] theorem modWc_ssa (s : State) (c : Nat) (f : WorkCtr → WorkCtr) : (modWc s c f).ssa = s.ssa := rfl
@[simp] theorem modWc_chn (s : State) (c : Nat) (f : WorkCtr → WorkCtr) : (modWc s c f).chn = s.chn := rfl
@[simp] theorem modWc_col (s : State) (c : Nat) (f : WorkCtr → WorkCtr) : (modWc s c f).col = s.col := rfl
@[simp] theorem modWc_groups (s : State) (c : Nat) (f : WorkCtr → WorkCtr) : (modWc s c f).groups = s.groups := rfl
@[simp] theorem modWc_fab (s : State) (c : Nat) (f : WorkCtr → WorkCtr) : (modWc s c f).fab = s.fab := rfl
@[simp] theorem modWc_memc (s : State) (c : Nat) (f : WorkCtr → WorkCtr) : (modWc s c f).memc = s.memc := rfl
@[simp] theorem modWc_fls (s : State) (c : Nat) (f : WorkCtr → WorkCtr) : (modWc s c f).fls = s.fls := rfl
@[simp] theorem modWc_vse (s : State) (c : Nat) (f : WorkCtr → WorkCtr) : (modWc s c f).vse = s.vse := rfl

/-! ### `modMem` -/

@[simp] theorem modMem_pending (s : State) (f : MemCtl → MemCtl) : (modMem s f).pending = s.pending := rfl
@[simp] theorem modMem_now (s : State) (f : MemCtl → MemCtl) : (modMem s f).now = s.now := rfl
@[simp] theorem modMem_free (s : State) (f : MemCtl → MemCtl) : (modMem s f).free = s.free := rfl
@[simp] theorem modMem_mem (s : State) (f : MemCtl → MemCtl) : (modMem s f).mem = s.mem := rfl
@[simp] theorem modMem_poison (s : State) (f : MemCtl → MemCtl) : (modMem s f).poison = s.poison := rfl
@[simp] theorem modMem_soft (s : State) (f : MemCtl → MemCtl) : (modMem s f).soft = s.soft := rfl
@[simp] theorem modMem_hostMem (s : State) (f : MemCtl → MemCtl) : (modMem s f).hostMem = s.hostMem := rfl
@[simp] theorem modMem_hostAbsent (s : State) (f : MemCtl → MemCtl) : (modMem s f).hostAbsent = s.hostAbsent := rfl
@[simp] theorem modMem_refs (s : State) (f : MemCtl → MemCtl) : (modMem s f).refs = s.refs := rfl
@[simp] theorem modMem_pwr (s : State) (f : MemCtl → MemCtl) : (modMem s f).pwr = s.pwr := rfl
@[simp] theorem modMem_thm (s : State) (f : MemCtl → MemCtl) : (modMem s f).thm = s.thm := rfl
@[simp] theorem modMem_hif (s : State) (f : MemCtl → MemCtl) : (modMem s f).hif = s.hif := rfl
@[simp] theorem modMem_tel (s : State) (f : MemCtl → MemCtl) : (modMem s f).tel = s.tel := rfl
@[simp] theorem modMem_sec (s : State) (f : MemCtl → MemCtl) : (modMem s f).sec = s.sec := rfl
@[simp] theorem modMem_graphs (s : State) (f : MemCtl → MemCtl) : (modMem s f).graphs = s.graphs := rfl
@[simp] theorem modMem_cores (s : State) (f : MemCtl → MemCtl) : (modMem s f).cores = s.cores := rfl
@[simp] theorem modMem_clusters (s : State) (f : MemCtl → MemCtl) : (modMem s f).clusters = s.clusters := rfl
@[simp] theorem modMem_sfu (s : State) (f : MemCtl → MemCtl) : (modMem s f).sfu = s.sfu := rfl
@[simp] theorem modMem_kvc (s : State) (f : MemCtl → MemCtl) : (modMem s f).kvc = s.kvc := rfl
@[simp] theorem modMem_ssa (s : State) (f : MemCtl → MemCtl) : (modMem s f).ssa = s.ssa := rfl
@[simp] theorem modMem_chn (s : State) (f : MemCtl → MemCtl) : (modMem s f).chn = s.chn := rfl
@[simp] theorem modMem_col (s : State) (f : MemCtl → MemCtl) : (modMem s f).col = s.col := rfl
@[simp] theorem modMem_groups (s : State) (f : MemCtl → MemCtl) : (modMem s f).groups = s.groups := rfl
@[simp] theorem modMem_fab (s : State) (f : MemCtl → MemCtl) : (modMem s f).fab = s.fab := rfl
@[simp] theorem modMem_fls (s : State) (f : MemCtl → MemCtl) : (modMem s f).fls = s.fls := rfl
@[simp] theorem modMem_vse (s : State) (f : MemCtl → MemCtl) : (modMem s f).vse = s.vse := rfl

/-! ### `modPwr` -/

@[simp] theorem modPwr_pending (s : State) (f : Pwr → Pwr) : (modPwr s f).pending = s.pending := rfl
@[simp] theorem modPwr_now (s : State) (f : Pwr → Pwr) : (modPwr s f).now = s.now := rfl
@[simp] theorem modPwr_free (s : State) (f : Pwr → Pwr) : (modPwr s f).free = s.free := rfl
@[simp] theorem modPwr_mem (s : State) (f : Pwr → Pwr) : (modPwr s f).mem = s.mem := rfl
@[simp] theorem modPwr_poison (s : State) (f : Pwr → Pwr) : (modPwr s f).poison = s.poison := rfl
@[simp] theorem modPwr_soft (s : State) (f : Pwr → Pwr) : (modPwr s f).soft = s.soft := rfl
@[simp] theorem modPwr_hostMem (s : State) (f : Pwr → Pwr) : (modPwr s f).hostMem = s.hostMem := rfl
@[simp] theorem modPwr_hostAbsent (s : State) (f : Pwr → Pwr) : (modPwr s f).hostAbsent = s.hostAbsent := rfl
@[simp] theorem modPwr_refs (s : State) (f : Pwr → Pwr) : (modPwr s f).refs = s.refs := rfl
@[simp] theorem modPwr_thm (s : State) (f : Pwr → Pwr) : (modPwr s f).thm = s.thm := rfl
@[simp] theorem modPwr_hif (s : State) (f : Pwr → Pwr) : (modPwr s f).hif = s.hif := rfl
@[simp] theorem modPwr_tel (s : State) (f : Pwr → Pwr) : (modPwr s f).tel = s.tel := rfl
@[simp] theorem modPwr_sec (s : State) (f : Pwr → Pwr) : (modPwr s f).sec = s.sec := rfl
@[simp] theorem modPwr_graphs (s : State) (f : Pwr → Pwr) : (modPwr s f).graphs = s.graphs := rfl
@[simp] theorem modPwr_cores (s : State) (f : Pwr → Pwr) : (modPwr s f).cores = s.cores := rfl
@[simp] theorem modPwr_clusters (s : State) (f : Pwr → Pwr) : (modPwr s f).clusters = s.clusters := rfl
@[simp] theorem modPwr_sfu (s : State) (f : Pwr → Pwr) : (modPwr s f).sfu = s.sfu := rfl
@[simp] theorem modPwr_kvc (s : State) (f : Pwr → Pwr) : (modPwr s f).kvc = s.kvc := rfl
@[simp] theorem modPwr_ssa (s : State) (f : Pwr → Pwr) : (modPwr s f).ssa = s.ssa := rfl
@[simp] theorem modPwr_chn (s : State) (f : Pwr → Pwr) : (modPwr s f).chn = s.chn := rfl
@[simp] theorem modPwr_col (s : State) (f : Pwr → Pwr) : (modPwr s f).col = s.col := rfl
@[simp] theorem modPwr_groups (s : State) (f : Pwr → Pwr) : (modPwr s f).groups = s.groups := rfl
@[simp] theorem modPwr_fab (s : State) (f : Pwr → Pwr) : (modPwr s f).fab = s.fab := rfl
@[simp] theorem modPwr_memc (s : State) (f : Pwr → Pwr) : (modPwr s f).memc = s.memc := rfl
@[simp] theorem modPwr_fls (s : State) (f : Pwr → Pwr) : (modPwr s f).fls = s.fls := rfl
@[simp] theorem modPwr_vse (s : State) (f : Pwr → Pwr) : (modPwr s f).vse = s.vse := rfl

/-! ### `modThm` -/

@[simp] theorem modThm_pending (s : State) (f : Thm → Thm) : (modThm s f).pending = s.pending := rfl
@[simp] theorem modThm_now (s : State) (f : Thm → Thm) : (modThm s f).now = s.now := rfl
@[simp] theorem modThm_free (s : State) (f : Thm → Thm) : (modThm s f).free = s.free := rfl
@[simp] theorem modThm_mem (s : State) (f : Thm → Thm) : (modThm s f).mem = s.mem := rfl
@[simp] theorem modThm_poison (s : State) (f : Thm → Thm) : (modThm s f).poison = s.poison := rfl
@[simp] theorem modThm_soft (s : State) (f : Thm → Thm) : (modThm s f).soft = s.soft := rfl
@[simp] theorem modThm_hostMem (s : State) (f : Thm → Thm) : (modThm s f).hostMem = s.hostMem := rfl
@[simp] theorem modThm_hostAbsent (s : State) (f : Thm → Thm) : (modThm s f).hostAbsent = s.hostAbsent := rfl
@[simp] theorem modThm_refs (s : State) (f : Thm → Thm) : (modThm s f).refs = s.refs := rfl
@[simp] theorem modThm_pwr (s : State) (f : Thm → Thm) : (modThm s f).pwr = s.pwr := rfl
@[simp] theorem modThm_hif (s : State) (f : Thm → Thm) : (modThm s f).hif = s.hif := rfl
@[simp] theorem modThm_tel (s : State) (f : Thm → Thm) : (modThm s f).tel = s.tel := rfl
@[simp] theorem modThm_sec (s : State) (f : Thm → Thm) : (modThm s f).sec = s.sec := rfl
@[simp] theorem modThm_graphs (s : State) (f : Thm → Thm) : (modThm s f).graphs = s.graphs := rfl
@[simp] theorem modThm_cores (s : State) (f : Thm → Thm) : (modThm s f).cores = s.cores := rfl
@[simp] theorem modThm_clusters (s : State) (f : Thm → Thm) : (modThm s f).clusters = s.clusters := rfl
@[simp] theorem modThm_sfu (s : State) (f : Thm → Thm) : (modThm s f).sfu = s.sfu := rfl
@[simp] theorem modThm_kvc (s : State) (f : Thm → Thm) : (modThm s f).kvc = s.kvc := rfl
@[simp] theorem modThm_ssa (s : State) (f : Thm → Thm) : (modThm s f).ssa = s.ssa := rfl
@[simp] theorem modThm_chn (s : State) (f : Thm → Thm) : (modThm s f).chn = s.chn := rfl
@[simp] theorem modThm_col (s : State) (f : Thm → Thm) : (modThm s f).col = s.col := rfl
@[simp] theorem modThm_groups (s : State) (f : Thm → Thm) : (modThm s f).groups = s.groups := rfl
@[simp] theorem modThm_fab (s : State) (f : Thm → Thm) : (modThm s f).fab = s.fab := rfl
@[simp] theorem modThm_memc (s : State) (f : Thm → Thm) : (modThm s f).memc = s.memc := rfl
@[simp] theorem modThm_fls (s : State) (f : Thm → Thm) : (modThm s f).fls = s.fls := rfl
@[simp] theorem modThm_vse (s : State) (f : Thm → Thm) : (modThm s f).vse = s.vse := rfl

/-! ### `modSec` -/

@[simp] theorem modSec_pending (s : State) (f : Sec → Sec) : (modSec s f).pending = s.pending := rfl
@[simp] theorem modSec_now (s : State) (f : Sec → Sec) : (modSec s f).now = s.now := rfl
@[simp] theorem modSec_free (s : State) (f : Sec → Sec) : (modSec s f).free = s.free := rfl
@[simp] theorem modSec_mem (s : State) (f : Sec → Sec) : (modSec s f).mem = s.mem := rfl
@[simp] theorem modSec_poison (s : State) (f : Sec → Sec) : (modSec s f).poison = s.poison := rfl
@[simp] theorem modSec_soft (s : State) (f : Sec → Sec) : (modSec s f).soft = s.soft := rfl
@[simp] theorem modSec_hostMem (s : State) (f : Sec → Sec) : (modSec s f).hostMem = s.hostMem := rfl
@[simp] theorem modSec_hostAbsent (s : State) (f : Sec → Sec) : (modSec s f).hostAbsent = s.hostAbsent := rfl
@[simp] theorem modSec_refs (s : State) (f : Sec → Sec) : (modSec s f).refs = s.refs := rfl
@[simp] theorem modSec_pwr (s : State) (f : Sec → Sec) : (modSec s f).pwr = s.pwr := rfl
@[simp] theorem modSec_thm (s : State) (f : Sec → Sec) : (modSec s f).thm = s.thm := rfl
@[simp] theorem modSec_hif (s : State) (f : Sec → Sec) : (modSec s f).hif = s.hif := rfl
@[simp] theorem modSec_tel (s : State) (f : Sec → Sec) : (modSec s f).tel = s.tel := rfl
@[simp] theorem modSec_graphs (s : State) (f : Sec → Sec) : (modSec s f).graphs = s.graphs := rfl
@[simp] theorem modSec_cores (s : State) (f : Sec → Sec) : (modSec s f).cores = s.cores := rfl
@[simp] theorem modSec_clusters (s : State) (f : Sec → Sec) : (modSec s f).clusters = s.clusters := rfl
@[simp] theorem modSec_sfu (s : State) (f : Sec → Sec) : (modSec s f).sfu = s.sfu := rfl
@[simp] theorem modSec_kvc (s : State) (f : Sec → Sec) : (modSec s f).kvc = s.kvc := rfl
@[simp] theorem modSec_ssa (s : State) (f : Sec → Sec) : (modSec s f).ssa = s.ssa := rfl
@[simp] theorem modSec_chn (s : State) (f : Sec → Sec) : (modSec s f).chn = s.chn := rfl
@[simp] theorem modSec_col (s : State) (f : Sec → Sec) : (modSec s f).col = s.col := rfl
@[simp] theorem modSec_groups (s : State) (f : Sec → Sec) : (modSec s f).groups = s.groups := rfl
@[simp] theorem modSec_fab (s : State) (f : Sec → Sec) : (modSec s f).fab = s.fab := rfl
@[simp] theorem modSec_memc (s : State) (f : Sec → Sec) : (modSec s f).memc = s.memc := rfl
@[simp] theorem modSec_fls (s : State) (f : Sec → Sec) : (modSec s f).fls = s.fls := rfl
@[simp] theorem modSec_vse (s : State) (f : Sec → Sec) : (modSec s f).vse = s.vse := rfl

/-! ### `modTel` -/

@[simp] theorem modTel_pending (s : State) (f : Tel → Tel) : (modTel s f).pending = s.pending := rfl
@[simp] theorem modTel_now (s : State) (f : Tel → Tel) : (modTel s f).now = s.now := rfl
@[simp] theorem modTel_free (s : State) (f : Tel → Tel) : (modTel s f).free = s.free := rfl
@[simp] theorem modTel_mem (s : State) (f : Tel → Tel) : (modTel s f).mem = s.mem := rfl
@[simp] theorem modTel_poison (s : State) (f : Tel → Tel) : (modTel s f).poison = s.poison := rfl
@[simp] theorem modTel_soft (s : State) (f : Tel → Tel) : (modTel s f).soft = s.soft := rfl
@[simp] theorem modTel_hostMem (s : State) (f : Tel → Tel) : (modTel s f).hostMem = s.hostMem := rfl
@[simp] theorem modTel_hostAbsent (s : State) (f : Tel → Tel) : (modTel s f).hostAbsent = s.hostAbsent := rfl
@[simp] theorem modTel_refs (s : State) (f : Tel → Tel) : (modTel s f).refs = s.refs := rfl
@[simp] theorem modTel_pwr (s : State) (f : Tel → Tel) : (modTel s f).pwr = s.pwr := rfl
@[simp] theorem modTel_thm (s : State) (f : Tel → Tel) : (modTel s f).thm = s.thm := rfl
@[simp] theorem modTel_hif (s : State) (f : Tel → Tel) : (modTel s f).hif = s.hif := rfl
@[simp] theorem modTel_sec (s : State) (f : Tel → Tel) : (modTel s f).sec = s.sec := rfl
@[simp] theorem modTel_graphs (s : State) (f : Tel → Tel) : (modTel s f).graphs = s.graphs := rfl
@[simp] theorem modTel_cores (s : State) (f : Tel → Tel) : (modTel s f).cores = s.cores := rfl
@[simp] theorem modTel_clusters (s : State) (f : Tel → Tel) : (modTel s f).clusters = s.clusters := rfl
@[simp] theorem modTel_sfu (s : State) (f : Tel → Tel) : (modTel s f).sfu = s.sfu := rfl
@[simp] theorem modTel_kvc (s : State) (f : Tel → Tel) : (modTel s f).kvc = s.kvc := rfl
@[simp] theorem modTel_ssa (s : State) (f : Tel → Tel) : (modTel s f).ssa = s.ssa := rfl
@[simp] theorem modTel_chn (s : State) (f : Tel → Tel) : (modTel s f).chn = s.chn := rfl
@[simp] theorem modTel_col (s : State) (f : Tel → Tel) : (modTel s f).col = s.col := rfl
@[simp] theorem modTel_groups (s : State) (f : Tel → Tel) : (modTel s f).groups = s.groups := rfl
@[simp] theorem modTel_fab (s : State) (f : Tel → Tel) : (modTel s f).fab = s.fab := rfl
@[simp] theorem modTel_memc (s : State) (f : Tel → Tel) : (modTel s f).memc = s.memc := rfl
@[simp] theorem modTel_fls (s : State) (f : Tel → Tel) : (modTel s f).fls = s.fls := rfl
@[simp] theorem modTel_vse (s : State) (f : Tel → Tel) : (modTel s f).vse = s.vse := rfl

/-! ### `tick1` -/

@[simp] theorem tick1_pending (s : State) : (tick1 s).pending = s.pending := rfl
@[simp] theorem tick1_now (s : State) : (tick1 s).now = s.now := rfl
@[simp] theorem tick1_mem (s : State) : (tick1 s).mem = s.mem := rfl
@[simp] theorem tick1_poison (s : State) : (tick1 s).poison = s.poison := rfl
@[simp] theorem tick1_soft (s : State) : (tick1 s).soft = s.soft := rfl
@[simp] theorem tick1_hostMem (s : State) : (tick1 s).hostMem = s.hostMem := rfl
@[simp] theorem tick1_hostAbsent (s : State) : (tick1 s).hostAbsent = s.hostAbsent := rfl
@[simp] theorem tick1_refs (s : State) : (tick1 s).refs = s.refs := rfl
@[simp] theorem tick1_pwr (s : State) : (tick1 s).pwr = s.pwr := rfl
@[simp] theorem tick1_thm (s : State) : (tick1 s).thm = s.thm := rfl
@[simp] theorem tick1_hif (s : State) : (tick1 s).hif = s.hif := rfl
@[simp] theorem tick1_tel (s : State) : (tick1 s).tel = s.tel := rfl
@[simp] theorem tick1_sec (s : State) : (tick1 s).sec = s.sec := rfl
@[simp] theorem tick1_graphs (s : State) : (tick1 s).graphs = s.graphs := rfl
@[simp] theorem tick1_cores (s : State) : (tick1 s).cores = s.cores := rfl
@[simp] theorem tick1_clusters (s : State) : (tick1 s).clusters = s.clusters := rfl
@[simp] theorem tick1_sfu (s : State) : (tick1 s).sfu = s.sfu := rfl
@[simp] theorem tick1_kvc (s : State) : (tick1 s).kvc = s.kvc := rfl
@[simp] theorem tick1_ssa (s : State) : (tick1 s).ssa = s.ssa := rfl
@[simp] theorem tick1_chn (s : State) : (tick1 s).chn = s.chn := rfl
@[simp] theorem tick1_col (s : State) : (tick1 s).col = s.col := rfl
@[simp] theorem tick1_groups (s : State) : (tick1 s).groups = s.groups := rfl
@[simp] theorem tick1_fab (s : State) : (tick1 s).fab = s.fab := rfl
@[simp] theorem tick1_memc (s : State) : (tick1 s).memc = s.memc := rfl
@[simp] theorem tick1_fls (s : State) : (tick1 s).fls = s.fls := rfl
@[simp] theorem tick1_vse (s : State) : (tick1 s).vse = s.vse := rfl

/-! ### `setRef` -/

@[simp] theorem setRef_pending (s : State) (a n : Nat) : (setRef s a n).pending = s.pending := rfl
@[simp] theorem setRef_now (s : State) (a n : Nat) : (setRef s a n).now = s.now := rfl
@[simp] theorem setRef_free (s : State) (a n : Nat) : (setRef s a n).free = s.free := rfl
@[simp] theorem setRef_mem (s : State) (a n : Nat) : (setRef s a n).mem = s.mem := rfl
@[simp] theorem setRef_poison (s : State) (a n : Nat) : (setRef s a n).poison = s.poison := rfl
@[simp] theorem setRef_soft (s : State) (a n : Nat) : (setRef s a n).soft = s.soft := rfl
@[simp] theorem setRef_hostMem (s : State) (a n : Nat) : (setRef s a n).hostMem = s.hostMem := rfl
@[simp] theorem setRef_hostAbsent (s : State) (a n : Nat) : (setRef s a n).hostAbsent = s.hostAbsent := rfl
@[simp] theorem setRef_pwr (s : State) (a n : Nat) : (setRef s a n).pwr = s.pwr := rfl
@[simp] theorem setRef_thm (s : State) (a n : Nat) : (setRef s a n).thm = s.thm := rfl
@[simp] theorem setRef_hif (s : State) (a n : Nat) : (setRef s a n).hif = s.hif := rfl
@[simp] theorem setRef_tel (s : State) (a n : Nat) : (setRef s a n).tel = s.tel := rfl
@[simp] theorem setRef_sec (s : State) (a n : Nat) : (setRef s a n).sec = s.sec := rfl
@[simp] theorem setRef_graphs (s : State) (a n : Nat) : (setRef s a n).graphs = s.graphs := rfl
@[simp] theorem setRef_cores (s : State) (a n : Nat) : (setRef s a n).cores = s.cores := rfl
@[simp] theorem setRef_clusters (s : State) (a n : Nat) : (setRef s a n).clusters = s.clusters := rfl
@[simp] theorem setRef_sfu (s : State) (a n : Nat) : (setRef s a n).sfu = s.sfu := rfl
@[simp] theorem setRef_kvc (s : State) (a n : Nat) : (setRef s a n).kvc = s.kvc := rfl
@[simp] theorem setRef_ssa (s : State) (a n : Nat) : (setRef s a n).ssa = s.ssa := rfl
@[simp] theorem setRef_chn (s : State) (a n : Nat) : (setRef s a n).chn = s.chn := rfl
@[simp] theorem setRef_col (s : State) (a n : Nat) : (setRef s a n).col = s.col := rfl
@[simp] theorem setRef_groups (s : State) (a n : Nat) : (setRef s a n).groups = s.groups := rfl
@[simp] theorem setRef_fab (s : State) (a n : Nat) : (setRef s a n).fab = s.fab := rfl
@[simp] theorem setRef_memc (s : State) (a n : Nat) : (setRef s a n).memc = s.memc := rfl
@[simp] theorem setRef_fls (s : State) (a n : Nat) : (setRef s a n).fls = s.fls := rfl
@[simp] theorem setRef_vse (s : State) (a n : Nat) : (setRef s a n).vse = s.vse := rfl

/-! ### `modPoolK` -/

@[simp] theorem modPoolK_pending (s : State) (pool : Nat) (f : FramePool → FramePool) : (modPoolK s pool f).pending = s.pending := rfl
@[simp] theorem modPoolK_now (s : State) (pool : Nat) (f : FramePool → FramePool) : (modPoolK s pool f).now = s.now := rfl
@[simp] theorem modPoolK_free (s : State) (pool : Nat) (f : FramePool → FramePool) : (modPoolK s pool f).free = s.free := rfl
@[simp] theorem modPoolK_mem (s : State) (pool : Nat) (f : FramePool → FramePool) : (modPoolK s pool f).mem = s.mem := rfl
@[simp] theorem modPoolK_poison (s : State) (pool : Nat) (f : FramePool → FramePool) : (modPoolK s pool f).poison = s.poison := rfl
@[simp] theorem modPoolK_soft (s : State) (pool : Nat) (f : FramePool → FramePool) : (modPoolK s pool f).soft = s.soft := rfl
@[simp] theorem modPoolK_hostMem (s : State) (pool : Nat) (f : FramePool → FramePool) : (modPoolK s pool f).hostMem = s.hostMem := rfl
@[simp] theorem modPoolK_hostAbsent (s : State) (pool : Nat) (f : FramePool → FramePool) : (modPoolK s pool f).hostAbsent = s.hostAbsent := rfl
@[simp] theorem modPoolK_refs (s : State) (pool : Nat) (f : FramePool → FramePool) : (modPoolK s pool f).refs = s.refs := rfl
@[simp] theorem modPoolK_pwr (s : State) (pool : Nat) (f : FramePool → FramePool) : (modPoolK s pool f).pwr = s.pwr := rfl
@[simp] theorem modPoolK_thm (s : State) (pool : Nat) (f : FramePool → FramePool) : (modPoolK s pool f).thm = s.thm := rfl
@[simp] theorem modPoolK_hif (s : State) (pool : Nat) (f : FramePool → FramePool) : (modPoolK s pool f).hif = s.hif := rfl
@[simp] theorem modPoolK_tel (s : State) (pool : Nat) (f : FramePool → FramePool) : (modPoolK s pool f).tel = s.tel := rfl
@[simp] theorem modPoolK_sec (s : State) (pool : Nat) (f : FramePool → FramePool) : (modPoolK s pool f).sec = s.sec := rfl
@[simp] theorem modPoolK_graphs (s : State) (pool : Nat) (f : FramePool → FramePool) : (modPoolK s pool f).graphs = s.graphs := rfl
@[simp] theorem modPoolK_cores (s : State) (pool : Nat) (f : FramePool → FramePool) : (modPoolK s pool f).cores = s.cores := rfl
@[simp] theorem modPoolK_clusters (s : State) (pool : Nat) (f : FramePool → FramePool) : (modPoolK s pool f).clusters = s.clusters := rfl
@[simp] theorem modPoolK_sfu (s : State) (pool : Nat) (f : FramePool → FramePool) : (modPoolK s pool f).sfu = s.sfu := rfl
@[simp] theorem modPoolK_ssa (s : State) (pool : Nat) (f : FramePool → FramePool) : (modPoolK s pool f).ssa = s.ssa := rfl
@[simp] theorem modPoolK_chn (s : State) (pool : Nat) (f : FramePool → FramePool) : (modPoolK s pool f).chn = s.chn := rfl
@[simp] theorem modPoolK_col (s : State) (pool : Nat) (f : FramePool → FramePool) : (modPoolK s pool f).col = s.col := rfl
@[simp] theorem modPoolK_groups (s : State) (pool : Nat) (f : FramePool → FramePool) : (modPoolK s pool f).groups = s.groups := rfl
@[simp] theorem modPoolK_fab (s : State) (pool : Nat) (f : FramePool → FramePool) : (modPoolK s pool f).fab = s.fab := rfl
@[simp] theorem modPoolK_memc (s : State) (pool : Nat) (f : FramePool → FramePool) : (modPoolK s pool f).memc = s.memc := rfl
@[simp] theorem modPoolK_fls (s : State) (pool : Nat) (f : FramePool → FramePool) : (modPoolK s pool f).fls = s.fls := rfl
@[simp] theorem modPoolK_vse (s : State) (pool : Nat) (f : FramePool → FramePool) : (modPoolK s pool f).vse = s.vse := rfl

/-! ### `modGrant` -/

@[simp] theorem modGrant_pending (s : State) (g : Nat) (f : Grant → Grant) : (modGrant s g f).pending = s.pending := rfl
@[simp] theorem modGrant_now (s : State) (g : Nat) (f : Grant → Grant) : (modGrant s g f).now = s.now := rfl
@[simp] theorem modGrant_free (s : State) (g : Nat) (f : Grant → Grant) : (modGrant s g f).free = s.free := rfl
@[simp] theorem modGrant_mem (s : State) (g : Nat) (f : Grant → Grant) : (modGrant s g f).mem = s.mem := rfl
@[simp] theorem modGrant_poison (s : State) (g : Nat) (f : Grant → Grant) : (modGrant s g f).poison = s.poison := rfl
@[simp] theorem modGrant_soft (s : State) (g : Nat) (f : Grant → Grant) : (modGrant s g f).soft = s.soft := rfl
@[simp] theorem modGrant_hostMem (s : State) (g : Nat) (f : Grant → Grant) : (modGrant s g f).hostMem = s.hostMem := rfl
@[simp] theorem modGrant_hostAbsent (s : State) (g : Nat) (f : Grant → Grant) : (modGrant s g f).hostAbsent = s.hostAbsent := rfl
@[simp] theorem modGrant_refs (s : State) (g : Nat) (f : Grant → Grant) : (modGrant s g f).refs = s.refs := rfl
@[simp] theorem modGrant_pwr (s : State) (g : Nat) (f : Grant → Grant) : (modGrant s g f).pwr = s.pwr := rfl
@[simp] theorem modGrant_thm (s : State) (g : Nat) (f : Grant → Grant) : (modGrant s g f).thm = s.thm := rfl
@[simp] theorem modGrant_hif (s : State) (g : Nat) (f : Grant → Grant) : (modGrant s g f).hif = s.hif := rfl
@[simp] theorem modGrant_tel (s : State) (g : Nat) (f : Grant → Grant) : (modGrant s g f).tel = s.tel := rfl
@[simp] theorem modGrant_sec (s : State) (g : Nat) (f : Grant → Grant) : (modGrant s g f).sec = s.sec := rfl
@[simp] theorem modGrant_graphs (s : State) (g : Nat) (f : Grant → Grant) : (modGrant s g f).graphs = s.graphs := rfl
@[simp] theorem modGrant_cores (s : State) (g : Nat) (f : Grant → Grant) : (modGrant s g f).cores = s.cores := rfl
@[simp] theorem modGrant_clusters (s : State) (g : Nat) (f : Grant → Grant) : (modGrant s g f).clusters = s.clusters := rfl
@[simp] theorem modGrant_sfu (s : State) (g : Nat) (f : Grant → Grant) : (modGrant s g f).sfu = s.sfu := rfl
@[simp] theorem modGrant_kvc (s : State) (g : Nat) (f : Grant → Grant) : (modGrant s g f).kvc = s.kvc := rfl
@[simp] theorem modGrant_ssa (s : State) (g : Nat) (f : Grant → Grant) : (modGrant s g f).ssa = s.ssa := rfl
@[simp] theorem modGrant_chn (s : State) (g : Nat) (f : Grant → Grant) : (modGrant s g f).chn = s.chn := rfl
@[simp] theorem modGrant_col (s : State) (g : Nat) (f : Grant → Grant) : (modGrant s g f).col = s.col := rfl
@[simp] theorem modGrant_groups (s : State) (g : Nat) (f : Grant → Grant) : (modGrant s g f).groups = s.groups := rfl
@[simp] theorem modGrant_fab (s : State) (g : Nat) (f : Grant → Grant) : (modGrant s g f).fab = s.fab := rfl
@[simp] theorem modGrant_fls (s : State) (g : Nat) (f : Grant → Grant) : (modGrant s g f).fls = s.fls := rfl
@[simp] theorem modGrant_vse (s : State) (g : Nat) (f : Grant → Grant) : (modGrant s g f).vse = s.vse := rfl

/-! ### `modCopy` -/

@[simp] theorem modCopy_pending (s : State) (num : Nat) (f : LendCopy → LendCopy) : (modCopy s num f).pending = s.pending := rfl
@[simp] theorem modCopy_now (s : State) (num : Nat) (f : LendCopy → LendCopy) : (modCopy s num f).now = s.now := rfl
@[simp] theorem modCopy_free (s : State) (num : Nat) (f : LendCopy → LendCopy) : (modCopy s num f).free = s.free := rfl
@[simp] theorem modCopy_mem (s : State) (num : Nat) (f : LendCopy → LendCopy) : (modCopy s num f).mem = s.mem := rfl
@[simp] theorem modCopy_poison (s : State) (num : Nat) (f : LendCopy → LendCopy) : (modCopy s num f).poison = s.poison := rfl
@[simp] theorem modCopy_soft (s : State) (num : Nat) (f : LendCopy → LendCopy) : (modCopy s num f).soft = s.soft := rfl
@[simp] theorem modCopy_hostMem (s : State) (num : Nat) (f : LendCopy → LendCopy) : (modCopy s num f).hostMem = s.hostMem := rfl
@[simp] theorem modCopy_hostAbsent (s : State) (num : Nat) (f : LendCopy → LendCopy) : (modCopy s num f).hostAbsent = s.hostAbsent := rfl
@[simp] theorem modCopy_refs (s : State) (num : Nat) (f : LendCopy → LendCopy) : (modCopy s num f).refs = s.refs := rfl
@[simp] theorem modCopy_pwr (s : State) (num : Nat) (f : LendCopy → LendCopy) : (modCopy s num f).pwr = s.pwr := rfl
@[simp] theorem modCopy_thm (s : State) (num : Nat) (f : LendCopy → LendCopy) : (modCopy s num f).thm = s.thm := rfl
@[simp] theorem modCopy_hif (s : State) (num : Nat) (f : LendCopy → LendCopy) : (modCopy s num f).hif = s.hif := rfl
@[simp] theorem modCopy_tel (s : State) (num : Nat) (f : LendCopy → LendCopy) : (modCopy s num f).tel = s.tel := rfl
@[simp] theorem modCopy_sec (s : State) (num : Nat) (f : LendCopy → LendCopy) : (modCopy s num f).sec = s.sec := rfl
@[simp] theorem modCopy_graphs (s : State) (num : Nat) (f : LendCopy → LendCopy) : (modCopy s num f).graphs = s.graphs := rfl
@[simp] theorem modCopy_cores (s : State) (num : Nat) (f : LendCopy → LendCopy) : (modCopy s num f).cores = s.cores := rfl
@[simp] theorem modCopy_clusters (s : State) (num : Nat) (f : LendCopy → LendCopy) : (modCopy s num f).clusters = s.clusters := rfl
@[simp] theorem modCopy_sfu (s : State) (num : Nat) (f : LendCopy → LendCopy) : (modCopy s num f).sfu = s.sfu := rfl
@[simp] theorem modCopy_kvc (s : State) (num : Nat) (f : LendCopy → LendCopy) : (modCopy s num f).kvc = s.kvc := rfl
@[simp] theorem modCopy_ssa (s : State) (num : Nat) (f : LendCopy → LendCopy) : (modCopy s num f).ssa = s.ssa := rfl
@[simp] theorem modCopy_chn (s : State) (num : Nat) (f : LendCopy → LendCopy) : (modCopy s num f).chn = s.chn := rfl
@[simp] theorem modCopy_col (s : State) (num : Nat) (f : LendCopy → LendCopy) : (modCopy s num f).col = s.col := rfl
@[simp] theorem modCopy_groups (s : State) (num : Nat) (f : LendCopy → LendCopy) : (modCopy s num f).groups = s.groups := rfl
@[simp] theorem modCopy_fab (s : State) (num : Nat) (f : LendCopy → LendCopy) : (modCopy s num f).fab = s.fab := rfl
@[simp] theorem modCopy_fls (s : State) (num : Nat) (f : LendCopy → LendCopy) : (modCopy s num f).fls = s.fls := rfl
@[simp] theorem modCopy_vse (s : State) (num : Nat) (f : LendCopy → LendCopy) : (modCopy s num f).vse = s.vse := rfl

/-! ### `modAlm` -/

@[simp] theorem modAlm_pending (s : State) (fn : Nat) (f : AlmFn → AlmFn) : (modAlm s fn f).pending = s.pending := rfl
@[simp] theorem modAlm_now (s : State) (fn : Nat) (f : AlmFn → AlmFn) : (modAlm s fn f).now = s.now := rfl
@[simp] theorem modAlm_free (s : State) (fn : Nat) (f : AlmFn → AlmFn) : (modAlm s fn f).free = s.free := rfl
@[simp] theorem modAlm_mem (s : State) (fn : Nat) (f : AlmFn → AlmFn) : (modAlm s fn f).mem = s.mem := rfl
@[simp] theorem modAlm_poison (s : State) (fn : Nat) (f : AlmFn → AlmFn) : (modAlm s fn f).poison = s.poison := rfl
@[simp] theorem modAlm_soft (s : State) (fn : Nat) (f : AlmFn → AlmFn) : (modAlm s fn f).soft = s.soft := rfl
@[simp] theorem modAlm_hostMem (s : State) (fn : Nat) (f : AlmFn → AlmFn) : (modAlm s fn f).hostMem = s.hostMem := rfl
@[simp] theorem modAlm_hostAbsent (s : State) (fn : Nat) (f : AlmFn → AlmFn) : (modAlm s fn f).hostAbsent = s.hostAbsent := rfl
@[simp] theorem modAlm_refs (s : State) (fn : Nat) (f : AlmFn → AlmFn) : (modAlm s fn f).refs = s.refs := rfl
@[simp] theorem modAlm_pwr (s : State) (fn : Nat) (f : AlmFn → AlmFn) : (modAlm s fn f).pwr = s.pwr := rfl
@[simp] theorem modAlm_thm (s : State) (fn : Nat) (f : AlmFn → AlmFn) : (modAlm s fn f).thm = s.thm := rfl
@[simp] theorem modAlm_tel (s : State) (fn : Nat) (f : AlmFn → AlmFn) : (modAlm s fn f).tel = s.tel := rfl
@[simp] theorem modAlm_sec (s : State) (fn : Nat) (f : AlmFn → AlmFn) : (modAlm s fn f).sec = s.sec := rfl
@[simp] theorem modAlm_graphs (s : State) (fn : Nat) (f : AlmFn → AlmFn) : (modAlm s fn f).graphs = s.graphs := rfl
@[simp] theorem modAlm_cores (s : State) (fn : Nat) (f : AlmFn → AlmFn) : (modAlm s fn f).cores = s.cores := rfl
@[simp] theorem modAlm_clusters (s : State) (fn : Nat) (f : AlmFn → AlmFn) : (modAlm s fn f).clusters = s.clusters := rfl
@[simp] theorem modAlm_sfu (s : State) (fn : Nat) (f : AlmFn → AlmFn) : (modAlm s fn f).sfu = s.sfu := rfl
@[simp] theorem modAlm_kvc (s : State) (fn : Nat) (f : AlmFn → AlmFn) : (modAlm s fn f).kvc = s.kvc := rfl
@[simp] theorem modAlm_ssa (s : State) (fn : Nat) (f : AlmFn → AlmFn) : (modAlm s fn f).ssa = s.ssa := rfl
@[simp] theorem modAlm_chn (s : State) (fn : Nat) (f : AlmFn → AlmFn) : (modAlm s fn f).chn = s.chn := rfl
@[simp] theorem modAlm_col (s : State) (fn : Nat) (f : AlmFn → AlmFn) : (modAlm s fn f).col = s.col := rfl
@[simp] theorem modAlm_groups (s : State) (fn : Nat) (f : AlmFn → AlmFn) : (modAlm s fn f).groups = s.groups := rfl
@[simp] theorem modAlm_fab (s : State) (fn : Nat) (f : AlmFn → AlmFn) : (modAlm s fn f).fab = s.fab := rfl
@[simp] theorem modAlm_memc (s : State) (fn : Nat) (f : AlmFn → AlmFn) : (modAlm s fn f).memc = s.memc := rfl
@[simp] theorem modAlm_fls (s : State) (fn : Nat) (f : AlmFn → AlmFn) : (modAlm s fn f).fls = s.fls := rfl
@[simp] theorem modAlm_vse (s : State) (fn : Nat) (f : AlmFn → AlmFn) : (modAlm s fn f).vse = s.vse := rfl

/-! ### `modFnRings` -/

@[simp] theorem modFnRings_pending (s : State) (fn : Nat) (f : Ring → Ring) : (modFnRings s fn f).pending = s.pending := rfl
@[simp] theorem modFnRings_now (s : State) (fn : Nat) (f : Ring → Ring) : (modFnRings s fn f).now = s.now := rfl
@[simp] theorem modFnRings_free (s : State) (fn : Nat) (f : Ring → Ring) : (modFnRings s fn f).free = s.free := rfl
@[simp] theorem modFnRings_mem (s : State) (fn : Nat) (f : Ring → Ring) : (modFnRings s fn f).mem = s.mem := rfl
@[simp] theorem modFnRings_poison (s : State) (fn : Nat) (f : Ring → Ring) : (modFnRings s fn f).poison = s.poison := rfl
@[simp] theorem modFnRings_soft (s : State) (fn : Nat) (f : Ring → Ring) : (modFnRings s fn f).soft = s.soft := rfl
@[simp] theorem modFnRings_hostMem (s : State) (fn : Nat) (f : Ring → Ring) : (modFnRings s fn f).hostMem = s.hostMem := rfl
@[simp] theorem modFnRings_hostAbsent (s : State) (fn : Nat) (f : Ring → Ring) : (modFnRings s fn f).hostAbsent = s.hostAbsent := rfl
@[simp] theorem modFnRings_refs (s : State) (fn : Nat) (f : Ring → Ring) : (modFnRings s fn f).refs = s.refs := rfl
@[simp] theorem modFnRings_pwr (s : State) (fn : Nat) (f : Ring → Ring) : (modFnRings s fn f).pwr = s.pwr := rfl
@[simp] theorem modFnRings_thm (s : State) (fn : Nat) (f : Ring → Ring) : (modFnRings s fn f).thm = s.thm := rfl
@[simp] theorem modFnRings_tel (s : State) (fn : Nat) (f : Ring → Ring) : (modFnRings s fn f).tel = s.tel := rfl
@[simp] theorem modFnRings_sec (s : State) (fn : Nat) (f : Ring → Ring) : (modFnRings s fn f).sec = s.sec := rfl
@[simp] theorem modFnRings_graphs (s : State) (fn : Nat) (f : Ring → Ring) : (modFnRings s fn f).graphs = s.graphs := rfl
@[simp] theorem modFnRings_cores (s : State) (fn : Nat) (f : Ring → Ring) : (modFnRings s fn f).cores = s.cores := rfl
@[simp] theorem modFnRings_clusters (s : State) (fn : Nat) (f : Ring → Ring) : (modFnRings s fn f).clusters = s.clusters := rfl
@[simp] theorem modFnRings_sfu (s : State) (fn : Nat) (f : Ring → Ring) : (modFnRings s fn f).sfu = s.sfu := rfl
@[simp] theorem modFnRings_kvc (s : State) (fn : Nat) (f : Ring → Ring) : (modFnRings s fn f).kvc = s.kvc := rfl
@[simp] theorem modFnRings_ssa (s : State) (fn : Nat) (f : Ring → Ring) : (modFnRings s fn f).ssa = s.ssa := rfl
@[simp] theorem modFnRings_chn (s : State) (fn : Nat) (f : Ring → Ring) : (modFnRings s fn f).chn = s.chn := rfl
@[simp] theorem modFnRings_col (s : State) (fn : Nat) (f : Ring → Ring) : (modFnRings s fn f).col = s.col := rfl
@[simp] theorem modFnRings_groups (s : State) (fn : Nat) (f : Ring → Ring) : (modFnRings s fn f).groups = s.groups := rfl
@[simp] theorem modFnRings_fab (s : State) (fn : Nat) (f : Ring → Ring) : (modFnRings s fn f).fab = s.fab := rfl
@[simp] theorem modFnRings_memc (s : State) (fn : Nat) (f : Ring → Ring) : (modFnRings s fn f).memc = s.memc := rfl
@[simp] theorem modFnRings_fls (s : State) (fn : Nat) (f : Ring → Ring) : (modFnRings s fn f).fls = s.fls := rfl
@[simp] theorem modFnRings_vse (s : State) (fn : Nat) (f : Ring → Ring) : (modFnRings s fn f).vse = s.vse := rfl

/-! ### `dropCmd` -/

@[simp] theorem dropCmd_pending (s : State) (id : Nat) : (dropCmd s id).pending = s.pending := rfl
@[simp] theorem dropCmd_now (s : State) (id : Nat) : (dropCmd s id).now = s.now := rfl
@[simp] theorem dropCmd_free (s : State) (id : Nat) : (dropCmd s id).free = s.free := rfl
@[simp] theorem dropCmd_mem (s : State) (id : Nat) : (dropCmd s id).mem = s.mem := rfl
@[simp] theorem dropCmd_poison (s : State) (id : Nat) : (dropCmd s id).poison = s.poison := rfl
@[simp] theorem dropCmd_soft (s : State) (id : Nat) : (dropCmd s id).soft = s.soft := rfl
@[simp] theorem dropCmd_hostMem (s : State) (id : Nat) : (dropCmd s id).hostMem = s.hostMem := rfl
@[simp] theorem dropCmd_hostAbsent (s : State) (id : Nat) : (dropCmd s id).hostAbsent = s.hostAbsent := rfl
@[simp] theorem dropCmd_refs (s : State) (id : Nat) : (dropCmd s id).refs = s.refs := rfl
@[simp] theorem dropCmd_pwr (s : State) (id : Nat) : (dropCmd s id).pwr = s.pwr := rfl
@[simp] theorem dropCmd_thm (s : State) (id : Nat) : (dropCmd s id).thm = s.thm := rfl
@[simp] theorem dropCmd_tel (s : State) (id : Nat) : (dropCmd s id).tel = s.tel := rfl
@[simp] theorem dropCmd_sec (s : State) (id : Nat) : (dropCmd s id).sec = s.sec := rfl
@[simp] theorem dropCmd_graphs (s : State) (id : Nat) : (dropCmd s id).graphs = s.graphs := rfl
@[simp] theorem dropCmd_cores (s : State) (id : Nat) : (dropCmd s id).cores = s.cores := rfl
@[simp] theorem dropCmd_clusters (s : State) (id : Nat) : (dropCmd s id).clusters = s.clusters := rfl
@[simp] theorem dropCmd_sfu (s : State) (id : Nat) : (dropCmd s id).sfu = s.sfu := rfl
@[simp] theorem dropCmd_kvc (s : State) (id : Nat) : (dropCmd s id).kvc = s.kvc := rfl
@[simp] theorem dropCmd_ssa (s : State) (id : Nat) : (dropCmd s id).ssa = s.ssa := rfl
@[simp] theorem dropCmd_chn (s : State) (id : Nat) : (dropCmd s id).chn = s.chn := rfl
@[simp] theorem dropCmd_col (s : State) (id : Nat) : (dropCmd s id).col = s.col := rfl
@[simp] theorem dropCmd_groups (s : State) (id : Nat) : (dropCmd s id).groups = s.groups := rfl
@[simp] theorem dropCmd_fab (s : State) (id : Nat) : (dropCmd s id).fab = s.fab := rfl
@[simp] theorem dropCmd_memc (s : State) (id : Nat) : (dropCmd s id).memc = s.memc := rfl
@[simp] theorem dropCmd_fls (s : State) (id : Nat) : (dropCmd s id).fls = s.fls := rfl
@[simp] theorem dropCmd_vse (s : State) (id : Nat) : (dropCmd s id).vse = s.vse := rfl

/-! ### `hostPoke` -/

@[simp] theorem hostPoke_pending (s : State) (a : Nat) (b : Bytes) : (hostPoke s a b).pending = s.pending := rfl
@[simp] theorem hostPoke_now (s : State) (a : Nat) (b : Bytes) : (hostPoke s a b).now = s.now := rfl
@[simp] theorem hostPoke_free (s : State) (a : Nat) (b : Bytes) : (hostPoke s a b).free = s.free := rfl
@[simp] theorem hostPoke_mem (s : State) (a : Nat) (b : Bytes) : (hostPoke s a b).mem = s.mem := rfl
@[simp] theorem hostPoke_poison (s : State) (a : Nat) (b : Bytes) : (hostPoke s a b).poison = s.poison := rfl
@[simp] theorem hostPoke_soft (s : State) (a : Nat) (b : Bytes) : (hostPoke s a b).soft = s.soft := rfl
@[simp] theorem hostPoke_hostAbsent (s : State) (a : Nat) (b : Bytes) : (hostPoke s a b).hostAbsent = s.hostAbsent := rfl
@[simp] theorem hostPoke_refs (s : State) (a : Nat) (b : Bytes) : (hostPoke s a b).refs = s.refs := rfl
@[simp] theorem hostPoke_pwr (s : State) (a : Nat) (b : Bytes) : (hostPoke s a b).pwr = s.pwr := rfl
@[simp] theorem hostPoke_thm (s : State) (a : Nat) (b : Bytes) : (hostPoke s a b).thm = s.thm := rfl
@[simp] theorem hostPoke_hif (s : State) (a : Nat) (b : Bytes) : (hostPoke s a b).hif = s.hif := rfl
@[simp] theorem hostPoke_tel (s : State) (a : Nat) (b : Bytes) : (hostPoke s a b).tel = s.tel := rfl
@[simp] theorem hostPoke_sec (s : State) (a : Nat) (b : Bytes) : (hostPoke s a b).sec = s.sec := rfl
@[simp] theorem hostPoke_graphs (s : State) (a : Nat) (b : Bytes) : (hostPoke s a b).graphs = s.graphs := rfl
@[simp] theorem hostPoke_cores (s : State) (a : Nat) (b : Bytes) : (hostPoke s a b).cores = s.cores := rfl
@[simp] theorem hostPoke_clusters (s : State) (a : Nat) (b : Bytes) : (hostPoke s a b).clusters = s.clusters := rfl
@[simp] theorem hostPoke_sfu (s : State) (a : Nat) (b : Bytes) : (hostPoke s a b).sfu = s.sfu := rfl
@[simp] theorem hostPoke_kvc (s : State) (a : Nat) (b : Bytes) : (hostPoke s a b).kvc = s.kvc := rfl
@[simp] theorem hostPoke_ssa (s : State) (a : Nat) (b : Bytes) : (hostPoke s a b).ssa = s.ssa := rfl
@[simp] theorem hostPoke_chn (s : State) (a : Nat) (b : Bytes) : (hostPoke s a b).chn = s.chn := rfl
@[simp] theorem hostPoke_col (s : State) (a : Nat) (b : Bytes) : (hostPoke s a b).col = s.col := rfl
@[simp] theorem hostPoke_groups (s : State) (a : Nat) (b : Bytes) : (hostPoke s a b).groups = s.groups := rfl
@[simp] theorem hostPoke_fab (s : State) (a : Nat) (b : Bytes) : (hostPoke s a b).fab = s.fab := rfl
@[simp] theorem hostPoke_memc (s : State) (a : Nat) (b : Bytes) : (hostPoke s a b).memc = s.memc := rfl
@[simp] theorem hostPoke_fls (s : State) (a : Nat) (b : Bytes) : (hostPoke s a b).fls = s.fls := rfl
@[simp] theorem hostPoke_vse (s : State) (a : Nat) (b : Bytes) : (hostPoke s a b).vse = s.vse := rfl

/-! ### `poke` -/

@[simp] theorem poke_pending (s : State) (a : Nat) (b : Bytes) : (poke s a b).pending = s.pending := rfl
@[simp] theorem poke_now (s : State) (a : Nat) (b : Bytes) : (poke s a b).now = s.now := rfl
@[simp] theorem poke_free (s : State) (a : Nat) (b : Bytes) : (poke s a b).free = s.free := rfl
@[simp] theorem poke_poison (s : State) (a : Nat) (b : Bytes) : (poke s a b).poison = s.poison := rfl
@[simp] theorem poke_soft (s : State) (a : Nat) (b : Bytes) : (poke s a b).soft = s.soft := rfl
@[simp] theorem poke_hostMem (s : State) (a : Nat) (b : Bytes) : (poke s a b).hostMem = s.hostMem := rfl
@[simp] theorem poke_hostAbsent (s : State) (a : Nat) (b : Bytes) : (poke s a b).hostAbsent = s.hostAbsent := rfl
@[simp] theorem poke_refs (s : State) (a : Nat) (b : Bytes) : (poke s a b).refs = s.refs := rfl
@[simp] theorem poke_pwr (s : State) (a : Nat) (b : Bytes) : (poke s a b).pwr = s.pwr := rfl
@[simp] theorem poke_thm (s : State) (a : Nat) (b : Bytes) : (poke s a b).thm = s.thm := rfl
@[simp] theorem poke_hif (s : State) (a : Nat) (b : Bytes) : (poke s a b).hif = s.hif := rfl
@[simp] theorem poke_tel (s : State) (a : Nat) (b : Bytes) : (poke s a b).tel = s.tel := rfl
@[simp] theorem poke_sec (s : State) (a : Nat) (b : Bytes) : (poke s a b).sec = s.sec := rfl
@[simp] theorem poke_graphs (s : State) (a : Nat) (b : Bytes) : (poke s a b).graphs = s.graphs := rfl
@[simp] theorem poke_cores (s : State) (a : Nat) (b : Bytes) : (poke s a b).cores = s.cores := rfl
@[simp] theorem poke_clusters (s : State) (a : Nat) (b : Bytes) : (poke s a b).clusters = s.clusters := rfl
@[simp] theorem poke_sfu (s : State) (a : Nat) (b : Bytes) : (poke s a b).sfu = s.sfu := rfl
@[simp] theorem poke_kvc (s : State) (a : Nat) (b : Bytes) : (poke s a b).kvc = s.kvc := rfl
@[simp] theorem poke_ssa (s : State) (a : Nat) (b : Bytes) : (poke s a b).ssa = s.ssa := rfl
@[simp] theorem poke_chn (s : State) (a : Nat) (b : Bytes) : (poke s a b).chn = s.chn := rfl
@[simp] theorem poke_col (s : State) (a : Nat) (b : Bytes) : (poke s a b).col = s.col := rfl
@[simp] theorem poke_groups (s : State) (a : Nat) (b : Bytes) : (poke s a b).groups = s.groups := rfl
@[simp] theorem poke_fab (s : State) (a : Nat) (b : Bytes) : (poke s a b).fab = s.fab := rfl
@[simp] theorem poke_memc (s : State) (a : Nat) (b : Bytes) : (poke s a b).memc = s.memc := rfl
@[simp] theorem poke_fls (s : State) (a : Nat) (b : Bytes) : (poke s a b).fls = s.fls := rfl
@[simp] theorem poke_vse (s : State) (a : Nat) (b : Bytes) : (poke s a b).vse = s.vse := rfl

/-! ### `markBad` -/

@[simp] theorem markBad_pending (s : State) (a n : Nat) : (markBad s a n).pending = s.pending := rfl
@[simp] theorem markBad_now (s : State) (a n : Nat) : (markBad s a n).now = s.now := rfl
@[simp] theorem markBad_free (s : State) (a n : Nat) : (markBad s a n).free = s.free := rfl
@[simp] theorem markBad_mem (s : State) (a n : Nat) : (markBad s a n).mem = s.mem := rfl
@[simp] theorem markBad_soft (s : State) (a n : Nat) : (markBad s a n).soft = s.soft := rfl
@[simp] theorem markBad_hostMem (s : State) (a n : Nat) : (markBad s a n).hostMem = s.hostMem := rfl
@[simp] theorem markBad_hostAbsent (s : State) (a n : Nat) : (markBad s a n).hostAbsent = s.hostAbsent := rfl
@[simp] theorem markBad_refs (s : State) (a n : Nat) : (markBad s a n).refs = s.refs := rfl
@[simp] theorem markBad_pwr (s : State) (a n : Nat) : (markBad s a n).pwr = s.pwr := rfl
@[simp] theorem markBad_thm (s : State) (a n : Nat) : (markBad s a n).thm = s.thm := rfl
@[simp] theorem markBad_hif (s : State) (a n : Nat) : (markBad s a n).hif = s.hif := rfl
@[simp] theorem markBad_tel (s : State) (a n : Nat) : (markBad s a n).tel = s.tel := rfl
@[simp] theorem markBad_sec (s : State) (a n : Nat) : (markBad s a n).sec = s.sec := rfl
@[simp] theorem markBad_graphs (s : State) (a n : Nat) : (markBad s a n).graphs = s.graphs := rfl
@[simp] theorem markBad_cores (s : State) (a n : Nat) : (markBad s a n).cores = s.cores := rfl
@[simp] theorem markBad_clusters (s : State) (a n : Nat) : (markBad s a n).clusters = s.clusters := rfl
@[simp] theorem markBad_sfu (s : State) (a n : Nat) : (markBad s a n).sfu = s.sfu := rfl
@[simp] theorem markBad_kvc (s : State) (a n : Nat) : (markBad s a n).kvc = s.kvc := rfl
@[simp] theorem markBad_ssa (s : State) (a n : Nat) : (markBad s a n).ssa = s.ssa := rfl
@[simp] theorem markBad_chn (s : State) (a n : Nat) : (markBad s a n).chn = s.chn := rfl
@[simp] theorem markBad_col (s : State) (a n : Nat) : (markBad s a n).col = s.col := rfl
@[simp] theorem markBad_groups (s : State) (a n : Nat) : (markBad s a n).groups = s.groups := rfl
@[simp] theorem markBad_fab (s : State) (a n : Nat) : (markBad s a n).fab = s.fab := rfl
@[simp] theorem markBad_memc (s : State) (a n : Nat) : (markBad s a n).memc = s.memc := rfl
@[simp] theorem markBad_fls (s : State) (a n : Nat) : (markBad s a n).fls = s.fls := rfl
@[simp] theorem markBad_vse (s : State) (a n : Nat) : (markBad s a n).vse = s.vse := rfl

/-! ### `dlCount` -/

@[simp] theorem dlCount_pending (s : State) (cls die n : Nat) : (dlCount s cls die n).pending = s.pending := rfl
@[simp] theorem dlCount_now (s : State) (cls die n : Nat) : (dlCount s cls die n).now = s.now := rfl
@[simp] theorem dlCount_free (s : State) (cls die n : Nat) : (dlCount s cls die n).free = s.free := rfl
@[simp] theorem dlCount_mem (s : State) (cls die n : Nat) : (dlCount s cls die n).mem = s.mem := rfl
@[simp] theorem dlCount_poison (s : State) (cls die n : Nat) : (dlCount s cls die n).poison = s.poison := rfl
@[simp] theorem dlCount_soft (s : State) (cls die n : Nat) : (dlCount s cls die n).soft = s.soft := rfl
@[simp] theorem dlCount_hostMem (s : State) (cls die n : Nat) : (dlCount s cls die n).hostMem = s.hostMem := rfl
@[simp] theorem dlCount_hostAbsent (s : State) (cls die n : Nat) : (dlCount s cls die n).hostAbsent = s.hostAbsent := rfl
@[simp] theorem dlCount_refs (s : State) (cls die n : Nat) : (dlCount s cls die n).refs = s.refs := rfl
@[simp] theorem dlCount_pwr (s : State) (cls die n : Nat) : (dlCount s cls die n).pwr = s.pwr := rfl
@[simp] theorem dlCount_thm (s : State) (cls die n : Nat) : (dlCount s cls die n).thm = s.thm := rfl
@[simp] theorem dlCount_hif (s : State) (cls die n : Nat) : (dlCount s cls die n).hif = s.hif := rfl
@[simp] theorem dlCount_tel (s : State) (cls die n : Nat) : (dlCount s cls die n).tel = s.tel := rfl
@[simp] theorem dlCount_sec (s : State) (cls die n : Nat) : (dlCount s cls die n).sec = s.sec := rfl
@[simp] theorem dlCount_graphs (s : State) (cls die n : Nat) : (dlCount s cls die n).graphs = s.graphs := rfl
@[simp] theorem dlCount_cores (s : State) (cls die n : Nat) : (dlCount s cls die n).cores = s.cores := rfl
@[simp] theorem dlCount_clusters (s : State) (cls die n : Nat) : (dlCount s cls die n).clusters = s.clusters := rfl
@[simp] theorem dlCount_sfu (s : State) (cls die n : Nat) : (dlCount s cls die n).sfu = s.sfu := rfl
@[simp] theorem dlCount_kvc (s : State) (cls die n : Nat) : (dlCount s cls die n).kvc = s.kvc := rfl
@[simp] theorem dlCount_ssa (s : State) (cls die n : Nat) : (dlCount s cls die n).ssa = s.ssa := rfl
@[simp] theorem dlCount_chn (s : State) (cls die n : Nat) : (dlCount s cls die n).chn = s.chn := rfl
@[simp] theorem dlCount_col (s : State) (cls die n : Nat) : (dlCount s cls die n).col = s.col := rfl
@[simp] theorem dlCount_groups (s : State) (cls die n : Nat) : (dlCount s cls die n).groups = s.groups := rfl
@[simp] theorem dlCount_fab (s : State) (cls die n : Nat) : (dlCount s cls die n).fab = s.fab := rfl
@[simp] theorem dlCount_fls (s : State) (cls die n : Nat) : (dlCount s cls die n).fls = s.fls := rfl
@[simp] theorem dlCount_vse (s : State) (cls die n : Nat) : (dlCount s cls die n).vse = s.vse := rfl

/-! ### `setSelect` -/

@[simp] theorem setSelect_pending (s : State) (q : Requester) (off v : Nat) : (setSelect s q off v).pending = s.pending := rfl
@[simp] theorem setSelect_now (s : State) (q : Requester) (off v : Nat) : (setSelect s q off v).now = s.now := rfl
@[simp] theorem setSelect_free (s : State) (q : Requester) (off v : Nat) : (setSelect s q off v).free = s.free := rfl
@[simp] theorem setSelect_mem (s : State) (q : Requester) (off v : Nat) : (setSelect s q off v).mem = s.mem := rfl
@[simp] theorem setSelect_poison (s : State) (q : Requester) (off v : Nat) : (setSelect s q off v).poison = s.poison := rfl
@[simp] theorem setSelect_soft (s : State) (q : Requester) (off v : Nat) : (setSelect s q off v).soft = s.soft := rfl
@[simp] theorem setSelect_hostMem (s : State) (q : Requester) (off v : Nat) : (setSelect s q off v).hostMem = s.hostMem := rfl
@[simp] theorem setSelect_hostAbsent (s : State) (q : Requester) (off v : Nat) : (setSelect s q off v).hostAbsent = s.hostAbsent := rfl
@[simp] theorem setSelect_refs (s : State) (q : Requester) (off v : Nat) : (setSelect s q off v).refs = s.refs := rfl
@[simp] theorem setSelect_pwr (s : State) (q : Requester) (off v : Nat) : (setSelect s q off v).pwr = s.pwr := rfl
@[simp] theorem setSelect_thm (s : State) (q : Requester) (off v : Nat) : (setSelect s q off v).thm = s.thm := rfl
@[simp] theorem setSelect_tel (s : State) (q : Requester) (off v : Nat) : (setSelect s q off v).tel = s.tel := rfl
@[simp] theorem setSelect_sec (s : State) (q : Requester) (off v : Nat) : (setSelect s q off v).sec = s.sec := rfl
@[simp] theorem setSelect_graphs (s : State) (q : Requester) (off v : Nat) : (setSelect s q off v).graphs = s.graphs := rfl
@[simp] theorem setSelect_cores (s : State) (q : Requester) (off v : Nat) : (setSelect s q off v).cores = s.cores := rfl
@[simp] theorem setSelect_clusters (s : State) (q : Requester) (off v : Nat) : (setSelect s q off v).clusters = s.clusters := rfl
@[simp] theorem setSelect_sfu (s : State) (q : Requester) (off v : Nat) : (setSelect s q off v).sfu = s.sfu := rfl
@[simp] theorem setSelect_kvc (s : State) (q : Requester) (off v : Nat) : (setSelect s q off v).kvc = s.kvc := rfl
@[simp] theorem setSelect_ssa (s : State) (q : Requester) (off v : Nat) : (setSelect s q off v).ssa = s.ssa := rfl
@[simp] theorem setSelect_chn (s : State) (q : Requester) (off v : Nat) : (setSelect s q off v).chn = s.chn := rfl
@[simp] theorem setSelect_col (s : State) (q : Requester) (off v : Nat) : (setSelect s q off v).col = s.col := rfl
@[simp] theorem setSelect_groups (s : State) (q : Requester) (off v : Nat) : (setSelect s q off v).groups = s.groups := rfl
@[simp] theorem setSelect_fab (s : State) (q : Requester) (off v : Nat) : (setSelect s q off v).fab = s.fab := rfl
@[simp] theorem setSelect_memc (s : State) (q : Requester) (off v : Nat) : (setSelect s q off v).memc = s.memc := rfl
@[simp] theorem setSelect_fls (s : State) (q : Requester) (off v : Nat) : (setSelect s q off v).fls = s.fls := rfl
@[simp] theorem setSelect_vse (s : State) (q : Requester) (off v : Nat) : (setSelect s q off v).vse = s.vse := rfl

/-! ### `modDir` -/

@[simp] theorem modDir_pending (s : State) (i : Nat) (west : Bool) (f : ChnDir → ChnDir) : (modDir s i west f).pending = s.pending := rfl
@[simp] theorem modDir_now (s : State) (i : Nat) (west : Bool) (f : ChnDir → ChnDir) : (modDir s i west f).now = s.now := rfl
@[simp] theorem modDir_free (s : State) (i : Nat) (west : Bool) (f : ChnDir → ChnDir) : (modDir s i west f).free = s.free := rfl
@[simp] theorem modDir_mem (s : State) (i : Nat) (west : Bool) (f : ChnDir → ChnDir) : (modDir s i west f).mem = s.mem := rfl
@[simp] theorem modDir_poison (s : State) (i : Nat) (west : Bool) (f : ChnDir → ChnDir) : (modDir s i west f).poison = s.poison := rfl
@[simp] theorem modDir_soft (s : State) (i : Nat) (west : Bool) (f : ChnDir → ChnDir) : (modDir s i west f).soft = s.soft := rfl
@[simp] theorem modDir_hostMem (s : State) (i : Nat) (west : Bool) (f : ChnDir → ChnDir) : (modDir s i west f).hostMem = s.hostMem := rfl
@[simp] theorem modDir_hostAbsent (s : State) (i : Nat) (west : Bool) (f : ChnDir → ChnDir) : (modDir s i west f).hostAbsent = s.hostAbsent := rfl
@[simp] theorem modDir_refs (s : State) (i : Nat) (west : Bool) (f : ChnDir → ChnDir) : (modDir s i west f).refs = s.refs := rfl
@[simp] theorem modDir_pwr (s : State) (i : Nat) (west : Bool) (f : ChnDir → ChnDir) : (modDir s i west f).pwr = s.pwr := rfl
@[simp] theorem modDir_thm (s : State) (i : Nat) (west : Bool) (f : ChnDir → ChnDir) : (modDir s i west f).thm = s.thm := rfl
@[simp] theorem modDir_hif (s : State) (i : Nat) (west : Bool) (f : ChnDir → ChnDir) : (modDir s i west f).hif = s.hif := rfl
@[simp] theorem modDir_tel (s : State) (i : Nat) (west : Bool) (f : ChnDir → ChnDir) : (modDir s i west f).tel = s.tel := rfl
@[simp] theorem modDir_sec (s : State) (i : Nat) (west : Bool) (f : ChnDir → ChnDir) : (modDir s i west f).sec = s.sec := rfl
@[simp] theorem modDir_graphs (s : State) (i : Nat) (west : Bool) (f : ChnDir → ChnDir) : (modDir s i west f).graphs = s.graphs := rfl
@[simp] theorem modDir_cores (s : State) (i : Nat) (west : Bool) (f : ChnDir → ChnDir) : (modDir s i west f).cores = s.cores := rfl
@[simp] theorem modDir_clusters (s : State) (i : Nat) (west : Bool) (f : ChnDir → ChnDir) : (modDir s i west f).clusters = s.clusters := rfl
@[simp] theorem modDir_sfu (s : State) (i : Nat) (west : Bool) (f : ChnDir → ChnDir) : (modDir s i west f).sfu = s.sfu := rfl
@[simp] theorem modDir_kvc (s : State) (i : Nat) (west : Bool) (f : ChnDir → ChnDir) : (modDir s i west f).kvc = s.kvc := rfl
@[simp] theorem modDir_ssa (s : State) (i : Nat) (west : Bool) (f : ChnDir → ChnDir) : (modDir s i west f).ssa = s.ssa := rfl
@[simp] theorem modDir_col (s : State) (i : Nat) (west : Bool) (f : ChnDir → ChnDir) : (modDir s i west f).col = s.col := rfl
@[simp] theorem modDir_groups (s : State) (i : Nat) (west : Bool) (f : ChnDir → ChnDir) : (modDir s i west f).groups = s.groups := rfl
@[simp] theorem modDir_fab (s : State) (i : Nat) (west : Bool) (f : ChnDir → ChnDir) : (modDir s i west f).fab = s.fab := rfl
@[simp] theorem modDir_memc (s : State) (i : Nat) (west : Bool) (f : ChnDir → ChnDir) : (modDir s i west f).memc = s.memc := rfl
@[simp] theorem modDir_fls (s : State) (i : Nat) (west : Bool) (f : ChnDir → ChnDir) : (modDir s i west f).fls = s.fls := rfl
@[simp] theorem modDir_vse (s : State) (i : Nat) (west : Bool) (f : ChnDir → ChnDir) : (modDir s i west f).vse = s.vse := rfl

/-! ### `modEntry` -/

@[simp] theorem modEntry_pending (s : State) (gid : Nat) (q : Word) (f : CollEntry → CollEntry) : (modEntry s gid q f).pending = s.pending := rfl
@[simp] theorem modEntry_now (s : State) (gid : Nat) (q : Word) (f : CollEntry → CollEntry) : (modEntry s gid q f).now = s.now := rfl
@[simp] theorem modEntry_free (s : State) (gid : Nat) (q : Word) (f : CollEntry → CollEntry) : (modEntry s gid q f).free = s.free := rfl
@[simp] theorem modEntry_mem (s : State) (gid : Nat) (q : Word) (f : CollEntry → CollEntry) : (modEntry s gid q f).mem = s.mem := rfl
@[simp] theorem modEntry_poison (s : State) (gid : Nat) (q : Word) (f : CollEntry → CollEntry) : (modEntry s gid q f).poison = s.poison := rfl
@[simp] theorem modEntry_soft (s : State) (gid : Nat) (q : Word) (f : CollEntry → CollEntry) : (modEntry s gid q f).soft = s.soft := rfl
@[simp] theorem modEntry_hostMem (s : State) (gid : Nat) (q : Word) (f : CollEntry → CollEntry) : (modEntry s gid q f).hostMem = s.hostMem := rfl
@[simp] theorem modEntry_hostAbsent (s : State) (gid : Nat) (q : Word) (f : CollEntry → CollEntry) : (modEntry s gid q f).hostAbsent = s.hostAbsent := rfl
@[simp] theorem modEntry_refs (s : State) (gid : Nat) (q : Word) (f : CollEntry → CollEntry) : (modEntry s gid q f).refs = s.refs := rfl
@[simp] theorem modEntry_pwr (s : State) (gid : Nat) (q : Word) (f : CollEntry → CollEntry) : (modEntry s gid q f).pwr = s.pwr := rfl
@[simp] theorem modEntry_thm (s : State) (gid : Nat) (q : Word) (f : CollEntry → CollEntry) : (modEntry s gid q f).thm = s.thm := rfl
@[simp] theorem modEntry_hif (s : State) (gid : Nat) (q : Word) (f : CollEntry → CollEntry) : (modEntry s gid q f).hif = s.hif := rfl
@[simp] theorem modEntry_tel (s : State) (gid : Nat) (q : Word) (f : CollEntry → CollEntry) : (modEntry s gid q f).tel = s.tel := rfl
@[simp] theorem modEntry_sec (s : State) (gid : Nat) (q : Word) (f : CollEntry → CollEntry) : (modEntry s gid q f).sec = s.sec := rfl
@[simp] theorem modEntry_graphs (s : State) (gid : Nat) (q : Word) (f : CollEntry → CollEntry) : (modEntry s gid q f).graphs = s.graphs := rfl
@[simp] theorem modEntry_cores (s : State) (gid : Nat) (q : Word) (f : CollEntry → CollEntry) : (modEntry s gid q f).cores = s.cores := rfl
@[simp] theorem modEntry_clusters (s : State) (gid : Nat) (q : Word) (f : CollEntry → CollEntry) : (modEntry s gid q f).clusters = s.clusters := rfl
@[simp] theorem modEntry_sfu (s : State) (gid : Nat) (q : Word) (f : CollEntry → CollEntry) : (modEntry s gid q f).sfu = s.sfu := rfl
@[simp] theorem modEntry_kvc (s : State) (gid : Nat) (q : Word) (f : CollEntry → CollEntry) : (modEntry s gid q f).kvc = s.kvc := rfl
@[simp] theorem modEntry_ssa (s : State) (gid : Nat) (q : Word) (f : CollEntry → CollEntry) : (modEntry s gid q f).ssa = s.ssa := rfl
@[simp] theorem modEntry_chn (s : State) (gid : Nat) (q : Word) (f : CollEntry → CollEntry) : (modEntry s gid q f).chn = s.chn := rfl
@[simp] theorem modEntry_col (s : State) (gid : Nat) (q : Word) (f : CollEntry → CollEntry) : (modEntry s gid q f).col = s.col := rfl
@[simp] theorem modEntry_fab (s : State) (gid : Nat) (q : Word) (f : CollEntry → CollEntry) : (modEntry s gid q f).fab = s.fab := rfl
@[simp] theorem modEntry_memc (s : State) (gid : Nat) (q : Word) (f : CollEntry → CollEntry) : (modEntry s gid q f).memc = s.memc := rfl
@[simp] theorem modEntry_fls (s : State) (gid : Nat) (q : Word) (f : CollEntry → CollEntry) : (modEntry s gid q f).fls = s.fls := rfl
@[simp] theorem modEntry_vse (s : State) (gid : Nat) (q : Word) (f : CollEntry → CollEntry) : (modEntry s gid q f).vse = s.vse := rfl

/-! ### `modChunk` -/

@[simp] theorem modChunk_pending (s : State) (gid : Nat) (q : Word) (c : Nat) (f : ChunkSt → ChunkSt) : (modChunk s gid q c f).pending = s.pending := rfl
@[simp] theorem modChunk_now (s : State) (gid : Nat) (q : Word) (c : Nat) (f : ChunkSt → ChunkSt) : (modChunk s gid q c f).now = s.now := rfl
@[simp] theorem modChunk_free (s : State) (gid : Nat) (q : Word) (c : Nat) (f : ChunkSt → ChunkSt) : (modChunk s gid q c f).free = s.free := rfl
@[simp] theorem modChunk_mem (s : State) (gid : Nat) (q : Word) (c : Nat) (f : ChunkSt → ChunkSt) : (modChunk s gid q c f).mem = s.mem := rfl
@[simp] theorem modChunk_poison (s : State) (gid : Nat) (q : Word) (c : Nat) (f : ChunkSt → ChunkSt) : (modChunk s gid q c f).poison = s.poison := rfl
@[simp] theorem modChunk_soft (s : State) (gid : Nat) (q : Word) (c : Nat) (f : ChunkSt → ChunkSt) : (modChunk s gid q c f).soft = s.soft := rfl
@[simp] theorem modChunk_hostMem (s : State) (gid : Nat) (q : Word) (c : Nat) (f : ChunkSt → ChunkSt) : (modChunk s gid q c f).hostMem = s.hostMem := rfl
@[simp] theorem modChunk_hostAbsent (s : State) (gid : Nat) (q : Word) (c : Nat) (f : ChunkSt → ChunkSt) : (modChunk s gid q c f).hostAbsent = s.hostAbsent := rfl
@[simp] theorem modChunk_refs (s : State) (gid : Nat) (q : Word) (c : Nat) (f : ChunkSt → ChunkSt) : (modChunk s gid q c f).refs = s.refs := rfl
@[simp] theorem modChunk_pwr (s : State) (gid : Nat) (q : Word) (c : Nat) (f : ChunkSt → ChunkSt) : (modChunk s gid q c f).pwr = s.pwr := rfl
@[simp] theorem modChunk_thm (s : State) (gid : Nat) (q : Word) (c : Nat) (f : ChunkSt → ChunkSt) : (modChunk s gid q c f).thm = s.thm := rfl
@[simp] theorem modChunk_hif (s : State) (gid : Nat) (q : Word) (c : Nat) (f : ChunkSt → ChunkSt) : (modChunk s gid q c f).hif = s.hif := rfl
@[simp] theorem modChunk_tel (s : State) (gid : Nat) (q : Word) (c : Nat) (f : ChunkSt → ChunkSt) : (modChunk s gid q c f).tel = s.tel := rfl
@[simp] theorem modChunk_sec (s : State) (gid : Nat) (q : Word) (c : Nat) (f : ChunkSt → ChunkSt) : (modChunk s gid q c f).sec = s.sec := rfl
@[simp] theorem modChunk_graphs (s : State) (gid : Nat) (q : Word) (c : Nat) (f : ChunkSt → ChunkSt) : (modChunk s gid q c f).graphs = s.graphs := rfl
@[simp] theorem modChunk_cores (s : State) (gid : Nat) (q : Word) (c : Nat) (f : ChunkSt → ChunkSt) : (modChunk s gid q c f).cores = s.cores := rfl
@[simp] theorem modChunk_clusters (s : State) (gid : Nat) (q : Word) (c : Nat) (f : ChunkSt → ChunkSt) : (modChunk s gid q c f).clusters = s.clusters := rfl
@[simp] theorem modChunk_sfu (s : State) (gid : Nat) (q : Word) (c : Nat) (f : ChunkSt → ChunkSt) : (modChunk s gid q c f).sfu = s.sfu := rfl
@[simp] theorem modChunk_kvc (s : State) (gid : Nat) (q : Word) (c : Nat) (f : ChunkSt → ChunkSt) : (modChunk s gid q c f).kvc = s.kvc := rfl
@[simp] theorem modChunk_ssa (s : State) (gid : Nat) (q : Word) (c : Nat) (f : ChunkSt → ChunkSt) : (modChunk s gid q c f).ssa = s.ssa := rfl
@[simp] theorem modChunk_chn (s : State) (gid : Nat) (q : Word) (c : Nat) (f : ChunkSt → ChunkSt) : (modChunk s gid q c f).chn = s.chn := rfl
@[simp] theorem modChunk_col (s : State) (gid : Nat) (q : Word) (c : Nat) (f : ChunkSt → ChunkSt) : (modChunk s gid q c f).col = s.col := rfl
@[simp] theorem modChunk_fab (s : State) (gid : Nat) (q : Word) (c : Nat) (f : ChunkSt → ChunkSt) : (modChunk s gid q c f).fab = s.fab := rfl
@[simp] theorem modChunk_memc (s : State) (gid : Nat) (q : Word) (c : Nat) (f : ChunkSt → ChunkSt) : (modChunk s gid q c f).memc = s.memc := rfl
@[simp] theorem modChunk_fls (s : State) (gid : Nat) (q : Word) (c : Nat) (f : ChunkSt → ChunkSt) : (modChunk s gid q c f).fls = s.fls := rfl
@[simp] theorem modChunk_vse (s : State) (gid : Nat) (q : Word) (c : Nat) (f : ChunkSt → ChunkSt) : (modChunk s gid q c f).vse = s.vse := rfl

/-! ### `setCoreFlags` -/

@[simp] theorem setCoreFlags_pending (s : State) (core : Nat) (e : Engine) (f : Nat) : (setCoreFlags s core e f).pending = s.pending := rfl
@[simp] theorem setCoreFlags_now (s : State) (core : Nat) (e : Engine) (f : Nat) : (setCoreFlags s core e f).now = s.now := rfl
@[simp] theorem setCoreFlags_free (s : State) (core : Nat) (e : Engine) (f : Nat) : (setCoreFlags s core e f).free = s.free := rfl
@[simp] theorem setCoreFlags_mem (s : State) (core : Nat) (e : Engine) (f : Nat) : (setCoreFlags s core e f).mem = s.mem := rfl
@[simp] theorem setCoreFlags_poison (s : State) (core : Nat) (e : Engine) (f : Nat) : (setCoreFlags s core e f).poison = s.poison := rfl
@[simp] theorem setCoreFlags_soft (s : State) (core : Nat) (e : Engine) (f : Nat) : (setCoreFlags s core e f).soft = s.soft := rfl
@[simp] theorem setCoreFlags_hostMem (s : State) (core : Nat) (e : Engine) (f : Nat) : (setCoreFlags s core e f).hostMem = s.hostMem := rfl
@[simp] theorem setCoreFlags_hostAbsent (s : State) (core : Nat) (e : Engine) (f : Nat) : (setCoreFlags s core e f).hostAbsent = s.hostAbsent := rfl
@[simp] theorem setCoreFlags_refs (s : State) (core : Nat) (e : Engine) (f : Nat) : (setCoreFlags s core e f).refs = s.refs := rfl
@[simp] theorem setCoreFlags_pwr (s : State) (core : Nat) (e : Engine) (f : Nat) : (setCoreFlags s core e f).pwr = s.pwr := rfl
@[simp] theorem setCoreFlags_thm (s : State) (core : Nat) (e : Engine) (f : Nat) : (setCoreFlags s core e f).thm = s.thm := rfl
@[simp] theorem setCoreFlags_hif (s : State) (core : Nat) (e : Engine) (f : Nat) : (setCoreFlags s core e f).hif = s.hif := rfl
@[simp] theorem setCoreFlags_tel (s : State) (core : Nat) (e : Engine) (f : Nat) : (setCoreFlags s core e f).tel = s.tel := rfl
@[simp] theorem setCoreFlags_sec (s : State) (core : Nat) (e : Engine) (f : Nat) : (setCoreFlags s core e f).sec = s.sec := rfl
@[simp] theorem setCoreFlags_graphs (s : State) (core : Nat) (e : Engine) (f : Nat) : (setCoreFlags s core e f).graphs = s.graphs := rfl
@[simp] theorem setCoreFlags_clusters (s : State) (core : Nat) (e : Engine) (f : Nat) : (setCoreFlags s core e f).clusters = s.clusters := rfl
@[simp] theorem setCoreFlags_sfu (s : State) (core : Nat) (e : Engine) (f : Nat) : (setCoreFlags s core e f).sfu = s.sfu := rfl
@[simp] theorem setCoreFlags_kvc (s : State) (core : Nat) (e : Engine) (f : Nat) : (setCoreFlags s core e f).kvc = s.kvc := rfl
@[simp] theorem setCoreFlags_ssa (s : State) (core : Nat) (e : Engine) (f : Nat) : (setCoreFlags s core e f).ssa = s.ssa := rfl
@[simp] theorem setCoreFlags_chn (s : State) (core : Nat) (e : Engine) (f : Nat) : (setCoreFlags s core e f).chn = s.chn := rfl
@[simp] theorem setCoreFlags_col (s : State) (core : Nat) (e : Engine) (f : Nat) : (setCoreFlags s core e f).col = s.col := rfl
@[simp] theorem setCoreFlags_groups (s : State) (core : Nat) (e : Engine) (f : Nat) : (setCoreFlags s core e f).groups = s.groups := rfl
@[simp] theorem setCoreFlags_fab (s : State) (core : Nat) (e : Engine) (f : Nat) : (setCoreFlags s core e f).fab = s.fab := rfl
@[simp] theorem setCoreFlags_memc (s : State) (core : Nat) (e : Engine) (f : Nat) : (setCoreFlags s core e f).memc = s.memc := rfl
@[simp] theorem setCoreFlags_fls (s : State) (core : Nat) (e : Engine) (f : Nat) : (setCoreFlags s core e f).fls = s.fls := rfl
@[simp] theorem setCoreFlags_vse (s : State) (core : Nat) (e : Engine) (f : Nat) : (setCoreFlags s core e f).vse = s.vse := rfl

/-! ### `setSsaFlags` -/

@[simp] theorem setSsaFlags_pending (s : State) (k f : Nat) : (setSsaFlags s k f).pending = s.pending := rfl
@[simp] theorem setSsaFlags_now (s : State) (k f : Nat) : (setSsaFlags s k f).now = s.now := rfl
@[simp] theorem setSsaFlags_free (s : State) (k f : Nat) : (setSsaFlags s k f).free = s.free := rfl
@[simp] theorem setSsaFlags_mem (s : State) (k f : Nat) : (setSsaFlags s k f).mem = s.mem := rfl
@[simp] theorem setSsaFlags_poison (s : State) (k f : Nat) : (setSsaFlags s k f).poison = s.poison := rfl
@[simp] theorem setSsaFlags_soft (s : State) (k f : Nat) : (setSsaFlags s k f).soft = s.soft := rfl
@[simp] theorem setSsaFlags_hostMem (s : State) (k f : Nat) : (setSsaFlags s k f).hostMem = s.hostMem := rfl
@[simp] theorem setSsaFlags_hostAbsent (s : State) (k f : Nat) : (setSsaFlags s k f).hostAbsent = s.hostAbsent := rfl
@[simp] theorem setSsaFlags_refs (s : State) (k f : Nat) : (setSsaFlags s k f).refs = s.refs := rfl
@[simp] theorem setSsaFlags_pwr (s : State) (k f : Nat) : (setSsaFlags s k f).pwr = s.pwr := rfl
@[simp] theorem setSsaFlags_thm (s : State) (k f : Nat) : (setSsaFlags s k f).thm = s.thm := rfl
@[simp] theorem setSsaFlags_hif (s : State) (k f : Nat) : (setSsaFlags s k f).hif = s.hif := rfl
@[simp] theorem setSsaFlags_tel (s : State) (k f : Nat) : (setSsaFlags s k f).tel = s.tel := rfl
@[simp] theorem setSsaFlags_sec (s : State) (k f : Nat) : (setSsaFlags s k f).sec = s.sec := rfl
@[simp] theorem setSsaFlags_graphs (s : State) (k f : Nat) : (setSsaFlags s k f).graphs = s.graphs := rfl
@[simp] theorem setSsaFlags_cores (s : State) (k f : Nat) : (setSsaFlags s k f).cores = s.cores := rfl
@[simp] theorem setSsaFlags_clusters (s : State) (k f : Nat) : (setSsaFlags s k f).clusters = s.clusters := rfl
@[simp] theorem setSsaFlags_sfu (s : State) (k f : Nat) : (setSsaFlags s k f).sfu = s.sfu := rfl
@[simp] theorem setSsaFlags_kvc (s : State) (k f : Nat) : (setSsaFlags s k f).kvc = s.kvc := rfl
@[simp] theorem setSsaFlags_chn (s : State) (k f : Nat) : (setSsaFlags s k f).chn = s.chn := rfl
@[simp] theorem setSsaFlags_col (s : State) (k f : Nat) : (setSsaFlags s k f).col = s.col := rfl
@[simp] theorem setSsaFlags_groups (s : State) (k f : Nat) : (setSsaFlags s k f).groups = s.groups := rfl
@[simp] theorem setSsaFlags_fab (s : State) (k f : Nat) : (setSsaFlags s k f).fab = s.fab := rfl
@[simp] theorem setSsaFlags_memc (s : State) (k f : Nat) : (setSsaFlags s k f).memc = s.memc := rfl
@[simp] theorem setSsaFlags_fls (s : State) (k f : Nat) : (setSsaFlags s k f).fls = s.fls := rfl
@[simp] theorem setSsaFlags_vse (s : State) (k f : Nat) : (setSsaFlags s k f).vse = s.vse := rfl

/-! ### `setColFlags` -/

@[simp] theorem setColFlags_pending (s : State) (d f : Nat) : (setColFlags s d f).pending = s.pending := rfl
@[simp] theorem setColFlags_now (s : State) (d f : Nat) : (setColFlags s d f).now = s.now := rfl
@[simp] theorem setColFlags_free (s : State) (d f : Nat) : (setColFlags s d f).free = s.free := rfl
@[simp] theorem setColFlags_mem (s : State) (d f : Nat) : (setColFlags s d f).mem = s.mem := rfl
@[simp] theorem setColFlags_poison (s : State) (d f : Nat) : (setColFlags s d f).poison = s.poison := rfl
@[simp] theorem setColFlags_soft (s : State) (d f : Nat) : (setColFlags s d f).soft = s.soft := rfl
@[simp] theorem setColFlags_hostMem (s : State) (d f : Nat) : (setColFlags s d f).hostMem = s.hostMem := rfl
@[simp] theorem setColFlags_hostAbsent (s : State) (d f : Nat) : (setColFlags s d f).hostAbsent = s.hostAbsent := rfl
@[simp] theorem setColFlags_refs (s : State) (d f : Nat) : (setColFlags s d f).refs = s.refs := rfl
@[simp] theorem setColFlags_pwr (s : State) (d f : Nat) : (setColFlags s d f).pwr = s.pwr := rfl
@[simp] theorem setColFlags_thm (s : State) (d f : Nat) : (setColFlags s d f).thm = s.thm := rfl
@[simp] theorem setColFlags_hif (s : State) (d f : Nat) : (setColFlags s d f).hif = s.hif := rfl
@[simp] theorem setColFlags_tel (s : State) (d f : Nat) : (setColFlags s d f).tel = s.tel := rfl
@[simp] theorem setColFlags_sec (s : State) (d f : Nat) : (setColFlags s d f).sec = s.sec := rfl
@[simp] theorem setColFlags_graphs (s : State) (d f : Nat) : (setColFlags s d f).graphs = s.graphs := rfl
@[simp] theorem setColFlags_cores (s : State) (d f : Nat) : (setColFlags s d f).cores = s.cores := rfl
@[simp] theorem setColFlags_clusters (s : State) (d f : Nat) : (setColFlags s d f).clusters = s.clusters := rfl
@[simp] theorem setColFlags_sfu (s : State) (d f : Nat) : (setColFlags s d f).sfu = s.sfu := rfl
@[simp] theorem setColFlags_kvc (s : State) (d f : Nat) : (setColFlags s d f).kvc = s.kvc := rfl
@[simp] theorem setColFlags_ssa (s : State) (d f : Nat) : (setColFlags s d f).ssa = s.ssa := rfl
@[simp] theorem setColFlags_chn (s : State) (d f : Nat) : (setColFlags s d f).chn = s.chn := rfl
@[simp] theorem setColFlags_groups (s : State) (d f : Nat) : (setColFlags s d f).groups = s.groups := rfl
@[simp] theorem setColFlags_fab (s : State) (d f : Nat) : (setColFlags s d f).fab = s.fab := rfl
@[simp] theorem setColFlags_memc (s : State) (d f : Nat) : (setColFlags s d f).memc = s.memc := rfl
@[simp] theorem setColFlags_fls (s : State) (d f : Nat) : (setColFlags s d f).fls = s.fls := rfl
@[simp] theorem setColFlags_vse (s : State) (d f : Nat) : (setColFlags s d f).vse = s.vse := rfl

/-! ### `setMemAdderFlags` -/

@[simp] theorem setMemAdderFlags_pending (s : State) (k f : Nat) : (setMemAdderFlags s k f).pending = s.pending := rfl
@[simp] theorem setMemAdderFlags_now (s : State) (k f : Nat) : (setMemAdderFlags s k f).now = s.now := rfl
@[simp] theorem setMemAdderFlags_free (s : State) (k f : Nat) : (setMemAdderFlags s k f).free = s.free := rfl
@[simp] theorem setMemAdderFlags_mem (s : State) (k f : Nat) : (setMemAdderFlags s k f).mem = s.mem := rfl
@[simp] theorem setMemAdderFlags_poison (s : State) (k f : Nat) : (setMemAdderFlags s k f).poison = s.poison := rfl
@[simp] theorem setMemAdderFlags_soft (s : State) (k f : Nat) : (setMemAdderFlags s k f).soft = s.soft := rfl
@[simp] theorem setMemAdderFlags_hostMem (s : State) (k f : Nat) : (setMemAdderFlags s k f).hostMem = s.hostMem := rfl
@[simp] theorem setMemAdderFlags_hostAbsent (s : State) (k f : Nat) : (setMemAdderFlags s k f).hostAbsent = s.hostAbsent := rfl
@[simp] theorem setMemAdderFlags_refs (s : State) (k f : Nat) : (setMemAdderFlags s k f).refs = s.refs := rfl
@[simp] theorem setMemAdderFlags_pwr (s : State) (k f : Nat) : (setMemAdderFlags s k f).pwr = s.pwr := rfl
@[simp] theorem setMemAdderFlags_thm (s : State) (k f : Nat) : (setMemAdderFlags s k f).thm = s.thm := rfl
@[simp] theorem setMemAdderFlags_hif (s : State) (k f : Nat) : (setMemAdderFlags s k f).hif = s.hif := rfl
@[simp] theorem setMemAdderFlags_tel (s : State) (k f : Nat) : (setMemAdderFlags s k f).tel = s.tel := rfl
@[simp] theorem setMemAdderFlags_sec (s : State) (k f : Nat) : (setMemAdderFlags s k f).sec = s.sec := rfl
@[simp] theorem setMemAdderFlags_graphs (s : State) (k f : Nat) : (setMemAdderFlags s k f).graphs = s.graphs := rfl
@[simp] theorem setMemAdderFlags_cores (s : State) (k f : Nat) : (setMemAdderFlags s k f).cores = s.cores := rfl
@[simp] theorem setMemAdderFlags_clusters (s : State) (k f : Nat) : (setMemAdderFlags s k f).clusters = s.clusters := rfl
@[simp] theorem setMemAdderFlags_sfu (s : State) (k f : Nat) : (setMemAdderFlags s k f).sfu = s.sfu := rfl
@[simp] theorem setMemAdderFlags_kvc (s : State) (k f : Nat) : (setMemAdderFlags s k f).kvc = s.kvc := rfl
@[simp] theorem setMemAdderFlags_ssa (s : State) (k f : Nat) : (setMemAdderFlags s k f).ssa = s.ssa := rfl
@[simp] theorem setMemAdderFlags_chn (s : State) (k f : Nat) : (setMemAdderFlags s k f).chn = s.chn := rfl
@[simp] theorem setMemAdderFlags_col (s : State) (k f : Nat) : (setMemAdderFlags s k f).col = s.col := rfl
@[simp] theorem setMemAdderFlags_groups (s : State) (k f : Nat) : (setMemAdderFlags s k f).groups = s.groups := rfl
@[simp] theorem setMemAdderFlags_fab (s : State) (k f : Nat) : (setMemAdderFlags s k f).fab = s.fab := rfl
@[simp] theorem setMemAdderFlags_fls (s : State) (k f : Nat) : (setMemAdderFlags s k f).fls = s.fls := rfl
@[simp] theorem setMemAdderFlags_vse (s : State) (k f : Nat) : (setMemAdderFlags s k f).vse = s.vse := rfl

/-! ### `setCluAdderFlags` -/

@[simp] theorem setCluAdderFlags_pending (s : State) (c f : Nat) : (setCluAdderFlags s c f).pending = s.pending := rfl
@[simp] theorem setCluAdderFlags_now (s : State) (c f : Nat) : (setCluAdderFlags s c f).now = s.now := rfl
@[simp] theorem setCluAdderFlags_free (s : State) (c f : Nat) : (setCluAdderFlags s c f).free = s.free := rfl
@[simp] theorem setCluAdderFlags_mem (s : State) (c f : Nat) : (setCluAdderFlags s c f).mem = s.mem := rfl
@[simp] theorem setCluAdderFlags_poison (s : State) (c f : Nat) : (setCluAdderFlags s c f).poison = s.poison := rfl
@[simp] theorem setCluAdderFlags_soft (s : State) (c f : Nat) : (setCluAdderFlags s c f).soft = s.soft := rfl
@[simp] theorem setCluAdderFlags_hostMem (s : State) (c f : Nat) : (setCluAdderFlags s c f).hostMem = s.hostMem := rfl
@[simp] theorem setCluAdderFlags_hostAbsent (s : State) (c f : Nat) : (setCluAdderFlags s c f).hostAbsent = s.hostAbsent := rfl
@[simp] theorem setCluAdderFlags_refs (s : State) (c f : Nat) : (setCluAdderFlags s c f).refs = s.refs := rfl
@[simp] theorem setCluAdderFlags_pwr (s : State) (c f : Nat) : (setCluAdderFlags s c f).pwr = s.pwr := rfl
@[simp] theorem setCluAdderFlags_thm (s : State) (c f : Nat) : (setCluAdderFlags s c f).thm = s.thm := rfl
@[simp] theorem setCluAdderFlags_hif (s : State) (c f : Nat) : (setCluAdderFlags s c f).hif = s.hif := rfl
@[simp] theorem setCluAdderFlags_tel (s : State) (c f : Nat) : (setCluAdderFlags s c f).tel = s.tel := rfl
@[simp] theorem setCluAdderFlags_sec (s : State) (c f : Nat) : (setCluAdderFlags s c f).sec = s.sec := rfl
@[simp] theorem setCluAdderFlags_graphs (s : State) (c f : Nat) : (setCluAdderFlags s c f).graphs = s.graphs := rfl
@[simp] theorem setCluAdderFlags_cores (s : State) (c f : Nat) : (setCluAdderFlags s c f).cores = s.cores := rfl
@[simp] theorem setCluAdderFlags_sfu (s : State) (c f : Nat) : (setCluAdderFlags s c f).sfu = s.sfu := rfl
@[simp] theorem setCluAdderFlags_kvc (s : State) (c f : Nat) : (setCluAdderFlags s c f).kvc = s.kvc := rfl
@[simp] theorem setCluAdderFlags_ssa (s : State) (c f : Nat) : (setCluAdderFlags s c f).ssa = s.ssa := rfl
@[simp] theorem setCluAdderFlags_chn (s : State) (c f : Nat) : (setCluAdderFlags s c f).chn = s.chn := rfl
@[simp] theorem setCluAdderFlags_col (s : State) (c f : Nat) : (setCluAdderFlags s c f).col = s.col := rfl
@[simp] theorem setCluAdderFlags_groups (s : State) (c f : Nat) : (setCluAdderFlags s c f).groups = s.groups := rfl
@[simp] theorem setCluAdderFlags_fab (s : State) (c f : Nat) : (setCluAdderFlags s c f).fab = s.fab := rfl
@[simp] theorem setCluAdderFlags_memc (s : State) (c f : Nat) : (setCluAdderFlags s c f).memc = s.memc := rfl
@[simp] theorem setCluAdderFlags_fls (s : State) (c f : Nat) : (setCluAdderFlags s c f).fls = s.fls := rfl
@[simp] theorem setCluAdderFlags_vse (s : State) (c f : Nat) : (setCluAdderFlags s c f).vse = s.vse := rfl

/-! ### `modCh` -/

@[simp] theorem modCh_pending (s : State) (c : Nat) (f : FlashCh → FlashCh) : (modCh s c f).pending = s.pending := rfl
@[simp] theorem modCh_now (s : State) (c : Nat) (f : FlashCh → FlashCh) : (modCh s c f).now = s.now := rfl
@[simp] theorem modCh_free (s : State) (c : Nat) (f : FlashCh → FlashCh) : (modCh s c f).free = s.free := rfl
@[simp] theorem modCh_mem (s : State) (c : Nat) (f : FlashCh → FlashCh) : (modCh s c f).mem = s.mem := rfl
@[simp] theorem modCh_poison (s : State) (c : Nat) (f : FlashCh → FlashCh) : (modCh s c f).poison = s.poison := rfl
@[simp] theorem modCh_soft (s : State) (c : Nat) (f : FlashCh → FlashCh) : (modCh s c f).soft = s.soft := rfl
@[simp] theorem modCh_hostMem (s : State) (c : Nat) (f : FlashCh → FlashCh) : (modCh s c f).hostMem = s.hostMem := rfl
@[simp] theorem modCh_hostAbsent (s : State) (c : Nat) (f : FlashCh → FlashCh) : (modCh s c f).hostAbsent = s.hostAbsent := rfl
@[simp] theorem modCh_refs (s : State) (c : Nat) (f : FlashCh → FlashCh) : (modCh s c f).refs = s.refs := rfl
@[simp] theorem modCh_pwr (s : State) (c : Nat) (f : FlashCh → FlashCh) : (modCh s c f).pwr = s.pwr := rfl
@[simp] theorem modCh_thm (s : State) (c : Nat) (f : FlashCh → FlashCh) : (modCh s c f).thm = s.thm := rfl
@[simp] theorem modCh_hif (s : State) (c : Nat) (f : FlashCh → FlashCh) : (modCh s c f).hif = s.hif := rfl
@[simp] theorem modCh_tel (s : State) (c : Nat) (f : FlashCh → FlashCh) : (modCh s c f).tel = s.tel := rfl
@[simp] theorem modCh_sec (s : State) (c : Nat) (f : FlashCh → FlashCh) : (modCh s c f).sec = s.sec := rfl
@[simp] theorem modCh_graphs (s : State) (c : Nat) (f : FlashCh → FlashCh) : (modCh s c f).graphs = s.graphs := rfl
@[simp] theorem modCh_cores (s : State) (c : Nat) (f : FlashCh → FlashCh) : (modCh s c f).cores = s.cores := rfl
@[simp] theorem modCh_clusters (s : State) (c : Nat) (f : FlashCh → FlashCh) : (modCh s c f).clusters = s.clusters := rfl
@[simp] theorem modCh_sfu (s : State) (c : Nat) (f : FlashCh → FlashCh) : (modCh s c f).sfu = s.sfu := rfl
@[simp] theorem modCh_kvc (s : State) (c : Nat) (f : FlashCh → FlashCh) : (modCh s c f).kvc = s.kvc := rfl
@[simp] theorem modCh_ssa (s : State) (c : Nat) (f : FlashCh → FlashCh) : (modCh s c f).ssa = s.ssa := rfl
@[simp] theorem modCh_chn (s : State) (c : Nat) (f : FlashCh → FlashCh) : (modCh s c f).chn = s.chn := rfl
@[simp] theorem modCh_col (s : State) (c : Nat) (f : FlashCh → FlashCh) : (modCh s c f).col = s.col := rfl
@[simp] theorem modCh_groups (s : State) (c : Nat) (f : FlashCh → FlashCh) : (modCh s c f).groups = s.groups := rfl
@[simp] theorem modCh_fab (s : State) (c : Nat) (f : FlashCh → FlashCh) : (modCh s c f).fab = s.fab := rfl
@[simp] theorem modCh_memc (s : State) (c : Nat) (f : FlashCh → FlashCh) : (modCh s c f).memc = s.memc := rfl
@[simp] theorem modCh_vse (s : State) (c : Nat) (f : FlashCh → FlashCh) : (modCh s c f).vse = s.vse := rfl

/-! ### `setJob` -/

@[simp] theorem setJob_pending (s : State) (k : Nat) (j : Option SsaJob) : (setJob s k j).pending = s.pending := rfl
@[simp] theorem setJob_now (s : State) (k : Nat) (j : Option SsaJob) : (setJob s k j).now = s.now := rfl
@[simp] theorem setJob_free (s : State) (k : Nat) (j : Option SsaJob) : (setJob s k j).free = s.free := rfl
@[simp] theorem setJob_mem (s : State) (k : Nat) (j : Option SsaJob) : (setJob s k j).mem = s.mem := rfl
@[simp] theorem setJob_poison (s : State) (k : Nat) (j : Option SsaJob) : (setJob s k j).poison = s.poison := rfl
@[simp] theorem setJob_soft (s : State) (k : Nat) (j : Option SsaJob) : (setJob s k j).soft = s.soft := rfl
@[simp] theorem setJob_hostMem (s : State) (k : Nat) (j : Option SsaJob) : (setJob s k j).hostMem = s.hostMem := rfl
@[simp] theorem setJob_hostAbsent (s : State) (k : Nat) (j : Option SsaJob) : (setJob s k j).hostAbsent = s.hostAbsent := rfl
@[simp] theorem setJob_refs (s : State) (k : Nat) (j : Option SsaJob) : (setJob s k j).refs = s.refs := rfl
@[simp] theorem setJob_pwr (s : State) (k : Nat) (j : Option SsaJob) : (setJob s k j).pwr = s.pwr := rfl
@[simp] theorem setJob_thm (s : State) (k : Nat) (j : Option SsaJob) : (setJob s k j).thm = s.thm := rfl
@[simp] theorem setJob_hif (s : State) (k : Nat) (j : Option SsaJob) : (setJob s k j).hif = s.hif := rfl
@[simp] theorem setJob_tel (s : State) (k : Nat) (j : Option SsaJob) : (setJob s k j).tel = s.tel := rfl
@[simp] theorem setJob_sec (s : State) (k : Nat) (j : Option SsaJob) : (setJob s k j).sec = s.sec := rfl
@[simp] theorem setJob_graphs (s : State) (k : Nat) (j : Option SsaJob) : (setJob s k j).graphs = s.graphs := rfl
@[simp] theorem setJob_cores (s : State) (k : Nat) (j : Option SsaJob) : (setJob s k j).cores = s.cores := rfl
@[simp] theorem setJob_clusters (s : State) (k : Nat) (j : Option SsaJob) : (setJob s k j).clusters = s.clusters := rfl
@[simp] theorem setJob_sfu (s : State) (k : Nat) (j : Option SsaJob) : (setJob s k j).sfu = s.sfu := rfl
@[simp] theorem setJob_kvc (s : State) (k : Nat) (j : Option SsaJob) : (setJob s k j).kvc = s.kvc := rfl
@[simp] theorem setJob_chn (s : State) (k : Nat) (j : Option SsaJob) : (setJob s k j).chn = s.chn := rfl
@[simp] theorem setJob_col (s : State) (k : Nat) (j : Option SsaJob) : (setJob s k j).col = s.col := rfl
@[simp] theorem setJob_groups (s : State) (k : Nat) (j : Option SsaJob) : (setJob s k j).groups = s.groups := rfl
@[simp] theorem setJob_fab (s : State) (k : Nat) (j : Option SsaJob) : (setJob s k j).fab = s.fab := rfl
@[simp] theorem setJob_memc (s : State) (k : Nat) (j : Option SsaJob) : (setJob s k j).memc = s.memc := rfl
@[simp] theorem setJob_fls (s : State) (k : Nat) (j : Option SsaJob) : (setJob s k j).fls = s.fls := rfl
@[simp] theorem setJob_vse (s : State) (k : Nat) (j : Option SsaJob) : (setJob s k j).vse = s.vse := rfl

/-! ### `modStrm` -/

@[simp] theorem modStrm_pending (s : State) (b : Bound) (f : Stream → Stream) : (modStrm s b f).pending = s.pending := rfl
@[simp] theorem modStrm_now (s : State) (b : Bound) (f : Stream → Stream) : (modStrm s b f).now = s.now := rfl
@[simp] theorem modStrm_free (s : State) (b : Bound) (f : Stream → Stream) : (modStrm s b f).free = s.free := rfl
@[simp] theorem modStrm_mem (s : State) (b : Bound) (f : Stream → Stream) : (modStrm s b f).mem = s.mem := rfl
@[simp] theorem modStrm_poison (s : State) (b : Bound) (f : Stream → Stream) : (modStrm s b f).poison = s.poison := rfl
@[simp] theorem modStrm_soft (s : State) (b : Bound) (f : Stream → Stream) : (modStrm s b f).soft = s.soft := rfl
@[simp] theorem modStrm_hostMem (s : State) (b : Bound) (f : Stream → Stream) : (modStrm s b f).hostMem = s.hostMem := rfl
@[simp] theorem modStrm_hostAbsent (s : State) (b : Bound) (f : Stream → Stream) : (modStrm s b f).hostAbsent = s.hostAbsent := rfl
@[simp] theorem modStrm_refs (s : State) (b : Bound) (f : Stream → Stream) : (modStrm s b f).refs = s.refs := rfl
@[simp] theorem modStrm_pwr (s : State) (b : Bound) (f : Stream → Stream) : (modStrm s b f).pwr = s.pwr := rfl
@[simp] theorem modStrm_thm (s : State) (b : Bound) (f : Stream → Stream) : (modStrm s b f).thm = s.thm := rfl
@[simp] theorem modStrm_hif (s : State) (b : Bound) (f : Stream → Stream) : (modStrm s b f).hif = s.hif := rfl
@[simp] theorem modStrm_tel (s : State) (b : Bound) (f : Stream → Stream) : (modStrm s b f).tel = s.tel := rfl
@[simp] theorem modStrm_sec (s : State) (b : Bound) (f : Stream → Stream) : (modStrm s b f).sec = s.sec := rfl
@[simp] theorem modStrm_cores (s : State) (b : Bound) (f : Stream → Stream) : (modStrm s b f).cores = s.cores := rfl
@[simp] theorem modStrm_clusters (s : State) (b : Bound) (f : Stream → Stream) : (modStrm s b f).clusters = s.clusters := rfl
@[simp] theorem modStrm_sfu (s : State) (b : Bound) (f : Stream → Stream) : (modStrm s b f).sfu = s.sfu := rfl
@[simp] theorem modStrm_kvc (s : State) (b : Bound) (f : Stream → Stream) : (modStrm s b f).kvc = s.kvc := rfl
@[simp] theorem modStrm_ssa (s : State) (b : Bound) (f : Stream → Stream) : (modStrm s b f).ssa = s.ssa := rfl
@[simp] theorem modStrm_chn (s : State) (b : Bound) (f : Stream → Stream) : (modStrm s b f).chn = s.chn := rfl
@[simp] theorem modStrm_col (s : State) (b : Bound) (f : Stream → Stream) : (modStrm s b f).col = s.col := rfl
@[simp] theorem modStrm_groups (s : State) (b : Bound) (f : Stream → Stream) : (modStrm s b f).groups = s.groups := rfl
@[simp] theorem modStrm_fab (s : State) (b : Bound) (f : Stream → Stream) : (modStrm s b f).fab = s.fab := rfl
@[simp] theorem modStrm_memc (s : State) (b : Bound) (f : Stream → Stream) : (modStrm s b f).memc = s.memc := rfl
@[simp] theorem modStrm_fls (s : State) (b : Bound) (f : Stream → Stream) : (modStrm s b f).fls = s.fls := rfl
@[simp] theorem modStrm_vse (s : State) (b : Bound) (f : Stream → Stream) : (modStrm s b f).vse = s.vse := rfl

/-! ### `refTick` -/

@[simp] theorem refTick_pending (s : State) : (refTick s).pending = s.pending := rfl
@[simp] theorem refTick_free (s : State) : (refTick s).free = s.free := rfl
@[simp] theorem refTick_mem (s : State) : (refTick s).mem = s.mem := rfl
@[simp] theorem refTick_poison (s : State) : (refTick s).poison = s.poison := rfl
@[simp] theorem refTick_soft (s : State) : (refTick s).soft = s.soft := rfl
@[simp] theorem refTick_hostMem (s : State) : (refTick s).hostMem = s.hostMem := rfl
@[simp] theorem refTick_hostAbsent (s : State) : (refTick s).hostAbsent = s.hostAbsent := rfl
@[simp] theorem refTick_refs (s : State) : (refTick s).refs = s.refs := rfl
@[simp] theorem refTick_pwr (s : State) : (refTick s).pwr = s.pwr := rfl
@[simp] theorem refTick_thm (s : State) : (refTick s).thm = s.thm := rfl
@[simp] theorem refTick_tel (s : State) : (refTick s).tel = s.tel := rfl
@[simp] theorem refTick_sec (s : State) : (refTick s).sec = s.sec := rfl
@[simp] theorem refTick_graphs (s : State) : (refTick s).graphs = s.graphs := rfl
@[simp] theorem refTick_cores (s : State) : (refTick s).cores = s.cores := rfl
@[simp] theorem refTick_clusters (s : State) : (refTick s).clusters = s.clusters := rfl
@[simp] theorem refTick_sfu (s : State) : (refTick s).sfu = s.sfu := rfl
@[simp] theorem refTick_kvc (s : State) : (refTick s).kvc = s.kvc := rfl
@[simp] theorem refTick_chn (s : State) : (refTick s).chn = s.chn := rfl
@[simp] theorem refTick_col (s : State) : (refTick s).col = s.col := rfl
@[simp] theorem refTick_groups (s : State) : (refTick s).groups = s.groups := rfl
@[simp] theorem refTick_memc (s : State) : (refTick s).memc = s.memc := rfl
@[simp] theorem refTick_fls (s : State) : (refTick s).fls = s.fls := rfl
@[simp] theorem refTick_vse (s : State) : (refTick s).vse = s.vse := rfl

/-! ### `modVse` -/

@[simp] theorem modVse_pending (s : State) (f : Vse → Vse) : (modVse s f).pending = s.pending := rfl
@[simp] theorem modVse_now (s : State) (f : Vse → Vse) : (modVse s f).now = s.now := rfl
@[simp] theorem modVse_free (s : State) (f : Vse → Vse) : (modVse s f).free = s.free := rfl
@[simp] theorem modVse_mem (s : State) (f : Vse → Vse) : (modVse s f).mem = s.mem := rfl
@[simp] theorem modVse_poison (s : State) (f : Vse → Vse) : (modVse s f).poison = s.poison := rfl
@[simp] theorem modVse_soft (s : State) (f : Vse → Vse) : (modVse s f).soft = s.soft := rfl
@[simp] theorem modVse_hostMem (s : State) (f : Vse → Vse) : (modVse s f).hostMem = s.hostMem := rfl
@[simp] theorem modVse_hostAbsent (s : State) (f : Vse → Vse) : (modVse s f).hostAbsent = s.hostAbsent := rfl
@[simp] theorem modVse_refs (s : State) (f : Vse → Vse) : (modVse s f).refs = s.refs := rfl
@[simp] theorem modVse_pwr (s : State) (f : Vse → Vse) : (modVse s f).pwr = s.pwr := rfl
@[simp] theorem modVse_thm (s : State) (f : Vse → Vse) : (modVse s f).thm = s.thm := rfl
@[simp] theorem modVse_hif (s : State) (f : Vse → Vse) : (modVse s f).hif = s.hif := rfl
@[simp] theorem modVse_tel (s : State) (f : Vse → Vse) : (modVse s f).tel = s.tel := rfl
@[simp] theorem modVse_sec (s : State) (f : Vse → Vse) : (modVse s f).sec = s.sec := rfl
@[simp] theorem modVse_graphs (s : State) (f : Vse → Vse) : (modVse s f).graphs = s.graphs := rfl
@[simp] theorem modVse_cores (s : State) (f : Vse → Vse) : (modVse s f).cores = s.cores := rfl
@[simp] theorem modVse_clusters (s : State) (f : Vse → Vse) : (modVse s f).clusters = s.clusters := rfl
@[simp] theorem modVse_sfu (s : State) (f : Vse → Vse) : (modVse s f).sfu = s.sfu := rfl
@[simp] theorem modVse_kvc (s : State) (f : Vse → Vse) : (modVse s f).kvc = s.kvc := rfl
@[simp] theorem modVse_ssa (s : State) (f : Vse → Vse) : (modVse s f).ssa = s.ssa := rfl
@[simp] theorem modVse_chn (s : State) (f : Vse → Vse) : (modVse s f).chn = s.chn := rfl
@[simp] theorem modVse_col (s : State) (f : Vse → Vse) : (modVse s f).col = s.col := rfl
@[simp] theorem modVse_groups (s : State) (f : Vse → Vse) : (modVse s f).groups = s.groups := rfl
@[simp] theorem modVse_fab (s : State) (f : Vse → Vse) : (modVse s f).fab = s.fab := rfl
@[simp] theorem modVse_memc (s : State) (f : Vse → Vse) : (modVse s f).memc = s.memc := rfl
@[simp] theorem modVse_fls (s : State) (f : Vse → Vse) : (modVse s f).fls = s.fls := rfl

/-! ### `modKvc` -/

@[simp] theorem modKvc_pending (s : State) (f : Kvc → Kvc) : (modKvc s f).pending = s.pending := rfl
@[simp] theorem modKvc_now (s : State) (f : Kvc → Kvc) : (modKvc s f).now = s.now := rfl
@[simp] theorem modKvc_free (s : State) (f : Kvc → Kvc) : (modKvc s f).free = s.free := rfl
@[simp] theorem modKvc_mem (s : State) (f : Kvc → Kvc) : (modKvc s f).mem = s.mem := rfl
@[simp] theorem modKvc_poison (s : State) (f : Kvc → Kvc) : (modKvc s f).poison = s.poison := rfl
@[simp] theorem modKvc_soft (s : State) (f : Kvc → Kvc) : (modKvc s f).soft = s.soft := rfl
@[simp] theorem modKvc_hostMem (s : State) (f : Kvc → Kvc) : (modKvc s f).hostMem = s.hostMem := rfl
@[simp] theorem modKvc_hostAbsent (s : State) (f : Kvc → Kvc) : (modKvc s f).hostAbsent = s.hostAbsent := rfl
@[simp] theorem modKvc_refs (s : State) (f : Kvc → Kvc) : (modKvc s f).refs = s.refs := rfl
@[simp] theorem modKvc_pwr (s : State) (f : Kvc → Kvc) : (modKvc s f).pwr = s.pwr := rfl
@[simp] theorem modKvc_thm (s : State) (f : Kvc → Kvc) : (modKvc s f).thm = s.thm := rfl
@[simp] theorem modKvc_hif (s : State) (f : Kvc → Kvc) : (modKvc s f).hif = s.hif := rfl
@[simp] theorem modKvc_tel (s : State) (f : Kvc → Kvc) : (modKvc s f).tel = s.tel := rfl
@[simp] theorem modKvc_sec (s : State) (f : Kvc → Kvc) : (modKvc s f).sec = s.sec := rfl
@[simp] theorem modKvc_graphs (s : State) (f : Kvc → Kvc) : (modKvc s f).graphs = s.graphs := rfl
@[simp] theorem modKvc_cores (s : State) (f : Kvc → Kvc) : (modKvc s f).cores = s.cores := rfl
@[simp] theorem modKvc_clusters (s : State) (f : Kvc → Kvc) : (modKvc s f).clusters = s.clusters := rfl
@[simp] theorem modKvc_sfu (s : State) (f : Kvc → Kvc) : (modKvc s f).sfu = s.sfu := rfl
@[simp] theorem modKvc_ssa (s : State) (f : Kvc → Kvc) : (modKvc s f).ssa = s.ssa := rfl
@[simp] theorem modKvc_chn (s : State) (f : Kvc → Kvc) : (modKvc s f).chn = s.chn := rfl
@[simp] theorem modKvc_col (s : State) (f : Kvc → Kvc) : (modKvc s f).col = s.col := rfl
@[simp] theorem modKvc_groups (s : State) (f : Kvc → Kvc) : (modKvc s f).groups = s.groups := rfl
@[simp] theorem modKvc_fab (s : State) (f : Kvc → Kvc) : (modKvc s f).fab = s.fab := rfl
@[simp] theorem modKvc_memc (s : State) (f : Kvc → Kvc) : (modKvc s f).memc = s.memc := rfl
@[simp] theorem modKvc_fls (s : State) (f : Kvc → Kvc) : (modKvc s f).fls = s.fls := rfl
@[simp] theorem modKvc_vse (s : State) (f : Kvc → Kvc) : (modKvc s f).vse = s.vse := rfl

/-! ### `modFls` -/

@[simp] theorem modFls_pending (s : State) (f : Fls → Fls) : (modFls s f).pending = s.pending := rfl
@[simp] theorem modFls_now (s : State) (f : Fls → Fls) : (modFls s f).now = s.now := rfl
@[simp] theorem modFls_free (s : State) (f : Fls → Fls) : (modFls s f).free = s.free := rfl
@[simp] theorem modFls_mem (s : State) (f : Fls → Fls) : (modFls s f).mem = s.mem := rfl
@[simp] theorem modFls_poison (s : State) (f : Fls → Fls) : (modFls s f).poison = s.poison := rfl
@[simp] theorem modFls_soft (s : State) (f : Fls → Fls) : (modFls s f).soft = s.soft := rfl
@[simp] theorem modFls_hostMem (s : State) (f : Fls → Fls) : (modFls s f).hostMem = s.hostMem := rfl
@[simp] theorem modFls_hostAbsent (s : State) (f : Fls → Fls) : (modFls s f).hostAbsent = s.hostAbsent := rfl
@[simp] theorem modFls_refs (s : State) (f : Fls → Fls) : (modFls s f).refs = s.refs := rfl
@[simp] theorem modFls_pwr (s : State) (f : Fls → Fls) : (modFls s f).pwr = s.pwr := rfl
@[simp] theorem modFls_thm (s : State) (f : Fls → Fls) : (modFls s f).thm = s.thm := rfl
@[simp] theorem modFls_hif (s : State) (f : Fls → Fls) : (modFls s f).hif = s.hif := rfl
@[simp] theorem modFls_tel (s : State) (f : Fls → Fls) : (modFls s f).tel = s.tel := rfl
@[simp] theorem modFls_sec (s : State) (f : Fls → Fls) : (modFls s f).sec = s.sec := rfl
@[simp] theorem modFls_graphs (s : State) (f : Fls → Fls) : (modFls s f).graphs = s.graphs := rfl
@[simp] theorem modFls_cores (s : State) (f : Fls → Fls) : (modFls s f).cores = s.cores := rfl
@[simp] theorem modFls_clusters (s : State) (f : Fls → Fls) : (modFls s f).clusters = s.clusters := rfl
@[simp] theorem modFls_sfu (s : State) (f : Fls → Fls) : (modFls s f).sfu = s.sfu := rfl
@[simp] theorem modFls_kvc (s : State) (f : Fls → Fls) : (modFls s f).kvc = s.kvc := rfl
@[simp] theorem modFls_ssa (s : State) (f : Fls → Fls) : (modFls s f).ssa = s.ssa := rfl
@[simp] theorem modFls_chn (s : State) (f : Fls → Fls) : (modFls s f).chn = s.chn := rfl
@[simp] theorem modFls_col (s : State) (f : Fls → Fls) : (modFls s f).col = s.col := rfl
@[simp] theorem modFls_groups (s : State) (f : Fls → Fls) : (modFls s f).groups = s.groups := rfl
@[simp] theorem modFls_fab (s : State) (f : Fls → Fls) : (modFls s f).fab = s.fab := rfl
@[simp] theorem modFls_memc (s : State) (f : Fls → Fls) : (modFls s f).memc = s.memc := rfl
@[simp] theorem modFls_vse (s : State) (f : Fls → Fls) : (modFls s f).vse = s.vse := rfl

/-! ### `modHif` -/

@[simp] theorem modHif_pending (s : State) (f : Hif → Hif) : (modHif s f).pending = s.pending := rfl
@[simp] theorem modHif_now (s : State) (f : Hif → Hif) : (modHif s f).now = s.now := rfl
@[simp] theorem modHif_free (s : State) (f : Hif → Hif) : (modHif s f).free = s.free := rfl
@[simp] theorem modHif_mem (s : State) (f : Hif → Hif) : (modHif s f).mem = s.mem := rfl
@[simp] theorem modHif_poison (s : State) (f : Hif → Hif) : (modHif s f).poison = s.poison := rfl
@[simp] theorem modHif_soft (s : State) (f : Hif → Hif) : (modHif s f).soft = s.soft := rfl
@[simp] theorem modHif_hostMem (s : State) (f : Hif → Hif) : (modHif s f).hostMem = s.hostMem := rfl
@[simp] theorem modHif_hostAbsent (s : State) (f : Hif → Hif) : (modHif s f).hostAbsent = s.hostAbsent := rfl
@[simp] theorem modHif_refs (s : State) (f : Hif → Hif) : (modHif s f).refs = s.refs := rfl
@[simp] theorem modHif_pwr (s : State) (f : Hif → Hif) : (modHif s f).pwr = s.pwr := rfl
@[simp] theorem modHif_thm (s : State) (f : Hif → Hif) : (modHif s f).thm = s.thm := rfl
@[simp] theorem modHif_tel (s : State) (f : Hif → Hif) : (modHif s f).tel = s.tel := rfl
@[simp] theorem modHif_sec (s : State) (f : Hif → Hif) : (modHif s f).sec = s.sec := rfl
@[simp] theorem modHif_graphs (s : State) (f : Hif → Hif) : (modHif s f).graphs = s.graphs := rfl
@[simp] theorem modHif_cores (s : State) (f : Hif → Hif) : (modHif s f).cores = s.cores := rfl
@[simp] theorem modHif_clusters (s : State) (f : Hif → Hif) : (modHif s f).clusters = s.clusters := rfl
@[simp] theorem modHif_sfu (s : State) (f : Hif → Hif) : (modHif s f).sfu = s.sfu := rfl
@[simp] theorem modHif_kvc (s : State) (f : Hif → Hif) : (modHif s f).kvc = s.kvc := rfl
@[simp] theorem modHif_ssa (s : State) (f : Hif → Hif) : (modHif s f).ssa = s.ssa := rfl
@[simp] theorem modHif_chn (s : State) (f : Hif → Hif) : (modHif s f).chn = s.chn := rfl
@[simp] theorem modHif_col (s : State) (f : Hif → Hif) : (modHif s f).col = s.col := rfl
@[simp] theorem modHif_groups (s : State) (f : Hif → Hif) : (modHif s f).groups = s.groups := rfl
@[simp] theorem modHif_fab (s : State) (f : Hif → Hif) : (modHif s f).fab = s.fab := rfl
@[simp] theorem modHif_memc (s : State) (f : Hif → Hif) : (modHif s f).memc = s.memc := rfl
@[simp] theorem modHif_fls (s : State) (f : Hif → Hif) : (modHif s f).fls = s.fls := rfl
@[simp] theorem modHif_vse (s : State) (f : Hif → Hif) : (modHif s f).vse = s.vse := rfl

/-! ### `dropHeld` -/

@[simp] theorem dropHeld_pending (s : State) (q : Requester) (off : Nat) : (dropHeld s q off).pending = s.pending := rfl
@[simp] theorem dropHeld_now (s : State) (q : Requester) (off : Nat) : (dropHeld s q off).now = s.now := rfl
@[simp] theorem dropHeld_free (s : State) (q : Requester) (off : Nat) : (dropHeld s q off).free = s.free := rfl
@[simp] theorem dropHeld_mem (s : State) (q : Requester) (off : Nat) : (dropHeld s q off).mem = s.mem := rfl
@[simp] theorem dropHeld_poison (s : State) (q : Requester) (off : Nat) : (dropHeld s q off).poison = s.poison := rfl
@[simp] theorem dropHeld_soft (s : State) (q : Requester) (off : Nat) : (dropHeld s q off).soft = s.soft := rfl
@[simp] theorem dropHeld_hostMem (s : State) (q : Requester) (off : Nat) : (dropHeld s q off).hostMem = s.hostMem := rfl
@[simp] theorem dropHeld_hostAbsent (s : State) (q : Requester) (off : Nat) : (dropHeld s q off).hostAbsent = s.hostAbsent := rfl
@[simp] theorem dropHeld_refs (s : State) (q : Requester) (off : Nat) : (dropHeld s q off).refs = s.refs := rfl
@[simp] theorem dropHeld_pwr (s : State) (q : Requester) (off : Nat) : (dropHeld s q off).pwr = s.pwr := rfl
@[simp] theorem dropHeld_thm (s : State) (q : Requester) (off : Nat) : (dropHeld s q off).thm = s.thm := rfl
@[simp] theorem dropHeld_tel (s : State) (q : Requester) (off : Nat) : (dropHeld s q off).tel = s.tel := rfl
@[simp] theorem dropHeld_sec (s : State) (q : Requester) (off : Nat) : (dropHeld s q off).sec = s.sec := rfl
@[simp] theorem dropHeld_graphs (s : State) (q : Requester) (off : Nat) : (dropHeld s q off).graphs = s.graphs := rfl
@[simp] theorem dropHeld_cores (s : State) (q : Requester) (off : Nat) : (dropHeld s q off).cores = s.cores := rfl
@[simp] theorem dropHeld_clusters (s : State) (q : Requester) (off : Nat) : (dropHeld s q off).clusters = s.clusters := rfl
@[simp] theorem dropHeld_sfu (s : State) (q : Requester) (off : Nat) : (dropHeld s q off).sfu = s.sfu := rfl
@[simp] theorem dropHeld_kvc (s : State) (q : Requester) (off : Nat) : (dropHeld s q off).kvc = s.kvc := rfl
@[simp] theorem dropHeld_ssa (s : State) (q : Requester) (off : Nat) : (dropHeld s q off).ssa = s.ssa := rfl
@[simp] theorem dropHeld_chn (s : State) (q : Requester) (off : Nat) : (dropHeld s q off).chn = s.chn := rfl
@[simp] theorem dropHeld_col (s : State) (q : Requester) (off : Nat) : (dropHeld s q off).col = s.col := rfl
@[simp] theorem dropHeld_groups (s : State) (q : Requester) (off : Nat) : (dropHeld s q off).groups = s.groups := rfl
@[simp] theorem dropHeld_fab (s : State) (q : Requester) (off : Nat) : (dropHeld s q off).fab = s.fab := rfl
@[simp] theorem dropHeld_memc (s : State) (q : Requester) (off : Nat) : (dropHeld s q off).memc = s.memc := rfl
@[simp] theorem dropHeld_fls (s : State) (q : Requester) (off : Nat) : (dropHeld s q off).fls = s.fls := rfl
@[simp] theorem dropHeld_vse (s : State) (q : Requester) (off : Nat) : (dropHeld s q off).vse = s.vse := rfl

/-! ### `holdHi` -/

@[simp] theorem holdHi_pending (s : State) (q : Requester) (off : Nat) (v : Word) : (holdHi s q off v).pending = s.pending := rfl
@[simp] theorem holdHi_now (s : State) (q : Requester) (off : Nat) (v : Word) : (holdHi s q off v).now = s.now := rfl
@[simp] theorem holdHi_free (s : State) (q : Requester) (off : Nat) (v : Word) : (holdHi s q off v).free = s.free := rfl
@[simp] theorem holdHi_mem (s : State) (q : Requester) (off : Nat) (v : Word) : (holdHi s q off v).mem = s.mem := rfl
@[simp] theorem holdHi_poison (s : State) (q : Requester) (off : Nat) (v : Word) : (holdHi s q off v).poison = s.poison := rfl
@[simp] theorem holdHi_soft (s : State) (q : Requester) (off : Nat) (v : Word) : (holdHi s q off v).soft = s.soft := rfl
@[simp] theorem holdHi_hostMem (s : State) (q : Requester) (off : Nat) (v : Word) : (holdHi s q off v).hostMem = s.hostMem := rfl
@[simp] theorem holdHi_hostAbsent (s : State) (q : Requester) (off : Nat) (v : Word) : (holdHi s q off v).hostAbsent = s.hostAbsent := rfl
@[simp] theorem holdHi_refs (s : State) (q : Requester) (off : Nat) (v : Word) : (holdHi s q off v).refs = s.refs := rfl
@[simp] theorem holdHi_pwr (s : State) (q : Requester) (off : Nat) (v : Word) : (holdHi s q off v).pwr = s.pwr := rfl
@[simp] theorem holdHi_thm (s : State) (q : Requester) (off : Nat) (v : Word) : (holdHi s q off v).thm = s.thm := rfl
@[simp] theorem holdHi_tel (s : State) (q : Requester) (off : Nat) (v : Word) : (holdHi s q off v).tel = s.tel := rfl
@[simp] theorem holdHi_sec (s : State) (q : Requester) (off : Nat) (v : Word) : (holdHi s q off v).sec = s.sec := rfl
@[simp] theorem holdHi_graphs (s : State) (q : Requester) (off : Nat) (v : Word) : (holdHi s q off v).graphs = s.graphs := rfl
@[simp] theorem holdHi_cores (s : State) (q : Requester) (off : Nat) (v : Word) : (holdHi s q off v).cores = s.cores := rfl
@[simp] theorem holdHi_clusters (s : State) (q : Requester) (off : Nat) (v : Word) : (holdHi s q off v).clusters = s.clusters := rfl
@[simp] theorem holdHi_sfu (s : State) (q : Requester) (off : Nat) (v : Word) : (holdHi s q off v).sfu = s.sfu := rfl
@[simp] theorem holdHi_kvc (s : State) (q : Requester) (off : Nat) (v : Word) : (holdHi s q off v).kvc = s.kvc := rfl
@[simp] theorem holdHi_ssa (s : State) (q : Requester) (off : Nat) (v : Word) : (holdHi s q off v).ssa = s.ssa := rfl
@[simp] theorem holdHi_chn (s : State) (q : Requester) (off : Nat) (v : Word) : (holdHi s q off v).chn = s.chn := rfl
@[simp] theorem holdHi_col (s : State) (q : Requester) (off : Nat) (v : Word) : (holdHi s q off v).col = s.col := rfl
@[simp] theorem holdHi_groups (s : State) (q : Requester) (off : Nat) (v : Word) : (holdHi s q off v).groups = s.groups := rfl
@[simp] theorem holdHi_fab (s : State) (q : Requester) (off : Nat) (v : Word) : (holdHi s q off v).fab = s.fab := rfl
@[simp] theorem holdHi_memc (s : State) (q : Requester) (off : Nat) (v : Word) : (holdHi s q off v).memc = s.memc := rfl
@[simp] theorem holdHi_fls (s : State) (q : Requester) (off : Nat) (v : Word) : (holdHi s q off v).fls = s.fls := rfl
@[simp] theorem holdHi_vse (s : State) (q : Requester) (off : Nat) (v : Word) : (holdHi s q off v).vse = s.vse := rfl

/-! ### What each update leaves in its own field -/

@[simp] theorem modCore_cores (s : State) (c : Nat) (f : Core → Core) : (modCore s c f).cores = s.cores.modify c f := rfl
@[simp] theorem modCluster_clusters (s : State) (c : Nat) (f : Cluster → Cluster) :
    (modCluster s c f).clusters = s.clusters.modify c f := rfl
@[simp] theorem modSsa_ssa (s : State) (k : Nat) (f : Ssa → Ssa) : (modSsa s k f).ssa = s.ssa.modify k f := rfl
@[simp] theorem modSlot_graphs (s : State) (slot : Nat) (f : GraphSlot → GraphSlot) :
    (modSlot s slot f).graphs = s.graphs.modify slot f := rfl
@[simp] theorem modChn_chn (s : State) (i : Nat) (f : ChnCtx → ChnCtx) : (modChn s i f).chn = s.chn.modify i f := rfl
@[simp] theorem modPwr_pwr (s : State) (f : Pwr → Pwr) : (modPwr s f).pwr = f s.pwr := rfl
@[simp] theorem modThm_thm (s : State) (f : Thm → Thm) : (modThm s f).thm = f s.thm := rfl
@[simp] theorem modSec_sec (s : State) (f : Sec → Sec) : (modSec s f).sec = f s.sec := rfl
@[simp] theorem modTel_tel (s : State) (f : Tel → Tel) : (modTel s f).tel = f s.tel := rfl
@[simp] theorem modMem_memc (s : State) (f : MemCtl → MemCtl) : (modMem s f).memc = f s.memc := rfl
@[simp] theorem tick1_free (s : State) : (tick1 s).free = s.free + 1 := rfl
@[simp] theorem modRing_rings (s : State) (fn r : Nat) (f : Ring → Ring) :
    (modRing s fn r f).hif.rings = s.hif.rings.map fun x => if x.fn == fn && x.ring == r then f x else x := rfl
@[simp] theorem modLink_links (s : State) (l : Nat) (f : Link → Link) : (modLink s l f).fab.links = s.fab.links.modify l f := rfl
@[simp] theorem modGroup_groups (s : State) (id : Nat) (f : Group → Group) :
    (modGroup s id f).groups = s.groups.map fun g => if g.id == id then f g else g := rfl
@[simp] theorem poke_mem (s : State) (a : Nat) (b : Bytes) : (poke s a b).mem = cellPutVia directD s.mem a b := rfl
@[simp] theorem hostPoke_hostMem (s : State) (a : Nat) (b : Bytes) : (hostPoke s a b).hostMem = cellPutVia id s.hostMem a b := rfl

end Sys2Proof.Machine
end

