-- ==== Sys2Proof/Laws/Memory.lean ====
section
/-! SUPPORT. Memory keeps its canonical form, a byte written is read back, and every other byte stays. -/

namespace Sys2Proof.Machine

/-! ### Cells -/

theorem cellPut_addr (m : List Host.Cell) (a : Nat) (b : Byte) (c : Host.Cell) (h : c ∈ cellPut m a b) : c ∈ m ∨ c = (a, b) := by
  induction m with
  | nil =>
    unfold cellPut at h
    split at h
    · cases h
    · exact .inr (List.mem_singleton.mp h)
  | cons x t ih =>
    unfold cellPut at h
    (repeat' split at h) <;> simp only [List.mem_cons] at h ⊢ <;> grind

/-- Writing a byte keeps the canonical form. -/
theorem cellPut_wf (m : List Host.Cell) (a : Nat) (b : Byte) (h : Memory.wf m) : Memory.wf (cellPut m a b) := by
  induction m with
  | nil =>
    unfold cellPut
    split
    · exact h
    · exact ⟨List.pairwise_singleton _ _, fun c hc => by rw [List.mem_singleton.mp hc]; assumption⟩
  | cons x t ih =>
    obtain ⟨hp, hz⟩ := h
    have hx := List.pairwise_cons.mp hp
    have it := ih ⟨hx.2, fun c hc => hz c (List.mem_cons_of_mem _ hc)⟩
    unfold cellPut
    split
    · split
      · exact ⟨hp, hz⟩
      · refine ⟨List.pairwise_cons.mpr ⟨?_, hp⟩, ?_⟩
        · intro c hc
          rcases List.mem_cons.mp hc with rfl | hc
          · assumption
          · have := hx.1 c hc; simp only; omega
        · intro c hc
          rcases List.mem_cons.mp hc with rfl | hc
          · assumption
          · exact hz c hc
    · split
      · rename_i _ e
        split
        · exact ⟨hx.2, fun c hc => hz c (List.mem_cons_of_mem _ hc)⟩
        · refine ⟨List.pairwise_cons.mpr ⟨fun c hc => ?_, hx.2⟩, ?_⟩
          · have := hx.1 c hc; simp only; omega
          · intro c hc
            rcases List.mem_cons.mp hc with rfl | hc
            · assumption
            · exact hz c (List.mem_cons_of_mem _ hc)
      · refine ⟨List.pairwise_cons.mpr ⟨?_, it.1⟩, ?_⟩
        · intro c hc
          rcases cellPut_addr t a b c hc with hc | rfl
          · exact hx.1 c hc
          · simp only; omega
        · intro c hc
          rcases List.mem_cons.mp hc with rfl | hc
          · exact hz _ List.mem_cons_self
          · exact it.2 c hc

theorem cellGet_absent (m : List Host.Cell) (a : Nat) (h : ∀ c ∈ m, a < c.1) : cellGet m a = 0#8 := by
  induction m with
  | nil => rfl
  | cons x t ih =>
    unfold cellGet
    rw [if_neg (by have := h x List.mem_cons_self; omega)]
    exact ih fun c hc => h c (List.mem_cons_of_mem _ hc)

/-- A byte written is read back. -/
theorem cellGet_cellPut_same (m : List Host.Cell) (a : Nat) (b : Byte) (h : Memory.wf m) : cellGet (cellPut m a b) a = b := by
  induction m with
  | nil => unfold cellPut; split <;> simp_all [cellGet]
  | cons x t ih =>
    obtain ⟨hp, hz⟩ := h
    have hx := List.pairwise_cons.mp hp
    have it := ih ⟨hx.2, fun c hc => hz c (List.mem_cons_of_mem _ hc)⟩
    unfold cellPut
    split
    · split
      · rename_i hlt hb
        rw [hb]
        refine cellGet_absent _ _ fun c hc => ?_
        rcases List.mem_cons.mp hc with rfl | hc
        · exact hlt
        · have := hx.1 c hc; omega
      · simp [cellGet]
    · split
      · split
        · rename_i _ e hb
          rw [hb]
          exact cellGet_absent _ _ fun c hc => by have := hx.1 c hc; omega
        · simp [cellGet]
      · unfold cellGet
        rw [if_neg (by omega)]
        exact it

/-- Every other byte stays as it was. -/
theorem cellGet_cellPut_other (m : List Host.Cell) (a d : Nat) (b : Byte) (hd : d ≠ a) : cellGet (cellPut m a b) d = cellGet m d := by
  induction m with
  | nil =>
    unfold cellPut
    split
    · rfl
    · simp [cellGet, Ne.symm hd]
  | cons x t ih =>
    unfold cellPut
    split
    · split
      · rfl
      · rw [cellGet, if_neg (Ne.symm hd)]
    · split
      · rename_i _ e
        split
        · rw [cellGet, if_neg (by rw [← e]; exact Ne.symm hd)]
        · rw [cellGet, if_neg (Ne.symm hd), cellGet, if_neg (by rw [← e]; exact Ne.symm hd)]
      · simp only [cellGet, ih]

/-! ### Ranges of bytes -/

theorem cellPutVia_wf (f : Nat → Nat) (b : Bytes) : ∀ (m : List Host.Cell) (i : Nat), Memory.wf m → Memory.wf (cellPutVia f m i b) := by
  induction b with
  | nil => intro m i h; exact h
  | cons x t ih => intro m i h; exact ih _ _ (cellPut_wf _ _ _ h)

theorem cellGet_cellPutVia_other (f : Nat → Nat) (b : Bytes) (d : Nat) :
    ∀ (m : List Host.Cell) (i : Nat), (∀ j < b.length, d ≠ f (i + j)) → cellGet (cellPutVia f m i b) d = cellGet m d := by
  induction b with
  | nil => intro m i _; rfl
  | cons x t ih =>
    intro m i h
    rw [cellPutVia, ih _ _ fun j hj => ?_, cellGet_cellPut_other _ _ _ _ (by simpa using h 0 (by simp))]
    have := h (j + 1) (by simpa using hj)
    rwa [show i + (j + 1) = i + 1 + j from by omega] at this

theorem cellGet_cellPutVia_same (f : Nat → Nat) (b : Bytes) :
    ∀ (m : List Host.Cell) (i : Nat), Memory.wf m → (∀ j < b.length, ∀ k < b.length, f (i + j) = f (i + k) → j = k) →
      ∀ j < b.length, cellGet (cellPutVia f m i b) (f (i + j)) = b.getD j 0#8 := by
  induction b with
  | nil => intro m i _ _ j hj; simp at hj
  | cons x t ih =>
    intro m i hw hinj j hj
    cases j with
    | zero =>
      rw [cellPutVia, cellGet_cellPutVia_other]
      · simpa using cellGet_cellPut_same m (f i) x hw
      · intro k hk e
        have := hinj 0 (by simp) (k + 1) (by simpa using hk) (by rw [e]; congr 1; omega)
        omega
    | succ j =>
      have := ih (cellPut m (f i) x) (i + 1) (cellPut_wf _ _ _ hw)
        (fun p hp q hq e => by
          have := hinj (p + 1) (by simpa using hp) (q + 1) (by simpa using hq)
            (by rw [show i + (p + 1) = i + 1 + p from by omega, show i + (q + 1) = i + 1 + q from by omega]; exact e)
          omega) j (by simpa using hj)
      rw [show i + (j + 1) = i + 1 + j from by omega]
      simpa [cellPutVia] using this

/-! ### Module and host memory -/

theorem poke_wf (s : State) (a : Nat) (b : Bytes) (h : Memory.wf s.mem) : Memory.wf (poke s a b).mem := cellPutVia_wf _ _ _ _ h

theorem hostPoke_wf (s : State) (a : Nat) (b : Bytes) (h : Memory.wf s.hostMem) : Memory.wf (hostPoke s a b).hostMem :=
  cellPutVia_wf _ _ _ _ h

/-- A write changes no byte outside its range, in the direct view (R307). -/
theorem poke_other (s : State) (a d : Nat) (b : Bytes) (h : ∀ j < b.length, d ≠ directD (a + j)) :
    cellGet (poke s a b).mem d = cellGet s.mem d := cellGet_cellPutVia_other _ _ _ _ _ h

/-- A write of host memory changes no byte outside its range. -/
theorem hostPoke_other (s : State) (a d : Nat) (b : Bytes) (h : d < a ∨ a + b.length ≤ d) :
    cellGet (hostPoke s a b).hostMem d = cellGet s.hostMem d :=
  cellGet_cellPutVia_other _ _ _ _ _ fun j hj => by simp only [id]; omega

/-- A write of host memory is read back. -/
theorem hostPoke_same (s : State) (a : Nat) (b : Bytes) (h : Memory.wf s.hostMem) (j : Nat) (hj : j < b.length) :
    cellGet (hostPoke s a b).hostMem (a + j) = b.getD j 0#8 :=
  cellGet_cellPutVia_same id b s.hostMem a h (fun p _ q _ e => by simp only [id] at e; omega) j hj

end Sys2Proof.Machine
end

