-- ==== Sys2Proof/Laws/Events.lean ====
section
/-! SUPPORT. What events, alarms and saturating counters can do, said once: the event ring, the telemetry registers and the
interrupts. -/

namespace Sys2Proof.Machine

/-- What producing events may change: the event ring's bytes, the marks of its sectors, telemetry registers and interrupts. -/
def EventFrame (s t : State) : Prop :=
  t = { s with mem := t.mem, poison := t.poison, soft := t.soft, hif := t.hif, tel := t.tel } ∧
    t.hif = { s.hif with pendVec := t.hif.pendVec, signalled := t.hif.signalled } ∧
    t.tel.evtBase = s.tel.evtBase ∧ t.tel.evtEn = s.tel.evtEn ∧ t.tel.evtExp = s.tel.evtExp ∧
    (∀ a, ¬ InEventRing s a → cellGet t.mem a = cellGet s.mem a) ∧ (Memory.wf s.mem → Memory.wf t.mem)

theorem EventFrame.refl (s : State) : EventFrame s s := ⟨rfl, rfl, rfl, rfl, rfl, fun _ _ => rfl, id⟩

theorem EventFrame.trans {s t u : State} (h : EventFrame s t) (k : EventFrame t u) : EventFrame s u := by
  obtain ⟨h1, h2, h3, h4, h5, h6, h7⟩ := h
  obtain ⟨k1, k2, k3, k4, k5, k6, k7⟩ := k
  refine ⟨?_, ?_, k3.trans h3, k4.trans h4, k5.trans h5, fun a ha => ?_, fun h => k7 (h7 h)⟩
  · rw [k1, h1]
  · rw [k2, h2]
  · rw [k6 a (by rwa [InEventRing, h4, h5, h3]), h6 a ha]

theorem signalVec_frame (s : State) (fn v : Nat) : EventFrame s (signalVec s fn v) := by
  unfold signalVec
  dsimp only
  split <;> exact ⟨rfl, rfl, rfl, rfl, rfl, fun _ _ => rfl, id⟩

theorem alarmLatch_frame (s : State) (n arg : Nat) : EventFrame s (alarmLatch s n arg) := by
  unfold alarmLatch
  dsimp only
  split
  · exact ⟨rfl, rfl, rfl, rfl, rfl, fun _ _ => rfl, id⟩
  · exact EventFrame.trans (t := { s with tel := _ }) ⟨rfl, rfl, rfl, rfl, rfl, fun _ _ => rfl, id⟩ (signalVec_frame _ _ _)

theorem leBytes_length (n : Nat) : ∀ v, (leBytes n v).length = n := by
  induction n with
  | zero => intro v; rfl
  | succ n ih => intro v; simp [leBytes, ih]

theorem eventBytes_length (s : State) (e : Event) : (eventBytes s e).length = 32 := by
  simp [eventBytes, leBytes_length]

theorem eventStore_frame (s : State) (pos : Nat) (b : Bytes) (hen : s.tel.evtEn = true) (hp : pos < 2 ^ s.tel.evtExp)
    (hb : b.length = 32) : EventFrame s (eventStore s pos b) := by
  refine ⟨rfl, rfl, rfl, rfl, rfl, fun a ha => ?_, fun h => poke_wf _ _ _ h⟩
  refine poke_other s (s.tel.evtBase + 32 * pos) a b fun j hj e => ha ⟨hen, 32 * pos + j, by omega, ?_⟩
  rw [e, Nat.add_assoc]

theorem eventDrop_frame (s : State) : EventFrame s (eventDrop s).1 := ⟨rfl, rfl, rfl, rfl, rfl, fun _ _ => rfl, id⟩

theorem eventCore_frame (s : State) (e : Event) : EventFrame s (eventCore s e).1 := by
  have hs : 0 < 2 ^ s.tel.evtExp := Nat.two_pow_pos _
  unfold eventCore
  dsimp only
  split
  · exact eventDrop_frame s
  · rename_i hen
    simp only [Bool.not_eq_true', Bool.not_eq_false] at hen
    split
    · refine EventFrame.trans (t := (eventDrop { s with tel := { s.tel with ovf := true } }).1)
        ⟨rfl, rfl, rfl, rfl, rfl, fun _ _ => rfl, id⟩ (eventStore_frame _ _ _ hen (Nat.mod_lt _ hs) (eventBytes_length _ _))
    · exact eventStore_frame _ _ _ hen (Nat.mod_lt _ hs) (eventBytes_length _ _)

theorem raise_frame (s : State) (n arg : Nat) : EventFrame s (eventCore (alarmLatch s n arg) (alarmEvent n arg)).1 :=
  (alarmLatch_frame s n arg).trans (eventCore_frame _ _)

theorem eventAlarms_frame (s : State) (r : State × EventNote) (h : EventFrame s r.1) : EventFrame s (eventAlarms r) := by
  unfold eventAlarms
  dsimp only
  split <;> dsimp only <;> split
  · exact (h.trans (raise_frame _ _ _)).trans (raise_frame _ _ _)
  · exact h.trans (raise_frame _ _ _)
  · exact h.trans (raise_frame _ _ _)
  · exact h

/-- An event changes the event ring, telemetry registers and interrupts, and nothing else (R410, R411). -/
theorem event_frame (s : State) (e : Event) : EventFrame s (event s e) :=
  eventAlarms_frame s _ (eventCore_frame s e)

/-- An alarm changes its latch and summary bit, and what its event changes (R408). -/
theorem alarm_frame (s : State) (n arg : Nat) : EventFrame s (alarm s n arg) := (alarmLatch_frame s n arg).trans (event_frame _ _)

/-- A counter that saturates raises the alarm CTR_SAT, and does nothing else (R414). -/
theorem ctrSat_frame (off : Nat) (old new : Word) (s : State) : EventFrame s (ctrSat off old new s) := by
  unfold ctrSat
  split
  · exact alarm_frame _ _ _
  · exact EventFrame.refl s

end Sys2Proof.Machine
end

