-- ==== Sys2Proof/Laws/Gates.lean ====
section
/-! SUPPORT. What stands before a command's own rules: the units it names, the module state, the class of a host command. -/

namespace Sys2Proof.Machine

theorem onUnit_of_lt (n count : Nat) (what : String) (t : State) (h : n < count) : onUnit n count what t = .next t := if_pos h

theorem onUnit_of_ge (n count : Nat) (what : String) (t : State) (h : count ≤ n) :
    onUnit n count what t = .refused (.noSuchUnit what) := if_neg (Nat.not_lt.mpr h)

theorem whenUp_of_up (s t : State) (h : hostUp s.pwr.state = true) : whenUp s t = .next t := if_pos h

theorem whenUp_of_down (s t : State) (h : hostUp s.pwr.state = false) : whenUp s t = .next s := if_neg (by simp [h])

/-- A host command that is accepted runs by its own rules (R373, R377). -/
theorem hostCmd_of_accepts (s : State) (h : HostHdr) (c : CmdClass) (always : Bool) (run : State → State)
    (ha : Accepts s h c always) : hostCmd s h c always run = .next (run s) := by
  obtain ⟨hf, hc, hp⟩ := ha
  unfold hostCmd hostGate decoding
  rw [if_neg (by omega), hc]
  rcases hp with hp | ⟨rfl, hp | hp⟩ <;> rw [hp] <;> rfl

/-- A host command of a function that the module does not have is refused. -/
theorem hostCmd_of_no_function (s : State) (h : HostHdr) (c : CmdClass) (always : Bool) (run : State → State) (hf : 32 < h.fn) :
    hostCmd s h c always run = .refused (.noSuchUnit "function") := if_pos hf

/-- Every answer of a host command is a refusal for want of its function, its own effect, a completion, or nothing. -/
theorem hostCmd_cases (s t : State) (h : HostHdr) (c : CmdClass) (always : Bool) (run : State → State)
    (e : hostCmd s h c always run = .next t) : t = s ∨ t = run s ∨ ∃ st, t = complete s h st 0 := by
  unfold hostCmd at e
  split at e
  · cases e
  · split at e
    · cases e
      unfold hostGate
      (repeat' split) <;> first | exact .inr (.inl rfl) | exact .inr (.inr ⟨_, rfl⟩)
    · cases e; exact .inl rfl

theorem onUnit_cases (n count : Nat) (what : String) (s t : State) (e : onUnit n count what s = .next t) : t = s := by
  unfold onUnit at e
  split at e <;> cases e
  rfl

theorem whenUp_cases (s t u : State) (e : whenUp s t = .next u) : u = s ∨ u = t := by
  unfold whenUp at e
  split at e <;> cases e
  · exact .inr rfl
  · exact .inl rfl

end Sys2Proof.Machine
end

