-- ==== Sys2Proof/Laws/PerInstr.lean ====
section
/-! SUPPORT. One lemma per command: it is well formed exactly when every unit it names is one the module has. -/

namespace Sys2Proof.Laws.Units

/-- The unit a requester names (R437). -/
def reqUnits (r : Requester) : List (Nat × Nat) :=
  match r with
  | .host => []
  | .core cluster => [(cluster, 16)]
  | .controller => []

/-- The units a command names, each with how many of its kind the module has. -/
def units (i : Instr) : List (Nat × Nat) :=
  match i with
  | .graphLoad h _ => [(h.fn, 33)]
  | .graphStart h _ _ => [(h.fn, 33)]
  | .timedStartFire slot => [(slot, 64)]
  | .graphPause h _ => [(h.fn, 33)]
  | .graphPauseDone slot => [(slot, 64)]
  | .graphResume h _ => [(h.fn, 33)]
  | .graphUnload h _ => [(h.fn, 33)]
  | .stallUsExpiry slot => [(slot, 64)]
  | .streamRearm h _ _ _ => [(h.fn, 33)]
  | .cluSuRearm cluster _ _ => [(cluster, 16)]
  | .tableLoad h _ _ _ _ => [(h.fn, 33)]
  | .tableReloadRun => []
  | .sfuBankSwitch core => [(core, 256)]
  | .wcReset h _ _ _ => [(h.fn, 33)]
  | .cluWcReset cluster _ => [(cluster, 16)]
  | .workCounterResetApply cluster => [(cluster, 16)]
  | .claim core => [(core, 256)]
  | .commit core _ _ => [(core, 256)]
  | .groupOpen h _ => [(h.fn, 33)]
  | .groupReset h _ => [(h.fn, 33)]
  | .groupClose h _ => [(h.fn, 33)]
  | .cableCheck h _ _ => [(h.fn, 33)]
  | .lendCopy h _ => [(h.fn, 33)]
  | .memLendPost cluster _ => [(cluster, 16)]
  | .wheyXfer h _ => [(h.fn, 33)]
  | .flsWheyPost cluster _ => [(cluster, 16)]
  | .wheyPut _ => []
  | .wheyGet _ => []
  | .wheyMoveOut _ => []
  | .wheyMoveIn _ => []
  | .wheyAlloc _ => []
  | .wheyFree _ => []
  | .wheyTransferDone _ => []
  | .ringCreate h _ => [(h.fn, 33)]
  | .ringDelete h _ => [(h.fn, 33)]
  | .almanac h _ _ _ => [(h.fn, 33)]
  | .almGo fn _ _ _ => [(fn, 33)]
  | .sqTail fn ring _ _ => [(fn, 33), (ring, 256)]
  | .cqHead fn ring _ _ => [(fn, 33), (ring, 256)]
  | .sqFetch fn _ => [(fn, 33)]
  | .msixModerationExpiry _ _ => []
  | .functionLevelReset fn => [(fn, 33)]
  | .perstNLow => []
  | .atsResponse core _ _ _ => [(core, 256)]
  | .hostReadCompletion core _ _ => [(core, 256)]
  | .hifSetupLock _ => []
  | .hifRing0 fn word _ => [(fn, 33), (word, 4)]
  | .registerWrite req offset _ _ => reqUnits req ++ [(offset, 0x04000000)]
  | .queuePush slot _ _ _ _ => [(slot, 64)]
  | .queuePop slot _ _ _ => [(slot, 64)]
  | .loadDescriptor core => [(core, 256)]
  | .storeDescriptor core => [(core, 256)]
  | .streamTransferDone core _ => [(core, 256)]
  | .storeTileWritten core => [(core, 256)]
  | .claimTemplate core => [(core, 256)]
  | .smallTransfer cluster _ _ => [(cluster, 16)]
  | .smallTransferDone cluster => [(cluster, 16)]
  | .mmaDescriptor core => [(core, 256)]
  | .sfuOperation io _ => [(io.core, 256)]
  | .rms io _ => [(io.core, 256)]
  | .layerNorm io _ => [(io.core, 256)]
  | .outputStage io _ => [(io.core, 256)]
  | .curdEnc io _ _ => [(io.core, 256)]
  | .vecEq io => [(io.core, 256)]
  | .vecNe io => [(io.core, 256)]
  | .vecLt io => [(io.core, 256)]
  | .vecLe io => [(io.core, 256)]
  | .vecGt io => [(io.core, 256)]
  | .vecGe io => [(io.core, 256)]
  | .vecMax io _ => [(io.core, 256)]
  | .vecMin io _ => [(io.core, 256)]
  | .vecMaxnum io _ => [(io.core, 256)]
  | .vecMinnum io _ => [(io.core, 256)]
  | .ssaAttend stack => [(stack, 8)]
  | .descriptorTileArrival stack => [(stack, 8)]
  | .ssaJobClose stack => [(stack, 8)]
  | .attend cluster => [(cluster, 16)]
  | .prepare cluster => [(cluster, 16)]
  | .extend cluster => [(cluster, 16)]
  | .kvCommit cluster => [(cluster, 16)]
  | .fork cluster => [(cluster, 16)]
  | .truncate cluster => [(cluster, 16)]
  | .release cluster => [(cluster, 16)]
  | .score cluster => [(cluster, 16)]
  | .moveBegin cluster => [(cluster, 16)]
  | .moveEnd cluster => [(cluster, 16)]
  | .moveAbort cluster => [(cluster, 16)]
  | .freeze cluster => [(cluster, 16)]
  | .unfreeze cluster => [(cluster, 16)]
  | .sequenceLockGrant cluster => [(cluster, 16)]
  | .frameReclaim pool => [(pool, 16)]
  | .kvcPool _ pool word _ => [(pool, 16), (word, 3)]
  | .poolInitDone pool => [(pool, 16)]
  | .kvcCurveCommit _ => []
  | .churnOpen die => [(die, 2)]
  | .churnRotate die => [(die, 2)]
  | .churnClose die => [(die, 2)]
  | .churnHandshakeArrival die _ _ _ => [(die, 2)]
  | .ringTileArrival die _ _ => [(die, 2)]
  | .churnCreditArrival die _ _ _ _ => [(die, 2)]
  | .churnTimeout die _ _ => [(die, 2)]
  | .collBcast die => [(die, 2)]
  | .collAllgather die => [(die, 2)]
  | .collAlltoall die => [(die, 2)]
  | .collAlltoallv die => [(die, 2)]
  | .collAllreduce die => [(die, 2)]
  | .collReduceScatter die => [(die, 2)]
  | .collAttnMerge die => [(die, 2)]
  | .grantArrival die _ => [(die, 2)]
  | .chunkArrival die _ => [(die, 2)]
  | .resultChunkArrival die _ => [(die, 2)]
  | .acknowledgementArrival die _ => [(die, 2)]
  | .retire die _ => [(die, 2)]
  | .fence die _ _ _ _ => [(die, 2)]
  | .withdraw die _ => [(die, 2)]
  | .chunkUsExpiry die _ => [(die, 2)]
  | .vatWaitTimeout die _ => [(die, 2)]
  | .scanQuery channel => [(channel, 64)]
  | .scanInsert channel => [(channel, 64)]
  | .scanDelete channel => [(channel, 64)]
  | .indexBatchDurable _ => []
  | .scanHarvest channel => [(channel, 64)]
  | .scanCreate channel => [(channel, 64)]
  | .scanDestroy channel => [(channel, 64)]
  | .skimMerge die => [(die, 2)]
  | .updateAliasWrite _ _ => []
  | .amo cluster _ _ _ _ => [(cluster, 16)]
  | .compareAndSwap channel _ _ _ => [(channel, 64)]
  | .patrolScrub stack => [(stack, 8)]
  | .memMarginCtl _ => []
  | .marginSweepDone _ => []
  | .stackFail stack _ => [(stack, 8)]
  | .memLendGrant grant word _ => [(grant, 16), (word, 2)]
  | .revoke grant => [(grant, 16)]
  | .revokeDone grant => [(grant, 16)]
  | .lendReq die _ => [(die, 2)]
  | .lendRsp die _ => [(die, 2)]
  | .lendTimeout die _ => [(die, 2)]
  | .flsPool pool _ => [(pool, 16)]
  | .flashScanDone => []
  | .flashUpkeep channel _ => [(channel, 64)]
  | .flashChannelFail channel _ => [(channel, 64)]
  | .fabTrain _ => []
  | .linkPhaseDone link _ => [(link, 64)]
  | .trainTimeout link => [(link, 64)]
  | .linkRestart link => [(link, 64)]
  | .lossOfSignal link => [(link, 64)]
  | .frameReceive link _ => [(link, 64)]
  | .replayTimeout link => [(link, 64)]
  | .packetForward die => [(die, 2)]
  | .fabStallExpiry link _ _ => [(link, 64)]
  | .fabRtEntry _ _ => []
  | .fabLshape which _ => [(which, 3)]
  | .disc link _ => [(link, 64)]
  | .fabDiscover _ => []
  | .eqxInterval => []
  | .eqxRequest link _ => [(link, 64)]
  | .eqxReply _ _ _ _ _ => []
  | .eqxLockLoss => []
  | .fabEqxSet _ => []
  | .fabEqxTime req => reqUnits req
  | .inputRise _ _ => []
  | .undervoltage _ => []
  | .overvoltage _ => []
  | .inputLoss _ => []
  | .railFault rail => [(rail, 13)]
  | .modRstNRise => []
  | .modRstNLow => []
  | .thawSequence finds => finds.stackFails.map (fun k => (k, 8)) ++ finds.flashFails.map (fun c => (c, 64))
  | .treeRegeneration => []
  | .bottomTreeReplacement => []
  | .idleReq => []
  | .wake => []
  | .pwrCtrlWake => []
  | .wakeDone => []
  | .sensorSweep _ => []
  | .thmDieCurve _ => []
  | .cluWdogExpiry cluster => [(cluster, 16)]
  | .cluWdogKick cluster => [(cluster, 16)]
  | .controllerWatchdogExpiry => []
  | .read32 _ => []
  | .write32 _ _ => []
  | .thaw => []
  | .shutdown => []
  | .stageOpen _ => []
  | .stageData _ _ => []
  | .stageClose _ => []
  | .ownerData _ _ => []
  | .ownerCommit => []
  | .attest _ _ => []
  | .attestRead _ => []
  | .secAttCtrl _ => []
  | .secStageCtrl _ => []
  | .secOwnerCtrl _ => []
  | .telAlarmSum _ => []
  | .telEvtHead _ => []
  | .eventMirrorCopy => []
  | .eventMirrorSignal => []
  | .traceSample => []
  | .codewordReadDone channel _ _ => [(channel, 64)]
  | .harvestDone _ => []
  | .resetExchangeArrival die _ _ _ => [(die, 2)]
  | .msixVectorUnmask fn vector => [(fn, 33), (vector, 2048)]
  | .pcieLinkRetrain _ _ _ => []
  | .configurationRequest => []
  | .atsInvalidation _ _ => []
  | .elementWiseArithmetic io _ _ => [(io.core, 256)]
  | .conversion io _ _ _ => [(io.core, 256)]
  | .sketch io => [(io.core, 256)]

/-- A command is well formed exactly when each unit it names exists. -/
def Statement (i : Instr) : Prop := i.wf = true ↔ ∀ p ∈ units i, p.1 < p.2

theorem req_units (r : Requester) : r.wf = true ↔ ∀ p ∈ reqUnits r, p.1 < p.2 := by
  cases r <;> simp [Requester.wf, reqUnits]

theorem no_unit : true = true ↔ ∀ p ∈ ([] : List (Nat × Nat)), p.1 < p.2 := by simp

theorem one_unit (n c : Nat) : decide (n < c) = true ↔ ∀ p ∈ [(n, c)], p.1 < p.2 := by simp

theorem two_units (n c m d : Nat) :
    (decide (n < c) && decide (m < d)) = true ↔ ∀ p ∈ [(n, c), (m, d)], p.1 < p.2 := by simp

theorem req_and_one (r : Requester) (n c : Nat) :
    (r.wf && decide (n < c)) = true ↔ ∀ p ∈ reqUnits r ++ [(n, c)], p.1 < p.2 := by
  cases r <;> simp [Requester.wf, reqUnits]

theorem finds_units (f : ThawFinds) :
    f.wf = true ↔ ∀ p ∈ f.stackFails.map (fun k => (k, 8)) ++ f.flashFails.map (fun c => (c, 64)), p.1 < p.2 := by
  simp only [ThawFinds.wf, Bool.and_eq_true, Bool.not_eq_true', List.any_eq_false, decide_eq_true_eq, List.mem_append, List.mem_map]
  constructor
  · rintro ⟨h1, h2⟩ p (⟨k, hk, rfl⟩ | ⟨k, hk, rfl⟩)
    · have := h1 k hk; omega
    · have := h2 k hk; omega
  · intro h
    refine ⟨fun k hk => ?_, fun k hk => ?_⟩
    · have := h (k, 8) (.inl ⟨k, hk, rfl⟩); omega
    · have := h (k, 64) (.inr ⟨k, hk, rfl⟩); omega

theorem graphLoad : ∀ x0 x1, Statement (.graphLoad x0 x1) := fun _ _ => one_unit _ _
theorem graphStart : ∀ x0 x1 x2, Statement (.graphStart x0 x1 x2) := fun _ _ _ => one_unit _ _
theorem timedStartFire : ∀ x0, Statement (.timedStartFire x0) := fun _ => one_unit _ _
theorem graphPause : ∀ x0 x1, Statement (.graphPause x0 x1) := fun _ _ => one_unit _ _
theorem graphPauseDone : ∀ x0, Statement (.graphPauseDone x0) := fun _ => one_unit _ _
theorem graphResume : ∀ x0 x1, Statement (.graphResume x0 x1) := fun _ _ => one_unit _ _
theorem graphUnload : ∀ x0 x1, Statement (.graphUnload x0 x1) := fun _ _ => one_unit _ _
theorem stallUsExpiry : ∀ x0, Statement (.stallUsExpiry x0) := fun _ => one_unit _ _
theorem streamRearm : ∀ x0 x1 x2 x3, Statement (.streamRearm x0 x1 x2 x3) := fun _ _ _ _ => one_unit _ _
theorem cluSuRearm : ∀ x0 x1 x2, Statement (.cluSuRearm x0 x1 x2) := fun _ _ _ => one_unit _ _
theorem tableLoad : ∀ x0 x1 x2 x3 x4, Statement (.tableLoad x0 x1 x2 x3 x4) := fun _ _ _ _ _ => one_unit _ _
theorem tableReloadRun : Statement (.tableReloadRun) := no_unit
theorem sfuBankSwitch : ∀ x0, Statement (.sfuBankSwitch x0) := fun _ => one_unit _ _
theorem wcReset : ∀ x0 x1 x2 x3, Statement (.wcReset x0 x1 x2 x3) := fun _ _ _ _ => one_unit _ _
theorem cluWcReset : ∀ x0 x1, Statement (.cluWcReset x0 x1) := fun _ _ => one_unit _ _
theorem workCounterResetApply : ∀ x0, Statement (.workCounterResetApply x0) := fun _ => one_unit _ _
theorem claim : ∀ x0, Statement (.claim x0) := fun _ => one_unit _ _
theorem commit : ∀ x0 x1 x2, Statement (.commit x0 x1 x2) := fun _ _ _ => one_unit _ _
theorem groupOpen : ∀ x0 x1, Statement (.groupOpen x0 x1) := fun _ _ => one_unit _ _
theorem groupReset : ∀ x0 x1, Statement (.groupReset x0 x1) := fun _ _ => one_unit _ _
theorem groupClose : ∀ x0 x1, Statement (.groupClose x0 x1) := fun _ _ => one_unit _ _
theorem cableCheck : ∀ x0 x1 x2, Statement (.cableCheck x0 x1 x2) := fun _ _ _ => one_unit _ _
theorem lendCopy : ∀ x0 x1, Statement (.lendCopy x0 x1) := fun _ _ => one_unit _ _
theorem memLendPost : ∀ x0 x1, Statement (.memLendPost x0 x1) := fun _ _ => one_unit _ _
theorem wheyXfer : ∀ x0 x1, Statement (.wheyXfer x0 x1) := fun _ _ => one_unit _ _
theorem flsWheyPost : ∀ x0 x1, Statement (.flsWheyPost x0 x1) := fun _ _ => one_unit _ _
theorem wheyPut : ∀ x0, Statement (.wheyPut x0) := fun _ => no_unit
theorem wheyGet : ∀ x0, Statement (.wheyGet x0) := fun _ => no_unit
theorem wheyMoveOut : ∀ x0, Statement (.wheyMoveOut x0) := fun _ => no_unit
theorem wheyMoveIn : ∀ x0, Statement (.wheyMoveIn x0) := fun _ => no_unit
theorem wheyAlloc : ∀ x0, Statement (.wheyAlloc x0) := fun _ => no_unit
theorem wheyFree : ∀ x0, Statement (.wheyFree x0) := fun _ => no_unit
theorem wheyTransferDone : ∀ x0, Statement (.wheyTransferDone x0) := fun _ => no_unit
theorem ringCreate : ∀ x0 x1, Statement (.ringCreate x0 x1) := fun _ _ => one_unit _ _
theorem ringDelete : ∀ x0 x1, Statement (.ringDelete x0 x1) := fun _ _ => one_unit _ _
theorem almanac : ∀ x0 x1 x2 x3, Statement (.almanac x0 x1 x2 x3) := fun _ _ _ _ => one_unit _ _
theorem almGo : ∀ x0 x1 x2 x3, Statement (.almGo x0 x1 x2 x3) := fun _ _ _ _ => one_unit _ _
theorem sqTail : ∀ x0 x1 x2 x3, Statement (.sqTail x0 x1 x2 x3) := fun _ _ _ _ => two_units _ _ _ _
theorem cqHead : ∀ x0 x1 x2 x3, Statement (.cqHead x0 x1 x2 x3) := fun _ _ _ _ => two_units _ _ _ _
theorem sqFetch : ∀ x0 x1, Statement (.sqFetch x0 x1) := fun _ _ => one_unit _ _
theorem msixModerationExpiry : ∀ x0 x1, Statement (.msixModerationExpiry x0 x1) := fun _ _ => no_unit
theorem functionLevelReset : ∀ x0, Statement (.functionLevelReset x0) := fun _ => one_unit _ _
theorem perstNLow : Statement (.perstNLow) := no_unit
theorem atsResponse : ∀ x0 x1 x2 x3, Statement (.atsResponse x0 x1 x2 x3) := fun _ _ _ _ => one_unit _ _
theorem hostReadCompletion : ∀ x0 x1 x2, Statement (.hostReadCompletion x0 x1 x2) := fun _ _ _ => one_unit _ _
theorem hifSetupLock : ∀ x0, Statement (.hifSetupLock x0) := fun _ => no_unit
theorem hifRing0 : ∀ x0 x1 x2, Statement (.hifRing0 x0 x1 x2) := fun _ _ _ => two_units _ _ _ _
theorem registerWrite : ∀ x0 x1 x2 x3, Statement (.registerWrite x0 x1 x2 x3) := fun x0 _ _ _ => req_and_one x0 _ _
theorem queuePush : ∀ x0 x1 x2 x3 x4, Statement (.queuePush x0 x1 x2 x3 x4) := fun _ _ _ _ _ => one_unit _ _
theorem queuePop : ∀ x0 x1 x2 x3, Statement (.queuePop x0 x1 x2 x3) := fun _ _ _ _ => one_unit _ _
theorem loadDescriptor : ∀ x0, Statement (.loadDescriptor x0) := fun _ => one_unit _ _
theorem storeDescriptor : ∀ x0, Statement (.storeDescriptor x0) := fun _ => one_unit _ _
theorem streamTransferDone : ∀ x0 x1, Statement (.streamTransferDone x0 x1) := fun _ _ => one_unit _ _
theorem storeTileWritten : ∀ x0, Statement (.storeTileWritten x0) := fun _ => one_unit _ _
theorem claimTemplate : ∀ x0, Statement (.claimTemplate x0) := fun _ => one_unit _ _
theorem smallTransfer : ∀ x0 x1 x2, Statement (.smallTransfer x0 x1 x2) := fun _ _ _ => one_unit _ _
theorem smallTransferDone : ∀ x0, Statement (.smallTransferDone x0) := fun _ => one_unit _ _
theorem mmaDescriptor : ∀ x0, Statement (.mmaDescriptor x0) := fun _ => one_unit _ _
theorem sfuOperation : ∀ x0 x1, Statement (.sfuOperation x0 x1) := fun _ _ => one_unit _ _
theorem rms : ∀ x0 x1, Statement (.rms x0 x1) := fun _ _ => one_unit _ _
theorem layerNorm : ∀ x0 x1, Statement (.layerNorm x0 x1) := fun _ _ => one_unit _ _
theorem outputStage : ∀ x0 x1, Statement (.outputStage x0 x1) := fun _ _ => one_unit _ _
theorem curdEnc : ∀ x0 x1 x2, Statement (.curdEnc x0 x1 x2) := fun _ _ _ => one_unit _ _
theorem vecEq : ∀ x0, Statement (.vecEq x0) := fun _ => one_unit _ _
theorem vecNe : ∀ x0, Statement (.vecNe x0) := fun _ => one_unit _ _
theorem vecLt : ∀ x0, Statement (.vecLt x0) := fun _ => one_unit _ _
theorem vecLe : ∀ x0, Statement (.vecLe x0) := fun _ => one_unit _ _
theorem vecGt : ∀ x0, Statement (.vecGt x0) := fun _ => one_unit _ _
theorem vecGe : ∀ x0, Statement (.vecGe x0) := fun _ => one_unit _ _
theorem vecMax : ∀ x0 x1, Statement (.vecMax x0 x1) := fun _ _ => one_unit _ _
theorem vecMin : ∀ x0 x1, Statement (.vecMin x0 x1) := fun _ _ => one_unit _ _
theorem vecMaxnum : ∀ x0 x1, Statement (.vecMaxnum x0 x1) := fun _ _ => one_unit _ _
theorem vecMinnum : ∀ x0 x1, Statement (.vecMinnum x0 x1) := fun _ _ => one_unit _ _
theorem ssaAttend : ∀ x0, Statement (.ssaAttend x0) := fun _ => one_unit _ _
theorem descriptorTileArrival : ∀ x0, Statement (.descriptorTileArrival x0) := fun _ => one_unit _ _
theorem ssaJobClose : ∀ x0, Statement (.ssaJobClose x0) := fun _ => one_unit _ _
theorem attend : ∀ x0, Statement (.attend x0) := fun _ => one_unit _ _
theorem prepare : ∀ x0, Statement (.prepare x0) := fun _ => one_unit _ _
theorem extend : ∀ x0, Statement (.extend x0) := fun _ => one_unit _ _
theorem kvCommit : ∀ x0, Statement (.kvCommit x0) := fun _ => one_unit _ _
theorem fork : ∀ x0, Statement (.fork x0) := fun _ => one_unit _ _
theorem truncate : ∀ x0, Statement (.truncate x0) := fun _ => one_unit _ _
theorem release : ∀ x0, Statement (.release x0) := fun _ => one_unit _ _
theorem score : ∀ x0, Statement (.score x0) := fun _ => one_unit _ _
theorem moveBegin : ∀ x0, Statement (.moveBegin x0) := fun _ => one_unit _ _
theorem moveEnd : ∀ x0, Statement (.moveEnd x0) := fun _ => one_unit _ _
theorem moveAbort : ∀ x0, Statement (.moveAbort x0) := fun _ => one_unit _ _
theorem freeze : ∀ x0, Statement (.freeze x0) := fun _ => one_unit _ _
theorem unfreeze : ∀ x0, Statement (.unfreeze x0) := fun _ => one_unit _ _
theorem sequenceLockGrant : ∀ x0, Statement (.sequenceLockGrant x0) := fun _ => one_unit _ _
theorem frameReclaim : ∀ x0, Statement (.frameReclaim x0) := fun _ => one_unit _ _
theorem kvcPool : ∀ x0 x1 x2 x3, Statement (.kvcPool x0 x1 x2 x3) := fun _ _ _ _ => two_units _ _ _ _
theorem poolInitDone : ∀ x0, Statement (.poolInitDone x0) := fun _ => one_unit _ _
theorem kvcCurveCommit : ∀ x0, Statement (.kvcCurveCommit x0) := fun _ => no_unit
theorem churnOpen : ∀ x0, Statement (.churnOpen x0) := fun _ => one_unit _ _
theorem churnRotate : ∀ x0, Statement (.churnRotate x0) := fun _ => one_unit _ _
theorem churnClose : ∀ x0, Statement (.churnClose x0) := fun _ => one_unit _ _
theorem churnHandshakeArrival : ∀ x0 x1 x2 x3, Statement (.churnHandshakeArrival x0 x1 x2 x3) := fun _ _ _ _ => one_unit _ _
theorem ringTileArrival : ∀ x0 x1 x2, Statement (.ringTileArrival x0 x1 x2) := fun _ _ _ => one_unit _ _
theorem churnCreditArrival : ∀ x0 x1 x2 x3 x4, Statement (.churnCreditArrival x0 x1 x2 x3 x4) := fun _ _ _ _ _ => one_unit _ _
theorem churnTimeout : ∀ x0 x1 x2, Statement (.churnTimeout x0 x1 x2) := fun _ _ _ => one_unit _ _
theorem collBcast : ∀ x0, Statement (.collBcast x0) := fun _ => one_unit _ _
theorem collAllgather : ∀ x0, Statement (.collAllgather x0) := fun _ => one_unit _ _
theorem collAlltoall : ∀ x0, Statement (.collAlltoall x0) := fun _ => one_unit _ _
theorem collAlltoallv : ∀ x0, Statement (.collAlltoallv x0) := fun _ => one_unit _ _
theorem collAllreduce : ∀ x0, Statement (.collAllreduce x0) := fun _ => one_unit _ _
theorem collReduceScatter : ∀ x0, Statement (.collReduceScatter x0) := fun _ => one_unit _ _
theorem collAttnMerge : ∀ x0, Statement (.collAttnMerge x0) := fun _ => one_unit _ _
theorem grantArrival : ∀ x0 x1, Statement (.grantArrival x0 x1) := fun _ _ => one_unit _ _
theorem chunkArrival : ∀ x0 x1, Statement (.chunkArrival x0 x1) := fun _ _ => one_unit _ _
theorem resultChunkArrival : ∀ x0 x1, Statement (.resultChunkArrival x0 x1) := fun _ _ => one_unit _ _
theorem acknowledgementArrival : ∀ x0 x1, Statement (.acknowledgementArrival x0 x1) := fun _ _ => one_unit _ _
theorem retire : ∀ x0 x1, Statement (.retire x0 x1) := fun _ _ => one_unit _ _
theorem fence : ∀ x0 x1 x2 x3 x4, Statement (.fence x0 x1 x2 x3 x4) := fun _ _ _ _ _ => one_unit _ _
theorem withdraw : ∀ x0 x1, Statement (.withdraw x0 x1) := fun _ _ => one_unit _ _
theorem chunkUsExpiry : ∀ x0 x1, Statement (.chunkUsExpiry x0 x1) := fun _ _ => one_unit _ _
theorem vatWaitTimeout : ∀ x0 x1, Statement (.vatWaitTimeout x0 x1) := fun _ _ => one_unit _ _
theorem scanQuery : ∀ x0, Statement (.scanQuery x0) := fun _ => one_unit _ _
theorem scanInsert : ∀ x0, Statement (.scanInsert x0) := fun _ => one_unit _ _
theorem scanDelete : ∀ x0, Statement (.scanDelete x0) := fun _ => one_unit _ _
theorem indexBatchDurable : ∀ x0, Statement (.indexBatchDurable x0) := fun _ => no_unit
theorem scanHarvest : ∀ x0, Statement (.scanHarvest x0) := fun _ => one_unit _ _
theorem scanCreate : ∀ x0, Statement (.scanCreate x0) := fun _ => one_unit _ _
theorem scanDestroy : ∀ x0, Statement (.scanDestroy x0) := fun _ => one_unit _ _
theorem skimMerge : ∀ x0, Statement (.skimMerge x0) := fun _ => one_unit _ _
theorem updateAliasWrite : ∀ x0 x1, Statement (.updateAliasWrite x0 x1) := fun _ _ => no_unit
theorem amo : ∀ x0 x1 x2 x3 x4, Statement (.amo x0 x1 x2 x3 x4) := fun _ _ _ _ _ => one_unit _ _
theorem compareAndSwap : ∀ x0 x1 x2 x3, Statement (.compareAndSwap x0 x1 x2 x3) := fun _ _ _ _ => one_unit _ _
theorem patrolScrub : ∀ x0, Statement (.patrolScrub x0) := fun _ => one_unit _ _
theorem memMarginCtl : ∀ x0, Statement (.memMarginCtl x0) := fun _ => no_unit
theorem marginSweepDone : ∀ x0, Statement (.marginSweepDone x0) := fun _ => no_unit
theorem stackFail : ∀ x0 x1, Statement (.stackFail x0 x1) := fun _ _ => one_unit _ _
theorem memLendGrant : ∀ x0 x1 x2, Statement (.memLendGrant x0 x1 x2) := fun _ _ _ => two_units _ _ _ _
theorem revoke : ∀ x0, Statement (.revoke x0) := fun _ => one_unit _ _
theorem revokeDone : ∀ x0, Statement (.revokeDone x0) := fun _ => one_unit _ _
theorem lendReq : ∀ x0 x1, Statement (.lendReq x0 x1) := fun _ _ => one_unit _ _
theorem lendRsp : ∀ x0 x1, Statement (.lendRsp x0 x1) := fun _ _ => one_unit _ _
theorem lendTimeout : ∀ x0 x1, Statement (.lendTimeout x0 x1) := fun _ _ => one_unit _ _
theorem flsPool : ∀ x0 x1, Statement (.flsPool x0 x1) := fun _ _ => one_unit _ _
theorem flashScanDone : Statement (.flashScanDone) := no_unit
theorem flashUpkeep : ∀ x0 x1, Statement (.flashUpkeep x0 x1) := fun _ _ => one_unit _ _
theorem flashChannelFail : ∀ x0 x1, Statement (.flashChannelFail x0 x1) := fun _ _ => one_unit _ _
theorem fabTrain : ∀ x0, Statement (.fabTrain x0) := fun _ => no_unit
theorem linkPhaseDone : ∀ x0 x1, Statement (.linkPhaseDone x0 x1) := fun _ _ => one_unit _ _
theorem trainTimeout : ∀ x0, Statement (.trainTimeout x0) := fun _ => one_unit _ _
theorem linkRestart : ∀ x0, Statement (.linkRestart x0) := fun _ => one_unit _ _
theorem lossOfSignal : ∀ x0, Statement (.lossOfSignal x0) := fun _ => one_unit _ _
theorem frameReceive : ∀ x0 x1, Statement (.frameReceive x0 x1) := fun _ _ => one_unit _ _
theorem replayTimeout : ∀ x0, Statement (.replayTimeout x0) := fun _ => one_unit _ _
theorem packetForward : ∀ x0, Statement (.packetForward x0) := fun _ => one_unit _ _
theorem fabStallExpiry : ∀ x0 x1 x2, Statement (.fabStallExpiry x0 x1 x2) := fun _ _ _ => one_unit _ _
theorem fabRtEntry : ∀ x0 x1, Statement (.fabRtEntry x0 x1) := fun _ _ => no_unit
theorem fabLshape : ∀ x0 x1, Statement (.fabLshape x0 x1) := fun _ _ => one_unit _ _
theorem disc : ∀ x0 x1, Statement (.disc x0 x1) := fun _ _ => one_unit _ _
theorem fabDiscover : ∀ x0, Statement (.fabDiscover x0) := fun _ => no_unit
theorem eqxInterval : Statement (.eqxInterval) := no_unit
theorem eqxRequest : ∀ x0 x1, Statement (.eqxRequest x0 x1) := fun _ _ => one_unit _ _
theorem eqxReply : ∀ x0 x1 x2 x3 x4, Statement (.eqxReply x0 x1 x2 x3 x4) := fun _ _ _ _ _ => no_unit
theorem eqxLockLoss : Statement (.eqxLockLoss) := no_unit
theorem fabEqxSet : ∀ x0, Statement (.fabEqxSet x0) := fun _ => no_unit
theorem fabEqxTime : ∀ x0, Statement (.fabEqxTime x0) := fun x0 => req_units x0
theorem inputRise : ∀ x0 x1, Statement (.inputRise x0 x1) := fun _ _ => no_unit
theorem undervoltage : ∀ x0, Statement (.undervoltage x0) := fun _ => no_unit
theorem overvoltage : ∀ x0, Statement (.overvoltage x0) := fun _ => no_unit
theorem inputLoss : ∀ x0, Statement (.inputLoss x0) := fun _ => no_unit
theorem railFault : ∀ x0, Statement (.railFault x0) := fun _ => one_unit _ _
theorem modRstNRise : Statement (.modRstNRise) := no_unit
theorem modRstNLow : Statement (.modRstNLow) := no_unit
theorem thawSequence : ∀ x0, Statement (.thawSequence x0) := fun x0 => finds_units x0
theorem treeRegeneration : Statement (.treeRegeneration) := no_unit
theorem bottomTreeReplacement : Statement (.bottomTreeReplacement) := no_unit
theorem idleReq : Statement (.idleReq) := no_unit
theorem wake : Statement (.wake) := no_unit
theorem pwrCtrlWake : Statement (.pwrCtrlWake) := no_unit
theorem wakeDone : Statement (.wakeDone) := no_unit
theorem sensorSweep : ∀ x0, Statement (.sensorSweep x0) := fun _ => no_unit
theorem thmDieCurve : ∀ x0, Statement (.thmDieCurve x0) := fun _ => no_unit
theorem cluWdogExpiry : ∀ x0, Statement (.cluWdogExpiry x0) := fun _ => one_unit _ _
theorem cluWdogKick : ∀ x0, Statement (.cluWdogKick x0) := fun _ => one_unit _ _
theorem controllerWatchdogExpiry : Statement (.controllerWatchdogExpiry) := no_unit
theorem read32 : ∀ x0, Statement (.read32 x0) := fun _ => no_unit
theorem write32 : ∀ x0 x1, Statement (.write32 x0 x1) := fun _ _ => no_unit
theorem thaw : Statement (.thaw) := no_unit
theorem shutdown : Statement (.shutdown) := no_unit
theorem stageOpen : ∀ x0, Statement (.stageOpen x0) := fun _ => no_unit
theorem stageData : ∀ x0 x1, Statement (.stageData x0 x1) := fun _ _ => no_unit
theorem stageClose : ∀ x0, Statement (.stageClose x0) := fun _ => no_unit
theorem ownerData : ∀ x0 x1, Statement (.ownerData x0 x1) := fun _ _ => no_unit
theorem ownerCommit : Statement (.ownerCommit) := no_unit
theorem attest : ∀ x0 x1, Statement (.attest x0 x1) := fun _ _ => no_unit
theorem attestRead : ∀ x0, Statement (.attestRead x0) := fun _ => no_unit
theorem secAttCtrl : ∀ x0, Statement (.secAttCtrl x0) := fun _ => no_unit
theorem secStageCtrl : ∀ x0, Statement (.secStageCtrl x0) := fun _ => no_unit
theorem secOwnerCtrl : ∀ x0, Statement (.secOwnerCtrl x0) := fun _ => no_unit
theorem telAlarmSum : ∀ x0, Statement (.telAlarmSum x0) := fun _ => no_unit
theorem telEvtHead : ∀ x0, Statement (.telEvtHead x0) := fun _ => no_unit
theorem eventMirrorCopy : Statement (.eventMirrorCopy) := no_unit
theorem eventMirrorSignal : Statement (.eventMirrorSignal) := no_unit
theorem traceSample : Statement (.traceSample) := no_unit
theorem codewordReadDone : ∀ x0 x1 x2, Statement (.codewordReadDone x0 x1 x2) := fun _ _ _ => one_unit _ _
theorem harvestDone : ∀ x0, Statement (.harvestDone x0) := fun _ => no_unit
theorem resetExchangeArrival : ∀ x0 x1 x2 x3, Statement (.resetExchangeArrival x0 x1 x2 x3) := fun _ _ _ _ => one_unit _ _
theorem msixVectorUnmask : ∀ x0 x1, Statement (.msixVectorUnmask x0 x1) := fun _ _ => two_units _ _ _ _
theorem pcieLinkRetrain : ∀ x0 x1 x2, Statement (.pcieLinkRetrain x0 x1 x2) := fun _ _ _ => no_unit
theorem configurationRequest : Statement (.configurationRequest) := no_unit
theorem atsInvalidation : ∀ x0 x1, Statement (.atsInvalidation x0 x1) := fun _ _ => no_unit
theorem elementWiseArithmetic : ∀ x0 x1 x2, Statement (.elementWiseArithmetic x0 x1 x2) := fun _ _ _ => one_unit _ _
theorem conversion : ∀ x0 x1 x2 x3, Statement (.conversion x0 x1 x2 x3) := fun _ _ _ _ => one_unit _ _
theorem sketch : ∀ x0, Statement (.sketch x0) := fun _ => one_unit _ _

end Sys2Proof.Laws.Units
end

