-- ==== Sys2Proof/Tests/Slice0.lean ====
section
/-! SUPPORT. The package's own tests: what WellFormed refuses, small single steps whose results the spec gives, and one witness for
the hypotheses of every statement. -/

namespace Sys2Proof.Tests

set_option Elab.async false

open Sys2Proof.Machine

/-! ### Small states -/

/-- A host command on ring 0 of the physical function. -/
def hdr : HostHdr := ⟨0, 0, 7#64, false⟩

/-- Ring pair `r` of the physical function, 64 entries each way. -/
def ringAt (r : Nat) : Ring :=
  { fn := 0, ring := r, sqBase := 0x10000, cqBase := 0x20000, sqExp := 6, cqExp := 6, vector := 3, noirq := false, modCnt := 4,
    modUs := 10, tail := 0#32, head := 0#32, written := 0#32, hhead := 0#32, backlog := [], fetched := [], unsig := 0,
    unsigAt := none, deleting := none }

/-- The module in a state, with ring 0 of the physical function set up. -/
def inState (p : PwrState) : State :=
  { State.reset with pwr := { State.reset.pwr with state := p }, hif := { State.reset.hif with rings := [ringAt 0] } }

def act : State := inState .active

/-- A station of a kind and unit whose work list of `n` descriptors lies at `w`. -/
def stn (k : Kind) (u w n : Nat) : Station :=
  { kind := k, unit := u, work := w, workN := n, wdi := 0, run := .going, outSeq := List.replicate 8 0#16, inHand := [],
    sub := 0, wait := none, strm := streamAtLoad }

/-- A queue from port `pp` of station 0 to port `cp` of station `c`. -/
def que (pp cp c : Nat) (es : List QEntry) : Queue :=
  { qid := 5, mode := .share, pool := 0, prodPort := pp, prodAt := 0, prodN := 1, consPort := cp, consAt := c, consN := 1,
    entries := es, rounds := [], nextSeq := [0#16], waits := [] }

def grf (st : GState) (sts : List Station) (qs : List Queue) : Graph :=
  { fn := 0, cq := 0, image := 0x1000, clusters := 0xFFFF#16, stallUs := 10, user := 9#64, state := st, stations := sts, queues := qs,
    pools := [⟨0, 0, 4, 4096, 0x100000, [0x100000, 0x101000, 0x102000, 0x103000]⟩], pausing := none, timed := none, lastMove := 0,
    stallOut := false, lastStatus := .ok, lastEvent := 0, haltSt := 0, haltWdi := 0, events := 0 }

/-- A state with a graph in slot 0, generation 1. -/
def withGraph (s : State) (g : Graph) : State := { s with graphs := s.graphs.set 0 ⟨1#10, some g, []⟩ }

theorem accepts_active (s : State) (c : CmdClass) (a : Bool) (hp : s.pwr.state = .active) (hf : s.hif.fnCfg = act.hif.fnCfg) :
    Accepts s hdr c a := by
  refine ⟨by decide, ?_, .inl hp⟩
  unfold classAllowed fnCfg
  rw [hf]
  cases c <;> decide +kernel

/-! ### WellFormed refuses a term for each of its checks -/

theorem test_wf_function : (Instr.graphLoad { hdr with fn := 33 } ⟨0, 0⟩).wf = false := by decide
theorem test_wf_slot : (Instr.stallUsExpiry 64).wf = false := by decide
theorem test_wf_cluster : (Instr.cluWdogKick 16).wf = false := by decide
theorem test_wf_core : (Instr.claim 256).wf = false := by decide
theorem test_wf_fn_number : (Instr.functionLevelReset 33).wf = false := by decide
theorem test_wf_doorbell_function : (Instr.sqTail 33 0 32 0#32).wf = false := by decide
theorem test_wf_doorbell_page : (Instr.cqHead 0 256 32 0#32).wf = false := by decide
theorem test_wf_ring0_word : (Instr.hifRing0 0 4 0#64).wf = false := by decide
theorem test_wf_requester : (Instr.fabEqxTime (.core 16)).wf = false := by decide
theorem test_wf_offset : (Instr.registerWrite .host 0x04000000 32 0#64).wf = false := by decide
theorem test_wf_vec_core : (Instr.sketch ⟨256, [], 0, 1, 1, .fp32, 0#16, true, false⟩).wf = false := by decide
theorem test_wf_stack : (Instr.patrolScrub 8).wf = false := by decide
theorem test_wf_frame_pool : (Instr.frameReclaim 16).wf = false := by decide
theorem test_wf_pool_word : (Instr.kvcPool .host 0 3 0#64).wf = false := by decide
theorem test_wf_die : (Instr.packetForward 2).wf = false := by decide
theorem test_wf_channel : (Instr.scanQuery 64).wf = false := by decide
theorem test_wf_grant : (Instr.revoke 16).wf = false := by decide
theorem test_wf_grant_word : (Instr.memLendGrant 0 2 0#64).wf = false := by decide
theorem test_wf_whey_pool : (Instr.flsPool 16 0#64).wf = false := by decide
theorem test_wf_link : (Instr.lossOfSignal 64).wf = false := by decide
theorem test_wf_shape : (Instr.fabLshape 3 0#64).wf = false := by decide
theorem test_wf_rail : (Instr.railFault 13).wf = false := by decide
theorem test_wf_thaw_stack : (Instr.thawSequence ⟨[8], [], true⟩).wf = false := by decide
theorem test_wf_thaw_channel : (Instr.thawSequence ⟨[], [64], true⟩).wf = false := by decide
theorem test_wf_vector : (Instr.msixVectorUnmask 0 2048).wf = false := by decide

/-! ### Witnesses: steps, gates and graphs -/

theorem witness_StepTakesFrontCommand : ({ act with pending := [.idleReq] } : State).pending = .idleReq :: [] := rfl

theorem witness_IdleStepIsOneTick : act.pending = [] ∧ act.pwr.state ≠ .off ∧ (inState .off).pwr.state = .off ∧
    act.fab.eqxTrimNs = 0 ∧ ({ act with fab := { act.fab with eqxTrimNs := 1 } } : State).fab.eqxTrimNs ≠ 0 := by
  decide

theorem witness_ExistingUnitsNeverRefused : (Instr.railFault 12).wf = true ∧ (Instr.railFault 13).wf = false := by decide

theorem witness_HostCommandGate_refused :
    hdr.fn < 33 ∧ decoding act.pwr.state = true ∧ classAllowed act { hdr with ring := 1 } .ring = false := by decide +kernel

theorem witness_HostCommandGate_hold :
    classAllowed (inState .hold) hdr .graph = true ∧ (inState .hold).pwr.state = .hold ∧
      classAllowed (inState .withdrawn) hdr .graph = true ∧ (inState .withdrawn).pwr.state = .withdrawn := by decide +kernel

theorem witness_HostCommandGate_runs : Accepts act hdr .graph true := accepts_active _ _ _ rfl rfl

/-- Graph ID 64 names slot 0 in generation 1. -/
theorem names_of (g : Graph) (h1 : g.fn = 0) (h2 : g.pausing = none) (h3 : g.timed = none) : Names (withGraph act g) hdr 64#16 g := by
  refine ⟨?_, ?_, h1, h2, h3, ?_⟩ <;> rfl

theorem witness_GraphCommandsComplete_start :
    Names (withGraph act (grf .loaded [] [])) hdr 64#16 (grf .loaded [] []) ∧
      Accepts (withGraph act (grf .loaded [] [])) hdr .graph false :=
  ⟨names_of _ rfl rfl rfl, accepts_active _ _ _ rfl rfl⟩

/-- The time counter is synchronised. -/
def synced (s : State) : State := { s with fab := { s.fab with eqx := .sync } }

theorem witness_GraphCommandsComplete_timed :
    Names (synced (withGraph act (grf .drained [] []))) hdr 64#16 (grf .drained [] []) ∧
      (synced act).fab.eqx = .sync ∧ (synced act).fab.counter.toNat < (1000000000#64).toNat ∧
      (1000000000#64).toNat ≤ (synced act).fab.counter.toNat + 1000000000 :=
  ⟨names_of _ rfl rfl rfl, rfl, by decide, by decide⟩

theorem witness_GraphCommandsComplete_pause : Names (withGraph act (grf .running [] [])) hdr 64#16 (grf .running [] []) :=
  names_of _ rfl rfl rfl

theorem witness_GraphCommandsComplete_resume :
    Names (withGraph act (grf .paused [] [])) hdr 64#16 (grf .paused [] []) ∧
      Names (withGraph act (grf .halted [] [])) hdr 64#16 (grf .halted [] []) :=
  ⟨names_of _ rfl rfl rfl, names_of _ rfl rfl rfl⟩

/-- A stream descriptor with RE-ARM set. -/
def loadDesc : StreamDesc :=
  { geom := ⟨0x4000, 0, 1, 0, false, 0, [4, 1, 1, 1], [64, 0, 0, 0], true⟩, notify := false, claim := false, rearm := true, curd := 0,
    fence := false, dyn := false, idxW := false, comp := false, port := 0, ahead := 1, slotBase := 0, slotN := 4, ishift := 0,
    slotBytes := 4096, cslotBytes := 0, dint := 0, outerMax := 0, shape := 0, idxGeom := 0, compGeom := 0, tag := 0#16, pred := 0,
    push := false, pushPort := 0, pushBytes := 0, isLoad := true, resOk := true }

def loadStn : Station := { stn .load 0 0x8000 2 with strm := { streamAtLoad with cur := some loadDesc, outer := 4 } }

theorem witness_GraphCommandsComplete_rearm :
    let g := grf .running [loadStn] []
    Names (withGraph act g) hdr 64#16 g ∧ g.stations[0]? = some loadStn ∧
      rearmOf (0x4000#128).toNat = some (⟨0x4000, false, 0⟩, 0) ∧ loadStn.kind = .load ∧ loadDesc.rearm = true ∧
      loadStn.strm.pendRearm = none ∧ loadStn.strm.parked = false :=
  ⟨names_of _ rfl rfl rfl, rfl, by decide, rfl, rfl, rfl, rfl⟩

theorem witness_GraphCommandsComplete_stale :
    let s := withGraph act (grf .loaded [] [])
    slotGraph s ((128#16).toNat % 64) = some (grf .loaded [] []) ∧ gidOf s ((128#16).toNat % 64) ≠ (128#16).toNat ∧
      (s.graphs[(128#16).toNat % 64]?).map (fun x => x.waiting) = some [] := ⟨rfl, by decide +kernel, rfl⟩

/-- A GRAPH_LOAD image of one LOAD station, one queue and no pool (Tables 2-8, 2-9). -/
def imageBytes : Bytes :=
  leBytes 2 1 ++ leBytes 2 1 ++ leBytes 2 1 ++ [1#8, 0#8] ++ leBytes 2 0xFFFF ++ leBytes 2 0 ++ leBytes 4 10 ++ leBytes 8 0
    ++ leBytes 8 0

def imageState : State := poke act 0x1000 imageBytes

theorem witness_GraphTimersComplete_fire :
    let g := { grf .loaded [] [] with timed := some (0#64, 1, hdr) }
    slotGraph (synced (withGraph act g)) 0 = some g ∧ (synced act).fab.eqx = .sync ∧
      (0#64).toNat ≤ (synced (withGraph act g)).fab.counter.toNat ∧ (withGraph act g).fab.eqx ≠ .sync := by
  refine ⟨rfl, rfl, by decide, by decide⟩

theorem witness_GraphTimersComplete_pauseDone :
    let g := { grf .running [stn .vec 0 0 0] [] with pausing := some (1, hdr) }
    slotGraph (withGraph act g) 0 = some g ∧ allStopped (withGraph act g) 0 g = true := ⟨rfl, by decide +kernel⟩

theorem witness_GraphTimersComplete_stall :
    let g := grf .running [stn .vec 0 0 1] [{ que 0 0 0 [] with waits := [(0, 3)] }]
    let s := { withGraph act g with now := 10000 }
    slotGraph s 0 = some g ∧ g.stallUs ≠ 0 ∧ g.lastMove + 1000 * g.stallUs ≤ s.now ∧ g.stallOut = false ∧
      oldestWait g.queues none = some (3, 5) := ⟨rfl, by decide, by decide, rfl, rfl⟩


/-! ### Witnesses: loading, tables, counters, rings -/

/-- A record of `n` zero bytes with some fields put in. -/
def recd (n : Nat) (fs : List (Nat × Bytes)) : Bytes := fs.foldl (fun b f => overlay b f.1 f.2) (List.replicate n 0#8)

/-- Every graph slot but the last is taken. -/
def oneSlot (s : State) : State :=
  { s with graphs := List.replicate 63 ⟨1#10, some (grf .loaded [] []), []⟩ ++ [⟨0#10, none, []⟩] }

def graphHdr : Bytes :=
  recd 32 [(0, leBytes 2 1), (2, leBytes 2 1), (4, leBytes 2 1), (8, leBytes 2 0xFFFF), (12, leBytes 4 10)]

/-- A station entry of LOAD 3, and a queue entry from its port 0 to its own port 1. -/
def loadState : State :=
  oneSlot (poke (poke (poke act 0x2000 graphHdr) 0x2020 (recd 16 [(0, [1#8, 3#8]), (4, leBytes 4 64), (8, leBytes 3 1)]))
    0x2030 (recd 16 [(0, leBytes 2 5), (3, [0xFF#8]), (6, [1#8]), (7, [1#8]), (8, leBytes 2 0x2000)]))

set_option maxRecDepth 20000 in
theorem witness_GraphLoadBindsWhole :
    let r := (ctrlRead loadState 0x2000 32).1
    ∃ b, (ctrlRead loadState 0x2000 32).2 = .ok b ∧ (freeSlots r)[choose (freeSlots r).length r.free]? = some 63 ∧
      headerOk r 0 b = true ∧
        ∃ r1 sts, readEntries 0x2000 32 (fun t acc e => stationEntry t 0x2000 (BitVec.ofNat 16 (leAt b 8 2)) acc e) (leAt b 2 2) 0 r []
            = ⟨r1, .ok sts⟩ ∧ sts.length = 1 ∧
          ∃ r2 qs, readEntries 0x2000 48 (fun t acc e =>
              if queueOk t sts (peekPools r1 0x2000 64 (byteAt b 6)) acc e then some (queueEntry e) else none) (leAt b 4 2) 0 r1 []
              = ⟨r2, .ok qs⟩ ∧ qs.length = 1 ∧
            ∃ r3 ps, readEntries 0x2000 64 (fun t acc e =>
              if poolOk t (BitVec.ofNat 16 (leAt b 8 2)) acc e then some (poolEntry e) else none) (byteAt b 6) 0 r2 []
              = ⟨r3, .ok ps⟩ :=
  ⟨_, rfl, by decide +kernel, by decide +kernel, _, _, rfl, by decide +kernel, _, _, rfl, by decide +kernel, _, _, rfl⟩

theorem witness_TableReloadCompletes_load :
    act.sfu.cur = none ∧ ({ act with sfu := ⟨some ⟨1, hdr, 0, 1, 1#16⟩, false, [], 0#32⟩ } : State).sfu.cur ≠ none ∧
      ([] : List Reload).length < 4 ∧ Accepts act hdr .module false := ⟨rfl, by decide, by decide, accepts_active _ _ _ rfl rfl⟩

theorem witness_TableReloadCompletes_run :
    let r : Reload := ⟨1, hdr, 0x4000, 1, 1#16⟩
    let s : State := { act with sfu := ⟨some r, false, [], 0#32⟩ }
    s.sfu.cur = some r ∧ s.sfu.written = false ∧
      ∃ t b, ctrlRead s r.image (2048 + 32 * r.segCount) = (t, .ok b) ∧ imageOk (b.take 2048) (b.drop 2048) r.segCount = true :=
  ⟨rfl, rfl, _, _, rfl, by decide +kernel⟩

theorem witness_TableReloadCompletes_switch :
    let s := modCore act 255 fun x => { x with shadow := true }
    255 < 256 ∧ (coreAt s 255).shadow = true ∧ chainHolds (coreAt s 255) = false := by decide +kernel

/-- A work counter of cluster 15 with items 7 up to `limit`. -/
def counting (n limit : Word) : State := modWc act 15 fun w => { w with base := 7#32, limit := limit, next := n }

theorem witness_WorkCounterCompletes_claim :
    let w := wcOf (counting 0#32 1#32) (255 / 16)
    w.waiting = [] ∧ w.next.toNat < w.limit.toNat ∧ w.base.toNat + w.next.toNat ≤ 0xFFFFFFFF := by decide +kernel

theorem witness_WorkCounterCompletes_none :
    let w := wcOf (counting 1#32 1#32) (255 / 16)
    w.waiting = [] ∧ w.limit.toNat ≤ w.next.toNat := by decide +kernel

theorem witness_WorkCounterCompletes_behind :
    (wcOf (modWc act 15 fun w => { w with waiting := [.reset 0#32 0#32 none] }) 15).waiting ≠ [] := by decide +kernel

theorem witness_WorkCounterCompletes_commit :
    bound act .store 255 = none ∧ (wcOf act 15).waiting = [] ∧ 0#8 = (wcOf act 15).epoch ∧ 1#8 ≠ (wcOf act 15).epoch := by
  decide +kernel

theorem witness_WorkCounterCompletes_reset :
    (wcOf act 15).landing = [] ∧ (wcOf (modWc act 15 fun w => { w with landing := [(240, 0#32)] }) 15).landing ≠ [] ∧
      foreignCluster act hdr.fn 15 = false ∧
      (wcOf (modWc act 15 fun w => { w with waiting := [.reset 1#32 2#32 none] }) 15).waiting = [.reset 1#32 2#32 none] ∧
      15 < act.clusters.length := by decide +kernel

theorem witness_CompletionWritesItsSlot :
    Memory.wf act.hostMem ∧ hdr.quiet = false ∧ findRing act hdr.fn hdr.ring = some (ringAt 0) ∧ (ringAt 0).backlog = [] ∧
      cqFull (ringAt 0) = false ∧ resyncing act hdr.fn = false ∧ { hdr with quiet := true }.quiet = true := by decide +kernel

/-- The last slot of a CQ of 64 entries is the boundary of its first pass. -/
theorem witness_CompletionWritesItsSlot_last : cqFull { ringAt 0 with written := 63#32 } = false := by decide

/-- A ring descriptor (Table 17-4) of ring `r`: bases 0x30000 and 0x31000, 64 entries each, vector 0x7FF, MOD_CNT 1. -/
def ringDesc (r : Nat) : BitVec 256 :=
  BitVec.ofNat 256 (0x30000 + 0x31000 * 2 ^ 64 + 6 * 2 ^ 128 + 6 * 2 ^ 136 + 0x7FF * 2 ^ 144 + 1 * 2 ^ 160 + r * 2 ^ 192)

theorem witness_RingCommandsComplete_create :
    ringDescOk act hdr.fn (ringDesc 255).toNat = true ∧ bits (ringDesc 255).toNat 192 16 = 255 ∧
      255 < (fnCfg act hdr.fn).ringN ∧ findRing act hdr.fn 255 = none := by decide +kernel

theorem witness_RingCommandsComplete_delete :
    let s : State := { act with hif := { act.hif with rings := [ringAt 0, ringAt 1] } }
    findRing s hdr.fn 1 = some (ringAt 1) ∧ cqNamed s hdr.fn 1 = false ∧ (ringAt 1).deleting = none ∧ findRing s hdr.fn 2 = none := by
  decide +kernel

theorem witness_DoorbellsAndFetchComplete_tail :
    windowOpen act 0 = true ∧ findRing act 0 0 = some (ringAt 0) ∧ resyncing act 0 = false ∧ 64#32 ≠ (ringAt 0).tail ∧
      (64#32 - (ringAt 0).head).toNat ≤ 2 ^ (ringAt 0).sqExp ∧ (64#32 - (ringAt 0).tail).toNat ≤ 2 ^ (ringAt 0).sqExp := by
  decide +kernel

theorem witness_DoorbellsAndFetchComplete_head :
    let x := { ringAt 0 with written := 5#32 }
    (5#32 - x.hhead).toNat ≤ (x.written - x.hhead).toNat ∧ (16 : Nat) ≠ 32 := by decide

theorem witness_DoorbellsAndFetchComplete_fetch :
    decoding act.pwr.state = true ∧ (ringAt 0).backlog = [] ∧ (ringAt 0).fetched = [] ∧ resyncing act (ringAt 0).fn = false := by
  decide +kernel

theorem witness_InterruptsAndEndpointComplete_moderation :
    let x := { ringAt 0 with unsigAt := some 0 }
    let s : State := { act with hif := { act.hif with rings := [x] }, now := 10000 }
    findRing s 0 0 = some x ∧ x.noirq = false ∧ 0 + 1000 * x.modUs ≤ s.now := by decide +kernel

theorem witness_InterruptsAndEndpointComplete_unmask :
    let s : State := { act with hif := { act.hif with pendVec := [2047], masked := [2047] } }
    2047 < (fnCfg s 0).vecN ∧ (fnCfg s 0).vecBase + 2047 ∈ s.hif.pendVec ∧ (fnCfg s 0).vecBase + 2047 ∈ s.hif.masked ∧
      (fnCfg s 0).vecBase + 2046 ∉ s.hif.masked := by decide +kernel

theorem witness_InterruptsAndEndpointComplete_endpoint :
    hostUp (inState .idle).pwr.state = true ∧ (inState .thaw).pwr.state = .thaw ∧ (7 : Nat) < 8 ∧ (31 : Nat) < 32 := by decide

theorem witness_AlmanacCompletes_command :
    almBufOk ⟨1, 0x5000⟩ (64#32).toNat = true ∧ almReady (noted act hdr 0x7F) hdr.fn = true ∧ act.hif.almReqs = [] ∧
      Accepts act hdr .almanac true :=
  ⟨by decide, by decide +kernel, rfl, accepts_active _ _ _ rfl rfl⟩

theorem witness_AlmanacCompletes_go :
    windowOpen act 0 = true ∧ (1#32).getLsbD 0 = true ∧ (act.hif.alm[0]?).map (fun a => a.busy) = some false ∧
      (∀ r ∈ act.hif.almReqs, r.fn ≠ 0) ∧
      (fnCfg act 0).perm.getLsbD 4 = true ∧ 64 ≤ (64#32).toNat := by decide +kernel

/-! ### Witnesses: groups and collectives -/

/-- A group record (Table 12-1) of one member, die 0, fan-in 2. -/
def groupRec : Bytes := recd 64 [(0, leBytes 2 9), (3, [2#8]), (12, [4#8]), (16, leBytes 4 0xABCD), (20, leBytes 4 100), (24, leBytes 4 50)]

/-- The lattice map names this module's only coordinate. -/
def mapped : State :=
  poke (poke { act with fab := { act.fab with lmapBase := 0x9000 } } 0x9000 (leBytes 4 0x10001)) 0x6000 groupRec

theorem witness_GroupCommandsComplete_open :
    ∃ t b, argRead mapped ⟨0, 0x6000⟩ 64 = (t, .ok b) ∧ (openGroup t 0 b).2 = .ok := ⟨_, _, rfl, by decide +kernel⟩

/-- Group 9 of `n` ranks on die 0, of which this module is rank 0. -/
def grp (n st : Nat) (es : List CollEntry) : Group :=
  { id := 9, die := 0, fn := 0, fanin := 2, vats := 4, gtag := 0xABCD#32, chunkUs := 100, vatWaitUs := 50, n := n, rank := 0,
    addrs := List.range n, nextSeq := 0#32, retired := 0#32, state := st, fstatus := .ok, cause := .none, frank := 0,
    unsyncSkip := false, fencedSeen := false, named := 0, slowValid := false, meanLag := 0, ownLag := 0, window := [],
    nameNew := false, entries := es, inbox := [], resetGot := [], resetCmd := none, resetAt := 0, closeCmd := none }

def withGroup (s : State) (g : Group) : State := { s with groups := [g] }

theorem witness_GroupCommandsComplete_reset :
    findGroup (withGroup act (grp 2 2 [])) 9 = some (grp 2 2 []) ∧ (grp 2 2 []).fn = hdr.fn ∧ (grp 2 2 []).state = 2 ∧
      (grp 2 2 []).closeCmd = none ∧ 1 < (grp 2 2 []).n := by decide +kernel

/-- An ALLREDUCE descriptor of group 9: FP32 elements, FP32 result, sum, 8 elements, input port 0, output port 1. -/
def collDesc : Bytes := recd 64 [(0, [5#8]), (2, leBytes 2 9), (4, [0x33#8]), (8, leBytes 4 8), (12, leBytes 4 8), (54, [0x08#8])]

/-- A handle of 32 bytes in buffer 0x100000 of pool 0. -/
def hnd (q : Half) : Handle :=
  { status := .ok, pred := 0, last := false, seq := q, bytes := 32, pool := 0, tag := 1#16, addr := 0x100000 }

def collGraph : Graph :=
  grf .running [stn .coll 0 0x8000 1] [que 1 2 0 [], { que 7 0 0 [⟨hnd 0#16, 0, [0]⟩] with qid := 6, pool := 0xFF }]

def collState : State := poke (withGroup (withGraph act collGraph) (grp 2 1 [])) 0x8000 collDesc

def collBound : Bound := ⟨0, 0, collGraph, stn .coll 0 0x8000 1⟩

theorem witness_CollectiveOperationsComplete :
    bound collState .coll 0 = some collBound ∧ mayStart collState collBound = true ∧ collBound.st.wdi < collBound.st.workN ∧
      ∃ r v, ctrlRead collState (wdAddr collBound 64) 64 = (r, .ok v) ∧ (collDescOf v).e.op = 5 ∧
        findGroup r (collDescOf v).group = some (grp 2 1 []) ∧ collDescOk (grp 2 1 []) 0 (collDescOf v) = true ∧
        portsBound collBound (collPorts (grp 2 1 []) (collDescOf v)).1 (collPorts (grp 2 1 []) (collDescOf v)).2 = true ∧
        (collDescOf v).e.count ≤ (collDescOf v).e.countMax ∧ ∃ t hs, popInputs r collBound (grp 2 1 []) (collDescOf v) = .got t hs := by
  refine ⟨by decide +kernel, by decide +kernel, by decide, _, _, rfl, by decide +kernel, by decide +kernel, by decide +kernel,
    by decide +kernel, by decide +kernel, _, _, rfl⟩

def cmsg : CollMsg :=
  { gtag := 0xABCD#32, group := 9, seq := 0#32, op := 5, etype := 3, otype := 3, red := 0, count := 8, chunk := 0, src := 1,
    payload := [], poison := false, early := 0, late := 0, lateRank := 0, synced := false }

/-- The tag names group 9, the message group 8. -/
theorem witness_CollectiveMessagesComplete_mismatch :
    let s := withGroup act (grp 2 1 [])
    let m := { cmsg with group := 8 }
    (∀ x ∈ s.groups, x.gtag = m.gtag → x.id ≠ m.group) ∧ (s.groups.find? fun x => x.gtag == m.gtag) = some (grp 2 1 []) ∧
      (grp 2 1 []).state = 1 ∧ ∀ x ∈ s.groups, x.gtag ≠ ({ m with gtag := 0#32 } : CollMsg).gtag := by decide +kernel

theorem witness_CollectiveMessagesComplete_arrival :
    findGroup (withGroup act (grp 2 1 [])) cmsg.group = some (grp 2 1 []) ∧ (grp 2 1 []).gtag = cmsg.gtag ∧ (grp 2 1 []).state ≠ 2 ∧
      findGroup act cmsg.group = none := by decide +kernel

/-- The operation of `collDesc`, started and waiting for a vat and for its children. -/
def waitEntry : CollEntry :=
  { (collDescOf collDesc).e with
    started := true
    waitAt := some 0
    expectAt := [(1, 0)]
    inputs := [hnd 0#16]
    chunks := [⟨0, true, none, 0, 1, false, false, false, 0, 0, 0, false, false, none⟩] }

theorem witness_CollectiveMessagesComplete_chunk :
    let g := grp 2 1 [waitEntry]
    g.die = 0 ∧ g.state = 1 ∧ ∃ e ∈ g.entries, ∃ p ∈ e.expectAt, p.2 + 1000 * g.chunkUs ≤ 100000 := by decide +kernel

theorem witness_CollectiveMessagesComplete_reset :
    let g := { grp 2 3 [] with resetCmd := some (1, hdr) }
    g.state = 3 ∧ g.resetCmd = some (1, hdr) ∧ g.resetAt + 1000 * g.chunkUs ≤ 100000 := by decide

theorem witness_CollectiveMessagesComplete_vat :
    let g := grp 2 1 [waitEntry]
    g.state = 1 ∧ currentOf g = some waitEntry ∧ waitEntry.waitAt = some 0 ∧ 0 + 1000 * g.vatWaitUs < 50001 := by decide +kernel

/-! ### Witnesses: cabling, lending, the Whey -/

def planBytes : Bytes := recd 48 [(0, leBytes 2 0x5A43), (2, leBytes 2 1), (32, [63#8, 0#8, 3#8])]

theorem witness_RoutingCompletes_cable :
    ∃ t u hd es p v, argRead (poke act 0x7000 planBytes) ⟨0, 0x7000⟩ 32 = (t, .ok hd) ∧
      argRead t (argAt ⟨0, 0x7000⟩ 32) (16 * min 64 (leAt hd 2 2)) = (u, .ok es) ∧ planOf (hd ++ es) = some p ∧
      argWrite (cableRecheck { u with fab := { u.fab with plan := some p, cableBad := false } }) ⟨0, 0x7800⟩
        (leBytes 4 (reportAll u p).length ++ ((reportAll u p).map reportBytes).flatten) = .ok v ∧
      argOk ⟨0, 0x7800⟩ = true :=
  ⟨_, _, _, _, _, _, rfl, rfl, rfl, rfl, rfl⟩

/-- A lend-copy record (Table 14-7): GET, grant 1, generation 1, lender 5, 32 bytes at frame 0, to 0xA000. -/
def lendRec : Bytes :=
  recd 64 [(1, [1#8, 1#8]), (4, leBytes 2 5), (16, leBytes 4 32), (20, leBytes 4 10), (24, leBytes 6 0xA000)]

theorem witness_LendCopiesComplete_record :
    (∃ t b, argRead (noted (poke act 0x7000 lendRec) hdr 0x31) ⟨0, 0x7000⟩ 64 = (t, .ok b) ∧ lendRecOk b = true) ∧
      (∃ t b, argRead (poke act 0x7000 lendRec) ⟨0, 0x7000⟩ 64 = (t, .ok b) ∧ lendRecOk b = true) ∧
      hostUp act.pwr.state = true ∧ 0x7000 < 2 ^ 48 :=
  ⟨⟨_, _, rfl, by decide +kernel⟩, ⟨_, _, rfl, by decide +kernel⟩, by decide, by decide⟩

/-- A GET of 32 bytes whose only request is outstanding. -/
def copy1 : LendCopy :=
  { num := 3, die := 1, cmd := none, recAddr := none, put := false, grant := 1, gen := 1, lender := 5, frame := 0, offset := 0,
    length := 32, timeoutUs := 10, local_ := 0xA000, nextOff := 32, nextRid := 1, outst := [⟨0, 0, 32, 0⟩] }

def copying : State := { act with memc := { act.memc with copies := [copy1] }, now := 10000 }

def lendRsp1 (st : Status) : LendRspPkt :=
  { tag := 3#32, op := 1, status := st, offset := 0, rlen := 32, rid := 0, payload := List.replicate 32 1#8 }

theorem witness_LendCopiesComplete_response :
    findCopy copying 1 (lendRsp1 .ok).tag.toNat = some copy1 ∧
      copy1.outst.find? (fun k => lendMatches copy1 k (lendRsp1 .pageFault)) = some ⟨0, 0, 32, 0⟩ ∧
      copy1.outst.find? (fun k => lendMatches copy1 k (lendRsp1 .ok)) = some ⟨0, 0, 32, 0⟩ ∧ copy1.length ≤ copy1.nextOff ∧
      copy1.outst.filter (fun x => !(x.rid == 0)) = [] ∧
      (memWrite copying (copy1.local_ + 0) ((lendRsp1 .ok).payload.take 32)).isSome = true ∧
      0 + 1000 * copy1.timeoutUs ≤ copying.now := by decide +kernel

/-- Grant 15: one 8 KiB frame at 0, for module 7, generation 1. -/
def grant15 : Grant :=
  { grantAtThaw with base := 0, count := 1, borrower := 7, gen := 1, fsizeK := 8, wr := true, rd := true, valid := true }

def lending : State := { act with memc := { act.memc with grants := act.memc.grants.set 15 grant15 } }

/-- The last 32 bytes of the grant. -/
def lendReq1 (op gen : Nat) (body : Bytes) : LendReqPkt :=
  { src := 7, tag := 1#32, op := op, grant := 15, gen := gen, frame := 0, offset := 8160, rlen := 32, rid := 0, payload := body }

theorem witness_LendRequestsComplete_served :
    lendAllowed (grantAt lending 15) (lendReq1 1 1 []) = true ∧
      lendAllowed (grantAt lending 15) (lendReq1 2 1 (List.replicate 32 1#8)) = true ∧
      (∃ t b, memRead lending (0 + 0 * (1024 * 8) + 8160) 32 = (t, .ok b)) ∧
      (memWrite lending (0 + 0 * (1024 * 8) + 8160) (List.replicate 32 1#8)).isSome = true :=
  ⟨by decide +kernel, by decide +kernel, ⟨_, _, rfl⟩, by decide +kernel⟩

theorem witness_LendRequestsComplete_refused :
    lendAllowed (grantAt lending 15) (lendReq1 1 2 []) = false ∧ (lendReq1 1 2 []).gen ≠ (grantAt lending 15).gen ∧
      (inState .hold).pwr.state = .hold ∧ (inState .withdrawn).pwr.state = .withdrawn := by decide +kernel

/-- Word 0 of MEM_LEND_GRANT: VALID, RD, 8 KiB frames, module 7, COUNT 1. -/
def grantLo : Dword := BitVec.ofNat 64 (1 + 4 + 8 * 2 ^ 16 + 7 * 2 ^ 40 + 2 ^ 56)

theorem witness_LendRequestsComplete_commit :
    let g := grantAt act 15
    grantLo.getLsbD 0 = true ∧ grantLo.getLsbD 1 = false ∧ g.valid = false ∧ 15 < act.memc.grants.length ∧
      grantOk (grantFields { g with held := none } ((g.held.map fun v => v.toNat).getD (grantHi g)) grantLo.toNat) = true ∧
      grantOk (grantFields { g with held := none } ((g.held.map fun v => v.toNat).getD (grantHi g)) (1#64).toNat) = false := by
  decide +kernel

theorem witness_LendRequestsComplete_revoke :
    let s : State := { act with memc := { act.memc with grants := act.memc.grants.set 15 { grantAtThaw with revoke := true } } }
    (grantAt s 15).revoke = true ∧ (grantAt s 15).valid = false ∧ 15 < s.memc.grants.length ∧ (grantAt lending 15).valid = true ∧
      15 < lending.memc.grants.length := by decide +kernel

/-- A Whey record (Table 15-4). -/
def wheyRecB (op : Nat) : Bytes :=
  recd 64 [(0, leBytes 1 op), (16, leBytes 6 0xB000), (24, leBytes 4 1), (28, leBytes 4 32)]

/-- The store is ready: pool 0 holds two slots of 4 KiB, the first allocated; a PUT record lies at 0x7000. -/
def stored : State :=
  let s := poke act 0x7000 (wheyRecB 1)
  { s with fls := { s.fls with state := .ready, pools := s.fls.pools.set 0 ⟨true, false, 1, 2⟩, alloc := [0] } }

theorem witness_WheyTransfersComplete_record :
    wheyReady stored = true ∧
      (∃ t b, argRead (noted stored hdr 0x32) ⟨0, 0x7000⟩ 64 = (t, .ok b) ∧ wheyResOk b = true ∧ wheyRecOk t (wheyRecOf b) = true) ∧
      (∃ t b, argRead stored ⟨0, 0x7000⟩ 64 = (t, .ok b) ∧ wheyResOk b = true ∧ wheyRecOk t (wheyRecOf b) = true) :=
  ⟨by decide, ⟨_, _, rfl, by decide +kernel, by decide +kernel⟩, ⟨_, _, rfl, by decide +kernel, by decide +kernel⟩⟩

/-- An object of 32 bytes whose CHECK holds. -/
def objectBytes : Bytes := overlay (List.replicate 32 0#8) 24 (leBytes 4 (crc32c (List.replicate 32 0#8)))

def xfer (op : Nat) (ran : Bool) : Xfer :=
  { id := 4, cmd := none, recAs := 0, recAddr := 0x7000, args := wheyRecOf (wheyRecB op), old := some objectBytes, oldBad := [],
    oldSoft := [], ran := ran, status := .ok, outs := [] }

def moving1 (op : Nat) (ran : Bool) : State := { stored with fls := { stored.fls with xfers := [xfer op ran] } }

theorem witness_WheyTransfersComplete_put :
    findXfer (moving1 1 false) 4 = some (xfer 1 false) ∧ (xfer 1 false).ran = false ∧ (xfer 1 false).args.op = 1 ∧
      (moving1 1 false).fls.state ≠ .readonly ∧ objOk (moving1 1 false) (xfer 1 false).args.obj = true ∧
      ∃ t b, memRead (moving1 1 false) 0xB000 32 = (t, .ok b) :=
  ⟨by decide +kernel, rfl, by decide +kernel, by decide, by decide +kernel, _, _, rfl⟩

theorem witness_WheyTransfersComplete_get :
    findXfer (moving1 2 false) 4 = some (xfer 2 false) ∧ (xfer 2 false).args.op = 2 ∧
      wheyCheck objectBytes = true ∧
      (let q := flashReadAs (moving1 2 false) (xfer 2 false).args.obj
        (slotWords (moving1 2 false) (xfer 2 false).args.obj) (xfer 2 false).oldBad (xfer 2 false).oldSoft
       q.2 = true ∧ (memWrite q.1 (xfer 2 false).args.local_ objectBytes).isSome = true) := by decide +kernel

theorem witness_WheyTransfersComplete_moveOut :
    (xfer 3 false).args.op = 3 ∧ ∃ t b, ctrlRead (moving1 3 false) (xfer 3 false).args.local_ 32 = (t, .ok b) ∧
      namesIndex t (xfer 3 false).args = false ∧
      ∃ u l st, moveWalk moveOutEntry (xfer 3 false).args.local_ (leAt b 0 4) 0 t = (u, l, st) :=
  ⟨by decide +kernel, _, _, rfl, by decide +kernel, _, _, _, rfl⟩

theorem witness_WheyTransfersComplete_moveIn :
    (xfer 4 false).args.op = 4 ∧ ∃ t b, ctrlRead (moving1 4 false) (xfer 4 false).args.local_ 32 = (t, .ok b) ∧
      namesIndex t (xfer 4 false).args = false ∧
      ∃ u l st, moveWalk moveInEntry (xfer 4 false).args.local_ (leAt b 0 4) 0 t = (u, l, st) :=
  ⟨by decide +kernel, _, _, rfl, by decide +kernel, _, _, _, rfl⟩

theorem witness_WheyTransfersComplete_alloc :
    (xfer 5 false).args.op = 5 ∧ ∃ t l u, takeSlots 1 0 (moving1 5 false) = (t, l) ∧
      memWrite t (xfer 5 false).args.local_ (leBytes 4 l.length ++ (l.map (leBytes 8)).flatten) = some u :=
  ⟨by decide +kernel, _, _, _, rfl, rfl⟩

theorem witness_WheyTransfersComplete_free :
    (xfer 6 false).args.op = 6 ∧ (moving1 6 false).fls.xfers.all (fun y => !decide (y.id < 4)) = true ∧
      ∃ t b, memRead (moving1 6 false) (xfer 6 false).args.local_ (4 + 8 * (xfer 6 false).args.count) = (t, .ok b) :=
  ⟨by decide +kernel, by decide +kernel, _, _, rfl⟩

theorem witness_WheyTransfersComplete_done :
    findXfer (moving1 1 true) 4 = some (xfer 1 true) ∧ (xfer 1 true).ran = true ∧
      (wheyPush (xfer 1 true) (xfer 1 true).outs (moving1 1 true)).2 = [] := by decide +kernel

/-- FLS_POOL: VALID, one slot of 4 KiB. -/
def poolValue : Dword := BitVec.ofNat 64 (2 ^ 63 + 2 ^ 30 + 1)

theorem witness_FlashCommandsComplete_pool :
    poolUnits (act.fls.pools.set 15 (wheyPoolOf poolValue.toNat)) ≤ 6979321856 ∧ poolInUse act 15 = false ∧
      6979321856 < poolUnits (act.fls.pools.set 15 (wheyPoolOf (BitVec.allOnes 64).toNat)) := by decide +kernel

theorem witness_FlashCommandsComplete_upkeep :
    act.fls.state = .scanning ∧ hostUp act.pwr.state = true ∧ wheyReady stored = true := by decide +kernel

/-! ### Witnesses: memory -/

theorem witness_MemoryAccessesComplete_write :
    Memory.wf act.mem ∧ spanOk (hbmEnd - 32) 32 = true ∧ spanOk (hbmEnd - 31) 32 = false ∧
      (sectorsOf (hbmEnd - 32) 32).all (fun k => !act.poison.contains k && !act.soft.contains k) = true := by decide +kernel

theorem witness_MemoryAccessesComplete_bad :
    let s : State := { act with poison := [0x80] }
    0x80 ∈ sectorsOf 0x1000 32 ∧ 0x80 ∈ s.poison ∧ spanOk 0x1000 32 = true ∧ (memWrite s 0x1000 (List.replicate 32 1#8)).isSome = true := by
  decide +kernel

theorem clean_of (s : State) (a n : Nat) (h : ((sectorsOf a n).all fun k => !s.poison.contains k && !s.soft.contains k) = true) :
    Clean s a n := by
  intro k hk
  have := List.all_eq_true.mp h k hk
  simpa using this

theorem witness_AtomicsAndAliasesComplete :
    amoOk (hbmEnd - 8) 8 = true ∧ amoOk (hbmEnd - 4) 4 = true ∧ amoOk (hbmEnd - 4) 8 = false ∧ Clean act (hbmEnd - 8) 8 ∧
      directD (hbmEnd - 8) / 32 ∉ act.poison :=
  ⟨by decide +kernel, by decide +kernel, by decide +kernel, clean_of _ _ _ (by decide +kernel), by decide +kernel⟩

/-- The last word of cluster 15's own SRAM, reserved with its value 0. -/
theorem witness_AtomicsAndAliasesComplete_reserved :
    let a := sramBase 15 + 0xBFFFFC
    let s := modCluster act 15 fun x => { x with resv := some (a, 4, 0) }
    ownSram 15 a 4 = true ∧ ownSram 14 a 4 = false ∧ (clusterAt act 15).resv ≠ some (a, 4, leNat (peek act a 4)) ∧
      (clusterAt s 15).resv = some (a, 4, leNat (peek s a 4)) ∧ (∃ t b, memRead s a 4 = (t, .ok b)) ∧
      ∃ t, memWrite (modCluster s 15 fun x => { x with resv := none }) a (leBytes 4 (5 % 2 ^ 32)) = some t :=
  ⟨by decide +kernel, by decide +kernel, by decide +kernel, by decide +kernel, ⟨_, _, rfl⟩, _, rfl⟩

/-- FP32 (OP 0) at the last word of HBM. -/
theorem witness_AtomicsAndAliasesComplete_alias :
    let a := 0x800000000000 + (hbmEnd - 4)
    aliasOk a 4 = true ∧ 4 = aliasIn (aliasOp a) ∧ Clean act (aliasTarget a) (aliasOut (aliasOp a)) ∧
      directD (aliasTarget a) / 32 ∉ act.poison ∧ aliasOk (a + 4) 4 = false :=
  ⟨by decide +kernel, by decide +kernel, clean_of _ _ _ (by decide +kernel), by decide +kernel, by decide +kernel⟩

theorem witness_MemoryUpkeepCompletes :
    act.memc.scrubH ≠ 0#32 ∧ act.memc.marginGo = false ∧ (0x80000000#32).getLsbD 31 = true ∧ marginOk act = true ∧
      ({ act with hif := { act.hif with lock := true } } : State).hif.lock = true := by decide +kernel

theorem witness_MemoryUpkeepCompletes_done :
    let s : State := { act with memc := { act.memc with marginGo := true } }
    s.memc.marginGo = true ∧ (List.replicate 32 0#16).length = 32 ∧
      spanOk (s.memc.marginStack * stackBytes) (openBytes s 0x1000000).length = true := by
  refine ⟨rfl, rfl, ?_⟩
  rw [show (openBytes _ 0x1000000).length = 0x1000000 from by simp [openBytes]]
  decide +kernel

/-! ### Witnesses: small transfers, queues, streams -/

/-- A small transfer of 256 bytes from 0x1000 to 0x2000. -/
def smallBits : BitVec 256 := BitVec.ofNat 256 (0x1000 + 0x2000 * 2 ^ 64 + 256 * 2 ^ 128)

def small1 : SmallCmd := smallOf 0x080040000000 (leBytes 32 smallBits.toNat)

theorem witness_SmallTransfersComplete :
    let s := modCluster act 15 fun x => { x with small := [small1] }
    (clusterAt s 15).small.length < 16 ∧ (clusterAt s 15).small = [small1] ∧ small1.resOk = true ∧ 0 < small1.len ∧
      small1.len ≤ 256 ∧ small1.push = false := by decide +kernel

set_option maxRecDepth 20000 in
theorem witness_SmallTransfersComplete_done :
    ∃ t d u, smallRead (modCluster act 15 fun x => { x with small := [small1] }) 15 small1 = (t, .ok d) ∧
      smallWrite t 15 small1 d = .ok u :=
  ⟨_, _, _, rfl, rfl⟩

/-- VEC 0 feeds its own port 1 through a SHARE queue of 31 handles. -/
def pushGraph (n : Nat) : Graph := grf .running [stn .vec 0 0 1] [que 0 1 0 (List.replicate n ⟨hnd 0#16, 0, [0]⟩)]

theorem witness_QueueCommandsComplete_push :
    let g := pushGraph 31
    let s := withGraph act g
    slotGraph s 0 = some g ∧ g.stations[0]? = some (stn .vec 0 0 1) ∧ mayFinish s ⟨0, 0, g, stn .vec 0 0 1⟩ = true ∧
      prodQueue g 0 0 = some 0 ∧ (g.queues[0]?).map (fun q => queueRoom q 0) = some true ∧
      (g.queues[0]?).map (fun q => q.nextSeq.getD 0 0#16) = some 0#16 ∧ refOf s (hnd 0#16).addr ≤ 255 ∧
      (hnd 1#16).seq ≠ 0#16 ∧ ((pushGraph 32).queues[0]?).map (fun q => queueRoom q 0) = some false := by decide +kernel

theorem witness_QueueCommandsComplete_pop :
    let g := pushGraph 1
    let s := withGraph act g
    mayStart s ⟨0, 0, g, stn .vec 0 0 1⟩ = true ∧ (consQueue g 0 1).isSome = true ∧ (popHandle s 0 0 1).isSome = true ∧
      (popHandle (withGraph act (pushGraph 0)) 0 0 1).isSome = false ∧ consQueue g 0 2 = none := by decide +kernel

/-- A LOAD descriptor: one tile of 64 bytes at 0xC000, ring slots of 64 bytes. -/
def loadBytes : Bytes :=
  recd 128 [(0, leBytes 8 (0xC000 + 1 * 2 ^ 50 + 1 * 2 ^ 53)), (8, leBytes 8 64), (67, [2#8]), (70, [4#8]), (72, leBytes 3 64),
    (84, leBytes 3 1)]

/-- A STORE descriptor: one tile of 64 bytes to 0xD000. -/
def storeBytes : Bytes :=
  recd 128 [(0, leBytes 8 (0xD000 + 1 * 2 ^ 50 + 1 * 2 ^ 53)), (8, leBytes 8 64), (67, [1#8]), (84, leBytes 3 1)]

def streamGraph (k : Kind) : Graph := grf .running [stn k 255 0x8000 1] [que 0 1 0 [], { que 7 0 0 [⟨hnd 0#16, 0, [0]⟩] with qid := 6 }]

def streamBound (k : Kind) : Bound := ⟨0, 0, streamGraph k, stn k 255 0x8000 1⟩

set_option maxRecDepth 20000 in
theorem witness_StreamDescriptorsComplete_load :
    let s := poke (withGraph act (streamGraph .load)) 0x8000 loadBytes
    bound s .load 255 = some (streamBound .load) ∧ mayStart s (streamBound .load) = true ∧ (streamBound .load).st.strm.cur = none ∧
      ∃ r p, decodeStream s true 255 (wdAddr (streamBound .load) 128) = (r, .ok p) ∧
        portsBound (streamBound .load) [] (if hasComp p.d then [p.d.port, p.d.port + 1] else [p.d.port]) = true :=
  ⟨by decide +kernel, by decide +kernel, rfl, _, _, rfl, by decide +kernel⟩

set_option maxRecDepth 20000 in
theorem witness_StreamDescriptorsComplete_refused :
    let s := withGraph act (streamGraph .load)
    bound s .load 255 = some (streamBound .load) ∧ ∃ r e, decodeStream s true 255 (wdAddr (streamBound .load) 128) = (r, .error e) :=
  ⟨by decide +kernel, _, _, rfl⟩

set_option maxRecDepth 20000 in
theorem witness_StreamDescriptorsComplete_store :
    let s := poke (withGraph act (streamGraph .store)) 0x8000 storeBytes
    bound s .store 255 = some (streamBound .store) ∧ mayStart s (streamBound .store) = true ∧
      ∃ r0 d, readCtl s (wdAddr (streamBound .store) 128) 128 (fun x => .ok (streamDescOf false x)) = (r0, .ok d) ∧
        streamDescOk false d = true ∧ portsBound (streamBound .store) (storePorts d) (if d.push then [d.pushPort] else []) = true ∧
        ∃ s1, anchorPop s (streamBound .store) (storePorts d) = some s1 ∧
          ∃ r p, decodeStream s1 false 255 (wdAddr (streamBound .store) 128) = (r, .ok p) :=
  ⟨by decide +kernel, by decide +kernel, _, _, rfl, by decide +kernel, by decide +kernel, _, rfl, _, _, rfl⟩

/-! ### Witnesses: tiles of a stream -/

/-- A descriptor of one tile of 64 bytes at 0xC000. -/
def tileDesc (space : Nat) : StreamDesc :=
  { loadDesc with
    geom := ⟨0xC000, space, 1, 0, false, 64, [1, 1, 1, 1], [64, 0, 0, 0], true⟩
    rearm := false
    slotN := 1 }

def openSlot : SlotUse := ⟨0, 0, false, false, 0, 0, false, false, false, false, false, false, false, 0#16⟩

def tileStn (k : Kind) (x : Stream) : Station := { stn k 255 0x8000 1 with strm := x }

def tileStrm (d : StreamDesc) : Stream :=
  { streamAtLoad with cur := some d, outer := 1, fill := 1, slots := [openSlot], nextSlot := 1 }

def tileGraph (d : StreamDesc) : Graph := grf .running [tileStn .load (tileStrm d)] [que 0 1 0 []]

def tileBound (d : StreamDesc) : Bound := ⟨0, 0, tileGraph d, tileStn .load (tileStrm d)⟩

/-- What slot `openSlot` is read by. -/
def tilePlan (space : Nat) : StreamPlan := ⟨tileDesc space, none, none, 1, (tileStrm (tileDesc space)).outerC⟩

theorem witness_LoadTransfersComplete :
    let s := withGraph act (tileGraph (tileDesc 0))
    let b := tileBound (tileDesc 0)
    bound s .load 255 = some b ∧ mayFinish s b = true ∧ b.st.sub = 0 ∧
      openTile (rebind (issue s b) b).st.strm 0 = some openSlot ∧
      slotPlan (rebind (issue s b) b).st.strm openSlot = some (tilePlan 0) := by
  decide +kernel

theorem witness_LoadTransfersComplete_host :
    let s := withGraph act (tileGraph (tileDesc 1))
    let b := tileBound (tileDesc 1)
    bound s .load 255 = some b ∧ mayFinish s b = true ∧ b.st.sub = 0 ∧ openTile b.st.strm 0 = some openSlot ∧
      slotPlan b.st.strm openSlot = some (tilePlan 1) ∧ hostGeom (tilePlan 1) = some ((tileDesc 1).geom, 1) := by
  decide +kernel

/-- A STORE of one tile, its handle popped; under CLAIM the core's FIFO holds index 3 of epoch 0. -/
def putTile : StoreTile := ⟨0, 0, hnd 0#16, none, 0#16⟩

def putDesc (claim : Bool) : StreamDesc := { tileDesc 0 with claim := claim, isLoad := false }

def putGraph (claim : Bool) : Graph :=
  grf .running [tileStn .store { streamAtLoad with cur := some (putDesc claim), outer := 1, fill := 1, tiles := [putTile] }]
    [que 7 0 0 []]

def putBound (claim : Bool) : Bound :=
  ⟨0, 0, putGraph claim, tileStn .store { streamAtLoad with cur := some (putDesc claim), outer := 1, fill := 1, tiles := [putTile] }⟩

def putState (claim : Bool) : State :=
  modCore (withGraph act (putGraph claim)) 255 fun x => { x with claims := [(0#8, 3#32)] }

theorem witness_StoreTilesComplete :
    bound (putState false) .store 255 = some (putBound false) ∧ mayFinish (putState false) (putBound false) = true ∧
      (let s0 := storeFill (putState false) (putBound false)
       let b0 := rebind s0 (putBound false)
       b0.st.strm.cur = some (putDesc false) ∧ b0.st.strm.tiles.head? = some putTile ∧
         ∃ s1, commitGate s0 b0 (putDesc false) = .go s1 ∧ (rebind s1 b0).st.strm.tiles.head? = some putTile) :=
  ⟨by decide +kernel, by decide +kernel, by decide +kernel, by decide +kernel, _, rfl, by decide +kernel⟩

theorem witness_StoreTilesComplete_commit :
    bound (putState true) .store 255 = some (putBound true) ∧ mayFinish (putState true) (putBound true) = true ∧
      (let s0 := storeFill (putState true) (putBound true)
       let b0 := rebind s0 (putBound true)
       b0.st.strm.cur = some (putDesc true) ∧ b0.st.strm.tiles.head? = some putTile ∧
         ∃ s1, commitGate s0 b0 (putDesc true) = .go s1 ∧
           (rebind s1 b0).st.strm.tiles.head? = some { putTile with pos := 3 }) :=
  ⟨by decide +kernel, by decide +kernel, by decide +kernel, by decide +kernel, _, rfl, by decide +kernel⟩

/-- A claim template whose stream has no index yet. -/
def claimDesc : StreamDesc := { tileDesc 0 with claim := true }

def claimGraph : Graph :=
  grf .running [tileStn .load { streamAtLoad with cur := some claimDesc, outer := 1 }] [que 0 1 0 []]

def claimBound (x : Stream) : Bound := ⟨0, 0, claimGraph, tileStn .load { x with cur := some claimDesc, outer := 1 }⟩

theorem witness_ClaimTemplateAndSideCommands :
    let s := withGraph (counting 0#32 1#32) claimGraph
    let b := claimBound streamAtLoad
    bound s .load 255 = some b ∧ b.st.strm.cur = some claimDesc ∧ mayClaim s b 255 claimDesc = true ∧
      (∃ w e i, claimOp (wcOf s 15) = (w, .got e i)) ∧ ∃ w, claimOp (wcOf (counting 1#32 1#32) 15) = (w, .noWork) :=
  ⟨by decide +kernel, rfl, by decide +kernel, ⟨_, _, _, rfl⟩, _, rfl⟩

/-- One tile of index 3 delivered, and no more work. -/
theorem witness_ClaimTemplateAndSideCommands_end :
    let b := claimBound { streamAtLoad with claims := [(0, 3)], fill := 1, deliver := 1, claimOut := true }
    b.st.strm.cur = some claimDesc ∧ claimDesc.claim = true ∧ b.st.strm.claimOut = true ∧ b.st.strm.fault = none ∧
      b.st.strm.parked = false ∧ b.st.strm.deliver = loadTiles claimDesc b.st.strm ∧ nextDelivery b.st.strm = none := by
  decide +kernel

theorem witness_ClaimTemplateAndSideCommands_absent :
    let s1 := atsNote (withGraph act (tileGraph (tileDesc 1))) (0xC000 / 4096) false
    let b := tileBound (tileDesc 1)
    bound s1 .load 255 = some b ∧
      b.st.strm.slots.find? (fun u => !u.old && !u.landed && (match slotPlan b.st.strm u with
        | some p => touches s1 255 p u.pos (0xC000 / 4096)
        | none => false)) = some openSlot ∧ mayFinish s1 b = true ∧ b.st.sub = 0 := by decide +kernel

/-- A STORE to host memory whose one tile waits for its page. -/
def hostPut : Station :=
  tileStn .store { streamAtLoad with cur := some { tileDesc 1 with isLoad := false }, outer := 1, fill := 1, tiles := [putTile] }

theorem witness_ClaimTemplateAndSideCommands_absent_store :
    let g := grf .running [hostPut] [que 7 0 0 []]
    let s1 := atsNote (withGraph act g) (0xC000 / 4096) false
    let b : Bound := ⟨0, 0, g, hostPut⟩
    bound s1 .store 255 = some b ∧ b.st.strm.cur = some { tileDesc 1 with isLoad := false } ∧
      b.st.strm.tiles.head? = some putTile ∧ mayFinish s1 b = true ∧ b.st.sub = 0 ∧
      touches s1 255 ⟨{ tileDesc 1 with isLoad := false }, b.st.strm.comp, b.st.strm.idx, b.st.strm.outer, b.st.strm.outerC⟩
        putTile.pos (0xC000 / 4096) = true := by decide +kernel

set_option maxRecDepth 20000 in
theorem witness_ClaimTemplateAndSideCommands_rearm :
    ∃ t st, clusterRearm act ((clusterAt act 15).rearmLo.toNat + (5#64).toNat * 2 ^ 64) = (t, st) := ⟨_, _, Prod.mk.eta.symm⟩

/-- The worked example after R155: slacks −4, 1,740 and 2^18, and the tags they give at time 0. -/
theorem test_slack_and_tag :
    slackOf { streamAtLoad with tavg := 128, events := 4 } 2 .nearHbm = -4 ∧
    slackOf { streamAtLoad with tavg := 400, events := 4 } 5 .nearHbm = 1740 ∧ slackOf streamAtLoad 1 .nearHbm = 2 ^ 18 ∧
    deadlineTag 0 (-4) = 0 ∧ deadlineTag 0 1740 = 108 ∧ deadlineTag 0 (2 ^ 18) = 16384 := by decide +kernel

/-! ### Witnesses: MMA, VEC, SSA -/

/-- What a pop leaves: its state and what it keeps. -/
def gotPop (x : PopStep) : Option (State × MmaPart) :=
  match x with
  | .got s p => some (s, p)
  | _ => none

theorem got_eq (x : PopStep) (h : (gotPop x).isSome = true) : x = .got ((gotPop x).get h).1 ((gotPop x).get h).2 := by
  cases x <;> first | rfl | cases h

theorem drawn_eq (x : Drawn) (h : (match x with | .ok _ _ _ => true | _ => false) = true) : ∃ s p a, x = .ok s p a := by
  cases x <;> first | exact ⟨_, _, _, rfl⟩ | cases h

theorem some_eq {α : Type} (x : Option α) (h : x.isSome = true) : x = some (x.get h) := by simp

/-- An INT8 product of one row, one column and K = 32: A on port 1, B on port 2, the result on port 0. -/
def mmaBytes : Bytes :=
  recd 64 [(0, leBytes 8 (7 * 2 ^ 40 + 7 * 2 ^ 36)), (8, leBytes 3 32), (11, [1#8, 1#8]), (13, leBytes 3 32), (16, [1#8, 1#8]),
    (20, leBytes 3 32), (23, leBytes 3 32), (28, leBytes 4 (1 + 2 * 8 + 3 * 64))]

/-- A pool of one buffer, from which the next buffer is certain. -/
def onePool (g : Graph) : Graph := { g with pools := [⟨0, 0, 1, 4096, 0x100000, [0x100000]⟩] }

def feed (q pp cp : Nat) (h : Handle) : Queue := { que pp cp 0 [⟨h, 0, [0]⟩] with qid := q, pool := 0xFF }

/-- The same in the pool's next buffer. -/
def hndB : Handle := { hnd 0#16 with addr := 0x101000 }

/-- Its pool has one buffer left, and each operand's buffer has a second user. -/
def mmaGraph : Graph :=
  { grf .running [stn .mma 255 0x8000 1] [que 0 4 0 [], feed 6 7 1 (hnd 0#16), feed 7 6 2 hndB] with
    pools := [⟨0, 0, 3, 4096, 0x100000, [0x102000]⟩] }

def mmaBound : Bound := ⟨0, 0, mmaGraph, stn .mma 255 0x8000 1⟩

def mmaState : State := poke { withGraph act mmaGraph with refs := [(0x100000, 2), (0x101000, 2)] } 0x8000 mmaBytes

set_option maxRecDepth 20000 in
theorem witness_MmaDescriptorCompletes :
    bound mmaState .mma 255 = some mmaBound ∧ mayStart mmaState mmaBound = true ∧ mmaBound.st.wdi < mmaBound.st.workN ∧
      (coreAt mmaState 255).part = none ∧
      ∃ r v, ctrlRead mmaState (wdAddr mmaBound 64) 64 = (r, .ok v) ∧
        ∃ q fb, readFuse r (coreAt r 255) (mmaDescOf v) = (q, .ok fb) ∧ fusePart (partOf v fb) = none ∧
          mmaOk (mmaDescOf v) none = true ∧
          portsBound mmaBound (poppedPorts (mmaDescOf v) none) [(mmaDescOf v).outPort] = true ∧
          heldMissing (coreAt r 255) (mmaDescOf v) = false ∧
          ∃ t, loadPred q mmaBound (mmaDescOf v) = some (t, .ok ()) ∧ anchorKind (mmaDescOf v) none = some .a ∧
            ∃ u p1, popStep t mmaBound (mmaDescOf v) none (partOf v fb) .a = .got u p1 ∧
            ∃ w, readExt u (mmaDescOf v) = (w, .ok (32, 1, 1)) ∧
            ∃ y p2, useReady mmaBound (mmaDescOf v) none (32, 1, 1) 16 w { p1 with ext := some (32, 1, 1) } = .got y p2 ∧
            ∃ z p, popTurns mmaBound (mmaDescOf v) none (32, 1, 1) 256 y p2 = .got z p ∧
              popsDone (mmaDescOf v) none p (32, 1, 1) = true ∧
              ∃ s2 p3, useHeld (saveBack z mmaBound p) (coreAt (saveBack z mmaBound p) 255) (mmaDescOf v) none p (32, 1, 1)
                  = some (s2, p3) ∧
                ∃ s3 p4, useLate s2 mmaBound (mmaDescOf v) none p3 (32, 1, 1) = some (s3, p4) ∧ p4.empty = false ∧
                  isPoison (portStatus p4.popped) = false ∧ poolHolds s3 mmaBound (mmaDescOf v).outPort (256 * 1) = true ∧
                  (let d := mmaDescOf v
                   let x := coreAt s3 255
                   let tile := productTile d (predOf x d.pred) p4 32 1 1
                   let s4 := releaseAll s3 0 0 (heldGone x d ++ p4.wc ++ p4.wv ++ p4.rest)
                   let o : MmaOut := ⟨true, false, portStatus p4.popped, 256 * 1, 0, some tile.1, .ok⟩
                   let s5 := modCore (setChain (raise (updateHolds s4 255 d p4) 255 ⟨tile.2, 0, 0⟩) 255 x.chain) 255
                     fun y => { y with part := some { p4 with wc := [], wv := [], rest := [], keepA := [], keepB := [], out := some o } }
                   hasHalted s4 mmaBound = false ∧ ∃ s6 pool addr, mmaPush s5 mmaBound d p4.tag o = .ok s6 pool addr) := by
  refine ⟨by decide +kernel, by decide +kernel, by decide, rfl, _, _, rfl, _, _, rfl, rfl, by decide +kernel, by decide +kernel,
    by decide +kernel, _, rfl, by decide +kernel, _, _, rfl, _, rfl, _, _, rfl, ?_⟩
  refine ⟨_, _, got_eq _ (by decide +kernel), ?_⟩
  refine ⟨by decide +kernel, _, _, some_eq _ (by decide +kernel), ?_⟩
  refine ⟨_, _, some_eq _ (by decide +kernel), ?_⟩
  refine ⟨by decide +kernel, by decide +kernel, by decide +kernel, by decide +kernel, ?_⟩
  exact drawn_eq _ (by decide +kernel)

/-- The same without B's handle: the descriptor keeps what it has. -/
theorem witness_MmaDescriptorCompletes_part :
    let d := mmaDescOf mmaBytes
    let g := onePool (grf .running [stn .mma 255 0x8000 1] [que 0 4 0 [], feed 6 7 1 (hnd 0#16), { que 6 2 0 [] with qid := 7 }])
    let b : Bound := ⟨0, 0, g, stn .mma 255 0x8000 1⟩
    ∃ u p1, popStep { withGraph act g with refs := [(0x100000, 1)] } b d none (partOf mmaBytes []) .a = .got u p1 ∧
      ∃ y p2, useReady b d none (32, 1, 1) 16 u { p1 with ext := some (32, 1, 1) } = .got y p2 ∧
        ∃ z p, popTurns b d none (32, 1, 1) 256 y p2 = .got z p ∧ popsDone d none p (32, 1, 1) = false :=
  ⟨_, _, rfl, _, _, rfl, _, _, rfl, by decide +kernel⟩

/-- A product that waited for room. -/
def heldOut : MmaPart :=
  { partOf mmaBytes [] with ext := some (32, 1, 1), out := some ⟨true, false, .ok, 256, 0, some (List.replicate 256 0#8), .ok⟩ }

theorem witness_MmaDescriptorCompletes_room :
    let s := modCore mmaState 255 fun x => { x with part := some heldOut }
    bound s .mma 255 = some mmaBound ∧ (coreAt s 255).part = some heldOut ∧ mayFinish s mmaBound = true ∧
      ∃ o, heldOut.out = some o ∧ o.push = true ∧ o.empty = false ∧
        ∃ t pool addr, mmaPush s mmaBound (mmaDescOf heldOut.desc) heldOut.tag o = .ok t pool addr :=
  ⟨by decide +kernel, rfl, by decide +kernel, _, rfl, rfl, rfl, _, _, _, rfl⟩

/-- Compare two FP32 rows of 8 elements of core 255. -/
def eqIo : VecCmpIO := ⟨⟨255, [1, 2], 0, 1, 8, .fp32, 1#16, true, false⟩, 0#8⟩

def vecGraph (h : Handle) : Graph := onePool (grf .running [stn .vec 255 0x8000 1] [que 0 4 0 [], feed 6 7 1 h, feed 7 6 2 h])

def vecBound (h : Handle) : Bound := ⟨0, 0, vecGraph h, stn .vec 255 0x8000 1⟩

theorem witness_VecOperationsComplete :
    let s := withGraph act (vecGraph (hnd 0#16))
    let b := vecBound (hnd 0#16)
    let p := comparePlan .eq eqIo
    vecPlan (.vecEq eqIo) = some (eqIo.toVecIO, p) ∧ (bound s .vec 255 = some b ∧ mayStart s b = true ∧ b.st.wdi < b.st.workN) ∧
      p.okRec = true ∧ portsBound b [1, 2] ((p.outs (emptyHandle 1#16 true)).map Prod.fst) = true ∧
      (p.needs (emptyHandle 1#16 true)).length = 2 ∧ allDistinct [1, 2] = true ∧
      canPushAll s 0 0 ((p.outs (emptyHandle 1#16 true)).map Prod.fst) = true ∧
      ∃ s1 hs, popAll s 0 0 [1, 2] = some (s1, hs) ∧ hs.any isEmptyHandle = false ∧
        ∃ s2 ds sts, vecRead (p.sees (predOf (coreAt s1 255) (hs.headD (emptyHandle 1#16 true)).pred)) 0 s1
            (hs.zip (p.needs (hs.headD (emptyHandle 1#16 true)))) = some (s2, ds, sts) ∧
          isPoison (portStatus ([1, 2].zip sts)) = false ∧
          ∃ s3 outs fl, p.body s2 (predOf (coreAt s2 255) (hs.headD (emptyHandle 1#16 true)).pred) ds = .ok s3 outs fl ∧
            ∃ s4 at', drawAll s3 b (((p.outs (hs.headD (emptyHandle 1#16 true))).zip outs).map fun x => (x.1.1, x.2.length))
              = .ok s4 at' :=
  ⟨rfl, by decide +kernel, rfl, by decide +kernel, by decide, rfl, by decide +kernel, _, _, rfl, by decide +kernel, _, _, _, rfl,
    by decide +kernel, _, _, _, rfl, _, _, rfl⟩

theorem witness_VecOperationsComplete_empty :
    ∃ s1 hs, popAll (withGraph act (vecGraph (emptyHandle 1#16 true))) 0 0 [1, 2] = some (s1, hs) ∧ hs.any isEmptyHandle = true :=
  ⟨_, _, rfl, by decide +kernel⟩

theorem witness_VecOperationsComplete_poison :
    let h := { hnd 0#16 with status := .pagePoisoned }
    let s := withGraph act (vecGraph h)
    let p := comparePlan .eq eqIo
    ∃ s1 hs, popAll s 0 0 [1, 2] = some (s1, hs) ∧ hs.any isEmptyHandle = false ∧
      ∃ s2 ds sts, vecRead (p.sees (predOf (coreAt s1 255) h.pred)) 0 s1 (hs.zip (p.needs h)) = some (s2, ds, sts) ∧ isPoison (portStatus ([1, 2].zip sts)) = true ∧
        ∃ s4 at', drawAll s2 (vecBound h) (p.outs h) = .ok s4 at' :=
  ⟨_, _, rfl, by decide +kernel, _, _, _, rfl, by decide +kernel, _, _, rfl⟩

/-- An SSA descriptor: one slice, a group of one, E5M2 pages and queries, scale 1. -/
def ssaBytes : Bytes := recd 64 [(0, [1#8, 1#8]), (4, [2#8, 1#8]), (8, leBytes 4 0x3F800000)]

/-- A descriptor tile's header (Table 10-3): no page, the last of its slice, one head of 64 elements. -/
def tileBytes1 : Bytes := recd 64 [(7, [1#8]), (16, leBytes 6 0x9000), (24, [1#8]), (26, leBytes 2 64)]

def ssaGraph (h : Handle) : Graph := onePool (grf .running [stn .ssa 7 0x8000 1] [que 0 4 0 [], feed 6 7 0 h])

def ssaBound (h : Handle) : Bound := ⟨0, 0, ssaGraph h, stn .ssa 7 0x8000 1⟩

def ssaJob1 (closed : Nat) (hdr : Option TileHdr) (bad : Option Status) : SsaJob :=
  ⟨0, 0, ssaDescOf ssaBytes, closed, hdr, [], [], bad⟩

def ssaState (h : Handle) (j : Option SsaJob) : State :=
  modSsa (poke (poke (withGraph act (ssaGraph h)) 0x8000 ssaBytes) 0x100000 tileBytes1) 7 fun x => { x with job := j }

/-- A descriptor tile of 64 bytes. -/
def tileHnd (st : Status) : Handle := { hnd 0#16 with bytes := 64, status := st }

theorem witness_SsaCommandsComplete_open :
    let s := ssaState (tileHnd .ok) none
    let b := ssaBound (tileHnd .ok)
    (ssaAt s 7).job = none ∧ (bound s .ssa 7 = some b ∧ mayStart s b = true ∧ b.st.wdi < b.st.workN) ∧
      ∃ r v, ctrlRead s (wdAddr b 64) 64 = (r, .ok v) ∧ ssaDescOk (ssaDescOf v) = true ∧
        portsBound b [0] (if (ssaDescOf v).mass then [0, 1] else [0]) = true :=
  ⟨rfl, by decide +kernel, _, _, rfl, by decide +kernel, by decide +kernel⟩

theorem witness_SsaCommandsComplete_tile :
    let j := ssaJob1 0 none none
    let s := ssaState (tileHnd .ok) (some j)
    let b := ssaBound (tileHnd .ok)
    bound s .ssa 7 = some b ∧ (ssaAt s 7).job = some j ∧ (ssaAt s 7).halted = false ∧ mayFinish s b = true ∧
      j.closed < j.desc.npart ∧ ∃ t h, popHandle s 0 0 0 = some (t, h) ∧ isEmptyHandle h = false ∧ h.status = .ok ∧
        ∃ u v ps, ctrlRead t h.addr (min h.bytes 2048) = (u, .ok v) ∧ 64 ≤ h.bytes ∧ tileHdrOk h (tileHdrOf v) j.hdr = true ∧
          takePages u 7 j.desc.mass (tileHdrOf v) v (tileHdrOf v).ndesc j.pages = some ps ∧ ps.length ≤ 8192 :=
  ⟨by decide +kernel, rfl, by decide +kernel, by decide +kernel, by decide +kernel, _, _, rfl, by decide +kernel, rfl, _, _, _, rfl,
    by decide, by decide +kernel, rfl, by decide⟩

theorem witness_SsaCommandsComplete_other_tiles :
    let s (h : Handle) := ssaState h (some (ssaJob1 0 none none))
    (∃ t h, popHandle (s (emptyHandle 1#16 true)) 0 0 0 = some (t, h) ∧ isEmptyHandle h = true) ∧
      ∃ t h, popHandle (s (tileHnd .pageFault)) 0 0 0 = some (t, h) ∧ isEmptyHandle h = false ∧ h.status ≠ .ok :=
  ⟨⟨_, _, rfl, by decide +kernel⟩, _, _, rfl, by decide +kernel, by decide⟩

theorem witness_SsaCommandsComplete_close :
    let h := tileHdrOf tileBytes1
    let j (x : Option TileHdr) (st : Option Status) := ssaJob1 1 x st
    let s (x : Option TileHdr) (st : Option Status) := ssaState (tileHnd .ok) (some (j x st))
    (j none none).desc.npart ≤ (j none none).closed ∧ (stackAt (s none none) 7).level ≠ 3 ∧
      canPushAll (s none none) 0 0 (ssaPorts (j none none)) = true ∧ (j none none).bad = none ∧ (j none none).hdr = none ∧
      (j (some h) (some .pageFault)).bad = some .pageFault ∧ (j (some h) none).hdr = some h ∧
      ∃ t q, memRead (s (some h) none) h.qaddr 32 = (t, .ok q) ∧ byteAt q 4 ≤ 64 :=
  ⟨by decide +kernel, by decide +kernel, by decide +kernel, rfl, rfl, rfl, rfl, _, _, rfl, by decide +kernel⟩

/-! ### Witnesses: sequences -/

/-- A sequence record (Table 9-4): one layer of one head of 32 elements, pages of 16 rows, room for `cap` pages. -/
def seqBytes (cap : Nat) : Bytes :=
  recd 64 [(20, leBytes 4 cap), (24, leBytes 6 0xE000), (32, leBytes 2 1), (34, leBytes 2 32), (36, [1#8, 4#8]), (39, [1#8])]

def walkBytes (op layers pos count rec' : Nat) : Bytes :=
  recd 64 [(0, leBytes 1 op), (10, leBytes 2 layers), (12, leBytes 4 pos), (16, leBytes 4 count), (24, leBytes 6 rec')]

/-- Ports 0 to 7 push to station 1, each from a pool of one buffer; port 0 is fed. -/
def walkGraph : Graph :=
  { grf .running [stn .walk 15 0x8000 1, stn .vec 0 0x8800 1]
      (feed 20 7 0 (hnd 0#16) :: (List.range 8).map fun p => { que p p 1 [] with qid := p, pool := p }) with
    pools := (List.range 8).map fun p => ⟨p, 0, 1, 2048, 0x200000 + 0x1000 * p, [0x200000 + 0x1000 * p]⟩ }

def walkBound : Bound := ⟨0, 0, walkGraph, stn .walk 15 0x8000 1⟩

/-- Sequences 0 and 1, of `cap` pages each. -/
def seqState (cap : Nat) (desc : Bytes) : State :=
  let s := poke (poke (poke (withGraph act walkGraph) 0x8000 desc) 0x9000 (seqBytes cap)) 0x9040 (seqBytes cap)
  { s with kvc := { s.kvc with seqBase := 0x9000, seqN := 2 } }

theorem walkAt_of (s : State) (op : Nat) (r : State) (v : Bytes) (h : ctrlRead s (wdAddr walkBound 64) 64 = (r, .ok v))
    (hb : bound s .walk 15 = some walkBound) (hm : mayStart s walkBound = true)
    (hd : (walkDescOf v).resOk = true ∧ (walkDescOf v).op = op ∧ 1 ≤ op ∧ op ≤ 13) :
    WalkAt s 15 op walkBound (walkDescOf v) r :=
  ⟨by decide, hb, by decide, .inl hm, hd.2.2, v, h, rfl, hd.1, hd.2.1⟩

theorem witness_SequenceOperationsComplete_walkAt :
    ∀ op ∈ [0x02, 0x03, 0x06, 0x07, 0x0C, 0x0D],
      bound (seqState 1 (walkBytes op 1 16 0 0xA000)) .walk 15 = some walkBound ∧
        mayStart (seqState 1 (walkBytes op 1 16 0 0xA000)) walkBound = true ∧
        (ctrlRead (seqState 1 (walkBytes op 1 16 0 0xA000)) (wdAddr walkBound 64) 64).2 = .ok (walkBytes op 1 16 0 0xA000) ∧
        (walkDescOf (walkBytes op 1 16 0 0xA000)).resOk = true ∧ (walkDescOf (walkBytes op 1 16 0 0xA000)).op = op ∧
        1 ≤ op ∧ op ≤ 13 := by decide +kernel

set_option maxRecDepth 20000 in
theorem witness_SequenceOperationsComplete :
    let s := seqState 1 (walkBytes 0x02 1 16 0 0xA000)
    let d := walkDescOf (walkBytes 0x02 1 16 0 0xA000)
    ∃ r, WalkAt s 15 0x02 walkBound d r ∧ ∃ t, Granted r walkBound [d.seqid] t ∧ ∃ u q, readSeq t d.seqid = (u, .ok q) ∧
      d.layers ≠ 0 ∧ q.frozen = false ∧ ∃ ls ps, layersOf d q = some ls ∧ coverPages q d.pos d.count = .ok ps ∧
        ∃ w, pages (preparePage q) u false (layerPages ls ps) = .ok w false :=
  ⟨_, walkAt_of _ _ _ _ rfl (by decide +kernel) (by decide +kernel) (by decide +kernel), _, ⟨by decide +kernel, rfl⟩, _, _, rfl,
    by decide +kernel, rfl, _, _, rfl, rfl, _, rfl⟩

theorem witness_SequenceOperationsComplete_extend :
    let q := seqRecOf (seqBytes 1)
    seqLength q < 16 ∧ ∃ x, locateIn q q.tail (16 - 1) = .ok x := ⟨by decide +kernel, _, rfl⟩

theorem witness_SequenceOperationsComplete_truncate :
    let s := seqState 1 (walkBytes 0x06 1 16 0 0xA000)
    let q := seqRecOf (seqBytes 1)
    (spanOf q q.tail).1 ≤ 16 ∧
      (let lps := layerPages (List.range q.nlayer) (tailPages q 16)
       lps.any (moving s q) = false ∧ spanOk 0xA000 (4 + 8 * (ownedLocs s q lps).length) = true ∧
         ∃ w, pages (freePage q) s false lps = .ok w false) :=
  ⟨by decide +kernel, by decide +kernel, by decide +kernel, _, rfl⟩

set_option maxRecDepth 20000 in
theorem witness_SequenceOperationsComplete_release :
    let s := seqState 1 (walkBytes 0x07 1 16 0 0xA000)
    let q := seqRecOf (seqBytes 1)
    let lps := layerPages (List.range q.nlayer) (List.range q.ptCap)
    lps.any (moving s q) = false ∧ spanOk 0xA000 (4 + 8 * (ownedLocs s q lps).length) = true ∧
      ∃ w, pages (freePage q) s false lps = .ok w false :=
  ⟨by decide +kernel, by decide +kernel, _, rfl⟩

theorem witness_SequenceOperationsComplete_grant :
    byteAt (peek (seqState 1 (walkBytes 0x0C 1 16 0 0xA000)) (wdAddr walkBound 64) 1) 0 = 0x0C := by decide +kernel

def walked (x : Walked) : Bool := match x with | .done _ _ => true | _ => false

theorem done_of (x : Walked) (h : walked x = true) : ∃ w st, x = .done w st := by
  cases x <;> first | exact ⟨_, _, rfl⟩ | cases h

/-- What a run over pages leaves, when each page of it did. -/
def pagedSt (x : Paged) : Option State := match x with | .ok s false => some s | _ => none

theorem paged_eq (x : Paged) (h : (pagedSt x).isSome = true) : x = .ok ((pagedSt x).get h) false := by
  rcases x with ⟨s, _ | _⟩ | _ | _ <;> first | rfl | cases h

/-- Frame 3 of pool 0, resident and plain. -/
def page3 : Pte := ⟨0, 1, 0, false, false, 0, 3, true⟩

/-- Sequences 0 and 1 with tables of their own; sequence `k` holds one row, in its page 0; pool 0 has eight frames. -/
def pagedState (k : Nat) (desc : Bytes) : State :=
  let seq (i : Nat) : Bytes :=
    overlay (overlay (seqBytes 2) 4 (leBytes 4 (if i = k then 1 else 0))) 24 (leBytes 6 (0xE000 + 0x100 * i))
  let dir (i : Nat) : Bytes := leBytes 8 (0xE200 + 0x200 * i) ++ leBytes 8 (0xE300 + 0x200 * i)
  let s := poke (poke (poke (poke (seqState 2 desc) 0x9000 (seq 0)) 0x9040 (seq 1)) 0xE000 (dir 0)) 0xE100 (dir 1)
  modPoolK (poke (poke s (0xE200 + 0x200 * k) (leBytes 8 (pteVal page3))) (0xF000 + 48) [1#8]) 0 fun x =>
    { x with valid := true, base := 0x300000, fsizeK := 8, count := 8, ftab := 0xF000 }

set_option maxRecDepth 20000 in
/-- FORK of sequence 1 (COUNT) into sequence 0 at position 1. -/
theorem witness_SequenceReadersComplete_fork :
    let s := pagedState 1 (walkBytes 0x05 1 1 1 0xA000)
    let d := walkDescOf (walkBytes 0x05 1 1 1 0xA000)
    ∃ r, WalkAt s 15 0x05 walkBound d r ∧
      ∃ t, Granted r walkBound [min d.seqid (d.count % 2 ^ 20), max d.seqid (d.count % 2 ^ 20)] t ∧
        ∃ u dst, readSeq t d.seqid = (u, .ok dst) ∧ ∃ w src, readSeq u (d.count % 2 ^ 20) = (w, .ok src) ∧
          (let lps := layerPages (List.range src.nlayer) (pagesBelow src d.pos)
           lps = [(0, 0)] ∧ src.frozen = false ∧ dst.frozen = false ∧ forkMatch src dst = true ∧
             heldOver src (fun p => decide (p.2.1 < d.pos)) = false ∧ (∀ lp ∈ lps, lp.2 < dst.ptCap) ∧
             forkDst w dst lps = none ∧ forkSrc w src lps = .ok ∧ forkRefs w src lps = false ∧
             ∃ x, pages (forkPage src dst) w false lps = .ok x false) := by
  refine ⟨_, walkAt_of _ _ _ _ rfl (by decide +kernel) (by decide +kernel) (by decide +kernel), _, ⟨by decide +kernel, rfl⟩, _, _, rfl,
    _, _, rfl, by decide +kernel, by decide +kernel, by decide +kernel, by decide +kernel, by decide +kernel, by decide +kernel,
    by decide +kernel, by decide +kernel, by decide +kernel, _, paged_eq _ (by decide +kernel)⟩

set_option maxRecDepth 20000 in
/-- The page of that FORK. -/
theorem witness_SequenceReadersComplete_forkPage :
    let s := pagedState 1 []
    ∃ src dst a c x y, (readSeq s 1).2 = .ok src ∧ (readSeq s 0).2 = .ok dst ∧ readPte s src 0 0 = (a, .ok x) ∧
      readPte a dst 0 0 = (c, .ok y) ∧
        (let e := { x.pte with share := true }
         ∃ t n, refAdd (writePte c x.addr e) e.pool e.loc 1 = (t, .ok n) ∧ n = 2 ∧
           ∃ v m, memRead (writePte t y.addr e) x.score 4 = (v, .ok m) ∧ ∃ w, memWrite v y.score m = some w) := by
  refine ⟨_, _, _, _, _, _, rfl, rfl, rfl, rfl, _, _, rfl, by decide +kernel, _, _, rfl, _, some_eq _ (by decide +kernel)⟩

/-- A commit record: of two candidates the second is accepted, at the sequence's end. -/
def commitBytes : Bytes := recd 96 [(4, leBytes 4 1), (8, [2#8, 1#8]), (16, leBytes 6 0xB800), (32, [1#8])]

set_option maxRecDepth 20000 in
theorem witness_SequenceReadersComplete_commit :
    let s := poke (poke (pagedState 0 (walkBytes 0x04 1 0 0 0xA000)) 0xA000 commitBytes) 0xB808 [2#8]
    let d := walkDescOf (walkBytes 0x04 1 0 0 0xA000)
    ∃ r, WalkAt s 15 0x04 walkBound d r ∧ ∃ r1 rb, ctrlRead r d.rec_ 96 = (r1, .ok rb) ∧
      (let c := commitRecOf rb
       commitRecOk c = true ∧ ∃ t, Granted r1 walkBound [c.seqid] t ∧ ∃ u q, readSeq t c.seqid = (u, .ok q) ∧
        c.a ≠ 0 ∧ ∃ v tree, ctrlRead u c.tree 512 = (v, .ok tree) ∧
          (∃ x, locateIn q q.tail (c.base + c.path.getD (c.a - 1) 0) = .ok x) ∧ c.base = seqLength q ∧ pathOk c tree = true ∧
          c.base + c.a ≤ 0xFFFFFFFF ∧ commitReady v q c = none ∧ poolWaits t q = false ∧ v.kvc.committing = [] ∧
          (let x := { v with kvc := { v.kvc with committing := [(c.seqid, 15)] } }
           unanswered x c.seqid = false ∧ commitMoves c = [(1, 0)] ∧
             ∃ y, pages (commitRow q c) x false
                 ((commitMoves c).map fun m => (List.range q.nlayer).map fun l => (l, m)).flatten = .ok y false ∧
               ∃ z, pages (freePage q) (writeSeq y c.seqid (setLength q (c.base + c.a))) false
                 (layerPages (List.range q.nlayer) (tailPages q (c.base + c.a))) = .ok z false)) := by
  refine ⟨_, walkAt_of _ _ _ _ rfl (by decide +kernel) (by decide +kernel) (by decide +kernel), _, _, rfl, by decide +kernel, _,
    ⟨by decide +kernel, rfl⟩, _, _, rfl, by decide +kernel, _, _, rfl, ⟨_, rfl⟩, by decide +kernel, by decide +kernel,
    by decide +kernel, by decide +kernel, by decide +kernel, by decide +kernel, by decide +kernel, by decide +kernel, ?_⟩
  exact ⟨_, paged_eq _ (by decide +kernel), _, paged_eq _ (by decide +kernel)⟩

def attendState (layers : Nat) : State := seqState 0 (walkBytes 0x01 layers 0 0 0xA000)

/-- What a run of pushes leaves, when none waits. -/
def flushedSt (x : Flushed) : Option State := match x with | .all s => some s | _ => none

theorem flushed_eq (x : Flushed) (h : (flushedSt x).isSome = true) : x = .all ((flushedSt x).get h) := by
  cases x <;> first | rfl | cases h

set_option maxRecDepth 20000 in
/-- No layers: eight empty handles; and a SCORE of no layers. -/
theorem witness_SequenceReadersComplete_attend_none :
    let s := attendState 0
    let d := walkDescOf (walkBytes 0x01 0 0 0 0xA000)
    (∃ r, WalkAt s 15 0x01 walkBound d r ∧ portsBound walkBound [0] (List.range 8) = true ∧ readerOf r walkBound = none ∧
      d.layers = 0 ∧ ∃ t h, popHandle r 0 0 0 = some (t, h) ∧
        (let t1 := modStation (startReader t walkBound 15 (some d.seqid)) 0 0 fun x => { x with sub := 0 }
         let outs := (List.range 8).map fun k => (⟨k, none, .empty, true⟩ : WalkOut)
         let t2 := setReader t1 walkBound fun x => { x with query := some h, out := outs, ends := .empty }
         ∃ w, flushOuts walkBound d t2 outs = .all w)) ∧
      ∃ r, WalkAt (seqState 0 (walkBytes 0x08 0 0 0 0xA000)) 15 0x08 walkBound (walkDescOf (walkBytes 0x08 0 0 0 0xA000)) r ∧
        (walkDescOf (walkBytes 0x08 0 0 0 0xA000)).layers = 0 := by
  refine ⟨⟨_, walkAt_of _ _ _ _ rfl (by decide +kernel) (by decide +kernel) (by decide +kernel), by decide +kernel, by decide +kernel,
    by decide +kernel, _, _, rfl, _, flushed_eq _ (by decide +kernel)⟩,
    _, walkAt_of _ _ _ _ rfl (by decide +kernel) (by decide +kernel) (by decide +kernel), by decide +kernel⟩

set_option maxRecDepth 20000 in
theorem witness_SequenceReadersComplete_attend :
    let s := attendState 1
    let d := walkDescOf (walkBytes 0x01 1 0 0 0xA000)
    ∃ r, WalkAt s 15 0x01 walkBound d r ∧ readerOf r walkBound = none ∧ d.layers ≠ 0 ∧
      ∃ u q, readSeq r d.seqid = (u, .ok q) ∧ (layersOf d q).isSome = true ∧
        (∀ c ∈ u.kvc.committing, c.1 ≠ d.seqid) ∧ q.frozen = false ∧
        ∃ t h, popHandle u 0 0 0 = some (t, h) ∧ isEmptyHandle h = false ∧ h.status = .ok ∧
          ∃ w st, attendGo walkBound d q (d.layers + 2)
            (setReader (startReader t walkBound 15 (some d.seqid)) walkBound fun x => { x with query := some h }) = .done w st := by
  refine ⟨_, walkAt_of _ _ _ _ rfl (by decide +kernel) (by decide +kernel) (by decide +kernel), by decide +kernel,
    by decide +kernel, _, _, rfl, by decide +kernel, by decide +kernel, by decide +kernel, _, _, rfl, by decide +kernel, rfl,
    done_of _ (by decide +kernel)⟩

/-- Sequence 0 with a resident page, its mass tile's handle `h`. -/
def scoreState (h : Handle) : State :=
  let s := pagedState 0 (walkBytes 0x08 1 0 0 0xA000)
  { s with graphs := s.graphs.set 0 ⟨1#10, some { walkGraph with queues := feed 20 7 0 h :: walkGraph.queues.drop 1 }, []⟩ }

def scoreBound (h : Handle) : Bound :=
  ⟨0, 0, { walkGraph with queues := feed 20 7 0 h :: walkGraph.queues.drop 1 }, stn .walk 15 0x8000 1⟩

set_option maxRecDepth 20000 in
theorem witness_SequenceReadersComplete_score :
    let s := scoreState (hnd 0#16)
    let b := scoreBound (hnd 0#16)
    let d := walkDescOf (walkBytes 0x08 1 0 0 0xA000)
    ∃ r, WalkAt s 15 0x08 b d r ∧ d.layers ≠ 0 ∧ portsBound b [0] [] = true ∧
      ∃ u q, readSeq (startReader r b 15 none) d.seqid = (u, .ok q) ∧ d.layer0 < q.nlayer ∧
        ∃ t h, popHandle u 0 0 0 = some (t, h) ∧ isEmptyHandle h = false ∧ h.status = .ok ∧
          ∃ v m, memRead t h.addr h.bytes = (v, .ok m) ∧
            ∃ w, pages (scoreEntry q d.layer0 (v.kvc.curves.getD q.curve [])) v false
              ((List.range (h.bytes / 8)).map fun i => (leAt m (8 * i) 4, leAt m (8 * i + 4) 4)) = .ok w false := by
  refine ⟨_, ⟨by decide, by decide +kernel, by decide, .inl (by decide +kernel), by decide, _, rfl, rfl, by decide +kernel,
    by decide +kernel⟩, by decide +kernel, by decide +kernel, _, _, rfl, by decide +kernel, _, _, rfl, by decide +kernel,
    by decide +kernel, _, _, rfl, _, paged_eq _ (by decide +kernel)⟩

set_option maxRecDepth 20000 in
/-- An empty tile, a tile with an error status, and a tile that reads poisoned. -/
theorem witness_SequenceReadersComplete_score_none :
    let e := emptyHandle 1#16 true
    let p := { hnd 0#16 with status := .pagePoisoned }
    (∃ r, WalkAt (scoreState e) 15 0x08 (scoreBound e) (walkDescOf (walkBytes 0x08 1 0 0 0xA000)) r ∧
      ∃ u q, readSeq (startReader r (scoreBound e) 15 none) 0 = (u, .ok q) ∧ ∃ t h, popHandle u 0 0 0 = some (t, h) ∧
        isEmptyHandle h = true) ∧
    (∃ r, WalkAt (scoreState p) 15 0x08 (scoreBound p) (walkDescOf (walkBytes 0x08 1 0 0 0xA000)) r ∧
      ∃ u q, readSeq (startReader r (scoreBound p) 15 none) 0 = (u, .ok q) ∧ ∃ t h, popHandle u 0 0 0 = some (t, h) ∧
        isEmptyHandle h = false ∧ h.status ≠ .ok) ∧
    ∃ t h, popHandle { scoreState (hnd 0#16) with poison := [0x100000 / 32] } 0 0 0 = some (t, h) ∧ isEmptyHandle h = false ∧
      h.status = .ok ∧ ∃ v k m, memRead t h.addr h.bytes = (v, .bad k m) := by
  refine ⟨⟨_, ⟨by decide, by decide +kernel, by decide, .inl (by decide +kernel), by decide, _, rfl, rfl, by decide +kernel,
    by decide +kernel⟩, _, _, rfl, _, _, rfl, by decide +kernel⟩,
    ⟨_, ⟨by decide, by decide +kernel, by decide, .inl (by decide +kernel), by decide, _, rfl, rfl, by decide +kernel,
    by decide +kernel⟩, _, _, rfl, _, _, rfl, by decide +kernel, by decide +kernel⟩,
    _, _, rfl, by decide +kernel, by decide +kernel, _, _, _, rfl⟩

set_option maxRecDepth 20000 in
theorem witness_SequenceReadersComplete_scoreEntry :
    let s := pagedState 0 []
    ∃ q, (readSeq s 0).2 = .ok q ∧ 0 < q.ptCap ∧ 1 < q.ptCap ∧ (∃ a x, readPte s q 0 1 = (a, .ok x) ∧ resident x.pte = false) ∧
      ∃ a x, readPte s q 0 0 = (a, .ok x) ∧ resident x.pte = true ∧ ∃ c m, memRead a x.score 4 = (c, .ok m) ∧
        ∃ w, memWrite c x.score (leBytes 4 (fpFma ctl0 f32 (leNat m)
          (leAt curveAtThaw (32 + 4 * decayIndex (max 1 (seqLength q - firstPos q 0))) 4) 0).1) = some w := by
  refine ⟨_, rfl, by decide +kernel, by decide +kernel, ⟨_, _, rfl, by decide +kernel⟩, _, _, rfl, by decide +kernel, _, _, rfl, _,
    some_eq _ (by decide +kernel)⟩

/-- A move record: HBM to HBM of no page, to pool 0, its list at 0xB000. -/
def moveBytes : Bytes := recd 32 [(0, [8#8]), (24, leBytes 6 0xB000)]

set_option maxRecDepth 20000 in
theorem witness_MovesComplete_begin :
    let s := poke (seqState 0 (walkBytes 0x09 1 0 0 0xA000)) 0xA000 moveBytes
    let d := walkDescOf (walkBytes 0x09 1 0 0 0xA000)
    ∃ r, WalkAt s 15 0x09 walkBound d r ∧ ∃ r1 rb, ctrlRead r d.rec_ 32 = (r1, .ok rb) ∧ (moveRecOf rb).resOk = true ∧
      (moveRecOf rb).select ≠ 3 ∧ portsBound walkBound [] [0] = true ∧ canPush r1 0 0 0 = true ∧ d.layers ≠ 0 ∧
      ∃ t, Granted r1 walkBound [d.seqid] t ∧ ∃ u q, readSeq t d.seqid = (u, .ok q) ∧
        spanOk (moveRecOf rb).out (32 + 32 * (moveRecOf rb).outMax) = true ∧ toHbm (moveRecOf rb).kind = false ∧
        (poolAt u (moveRecOf rb).dpool).valid = (poolAt t (moveRecOf rb).dpool).valid ∧
        ∃ w, movePages d q (moveRecOf rb) u = (w, .ok []) := by
  refine ⟨_, walkAt_of _ _ _ _ rfl (by decide +kernel) (by decide +kernel) (by decide +kernel), _, _, rfl, by decide +kernel,
    by decide +kernel, by decide +kernel, by decide +kernel, by decide +kernel, _, ⟨by decide +kernel, rfl⟩, _, _, rfl,
    by decide +kernel, by decide +kernel, by decide +kernel, _, rfl⟩

set_option maxRecDepth 20000 in
theorem witness_MovesComplete_end :
    let s := seqState 0 (walkBytes 0x0A 1 0 0 0xA000)
    let d := walkDescOf (walkBytes 0x0A 1 0 0 0xA000)
    ∃ r, WalkAt s 15 0x0A walkBound d r ∧ ∃ t, Granted r walkBound [d.seqid] t ∧ ∃ u q, readSeq t d.seqid = (u, .ok q) ∧
      ∃ v hb, ctrlRead u d.rec_ 32 = (v, .ok hb) ∧ leAt hb 0 4 = 0 ∧ spanOk d.rec_ (32 * (0 + 1) + 4 + 8 * 0) = true ∧
        portsBound walkBound [0] [] = true ∧ ∃ w, memWrite v (d.rec_ + 32 * (0 + 1)) (leBytes 4 0) = some w ∧
        ∃ x, endEntries walkBound d q (d.rec_ + 32)
          (fun t => (popHandle t 0 0 0).map fun y => (y.1, statusCode y.2.status, some y.2)) 0 0 w = .all x := by
  refine ⟨_, walkAt_of _ _ _ _ rfl (by decide +kernel) (by decide +kernel) (by decide +kernel), _, ⟨by decide +kernel, rfl⟩, _, _, rfl,
    _, _, rfl, by decide +kernel, by decide +kernel, by decide +kernel, _, rfl, _, rfl⟩

theorem witness_MovesComplete_abort :
    (walkDescOf (walkBytes 0x0B 1 0 0 0xA000)).op = 0x0B ∧ (walkDescOf (walkBytes 0x0B 1 0 0 0xA000)).resOk = true := by
  decide +kernel

/-! ### Witnesses: frame pools -/

/-- Pool 15 with frame 5 in limbo; every reader of epoch 1 began after its STAMP. -/
def limboState (e : Dword) : State :=
  modPoolK { act with kvc := { act.kvc with epoch := e } } 15 fun x =>
    { x with valid := true, ftab := 0xF000, count := 8, limbo := [5] }

theorem witness_FramePoolsComplete_reclaim :
    (poolAt (limboState 1#64) 15).limbo = [5] ∧ 15 < (limboState 1#64).kvc.pools.length ∧ (poolAt act 15).limbo = [] ∧
      ∃ r v, ctrlRead (limboState 1#64) (frameEntry (limboState 1#64) 15 5) 16 = (r, .ok v) ∧
        (∀ c < 16, leAt v 8 8 < oldest (limboState 1#64) c) ∧ ∃ c < 16, oldest (limboState 0#64) c ≤ leAt v 8 8 :=
  ⟨by decide +kernel, by decide +kernel, by decide +kernel, _, _, rfl, by decide +kernel, 15, by decide, by decide +kernel⟩

/-- Words 1 and 2 of Table 21-17's pool are held; word 0 commits a good pool, a pool that reaches past HBM, or none. -/
theorem witness_FramePoolsComplete_word :
    let s := modPoolK act 2 fun x => { x with held := [(1, 0x40000000#64), (2, 0x0018000000200000#64)] }
    let old := poolAt s 2
    let w (i now : Nat) : Nat := ((assocGet old.held i).map BitVec.toNat).getD now
    let p (v : Dword) := poolWords v.toNat (w 1 old.ftab) (w 2 (old.count + old.fsizeK * 2 ^ 48))
    let others := (s.kvc.pools.eraseIdx 2).filter fun q => q.valid
    s.hif.lock = false ∧ hostUp s.pwr.state = true ∧ (p 0#64).valid = false ∧
      (p 0x8000003C00000000#64).valid = true ∧ framePoolOk (p 0x8000003C00000000#64) others = true ∧
      (p 0x8000FFFFFFFFF000#64).valid = true ∧ framePoolOk (p 0x8000FFFFFFFFF000#64) others = false ∧
      ({ act with hif := { act.hif with lock := true } } : State).hif.lock = true ∧
      (poolAt (modPoolK act 15 fun x => { x with initBusy := true }) 15).initBusy = true := by decide +kernel

set_option maxRecDepth 20000 in
theorem witness_FramePoolsComplete_curve :
    let s := poke { act with kvc := { act.kvc with curveBase := 0xF0000 } } (0xF0000 + 288 * 15) curveAtThaw
    (∃ r v, memRead s (s.kvc.curveBase + 288 * 15) 288 = (r, .ok v) ∧ curveOk v = true) ∧
      ∃ r v, memRead (poke s (0xF0000 + 288 * 15) [0#8, 0#8, 0xC0#8, 0x7F#8]) (s.kvc.curveBase + 288 * 15) 288 = (r, .ok v) ∧
        curveOk v = false := ⟨⟨_, _, rfl, by decide +kernel⟩, _, _, rfl, by decide +kernel⟩

/-! ### Witnesses: Churn -/

def churnBytes (op : Nat) : Bytes := recd 64 [(0, leBytes 1 op), (16, leBytes 6 0xA000)]

/-- A ring of two members, 8 lanes each way, both engines on die 0, four slots of 4 KiB a way. -/
def ringBytes : Bytes :=
  recd 64 [(0, leBytes 4 0xAB), (4, leBytes 2 2), (8, leBytes 2 9), (10, leBytes 2 9), (12, [8#8, 8#8, 0#8, 3#8]), (20, leBytes 2 512),
    (22, [4#8]), (24, leBytes 3 4096), (28, leBytes 4 1)]

def churnGraph : Graph :=
  grf .running [stn .churn 0 0x8000 1] ([0, 1, 2, 3].map (fun p => { que 7 p 0 [] with qid := 30 + p })
    ++ [0, 1].map fun p => { que p 7 1 [] with qid := 40 + p })

def churnBound : Bound := ⟨0, 0, churnGraph, stn .churn 0 0x8000 1⟩

/-- The context as ROTATE leaves it before its last look: every block out, every release in. -/
def doneDir : ChnDir := { chnDirAtThaw with lastOut := true, rel := 2, endsIn := 1, admitted := 1, credits := 4 }

def ringCtx (st : Nat) (rot : Bool) (d : ChnDir) : ChnCtx :=
  { chnAtThaw with state := st, ring := some (ringRecOf ringBytes), owner := (0, 0), rotating := rot, east := d, west := d }

def churnState (op : Nat) (c : ChnCtx) : State :=
  let s := poke (poke (seqState 0 (churnBytes op)) 0xA000 ringBytes) 0x8000 (churnBytes op)
  { withGraph s churnGraph with chn := s.chn.set 0 c }

theorem churnAt_of (s : State) (op : Nat) (t : State) (v : Bytes) (h : ctrlRead s (wdAddr churnBound 64) 64 = (t, .ok v))
    (hb : bound s .churn 0 = some churnBound) (hm : mayStart s churnBound = true)
    (hd : (churnDescOf v).resOk = true ∧ (churnDescOf v).op = op ∧ 1 ≤ op ∧ op ≤ 3) :
    ChurnAt s 0 op churnBound (churnDescOf v) (modStation t 0 0 fun x => { x with sub := 1 }) :=
  ⟨by decide, hb, by decide, .inl hm, hd.2.2, v, t, h, rfl, hd.1, hd.2.1, rfl⟩

set_option maxRecDepth 20000 in
theorem witness_ChurnDescriptorsComplete_open :
    let s := churnState 1 chnAtThaw
    ∃ r d, ChurnAt s 0 1 churnBound d r ∧ openingOn r churnBound d.ctx = none ∧ ∃ t v, ctrlRead r d.rec_ 64 = (t, .ok v) ∧
      ringRecOk (ringRecOf v) = true ∧ ((ringDies (ringRecOf v)).any fun x => (chnAt r (4 * x + d.ctx)).state != 0) = false ∧
      recRingsOk r (ringRecOf v) = true := by
  refine ⟨_, _, churnAt_of _ _ _ _ rfl (by decide +kernel) (by decide +kernel) (by decide +kernel), by decide +kernel, _, _, rfl,
    by decide +kernel, by decide +kernel, by decide +kernel⟩

set_option maxRecDepth 20000 in
theorem witness_ChurnDescriptorsComplete_rotate :
    let s := churnState 2 (ringCtx 2 true doneDir)
    let x := ringRecOf ringBytes
    ∃ r d, ChurnAt s 0 2 churnBound d r ∧ (chnAt r (4 * 0 + d.ctx)).ring = some x ∧ (chnAt r (4 * 0 + d.ctx)).state = 2 ∧
      (chnAt r (4 * 0 + d.ctx)).rotating = true ∧ ∃ t q, readSeq r d.seqid = (t, .ok q) ∧ d.layer < q.nlayer ∧
        slotFits x q (ringDirs x 0) = true ∧
        portsBound churnBound (churnPorts (ringDirs x 0)).1 (churnPorts (ringDirs x 0)).2 = true ∧
        (let u := (ringDirs x 0).foldl (fun t w => if stillGoing t churnBound then passDir churnBound (4 * 0 + d.ctx) x q t w else t) t
         (chnAt u (4 * 0 + d.ctx)).rotating = true ∧ stillGoing u churnBound = true ∧
           (ringDirs x 0).all (dirDone (chnAt u (4 * 0 + d.ctx)) x) = true) := by
  refine ⟨_, _, churnAt_of _ _ _ _ rfl (by decide +kernel) (by decide +kernel) (by decide +kernel), by decide +kernel,
    by decide +kernel, by decide +kernel, _, _, rfl, by decide +kernel, by decide +kernel, by decide +kernel, by decide +kernel,
    by decide +kernel, by decide +kernel⟩

set_option maxRecDepth 20000 in
theorem witness_ChurnDescriptorsComplete_close :
    let s := churnState 3 (ringCtx 2 false doneDir)
    ∃ r d, ChurnAt s 0 3 churnBound d r ∧ (chnAt r (4 * 0 + d.ctx)).ring = some (ringRecOf ringBytes) ∧
      (chnAt r (4 * 0 + d.ctx)).state ≠ 0 ∧
      ((ringDies (ringRecOf ringBytes)).any fun y => (chnAt r (4 * y + d.ctx)).rotating) = false := by
  refine ⟨_, _, churnAt_of _ _ _ _ rfl (by decide +kernel) (by decide +kernel) (by decide +kernel), by decide +kernel,
    by decide +kernel, by decide +kernel⟩

/-- Die 1's context 3, its ROTATE waiting for the neighbour's block. -/
def waitDir : ChnDir := { chnDirAtThaw with admitted := 1, credits := 4 }

def arriving : State :=
  let r := { ringRecOf ringBytes with eDie := 1, wDie := 1 }
  { act with chn := act.chn.set 7 { ringCtx 2 true waitDir with ring := some r }, now := 5000 }

/-- A tile of 32 bytes of layer 0, hop 1, from member 1. -/
def ringTile : Bytes := recd 32 [(0, leBytes 4 0xAB), (4, leBytes 2 1), (6, leBytes 2 1)]

theorem witness_ChurnArrivalsComplete_tile :
    let r := { ringRecOf ringBytes with eDie := 1, wDie := 1 }
    let c := chnAt arriving 7
    tileCtx arriving 1 false (BitVec.ofNat 32 (leAt ringTile 0 4)) = some (7, r) ∧ 0 < leAt ringTile 6 2 ∧ leAt ringTile 6 2 < r.n ∧
      leAt ringTile 4 2 = originOf r false (leAt ringTile 6 2) ∧ c.rotating = true ∧ (chnDir c false).endsIn + 1 < r.n ∧
      leAt ringTile 8 2 = c.layer ∧ ringTile.length ≤ r.slotBytes ∧ leAt ringTile 6 2 ≤ (chnDir c false).admitted ∧
      (freeSlot r false (chnDir c false)).isSome = true := by decide +kernel

theorem witness_ChurnArrivalsComplete_timeout :
    let r := { ringRecOf ringBytes with eDie := 1, wDie := 1 }
    let c := chnAt arriving 7
    c.ring = some r ∧ c.state = 2 ∧ c.rotating = true ∧ (ringDirs r 1).contains true = true ∧ (chnDir c true).endsIn + 1 < r.n ∧
      (chnDir c true).endsIn < (chnDir c true).admitted ∧ (chnDir c true).lastRx + 1000 * r.timeoutUs ≤ arriving.now := by
  decide +kernel

theorem witness_ChurnArrivalsComplete_handshake :
    (chnAt (modDir act 7 true fun d => { d with shake := some (⟨0xAB#32, 2, 1⟩, act.now) }) 7).ring = none := by decide +kernel

/-! ### Witnesses: the vector search engine -/

def scanBytes (op : Nat) : Bytes := recd 64 [(0, leBytes 1 op), (2, [3#8]), (4, leBytes 2 1), (6, leBytes 2 1), (16, leBytes 6 0xA000)]

/-- An index record: GRAPH, 16-byte codes, degree 4, pool 0, 64 slots. -/
def indexBytes : Bytes := recd 32 [(0, [1#8, 1#8, 4#8]), (8, leBytes 4 64), (14, leBytes 2 8)]

def scanGraph : Graph :=
  onePool (grf .running [stn .scan 63 0x8000 1] [{ que 0 7 1 [] with qid := 40 },
    feed 41 7 0 { hnd 0#16 with bytes := 288 }])

def scanBound : Bound := ⟨0, 0, scanGraph, stn .scan 63 0x8000 1⟩

/-- Index 3, its current generation `cur`. -/
def index3 (cur : Nat) : Index := { indexOf 3 indexBytes with cur := cur }

/-- A query tile of one record, its snapshot the current one. -/
def queryTile : Bytes := recd 288 [(0, leBytes 4 0xFFFFFFFF), (4, leBytes 2 1)]

def scanState (op : Nat) (xs : List Index) : State :=
  let s := poke (poke (poke (withGraph act scanGraph) 0x8000 (scanBytes op)) 0xA000 indexBytes) 0x100000 queryTile
  { s with
    fls := { s.fls with state := .ready, pools := s.fls.pools.set 0 ⟨true, true, 256, 64⟩ }
    vse := { s.vse with indexes := xs } }

theorem scanAt_of (s : State) (op : Nat) (ports : Bool) (r : State) (v : Bytes)
    (h : ctrlRead s (wdAddr scanBound 64) 64 = (r, .ok v)) (hb : bound s .scan 63 = some scanBound)
    (hm : mayStart s scanBound = true ∧ wheyReady s = true ∧ scanHeld s scanBound = false ∧ findJob s scanBound = none ∧
      portsBound scanBound [0] [0] = true ∧ (scanDescOf v).op = op ∧ scanDescOk r (scanDescOf v) = true) :
    ScanAt s 63 op ports scanBound (scanDescOf v) r :=
  ⟨by decide, hb, hm.1, hm.2.1, hm.2.2.1, hm.2.2.2.1, fun _ => hm.2.2.2.2.1, v, h, rfl, hm.2.2.2.2.2.1, hm.2.2.2.2.2.2⟩

set_option maxRecDepth 20000 in
theorem witness_IndexDescriptorsComplete_create :
    ∃ r d, ScanAt (scanState 5 []) 63 5 false scanBound d r ∧ ∃ t v, memRead r d.recAddr 32 = (t, .ok v) ∧
      indexRecOk t (indexOf d.index v) v = true := by
  refine ⟨_, _, scanAt_of _ _ _ _ _ rfl (by decide +kernel) (by decide +kernel), _, _, rfl, by decide +kernel⟩

set_option maxRecDepth 20000 in
theorem witness_IndexDescriptorsComplete_destroy :
    ∃ r d, ScanAt (scanState 6 [index3 0]) 63 6 false scanBound d r ∧ findIndex r d.index = some (index3 0) ∧
      (index3 0).batch = none ∧ (index3 0).harvest = none ∧ (r.vse.jobs.any fun j => j.index == d.index) = false := by
  refine ⟨_, _, scanAt_of _ _ _ _ _ rfl (by decide +kernel) (by decide +kernel), by decide +kernel, rfl, rfl, by decide +kernel⟩

set_option maxRecDepth 20000 in
theorem witness_IndexDescriptorsComplete_harvest :
    ∃ r d, ScanAt (scanState 4 [index3 0]) 63 4 false scanBound d r ∧ findIndex r d.index = some (index3 0) := by
  refine ⟨_, _, scanAt_of _ _ _ _ _ rfl (by decide +kernel) (by decide +kernel), by decide +kernel⟩

set_option maxRecDepth 20000 in
/-- The last generation before the number wraps. -/
theorem witness_IndexDescriptorsComplete_batch :
    let x := { index3 0xFFFFFF with oldest := 0xFFFFF0 }
    ∃ r d, ScanAt (scanState 2 [x]) 63 2 true scanBound d r ∧ findIndex r d.index = some x ∧ x.batch = none ∧ x.harvest = none ∧
      (x.cur + 1 + 2 ^ 24 - x.oldest) % 2 ^ 24 < 2 ^ 23 ∧ ∃ t h, popHandle r 0 0 0 = some (t, h) ∧ isEmptyHandle h = false ∧
        isPoison h.status = false ∧ ∃ u v, memRead t h.addr h.bytes = (u, .ok v) := by
  refine ⟨_, _, scanAt_of _ _ _ _ _ rfl (by decide +kernel) (by decide +kernel), by decide +kernel, rfl, rfl, by decide +kernel,
    _, _, rfl, by decide +kernel, by decide +kernel, _, _, rfl⟩

set_option maxRecDepth 20000 in
theorem witness_SearchCommandsComplete_query :
    ∃ r d, ScanAt (scanState 1 [index3 0]) 63 1 true scanBound d r ∧ findIndex r d.index = some (index3 0) ∧
      ∃ t h, popHandle r 0 0 0 = some (t, h) ∧ isEmptyHandle h = false ∧ isPoison h.status = false ∧
        ∃ u v, memRead t h.addr h.bytes = (u, .ok v) ∧ 0 < leAt v 4 2 ∧ leAt v 4 2 ≤ 256 ∧
          32 + leAt v 4 2 * (160 + 16 * (index3 0).code) ≤ h.bytes ∧ allZero (sub v 6 26) = true ∧ leAt v 0 4 = 0xFFFFFFFF ∧
          ∃ w snap, resolveSnap u (index3 0) h.addr (leAt v 0 4) = (w, .ok snap) ∧ genLe snap (index3 0).cur = true ∧
            snap < 2 ^ 24 ∧ genLe (index3 0).oldest snap = true := by
  refine ⟨_, _, scanAt_of _ _ _ _ _ rfl (by decide +kernel) (by decide +kernel), by decide +kernel, _, _, rfl, by decide +kernel,
    by decide +kernel, _, _, rfl, by decide +kernel, by decide +kernel, by decide +kernel, by decide +kernel, by decide +kernel,
    _, _, rfl, by decide +kernel, by decide +kernel, by decide +kernel⟩

/-- A query that has one codeword still to read. -/
def query1 : Query := { recordOf (index3 0) (recd 176 []) with waiting := [0], beam := [(0, 0)] }

def job1 : ScanJob := ⟨0, 0, 63, 3, 1, 1, 1#16, false, hnd 0#16, 0, [query1]⟩

theorem witness_SearchCommandsComplete_codeword :
    let x := index3 0
    let s := { scanState 1 [x] with vse := { (scanState 1 [x]).vse with jobs := [job1] } }
    bound s .scan 63 = some scanBound ∧ mayFinish s scanBound = true ∧ wheyReady s = true ∧ findJob s scanBound = some job1 ∧
      job1.queries[0]? = some query1 ∧ findIndex s job1.index = some x ∧ query1.done = false ∧
      (readStep x (shardOf x 63) job1 query1 false).q.done = true := by decide +kernel

theorem witness_SearchCommandsComplete_codeword_more :
    let x := { index3 0 with graph := false, degree := 0, efc := 0 }
    (readStep x (shardOf x 63) job1 { query1 with waiting := [0, 1] } false).q.done = false := by decide +kernel

def harvest1 : HarvestJob := ⟨63, some 0, false, 0⟩
def batch1 : Batch := ⟨true, 1, 63, some 0, 1#16, false, hnd 0#16, false, []⟩

theorem witness_SearchCommandsComplete_durable :
    let x := { index3 0 with batch := some batch1 }
    findIndex (scanState 1 [x]) 3 = some x ∧ x.batch = some batch1 ∧ wheyReady (scanState 1 [x]) = true := by decide +kernel

theorem witness_SearchCommandsComplete_harvest :
    let x := { index3 0 with harvest := some harvest1 }
    let s := scanState 1 [x]
    findIndex s 3 = some x ∧ x.harvest = some harvest1 ∧ x.batch = none ∧ wheyReady s = true ∧ harvest1.slot = some 0 ∧
      bound (modIndex s 3 fun y => { y with
        oldest := 0
        harvest := none
        shards := y.shards.map fun sh => if y.graph then harvestShard 0 sh else trimChains y (harvestShard 0 sh) }) .scan 63
        = some scanBound ∧ scanBound.slot = 0 := by decide +kernel

/-- A SKIM descriptor: the 4 best of each query, of one list tile that holds no query. -/
def skimBytes : Bytes := recd 16 [(0, [1#8]), (2, leBytes 2 4)]

def skimGraph : Graph := onePool (grf .running [stn .skim 1 0x8000 1] [{ que 0 7 1 [] with qid := 40 }, feed 41 7 0 (hnd 0#16)])

def skimBound : Bound := ⟨0, 0, skimGraph, stn .skim 1 0x8000 1⟩

set_option maxRecDepth 20000 in
theorem witness_SearchCommandsComplete_merge :
    let s := poke (withGraph act skimGraph) 0x8000 skimBytes
    bound s .skim 1 = some skimBound ∧ mayStart s skimBound = true ∧ ∃ r v, ctrlRead s (wdAddr skimBound 16) 16 = (r, .ok v) ∧
      (skimDescOf v).ok = true ∧ portsBound skimBound [0] [0] = true ∧ ∃ t hs, popRound r 0 0 0 = .got t hs ∧
        hs.filter (fun h => !isEmptyHandle h) ≠ [] ∧ (hs.any fun h => isPoison h.status) = false ∧
        ∃ u ts, readTiles t (hs.filter fun h => !isEmptyHandle h) = (u, .ok ts) ∧
          ts.head?.map (fun x => (x.nq, x.snap)) = some (0, 0) ∧ (ts.all fun x => x.nq == 0 && x.snap == 0) = true := by
  refine ⟨by decide +kernel, by decide +kernel, _, _, rfl, by decide +kernel, by decide +kernel, _, _, rfl, by decide +kernel,
    by decide +kernel, _, _, rfl, by decide +kernel, by decide +kernel⟩

/-! ### Witnesses: registers, links, routing, the time counter -/

/-- MEM_LEND_GRANT 0's first 64 bits, its upper half held. -/
theorem witness_RegisterWritesComplete :
    let s := { act with hif := { act.hif with heldHi := [(.host, 0x01800400, 5#32)] } }
    requesterOk (.core 15) = true ∧ requesterOk .host = true ∧ hostUp s.pwr.state = true ∧ wideAt s (0x01800500 / 8 * 8) ≠ none ∧
      wideAt s (0x03FFFFFC / 8 * 8) = none ∧ (wideAt s 0x01800400).isSome = true ∧
      (wideAt s 0x01800400).map (fun x => x.holds) = some true ∧ heldHi s .host 0x01800400 = some 5#32 ∧
      ¬ (16 = 32 ∧ 0x01800400 % 4 = 0) := by
  refine ⟨by decide, rfl, rfl, by rintro ⟨⟩, by decide +kernel, rfl, rfl, by decide, by decide⟩

theorem witness_RegisterWritesComplete_lock :
    (1#32).getLsbD 0 = true ∧ act.hif.lock = false ∧ setupConflict act = false ∧ ringBusy act 32 0 = false ∧
      (let c : FnCfg := { en := true, perm := 0#8, vecN := 1, vecBase := 0, ringN := 1, ringBase := 0 }
       setupConflict { act with hif := { act.hif with fnCfg := [c, c] } } = true) := by decide +kernel

/-- Link 60 in a phase. -/
def linked (p : Phase) (f : Link → Link) : State := modLink act 60 fun y => f { y with phase := p }

def anyPeer : PeerInfo := ⟨0#64, 0, 0, 8⟩

theorem witness_LinkCommandsComplete_train :
    hostUp act.pwr.state = true ∧ act.hif.lock = false ∧ (1#32).getLsbD 0 = true ∧ act.fab.laid = false ∧ fabUp act = true ∧
      (linkAt (linked .handshake id) 60).phase = .handshake ∧ anyPeer.width = (linkAt act 60).width ∧
      ({ anyPeer with width := 4 } : PeerInfo).width ≠ (linkAt act 60).width := by decide +kernel

theorem witness_LinkCommandsComplete_timeout :
    let s := { linked .equalise (fun y => { y with presetUsed := true, full := false, phaseAt := 0 }) with now := 200000000 }
    let x := linkAt s 60
    (phaseLimit 60 x).any (fun t => decide (x.phaseAt + t ≤ s.now)) = true ∧ x.phase = .equalise ∧ x.presetUsed = true ∧
      x.full = false := by decide +kernel

theorem witness_LinkCommandsComplete_restart :
    let s := { linked .down (fun y => { y with disable := false, phaseAt := 0 }) with now := 10000000 }
    (linkAt s 60).phase = .down ∧ (linkAt s 60).disable = false ∧ (linkAt s 60).phaseAt + 10000000 ≤ s.now := by decide +kernel

/-- Frame 1: 2044 bytes of which only FSEQ is not zero, and their CRC-32C, as 32 cells of the code of R287. -/
def frameCells : List (BitVec 544) :=
  [BitVec.ofNat 544 (1 + 1 * 2 ^ 2 + 0x37b3ab90 * 2 ^ 514)] ++ List.replicate 30 1#544
    ++ [BitVec.ofNat 544 (1 + 2407896948 * 2 ^ 482 + 0x2ee9e67c * 2 ^ 514)]

set_option maxRecDepth 100000 in
theorem witness_LinkCommandsComplete_frame :
    let x := linkAt (linked .active fun y => { y with rxLast := 0 }) 60
    (frameBytes32 frameCells).any (fun r => leAt r.1 2044 4 == crc32c (r.1.take 2044) && leAt r.1 0 2 / 4096 == 0
      && leAt r.1 0 2 % 4096 == (x.rxLast + 1) % 4096) = true ∧ x.phase = .active := by decide +kernel

theorem witness_LinkCommandsComplete_badFrame : frameBytes32 [] = none := by decide

theorem witness_LinkCommandsComplete_replay :
    let s := { linked .active (fun y => { y with unacked := [⟨1, [], 0⟩], ackAt := 0, replays := 15 }) with now := 12000 }
    let x := linkAt s 60
    x.unacked ≠ [] ∧ x.ackAt + (s.fab.retryNs.getD (60 / 4) 0#32).toNat ≤ s.now ∧ x.replays < 16 := by decide +kernel

/-- A packet of 32 bytes for module 9. -/
def packet1 (dst hops : Nat) : Packet :=
  { kind := 0x01, vc := 2, dl := false, dst := dst, src := 1, hops := hops, len := 32, tag32 := 0#32, kw := [],
    payload := List.replicate 32 0#8, reservedClear := true }

/-- Die 1 holds the packet; module 5's entry for 9 is valid and names port 15 alone, of which one link is up. -/
def routing (p : Packet) : State :=
  let s := linked .active id
  { s with fab := { s.fab with
      assigned := true
      addr := 5
      rxq := [[], [(p, none)]]
      local_ := s.fab.local_.set 9 0x80008000#32 } }

theorem witness_RoutingCompletes_forward :
    let p := packet1 9 2
    let s := routing p
    fabUp s = true ∧ s.fab.rxq.getD 1 [] = [(p, none)] ∧ packetBad p = false ∧ p.kind ≠ 0x30 ∧ p.kind ≠ 0x31 ∧
      (let t := returnCredits { s with fab := { s.fab with rxq := s.fab.rxq.set 1 [] } } p none
       t.fab.assigned = true ∧ p.dst ≠ t.fab.addr ∧ 1 < p.hops ∧ (outLink t (routeOf t p.dst).1 p).isSome = true ∧
         outLink t (routeOf t 10).1 (packet1 10 2) = none) := by decide +kernel

theorem witness_RoutingCompletes_other :
    packetBad { packet1 9 2 with vc := 1 } = true ∧ (packet1 5 2).dst = (routing (packet1 5 2)).fab.addr ∧ (packet1 9 1).hops ≤ 1 := by
  decide +kernel

theorem witness_RoutingCompletes_stall :
    let s := { linked .active (fun y => { y with txq := [(packet1 9 2, 0)] }) with now := 1000000 }
    ((linkAt s 60).txq.any fun p => vcIndex p.1 == 2 * (2 % 4) + flag false && decide (p.2 + 1000 * s.fab.stallUs.toNat ≤ s.now) &&
        decide ((linkAt s 60).credits.getD (2 * (2 % 4) + flag false) 0 < packetCredits p.1)) = true ∧
      (linkAt s 60).stalled.contains (2 * (2 % 4) + flag false) = false := by decide +kernel

theorem witness_RoutingCompletes_table :
    let s := { act with hif := { act.hif with selects := [(.host, rtSelOff, 511)] } }
    bit (selectOf s .host rtSelOff) 8 = true ∧ bit (selectOf act .host rtSelOff) 8 = false ∧ act.groups = [] ∧
      (withGroup act (grp 2 1 [])).groups ≠ [] := by decide +kernel

theorem witness_EquinoxCompletes :
    let s := { modLink act 0 (fun y => { y with phase := .active }) with now := 10000000 }
    let c := { s with fab := { s.fab with eqxPort := 0, eqxLink := 0, eqxSentT1 := some 100, eqxGood := 7, eqx := .acquire } }
    c.fab.eqxRoot = false ∧ linkActive c (eqxParent c) = true ∧ fabUp c = true ∧ c.fab.eqxAt + 1000 * c.fab.eqxInterval ≤ c.now ∧
      c.fab.eqxSentT1 = some 100 ∧ act.fab.eqx = .unsync ∧ linkActive c 0 = true ∧
      (((((100 : Int) - 100) - ((200 : Int) - 200) - eqxAsym c) / 2).natAbs ≤ 32) ∧ c.fab.eqxGood = 7 ∧
      8000 < ((((100000 : Int) - 100) - ((200 : Int) - 200) - eqxAsym c) / 2).natAbs := by decide +kernel

theorem witness_EquinoxCompletes_loss :
    let s := { synced act with now := 10000000 }
    s.fab.eqx = .sync ∧ s.fab.eqxRoot = false ∧ s.fab.eqxLastGood + 10000000 ≤ s.now ∧
      ({ s with fab := { s.fab with eqxRoot := true } } : State).fab.eqxRoot = true := by decide +kernel

/-! ### Witnesses: power, telemetry, sideband, security -/

/-- In STANDBY at 54 V, the reset pin low. -/
def standbyLow : State :=
  let s := inState .standby
  { s with pwr := { s.pwr with modRstN := false, inMv := 54000 } }

theorem witness_PowerStatesComplete :
    (inState .off).pwr.state = .off ∧ act.pwr.state ≠ .off ∧ powered act.pwr.state = true ∧ standbyLow.pwr.state = .standby ∧
      standbyLow.pwr.modRstN = false ∧ thawOk standbyLow = true ∧ (inState .thaw).pwr.state = .thaw ∧
      ([7].any fun k => decide (7 < k)) = false ∧ ([63].any fun c => decide (63 < c)) = false ∧ act.pwr.idleReq = false ∧
      (inState .idle).pwr.state = .idle ∧
      (modPwr (inState .idle) fun p => { p with waking := true }).pwr.waking = true := by decide +kernel

/-- Every sensor of the dies and stacks at one temperature. -/
def sweepAt (t : Int) : Sweep := ⟨List.replicate 64 (some t), 54000, 1000, List.replicate 13 (800, 100)⟩

theorem witness_SweepAndWatchdogs :
    let s1 (w : Sweep) := inputSample (takeSweep act w) act.pwr.inMv
    trips (s1 (sweepAt 125)) (s1 (sweepAt 125)).thm.temps = true ∧ trips (s1 (sweepAt 50)) (s1 (sweepAt 50)).thm.temps = false ∧
      coresClocked act.pwr.state = true ∧
      (let c := { modCluster act 15 (fun x => { x with wdogMs := 1#32, wdogAt := 0 }) with now := 1000000 }
       (clusterAt c 15).wdogMs ≠ 0#32 ∧ (clusterAt c 15).wdogAt + 1000000 * (clusterAt c 15).wdogMs.toNat ≤ c.now ∧
         bound c .walk 15 = none) := by decide +kernel

theorem witness_SidebandCompletes :
    sbServed act = true ∧ act.pwr.romMonitor = false ∧ sbDomain 0x03801000 = some true ∧ sbDomain 0x03800000 = some false ∧
      sbWrites 0x03800000 = true ∧ sbDomain 0x03800002 = none ∧ act.sec.stage = none ∧
      thawOk { standbyLow with pwr := { standbyLow.pwr with modRstN := true } } = true ∧ standbyLow.pwr.resetAt = none := by
  decide +kernel

theorem witness_SidebandCompletes_stage :
    let s := modSec act fun x => { x with stage := some (2, true) }
    s.sec.stage = some (2, true) ∧ (List.replicate 128 0#8).length = 128 ∧ 0xFFF80 + 128 ≤ slotBytes 2 ∧
      (modSec act fun x => { x with report := [0#8] }).sec.report.length = 1 := by decide +kernel

theorem witness_SecurityCommandsComplete :
    bit (1#32).toNat 0 = true ∧ bit (2#32).toNat 0 = false ∧
      (let s := modSec act fun x => { x with treesReady := true, ownerAddr := ⟨0, 0x7000⟩, attAddr := ⟨0, 0x7000⟩, leaf := 2 ^ 15 - 1 }
       s.sec.attBusy = false ∧ s.sec.attWait = [] ∧ s.sec.treesReady = true ∧ argOk s.sec.attAddr = true ∧ s.sec.leaf < 2 ^ 35 ∧
         2 ^ 14 < s.sec.leaf % 2 ^ 15) := by decide +kernel

set_option maxRecDepth 20000 in
theorem witness_SecurityCommandsComplete_owner : ∃ v o, argRead act ⟨0, 0x7000⟩ 8008 = (v, .ok o) := ⟨_, _, rfl⟩

theorem witness_TelemetryCompletes :
    let s := modTel act fun t => { t with ovf := true, evtNext := 5#32, evtHead := 1#32, mirQueue := [(3, 4)], mirNew := 64,
                                          trcEn := true, trcPeriod := 1, trcLast := 0 }
    s.tel.ovf = true ∧ (5#32) = s.tel.evtNext ∧ act.tel.ovf = false ∧
      (act.tel.evtNext - act.tel.evtHead).toNat < ((1#32) - act.tel.evtHead).toNat ∧ s.tel.mirQueue = (3, 4) :: [] ∧
      mirrorDue s = true ∧ s.tel.trcPeriod ≠ 0 ∧ s.tel.trcLast + 1000 * s.tel.trcPeriod ≤ 1000 ∧ 21 < s.tel.latches.length := by
  decide +kernel

/-- The event whose turn it is, and with none the oldest trace record. -/
theorem witness_TelemetryCompletes_mirror :
    let s := modTel act fun t => { t with evtBase := 0x10000, trcBase := 0x20000, trcCount := 1, mirQueue := [(3, 4#32)] }
    let u := modTel s fun t => { t with mirQueue := [] }
    s.tel.mirQueue = [(3, 4#32)] ∧ (∃ r b, memRead s (s.tel.evtBase + 32 * 3) 32 = (r, .ok b)) ∧ u.tel.mirQueue = [] ∧
      u.tel.trcCount ≠ 0 ∧ ∃ r b, memRead u (u.tel.trcBase + 32 * trcOldest u.tel) 32 = (r, .ok b) :=
  ⟨rfl, ⟨_, _, rfl⟩, rfl, by decide, _, _, rfl⟩

theorem witness_FinishDividesEveryRow :
    let io : VecIO := ⟨0, [0], 1, 1, 1, .fp32, 0#16, true, false⟩
    io.inFmt = .fp32 ∧ 0 < io.m ∧ 0 < io.n ∧ enabledAt (BitVec.allOnes 128, BitVec.allOnes 64) 0 0 = true ∧
      decodeF f32 0x3F800000 = .fin false 0x800000 (-23) := by decide +kernel

theorem witness_SelectsArePerRequester :
    hostUp act.pwr.state = true ∧ requesterOk (.core 15) = true ∧
      (idxSelOff, 256) ∈ [(rtSelOff, 512), (gselOff 0, 4096), (gselOff 1, 4096), (idxSelOff, 256)] ∧ Requester.host ≠ .core 15 := by
  decide

/-! ### Witnesses: frames and invariants -/

theorem witness_RegisterCommandsTouchOneUnit : ∃ t, exec .idleReq act = .next t := ⟨_, rfl⟩

theorem witness_CompletionsStayInTheirQueues : ∃ t, exec (.tableLoad hdr ⟨0, 0x4000⟩ 1 1#16 false) act = .next t := ⟨_, rfl⟩

theorem witness_StoresStayInTheirTargets : ∃ t, exec (.amo 15 .add false 0x1000 5#64) act = .next t := ⟨_, rfl⟩

theorem witness_StepsKeepInvariant : Invariant State.reset ∧ ∃ t, step State.reset = .next t :=
  ⟨by unfold Invariant; decide +kernel, _, rfl⟩

theorem witness_FloorsNeverFall :
    (∃ t, step act = .next t) ∧ imgVersion [] < ((modSec act fun x => { x with floors := [1#32] }).sec.floors.getD 0 0#32).toNat ∧
      (inState .thaw).pwr.state = .thaw := ⟨⟨_, rfl⟩, by decide +kernel, rfl⟩

/-! ### Values the spec works out -/

/-- Chapter 3's examples: 464.0 to E4M3 ties to even, 465.0 is beyond range under SAT and under IEEE (R54-R56). -/
theorem test_convert_e4m3 :
    convFloat ctl0 e4m3 (decodeF f32 0x43E80000) = (0x7E, fNX) ∧
      convFloat ctl0 e4m3 (decodeF f32 0x43E88000) = (0x7E, fOF ||| fNX) ∧
      convFloat (ctlOf 0x08) e4m3 (decodeF f32 0x43E88000) = (0x7F, fOF ||| fNX) := by decide +kernel

/-- Table 3-5: an MXFP4 block of 11.0, 2.875, -0.3125 and 0.75 (R58). -/
theorem test_mxfp4_block :
    convMxRow ctl0 .e2m1 1 ([0x41300000, 0x40380000, 0xBEA00000, 0x3F400000].map (decodeF f32))
      = ([0x80], [6, 3, 8, 1], fNX ||| fUF) := by decide +kernel

def pairs (f : Fmt) (xs : List (Nat × Nat)) : List Pair := xs.map fun p => some (⟨decodeF f p.1, 0⟩, ⟨decodeF f p.2, 0⟩)

/-- Chapter 4's truncation example: the block result is -2^-48 (R75, R82). -/
theorem test_block_truncation :
    dotF (pcwOf 0) none (pairs bf16 ([(0x3F80, 0x3F80), (0xBF80, 0x3F80), (0x3581, 0x3481), (0xB581, 0x3481)]
      ++ List.replicate 28 (0, 0))) = (0xA7800000, fNX) := by decide +kernel

/-- Chapter 4's attention score: 0x47C3_FFE8 with NX (R75-R77). -/
theorem test_attention_score :
    dotF (pcwOf (3 * 2 ^ 40 + 3 * 2 ^ 36)) none (pairs e4m3 ([(0x7E, 0x76), (0xB9, 0x30), (0x01, 0x03), (0x20, 0x44)]
      ++ List.replicate 28 (0, 0) ++ [(0x18, 0x18)] ++ List.replicate 95 (0, 0))) = (0x47C3FFE8, fNX) := by decide +kernel

/-- Chapter 4's split of 0x3FAA_AAAB (R85). -/
theorem test_split :
    (splitVal (decodeF f32 0x3FAAAAAB)).1 = [0x3FAA, 0x3BAA, 0x37AB].map (decodeF bf16) := by decide +kernel

/-- R215's group of E4M3 elements whose exponents span 6 to 8 takes 25 bytes. -/
theorem test_lossless_group : (curdGroup 3 (List.replicate 16 0x30 ++ List.replicate 16 0x40)).length = 25 := by decide +kernel

/-- Chapter 14's frame 0x12A0 of pool 2 (R192). -/
theorem test_frame_address :
    frameAddr (modPoolK act 2 fun x => { x with base := 0x003C00000000, fsizeK := 24 }) 2 0x12A0 = 0x003C06FC0000 := by decide +kernel

/-- Table 21-17, step 3: the commit of KVC_POOL[2] starts the table's initialisation (R445). -/
theorem test_kvc_pool_commit :
    let s := modPoolK act 2 fun x => { x with held := [(1, 0x40000000#64), (2, 0x0018000000200000#64)] }
    let p := poolAt (opKvcPool 2 0 0x8000003C00000000#64 s) 2
    p.valid = true ∧ p.initBusy = true ∧ p.base = 0x003C00000000 ∧ p.fsizeK = 24 ∧ p.count = 0x200000 ∧ p.ftab = 0x40000000 := by
  decide +kernel

/-! ### Single steps -/

def after (c : Instr) (s : State) : State :=
  match step { s with pending := [c] } with
  | .next t => t
  | _ => s

/-- Table 6-5's counter at t = 0: epoch 7, 12 claimed of 46. -/
def strag : State := modWc act 5 fun w => { w with epoch := 7#8, limit := 46#32, next := 12#32 }

theorem test_claim : (coreAt (after (.claim 0x5C) strag) 0x5C).claimed = .got 7#8 12#32 := by decide +kernel

/-- t = 290,020: RESET(12, 1) gives epoch 8. -/
theorem test_reset :
    let w := wcOf (after (.cluWcReset 5 0x000000010000000C#64) strag) 5
    (w.epoch, w.base, w.limit, w.next, w.committed) = (8#8, 12#32, 1#32, 0#32, 0#32) := by decide +kernel

/-- t = 906,200: COMMIT(7, 12) in epoch 8 is refused and counted. -/
theorem test_stale_commit :
    let w := wcOf (after (.commit 0x5C 7#8 12#32) (modWc strag 5 fun w => { w with epoch := 8#8, committed := 1#32 })) 5
    (w.stale, w.committed) = (1#32, 1#32) := by decide +kernel

/-- A 32-bit ADD wraps, answers the old value sign-extended, and leaves the next byte alone (R317, log 121). -/
theorem test_amo_add_wraps :
    let t := after (.amo 0 .add false 0x1000 2#64) (poke act 0x1000 [0xFF#8, 0xFF#8, 0xFF#8, 0xFF#8, 0x77#8])
    peek t 0x1000 5 = [1#8, 0#8, 0#8, 0#8, 0x77#8] ∧ (clusterAt t 0).amo = .old 0xFFFFFFFFFFFFFFFF#64 := by decide +kernel

/-- A compare that fails writes nothing (R317). -/
theorem test_compare_fails :
    peek (after (.compareAndSwap 63 0x1000 1#32 9#32) (poke act 0x1000 [2#8])) 0x1000 4 = [2#8, 0#8, 0#8, 0#8] := by decide +kernel

/-- An empty queue lets one period of the reference pass. -/
theorem test_idle_tick : ((match step act with | .next t => t.now | _ => 0) = act.now + 40) := by decide

/-- A 32-bit write that is not aligned only counts (R438). -/
theorem test_misaligned_write :
    (after (.registerWrite .host 2 32 1#64) act).hif.winErr = 1#32 ∧ (after (.registerWrite .host 2 32 1#64) act).hif.lock = false := by
  decide +kernel

/-- A refused command changes nothing: there is no cluster 16. -/
theorem test_no_such_unit : step { act with pending := [.cluWdogKick 16] } = .refused (.noSuchUnit "cluster") := rfl

theorem witness_CommandsLeaveTheQueue : ∃ t, exec .idleReq { act with pending := [.idleReq] } = .next t := ⟨_, rfl⟩

end Sys2Proof.Tests
end

