-- ==== Sys2Proof/Proofs/Finish.lean ====
section
/-! SUPPORT. FINISH of a state tile (R113): what its body answers, what a tile of results holds at an element, and when a
finished element is a division. -/

namespace Sys2Proof.Machine

/-! ### A tile of results -/

/-- An element of the tile is its result where the predicate entry enables it, and none where it does not (R130, R131). -/
theorem overTile_getD {en : BitVec 128 × BitVec 64} {m n i j : Nat} (f : Nat → Nat → Nat × Fl3) (hi : i < m) (hj : j < n) :
    ((overTile en m n f).1.getD i []).getD j none = if enabledAt en i j then some (f i j).1 else none := by
  have helt : ((overTile en m n f).1.getD i []).getD j none
      = (if enabledAt en i j then some (f i j) else none).map Prod.fst := by
    simp [overTile, List.getD_eq_getElem?_getD, hi, hj]
  rw [helt]
  split <;> rfl

/-! ### A finished element -/

theorem finishElem_of_zero {o l : Nat} (h : l % 2 ^ 31 = 0) : finishElem o l = (0, 0) := if_pos h

theorem finishElem_of_ne_zero {o l : Nat} (h : l % 2 ^ 31 ≠ 0) : finishElem o l = fpDiv ctl0 f32 o l := if_neg h

theorem finishElem_fst (o l : Nat) : (finishElem o l).1 = if l % 2 ^ 31 = 0 then 0 else (fpDiv ctl0 f32 o l).1 := by
  unfold finishElem
  split <;> rfl

/-- A code whose bits below the sign are all clear is ±0 (R44). -/
theorem decodeF_f32_of_zero {l : Nat} (h : l % 2 ^ 31 = 0) : decodeF f32 l = .fin (bit l 31) 0 (qmin f32) := by
  have hexp : bits l 23 8 = 0 := by unfold bits; omega
  have hfrac : bits l 0 23 = 0 := by unfold bits; omega
  simp [decodeF, f32, hexp, hfrac]

/-- A divisor that decodes to a number with a significand is no zero. -/
theorem f32_ne_zero_of_decodeF {l : Nat} {neg : Bool} {m : Nat} {e : Int} (hdec : decodeF f32 l = .fin neg m e) (hm : m ≠ 0) :
    l % 2 ^ 31 ≠ 0 := by
  intro hl
  rw [decodeF_f32_of_zero hl] at hdec
  cases hdec
  exact hm rfl

/-! ### The operation's body -/

/-- Element (i, j) of a finished state tile of rows of `n` values, with its flags: the row's o by the row's l (R113, R172). -/
def finishAt (d : Bytes) (n i j : Nat) : Nat × Nat :=
  finishElem (leAt d (i * rowBytes n + 8 + 4 * j) 4) (leAt d (i * rowBytes n + 4) 4)

/-- FINISH answers the finished elements and their flags, the state as it was. -/
theorem finishPlan_body (io : VecIO) (acb : Byte) (t : State) (en : BitVec 128 × BitVec 64) (d : Bytes) (h : io.inFmt = .fp32) :
    (arithmeticPlan io .finish acb).body t en [d]
      = let x := overTile en io.m io.n fun i j => ((finishAt d io.n i j).1, flVec (finishAt d io.n i j).2)
        .ok t [packRows .fp32 (plainRows x.1)] x.2 := by
  rw [← h]
  rfl

/-- Settles O51: the body is `finishElem` over the enabled elements, and `finishElem` is a division exactly where l is no zero. -/
theorem finishDividesEveryRow : Obligations.FinishDividesEveryRow := by
  intro io acb t en d i j hfmt o l
  refine ⟨⟨_, _, finishPlan_body io acb t en d hfmt, fun hi hj hen => ?_⟩, fun hl => ?_, ?_⟩
  · rw [overTile_getD _ hi hj, if_pos hen]
    exact congrArg some (finishElem_fst o l)
  · exact finishElem_of_zero (by omega)
  · intro _ _ _ _ _ _ _ hl hml
    exact finishElem_of_ne_zero (f32_ne_zero_of_decodeF hl hml)

end Sys2Proof.Machine
end

