-- ==== Sys2Proof/Proofs/Floors.lean ====
section
/-! SUPPORT. The rollback floors (R425). Every command but THAW_SEQUENCE leaves `sec.floors` as it was: for each function of the
model that answers a state there is one frame lemma, named after it. `_sec` says that the whole of `sec` is as it was; where the
security unit itself works, `_floors` says it of the floors alone. The lemmas follow the order of the model's files, each rests on
those of the functions it calls, and all are rewriting rules, so that a command's lemma is the sum of its callees'. What a Thaw
does to the floors stands at the end. -/

namespace Sys2Proof.Machine

/-! ### Folds and branches -/

/-- What every step of a fold leaves alone, the fold leaves alone. -/
theorem foldl_keeps {σ α γ : Type} (g : σ → γ) {f : σ → α → σ} (h : ∀ x a, g (f x a) = g x) (l : List α) (x : σ) :
    g (l.foldl f x) = g x := by
  induction l generalizing x with
  | nil => rfl
  | cons a l ih => rw [List.foldl_cons, ih, h]

@[simp] theorem foldl_sec {α : Type} (l : List α) (f : State → α → State) (s : State) (h : ∀ t a, (f t a).sec = t.sec) :
    (l.foldl f s).sec = s.sec := foldl_keeps State.sec h l s
@[simp] theorem foldl_fst_sec {α β : Type} (l : List α) (f : State × β → α → State × β) (p : State × β)
    (h : ∀ p a, (f p a).1.sec = p.1.sec) : (l.foldl f p).1.sec = p.1.sec := foldl_keeps (·.1.sec) h l p
@[simp] theorem ite_sec {c : Prop} [Decidable c] (a b : State) : (if c then a else b).sec = if c then a.sec else b.sec :=
  apply_ite _ _ _ _
@[simp] theorem ite_fst_sec {c : Prop} [Decidable c] {α : Type} (a b : State × α) :
    (if c then a else b).1.sec = if c then a.1.sec else b.1.sec := apply_ite (fun p : State × α => p.1.sec) _ _ _

/-! ### The state inside a result

Functions of the model answer a state inside a result type. `st` is that state, where every constructor holds one; `secOr x` is
its `sec`, and `x` where there is none. -/

def Walked.st : Walked → State
  | .wait s | .done s _ | .halt s _ | .skip s _ => s

@[simp] theorem Walked.st_wait (s : State) : (Walked.wait s).st = s := rfl
@[simp] theorem Walked.st_done (s : State) (st : Status) : (Walked.done s st).st = s := rfl
@[simp] theorem Walked.st_halt (s : State) (st : Status) : (Walked.halt s st).st = s := rfl
@[simp] theorem Walked.st_skip (s : State) (st : Status) : (Walked.skip s st).st = s := rfl

def Paged.st : Paged → State
  | .ok s _ | .wait s _ | .err s _ => s

@[simp] theorem Paged.st_ok (s : State) (bad : Bool) : (Paged.ok s bad).st = s := rfl
@[simp] theorem Paged.st_wait (s : State) (bad : Bool) : (Paged.wait s bad).st = s := rfl
@[simp] theorem Paged.st_err (s : State) (st : Status) : (Paged.err s st).st = s := rfl

def Flushed.st : Flushed → State
  | .all s | .stall s | .bad s => s

@[simp] theorem Flushed.st_all (s : State) : (Flushed.all s).st = s := rfl
@[simp] theorem Flushed.st_stall (s : State) : (Flushed.stall s).st = s := rfl
@[simp] theorem Flushed.st_bad (s : State) : (Flushed.bad s).st = s := rfl

def Ended.st : Ended → State
  | .all s | .wait s | .err s _ => s

@[simp] theorem Ended.st_all (s : State) : (Ended.all s).st = s := rfl
@[simp] theorem Ended.st_wait (s : State) : (Ended.wait s).st = s := rfl
@[simp] theorem Ended.st_err (s : State) (st : Status) : (Ended.err s st).st = s := rfl

def CommitGate.st : CommitGate → State
  | .go s | .stop s => s

@[simp] theorem CommitGate.st_go (s : State) : (CommitGate.go s).st = s := rfl
@[simp] theorem CommitGate.st_stop (s : State) : (CommitGate.stop s).st = s := rfl

def Dest.st : Dest → State
  | .none s | .ok s _ => s

@[simp] theorem Dest.st_none (s : State) : (Dest.none s).st = s := rfl
@[simp] theorem Dest.st_ok (s : State) (dst : Nat) : (Dest.ok s dst).st = s := rfl

def Took.secOr (x : Sec) : Took → Sec
  | .wait => x
  | .err s _ | .ok s _ => s.sec

@[simp] theorem Took.secOr_wait (x : Sec) : Took.wait.secOr x = x := rfl
@[simp] theorem Took.secOr_err (x : Sec) (s : State) (st : Status) : (Took.err s st).secOr x = s.sec := rfl
@[simp] theorem Took.secOr_ok (x : Sec) (s : State) (f : Nat) : (Took.ok s f).secOr x = s.sec := rfl

def OutStep.secOr (x : Sec) : OutStep → Sec
  | .none => x
  | .did s | .fail s _ => s.sec

@[simp] theorem OutStep.secOr_none (x : Sec) : OutStep.none.secOr x = x := rfl
@[simp] theorem OutStep.secOr_did (x : Sec) (s : State) : (OutStep.did s).secOr x = s.sec := rfl
@[simp] theorem OutStep.secOr_fail (x : Sec) (s : State) (st : Status) : (OutStep.fail s st).secOr x = s.sec := rfl

def RoundPop.secOr (x : Sec) : RoundPop → Sec
  | .bad | .wait => x
  | .got s _ => s.sec

@[simp] theorem RoundPop.secOr_bad (x : Sec) : RoundPop.bad.secOr x = x := rfl
@[simp] theorem RoundPop.secOr_wait (x : Sec) : RoundPop.wait.secOr x = x := rfl
@[simp] theorem RoundPop.secOr_got (x : Sec) (s : State) (hs : List Handle) : (RoundPop.got s hs).secOr x = s.sec := rfl

def PopStep.secOr (x : Sec) : PopStep → Sec
  | .none | .wait _ => x
  | .halt s _ _ | .got s _ => s.sec

@[simp] theorem PopStep.secOr_none (x : Sec) : PopStep.none.secOr x = x := rfl
@[simp] theorem PopStep.secOr_wait (x : Sec) (ports : List Nat) : (PopStep.wait ports).secOr x = x := rfl
@[simp] theorem PopStep.secOr_halt (x : Sec) (s : State) (p : MmaPart) (st : Status) :
    (PopStep.halt s p st).secOr x = s.sec := rfl
@[simp] theorem PopStep.secOr_got (x : Sec) (s : State) (p : MmaPart) : (PopStep.got s p).secOr x = s.sec := rfl

def QidPush.secOr (x : Sec) : QidPush → Sec
  | .absent | .full => x
  | .done s => s.sec

@[simp] theorem QidPush.secOr_absent (x : Sec) : QidPush.absent.secOr x = x := rfl
@[simp] theorem QidPush.secOr_full (x : Sec) : QidPush.full.secOr x = x := rfl
@[simp] theorem QidPush.secOr_done (x : Sec) (s : State) : (QidPush.done s).secOr x = s.sec := rfl

def JobPush.secOr (x : Sec) : JobPush → Sec
  | .stall | .bad => x
  | .ok s => s.sec

@[simp] theorem JobPush.secOr_stall (x : Sec) : JobPush.stall.secOr x = x := rfl
@[simp] theorem JobPush.secOr_bad (x : Sec) : JobPush.bad.secOr x = x := rfl
@[simp] theorem JobPush.secOr_ok (x : Sec) (s : State) : (JobPush.ok s).secOr x = s.sec := rfl

def DrawnAll.secOr (x : Sec) : DrawnAll → Sec
  | .stall | .bad => x
  | .ok s _ => s.sec

@[simp] theorem DrawnAll.secOr_stall (x : Sec) : DrawnAll.stall.secOr x = x := rfl
@[simp] theorem DrawnAll.secOr_bad (x : Sec) : DrawnAll.bad.secOr x = x := rfl
@[simp] theorem DrawnAll.secOr_ok (x : Sec) (s : State) (at_ : List (Nat × Nat)) : (DrawnAll.ok s at_).secOr x = s.sec := rfl

def Drawn.secOr (x : Sec) : Drawn → Sec
  | .stall | .bad => x
  | .ok s _ _ => s.sec

@[simp] theorem Drawn.secOr_stall (x : Sec) : Drawn.stall.secOr x = x := rfl
@[simp] theorem Drawn.secOr_bad (x : Sec) : Drawn.bad.secOr x = x := rfl
@[simp] theorem Drawn.secOr_ok (x : Sec) (s : State) (pool addr : Nat) : (Drawn.ok s pool addr).secOr x = s.sec := rfl

def Pushed.secOr (x : Sec) : Pushed → Sec
  | .stall => x
  | .halt s | .done s => s.sec

@[simp] theorem Pushed.secOr_stall (x : Sec) : Pushed.stall.secOr x = x := rfl
@[simp] theorem Pushed.secOr_halt (x : Sec) (s : State) : (Pushed.halt s).secOr x = s.sec := rfl
@[simp] theorem Pushed.secOr_done (x : Sec) (s : State) : (Pushed.done s).secOr x = s.sec := rfl

def CollStep.secOr (x : Sec) : CollStep → Sec
  | .wait => x
  | .did s | .fail s _ _ => s.sec

@[simp] theorem CollStep.secOr_wait (x : Sec) : CollStep.wait.secOr x = x := rfl
@[simp] theorem CollStep.secOr_did (x : Sec) (s : State) : (CollStep.did s).secOr x = s.sec := rfl
@[simp] theorem CollStep.secOr_fail (x : Sec) (s : State) (st : Status) (cause : ColCause) :
    (CollStep.fail s st cause).secOr x = s.sec := rfl

def VecRes.secOr (x : Sec) : VecRes → Sec
  | .bad => x
  | .poison s | .skip s | .ok s _ _ => s.sec

@[simp] theorem VecRes.secOr_bad (x : Sec) : VecRes.bad.secOr x = x := rfl
@[simp] theorem VecRes.secOr_poison (x : Sec) (s : State) : (VecRes.poison s).secOr x = s.sec := rfl
@[simp] theorem VecRes.secOr_skip (x : Sec) (s : State) : (VecRes.skip s).secOr x = s.sec := rfl
@[simp] theorem VecRes.secOr_ok (x : Sec) (s : State) (outs : List Bytes) (fl : Fl3) :
    (VecRes.ok s outs fl).secOr x = s.sec := rfl

def Writable.secOr (x : Sec) : Writable → Sec
  | .wait => x
  | .err s _ | .ok s _ _ => s.sec

@[simp] theorem Writable.secOr_wait (x : Sec) : Writable.wait.secOr x = x := rfl
@[simp] theorem Writable.secOr_err (x : Sec) (s : State) (st : Status) : (Writable.err s st).secOr x = s.sec := rfl
@[simp] theorem Writable.secOr_ok (x : Sec) (s : State) (p : Pte) (bad : Bool) : (Writable.ok s p bad).secOr x = s.sec := rfl

/-- `sec` of the state a command answers, and `x` where it answers none. -/
def outcomeSec (x : Sec) : Host.Outcome State Fault Refusal → Sec
  | .next t => t.sec
  | _ => x

@[simp] theorem outcomeSec_next (x : Sec) (t : State) : outcomeSec x (.next t) = t.sec := rfl
@[simp] theorem outcomeSec_fault (x : Sec) (e : Fault) : outcomeSec x (.fault e) = x := rfl
@[simp] theorem outcomeSec_refused (x : Sec) (r : Refusal) : outcomeSec x (.refused r) = x := rfl

/-- `sec` of the state that is no error, and `x` where there is an error. -/
def exceptSec {ε : Type} (x : Sec) : Except ε State → Sec
  | .ok t => t.sec
  | _ => x

@[simp] theorem exceptSec_ok {ε : Type} (x : Sec) (t : State) : exceptSec (ε := ε) x (.ok t) = t.sec := rfl
@[simp] theorem exceptSec_error {ε : Type} (x : Sec) (e : ε) : exceptSec x (.error e) = x := rfl

@[simp] theorem ite_outcomeSec {c : Prop} [Decidable c] (x : Sec) (a b : Host.Outcome State Fault Refusal) :
    outcomeSec x (if c then a else b) = if c then outcomeSec x a else outcomeSec x b := apply_ite (outcomeSec x) c a b

/-! ### The frame of events -/

theorem EventFrame.sec {s t : State} (h : EventFrame s t) : t.sec = s.sec := by rw [h.1]

theorem EventFrame.pwr {s t : State} (h : EventFrame s t) : t.pwr = s.pwr := by rw [h.1]

/-! ### Memory, alarms, events, counters and completions -/

@[simp] theorem dlCtrl_sec (s : State) (src dst n : Nat) : (dlCtrl s src dst n).sec = s.sec := by simp [dlCtrl]
@[simp] theorem dlMem_sec (s : State) (c a n : Nat) (store : Bool) : (dlMem s c a n store).sec = s.sec := by simp [dlMem]
@[simp] theorem signalVec_sec (s : State) (fn v : Nat) : (signalVec s fn v).sec = s.sec := (signalVec_frame s fn v).sec
@[simp] theorem event_sec (s : State) (e : Event) : (event s e).sec = s.sec := (event_frame s e).sec
@[simp] theorem alarm_sec (s : State) (n arg : Nat) : (alarm s n arg).sec = s.sec := (alarm_frame s n arg).sec
@[simp] theorem hostErr_sec (s : State) : (hostErr s).sec = s.sec := by simp [hostErr]
@[simp] theorem aerNote_sec (s : State) : (aerNote s).sec = s.sec := by simp [aerNote]

@[simp] theorem ctrSat_sec (off : Nat) (old new : Word) (s : State) : (ctrSat off old new s).sec = s.sec :=
  (ctrSat_frame off old new s).sec

@[simp] theorem noteUeSector_sec (s : State) (k sec : Nat) : (noteUeSector s k sec).sec = s.sec := by simp [noteUeSector]

@[simp] theorem countUe_sec (s : State) (sec : Nat) : (countUe s sec).sec = s.sec := by
  unfold countUe
  split <;> simp

@[simp] theorem countCe_sec (s : State) (sec : Nat) : (countCe s sec).sec = s.sec := by
  unfold countCe
  split <;> simp

@[simp] theorem readSector_sec (s : State) (sec : Nat) : (readSector s sec).sec = s.sec := by simp [readSector]

@[simp] theorem memRead_sec (s : State) (a n : Nat) : (memRead s a n).1.sec = s.sec := by
  simp only [memRead]
  (repeat' split) <;> simp

@[simp] theorem writeSector_sec (lo hi : Nat) (s : State) (p : Nat × Nat) : (writeSector lo hi s p).sec = s.sec := by
  simp only [writeSector]
  (repeat' split) <;> simp

@[simp] theorem memWrite_sec (s : State) (a : Nat) (b : Bytes) : ((memWrite s a b).getD s).sec = s.sec := by
  unfold memWrite
  split <;> simp

@[simp] theorem ctrlPoison_sec (s : State) (addr : Nat) : (ctrlPoison s addr).sec = s.sec := by simp [ctrlPoison]

@[simp] theorem ctrlRead_sec (s : State) (a n : Nat) : (ctrlRead s a n).1.sec = s.sec := by
  simp only [ctrlRead]
  split <;> simp

@[simp] theorem ringSignal_sec (s : State) (fn r : Nat) : (ringSignal s fn r).sec = s.sec := by
  unfold ringSignal
  split <;> simp

@[simp] theorem ringWrite_sec (s : State) (x : Ring) (c : CqEntry) : (ringWrite s x c).sec = s.sec := by simp [ringWrite]

@[simp] theorem postEntry_sec (s : State) (fn r : Nat) (c : CqEntry) : (postEntry s fn r c).sec = s.sec := by
  unfold postEntry
  split <;> simp

@[simp] theorem drainBacklog_sec (s : State) (fn r : Nat) (l : List CqEntry) : (drainBacklog s fn r l).sec = s.sec := by
  fun_induction drainBacklog s fn r l <;> simp_all

@[simp] theorem complete_sec (s : State) (h : HostHdr) (st : Status) (res : Nat) : (complete s h st res).sec = s.sec := by
  simp [complete]

@[simp] theorem startCmd_sec (s : State) (h : HostHdr) (opc : Nat) : (startCmd s h opc).1.sec = s.sec := by simp [startCmd]

@[simp] theorem reapRing_sec (s : State) (x : Ring) : (reapRing s x).sec = s.sec := by
  unfold reapRing
  (repeat' split) <;> simp

@[simp] theorem applyRing0_sec (s : State) (fn : Nat) : (applyRing0 s fn).sec = s.sec := by simp [applyRing0]
@[simp] theorem afterCmd_sec (s : State) : (afterCmd s).sec = s.sec := by simp [afterCmd]

@[simp] theorem finishCmd_sec (s : State) (c : Nat × HostHdr) (st : Status) : (finishCmd s c st).sec = s.sec := by
  simp [finishCmd]

@[simp] theorem graphEvent_sec (s : State) (slot ev : Nat) (st : Status) (station place : Nat) :
    (graphEvent s slot ev st station place).sec = s.sec := by
  unfold graphEvent
  split <;> simp

@[simp] theorem modPool_sec (s : State) (id : Nat) (f : Pool → Pool) : (modPool s id f).sec = s.sec := by simp [modPool]

@[simp] theorem takeBuffer_sec (s : State) (pool : Nat) (k : Kind) (u : Nat) :
    ((takeBuffer s pool k u).map (·.1.sec)).getD s.sec = s.sec := by
  simp only [takeBuffer]
  (repeat' split) <;> simp

@[simp] theorem startReader_sec (s : State) (b : Bound) (cluster : Nat) (seqid : Option Nat) :
    (startReader s b cluster seqid).sec = s.sec := by simp [startReader]

@[simp] theorem readerEmits_sec (s : State) (b : Bound) (a : Nat) : (readerEmits s b a).sec = s.sec := by simp [readerEmits]
@[simp] theorem endReader_sec (s : State) (b : Bound) : (endReader s b).sec = s.sec := by simp [endReader]
@[simp] theorem advance_sec (s : State) (b : Bound) : (advance s b).sec = s.sec := by simp [advance]

/-! ### Handle queues, buffers, halts and the end of a graph's work -/

@[simp] theorem haltCore_sec (s : State) (slot i : Nat) (st : Status) : (haltCore s slot i st).sec = s.sec := by
  unfold haltCore
  (repeat' split) <;> simp

@[simp] theorem pushHandle_sec (s : State) (slot i port : Nat) (h : Handle) :
    (pushHandle s slot i port h).secOr s.sec = s.sec := by
  simp only [pushHandle]
  (repeat' split) <;> simp

@[simp] theorem emit_sec (s : State) (slot i port : Nat) (h : Handle) : (emit s slot i port h).sec = s.sec := by
  unfold emit
  grind [modStation_sec, pushHandle_sec, Pushed.secOr]

@[simp] theorem freeRingSlot_sec (s : State) (a : Nat) : (freeRingSlot s a).sec = s.sec := by
  simp only [freeRingSlot]
  split <;> simp

@[simp] theorem returnBuffer_sec (s : State) (h : Handle) : (returnBuffer s h).sec = s.sec := by simp [returnBuffer]
@[simp] theorem readersTold_sec (s : State) (a : Nat) : (readersTold s a).1.sec = s.sec := by simp [readersTold]

@[simp] theorem releaseN_sec (n : Nat) (s : State) (slot i : Nat) (h : Handle) : (releaseN n s slot i h).sec = s.sec := by
  induction n generalizing s slot i h with
  | zero => rfl
  | succ n ih =>
    simp only [releaseN]
    (repeat' split) <;> simp [ih]

@[simp] theorem release_sec (s : State) (slot i : Nat) (h : Handle) : (release s slot i h).sec = s.sec := by simp [release]

@[simp] theorem releaseAll_sec (s : State) (slot i : Nat) (hs : List Handle) : (releaseAll s slot i hs).sec = s.sec := by
  simp [releaseAll]

@[simp] theorem popJoin_sec (s : State) (slot i qi : Nat) (q : Queue) (k : Nat) :
    ((popJoin s slot i qi q k).map (·.1.sec)).getD s.sec = s.sec := by
  simp only [popJoin]
  (repeat' split) <;> simp

@[simp] theorem popHandle_sec (s : State) (slot i port : Nat) : ((popHandle s slot i port).map (·.1.sec)).getD s.sec = s.sec := by
  unfold popHandle
  dsimp only
  (repeat' split) <;> grind [popJoin_sec, modQueue_sec, modGraph_sec]

@[simp] theorem popRound_sec (s : State) (slot i port : Nat) : (popRound s slot i port).secOr s.sec = s.sec := by
  unfold popRound
  (repeat' split) <;> grind [modQueue_sec, popHandle_sec, modGraph_sec, RoundPop.secOr]

@[simp] theorem waitInputs_sec (s : State) (slot i : Nat) (ports : List Nat) : (waitInputs s slot i ports).sec = s.sec := by
  unfold waitInputs
  refine foldl_sec _ _ _ fun t p => ?_
  (repeat' split) <;> simp

@[simp] theorem popAll_sec (s : State) (slot i : Nat) (l : List Nat) :
    ((popAll s slot i l).map (·.1.sec)).getD s.sec = s.sec := by
  fun_induction popAll s slot i l <;> grind [popHandle_sec]

@[simp] theorem checkDrained_sec (s : State) (slot : Nat) : (checkDrained s slot).sec = s.sec := by
  unfold checkDrained
  split <;> simp

@[simp] theorem notifyEvent_sec (s : State) (b : Bound) (on : Bool) (st : Status) : (notifyEvent s b on st).sec = s.sec := by
  simp [notifyEvent]

/-! ### Table banks -/

@[simp] theorem nextReload_sec (s : State) : (nextReload s).sec = s.sec := by
  unfold nextReload
  split <;> simp

@[simp] theorem reloadDone_sec (s : State) : (reloadDone s).sec = s.sec := by
  unfold reloadDone
  split <;> simp

@[simp] theorem switchBank_sec (s : State) (c : Nat) : (switchBank s c).sec = s.sec := by simp [switchBank]
@[simp] theorem tileBoundary_sec (s : State) (c : Nat) : (tileBoundary s c).sec = s.sec := by simp [tileBoundary]

/-! ### Graph slots and re-armable streams -/

@[simp] theorem endStream_sec (s : State) (b : Bound) (st : Status) : (endStream s b st).sec = s.sec := by
  unfold endStream
  split <;> simp

@[simp] theorem faultHalt_sec (s : State) (b : Bound) (f : StreamFault) (seq : Half) : (faultHalt s b f seq).sec = s.sec := by
  simp [faultHalt]

@[simp] theorem startRun_sec (s : State) (b : Bound) (r : Rearm) : (startRun s b r).sec = s.sec := by
  unfold startRun
  split <;> simp

@[simp] theorem parkedRearm_sec (s : State) (b : Bound) (r : Rearm) : (parkedRearm s b r).sec = s.sec := by simp [parkedRearm]

@[simp] theorem runDone_sec (s : State) (b : Bound) : (runDone s b).sec = s.sec := by
  unfold runDone
  (repeat' split) <;> simp

@[simp] theorem rearmStream_sec (s : State) (b : Bound) (r : Rearm) : (rearmStream s b r).1.sec = s.sec := by
  simp only [rearmStream]
  split <;> simp

@[simp] theorem startGraph_sec (s : State) (slot : Nat) : (startGraph s slot).sec = s.sec := by simp [startGraph]
@[simp] theorem resumeGraph_sec (s : State) (slot : Nat) : (resumeGraph s slot).sec = s.sec := by simp [resumeGraph]

@[simp] theorem unloadGraph_sec (s : State) (slot : Nat) : (unloadGraph s slot).sec = s.sec := by
  unfold unloadGraph
  split <;> simp

@[simp] theorem applySlotCmd_sec (s : State) (slot : Nat) (c : Nat × HostHdr) (cmd : SlotCmd) :
    (applySlotCmd s slot c cmd).sec = s.sec := by
  simp only [applySlotCmd]
  (repeat' split) <;> simp

@[simp] theorem runWaiting_sec (s : State) (slot : Nat) (l) : (runWaiting s slot l).sec = s.sec := by
  fun_induction runWaiting s slot l <;> simp_all

@[simp] theorem slotCmd_sec (s : State) (h : HostHdr) (opc slot : Nat) (cmd : SlotCmd) :
    (slotCmd s h opc slot cmd).sec = s.sec := by simp [slotCmd]

@[simp] theorem settle_sec (s : State) (slot : Nat) : (settle s slot).sec = s.sec := by
  simp only [settle]
  split <;> simp

@[simp] theorem pauseDone_sec (s : State) (slot : Nat) : (pauseDone s slot).sec = s.sec := by
  unfold pauseDone
  (repeat' split) <;> simp

@[simp] theorem timedFire_sec (s : State) (slot : Nat) : (timedFire s slot).sec = s.sec := by
  unfold timedFire
  (repeat' split) <;> simp

@[simp] theorem failTimed_sec (s : State) : (failTimed s).sec = s.sec := by simp [failTimed]
@[simp] theorem haltStation_sec (s : State) (b : Bound) (st : Status) : (haltStation s b st).sec = s.sec := by simp [haltStation]

@[simp] theorem parkedGo_sec (s : State) (b : Bound) : (parkedGo s b).sec = s.sec := by
  unfold parkedGo
  split <;> simp

/-! ### The gates before a command's own rules -/

theorem hostGate_sec (s : State) (h : HostHdr) (c : CmdClass) (always : Bool) {run : State → State} (hr : (run s).sec = s.sec) :
    (hostGate s h c always run).sec = s.sec := by
  unfold hostGate
  (repeat' split) <;> simp [hr]

theorem hostCmd_sec (s : State) (h : HostHdr) (c : CmdClass) (always : Bool) {run : State → State} (hr : (run s).sec = s.sec) :
    outcomeSec s.sec (hostCmd s h c always run) = s.sec := by
  unfold hostCmd
  (repeat' split) <;> simp [hostGate_sec _ _ _ _ hr]

theorem onUnit_sec (n count : Nat) (what : String) {s t : State} (h : t.sec = s.sec) :
    outcomeSec s.sec (onUnit n count what t) = s.sec := by
  unfold onUnit
  split <;> simp [h]

theorem onUnit_floors (n count : Nat) (what : String) {s t : State} (h : t.sec.floors = s.sec.floors) :
    (outcomeSec s.sec (onUnit n count what t)).floors = s.sec.floors := by
  unfold onUnit
  split <;> simp [h]

theorem whenUp_sec {s t : State} (h : t.sec = s.sec) : outcomeSec s.sec (whenUp s t) = s.sec := by
  unfold whenUp
  split <;> simp [h]

theorem whenUp_floors {s t : State} (h : t.sec.floors = s.sec.floors) :
    (outcomeSec s.sec (whenUp s t)).floors = s.sec.floors := by
  unfold whenUp
  split <;> simp [h]

/-! ### The memory-side adders -/

@[simp] theorem setAdderFlags_sec (s : State) (a f : Nat) : (setAdderFlags s a f).sec = s.sec := by
  unfold setAdderFlags
  split <;> simp

@[simp] theorem modifySectors_sec (s : State) (a n : Nat) : (modifySectors s a n).sec = s.sec := by simp [modifySectors]

@[simp] theorem aliasApply_sec (a : Nat) (data : Bytes) (s : State) (i : Nat) : (aliasApply a data s i).sec = s.sec := by
  simp only [aliasApply]
  split
  · rfl
  · exact (setAdderFlags_sec _ _ _).trans (poke_sec _ _ _)

@[simp] theorem aliasWriteSome_sec (s : State) (a : Nat) (data : Bytes) (is : List Nat) :
    ((aliasWriteSome s a data is).getD s).sec = s.sec := by
  unfold aliasWriteSome
  split <;> simp

@[simp] theorem aliasWrite_sec (s : State) (a : Nat) (data : Bytes) : ((aliasWrite s a data).getD s).sec = s.sec := by
  simp [aliasWrite]

@[simp] theorem writeAny_sec (s : State) (a : Nat) (b : Bytes) : ((writeAny s a b).getD s).sec = s.sec := by
  unfold writeAny
  split <;> simp

@[simp] theorem noteStore_sec (s : State) (fault : Bool) : (noteStore s fault).sec = s.sec := by simp [noteStore]

@[simp] theorem execUpdateAliasWrite_sec (addr : Nat) (data : Bytes) (s : State) :
    outcomeSec s.sec (execUpdateAliasWrite addr data s) = s.sec := by
  unfold execUpdateAliasWrite
  grind [aliasWrite_sec, noteStore_sec, outcomeSec]

@[simp] theorem adderRun_sec (s : State) (a n : Nat) (f : Nat → Nat) : (adderRun s a n f).1.sec = s.sec := by simp [adderRun]

@[simp] theorem amoAnswer_sec (s : State) (cluster : Nat) (x : AmoAnswer) : (amoAnswer s cluster x).sec = s.sec := by
  simp [amoAnswer]

@[simp] theorem loadReserved_sec (s : State) (cluster a n : Nat) (wide : Bool) :
    (loadReserved s cluster a n wide).sec = s.sec := by
  simp only [loadReserved]
  split <;> simp

@[simp] theorem storeConditional_sec (s : State) (cluster a n v : Nat) : (storeConditional s cluster a n v).sec = s.sec := by
  unfold storeConditional
  grind [memWrite_sec, modCluster_sec, amoAnswer_sec]

@[simp] theorem amoRun_sec (s : State) (cluster : Nat) (op : AmoOp) (wide : Bool) (a v : Nat) :
    (amoRun s cluster op wide a v).sec = s.sec := by simp [amoRun]

@[simp] theorem execAmo_sec (cluster : Nat) (op : AmoOp) (wide : Bool) (addr : Nat) (value : Dword) (s : State) :
    outcomeSec s.sec (execAmo cluster op wide addr value s) = s.sec := by
  refine onUnit_sec _ _ _ ?_
  dsimp only
  split <;> simp

@[simp] theorem execCompareAndSwap_sec (channel addr : Nat) (expected new : Word) (s : State) :
    outcomeSec s.sec (execCompareAndSwap channel addr expected new s) = s.sec :=
  onUnit_sec _ _ _ (by simp)

/-! ### TABLE_LOAD and the switch of banks -/

@[simp] theorem execSfuBankSwitch_sec (core : Nat) (s : State) : outcomeSec s.sec (execSfuBankSwitch core s) = s.sec :=
  onUnit_sec _ _ _ (by simp)

@[simp] theorem writeShadow_sec (half segs : Bytes) (s : State) (c : Nat) : (writeShadow half segs s c).sec = s.sec := by
  simp [writeShadow]

@[simp] theorem runReload_sec (s : State) (r : Reload) : (runReload s r).sec = s.sec := by
  simp only [runReload]
  split <;> simp

@[simp] theorem execTableReloadRun_sec (s : State) : outcomeSec s.sec (execTableReloadRun s) = s.sec := by
  unfold execTableReloadRun
  split <;> simp

@[simp] theorem opTableLoad_sec (h : HostHdr) (image : AddrArg) (segCount : Nat) (mask : Half) (block : Bool) (s : State) :
    (opTableLoad h image segCount mask block s).sec = s.sec := by simp [opTableLoad]

@[simp] theorem execTableLoad_sec (h : HostHdr) (image : AddrArg) (segCount : Nat) (mask : Half) (block : Bool) (s : State) :
    outcomeSec s.sec (execTableLoad h image segCount mask block s) = s.sec :=
  hostCmd_sec _ _ _ _ (by simp)

/-! ### Sequence records, directories, frame tables and the free protocol -/

@[simp] theorem readSeq_sec (s : State) (q : Nat) : (readSeq s q).1.sec = s.sec := by
  simp only [readSeq]
  (repeat' split) <;> simp

@[simp] theorem writeSeq_sec (s : State) (q : Nat) (r : SeqRec) : (writeSeq s q r).sec = s.sec := by simp [writeSeq]

@[simp] theorem readDir_sec (s : State) (r : SeqRec) (layer : Nat) : (readDir s r layer).1.sec = s.sec := by
  simp only [readDir]
  (repeat' split) <;> simp

@[simp] theorem readPte_sec (s : State) (r : SeqRec) (layer pti : Nat) : (readPte s r layer pti).1.sec = s.sec := by
  simp only [readPte]
  (repeat' split) <;> simp

@[simp] theorem writePte_sec (s : State) (a : Nat) (p : Pte) : (writePte s a p).sec = s.sec := by simp [writePte]
@[simp] theorem putLink_sec (s : State) (pool f : Nat) (g : Nat → Nat) : (putLink s pool f g).sec = s.sec := by simp [putLink]

@[simp] theorem takeFrame_sec (s : State) (pool need : Nat) : (takeFrame s pool need).secOr s.sec = s.sec := by
  simp only [takeFrame]
  (repeat' split) <;> simp

@[simp] theorem linkPast_sec (s : State) (pool f : Nat) (l : List Nat) : (linkPast s pool f l).sec = s.sec := by simp [linkPast]
@[simp] theorem unlist_sec (s : State) (pool f : Nat) : (unlist s pool f).sec = s.sec := by simp [unlist]
@[simp] theorem quarantine_sec (s0 : State) (pool f : Nat) : (quarantine s0 pool f).sec = s0.sec := by simp [quarantine]

@[simp] theorem refAdd_sec (s : State) (pool f : Nat) (d : Int) : (refAdd s pool f d).1.sec = s.sec := by
  simp only [refAdd]
  split <;> simp

@[simp] theorem toLimbo_sec (s : State) (pool f : Nat) : (toLimbo s pool f).sec = s.sec := by
  simp only [toLimbo]
  (repeat' split) <;> simp

@[simp] theorem dropFrame_sec (s : State) (pool f : Nat) : (dropFrame s pool f).1.sec = s.sec := by
  simp only [dropFrame]
  (repeat' split) <;> simp

@[simp] theorem execFrameReclaim_sec (pool : Nat) (s : State) : outcomeSec s.sec (execFrameReclaim pool s) = s.sec := by
  simp only [execFrameReclaim]
  (repeat' split) <;> simp

@[simp] theorem opKvcPool_sec (pool word : Nat) (value : Dword) (s : State) : (opKvcPool pool word value s).sec = s.sec := by
  simp [opKvcPool]

@[simp] theorem execKvcPool_sec (_req : Requester) (pool word : Nat) (value : Dword) (s : State) :
    outcomeSec s.sec (execKvcPool _req pool word value s) = s.sec := by
  unfold execKvcPool
  grind [opKvcPool_sec, whenUp_sec, outcomeSec]

@[simp] theorem initTable_sec (s : State) (pool n : Nat) : (initTable s pool n).sec = s.sec := by
  induction n with
  | zero => rfl
  | succ n ih => simp [initTable, ih]

@[simp] theorem execPoolInitDone_sec (pool : Nat) (s : State) : outcomeSec s.sec (execPoolInitDone pool s) = s.sec := by
  simp [execPoolInitDone]

@[simp] theorem commitCurve_sec (s : State) (n : Nat) : (commitCurve s n).sec = s.sec := by
  simp only [commitCurve]
  split <;> simp

@[simp] theorem opCurveCommit_sec (value : Word) (s : State) : (opCurveCommit value s).sec = s.sec := by simp [opCurveCommit]

@[simp] theorem execKvcCurveCommit_sec (value : Word) (s : State) : outcomeSec s.sec (execKvcCurveCommit value s) = s.sec :=
  whenUp_sec (by simp)

/-! ### Packets handed to a die's router -/

@[simp] theorem sendPacket_sec (s : State) (die : Nat) (p : Packet) : (sendPacket s die p).sec = s.sec := by simp [sendPacket]

@[simp] theorem sendPieces_sec (die kind dst : Nat) (tag : Word) (kw : Nat → Bytes) (n i : Nat) (b : Bytes) (s : State) :
    (sendPieces die kind dst tag kw n i b s).sec = s.sec := by
  induction n generalizing i b s with
  | zero => rfl
  | succ n ih => simp [sendPieces, ih]

@[simp] theorem sendBytes_sec (s : State) (die kind dst : Nat) (tag : Word) (kw : Nat → Bytes) (b : Bytes) :
    (sendBytes s die kind dst tag kw b).sec = s.sec := by simp [sendBytes]

/-! ### The work counter of a cluster -/

@[simp] theorem commitOp_sec (s : State) (c : Nat) (e : Byte) : (commitOp s c e).1.sec = s.sec := by simp [commitOp]

@[simp] theorem applyReset_sec (s : State) (c : Nat) (base limit : Word) (cmd : Option (Nat × HostHdr)) :
    (applyReset s c base limit cmd).sec = s.sec := by
  unfold applyReset
  split <;> simp

@[simp] theorem wcReset_sec (s : State) (c : Nat) (base limit : Word) (cmd : Option (Nat × HostHdr)) :
    (wcReset s c base limit cmd).sec = s.sec := by simp [wcReset]

@[simp] theorem opWcReset_sec (h : HostHdr) (cluster : Nat) (base limit : Word) (s : State) :
    (opWcReset h cluster base limit s).sec = s.sec := by simp [opWcReset]

@[simp] theorem execWcReset_sec (h : HostHdr) (cluster : Nat) (base limit : Word) (s : State) :
    outcomeSec s.sec (execWcReset h cluster base limit s) = s.sec :=
  hostCmd_sec _ _ _ _ (by simp)

@[simp] theorem opCluWcReset_sec (cluster : Nat) (value : Dword) (s : State) : (opCluWcReset cluster value s).sec = s.sec := by
  simp [opCluWcReset]

@[simp] theorem execCluWcReset_sec (cluster : Nat) (value : Dword) (s : State) :
    outcomeSec s.sec (execCluWcReset cluster value s) = s.sec :=
  onUnit_sec _ _ _ (by simp)

@[simp] theorem coreClaim_sec (s : State) (core : Nat) : (coreClaim s core).sec = s.sec := by simp [coreClaim]
@[simp] theorem execClaim_sec (core : Nat) (s : State) : outcomeSec s.sec (execClaim core s) = s.sec := onUnit_sec _ _ _ (by simp)

/-! ### The LOAD and STORE streams -/

@[simp] theorem readCtl_sec {α : Type} (s : State) (a n : Nat) (f : Bytes → Except Status α) :
    (readCtl s a n f).1.sec = s.sec := by
  simp only [readCtl]
  split <;> simp

@[simp] theorem readGeom_sec (s : State) (want : Bool) (a : Nat) (ok : Geom → Bool) : (readGeom s want a ok).1.sec = s.sec := by
  simp [readGeom]

@[simp] theorem readShape_sec (s : State) (d : StreamDesc) : (readShape s d).1.sec = s.sec := by simp [readShape]

@[simp] theorem decodeStream_sec (s : State) (load : Bool) (x a : Nat) : (decodeStream s load x a).1.sec = s.sec := by
  simp only [decodeStream]
  (repeat' split) <;> simp

@[simp] theorem readRun_sec (s : State) (core space a n : Nat) : (readRun s core space a n).1.sec = s.sec := by
  simp only [readRun]
  (repeat' split) <;> simp

@[simp] theorem readIndex_sec (s : State) (core : Nat) (d : StreamDesc) (g : Geom) (j : Nat) :
    (readIndex s core d g j).1.sec = s.sec := by
  simp only [readIndex]
  (repeat' split) <;> simp

@[simp] theorem runAddrs_sec (s : State) (core : Nat) (d : StreamDesc) (idx : Option Geom) (g : Geom) (l : List (List Nat)) :
    (runAddrs s core d idx g l).1.sec = s.sec := by
  induction l with
  | nil => rfl
  | cons a l ih =>
    simp only [runAddrs]
    (repeat' split) <;> simp [ih]

@[simp] theorem readRuns_sec (s : State) (core space n : Nat) (l : List Nat) : (readRuns s core space n l).1.sec = s.sec := by
  induction l generalizing s with
  | nil => rfl
  | cons a l ih =>
    simp only [readRuns]
    (repeat' split) <;> simp [ih]

@[simp] theorem readTile_sec (s : State) (core : Nat) (d : StreamDesc) (idx : Option Geom) (g : Geom) (outer pos : Nat) :
    (readTile s core d idx g outer pos).1.sec = s.sec := by
  simp only [readTile]
  split <;> simp

@[simp] theorem readCurd_sec (s : State) (core : Nat) (d : StreamDesc) (idx : Option Geom) (outer pos : Nat) :
    (readCurd s core d idx outer pos).1.sec = s.sec := by
  simp only [readCurd]
  (repeat' split) <;> simp

@[simp] theorem streamHalt_sec (s : State) (b : Bound) (f : StreamFault) (seq : Half) : (streamHalt s b f seq).sec = s.sec := by
  simp [streamHalt]

@[simp] theorem suPoison_sec (s : State) (x : Nat) : (suPoison s x).sec = s.sec := by simp [suPoison]
@[simp] theorem suPoisons_sec (s : State) (x n : Nat) : (suPoisons s x n).sec = s.sec := by simp [suPoisons]

@[simp] theorem issue_sec (s : State) (b : Bound) : (issue s b).sec = s.sec := by
  unfold issue
  split <;> simp

@[simp] theorem deliverOne_sec (s : State) (b : Bound) : ((deliverOne s b).getD s).sec = s.sec := by
  simp only [deliverOne]
  (repeat' split) <;> simp

@[simp] theorem deliverAll_sec (n : Nat) (s : State) (b : Bound) : (deliverAll n s b).sec = s.sec := by
  fun_induction deliverAll n s b <;> grind [deliverOne_sec]

@[simp] theorem loadProgress_sec (s : State) (b : Bound) : (loadProgress s b).sec = s.sec := by
  simp only [loadProgress]
  (repeat' split) <;> simp

@[simp] theorem loadTurn_sec (s : State) (b : Bound) : (loadTurn s b).sec = s.sec := by simp [loadTurn]
@[simp] theorem loadAdvance_sec (s : State) (b : Bound) : (loadAdvance s b).sec = s.sec := by simp [loadAdvance]
@[simp] theorem tileStops_sec (s : State) (b : Bound) (f : StreamFault) : (tileStops s b f).sec = s.sec := by simp [tileStops]
@[simp] theorem nextStops_sec (s : State) (b : Bound) (f : StreamFault) : (nextStops s b f).sec = s.sec := by simp [nextStops]

@[simp] theorem landTile_sec (s : State) (b : Bound) (u : SlotUse) (main comp : Bytes) (bad badC : Nat) :
    (landTile s b u main comp bad badC).sec = s.sec := by simp [landTile]

@[simp] theorem slotStops_sec (s : State) (b : Bound) (u : SlotUse) (e : TileStop) : (slotStops s b u e).sec = s.sec := by
  simp [slotStops]

@[simp] theorem fetchTile_sec (s : State) (b : Bound) (p : StreamPlan) (u : SlotUse) (ep : Bool) :
    (fetchTile s b p u ep).sec = s.sec := by
  simp only [fetchTile]
  (repeat' split) <;> simp

@[simp] theorem execStreamTransferDone_sec (core tile : Nat) (s : State) :
    outcomeSec s.sec (execStreamTransferDone core tile s) = s.sec := by
  refine onUnit_sec _ _ _ ?_
  dsimp only
  (repeat' split) <;> simp

@[simp] theorem execHostReadCompletion_sec (core tile : Nat) (how : ReadEnd) (s : State) :
    outcomeSec s.sec (execHostReadCompletion core tile how s) = s.sec := by
  refine onUnit_sec _ _ _ ?_
  (repeat' split) <;> simp

@[simp] theorem streamRefused_sec (s : State) (b : Bound) (e : Status) : (streamRefused s b e).sec = s.sec := by
  simp [streamRefused]

@[simp] theorem claimOver_sec (s : State) (b : Bound) : (claimOver s b).sec = s.sec := by
  simp only [claimOver]
  split <;> simp

@[simp] theorem loadEmpty_sec (s : State) (b : Bound) (p : StreamPlan) : (loadEmpty s b p).sec = s.sec := by simp [loadEmpty]

@[simp] theorem loadCurrent_sec (s : State) (b : Bound) (p : StreamPlan) : (loadCurrent s b p).sec = s.sec := by
  simp [loadCurrent]

@[simp] theorem overlapNext_sec (s : State) (b : Bound) : (overlapNext s b).sec = s.sec := by
  simp only [overlapNext]
  split <;> simp

@[simp] theorem execLoadDescriptor_sec (core : Nat) (s : State) : outcomeSec s.sec (execLoadDescriptor core s) = s.sec := by
  refine onUnit_sec _ _ _ ?_
  dsimp only
  (repeat' split) <;> simp

@[simp] theorem execClaimTemplate_sec (core : Nat) (s : State) : outcomeSec s.sec (execClaimTemplate core s) = s.sec := by
  refine onUnit_sec _ _ _ ?_
  dsimp only
  (repeat' split) <;> simp

@[simp] theorem commitTaken_sec (s : State) (b : Bound) (e : Byte) (i : Word) : (commitTaken s b e i).sec = s.sec := by
  simp [commitTaken]

@[simp] theorem landed_sec (s : State) (core : Nat) : (landed s core).sec = s.sec := by simp [landed]
@[simp] theorem staleEnd_sec (s : State) (b : Bound) : (staleEnd s b).sec = s.sec := by simp [staleEnd]

@[simp] theorem coreCommit_sec (s : State) (core : Nat) (e : Byte) (i : Word) : (coreCommit s core e i).sec = s.sec := by
  unfold coreCommit
  split <;> simp

@[simp] theorem execCommit_sec (core : Nat) (epoch : Byte) (index : Word) (s : State) :
    outcomeSec s.sec (execCommit core epoch index s) = s.sec :=
  onUnit_sec _ _ _ (by simp)

@[simp] theorem runHeld_sec (s : State) (c : Nat) (l : List WcOp) : (runHeld s c l).sec = s.sec := by
  fun_induction runHeld s c l <;> simp_all

@[simp] theorem execWorkCounterResetApply_sec (cluster : Nat) (s : State) :
    outcomeSec s.sec (execWorkCounterResetApply cluster s) = s.sec :=
  onUnit_sec _ _ _ (by simp)

@[simp] theorem popTiles_sec (b : Bound) (d : StreamDesc) (n : Nat) (s : State) : (popTiles b d n s).sec = s.sec := by
  fun_induction popTiles b d n s <;> grind [popAll_sec, waitInputs_sec, modStrm_sec]

@[simp] theorem storeFill_sec (s : State) (b : Bound) : (storeFill s b).sec = s.sec := by
  unfold storeFill
  split <;> simp

@[simp] theorem storeProgress_sec (s : State) (b : Bound) : (storeProgress s b).sec = s.sec := by
  unfold storeProgress
  split <;> simp

@[simp] theorem writeSome_sec (s : State) (lo : Nat) (part : List (Byte × Bool)) : (writeSome s lo part).sec = s.sec := by
  simp [writeSome]

/-- `t` has the `sec` of `s`. Stated as a relation of its own, a fold over addresses is judged without evaluating the state it
builds. -/
def SameSec (s t : State) : Prop := t.sec = s.sec

theorem foldl_sec_of {α : Type} (l : List α) (f : State → α → State) (s : State) (h : ∀ t a, SameSec t (f t a)) :
    (l.foldl f s).sec = s.sec :=
  foldl_sec _ _ _ h

theorem markIf_sameSec (s : State) (c : Prop) [Decidable c] (a n : Nat) : SameSec s (if c then markBad s a n else s) := by
  unfold SameSec
  split <;> simp

@[simp] theorem writeRun_sec (s : State) (space a : Nat) (src : List (Byte × Bool × Bool)) :
    exceptSec s.sec (writeRun s space a src) = s.sec := by
  unfold writeRun
  extract_lets n _ w o els
  split
  · split
    · rfl
    · rw [exceptSec]
      refine foldl_sec _ _ _ fun t p => ?_
      split
      · exact hostPoke_sec _ _ _
      · rfl
  · split
    · have ha := aliasWriteSome_sec s a (src.map Prod.fst) els
      generalize aliasWriteSome s a (src.map Prod.fst) els = r at ha ⊢
      cases r with
      | none => rfl
      | some t =>
        rw [exceptSec, foldl_sec_of _ _ _ fun _ _ => markIf_sameSec _ _ _ _]
        exact ha
    · split
      · rfl
      · rw [exceptSec]
        refine foldl_sec _ _ _ fun t k => ?_
        extract_lets part lo t1
        have h1 : t1.sec = t.sec := by
          unfold t1
          split
          · exact memWrite_sec _ _ _
          · exact writeSome_sec _ _ _
        split
        · exact (markBad_sec _ _ _).trans h1
        · exact h1

@[simp] theorem writeRuns_sec (s : State) (core space n : Nat) (l : List Nat) (src) :
    (writeRuns s core space n l src).1.sec = s.sec := by
  fun_induction writeRuns <;> grind [writeRun_sec, dlMem_sec, tick1_sec, exceptSec]

@[simp] theorem writePart_sec (s : State) (b : Bound) (d : StreamDesc) (idx : Option Geom) (g : Geom) (outer pos port : Nat)
    (h : Handle) : (writePart s b d idx g outer pos port h).1.sec = s.sec := by
  simp only [writePart]
  (repeat' split) <;> simp

@[simp] theorem storeStop_sec (s : State) (b : Bound) (t : StoreTile) (e : TileStop) : (storeStop s b t e).sec = s.sec := by
  simp [storeStop]

@[simp] theorem tileDone_sec (s : State) (b : Bound) (t : StoreTile) : (tileDone s b t).sec = s.sec := by simp [tileDone]

@[simp] theorem tileRefused_sec (s : State) (b : Bound) (t : StoreTile) (st : Status) : (tileRefused s b t st).sec = s.sec := by
  simp [tileRefused]

@[simp] theorem writeTile_sec (s : State) (b : Bound) (d : StreamDesc) (t : StoreTile) : (writeTile s b d t).sec = s.sec := by
  simp only [writeTile]
  (repeat' split) <;> simp

@[simp] theorem storeTile_sec (s : State) (b : Bound) (d : StreamDesc) (t : StoreTile) : (storeTile s b d t).sec = s.sec := by
  simp [storeTile]

@[simp] theorem commitGate_sec (s : State) (b : Bound) (d : StreamDesc) : (commitGate s b d).st.sec = s.sec := by
  simp only [commitGate]
  (repeat' split) <;> simp

@[simp] theorem execStoreTileWritten_sec (core : Nat) (s : State) : outcomeSec s.sec (execStoreTileWritten core s) = s.sec := by
  refine onUnit_sec _ _ _ ?_
  split <;> grind [storeTile_sec, storeFill_sec, commitGate_sec, storeProgress_sec, CommitGate.st]

@[simp] theorem storeEmpty_sec (s : State) (b : Bound) (p : StreamPlan) : (storeEmpty s b p).sec = s.sec := by simp [storeEmpty]

@[simp] theorem anchorPop_sec (s : State) (b : Bound) (ports : List Nat) : ((anchorPop s b ports).getD s).sec = s.sec := by
  unfold anchorPop
  grind [modStrm_sec, popAll_sec]

@[simp] theorem tagTiles_sec (s : State) (b : Bound) (d : StreamDesc) : (tagTiles s b d).sec = s.sec := by simp [tagTiles]

@[simp] theorem storeCurrent_sec (s : State) (b : Bound) (p : StreamPlan) : (storeCurrent s b p).sec = s.sec := by
  simp [storeCurrent]

@[simp] theorem execStoreDescriptor_sec (core : Nat) (s : State) : outcomeSec s.sec (execStoreDescriptor core s) = s.sec := by
  refine onUnit_sec _ _ _ ?_
  split <;> grind [decodeStream_sec, streamRefused_sec, readCtl_sec, waitInputs_sec, storeCurrent_sec, anchorPop_sec]

@[simp] theorem atsNote_sec (s : State) (page : Nat) (present : Bool) : (atsNote s page present).sec = s.sec := by simp [atsNote]

@[simp] theorem execAtsResponse_sec (core : Nat) (side : Side) (iova : Nat) (present : Bool) (s : State) :
    outcomeSec s.sec (execAtsResponse core side iova present s) = s.sec := by
  refine onUnit_sec _ _ _ ?_
  dsimp only
  (repeat' split) <;> simp

@[simp] theorem execAtsInvalidation_sec (iova bytes : Nat) (s : State) :
    outcomeSec s.sec (execAtsInvalidation iova bytes s) = s.sec := by simp [execAtsInvalidation]

@[simp] theorem clusterRearm_sec (s : State) (v : Nat) : (clusterRearm s v).1.sec = s.sec := by
  unfold clusterRearm
  (repeat' split) <;> simp

@[simp] theorem opSuRearm_sec (cluster : Nat) (upper : Bool) (value : Dword) (s : State) :
    (opSuRearm cluster upper value s).sec = s.sec := by
  cases upper with
  | false => rfl
  | true => exact (modCluster_sec _ _ _).trans (clusterRearm_sec _ _)

@[simp] theorem execCluSuRearm_sec (cluster : Nat) (upper : Bool) (value : Dword) (s : State) :
    outcomeSec s.sec (execCluSuRearm cluster upper value s) = s.sec :=
  onUnit_sec _ _ _ (by simp)

@[simp] theorem execQueuePush_sec (slot station port : Nat) (h : Handle) (release_ : Option Nat) (s : State) :
    outcomeSec s.sec (execQueuePush slot station port h release_ s) = s.sec := by
  unfold execQueuePush
  (repeat' split) <;> grind [modStation_sec, pushHandle_sec, settle_sec, onUnit_sec, release_sec, Pushed.secOr]

@[simp] theorem execQueuePop_sec (slot station port : Nat) (release_ : Bool) (s : State) :
    outcomeSec s.sec (execQueuePop slot station port release_ s) = s.sec := by
  refine onUnit_sec _ _ _ ?_
  grind [modStation_sec, settle_sec, haltStation_sec, waitInputs_sec, popHandle_sec, release_sec]

/-! ### The Churn -/

@[simp] theorem churnEvent_sec (s : State) (i : Nat) (st : Status) : (churnEvent s i st).sec = s.sec := by simp [churnEvent]

@[simp] theorem churnCtl_sec (s : State) (die dst : Nat) (tag : Word) (words : List Nat) :
    (churnCtl s die dst tag words).sec = s.sec := by simp [churnCtl]

@[simp] theorem modRingCtx_sec (s : State) (r : RingRec) (ctx : Nat) (f : ChnCtx → ChnCtx) :
    (modRingCtx s r ctx f).sec = s.sec :=
  foldl_sec _ _ _ fun _ _ => modChn_sec _ _ _

@[simp] theorem openFails_sec (s : State) (r : RingRec) (ctx : Nat) (c : ChnCause) : (openFails s r ctx c).sec = s.sec := by
  simp [openFails]

@[simp] theorem firstCredits_sec (s : State) (r : RingRec) (ctx : Nat) : (firstCredits s r ctx).sec = s.sec := by
  simp [firstCredits]

@[simp] theorem openJudge_sec (s : State) (b : Bound) (r : RingRec) (ctx : Nat) (notify : Bool) (lanes : Nat × Nat) :
    (openJudge s b r ctx notify lanes).sec = s.sec := by
  unfold openJudge
  split <;> simp

@[simp] theorem openGoesOn_sec (s : State) (die ctx : Nat) : (openGoesOn s die ctx).sec = s.sec := by
  simp only [openGoesOn]
  (repeat' split) <;> simp

@[simp] theorem openStart_sec (s : State) (b : Bound) (d : ChurnDesc) (r : RingRec) : (openStart s b d r).sec = s.sec := by
  simp [openStart]

theorem churnCmd_sec (die op : Nat) {run : Bound → ChurnDesc → State → State} (s : State)
    (hr : ∀ b d t, (run b d t).sec = t.sec) : outcomeSec s.sec (churnCmd die op run s) = s.sec := by
  unfold churnCmd
  apply onUnit_sec
  dsimp only
  (repeat' split) <;> simp [hr]

@[simp] theorem runOpen_sec (b : Bound) (d : ChurnDesc) (s : State) : (runOpen b d s).sec = s.sec := by
  simp only [runOpen]
  (repeat' split) <;> simp

@[simp] theorem execChurnOpen_sec (die : Nat) (s : State) : outcomeSec s.sec (execChurnOpen die s) = s.sec :=
  churnCmd_sec _ _ _ runOpen_sec

@[simp] theorem answerShake_sec (s : State) (i : Nat) (west : Bool) (r : RingRec) : (answerShake s i west r).sec = s.sec := by
  simp [answerShake]

@[simp] theorem execChurnHandshakeArrival_sec (die ctx : Nat) (west : Bool) (shake : Shake) (s : State) :
    outcomeSec s.sec (execChurnHandshakeArrival die ctx west shake s) = s.sec := by
  refine onUnit_sec _ _ _ ?_
  dsimp only
  (repeat' split) <;> simp

@[simp] theorem execChurnCreditArrival_sec (die ctx : Nat) (west : Bool) (credits rttNs : Nat) (s : State) :
    outcomeSec s.sec (execChurnCreditArrival die ctx west credits rttNs s) = s.sec :=
  onUnit_sec _ _ _ (by simp)

@[simp] theorem failCtx_sec (s : State) (i : Nat) (cause : ChnCause) (st : Status) : (failCtx s i cause st).sec = s.sec := by
  simp only [failCtx]
  split <;> simp

@[simp] theorem failCtxs_sec (s : State) (p : ChnCtx → RingRec → Bool) (cause : ChnCause) : (failCtxs s p cause).sec = s.sec := by
  unfold failCtxs
  refine foldl_sec _ _ _ fun t i => ?_
  dsimp only
  (repeat' split) <;> simp

@[simp] theorem churnWithdraw_sec (s : State) (group : Nat) : (churnWithdraw s group).sec = s.sec := by simp [churnWithdraw]
@[simp] theorem churnLinkDown_sec (s : State) (link : Nat) : (churnLinkDown s link).sec = s.sec := by simp [churnLinkDown]

@[simp] theorem execChurnTimeout_sec (die ctx : Nat) (west : Bool) (s : State) :
    outcomeSec s.sec (execChurnTimeout die ctx west s) = s.sec := by
  refine onUnit_sec _ _ _ ?_
  dsimp only
  (repeat' split) <;> simp

@[simp] theorem sendTile_sec (s : State) (i : Nat) (west : Bool) (r : RingRec) (tile : Bytes) :
    (sendTile s i west r tile).sec = s.sec := by simp [sendTile]

@[simp] theorem countStaged_sec (i : Nat) (west : Bool) (s : State) (u : RxSlot) : (countStaged i west s u).sec = s.sec := by
  unfold countStaged
  split <;> simp

@[simp] theorem passSlots_sec (s : State) (i : Nat) (west : Bool) (r : RingRec) : (passSlots s i west r).sec = s.sec := by
  simp [passSlots]

@[simp] theorem passRelease_sec (s : State) (b : Bound) (i : Nat) (west : Bool) (r : RingRec) :
    (passRelease s b i west r).sec = s.sec := by
  unfold passRelease
  grind [modDir_sec, waitInputs_sec, popHandle_sec, release_sec]

@[simp] theorem modSlotAt_sec (s : State) (i : Nat) (west : Bool) (a : Nat) (f : RxSlot → RxSlot) :
    (modSlotAt s i west a f).sec = s.sec := by simp [modSlotAt]

@[simp] theorem passPush_sec (s : State) (b : Bound) (i : Nat) (west : Bool) (r : RingRec) :
    (passPush s b i west r).sec = s.sec := by
  simp only [passPush]
  split <;> simp

@[simp] theorem passForward_sec (s : State) (i : Nat) (west : Bool) (r : RingRec) : (passForward s i west r).sec = s.sec := by
  simp only [passForward]
  split <;> simp

@[simp] theorem passLocal_sec (s : State) (b : Bound) (i : Nat) (west : Bool) (r : RingRec) (q : SeqRec) :
    (passLocal s b i west r q).sec = s.sec := by
  unfold passLocal
  grind [modDir_sec, haltStation_sec, waitInputs_sec, sendTile_sec, popHandle_sec, release_sec, memRead_sec]

@[simp] theorem passDir_sec (b : Bound) (i : Nat) (r : RingRec) (q : SeqRec) (s : State) (west : Bool) :
    (passDir b i r q s west).sec = s.sec := by simp [passDir]

@[simp] theorem runRotate_sec (b : Bound) (d : ChurnDesc) (s : State) : (runRotate b d s).sec = s.sec := by
  simp only [runRotate]
  (repeat' split) <;> simp

@[simp] theorem execChurnRotate_sec (die : Nat) (s : State) : outcomeSec s.sec (execChurnRotate die s) = s.sec :=
  churnCmd_sec _ _ _ runRotate_sec

@[simp] theorem strayTile_sec (s : State) (die : Nat) (west : Bool) (tag : Word) : (strayTile s die west tag).sec = s.sec := by
  simp [strayTile]

@[simp] theorem landRing_sec (s : State) (i : Nat) (west : Bool) (r : RingRec) (tile : Bytes) (cur : Bool) (n a : Nat) :
    (landRing s i west r tile cur n a).sec = s.sec := by simp [landRing]

@[simp] theorem execRingTileArrival_sec (die : Nat) (west : Bool) (tile : Bytes) (s : State) :
    outcomeSec s.sec (execRingTileArrival die west tile s) = s.sec := by
  refine onUnit_sec _ _ _ ?_
  dsimp only
  (repeat' split) <;> simp

@[simp] theorem runClose_sec (b : Bound) (d : ChurnDesc) (s : State) : (runClose b d s).sec = s.sec := by
  simp only [runClose]
  split <;> simp

@[simp] theorem execChurnClose_sec (die : Nat) (s : State) : outcomeSec s.sec (execChurnClose die s) = s.sec :=
  churnCmd_sec _ _ _ runClose_sec

/-! ### Address arguments -/

@[simp] theorem argRead_sec (s : State) (a : AddrArg) (n : Nat) : (argRead s a n).1.sec = s.sec := by
  simp only [argRead]
  (repeat' split) <;> simp

@[simp] theorem argWrite_sec (s : State) (a : AddrArg) (b : Bytes) : exceptSec s.sec (argWrite s a b) = s.sec := by
  unfold argWrite
  grind [hostPoke_sec, memWrite_sec, exceptSec]

/-! ### The Zheip fabric -/

@[simp] theorem countPort_sec (s : State) (p off : Nat) (get : Fab → List Word) (put : Fab → List Word → Fab) :
    (countPort s p off get put).sec = s.sec := by simp [countPort]

@[simp] theorem countReplay_sec (s : State) (p : Nat) : (countReplay s p).sec = s.sec := by simp [countReplay]
@[simp] theorem countRetrain_sec (s : State) (p : Nat) : (countRetrain s p).sec = s.sec := by simp [countRetrain]

@[simp] theorem countRouter_sec (s : State) (d off k : Nat) (get : RouterCtr → Word) (put : RouterCtr → Word → RouterCtr) :
    (countRouter s d off k get put).sec = s.sec := by simp [countRouter]

@[simp] theorem countLost_sec (s : State) (d k : Nat) : (countLost s d k).sec = s.sec := by simp [countLost]
@[simp] theorem countBad_sec (s : State) (d : Nat) : (countBad s d).sec = s.sec := by simp [countBad]
@[simp] theorem countNoRoute_sec (s : State) (d : Nat) : (countNoRoute s d).sec = s.sec := by simp [countNoRoute]
@[simp] theorem countHops_sec (s : State) (d : Nat) : (countHops s d).sec = s.sec := by simp [countHops]
@[simp] theorem countStall_sec (s : State) (d : Nat) : (countStall s d).sec = s.sec := by simp [countStall]

@[simp] theorem cableRecheck_sec (s : State) : (cableRecheck s).sec = s.sec := by
  unfold cableRecheck
  split
  · rfl
  · extract_lets rs s1
    split
    · rfl
    · split
      · rfl
      · exact alarm_sec _ _ _

@[simp] theorem opCableCheck_sec (h : HostHdr) (plan report : AddrArg) (s : State) :
    (opCableCheck h plan report s).sec = s.sec := by
  simp only [opCableCheck]
  (repeat' split) <;> grind [argRead_sec, complete_sec, argWrite_sec, cableRecheck_sec, exceptSec]

@[simp] theorem execCableCheck_sec (h : HostHdr) (plan report : AddrArg) (s : State) :
    outcomeSec s.sec (execCableCheck h plan report s) = s.sec :=
  hostCmd_sec _ _ _ _ (by simp)

@[simp] theorem opFabTrain_sec (value : Word) (s : State) : (opFabTrain value s).sec = s.sec := by simp [opFabTrain]

@[simp] theorem execFabTrain_sec (value : Word) (s : State) : outcomeSec s.sec (execFabTrain value s) = s.sec :=
  whenUp_sec (by simp)

@[simp] theorem linkDown_sec (s : State) (l : Nat) (c : LinkCause) : (linkDown s l c).sec = s.sec := by simp [linkDown]
@[simp] theorem usePreset_sec (s : State) (l : Nat) (p : PeerInfo) : (usePreset s l p).sec = s.sec := by simp [usePreset]

@[simp] theorem linkUp_sec (s : State) (l : Nat) : (linkUp s l).sec = s.sec := by
  simp only [linkUp]
  split <;> simp

@[simp] theorem opLinkPhase_sec (l : Nat) (peer : PeerInfo) (s : State) : (opLinkPhase l peer s).sec = s.sec := by
  simp only [opLinkPhase]
  (repeat' split) <;> simp

@[simp] theorem execLinkPhaseDone_sec (link : Nat) (peer : PeerInfo) (s : State) :
    outcomeSec s.sec (execLinkPhaseDone link peer s) = s.sec :=
  onUnit_sec _ _ _ (by simp)

@[simp] theorem execTrainTimeout_sec (link : Nat) (s : State) : outcomeSec s.sec (execTrainTimeout link s) = s.sec := by
  refine onUnit_sec _ _ _ ?_
  dsimp only
  split <;> simp

@[simp] theorem execLinkRestart_sec (link : Nat) (s : State) : outcomeSec s.sec (execLinkRestart link s) = s.sec :=
  onUnit_sec _ _ _ (by simp)

@[simp] theorem execLossOfSignal_sec (link : Nat) (s : State) : outcomeSec s.sec (execLossOfSignal link s) = s.sec := by
  refine onUnit_sec _ _ _ ?_
  split <;> simp

@[simp] theorem pumpLink_sec (s : State) (l : Nat) : (pumpLink s l).sec = s.sec := by simp [pumpLink]
@[simp] theorem queuePacket_sec (s : State) (l : Nat) (p : Packet) : (queuePacket s l p).sec = s.sec := by simp [queuePacket]
@[simp] theorem replay_sec (s : State) (l : Nat) : (replay s l).sec = s.sec := by simp [replay]
@[simp] theorem takeAck_sec (s : State) (l : Nat) (f : Bytes) : (takeAck s l f).sec = s.sec := by simp [takeAck]
@[simp] theorem refuseFrame_sec (s : State) (l : Nat) : (refuseFrame s l).sec = s.sec := by simp [refuseFrame]
@[simp] theorem takeBody_sec (s : State) (l : Nat) (body : Bytes) : (takeBody s l body).sec = s.sec := by simp [takeBody]

@[simp] theorem takeFrameIn_sec (l : Nat) (cells : List (BitVec 544)) (s : State) : (takeFrameIn l cells s).sec = s.sec := by
  unfold takeFrameIn
  split <;> simp

@[simp] theorem opFrameReceive_sec (l : Nat) (cells : List (BitVec 544)) (s : State) :
    (opFrameReceive l cells s).sec = s.sec := by simp [opFrameReceive]

@[simp] theorem execFrameReceive_sec (link : Nat) (cells : List (BitVec 544)) (s : State) :
    outcomeSec s.sec (execFrameReceive link cells s) = s.sec :=
  onUnit_sec _ _ _ (by simp)

@[simp] theorem execReplayTimeout_sec (link : Nat) (s : State) : outcomeSec s.sec (execReplayTimeout link s) = s.sec := by
  unfold execReplayTimeout
  apply onUnit_sec
  dsimp only
  split <;> simp

@[simp] theorem execFabStallExpiry_sec (link vc : Nat) (dl : Bool) (s : State) :
    outcomeSec s.sec (execFabStallExpiry link vc dl s) = s.sec :=
  onUnit_sec _ _ _ (by simp)

@[simp] theorem returnCredits_sec (s : State) (p : Packet) (src : Option Nat) : (returnCredits s p src).sec = s.sec := by
  unfold returnCredits
  split <;> simp

@[simp] theorem deliverPacket_sec (s : State) (die : Nat) (p : Packet) : (deliverPacket s die p).sec = s.sec := by
  simp [deliverPacket]

@[simp] theorem noRoute_sec (s : State) (die tbl idx : Nat) : (noRoute s die tbl idx).sec = s.sec := by simp [noRoute]
@[simp] theorem dlFabric_sec (s : State) (die l : Nat) (p : Packet) : (dlFabric s die l p).sec = s.sec := by simp [dlFabric]

@[simp] theorem routePacket_sec (s : State) (die : Nat) (p : Packet) : (routePacket s die p).sec = s.sec := by
  simp only [routePacket]
  (repeat' split) <;> simp

@[simp] theorem execPacketForward_sec (die : Nat) (s : State) : outcomeSec s.sec (execPacketForward die s) = s.sec := by
  refine onUnit_sec _ _ _ ?_
  (repeat' split) <;> simp

@[simp] theorem opRtEntry_sec (req : Requester) (value : Word) (s : State) : (opRtEntry req value s).sec = s.sec := by
  simp [opRtEntry]

@[simp] theorem execFabRtEntry_sec (req : Requester) (value : Word) (s : State) :
    outcomeSec s.sec (execFabRtEntry req value s) = s.sec :=
  whenUp_sec (by simp)

@[simp] theorem opLshape_sec (which : Nat) (value : Dword) (s : State) : (opLshape which value s).sec = s.sec := by
  unfold opLshape
  (repeat' split) <;> simp

@[simp] theorem execFabLshape_sec (which : Nat) (value : Dword) (s : State) :
    outcomeSec s.sec (execFabLshape which value s) = s.sec := by
  unfold execFabLshape
  grind [whenUp_sec, opLshape_sec, outcomeSec]

@[simp] theorem execDisc_sec (link : Nat) (rec : DiscRec) (s : State) : outcomeSec s.sec (execDisc link rec s) = s.sec := by
  refine onUnit_sec _ _ _ ?_
  split <;> simp

@[simp] theorem opDiscover_sec (value : Word) (s : State) : (opDiscover value s).sec = s.sec := by simp [opDiscover]

@[simp] theorem execFabDiscover_sec (value : Word) (s : State) : outcomeSec s.sec (execFabDiscover value s) = s.sec :=
  whenUp_sec (by simp)

@[simp] theorem eqxLost_sec (s : State) : (eqxLost s).sec = s.sec := by simp [eqxLost]
@[simp] theorem execEqxInterval_sec (s : State) : outcomeSec s.sec (execEqxInterval s) = s.sec := by simp [execEqxInterval]

@[simp] theorem execEqxRequest_sec (link t1 : Nat) (s : State) : outcomeSec s.sec (execEqxRequest link t1 s) = s.sec :=
  onUnit_sec _ _ _ (by simp)

@[simp] theorem opEqxReply_sec (t1 t2 t3 t4 : Nat) (sync : Bool) (s : State) : (opEqxReply t1 t2 t3 t4 sync s).sec = s.sec := by
  unfold opEqxReply
  (repeat' split) <;> simp

@[simp] theorem execEqxReply_sec (t1 t2 t3 t4 : Nat) (sync : Bool) (s : State) :
    outcomeSec s.sec (execEqxReply t1 t2 t3 t4 sync s) = s.sec := by simp [execEqxReply]

@[simp] theorem execEqxLockLoss_sec (s : State) : outcomeSec s.sec (execEqxLockLoss s) = s.sec := by simp [execEqxLockLoss]
@[simp] theorem opEqxSet_sec (value : Dword) (s : State) : (opEqxSet value s).sec = s.sec := by simp [opEqxSet]

@[simp] theorem execFabEqxSet_sec (value : Dword) (s : State) : outcomeSec s.sec (execFabEqxSet value s) = s.sec :=
  whenUp_sec (by simp)

/-! ### Rings, doorbells, interrupts and the lock of set-up -/

@[simp] theorem opRingCreate_sec (h : HostHdr) (desc : BitVec 256) (s : State) : (opRingCreate h desc s).sec = s.sec := by
  simp [opRingCreate]

@[simp] theorem execRingCreate_sec (h : HostHdr) (desc : BitVec 256) (s : State) :
    outcomeSec s.sec (execRingCreate h desc s) = s.sec :=
  hostCmd_sec _ _ _ _ (by simp)

@[simp] theorem opRingDelete_sec (h : HostHdr) (ring : Nat) (s : State) : (opRingDelete h ring s).sec = s.sec := by
  unfold opRingDelete
  split <;> simp

@[simp] theorem execRingDelete_sec (h : HostHdr) (ring : Nat) (s : State) :
    outcomeSec s.sec (execRingDelete h ring s) = s.sec :=
  hostCmd_sec _ _ _ _ (by simp)

@[simp] theorem countDbErr_sec (s : State) : (countDbErr s).sec = s.sec := by simp [countDbErr]
@[simp] theorem countRingErr_sec (s : State) : (countRingErr s).sec = s.sec := by simp [countRingErr]

@[simp] theorem wakeEvent_sec (s : State) : (wakeEvent s).sec = s.sec := by
  unfold wakeEvent
  split <;> simp

theorem doorbell_sec (s : State) (fn ring width : Nat) {f : Ring → State} (hf : ∀ x, (f x).sec = s.sec) :
    outcomeSec s.sec (doorbell s fn ring width f) = s.sec := by
  unfold doorbell
  (repeat' split) <;> simp [hf]

@[simp] theorem execSqTail_sec (fn ring width : Nat) (value : Word) (s : State) :
    outcomeSec s.sec (execSqTail fn ring width value s) = s.sec :=
  doorbell_sec _ _ _ _ fun _ => by simp

@[simp] theorem execCqHead_sec (fn ring width : Nat) (value : Word) (s : State) :
    outcomeSec s.sec (execCqHead fn ring width value s) = s.sec :=
  doorbell_sec _ _ _ _ fun _ => by simp

@[simp] theorem execMsixModerationExpiry_sec (fn ring : Nat) (s : State) :
    outcomeSec s.sec (execMsixModerationExpiry fn ring s) = s.sec := by
  unfold execMsixModerationExpiry
  (repeat' split) <;> simp

@[simp] theorem unmask_sec (fn vector : Nat) (s : State) : (unmask fn vector s).sec = s.sec := by simp [unmask]

@[simp] theorem execMsixVectorUnmask_sec (fn vector : Nat) (s : State) :
    outcomeSec s.sec (execMsixVectorUnmask fn vector s) = s.sec := by
  unfold execMsixVectorUnmask
  grind [onUnit_sec, unmask_sec, outcomeSec]

@[simp] theorem opSetupLock_sec (value : Word) (s : State) : (opSetupLock value s).sec = s.sec := by simp [opSetupLock]

@[simp] theorem execHifSetupLock_sec (value : Word) (s : State) : outcomeSec s.sec (execHifSetupLock value s) = s.sec :=
  whenUp_sec (by simp)

@[simp] theorem opRing0_sec (fn word : Nat) (value : Dword) (s : State) : (opRing0 fn word value s).sec = s.sec := by
  simp [opRing0]

@[simp] theorem execHifRing0_sec (fn word : Nat) (value : Dword) (s : State) :
    outcomeSec s.sec (execHifRing0 fn word value s) = s.sec := by
  unfold execHifRing0
  grind [whenUp_sec, opRing0_sec, outcomeSec]

@[simp] theorem execPcieLinkRetrain_sec (rate lanes : Nat) (flit : Bool) (s : State) :
    outcomeSec s.sec (execPcieLinkRetrain rate lanes flit s) = s.sec := by simp [execPcieLinkRetrain]

@[simp] theorem execConfigurationRequest_sec (s : State) : outcomeSec s.sec (execConfigurationRequest s) = s.sec := by
  unfold execConfigurationRequest
  split <;> simp

/-! ### Small transfers of the control cores -/

@[simp] theorem pushQid_sec (s : State) (qid : Nat) (h : Handle) : (pushQid s qid h).secOr s.sec = s.sec := by
  unfold pushQid
  (repeat' split) <;> simp

@[simp] theorem execSmallTransfer_sec (cluster slotAddr : Nat) (cmd : BitVec 256) (s : State) :
    outcomeSec s.sec (execSmallTransfer cluster slotAddr cmd s) = s.sec :=
  onUnit_sec _ _ _ (by simp)

@[simp] theorem smallRead_sec (s : State) (cluster : Nat) (c : SmallCmd) : (smallRead s cluster c).1.sec = s.sec := by
  simp only [smallRead]
  (repeat' split) <;> simp

@[simp] theorem smallWrite_sec (s : State) (cluster : Nat) (c : SmallCmd) (d : Bytes) :
    exceptSec s.sec (smallWrite s cluster c d) = s.sec := by
  unfold smallWrite
  grind [hostPoke_sec, writeAny_sec, dlCtrl_sec, exceptSec]

@[simp] theorem smallEnd_sec (s : State) (cluster : Nat) (c : SmallCmd) (st : Status) :
    (smallEnd s cluster c st).sec = s.sec := by simp [smallEnd]

@[simp] theorem smallRun_sec (s : State) (cluster : Nat) (c : SmallCmd) : (smallRun s cluster c).sec = s.sec := by
  unfold smallRun
  grind [smallEnd_sec, tick1_sec, smallRead_sec, pushQid_sec, smallWrite_sec, QidPush.secOr, exceptSec]

@[simp] theorem execSmallTransferDone_sec (cluster : Nat) (s : State) :
    outcomeSec s.sec (execSmallTransferDone cluster s) = s.sec := by
  refine onUnit_sec _ _ _ ?_
  split <;> simp

/-! ### The MMA work descriptor, fused chains and block attention -/

@[simp] theorem readSeen_sec (s : State) (a n : Nat) (on : Nat → Bool) : (readSeen s a n on).1.sec = s.sec := by
  simp only [readSeen]
  (repeat' split) <;> simp

@[simp] theorem takeBytes_sec (s : State) (h : Handle) (n : Nat) (on : Nat → Bool) :
    ((takeBytes s h n on).map (·.st.sec)).getD s.sec = s.sec := by
  simp only [takeBytes]
  (repeat' split) <;> simp

@[simp] theorem mmaCut_sec (s : State) (b : Bound) (p : MmaPart) (st : Status) : (mmaCut s b p st).sec = s.sec := by simp [mmaCut]

@[simp] theorem mmaHalt_sec (s : State) (b : Bound) (p : MmaPart) (st : Status) : (mmaHalt s b p st).sec = s.sec := by
  simp [mmaHalt]

@[simp] theorem readExt_sec (s : State) (d : MmaDesc) : (readExt s d).1.sec = s.sec := by
  simp only [readExt]
  (repeat' split) <;> simp

@[simp] theorem takeMask_sec (s : State) (p : MmaPart) (ports : List Nat) (h : Handle) :
    (takeMask s p ports h).secOr s.sec = s.sec := by
  simp only [takeMask]
  (repeat' split) <;> simp

@[simp] theorem popStep_sec (s : State) (b : Bound) (d : MmaDesc) (f : Option FuseRec) (p : MmaPart) (k : PopKind) :
    (popStep s b d f p k).secOr s.sec = s.sec := by
  unfold popStep
  grind [takeMask_sec, popAll_sec, PopStep.secOr]

@[simp] theorem readHandles_sec (rows : Nat) (on : Nat → Bool) (ports : List Nat) (s : State) (hs : List Handle)
    (rbs : List Nat) : ((readHandles rows on ports s hs rbs).map (·.1.sec)).getD s.sec = s.sec := by
  fun_induction readHandles <;> grind [takeBytes_sec, Option.map_map, Function.comp_def]

@[simp] theorem useNext_sec (s : State) (b : Bound) (d : MmaDesc) (f : Option FuseRec) (p : MmaPart) (e : Nat × Nat × Nat)
    (k : PopKind) : ((useNext s b d f p e k).map (·.1.sec)).getD s.sec = s.sec := by
  unfold useNext
  grind [releaseAll_sec, readHandles_sec]

@[simp] theorem useReady_sec (b : Bound) (d : MmaDesc) (f : Option FuseRec) (e : Nat × Nat × Nat) (n : Nat) (s : State)
    (p : MmaPart) : (useReady b d f e n s p).secOr s.sec = s.sec := by
  fun_induction useReady <;> grind [useNext_sec, PopStep.secOr]

@[simp] theorem popKind_sec (b : Bound) (d : MmaDesc) (f : Option FuseRec) (e : Nat × Nat × Nat) (k : PopKind) (s : State)
    (p : MmaPart) : (popKind b d f e k s p).secOr s.sec = s.sec := by
  unfold popKind
  grind [waitInputs_sec, useReady_sec, popStep_sec, PopStep.secOr]

@[simp] theorem popKinds_sec (b : Bound) (d : MmaDesc) (f : Option FuseRec) (e : Nat × Nat × Nat) (l) (s : State) (p : MmaPart) :
    (popKinds b d f e l s p).secOr s.sec = s.sec := by
  fun_induction popKinds <;> grind [popKind_sec, PopStep.secOr]

@[simp] theorem popTurns_sec (b : Bound) (d : MmaDesc) (f : Option FuseRec) (e : Nat × Nat × Nat) (n) (s : State) (p : MmaPart) :
    (popTurns b d f e n s p).secOr s.sec = s.sec := by
  fun_induction popTurns <;> grind [popKinds_sec, PopStep.secOr]

@[simp] theorem useHeld_sec (s : State) (x : Core) (d : MmaDesc) (f : Option FuseRec) (p : MmaPart) (e : Nat × Nat × Nat) :
    ((useHeld s x d f p e).map (·.1.sec)).getD s.sec = s.sec := by
  unfold useHeld
  grind [readHandles_sec, Option.map_map, Function.comp_def]

@[simp] theorem updateHolds_sec (s : State) (core : Nat) (d : MmaDesc) (p : MmaPart) : (updateHolds s core d p).sec = s.sec := by
  simp [updateHolds]

@[simp] theorem useLate_sec (s : State) (b : Bound) (d : MmaDesc) (f : Option FuseRec) (p : MmaPart) (e : Nat × Nat × Nat) :
    ((useLate s b d f p e).map (·.1.sec)).getD s.sec = s.sec := by
  unfold useLate
  extract_lets en live stats rc
  have hrc : (rc.map (·.1.sec)).getD s.sec = s.sec := by
    simp only [rc]
    grind [readHandles_sec, takeBytes_sec, Option.map_map, Function.comp_def]
  clear_value rc
  cases rc with
  | none => rfl
  | some q =>
    have hq : q.1.sec = s.sec := hrc
    grind [readHandles_sec, takeBytes_sec, Option.map_map, Function.comp_def]

@[simp] theorem drawBuffer_sec (s : State) (b : Bound) (port n : Nat) : (drawBuffer s b port n).secOr s.sec = s.sec := by
  unfold drawBuffer
  grind [takeBuffer_sec, Drawn.secOr]

@[simp] theorem raise_sec (s : State) (core : Nat) (f : Fl3) : (raise s core f).sec = s.sec := by simp [raise]
@[simp] theorem mmaEnd_sec (s : State) (b : Bound) (d : MmaDesc) (st : Status) : (mmaEnd s b d st).sec = s.sec := by simp [mmaEnd]
@[simp] theorem noteTile_sec (s : State) (addr rowB : Nat) : (noteTile s addr rowB).sec = s.sec := by simp [noteTile]

@[simp] theorem mmaPush_sec (s : State) (b : Bound) (d : MmaDesc) (tag : Half) (o : MmaOut) :
    (mmaPush s b d tag o).secOr s.sec = s.sec := by
  unfold mmaPush
  grind [memWrite_sec, noteTile_sec, emit_sec, drawBuffer_sec, Drawn.secOr]

@[simp] theorem mmaPushOut_sec (s : State) (b : Bound) (d : MmaDesc) (p : MmaPart) (o : MmaOut) :
    (mmaPushOut s b d p o).sec = s.sec := by
  unfold mmaPushOut
  grind [emit_sec, mmaPush_sec, mmaEnd_sec, Drawn.secOr]

@[simp] theorem setChain_sec (s : State) (core : Nat) (c : Option Chain) : (setChain s core c).sec = s.sec := by simp [setChain]

@[simp] theorem mmaClose_sec (s : State) (b : Bound) (d : MmaDesc) (p : MmaPart) (r : MmaRes) :
    (mmaClose s b d p r).sec = s.sec := by simp [mmaClose]

@[simp] theorem mmaFinish_sec (s : State) (b : Bound) (d : MmaDesc) (f : Option FuseRec) (p : MmaPart) (e : Nat × Nat × Nat) :
    (mmaFinish s b d f p e).sec = s.sec := by
  unfold mmaFinish
  grind [mmaClose_sec, useLate_sec, mmaHalt_sec, useHeld_sec]

@[simp] theorem saveBack_sec (s : State) (b : Bound) (p : MmaPart) : (saveBack s b p).sec = s.sec := by simp [saveBack]

@[simp] theorem mmaGo_sec (s : State) (b : Bound) (d : MmaDesc) (f : Option FuseRec) (p : MmaPart) (e : Nat × Nat × Nat) :
    (mmaGo s b d f p e).sec = s.sec := by
  unfold mmaGo
  grind [mmaHalt_sec, saveBack_sec, mmaCut_sec, popTurns_sec, mmaFinish_sec, PopStep.secOr]

@[simp] theorem mmaShape_sec (s : State) (b : Bound) (d : MmaDesc) (f : Option FuseRec) (p : MmaPart) :
    (mmaShape s b d f p).sec = s.sec := by
  unfold mmaShape
  grind [mmaHalt_sec, mmaGo_sec, useReady_sec, mmaCut_sec, readExt_sec, PopStep.secOr]

@[simp] theorem mmaAnchor_sec (s : State) (b : Bound) (d : MmaDesc) (f : Option FuseRec) (p : MmaPart) :
    (mmaAnchor s b d f p).sec = s.sec := by
  unfold mmaAnchor
  grind [mmaShape_sec, mmaHalt_sec, waitInputs_sec, saveBack_sec, mmaCut_sec, popStep_sec, PopStep.secOr]

@[simp] theorem loadPred_sec (s : State) (b : Bound) (d : MmaDesc) : ((loadPred s b d).map (·.1.sec)).getD s.sec = s.sec := by
  simp only [loadPred]
  (repeat' split) <;> simp

@[simp] theorem readFuse_sec (s : State) (x : Core) (d : MmaDesc) : (readFuse s x d).1.sec = s.sec := by
  simp only [readFuse]
  (repeat' split) <;> simp

@[simp] theorem mmaStart_sec (s : State) (b : Bound) : (mmaStart s b).sec = s.sec := by
  unfold mmaStart
  grind [ctrlRead_sec, readFuse_sec, loadPred_sec, haltStation_sec, mmaHalt_sec, mmaAnchor_sec]

@[simp] theorem execMmaDescriptor_sec (core : Nat) (s : State) : outcomeSec s.sec (execMmaDescriptor core s) = s.sec := by
  refine onUnit_sec _ _ _ ?_
  (repeat' split) <;> simp

/-! ### The Whey store -/

@[simp] theorem allocObj_sec (s : State) (o : Nat) : (allocObj s o).sec = s.sec := by simp [allocObj]
@[simp] theorem freeObj_sec (s : State) (o : Nat) : (freeObj s o).sec = s.sec := by simp [freeObj]

@[simp] theorem opFlsPool_sec (pool : Nat) (value : Dword) (s : State) : (opFlsPool pool value s).sec = s.sec := by
  simp [opFlsPool]

@[simp] theorem execFlsPool_sec (pool : Nat) (value : Dword) (s : State) :
    outcomeSec s.sec (execFlsPool pool value s) = s.sec := by
  unfold execFlsPool
  grind [opFlsPool_sec, whenUp_sec, outcomeSec]

@[simp] theorem channelUe_sec (s : State) (c arg : Nat) : (channelUe s c arg).sec = s.sec := by simp [channelUe]
@[simp] theorem flashUe_sec (s : State) (o k : Nat) : (flashUe s o k).sec = s.sec := by simp [flashUe]
@[simp] theorem flashCe_sec (s : State) (o k : Nat) : (flashCe s o k).sec = s.sec := by simp [flashCe]
@[simp] theorem moreReloc_sec (s : State) (c : Nat) : (moreReloc s c).sec = s.sec := by simp [moreReloc]
@[simp] theorem flashDecay_sec (s : State) (o n : Nat) : (flashDecay s o n).sec = s.sec := by simp [flashDecay]
@[simp] theorem flashDisturb_sec (s : State) (o n : Nat) : (flashDisturb s o n).sec = s.sec := by simp [flashDisturb]

@[simp] theorem readWord_sec (o : Nat) (bad soft : List Nat) (s : State) (k : Nat) : (readWord o bad soft s k).sec = s.sec := by
  simp [readWord]

@[simp] theorem flashReadAs_sec (s : State) (o n : Nat) (bad soft : List Nat) : (flashReadAs s o n bad soft).1.sec = s.sec := by
  simp [flashReadAs]

@[simp] theorem flashRead_sec (s : State) (o n : Nat) : (flashRead s o n).1.sec = s.sec := by simp [flashRead]
@[simp] theorem layerProgram_sec (s : State) (n : Nat) : (layerProgram s n).sec = s.sec := by simp [layerProgram]
@[simp] theorem storeObj_sec (s : State) (o : Nat) (b : Bytes) : (storeObj s o b).sec = s.sec := by simp [storeObj]

@[simp] theorem wheyStatus_sec (s : State) (a : AddrArg) (st : Status) : (wheyStatus s a st).sec = s.sec := by
  unfold wheyStatus
  grind [argWrite_sec, exceptSec]

@[simp] theorem wheyAnswer_sec (s : State) (cmd : Option (Nat × HostHdr)) (st : Status) : (wheyAnswer s cmd st).sec = s.sec := by
  unfold wheyAnswer
  split <;> simp

@[simp] theorem wheyQueue_sec (s : State) (a : AddrArg) (cmd : Option (Nat × HostHdr)) (x : WheyRec) (ran : Bool) (st : Status)
    (outs : List Status) : (wheyQueue s a cmd x ran st outs).sec = s.sec := by simp [wheyQueue]

@[simp] theorem wheyRefuse_sec (s : State) (a : AddrArg) (cmd : Option (Nat × HostHdr)) (x : WheyRec) (st : Status) :
    (wheyRefuse s a cmd x st).sec = s.sec := by simp [wheyRefuse]

@[simp] theorem wheySubmit_sec (s : State) (a : AddrArg) (cmd : Option (Nat × HostHdr)) : (wheySubmit s a cmd).sec = s.sec := by
  simp only [wheySubmit]
  split <;> simp

@[simp] theorem opWheyXfer_sec (h : HostHdr) (rec : AddrArg) (s : State) : (opWheyXfer h rec s).sec = s.sec := by
  simp [opWheyXfer]

@[simp] theorem execWheyXfer_sec (h : HostHdr) (rec : AddrArg) (s : State) : outcomeSec s.sec (execWheyXfer h rec s) = s.sec :=
  hostCmd_sec _ _ _ _ (by simp)

@[simp] theorem execFlsWheyPost_sec (cluster addr : Nat) (s : State) :
    outcomeSec s.sec (execFlsWheyPost cluster addr s) = s.sec := by
  unfold execFlsWheyPost
  grind [wheySubmit_sec, whenUp_sec, outcomeSec]

@[simp] theorem modXfer_sec (s : State) (id : Nat) (f : Xfer → Xfer) : (modXfer s id f).sec = s.sec := by simp [modXfer]

theorem xferRun_sec (s : State) (id op : Nat) {run : Xfer → State → State} (hr : ∀ x t, (run x t).sec = t.sec) :
    outcomeSec s.sec (xferRun s id op run) = s.sec := by
  unfold xferRun
  (repeat' split) <;> simp [hr]

@[simp] theorem xferEnds_sec (s : State) (x : Xfer) (st : Status) (outs : List Status) : (xferEnds s x st outs).sec = s.sec := by
  simp [xferEnds]

@[simp] theorem runPut_sec (x : Xfer) (s : State) : (runPut x s).sec = s.sec := by
  simp only [runPut]
  (repeat' split) <;> simp

@[simp] theorem execWheyPut_sec (xfer : Nat) (s : State) : outcomeSec s.sec (execWheyPut xfer s) = s.sec :=
  xferRun_sec _ _ _ runPut_sec

@[simp] theorem runGet_sec (x : Xfer) (s : State) : (runGet x s).sec = s.sec := by
  unfold runGet
  split <;> simp

@[simp] theorem execWheyGet_sec (xfer : Nat) (s : State) : outcomeSec s.sec (execWheyGet xfer s) = s.sec :=
  xferRun_sec _ _ _ runGet_sec

@[simp] theorem pageHeld_sec (s : State) (q : SeqRec) (p : Pte) : (pageHeld s q p).1.sec = s.sec := by
  simp only [pageHeld]
  (repeat' split) <;> simp

@[simp] theorem moveOutEntry_sec (s : State) (e : MoveEntry) : (moveOutEntry s e).1.sec = s.sec := by
  simp only [moveOutEntry]
  (repeat' split) <;> simp

@[simp] theorem moveInEntry_sec (s : State) (e : MoveEntry) : (moveInEntry s e).1.sec = s.sec := by
  simp only [moveInEntry]
  (repeat' split) <;> simp

theorem moveWalk_sec {f : State → MoveEntry → State × Status} (hf : ∀ t e, (f t e).1.sec = t.sec) (list n i : Nat) (s : State) :
    (moveWalk f list n i s).1.sec = s.sec := by
  induction n generalizing i s with
  | zero => rfl
  | succ n ih =>
    simp only [moveWalk]
    (repeat' split) <;> simp [ih, hf]

theorem runMove_sec {f : State → MoveEntry → State × Status} (hf : ∀ t e, (f t e).1.sec = t.sec) (x : Xfer) (s : State) :
    (runMove f x s).sec = s.sec := by
  simp only [runMove]
  (repeat' split) <;> simp [moveWalk_sec hf]

@[simp] theorem execWheyMoveOut_sec (xfer : Nat) (s : State) : outcomeSec s.sec (execWheyMoveOut xfer s) = s.sec :=
  xferRun_sec _ _ _ (runMove_sec moveOutEntry_sec)

@[simp] theorem execWheyMoveIn_sec (xfer : Nat) (s : State) : outcomeSec s.sec (execWheyMoveIn xfer s) = s.sec :=
  xferRun_sec _ _ _ (runMove_sec moveInEntry_sec)

@[simp] theorem takeSlots_sec (p n : Nat) (s : State) : (takeSlots p n s).1.sec = s.sec := by
  induction n generalizing s with
  | zero => rfl
  | succ n ih =>
    simp only [takeSlots]
    split <;> simp [ih]

@[simp] theorem runAlloc_sec (x : Xfer) (s : State) : (runAlloc x s).sec = s.sec := by simp [runAlloc]

@[simp] theorem execWheyAlloc_sec (xfer : Nat) (s : State) : outcomeSec s.sec (execWheyAlloc xfer s) = s.sec :=
  xferRun_sec _ _ _ runAlloc_sec

@[simp] theorem runFree_sec (x : Xfer) (s : State) : (runFree x s).sec = s.sec := by
  simp only [runFree]
  (repeat' split) <;> simp

@[simp] theorem execWheyFree_sec (xfer : Nat) (s : State) : outcomeSec s.sec (execWheyFree xfer s) = s.sec :=
  xferRun_sec _ _ _ runFree_sec

@[simp] theorem wheyPush_sec (x : Xfer) (l : List Status) (s : State) : (wheyPush x l s).1.sec = s.sec := by
  fun_induction wheyPush <;> grind [pushQid_sec, tick1_sec, QidPush.secOr]

@[simp] theorem execWheyTransferDone_sec (xfer : Nat) (s : State) : outcomeSec s.sec (execWheyTransferDone xfer s) = s.sec := by
  unfold execWheyTransferDone
  split <;> simp

@[simp] theorem execFlashScanDone_sec (s : State) : outcomeSec s.sec (execFlashScanDone s) = s.sec := by simp [execFlashScanDone]
@[simp] theorem enterReadonly_sec (s : State) (c : Nat) : (enterReadonly s c).sec = s.sec := by simp [enterReadonly]
@[simp] theorem wearMore_sec (s : State) (c : Nat) : (wearMore s c).sec = s.sec := by simp [wearMore]
@[simp] theorem moreProgrammed_sec (s : State) : (moreProgrammed s).sec = s.sec := by simp [moreProgrammed]

@[simp] theorem execFlashUpkeep_sec (channel : Nat) (what : Upkeep) (s : State) :
    outcomeSec s.sec (execFlashUpkeep channel what s) = s.sec := by
  refine onUnit_sec _ _ _ ?_
  (repeat' split) <;> simp

/-! ### Attention inside the stacks -/

@[simp] theorem arriveTile_sec (s : State) (k : Nat) (j : SsaJob) (h : Handle) : (arriveTile s k j h).1.sec = s.sec := by
  simp only [arriveTile]
  (repeat' split) <;> simp

@[simp] theorem ssaHalt_sec (s : State) (k : Nat) (b : Bound) (st : Status) : (ssaHalt s k b st).sec = s.sec := by simp [ssaHalt]

@[simp] theorem retakeTiles_sec (k : Nat) (s : State) (j : SsaJob) (l : List Handle) : (retakeTiles k s j l).1.sec = s.sec := by
  induction l generalizing s j with
  | nil => rfl
  | cons p t ih =>
    simp only [retakeTiles]
    split <;> simp [ih]

@[simp] theorem ssaRerun_sec (s : State) (k : Nat) (b : Bound) (j : SsaJob) : (ssaRerun s k b j).sec = s.sec := by
  simp only [ssaRerun]
  split <;> simp

@[simp] theorem ssaOpen_sec (s : State) (k : Nat) (b : Bound) : (ssaOpen s k b).sec = s.sec := by
  simp only [ssaOpen]
  split <;> simp

@[simp] theorem execSsaAttend_sec (stack : Nat) (s : State) : outcomeSec s.sec (execSsaAttend stack s) = s.sec := by
  refine onUnit_sec _ _ _ ?_
  (repeat' split) <;> simp

@[simp] theorem execDescriptorTileArrival_sec (stack : Nat) (s : State) :
    outcomeSec s.sec (execDescriptorTileArrival stack s) = s.sec := by
  refine onUnit_sec _ _ _ ?_
  grind [arriveTile_sec, setJob_sec, waitInputs_sec, popHandle_sec, ssaHalt_sec]

@[simp] theorem loadPage_sec (s : State) (p : PageDesc) : (loadPage s p).1.sec = s.sec := by
  simp only [loadPage]
  (repeat' split) <;> simp

@[simp] theorem loadPages_sec (s : State) (l : List PageDesc) : (loadPages s l).1.sec = s.sec := by
  induction l generalizing s with
  | nil => rfl
  | cons p t ih => simp [loadPages, ih]

@[simp] theorem pageRow_sec (s : State) (p : PageDesc) (body : PageBody) (half t : Nat) :
    (pageRow s p body half t).1.sec = s.sec := by
  simp only [pageRow]
  (repeat' split) <;> simp

@[simp] theorem readSlot_sec (s : State) (p : PageDesc) (body : PageBody) (t : Nat) : (readSlot s p body t).1.sec = s.sec := by
  unfold readSlot
  rw [foldl_fst_sec]
  simp

@[simp] theorem readColumns_sec (s : State) (l : List (PageDesc × PageBody × Nat)) : (readColumns s l).1.sec = s.sec := by
  induction l generalizing s with
  | nil => rfl
  | cons p t ih =>
    simp only [readColumns]
    split <;> simp [ih]

@[simp] theorem foldTile_sec (a : FoldArgs) (s : State) (k : Nat) (x : Folding) (tile : List (PageDesc × PageBody × Nat)) :
    (foldTile a s k x tile).1.sec = s.sec := by simp [foldTile]

@[simp] theorem foldTiles_sec (a : FoldArgs) (k : Nat) (s : State) (x : Folding) (l : List (List (PageDesc × PageBody × Nat))) :
    (foldTiles a k s x l).1.sec = s.sec := by
  induction l generalizing s x with
  | nil => rfl
  | cons p t ih => simp [foldTiles, ih]

@[simp] theorem ssaPush_sec (s : State) (b : Bound) (port : Nat) (tag : Half) (st : Status) (data : Bytes) :
    (ssaPush s b port tag st data).secOr s.sec = s.sec := by
  unfold ssaPush
  grind [memWrite_sec, emit_sec, drawBuffer_sec, Drawn.secOr]

@[simp] theorem ssaPushes_sec (b : Bound) (tag : Half) (st : Status) (s : State) (l) :
    (ssaPushes b tag st s l).secOr s.sec = s.sec := by
  fun_induction ssaPushes <;> grind [ssaPush_sec, Drawn.secOr, JobPush.secOr]

@[simp] theorem ssaDone_sec (s : State) (k : Nat) (b : Bound) (j : SsaJob) (st : Status) : (ssaDone s k b j st).sec = s.sec := by
  simp [ssaDone]

@[simp] theorem ssaCarry_sec (s : State) (k : Nat) (b : Bound) (j : SsaJob) (st : Status) :
    (ssaCarry s k b j st).sec = s.sec := by
  unfold ssaCarry
  grind [ssaDone_sec, tick1_sec, ssaPushes_sec, ssaHalt_sec, JobPush.secOr]

theorem ssaFoldGo_sec (s : State) (k : Nat) (b : Bound) (j : SsaJob) (h : TileHdr) (qpos0 : Nat) {t : State} (hq rows : Nat)
    (q : Bytes) (ht : t.sec = s.sec) : (ssaFold.go s k b j h qpos0 t hq rows q).sec = s.sec := by
  simp only [ssaFold.go]
  split
  · rfl
  · simp
  · grind [ssaPushes_sec, JobPush.secOr, ssaDone_sec, setSsaFlags_sec, foldTiles_sec, loadPages_sec]

@[simp] theorem ssaFold_sec (s : State) (k : Nat) (b : Bound) (j : SsaJob) (h : TileHdr) (qpos0 qt : Nat) :
    (ssaFold s k b j h qpos0 qt).sec = s.sec := by
  simp only [ssaFold]
  (repeat' split) <;> simp [ssaFoldGo_sec]

@[simp] theorem ssaEnd_sec (s : State) (k : Nat) (b : Bound) (j : SsaJob) : (ssaEnd s k b j).sec = s.sec := by
  simp only [ssaEnd]
  (repeat' split) <;> simp

@[simp] theorem execSsaJobClose_sec (stack : Nat) (s : State) : outcomeSec s.sec (execSsaJobClose stack s) = s.sec := by
  refine onUnit_sec _ _ _ ?_
  split <;> simp

/-! ### Batches, queries, Harvest and merging -/

@[simp] theorem modIndex_sec (s : State) (n : Nat) (f : Index → Index) : (modIndex s n f).sec = s.sec := by simp [modIndex]

@[simp] theorem idxCount_sec (s : State) (n : Nat) (c : IdxCtr) (k : Nat) : (idxCount s n c k).sec = s.sec := by
  unfold idxCount
  split <;> simp

@[simp] theorem modJob_sec (s : State) (b : Bound) (f : ScanJob → ScanJob) : (modJob s b f).sec = s.sec := by simp [modJob]
@[simp] theorem dropJob_sec (s : State) (b : Bound) : (dropJob s b).sec = s.sec := by simp [dropJob]

theorem scanCmd_sec (channel op : Nat) (ports : Bool) {run : State → Bound → ScanDesc → State} (s : State)
    (hr : ∀ t b d, (run t b d).sec = t.sec) : outcomeSec s.sec (scanCmd channel op ports run s) = s.sec := by
  unfold scanCmd
  apply onUnit_sec
  dsimp only
  (repeat' split) <;> simp [hr]

@[simp] theorem scanEnd_sec (s : State) (b : Bound) (notify : Bool) (st : Status) : (scanEnd s b notify st).sec = s.sec := by
  simp [scanEnd]

theorem scanPass_sec {s t : State} (b : Bound) (d : ScanDesc) (h : Handle) (ht : t.sec = s.sec) :
    (scanPass s t b d h).sec = s.sec := by
  simp only [scanPass]
  (repeat' split) <;> grind [scanEnd_sec, emit_sec, ssaPush_sec, tick1_sec, haltStation_sec, release_sec, Drawn.secOr]

@[simp] theorem runCreate_sec (s : State) (b : Bound) (d : ScanDesc) : (runCreate s b d).sec = s.sec := by
  simp only [runCreate]
  split <;> simp

@[simp] theorem execScanCreate_sec (channel : Nat) (s : State) : outcomeSec s.sec (execScanCreate channel s) = s.sec :=
  scanCmd_sec _ _ _ _ runCreate_sec

@[simp] theorem runDestroy_sec (s : State) (b : Bound) (d : ScanDesc) : (runDestroy s b d).sec = s.sec := by
  unfold runDestroy
  split <;> simp

@[simp] theorem execScanDestroy_sec (channel : Nat) (s : State) : outcomeSec s.sec (execScanDestroy channel s) = s.sec :=
  scanCmd_sec _ _ _ _ runDestroy_sec

@[simp] theorem batchEntry_sec (n g : Nat) (insert : Bool) (a : State × List Nat) (e : Nat × Dword × Nat) :
    (batchEntry n g insert a e).1.sec = a.1.sec := by
  simp only [batchEntry]
  (repeat' split) <;> simp

@[simp] theorem runBatch_sec (insert : Bool) (s : State) (b : Bound) (d : ScanDesc) : (runBatch insert s b d).sec = s.sec := by
  have hp := popHandle_sec s b.slot b.idx 0
  simp only [runBatch]
  split
  · rfl
  · split
    · rfl
    · split
      · simp
      · split
        · simp
        · next t h ht =>
          have ht : t.sec = s.sec := by simpa [ht] using hp
          (repeat' split) <;> simp [scanPass_sec, ht]

@[simp] theorem execScanInsert_sec (channel : Nat) (s : State) : outcomeSec s.sec (execScanInsert channel s) = s.sec :=
  scanCmd_sec _ _ _ _ (runBatch_sec _)

@[simp] theorem execScanDelete_sec (channel : Nat) (s : State) : outcomeSec s.sec (execScanDelete channel s) = s.sec :=
  scanCmd_sec _ _ _ _ (runBatch_sec _)

@[simp] theorem batchPush_sec (s : State) (n : Nat) (k : Batch) : (batchPush s n k).sec = s.sec := by
  unfold batchPush
  split <;> simp

@[simp] theorem execIndexBatchDurable_sec (index : Nat) (s : State) :
    outcomeSec s.sec (execIndexBatchDurable index s) = s.sec := by
  unfold execIndexBatchDurable
  split <;> simp

@[simp] theorem runHarvest_sec (s : State) (b : Bound) (d : ScanDesc) : (runHarvest s b d).sec = s.sec := by
  unfold runHarvest
  split <;> simp

@[simp] theorem execScanHarvest_sec (channel : Nat) (s : State) : outcomeSec s.sec (execScanHarvest channel s) = s.sec :=
  scanCmd_sec _ _ _ _ runHarvest_sec

@[simp] theorem execHarvestDone_sec (index : Nat) (s : State) : outcomeSec s.sec (execHarvestDone index s) = s.sec := by
  simp only [execHarvestDone]
  (repeat' split) <;> simp

@[simp] theorem countQueries_sec (s : State) (n : Nat) : (countQueries s n).sec = s.sec := by simp [countQueries]

@[simp] theorem jobEnd_sec (s : State) (b : Bound) (j : ScanJob) : (jobEnd s b j).sec = s.sec := by
  unfold jobEnd
  grind [haltStation_sec, scanEnd_sec, dropJob_sec, release_sec, ssaPush_sec, Drawn.secOr]

theorem expired_sec {s t : State} (b : Bound) (d : ScanDesc) (h : Handle) (snap : Nat) (qs : List Query) (ht : t.sec = s.sec) :
    (expired s t b d h snap qs).sec = s.sec := by
  simp only [expired]
  (repeat' split) <;> grind [notifyEvent_sec, idxCount_sec, modStation_sec, ssaPush_sec, haltStation_sec, release_sec,
    Drawn.secOr]

@[simp] theorem resolveSnap_sec (t : State) (x : Index) (a snap : Nat) : (resolveSnap t x a snap).1.sec = t.sec := by
  simp only [resolveSnap]
  (repeat' split) <;> simp

@[simp] theorem runQuery_sec (s : State) (b : Bound) (d : ScanDesc) : (runQuery s b d).sec = s.sec := by
  have hp := popHandle_sec s b.slot b.idx 0
  simp only [runQuery]
  split
  · rfl
  · split
    · simp
    · next t h ht =>
      have ht : t.sec = s.sec := by simpa [ht] using hp
      (repeat' split) <;> simp [scanPass_sec, expired_sec, ht]

@[simp] theorem execScanQuery_sec (channel : Nat) (s : State) : outcomeSec s.sec (execScanQuery channel s) = s.sec := by
  unfold execScanQuery
  grind [runQuery_sec, onUnit_sec, jobEnd_sec, scanCmd_sec]

@[simp] theorem scanUe_sec (s : State) (c n : Nat) : (scanUe s c n).sec = s.sec := by simp [scanUe]

@[simp] theorem execCodewordReadDone_sec (channel query : Nat) (poisoned : Bool) (s : State) :
    outcomeSec s.sec (execCodewordReadDone channel query poisoned s) = s.sec := by
  refine onUnit_sec _ _ _ ?_
  (repeat' split) <;> simp

@[simp] theorem readTiles_sec (s : State) (l : List Handle) : (readTiles s l).1.sec = s.sec := by
  induction l generalizing s with
  | nil => rfl
  | cons p t ih =>
    simp only [readTiles]
    (repeat' split) <;> simp [ih]

theorem skimPush_sec {s t : State} (b : Bound) (d : SkimDesc) (hs : List Handle) (st : Status) (data : Option Bytes)
    (ht : t.sec = s.sec) : (skimPush s t b d hs st data).sec = s.sec := by
  simp only [skimPush]
  (repeat' split) <;> grind [ssaPush_sec, scanEnd_sec, releaseAll_sec, tick1_sec, haltStation_sec, Drawn.secOr]

theorem skimRound_sec {s t : State} (b : Bound) (d : SkimDesc) (hs : List Handle) (ht : t.sec = s.sec) :
    (skimRound s t b d hs).sec = s.sec := by
  simp only [skimRound]
  (repeat' split) <;> simp [skimPush_sec, ht]

@[simp] theorem execSkimMerge_sec (die : Nat) (s : State) : outcomeSec s.sec (execSkimMerge die s) = s.sec := by
  refine onUnit_sec _ _ _ ?_
  grind [ctrlRead_sec, skimRound_sec, haltStation_sec, waitInputs_sec, popRound_sec, RoundPop.secOr]

/-! ### Images, owner records and attestation: the rest of `sec` changes, its floors do not -/

@[simp] theorem sbAnswer_floors (s : State) (st : Status) (data : Bytes) : (sbAnswer s st data).sec.floors = s.sec.floors := by
  simp [sbAnswer]

theorem sideband_floors (s : State) (rom : Bool) {run : State → State} (hr : ∀ t, (run t).sec.floors = t.sec.floors) :
    (outcomeSec s.sec (sideband s rom run)).floors = s.sec.floors := by
  unfold sideband
  split <;> simp [hr]

@[simp] theorem bootController_floors (s : State) : (bootController s).sec.floors = s.sec.floors := by simp [bootController]

@[simp] theorem setSlot_floors (s : State) (k : Nat) (b : Bool) (v : Bytes) : (setSlot s k b v).sec.floors = s.sec.floors := by
  simp [setSlot]

@[simp] theorem execStageOpen_floors (kind : Nat) (s : State) :
    (outcomeSec s.sec (execStageOpen kind s)).floors = s.sec.floors := by
  refine sideband_floors _ _ fun t => ?_
  (repeat' split) <;> simp

@[simp] theorem execStageData_floors (offset : Nat) (data : Bytes) (s : State) :
    (outcomeSec s.sec (execStageData offset data s)).floors = s.sec.floors := by
  refine sideband_floors _ _ fun t => ?_
  (repeat' split) <;> simp

@[simp] theorem execStageClose_floors (length : Nat) (s : State) :
    (outcomeSec s.sec (execStageClose length s)).floors = s.sec.floors := by
  refine sideband_floors _ _ fun t => ?_
  split <;> simp

@[simp] theorem hostStage_floors (s : State) : (hostStage s).1.sec.floors = s.sec.floors := by
  simp only [hostStage]
  (repeat' split) <;> simp

@[simp] theorem opStageCtrl_floors (value : Word) (s : State) : (opStageCtrl value s).sec.floors = s.sec.floors := by
  simp only [opStageCtrl]
  split <;> simp

@[simp] theorem execSecStageCtrl_floors (value : Word) (s : State) :
    (outcomeSec s.sec (execSecStageCtrl value s)).floors = s.sec.floors :=
  whenUp_floors (opStageCtrl_floors _ _)

@[simp] theorem ownerSubmit_floors (s : State) (o : Bytes) (sb : Bool) : (ownerSubmit s o sb).1.sec.floors = s.sec.floors := by
  unfold ownerSubmit
  split <;> simp

@[simp] theorem execOwnerData_floors (offset : Nat) (data : Bytes) (s : State) :
    (outcomeSec s.sec (execOwnerData offset data s)).floors = s.sec.floors := by
  refine sideband_floors _ _ fun t => ?_
  split <;> simp

@[simp] theorem execOwnerCommit_floors (s : State) : (outcomeSec s.sec (execOwnerCommit s)).floors = s.sec.floors :=
  sideband_floors _ _ fun _ => by simp

@[simp] theorem opOwnerCtrl_floors (value : Word) (s : State) : (opOwnerCtrl value s).sec.floors = s.sec.floors := by
  simp only [opOwnerCtrl]
  (repeat' split) <;> simp

@[simp] theorem execSecOwnerCtrl_floors (value : Word) (s : State) :
    (outcomeSec s.sec (execSecOwnerCtrl value s)).floors = s.sec.floors :=
  whenUp_floors (opOwnerCtrl_floors _ _)

@[simp] theorem spendLeaf_floors (s : State) : (spendLeaf s).sec.floors = s.sec.floors := by simp [spendLeaf]
@[simp] theorem attHostEnd_floors (s : State) (st : Status) : (attHostEnd s st).sec.floors = s.sec.floors := by simp [attHostEnd]

@[simp] theorem attServe_floors (s : State) (r : Option (Bytes × Bool)) : (attServe s r).sec.floors = s.sec.floors := by
  unfold attServe
  grind [attHostEnd_floors, modSec_sec, spendLeaf_floors, sbAnswer_floors, argWrite_sec, exceptSec]

@[simp] theorem attRun_floors (n : Nat) (s : State) : (attRun n s).sec.floors = s.sec.floors := by
  fun_induction attRun <;> simp_all

@[simp] theorem attAll_floors (s : State) : (attAll s).sec.floors = s.sec.floors := by simp [attAll]

@[simp] theorem attQueue_floors (s : State) (r : Option (Bytes × Bool)) : (attQueue s r).sec.floors = s.sec.floors := by
  simp [attQueue]

@[simp] theorem opAttCtrl_floors (value : Word) (s : State) : (opAttCtrl value s).sec.floors = s.sec.floors := by
  simp only [opAttCtrl]
  split <;> simp

@[simp] theorem execSecAttCtrl_floors (value : Word) (s : State) :
    (outcomeSec s.sec (execSecAttCtrl value s)).floors = s.sec.floors :=
  whenUp_floors (opAttCtrl_floors _ _)

@[simp] theorem execAttest_floors (nonce : Bytes) (cert : Bool) (s : State) :
    (outcomeSec s.sec (execAttest nonce cert s)).floors = s.sec.floors := by
  refine sideband_floors _ _ fun t => ?_
  split <;> simp

@[simp] theorem execAttestRead_floors (offset : Nat) (s : State) :
    (outcomeSec s.sec (execAttestRead offset s)).floors = s.sec.floors := by
  refine sideband_floors _ _ fun t => ?_
  split <;> simp

@[simp] theorem execTreeRegeneration_floors (s : State) : (outcomeSec s.sec (execTreeRegeneration s)).floors = s.sec.floors :=
  whenUp_floors (by simp)

@[simp] theorem execBottomTreeReplacement_floors (s : State) :
    (outcomeSec s.sec (execBottomTreeReplacement s)).floors = s.sec.floors :=
  whenUp_floors (by simp [apply_ite State.sec, apply_ite Sec.floors])

/-! ### Groups and collectives -/

@[simp] theorem collSend_sec (s : State) (g : Group) (e : CollEntry) (dst : Nat) (k : CollKind) (c : Nat) (x : CollTag)
    (payload : Bytes) : (collSend s g e dst k c x payload).sec = s.sec := by simp [collSend]

@[simp] theorem groupSend_sec (s : State) (g : Group) (dst k : Nat) (words : List Nat) :
    (groupSend s g dst k words).sec = s.sec := by simp [groupSend]

@[simp] theorem collListEnd_sec (s : State) (slot i : Nat) : (collListEnd s slot i).sec = s.sec := by
  unfold collListEnd
  split <;> simp

@[simp] theorem haltEntry_sec (s : State) (e : CollEntry) (st : Status) : (haltEntry s e st).sec = s.sec := by
  unfold haltEntry
  (repeat' split) <;> simp

@[simp] theorem entryNotify_sec (s : State) (e : CollEntry) (st : Status) : (entryNotify s e st).sec = s.sec := by
  simp [entryNotify]

@[simp] theorem dropRetired_sec (n : Nat) (s : State) (gid : Nat) : (dropRetired n s gid).sec = s.sec := by
  induction n generalizing s with
  | zero => rfl
  | succ n ih =>
    simp only [dropRetired]
    (repeat' split) <;> simp [ih]

@[simp] theorem closeGroup_sec (s : State) (gid : Nat) : (closeGroup s gid).sec = s.sec := by
  unfold closeGroup
  (repeat' split) <;> simp

@[simp] theorem collEnd_sec (s : State) (gid : Nat) (e : CollEntry) (st : Status) (gone : Bool) :
    (collEnd s gid e st gone).sec = s.sec := by simp [collEnd]

@[simp] theorem noteLag_sec (s : State) (gid : Nat) (c : ChunkSt) : (noteLag s gid c).sec = s.sec := by simp [noteLag]

@[simp] theorem noteOwnLag_sec (s : State) (gid : Nat) (e : CollEntry) (early : Nat) (synced : Bool) :
    (noteOwnLag s gid e early synced).sec = s.sec := by simp [noteOwnLag]

@[simp] theorem sendRetire_sec (s : State) (g : Group) (e : CollEntry) (x : CollTag) : (sendRetire s g e x).sec = s.sec := by
  simp [sendRetire]

@[simp] theorem tryRetire_sec (s : State) (gid : Nat) (q : Word) : (tryRetire s gid q).sec = s.sec := by
  unfold tryRetire
  (repeat' split) <;> simp

@[simp] theorem gotAck_sec (s : State) (gid : Nat) (q : Word) (c r : Nat) : (gotAck s gid q c r).sec = s.sec := by
  unfold gotAck
  (repeat' split) <;> simp

@[simp] theorem ackAll_sec (s : State) (g : Group) (e : CollEntry) : (ackAll s g e).sec = s.sec := by simp [ackAll]

@[simp] theorem writeChunk_sec (s : State) (b : Bound) (e : CollEntry) (r : CollResult) :
    (writeChunk s b e r).secOr s.sec = s.sec := by
  unfold writeChunk
  grind [memWrite_sec, drawBuffer_sec, Drawn.secOr]

@[simp] theorem outStep_sec (s : State) (g : Group) (e : CollEntry) (ack : Bool) : (outStep s g e ack).secOr s.sec = s.sec := by
  unfold outStep
  (repeat' split) <;> grind [emit_sec, gotAck_sec, ackAll_sec, modEntry_sec, writeChunk_sec, OutStep.secOr, Drawn.secOr]

@[simp] theorem outSteps_sec (n : Nat) (s : State) (gid : Nat) (q : Word) (ack : Bool) :
    (outSteps n s gid q ack).secOr s.sec = s.sec := by
  fun_induction outSteps <;> grind [outStep_sec, OutStep.secOr]

@[simp] theorem outLanded_sec (s : State) (gid : Nat) (e : CollEntry) (ack : Bool) : (outLanded s gid e ack).sec = s.sec := by
  unfold outLanded
  grind [outSteps_sec, OutStep.secOr]

@[simp] theorem fenceEntries_sec (gid : Nat) (own : Status) (s : State) (l : List CollEntry) :
    (fenceEntries gid own s l).sec = s.sec := by
  induction l generalizing own s with
  | nil => rfl
  | cons p t ih => simp [fenceEntries, ih]

@[simp] theorem groupFence_sec (s : State) (gid : Nat) (st own : Status) (cause : ColCause) (frank : Nat) (skip : Option Nat)
    (tell : Bool) : (groupFence s gid st own cause frank skip tell).sec = s.sec := by
  simp only [groupFence]
  (repeat' split) <;> simp

@[simp] theorem collFail_sec (s : State) (g : Group) (st : Status) (cause : ColCause) : (collFail s g st cause).sec = s.sec := by
  simp [collFail]

@[simp] theorem withdrawAll_sec (s : State) (own : Status) : (withdrawAll s own).sec = s.sec := by simp [withdrawAll]

@[simp] theorem collRead_sec (s : State) (a n : Nat) : (collRead s a n).1.sec = s.sec := by
  simp only [collRead]
  split <;> simp

@[simp] theorem contribution_sec (g : Group) (e : CollEntry) (vat : Bool) (c i : Nat) (s : State) (v : Option Bytes) (fl : Nat)
    (l : List Handle) : (contribution g e vat c i s v fl l).1.sec = s.sec := by
  induction l generalizing i s v fl with
  | nil => rfl
  | cons p t ih =>
    simp only [contribution]
    (repeat' split) <;> simp [ih]

@[simp] theorem addResult_sec (s : State) (gid : Nat) (e : CollEntry) (src c : Nat) (data : Bytes) (empty : Bool) :
    (addResult s gid e src c data empty).sec = s.sec := by simp [addResult]

@[simp] theorem moveChunk_sec (s : State) (g : Group) (e : CollEntry) (dst c : Nat) (data : Bytes) (empty : Bool) :
    (moveChunk s g e dst c data empty).sec = s.sec := by simp [moveChunk]

@[simp] theorem moveBlock_sec (s : State) (g : Group) (e : CollEntry) (dst base : Nat) (data : Bytes) :
    (moveBlock s g e dst base data).sec = s.sec := by simp [moveBlock]

@[simp] theorem moveEmpty_sec (s : State) (g : Group) (e : CollEntry) : (moveEmpty s g e).sec = s.sec := by simp [moveEmpty]

@[simp] theorem sendCounts_sec (s : State) (g : Group) (e : CollEntry) : (sendCounts s g e).1.sec = s.sec := by
  simp only [sendCounts]
  split <;> simp

@[simp] theorem startEntry_sec (s : State) (g : Group) (e : CollEntry) : (startEntry s g e).secOr s.sec = s.sec := by
  simp only [startEntry]
  (repeat' split) <;> simp

@[simp] theorem endPhase1_sec (s : State) (g : Group) (e : CollEntry) : (endPhase1 s g e).secOr s.sec = s.sec := by
  unfold endPhase1
  dsimp only
  split
  · simp
  · next t ht =>
    have hw := memWrite_sec s e.rcounts ((e.counts.map fun c => c.getD 0).map (leBytes 4)).flatten
    rw [ht] at hw
    simpa using hw

@[simp] theorem movePhase2_sec (s : State) (g : Group) (e : CollEntry) : (movePhase2 s g e).secOr s.sec = s.sec := by
  simp only [movePhase2]
  (repeat' split) <;> simp

@[simp] theorem stepV_sec (s : State) (g : Group) (e : CollEntry) : (stepV s g e).secOr s.sec = s.sec := by
  unfold stepV
  (repeat' split) <;> simp

@[simp] theorem beginChunk_sec (s : State) (g : Group) (e : CollEntry) (granted : Bool) :
    (beginChunk s g e granted).secOr s.sec = s.sec := by
  simp only [beginChunk]
  (repeat' split) <;> simp

@[simp] theorem countVat_sec (s : State) (die : Nat) (k : ChunkSt) (bad : Bool) : (countVat s die k bad).sec = s.sec := by
  simp [countVat]

@[simp] theorem sendUp_sec (s : State) (g : Group) (e : CollEntry) (k : ChunkSt) : (sendUp s g e k).sec = s.sec := by
  simp [sendUp]

@[simp] theorem rootDeliver_sec (s : State) (g : Group) (e : CollEntry) (k : ChunkSt) : (rootDeliver s g e k).sec = s.sec := by
  simp [rootDeliver]

@[simp] theorem chunkStep_sec (gid : Nat) (q : Word) (s : State) (c : Nat) : (chunkStep gid q s c).sec = s.sec := by
  unfold chunkStep
  (repeat' split) <;> simp

@[simp] theorem foldChunk_sec (s : State) (g : Group) (e : CollEntry) (k : ChunkSt) (m : CollMsg) :
    (foldChunk s g e k m).sec = s.sec := by simp [foldChunk]

@[simp] theorem forwardResult_sec (s : State) (g : Group) (e : CollEntry) (m : CollMsg) :
    (forwardResult s g e m).sec = s.sec := by simp [forwardResult]

@[simp] theorem takeResult_sec (s : State) (g : Group) (e : CollEntry) (m : CollMsg) : (takeResult s g e m).sec = s.sec := by
  simp [takeResult]

@[simp] theorem heardFrom_sec (s : State) (gid : Nat) (q : Word) (r : Nat) : (heardFrom s gid q r).sec = s.sec := by
  simp [heardFrom]

@[simp] theorem applyMsg_sec (s0 : State) (gid : Nat) (k : CollKind) (m : CollMsg) :
    ((applyMsg s0 gid k m).getD s0).sec = s0.sec := by
  unfold applyMsg
  split <;> grind [foldChunk_sec, modGroup_sec, beginChunk_sec, sendRetire_sec, dropRetired_sec, heardFrom_sec, collFail_sec,
    gotAck_sec, takeResult_sec, modEntry_sec, modChunk_sec, noteOwnLag_sec, CollStep.secOr]

@[simp] theorem tryInbox_sec (gid : Nat) (s : State) (l) : (tryInbox gid s l).sec = s.sec := by
  fun_induction tryInbox <;> grind [applyMsg_sec, modGroup_sec]

@[simp] theorem stepOr_sec (s : State) (g : Group) (r : CollStep) : (stepOr s g r).sec = r.secOr s.sec := by
  unfold stepOr
  split <;> simp

@[simp] theorem runZero_sec (s : State) (g : Group) (e : CollEntry) : (runZero s g e).sec = s.sec := by simp [runZero]

@[simp] theorem runCurrent_sec (s : State) (gid : Nat) : (runCurrent s gid).sec = s.sec := by
  unfold runCurrent
  split
  · rfl
  · split
    · rfl
    · split
      · exact closeGroup_sec _ _
      · next e _ =>
        split
        · rw [closeGroup_sec, runZero_sec]
        · split
          · rw [stepOr_sec, startEntry_sec]
          · extract_lets s1 s2 s3
            have h1 : s1.sec = s.sec := (stepOr_sec _ _ _).trans (stepV_sec _ _ _)
            have h2 : s2.sec = s.sec := by
              unfold s2
              (repeat' split) <;> grind [stepOr_sec, beginChunk_sec]
            have h3 : s3.sec = s.sec := (foldl_sec _ _ _ fun t c => chunkStep_sec _ _ _ _).trans h2
            clear_value s1 s2 s3
            split
            · exact h3
            · split
              · exact h3
              · have ho := outSteps_sec 64 s3 gid e.seq true
                generalize outSteps 64 s3 gid e.seq true = r at ho ⊢
                cases r with
                | none => exact h3
                | fail t st => exact (collFail_sec _ _ _ _).trans (ho.trans h3)
                | did t =>
                  have ht : t.sec = s.sec := ho.trans h3
                  clear ho
                  (repeat' split) <;> grind [closeGroup_sec, tryRetire_sec, collEnd_sec]

@[simp] theorem collRun_sec (n : Nat) (s : State) (gid : Nat) : (collRun n s gid).sec = s.sec := by
  induction n generalizing s with
  | zero => rfl
  | succ n ih =>
    simp only [collRun]
    (repeat' split) <;> simp [ih]

@[simp] theorem markWaits_sec (s : State) (gid : Nat) : (markWaits s gid).sec = s.sec := by simp [markWaits]
@[simp] theorem collGo_sec (s : State) (gid : Nat) : (collGo s gid).sec = s.sec := by simp [collGo]
@[simp] theorem strayMsg_sec (s : State) (die : Nat) : (strayMsg s die).sec = s.sec := by simp [strayMsg]

@[simp] theorem lateResult_sec (s : State) (g : Group) (m : CollMsg) : (lateResult s g m).sec = s.sec := by
  unfold lateResult
  split <;> simp

@[simp] theorem collArrive_sec (k : CollKind) (die : Nat) (m : CollMsg) (s : State) :
    outcomeSec s.sec (collArrive k die m s) = s.sec := by
  unfold collArrive
  grind [modGroup_sec, collFail_sec, collGo_sec, onUnit_sec, lateResult_sec, strayMsg_sec]

@[simp] theorem execGrantArrival_sec (die : Nat) (msg : CollMsg) (s : State) :
    outcomeSec s.sec (execGrantArrival die msg s) = s.sec := by simp [execGrantArrival]

@[simp] theorem execChunkArrival_sec (die : Nat) (msg : CollMsg) (s : State) :
    outcomeSec s.sec (execChunkArrival die msg s) = s.sec := by simp [execChunkArrival]

@[simp] theorem execResultChunkArrival_sec (die : Nat) (msg : CollMsg) (s : State) :
    outcomeSec s.sec (execResultChunkArrival die msg s) = s.sec := by simp [execResultChunkArrival]

@[simp] theorem execAcknowledgementArrival_sec (die : Nat) (msg : CollMsg) (s : State) :
    outcomeSec s.sec (execAcknowledgementArrival die msg s) = s.sec := by simp [execAcknowledgementArrival]

@[simp] theorem execRetire_sec (die : Nat) (msg : CollMsg) (s : State) : outcomeSec s.sec (execRetire die msg s) = s.sec := by
  simp [execRetire]

@[simp] theorem execFence_sec (die : Nat) (msg : CollMsg) (frank : Nat) (status : Status) (cause : Nat) (s : State) :
    outcomeSec s.sec (execFence die msg frank status cause s) = s.sec := by
  refine onUnit_sec _ _ _ ?_
  split <;> simp

@[simp] theorem execWithdraw_sec (die : Nat) (msg : CollMsg) (s : State) : outcomeSec s.sec (execWithdraw die msg s) = s.sec := by
  refine onUnit_sec _ _ _ ?_
  split <;> simp

@[simp] theorem execChunkUsExpiry_sec (die group : Nat) (s : State) :
    outcomeSec s.sec (execChunkUsExpiry die group s) = s.sec := by
  refine onUnit_sec _ _ _ ?_
  (repeat' split) <;> simp

@[simp] theorem execVatWaitTimeout_sec (die group : Nat) (s : State) :
    outcomeSec s.sec (execVatWaitTimeout die group s) = s.sec := by
  refine onUnit_sec _ _ _ ?_
  (repeat' split) <;> simp

@[simp] theorem popMany_sec (s : State) (slot i port n : Nat) : ((popMany s slot i port n).map (·.1.sec)).getD s.sec = s.sec := by
  fun_induction popMany <;> grind [popHandle_sec]

@[simp] theorem popInputs_sec (s : State) (b : Bound) (g : Group) (d : CollDesc) : (popInputs s b g d).secOr s.sec = s.sec := by
  unfold popInputs
  grind [popHandle_sec, popRound_sec, popMany_sec, RoundPop.secOr]

@[simp] theorem enterOp_sec (s : State) (b : Bound) (g : Group) (d : CollDesc) (hs : List Handle) :
    (enterOp s b g d hs).sec = s.sec := by simp [enterOp]

@[simp] theorem collEnter_sec (s : State) (b : Bound) (die op : Nat) : (collEnter s b die op).sec = s.sec := by
  unfold collEnter
  grind [ctrlRead_sec, popInputs_sec, haltStation_sec, waitInputs_sec, enterOp_sec, RoundPop.secOr]

@[simp] theorem collCmd_sec (die op : Nat) (s : State) : outcomeSec s.sec (collCmd die op s) = s.sec := by
  unfold collCmd
  apply onUnit_sec
  dsimp only
  split
  · rfl
  · simp only [collListEnd_sec]
    rw [foldl_sec _ _ _ collGo_sec]
    simp

@[simp] theorem execCollBcast_sec (die : Nat) (s : State) : outcomeSec s.sec (execCollBcast die s) = s.sec := by
  simp [execCollBcast]

@[simp] theorem execCollAllgather_sec (die : Nat) (s : State) : outcomeSec s.sec (execCollAllgather die s) = s.sec := by
  simp [execCollAllgather]

@[simp] theorem execCollAlltoall_sec (die : Nat) (s : State) : outcomeSec s.sec (execCollAlltoall die s) = s.sec := by
  simp [execCollAlltoall]

@[simp] theorem execCollAlltoallv_sec (die : Nat) (s : State) : outcomeSec s.sec (execCollAlltoallv die s) = s.sec := by
  simp [execCollAlltoallv]

@[simp] theorem execCollAllreduce_sec (die : Nat) (s : State) : outcomeSec s.sec (execCollAllreduce die s) = s.sec := by
  simp [execCollAllreduce]

@[simp] theorem execCollReduceScatter_sec (die : Nat) (s : State) : outcomeSec s.sec (execCollReduceScatter die s) = s.sec := by
  simp [execCollReduceScatter]

@[simp] theorem execCollAttnMerge_sec (die : Nat) (s : State) : outcomeSec s.sec (execCollAttnMerge die s) = s.sec := by
  simp [execCollAttnMerge]

@[simp] theorem openGroup_sec (s : State) (fn : Nat) (b : Bytes) : (openGroup s fn b).1.sec = s.sec := by
  unfold openGroup
  dsimp only
  split
  · rfl
  · split <;> simp only [] <;> (rw [foldl_fst_sec]; intro p a; (repeat' split) <;> simp)

@[simp] theorem opGroupOpen_sec (h : HostHdr) (rec_ : AddrArg) (s : State) : (opGroupOpen h rec_ s).sec = s.sec := by
  simp only [opGroupOpen]
  (repeat' split) <;> simp

@[simp] theorem execGroupOpen_sec (h : HostHdr) (rec : AddrArg) (s : State) :
    outcomeSec s.sec (execGroupOpen h rec s) = s.sec :=
  hostCmd_sec _ _ _ _ (by simp)

@[simp] theorem resetTry_sec (s : State) (gid : Nat) : (resetTry s gid).sec = s.sec := by
  unfold resetTry
  (repeat' split) <;> simp

@[simp] theorem opGroupReset_sec (h : HostHdr) (group : Nat) (s : State) : (opGroupReset h group s).sec = s.sec := by
  unfold opGroupReset
  split <;> simp

@[simp] theorem execGroupReset_sec (h : HostHdr) (group : Nat) (s : State) :
    outcomeSec s.sec (execGroupReset h group s) = s.sec :=
  hostCmd_sec _ _ _ _ (by simp)

@[simp] theorem execResetExchangeArrival_sec (die group rank : Nat) (retired : Word) (s : State) :
    outcomeSec s.sec (execResetExchangeArrival die group rank retired s) = s.sec := by
  refine onUnit_sec _ _ _ ?_
  split <;> simp

@[simp] theorem opGroupClose_sec (h : HostHdr) (group : Nat) (s : State) : (opGroupClose h group s).sec = s.sec := by
  unfold opGroupClose
  split <;> simp

@[simp] theorem execGroupClose_sec (h : HostHdr) (group : Nat) (s : State) :
    outcomeSec s.sec (execGroupClose h group s) = s.sec :=
  hostCmd_sec _ _ _ _ (by simp)

/-! ### Failed stacks and flash channels -/

@[simp] theorem leaveGroups_sec (s : State) (own : Status) : (leaveGroups s own).sec = s.sec := by simp [leaveGroups]
@[simp] theorem clocksBack_sec (s : State) : (clocksBack s).sec = s.sec := by simp [clocksBack]
@[simp] theorem withdrawModule_sec (s : State) (why : Nat) : (withdrawModule s why).sec = s.sec := by simp [withdrawModule]

@[simp] theorem noteStackFail_sec (s : State) (stack : Nat) (cause : StackCause) : (noteStackFail s stack cause).sec = s.sec := by
  simp [noteStackFail]

@[simp] theorem noteFlashFail_sec (s : State) (channel : Nat) (cause : FlashCause) :
    (noteFlashFail s channel cause).sec = s.sec := by simp [noteFlashFail]

@[simp] theorem execStackFail_sec (stack : Nat) (cause : StackCause) (s : State) :
    outcomeSec s.sec (execStackFail stack cause s) = s.sec :=
  onUnit_sec _ _ _ (by simp)

@[simp] theorem execFlashChannelFail_sec (channel : Nat) (cause : FlashCause) (s : State) :
    outcomeSec s.sec (execFlashChannelFail channel cause s) = s.sec :=
  onUnit_sec _ _ _ (by simp)

/-! ### The module's states, sensors and watchdogs -/

@[simp] theorem powerLost_floors (s : State) : (powerLost s).sec.floors = s.sec.floors := rfl

@[simp] theorem enterStandby_floors (s : State) (cause : StbyCause) : (enterStandby s cause).sec.floors = s.sec.floors := by
  simp [enterStandby]

@[simp] theorem dropTo_floors (s : State) (cause : StbyCause) : (dropTo s cause).sec.floors = s.sec.floors := by
  unfold dropTo
  split <;> simp

@[simp] theorem execUndervoltage_floors (mv : Nat) (s : State) :
    (outcomeSec s.sec (execUndervoltage mv s)).floors = s.sec.floors := by
  unfold execUndervoltage
  split <;> simp

@[simp] theorem execOvervoltage_floors (mv : Nat) (s : State) :
    (outcomeSec s.sec (execOvervoltage mv s)).floors = s.sec.floors := by
  unfold execOvervoltage
  split <;> simp

@[simp] theorem switchOff_floors (s : State) : (switchOff s).sec.floors = s.sec.floors := by
  unfold switchOff
  extract_lets t t1
  have h1 : t1.sec.floors = s.sec.floors := by
    simp only [t1]
    split <;> rfl
  exact h1

@[simp] theorem execInputLoss_floors (mv : Nat) (s : State) : (outcomeSec s.sec (execInputLoss mv s)).floors = s.sec.floors := by
  unfold execInputLoss
  split <;> simp

@[simp] theorem execInputRise_floors (mv : Nat) (slotId : BitVec 4) (s : State) :
    (outcomeSec s.sec (execInputRise mv slotId s)).floors = s.sec.floors := by
  unfold execInputRise
  split <;> simp

@[simp] theorem execRailFault_floors (rail : Nat) (s : State) :
    (outcomeSec s.sec (execRailFault rail s)).floors = s.sec.floors :=
  onUnit_floors _ _ _ (dropTo_floors _ _)

@[simp] theorem execModRstNLow_floors (s : State) : (outcomeSec s.sec (execModRstNLow s)).floors = s.sec.floors := by
  simp [execModRstNLow]

@[simp] theorem startThaw_sec (s : State) : (startThaw s).sec = s.sec := by simp [startThaw]
@[simp] theorem execModRstNRise_sec (s : State) : outcomeSec s.sec (execModRstNRise s) = s.sec := by simp [execModRstNRise]

@[simp] theorem execThaw_floors (s : State) : (outcomeSec s.sec (execThaw s)).floors = s.sec.floors := by
  refine sideband_floors _ _ fun t => ?_
  split <;> simp

@[simp] theorem execShutdown_floors (s : State) : (outcomeSec s.sec (execShutdown s)).floors = s.sec.floors := by
  refine sideband_floors _ _ fun t => ?_
  split <;> simp

@[simp] theorem commitDieCurve_sec (s : State) : (commitDieCurve s).sec = s.sec := by simp [commitDieCurve]
@[simp] theorem opDieCurve0_sec (value : Word) (s : State) : (opDieCurve0 value s).sec = s.sec := by simp [opDieCurve0]

@[simp] theorem execThmDieCurve_sec (value : Word) (s : State) : outcomeSec s.sec (execThmDieCurve value s) = s.sec :=
  whenUp_sec (by simp)

@[simp] theorem startClocks_sec (s : State) : (startClocks s).sec = s.sec := by simp [startClocks]
@[simp] theorem enterIdle_floors (s : State) : (enterIdle s).sec.floors = s.sec.floors := by simp [enterIdle]
@[simp] theorem thawFails_floors (s : State) (cause : Nat) : (thawFails s cause).sec.floors = s.sec.floors := by simp [thawFails]
@[simp] theorem flashAwake_sec (s : State) : (flashAwake s).sec = s.sec := by simp [flashAwake]
@[simp] theorem thawRegisters_floors (s0 : State) : (thawRegisters s0).sec.floors = s0.sec.floors := by simp [thawRegisters]
@[simp] theorem opIdleReq_sec (s : State) : (opIdleReq s).sec = s.sec := by simp [opIdleReq]
@[simp] theorem execIdleReq_sec (s : State) : outcomeSec s.sec (execIdleReq s) = s.sec := by simp [execIdleReq]
@[simp] theorem opPwrWake_sec (s : State) : (opPwrWake s).sec = s.sec := by simp [opPwrWake]
@[simp] theorem execPwrCtrlWake_sec (s : State) : outcomeSec s.sec (execPwrCtrlWake s) = s.sec := whenUp_sec (by simp)

@[simp] theorem execWake_floors (s : State) : (outcomeSec s.sec (execWake s)).floors = s.sec.floors := by
  refine sideband_floors _ _ fun t => ?_
  split <;> simp

@[simp] theorem enterActive_sec (s : State) : (enterActive s).sec = s.sec := by simp [enterActive]
@[simp] theorem execWakeDone_sec (s : State) : outcomeSec s.sec (execWakeDone s) = s.sec := by simp [execWakeDone]

@[simp] theorem judgeIdle_floors (s : State) : (judgeIdle s).sec.floors = s.sec.floors := by
  unfold judgeIdle
  (repeat' split) <;> simp

@[simp] theorem holdGraph_sec (s : State) (slot : Nat) : (holdGraph s slot).sec = s.sec := by
  unfold holdGraph
  (repeat' split) <;> simp

@[simp] theorem holdSsa_sec (hot : Nat → Bool) (s : State) (k : Nat) : (holdSsa hot s k).sec = s.sec := by
  unfold holdSsa
  split <;> simp

@[simp] theorem enterHold_sec (s : State) (isDie : Bool) (unit : Nat) (hot : Nat → Bool) :
    (enterHold s isDie unit hot).sec = s.sec := by simp [enterHold]

@[simp] theorem inputSample_sec (s : State) (old : Nat) : (inputSample s old).sec = s.sec := by simp [inputSample]
@[simp] theorem takeSweep_sec (s : State) (w : Sweep) : (takeSweep s w).sec = s.sec := by simp [takeSweep]
@[simp] theorem deafSensors_sec (s : State) (old : List (Option Int)) : (deafSensors s old).sec = s.sec := by simp [deafSensors]

@[simp] theorem sweepTemp_sec (s : State) (k : Nat) : (sweepTemp s k).sec = s.sec := by
  unfold sweepTemp
  split <;> simp

@[simp] theorem sweepStack_sec (fresh : Bool) (s : State) (k : Nat) : (sweepStack fresh s k).sec = s.sec := by
  unfold sweepStack
  split <;> simp

@[simp] theorem sweepDie_sec (s : State) (d : Nat) : (sweepDie s d).sec = s.sec := by
  unfold sweepDie
  split
  · rfl
  · dsimp only
    split <;> simp

@[simp] theorem sweepPower_sec (s : State) : (sweepPower s).sec = s.sec := by simp [sweepPower]

@[simp] theorem sweepHold_sec (s : State) : (sweepHold s).sec = s.sec := by
  unfold sweepHold
  (repeat' split) <;> simp

@[simp] theorem keepDies_sec (s : State) : (keepDies s).sec = s.sec := by simp [keepDies]

@[simp] theorem sweepRun_floors (s : State) (old : List (Option Int)) : (sweepRun s old).sec.floors = s.sec.floors := by
  simp [sweepRun]

@[simp] theorem sensorSweep_floors (w : Sweep) (s : State) : (sensorSweep w s).sec.floors = s.sec.floors := by
  simp only [sensorSweep]
  (repeat' split) <;> simp

@[simp] theorem execSensorSweep_floors (sweep : Sweep) (s : State) :
    (outcomeSec s.sec (execSensorSweep sweep s)).floors = s.sec.floors := by
  unfold execSensorSweep
  split <;> simp

@[simp] theorem execCluWdogExpiry_sec (cluster : Nat) (s : State) : outcomeSec s.sec (execCluWdogExpiry cluster s) = s.sec := by
  refine onUnit_sec _ _ _ ?_
  dsimp only
  (repeat' split) <;> simp

@[simp] theorem opWdogKick_sec (cluster : Nat) (s : State) : (opWdogKick cluster s).sec = s.sec := by simp [opWdogKick]

@[simp] theorem execCluWdogKick_sec (cluster : Nat) (s : State) : outcomeSec s.sec (execCluWdogKick cluster s) = s.sec := by
  unfold execCluWdogKick
  grind [onUnit_sec, opWdogKick_sec]

@[simp] theorem execControllerWatchdogExpiry_floors (s : State) :
    (outcomeSec s.sec (execControllerWatchdogExpiry s)).floors = s.sec.floors := by
  unfold execControllerWatchdogExpiry
  split <;> simp

/-! ### Alarms cleared, the mirror and the traces -/

@[simp] theorem opAlarmSum_sec (value : Dword) (s : State) : (opAlarmSum value s).sec = s.sec := by simp [opAlarmSum]

@[simp] theorem execTelAlarmSum_sec (value : Dword) (s : State) : outcomeSec s.sec (execTelAlarmSum value s) = s.sec :=
  whenUp_sec (by simp)

@[simp] theorem opEvtHead_sec (value : Word) (s : State) : (opEvtHead value s).sec = s.sec := by simp [opEvtHead]

@[simp] theorem execTelEvtHead_sec (value : Word) (s : State) : outcomeSec s.sec (execTelEvtHead value s) = s.sec :=
  whenUp_sec (by simp)

@[simp] theorem ringRead_sec (s : State) (a : Nat) : (ringRead s a).1.sec = s.sec := by
  simp only [ringRead]
  split <;> simp

@[simp] theorem mirrorCopy_sec (s : State) : (mirrorCopy s).sec = s.sec := by
  unfold mirrorCopy
  split <;> simp

@[simp] theorem execEventMirrorCopy_sec (s : State) : outcomeSec s.sec (execEventMirrorCopy s) = s.sec := whenUp_sec (by simp)
@[simp] theorem mirrorSignal_sec (s : State) : (mirrorSignal s).sec = s.sec := by simp [mirrorSignal]
@[simp] theorem execEventMirrorSignal_sec (s : State) : outcomeSec s.sec (execEventMirrorSignal s) = s.sec := whenUp_sec (by simp)

@[simp] theorem traceOne_sec (s : State) (u : Nat) : (traceOne s u).sec = s.sec := by
  unfold traceOne
  grind [memWrite_sec, tick1_sec, modTel_sec, ctrSat_sec]

@[simp] theorem traceSample_sec (s : State) : (traceSample s).sec = s.sec := by simp [traceSample]
@[simp] theorem execTraceSample_sec (s : State) : outcomeSec s.sec (execTraceSample s) = s.sec := whenUp_sec (by simp)

/-! ### The Almanac -/

@[simp] theorem drainFn_sec (s : State) (fn : Nat) : (drainFn s fn).sec = s.sec := by
  unfold drainFn
  refine foldl_sec _ _ _ fun t x => ?_
  split <;> simp

@[simp] theorem almEnd_sec (s : State) (r : AlmReq) (st : Status) : (almEnd s r st).sec = s.sec := by
  unfold almEnd
  split <;> simp

@[simp] theorem almWrite_sec (s : State) (r : AlmReq) (b : Bytes) : exceptSec s.sec (almWrite s r b) = s.sec := by
  unfold almWrite
  (repeat' split) <;> simp

@[simp] theorem rejoin_sec (s : State) (x : Ring) : (rejoin s x).sec = s.sec := by simp [rejoin]

@[simp] theorem almServe_sec (s : State) (r : AlmReq) : (almServe s r).sec = s.sec := by
  unfold almServe
  extract_lets rings subs cmpls s1 doc out w s2 s3
  have hw : w.1.sec = s.sec := by
    simp only [w]
    split <;> grind [almWrite_sec, exceptSec, modAlm_sec]
  have h2 : s2.sec = s.sec := by simp [s2, hw]
  have h3 : s3.sec = s.sec := by simp [s3, h2]
  split
  · simp [h3]
  · exact h3

@[simp] theorem almRun_sec (fn n : Nat) (s : State) : (almRun fn n s).sec = s.sec := by
  fun_induction almRun <;> simp_all

@[simp] theorem almAll_sec (s : State) (fn : Nat) : (almAll s fn).sec = s.sec := by simp [almAll]
@[simp] theorem almAsk_sec (s : State) (r : AlmReq) : (almAsk s r).sec = s.sec := by simp [almAsk]

@[simp] theorem opAlmanac_sec (h : HostHdr) (buf : AddrArg) (len : Word) (resync : Bool) (s : State) :
    (opAlmanac h buf len resync s).sec = s.sec := by simp [opAlmanac]

@[simp] theorem execAlmanac_sec (h : HostHdr) (buf : AddrArg) (len : Word) (resync : Bool) (s : State) :
    outcomeSec s.sec (execAlmanac h buf len resync s) = s.sec :=
  hostCmd_sec _ _ _ _ (by simp)

@[simp] theorem opAlmGo_sec (fn : Nat) (addr : Dword) (len value : Word) (s : State) :
    (opAlmGo fn addr len value s).sec = s.sec := by simp [opAlmGo]

@[simp] theorem execAlmGo_sec (fn : Nat) (addr : Dword) (len value : Word) (s : State) :
    outcomeSec s.sec (execAlmGo fn addr len value s) = s.sec := by simp [execAlmGo]

/-! ### Function-level reset and PERST_N -/

@[simp] theorem withdrawGroup_sec (s : State) (g : Group) : (withdrawGroup s g).sec = s.sec := by simp [withdrawGroup]

@[simp] theorem resetSlot_sec (fn : Nat) (s : State) (slot : Nat) : (resetSlot fn s slot).sec = s.sec := by
  unfold resetSlot
  split <;> simp

@[simp] theorem dropGroup_sec (s : State) (g : Group) : (dropGroup s g).sec = s.sec := by simp [dropGroup]
@[simp] theorem resetFn_sec (s : State) (fn : Nat) : (resetFn s fn).sec = s.sec := by simp [resetFn]
@[simp] theorem flr_sec (fn : Nat) (s : State) : (flr fn s).sec = s.sec := by simp [flr]

@[simp] theorem execFunctionLevelReset_sec (fn : Nat) (s : State) : outcomeSec s.sec (execFunctionLevelReset fn s) = s.sec := by
  unfold execFunctionLevelReset
  grind [whenUp_sec, flr_sec, outcomeSec]

@[simp] theorem execPerstNLow_sec (s : State) : outcomeSec s.sec (execPerstNLow s) = s.sec := by
  unfold execPerstNLow
  split
  · rw [outcomeSec, flr_sec]
  · rfl

/-! ### The graph commands -/

@[simp] theorem readEntries_sec {α : Type} (image off : Nat) (judge : State → List α → Bytes → Option α) (n i : Nat) (s : State)
    (acc : List α) : (readEntries image off judge n i s acc).st.sec = s.sec := by
  induction n generalizing i s acc with
  | zero => rfl
  | succ n ih =>
    simp only [readEntries]
    (repeat' split) <;> simp [ih]

@[simp] theorem loadInto_sec (s : State) (slot image fn : Nat) (b : Bytes) (sts : List Station) (qs : List Queue)
    (ps : List Pool) : (loadInto s slot image fn b sts qs ps).sec = s.sec := by simp [loadInto]

@[simp] theorem opGraphLoad_sec (h : HostHdr) (image : AddrArg) (s : State) : (opGraphLoad h image s).sec = s.sec := by
  simp only [opGraphLoad]
  (repeat' split) <;> simp

@[simp] theorem execGraphLoad_sec (h : HostHdr) (image : AddrArg) (s : State) :
    outcomeSec s.sec (execGraphLoad h image s) = s.sec :=
  hostCmd_sec _ _ _ _ (by simp)

@[simp] theorem opGraphStart_sec (h : HostHdr) (gid : Half) (startAt : Dword) (s : State) :
    (opGraphStart h gid startAt s).sec = s.sec := by simp [opGraphStart]

@[simp] theorem execGraphStart_sec (h : HostHdr) (gid : Half) (startAt : Dword) (s : State) :
    outcomeSec s.sec (execGraphStart h gid startAt s) = s.sec :=
  hostCmd_sec _ _ _ _ (by simp)

@[simp] theorem execTimedStartFire_sec (slot : Nat) (s : State) : outcomeSec s.sec (execTimedStartFire slot s) = s.sec :=
  onUnit_sec _ _ _ (by simp)

@[simp] theorem opGraphPause_sec (h : HostHdr) (gid : Half) (s : State) : (opGraphPause h gid s).sec = s.sec := by
  simp [opGraphPause]

@[simp] theorem execGraphPause_sec (h : HostHdr) (gid : Half) (s : State) :
    outcomeSec s.sec (execGraphPause h gid s) = s.sec :=
  hostCmd_sec _ _ _ _ (by simp)

@[simp] theorem execGraphPauseDone_sec (slot : Nat) (s : State) : outcomeSec s.sec (execGraphPauseDone slot s) = s.sec :=
  onUnit_sec _ _ _ (by simp)

@[simp] theorem opGraphResume_sec (h : HostHdr) (gid : Half) (s : State) : (opGraphResume h gid s).sec = s.sec := by
  simp [opGraphResume]

@[simp] theorem execGraphResume_sec (h : HostHdr) (gid : Half) (s : State) :
    outcomeSec s.sec (execGraphResume h gid s) = s.sec :=
  hostCmd_sec _ _ _ _ (by simp)

@[simp] theorem opGraphUnload_sec (h : HostHdr) (gid : Half) (s : State) : (opGraphUnload h gid s).sec = s.sec := by
  simp [opGraphUnload]

@[simp] theorem execGraphUnload_sec (h : HostHdr) (gid : Half) (s : State) :
    outcomeSec s.sec (execGraphUnload h gid s) = s.sec :=
  hostCmd_sec _ _ _ _ (by simp)

@[simp] theorem opStreamRearm_sec (h : HostHdr) (gid : Half) (station : Nat) (rec : BitVec 128) (s : State) :
    (opStreamRearm h gid station rec s).sec = s.sec := by simp [opStreamRearm]

@[simp] theorem execStreamRearm_sec (h : HostHdr) (gid : Half) (station : Nat) (rec : BitVec 128) (s : State) :
    outcomeSec s.sec (execStreamRearm h gid station rec s) = s.sec :=
  hostCmd_sec _ _ _ _ (by simp)

@[simp] theorem stallReport_sec (s : State) (slot : Nat) (g : Graph) : (stallReport s slot g).sec = s.sec := by simp [stallReport]

@[simp] theorem execStallUsExpiry_sec (slot : Nat) (s : State) : outcomeSec s.sec (execStallUsExpiry slot s) = s.sec := by
  refine onUnit_sec _ _ _ ?_
  split <;> simp

/-! ### Scrubbing, margining and lending -/

@[simp] theorem upsetStack_sec (s : State) (stack : Nat) : (upsetStack s stack).sec = s.sec := by simp [upsetStack]

@[simp] theorem execPatrolScrub_sec (stack : Nat) (s : State) : outcomeSec s.sec (execPatrolScrub stack s) = s.sec := by
  unfold execPatrolScrub
  apply onUnit_sec
  simp

@[simp] theorem opMarginCtl_sec (value : Word) (s : State) : (opMarginCtl value s).sec = s.sec := by simp [opMarginCtl]

@[simp] theorem execMemMarginCtl_sec (value : Word) (s : State) : outcomeSec s.sec (execMemMarginCtl value s) = s.sec :=
  whenUp_sec (by simp)

@[simp] theorem execMarginSweepDone_sec (results : List Half) (s : State) :
    outcomeSec s.sec (execMarginSweepDone results s) = s.sec := by
  unfold execMarginSweepDone
  split
  · rfl
  · extract_lets a s1
    rw [outcomeSec, modMem_sec]
    exact (tick1_sec _).trans (memWrite_sec _ _ _)

@[simp] theorem opLendGrant_sec (grant word : Nat) (value : Dword) (s : State) :
    (opLendGrant grant word value s).sec = s.sec := by simp [opLendGrant]

@[simp] theorem execMemLendGrant_sec (grant word : Nat) (value : Dword) (s : State) :
    outcomeSec s.sec (execMemLendGrant grant word value s) = s.sec := by
  unfold execMemLendGrant
  grind [whenUp_sec, opLendGrant_sec, outcomeSec]

@[simp] theorem execRevoke_sec (grant : Nat) (s : State) : outcomeSec s.sec (execRevoke grant s) = s.sec := by
  unfold execRevoke
  grind [whenUp_sec, modGrant_sec, outcomeSec]

@[simp] theorem execRevokeDone_sec (grant : Nat) (s : State) : outcomeSec s.sec (execRevokeDone grant s) = s.sec := by
  simp [execRevokeDone]

@[simp] theorem lendAnswer_sec (s : State) (die : Nat) (p : LendReqPkt) (st : Status) (payload : Bytes) :
    (lendAnswer s die p st payload).sec = s.sec := by simp [lendAnswer]

@[simp] theorem opLendReq_sec (die : Nat) (p : LendReqPkt) (s : State) : (opLendReq die p s).sec = s.sec := by
  unfold opLendReq
  grind [lendAnswer_sec, memWrite_sec, memRead_sec]

@[simp] theorem execLendReq_sec (die : Nat) (pkt : LendReqPkt) (s : State) :
    outcomeSec s.sec (execLendReq die pkt s) = s.sec :=
  onUnit_sec _ _ _ (by simp)

@[simp] theorem lendReport_sec (s : State) (cmd : Option (Nat × HostHdr)) (recAddr : Option Nat) (st : Status) :
    (lendReport s cmd recAddr st).sec = s.sec := by
  unfold lendReport
  split <;> simp

@[simp] theorem lendEnd_sec (s : State) (c : LendCopy) (st : Status) : (lendEnd s c st).sec = s.sec := by simp [lendEnd]

@[simp] theorem lendSend_sec (s : State) (c : LendCopy) : (lendSend s c).sec = s.sec := by
  simp only [lendSend]
  (repeat' split) <;> simp

@[simp] theorem lendPump_sec (die n : Nat) (s : State) : (lendPump die n s).sec = s.sec := by
  fun_induction lendPump <;> simp_all

@[simp] theorem lendFill_sec (s : State) (die : Nat) : (lendFill s die).sec = s.sec := by simp [lendFill]

@[simp] theorem lendSubmit_sec (s : State) (a : AddrArg) (cmd : Option (Nat × HostHdr)) : (lendSubmit s a cmd).sec = s.sec := by
  simp only [lendSubmit]
  split <;> simp

@[simp] theorem opLendCopy_sec (h : HostHdr) (rec : AddrArg) (s : State) : (opLendCopy h rec s).sec = s.sec := by
  simp [opLendCopy]

@[simp] theorem execLendCopy_sec (h : HostHdr) (rec : AddrArg) (s : State) : outcomeSec s.sec (execLendCopy h rec s) = s.sec :=
  hostCmd_sec _ _ _ _ (by simp)

@[simp] theorem execMemLendPost_sec (cluster addr : Nat) (s : State) :
    outcomeSec s.sec (execMemLendPost cluster addr s) = s.sec := by
  unfold execMemLendPost
  grind [lendSubmit_sec, whenUp_sec, outcomeSec]

@[simp] theorem opLendRsp_sec (die : Nat) (p : LendRspPkt) (s : State) : (opLendRsp die p s).sec = s.sec := by
  unfold opLendRsp
  (repeat' split) <;> simp

@[simp] theorem execLendRsp_sec (die : Nat) (pkt : LendRspPkt) (s : State) :
    outcomeSec s.sec (execLendRsp die pkt s) = s.sec :=
  onUnit_sec _ _ _ (by simp)

@[simp] theorem execLendTimeout_sec (die copy : Nat) (s : State) : outcomeSec s.sec (execLendTimeout die copy s) = s.sec := by
  refine onUnit_sec _ _ _ ?_
  split <;> simp

/-! ### WALK operations -/

@[simp] theorem walkWait_sec (s : State) (b : Bound) : (walkWait s b).sec = s.sec := by simp [walkWait]

@[simp] theorem walkEnd_sec (b : Bound) (d : WalkDesc) (w : Walked) : (walkEnd b d w).sec = w.st.sec := by
  cases w <;> simp [walkEnd]

theorem walkCmd_sec (cluster op : Nat) {run : Bound → WalkDesc → State → Walked} (s : State)
    (hr : ∀ b d t, (run b d t).st.sec = t.sec) : outcomeSec s.sec (walkCmd cluster op run s) = s.sec := by
  refine onUnit_sec _ _ _ ?_
  (repeat' split) <;> grind [walkEnd_sec, haltStation_sec, ctrlRead_sec]

theorem locked_sec (b : Bound) (seqs : List Nat) {run : State → Walked} (s : State) (hr : ∀ t, (run t).st.sec = t.sec) :
    (locked b seqs run s).st.sec = s.sec := by
  unfold locked
  extract_lets c s1
  have h1 : s1.sec = s.sec := startReader_sec _ _ _ _
  split
  · exact (hr _).trans h1
  · exact h1

theorem pages_sec {α : Type} {f : State → α → Paged} (hf : ∀ t x, (f t x).st.sec = t.sec) (s : State) (bad : Bool) (l : List α) :
    (pages f s bad l).st.sec = s.sec := by
  fun_induction pages <;> grind [Paged.st]

@[simp] theorem copySectors_sec (s : State) (src dst n : Nat) : (copySectors s src dst n).1.sec = s.sec := by
  unfold copySectors
  extract_lets r bad
  have hr : r.1.sec = s.sec := memRead_sec _ _ _
  split
  · exact hr
  · exact (foldl_sec _ _ _ fun _ _ => markBad_sec _ _ _).trans ((memWrite_sec _ _ _).trans hr)

@[simp] theorem makeWritable_sec (s : State) (r : SeqRec) (layer pti : Nat) :
    (makeWritable s r layer pti).secOr s.sec = s.sec := by
  unfold makeWritable
  grind [writePte_sec, memWrite_sec, readPte_sec, copySectors_sec, dropFrame_sec, takeFrame_sec, Writable.secOr, Took.secOr]

@[simp] theorem preparePage_sec (r : SeqRec) (s : State) (lp : Nat × Nat) : (preparePage r s lp).st.sec = s.sec := by
  unfold preparePage
  grind [makeWritable_sec, Paged.st, Writable.secOr]

@[simp] theorem runPrepare_sec (b : Bound) (d : WalkDesc) (s : State) : (runPrepare b d s).st.sec = s.sec := by
  unfold runPrepare
  grind [modStation_sec, pages_sec, readSeq_sec, locked_sec, preparePage_sec, Walked.st, Paged.st]

@[simp] theorem execPrepare_sec (cluster : Nat) (s : State) : outcomeSec s.sec (execPrepare cluster s) = s.sec :=
  walkCmd_sec _ _ _ runPrepare_sec

@[simp] theorem runExtend_sec (b : Bound) (d : WalkDesc) (s : State) : (runExtend b d s).st.sec = s.sec := by
  unfold runExtend
  grind [readSeq_sec, locked_sec, writeSeq_sec, Walked.st]

@[simp] theorem execExtend_sec (cluster : Nat) (s : State) : outcomeSec s.sec (execExtend cluster s) = s.sec :=
  walkCmd_sec _ _ _ runExtend_sec

@[simp] theorem freePage_sec (r : SeqRec) (s : State) (lp : Nat × Nat) : (freePage r s lp).st.sec = s.sec := by
  simp only [freePage]
  (repeat' split) <;> simp

theorem freeWithList_sec (d : WalkDesc) (r : SeqRec) (lps : List (Nat × Nat)) {fin : State → State} (s : State)
    (hf : ∀ t, (fin t).sec = t.sec) : (freeWithList d r lps fin s).st.sec = s.sec := by
  simp only [freeWithList]
  (repeat' split) <;> grind [pages_sec, freePage_sec, memWrite_sec, Paged.st, Walked.st]

@[simp] theorem runTruncate_sec (b : Bound) (d : WalkDesc) (s : State) : (runTruncate b d s).st.sec = s.sec := by
  unfold runTruncate
  grind [freeWithList_sec, readSeq_sec, locked_sec, writeSeq_sec, Walked.st]

@[simp] theorem execTruncate_sec (cluster : Nat) (s : State) : outcomeSec s.sec (execTruncate cluster s) = s.sec :=
  walkCmd_sec _ _ _ runTruncate_sec

@[simp] theorem runRelease_sec (b : Bound) (d : WalkDesc) (s : State) : (runRelease b d s).st.sec = s.sec := by
  unfold runRelease
  grind [freeWithList_sec, readSeq_sec, locked_sec, writeSeq_sec, Walked.st]

@[simp] theorem execRelease_sec (cluster : Nat) (s : State) : outcomeSec s.sec (execRelease cluster s) = s.sec :=
  walkCmd_sec _ _ _ runRelease_sec

@[simp] theorem runFreeze_sec (v : Bool) (b : Bound) (d : WalkDesc) (s : State) : (runFreeze v b d s).st.sec = s.sec := by
  unfold runFreeze
  grind [readSeq_sec, locked_sec, writeSeq_sec, Walked.st]

@[simp] theorem execFreeze_sec (cluster : Nat) (s : State) : outcomeSec s.sec (execFreeze cluster s) = s.sec :=
  walkCmd_sec _ _ _ (runFreeze_sec _)

@[simp] theorem execUnfreeze_sec (cluster : Nat) (s : State) : outcomeSec s.sec (execUnfreeze cluster s) = s.sec :=
  walkCmd_sec _ _ _ (runFreeze_sec _)

@[simp] theorem forkPage_sec (src dst : SeqRec) (s : State) (lp : Nat × Nat) : (forkPage src dst s lp).st.sec = s.sec := by
  simp only [forkPage]
  (repeat' split) <;> simp

@[simp] theorem runFork_sec (b : Bound) (d : WalkDesc) (s : State) : (runFork b d s).st.sec = s.sec := by
  unfold runFork
  refine locked_sec _ _ _ fun t => ?_
  have hp (src dst : SeqRec) := pages_sec (forkPage_sec src dst)
  dsimp only
  (repeat' split) <;> grind [readSeq_sec, writeSeq_sec, Walked.st, Paged.st]

@[simp] theorem execFork_sec (cluster : Nat) (s : State) : outcomeSec s.sec (execFork cluster s) = s.sec :=
  walkCmd_sec _ _ _ runFork_sec

@[simp] theorem commitRow_sec (q : SeqRec) (r : CommitRec) (s : State) (lm : Nat × (Nat × Nat)) :
    (commitRow q r s lm).st.sec = s.sec := by
  unfold commitRow
  extract_lets sp dp
  have hw := makeWritable_sec s q lm.1 dp.1
  split
  · rfl
  · next t e h => simpa [h] using hw
  · next t p bad h =>
    have ht : t.sec = s.sec := by simpa [h] using hw
    extract_lets x
    have hx : x.1.sec = s.sec := (readPte_sec _ _ _ _).trans ht
    split
    · exact hx
    · rw [Paged.st, foldl_fst_sec, hx]
      exact fun _ _ => copySectors_sec _ _ _ _

@[simp] theorem unmark_sec (s : State) (q c : Nat) : (unmark s q c).sec = s.sec := by simp [unmark]

@[simp] theorem commitRun_sec (c : Nat) (q : SeqRec) (r : CommitRec) (s : State) : (commitRun c q r s).st.sec = s.sec := by
  unfold commitRun
  grind [commitRow_sec, pages_sec, freePage_sec, unmark_sec, writeSeq_sec, Walked.st, Paged.st]

@[simp] theorem runCommit_sec (b : Bound) (d : WalkDesc) (s : State) : (runCommit b d s).st.sec = s.sec := by
  unfold runCommit
  extract_lets rr
  have hrr : rr.1.sec = s.sec := ctrlRead_sec _ _ _
  split
  · exact hrr
  · extract_lets r
    split
    · exact hrr
    · refine (locked_sec _ _ _ fun t => ?_).trans hrr
      dsimp only
      (repeat' split) <;> grind [readSeq_sec, ctrlRead_sec, commitRun_sec, Walked.st]

@[simp] theorem execKvCommit_sec (cluster : Nat) (s : State) : outcomeSec s.sec (execKvCommit cluster s) = s.sec :=
  walkCmd_sec _ _ _ runCommit_sec

@[simp] theorem countScoreSkip_sec (s : State) : (countScoreSkip s).sec = s.sec := by simp [countScoreSkip]

@[simp] theorem scoreEntry_sec (r : SeqRec) (layer : Nat) (curve : Bytes) (s : State) (e : Nat × Nat) :
    (scoreEntry r layer curve s e).st.sec = s.sec := by
  simp only [scoreEntry]
  (repeat' split) <;> simp

@[simp] theorem runScore_sec (b : Bound) (d : WalkDesc) (s : State) : (runScore b d s).st.sec = s.sec := by
  simp only [runScore]
  (repeat' split) <;> grind [scoreEntry_sec, startReader_sec, pages_sec, readSeq_sec, waitInputs_sec, popHandle_sec, release_sec,
    memRead_sec, Walked.st, Paged.st]

@[simp] theorem execScore_sec (cluster : Nat) (s : State) : outcomeSec s.sec (execScore cluster s) = s.sec :=
  walkCmd_sec _ _ _ runScore_sec

@[simp] theorem walkLayer_sec (s : State) (d : WalkDesc) (r : SeqRec) (layer : Nat) : (walkLayer s d r layer).1.sec = s.sec := by
  unfold walkLayer
  dsimp only
  split
  · rfl
  · rw [foldl_fst_sec]
    intro p a
    (repeat' split) <;> simp

@[simp] theorem setReader_sec (s : State) (b : Bound) (f : Reader → Reader) : (setReader s b f).sec = s.sec := by simp [setReader]

@[simp] theorem flushOuts_sec (b : Bound) (d : WalkDesc) (s : State) (l) : (flushOuts b d s l).st.sec = s.sec := by
  fun_induction flushOuts <;> grind [setReader_sec, emit_sec, drawBuffer_sec, readerEmits_sec, memWrite_sec, Drawn.secOr,
    Flushed.st]

@[simp] theorem attendEnd_sec (s : State) (b : Bound) : (attendEnd s b).st.sec = s.sec := by
  unfold attendEnd
  (repeat' split) <;> simp

@[simp] theorem attendGo_sec (b : Bound) (d : WalkDesc) (r : SeqRec) (n : Nat) (s : State) :
    (attendGo b d r n s).st.sec = s.sec := by
  fun_induction attendGo <;> grind [flushOuts_sec, Flushed.st, Walked.st, setReader_sec, attendEnd_sec, walkLayer_sec,
    modStation_sec]

@[simp] theorem attendStart_sec (b : Bound) (d : WalkDesc) (rec_ : Option SeqRec) (s : State) :
    (attendStart b d rec_ s).st.sec = s.sec := by
  unfold attendStart
  grind [modStation_sec, startReader_sec, setReader_sec, waitInputs_sec, popHandle_sec, attendGo_sec, Walked.st]

@[simp] theorem runAttend_sec (b : Bound) (d : WalkDesc) (s : State) : (runAttend b d s).st.sec = s.sec := by
  simp only [runAttend]
  (repeat' split) <;> simp

@[simp] theorem attendKeep_sec (s : State) (b : Bound) (st : Status) : (attendKeep s b st).sec = s.sec := by simp [attendKeep]

@[simp] theorem execAttend_sec (cluster : Nat) (s : State) : outcomeSec s.sec (execAttend cluster s) = s.sec := by
  unfold execAttend
  grind [walkCmd_sec, runAttend_sec, attendKeep_sec, Walked.st]

/-! ### Moving pages between tiers -/

theorem collect_sec {α β : Type} {f : State → α → State × Except Status (Option β)} (hf : ∀ t x, (f t x).1.sec = t.sec)
    (s : State) (l : List α) : (collect f s l).1.sec = s.sec := by
  induction l generalizing s with
  | nil => rfl
  | cons p t ih =>
    simp only [collect]
    (repeat' split) <;> simp [ih, hf]

@[simp] theorem scorePages_sec (r : SeqRec) (kind count : Nat) (s : State) (layer : Nat) :
    (scorePages r kind count s layer).1.sec = s.sec := by
  unfold scorePages
  grind [collect_sec, readPte_sec, memRead_sec]

@[simp] theorem listPages_sec (r : SeqRec) (src count : Nat) (s : State) : (listPages r src count s).1.sec = s.sec := by
  unfold listPages
  grind [collect_sec, ctrlRead_sec]

@[simp] theorem objectPage_sec (r : SeqRec) (seq : Nat) (s : State) (o : Nat) : (objectPage r seq s o).1.sec = s.sec := by
  simp only [objectPage]
  (repeat' split) <;> simp

@[simp] theorem skimPages_sec (r : SeqRec) (seq : Nat) (s : State) (l : List Nat) : (skimPages r seq s l).1.sec = s.sec := by
  induction l generalizing s with
  | nil => rfl
  | cons p t ih =>
    simp only [skimPages]
    split <;> simp [ih]

@[simp] theorem moveDest_sec (s : State) (r : SeqRec) (m : MoveRec) (p : Pte) (n : Nat) :
    (moveDest s r m p n).st.sec = s.sec := by
  unfold moveDest
  grind [ctrlRead_sec, allocObj_sec, takeFrame_sec, Dest.st, Took.secOr]

@[simp] theorem movePage_sec (seq : Nat) (r : SeqRec) (m : MoveRec) (a : State × Except Status MoveOut) (lp : Nat × Nat) :
    (movePage seq r m a lp).1.sec = a.1.sec := by
  simp only [movePage]
  (repeat' split) <;> grind [readPte_sec, moveDest_sec, Dest.st, memWrite_sec, writePte_sec]

@[simp] theorem moveEnds_sec (b : Bound) (d : WalkDesc) (m : MoveRec) (st : Status) (n skipped : Nat) (s : State) :
    (moveEnds b d m st n skipped s).st.sec = s.sec := by
  unfold moveEnds
  (repeat' split) <;> simp

@[simp] theorem moveList_sec (b : Bound) (d : WalkDesc) (r : SeqRec) (m : MoveRec) (skipped : Nat) (ps : List (Nat × Nat))
    (s : State) : (moveList b d r m skipped ps s).st.sec = s.sec := by
  unfold moveList
  split
  · next x hx =>
    obtain ⟨lp, -, h⟩ := List.exists_of_findSome?_eq_some hx
    split at h <;> grind [readPte_sec, Walked.st]
  · extract_lets q
    have hq : q.1.sec = s.sec := foldl_fst_sec _ _ _ fun a lp => movePage_sec _ _ _ _ _
    split
    · exact hq
    · exact (moveEnds_sec _ _ _ _ _ _ _).trans hq

@[simp] theorem moveSkim_sec (b : Bound) (d : WalkDesc) (r : SeqRec) (m : MoveRec) (s : State) :
    (moveSkim b d r m s).st.sec = s.sec := by
  unfold moveSkim
  grind [waitInputs_sec, moveList_sec, skimPages_sec, popHandle_sec, moveEnds_sec, release_sec, memRead_sec, Walked.st]

@[simp] theorem movePages_sec (d : WalkDesc) (r : SeqRec) (m : MoveRec) (s : State) : (movePages d r m s).1.sec = s.sec := by
  unfold movePages
  grind [collect_sec, scorePages_sec, listPages_sec]

@[simp] theorem runMoveBegin_sec (b : Bound) (d : WalkDesc) (s : State) : (runMoveBegin b d s).st.sec = s.sec := by
  simp only [runMoveBegin]
  (repeat' split) <;> grind [ctrlRead_sec, movePages_sec, readSeq_sec, locked_sec, moveSkim_sec, moveList_sec, emit_sec,
    Walked.st]

@[simp] theorem execMoveBegin_sec (cluster : Nat) (s : State) : outcomeSec s.sec (execMoveBegin cluster s) = s.sec :=
  walkCmd_sec _ _ _ runMoveBegin_sec

@[simp] theorem countMoveFail_sec (s : State) : (countMoveFail s).sec = s.sec := by simp [countMoveFail]
@[simp] theorem returnLoc_sec (s : State) (ret loc : Nat) : (returnLoc s ret loc).sec = s.sec := by simp [returnLoc]

@[simp] theorem releasePlace_sec (s : State) (ret : Nat) (hbm : Bool) (pool loc : Nat) :
    (releasePlace s ret hbm pool loc).1.sec = s.sec := by simp [releasePlace]

@[simp] theorem releaseDest_sec (s : State) (ret kind dst : Nat) : (releaseDest s ret kind dst).1.sec = s.sec := by
  simp [releaseDest]

@[simp] theorem endEntry_sec (seq : Nat) (r : SeqRec) (ret : Nat) (e : MoveEntry) (ok : Bool) (s : State) :
    (endEntry seq r ret e ok s).1.sec = s.sec := by
  simp only [endEntry]
  (repeat' split) <;> simp

@[simp] theorem setEntryStatus_sec (s : State) (list i st : Nat) : (setEntryStatus s list i st).sec = s.sec := by
  simp [setEntryStatus]

theorem endEntries_sec (b : Bound) (d : WalkDesc) (r : SeqRec) (ret : Nat) {next : State → Option (State × Nat × Option Handle)}
    (hn : ∀ t, (((next t).map (·.1.sec)).getD t.sec) = t.sec) (n i : Nat) (s : State) :
    (endEntries b d r ret next n i s).st.sec = s.sec := by
  fun_induction endEntries <;> grind [ctrlRead_sec, endEntry_sec, release_sec, setEntryStatus_sec, Ended.st]

theorem moveFinish_sec (b : Bound) (d : WalkDesc) {next : State → Option (State × Nat × Option Handle)}
    (hn : ∀ t, ((next t).map (·.1.sec)).getD t.sec = t.sec) (s : State) : (moveFinish b d next s).st.sec = s.sec := by
  unfold moveFinish
  refine locked_sec _ _ _ fun t => ?_
  dsimp only
  (repeat' split) <;>
    grind [readSeq_sec, ctrlRead_sec, memWrite_sec, modStation_sec, endEntries_sec, Ended.st, Walked.st, waitInputs_sec]

@[simp] theorem runMoveEnd_sec (b : Bound) (d : WalkDesc) (s : State) : (runMoveEnd b d s).st.sec = s.sec := by
  unfold runMoveEnd
  split
  · rfl
  · exact moveFinish_sec _ _ (fun t => by grind [popHandle_sec, Option.map_map, Function.comp_def]) _

@[simp] theorem execMoveEnd_sec (cluster : Nat) (s : State) : outcomeSec s.sec (execMoveEnd cluster s) = s.sec :=
  walkCmd_sec _ _ _ runMoveEnd_sec

@[simp] theorem runMoveAbort_sec (b : Bound) (d : WalkDesc) (s : State) : (runMoveAbort b d s).st.sec = s.sec := by
  unfold runMoveAbort
  grind [moveFinish_sec, tick1_sec]

@[simp] theorem execMoveAbort_sec (cluster : Nat) (s : State) : outcomeSec s.sec (execMoveAbort cluster s) = s.sec :=
  walkCmd_sec _ _ _ runMoveAbort_sec

@[simp] theorem retryWalk_sec (op cluster : Nat) (s : State) : outcomeSec s.sec (retryWalk op cluster s) = s.sec := by
  unfold retryWalk
  split <;> simp

@[simp] theorem execSequenceLockGrant_sec (cluster : Nat) (s : State) :
    outcomeSec s.sec (execSequenceLockGrant cluster s) = s.sec := by
  unfold execSequenceLockGrant
  (repeat' split) <;> simp

/-! ### Reads of the set-up window -/

@[simp] theorem setLatch_sec (s : State) (q : Requester) (l : Option (Nat × Nat)) : (setLatch s q l).sec = s.sec := by
  simp [setLatch]

@[simp] theorem readPart_sec (s : State) (q : Requester) (off n : Nat) : (readPart s q off n).1.sec = s.sec := by
  unfold readPart
  split <;> simp

@[simp] theorem readReg_sec (s : State) (q : Requester) (off n : Nat) : (readReg s q off n).1.sec = s.sec := by simp [readReg]

/-! ### Writes of the set-up window -/

@[simp] theorem rwl_sec (s t : State) : (rwl s t).sec = if s.hif.lock then s.sec else t.sec := apply_ite State.sec _ _ _
@[simp] theorem modFab_sec (s : State) (f : Fab → Fab) : (modFab s f).sec = s.sec := by simp [modFab]

@[simp] theorem wHif_sec (o : Nat) (v : Word) (s : State) : (wHif o v s).sec = s.sec := by
  unfold wHif
  split <;> simp

@[simp] theorem opLinkCtl_sec (l : Nat) (v : Word) (s : State) : (opLinkCtl l v s).sec = s.sec := by simp [opLinkCtl]
@[simp] theorem clearRouter_sec (d j : Nat) (v : Word) (s : State) : (clearRouter d j v s).sec = s.sec := by simp [clearRouter]

@[simp] theorem wFabArrays_sec (o : Nat) (v : Word) (s : State) : (wFabArrays o v s).sec = s.sec := by
  unfold wFabArrays
  split <;> simp

@[simp] theorem wFab_sec (q : Requester) (o : Nat) (v : Word) (s : State) : (wFab q o v s).sec = s.sec := by
  unfold wFab
  split <;> simp

@[simp] theorem wCol_sec (q : Requester) (o : Nat) (v : Word) (s : State) : (wCol q o v s).sec = s.sec := by
  simp only [wCol]
  (repeat' split) <;> simp

@[simp] theorem wKvc_sec (o : Nat) (v : Word) (s : State) : (wKvc o v s).sec = s.sec := by
  unfold wKvc
  (repeat' split) <;> simp

@[simp] theorem wSsa_sec (o : Nat) (v : Word) (s : State) : (wSsa o v s).sec = s.sec := by
  unfold wSsa
  split <;> simp

@[simp] theorem wMem_sec (o : Nat) (v : Word) (s : State) : (wMem o v s).sec = s.sec := by
  unfold wMem
  (repeat' split) <;> simp

@[simp] theorem wFls_sec (o : Nat) (v : Word) (s : State) : (wFls o v s).sec = s.sec := by
  unfold wFls
  split <;> simp

@[simp] theorem wVse_sec (q : Requester) (o : Nat) (v : Word) (s : State) : (wVse q o v s).sec = s.sec := by
  unfold wVse
  (repeat' split) <;> simp

@[simp] theorem wClu_sec (o : Nat) (v : Word) (s : State) : (wClu o v s).sec = s.sec := by
  unfold wClu
  extract_lets c
  split
  · split
    · rw [rwl_sec, ite_sec, modCluster_sec, ite_self, ite_self]
    · exact modCluster_sec _ _ _
    · rw [rwl_sec, modCluster_sec, ite_self]
    · exact opWdogKick_sec _ _
    · rfl
  · split
    · exact modCore_sec _ _ _
    · rfl

@[simp] theorem opPwrCtrl_sec (v : Word) (s : State) : (opPwrCtrl v s).sec = s.sec := by simp [opPwrCtrl]

@[simp] theorem wPwr_sec (o : Nat) (v : Word) (s : State) : (wPwr o v s).sec = s.sec := by
  unfold wPwr
  split <;> simp

@[simp] theorem wThm_sec (o : Nat) (v : Word) (s : State) : (wThm o v s).sec = s.sec := by
  unfold wThm
  (repeat' split) <;> simp

@[simp] theorem wSec_floors (o : Nat) (v : Word) (s : State) : (wSec o v s).sec.floors = s.sec.floors := by
  unfold wSec
  split <;> simp

@[simp] theorem opEvtCfg_sec (v : Word) (s : State) : (opEvtCfg v s).sec = s.sec := by simp [opEvtCfg]
@[simp] theorem opEvtBase_sec (v : Nat) (s : State) : (opEvtBase v s).sec = s.sec := by simp [opEvtBase]
@[simp] theorem opTrcCfg_sec (v : Word) (s : State) : (opTrcCfg v s).sec = s.sec := by simp [opTrcCfg]

@[simp] theorem wTel_sec (o : Nat) (v : Word) (s : State) : (wTel o v s).sec = s.sec := by
  unfold wTel
  split <;> simp

@[simp] theorem write32_floors (q : Requester) (off : Nat) (v : Word) (s : State) :
    (write32 q off v s).sec.floors = s.sec.floors := by
  unfold write32
  split <;> simp

theorem act_of_some_eq {cur : Nat} {holds : Bool} {act : Dword → State → State} {x : WideWord}
    (h : some (⟨cur, holds, act⟩ : WideWord) = some x) : x.act = act := by
  cases h
  rfl

theorem wideHif_sec {s : State} {o : Nat} {x : WideWord} (h : wideHif s o = some x) (v : Dword) (t : State) :
    (x.act v t).sec = t.sec := by
  unfold wideHif at h
  split at h
  · cases h
    simp
  · cases h
    exact opRing0_sec _ _ _ _
  · cases h

theorem wideFab_sec {s : State} {o : Nat} {x : WideWord} (h : wideFab s o = some x) (v : Dword) (t : State) :
    (x.act v t).sec = t.sec := by
  unfold wideFab at h
  split at h <;> cases h <;> simp

theorem wideKvc_sec {s : State} {o : Nat} {x : WideWord} (h : wideKvc s o = some x) (v : Dword) (t : State) :
    (x.act v t).sec = t.sec := by
  unfold wideKvc at h
  (repeat' split at h) <;> cases h <;> simp

theorem wideMem_sec {s : State} {o : Nat} {x : WideWord} (h : wideMem s o = some x) (v : Dword) (t : State) :
    (x.act v t).sec = t.sec := by
  unfold wideMem at h
  extract_lets m at h
  split at h
  · rw [act_of_some_eq h, rwl_sec, modMem_sec, ite_self]
  · rw [act_of_some_eq h, rwl_sec, modMem_sec, ite_self]
  · rw [act_of_some_eq h, lendSubmit_sec]
  · split at h
    · rw [act_of_some_eq h, opLendGrant_sec]
    · cases h

theorem wideFls_sec {s : State} {o : Nat} {x : WideWord} (h : wideFls s o = some x) (v : Dword) (t : State) :
    (x.act v t).sec = t.sec := by
  unfold wideFls at h
  (repeat' split at h) <;> cases h <;> simp

theorem wideClu_sec {o : Nat} {x : WideWord} (h : wideClu o = some x) (v : Dword) (t : State) : (x.act v t).sec = t.sec := by
  unfold wideClu at h
  extract_lets c at h
  split at h
  · split at h
    · rw [act_of_some_eq h, opCluWcReset_sec]
    · rw [act_of_some_eq h, opSuRearm_sec]
    · rw [act_of_some_eq h, opSuRearm_sec]
    · cases h
  · split at h
    · split at h
      · rw [act_of_some_eq h, modCore_sec]
      · rw [act_of_some_eq h, modCore_sec]
      · cases h
    · cases h

theorem wideSec_floors {s : State} {o : Nat} {x : WideWord} (h : wideSec s o = some x) (v : Dword) (t : State) :
    (x.act v t).sec.floors = t.sec.floors := by
  unfold wideSec at h
  (repeat' split at h) <;> cases h <;> rfl

theorem wideTel_sec {s : State} {o : Nat} {x : WideWord} (h : wideTel s o = some x) (v : Dword) (t : State) :
    (x.act v t).sec = t.sec := by
  unfold wideTel at h
  split at h <;> cases h <;> simp

theorem wideAt_floors {s : State} {off : Nat} {x : WideWord} (h : wideAt s off = some x) (v : Dword) (t : State) :
    (x.act v t).sec.floors = t.sec.floors := by
  unfold wideAt at h
  extract_lets o at h
  split at h
  · rw [wideHif_sec h]
  · rw [wideFab_sec h]
  · rw [wideKvc_sec h]
  · rw [wideMem_sec h]
  · rw [wideFls_sec h]
  · rw [wideClu_sec h]
  · exact wideSec_floors h v t
  · rw [wideTel_sec h]
  · cases h

theorem writeHalf_floors (q : Requester) (off : Nat) {x : WideWord} (hx : ∀ v t, (x.act v t).sec.floors = t.sec.floors)
    (upper : Bool) (v : Word) (s : State) : (writeHalf q off x upper v s).sec.floors = s.sec.floors := by
  unfold writeHalf
  dsimp only
  (repeat' split) <;> simp [hx]

@[simp] theorem writeAt32_floors (q : Requester) (off : Nat) (v : Word) (s : State) :
    (writeAt32 q off v s).sec.floors = s.sec.floors := by
  unfold writeAt32
  split
  · next x hx => exact writeHalf_floors _ _ (wideAt_floors hx) _ _ _
  · simp

@[simp] theorem writeAt64_floors (q : Requester) (off : Nat) (v : Dword) (s : State) :
    (writeAt64 q off v s).sec.floors = s.sec.floors := by
  unfold writeAt64
  split
  · next x hx => simp [wideAt_floors hx]
  · simp

@[simp] theorem countWinErr_sec (s : State) : (countWinErr s).sec = s.sec := by simp [countWinErr]

@[simp] theorem regWrite_floors (q : Requester) (off width : Nat) (v : Dword) (s : State) :
    (regWrite q off width v s).sec.floors = s.sec.floors := by
  unfold regWrite
  split
  · simp
  · split <;> simp

@[simp] theorem execRegisterWrite_floors (req : Requester) (offset width : Nat) (value : Dword) (s : State) :
    (outcomeSec s.sec (execRegisterWrite req offset width value s)).floors = s.sec.floors := by
  unfold execRegisterWrite
  split
  · rfl
  · split
    · rfl
    · exact whenUp_floors (regWrite_floors _ _ _ _ _)

@[simp] theorem execFabEqxTime_sec (req : Requester) (s : State) : outcomeSec s.sec (execFabEqxTime req s) = s.sec := by
  unfold execFabEqxTime
  grind [readReg_sec, whenUp_sec, outcomeSec]

@[simp] theorem execRead32_floors (offset : Nat) (s : State) :
    (outcomeSec s.sec (execRead32 offset s)).floors = s.sec.floors := by
  refine sideband_floors _ _ fun t => ?_
  (repeat' split) <;> simp

@[simp] theorem execWrite32_floors (offset : Nat) (value : Word) (s : State) :
    (outcomeSec s.sec (execWrite32 offset value s)).floors = s.sec.floors := by
  refine sideband_floors _ _ fun t => ?_
  (repeat' split) <;> simp

/-! ### The fetch of submission entries -/

/-- Whatever state it is run in, the host operation leaves `sec` as it was. -/
def HostOp.KeepsSec (c : HostOp) : Prop := ∀ h s, (c.run h s).sec = s.sec

theorem hostOpOf_keepsSec (b : Bytes) : ∀ c ∈ hostOpOf b, c.KeepsSec := by
  unfold hostOpOf HostOp.KeepsSec
  (repeat' split) <;> simp

@[simp] theorem decodeEntry_sec (fn ring : Nat) (b : Bytes) (s : State) : (decodeEntry fn ring b s).sec = s.sec := by
  unfold decodeEntry
  extract_lets h
  split
  · exact complete_sec _ _ _ _
  · split
    · next c hc => exact hostGate_sec _ _ _ _ (hostOpOf_keepsSec b c hc h s)
    · exact complete_sec _ _ _ _

@[simp] theorem decodeRun_sec (fn ring n : Nat) (s : State) : (decodeRun fn ring n s).sec = s.sec := by
  fun_induction decodeRun <;> simp_all

@[simp] theorem sqFetch_sec (fn ring : Nat) (s : State) : (sqFetch fn ring s).sec = s.sec := by
  unfold sqFetch
  split <;> simp

@[simp] theorem execSqFetch_sec (fn ring : Nat) (s : State) : outcomeSec s.sec (execSqFetch fn ring s) = s.sec := by
  simp [execSqFetch]

/-! ### The operations of VEC -/

@[simp] theorem drawAll_sec (s : State) (b : Bound) (l) : (drawAll s b l).secOr s.sec = s.sec := by
  fun_induction drawAll <;> grind [drawBuffer_sec, Drawn.secOr, DrawnAll.secOr]

@[simp] theorem vecEnd_sec (s : State) (b : Bound) (io : VecIO) (st : Status) : (vecEnd s b io st).sec = s.sec := by simp [vecEnd]

@[simp] theorem vecEmpty_sec (s : State) (b : Bound) (io : VecIO) (outs : List Nat) (pred : Nat) :
    (vecEmpty s b io outs pred).sec = s.sec := by simp [vecEmpty]

@[simp] theorem vecPush_sec (s : State) (b : Bound) (io : VecIO) (pred : Nat) (st : Status) (outs at_ : List (Nat × Nat))
    (data : List Bytes) : (vecPush s b io pred st outs at_ data).sec = s.sec := by
  simp only [vecPush, vecEnd_sec]
  refine foldl_sec _ _ _ fun t x => ?_
  split <;> simp

theorem vecOut_sec {s0 s : State} (b : Bound) (io : VecIO) (hs : List Handle) (pred : Nat) (st : Status)
    (outs : List (Nat × Nat)) (data : List Bytes) (fl : Fl3) (h : s.sec = s0.sec) :
    (vecOut s0 s b io hs pred st outs data fl).sec = s0.sec := by
  simp only [vecOut]
  split <;> grind [drawAll_sec, haltStation_sec, vecPush_sec, releaseAll_sec, raise_sec, DrawnAll.secOr]

@[simp] theorem vecRead_sec (sees : Nat → Nat → Bool) (i : Nat) (s : State) (l : List (Handle × Nat)) :
    ((vecRead sees i s l).map (·.1.sec)).getD s.sec = s.sec := by
  fun_induction vecRead <;> grind [takeBytes_sec, Option.map_map, Function.comp_def]

/-- The operation's body leaves `sec` as it was, whatever its inputs. -/
def VecPlan.KeepsSec (p : VecPlan) : Prop := ∀ t en ds, (p.body t en ds).secOr t.sec = t.sec

theorem vecTile_sec (s : State) (io : VecIO) {p : VecPlan} (hp : p.KeepsSec) : (vecTile s io p).sec = s.sec := by
  unfold VecPlan.KeepsSec at hp
  simp only [vecTile]
  (repeat' split) <;>
    grind [popAll_sec, vecRead_sec, vecOut_sec, vecEmpty_sec, waitInputs_sec, haltStation_sec, releaseAll_sec, VecRes.secOr]

theorem vecCmd_sec (s : State) (io : VecIO) {p : VecPlan} (hp : p.KeepsSec) : outcomeSec s.sec (vecCmd s io p) = s.sec :=
  onUnit_sec _ _ _ (vecTile_sec s io hp)

@[simp] theorem readVecs_sec (s : State) (l : List (Bool × Nat × Nat)) : ((readVecs s l).map (·.1.sec)).getD s.sec = s.sec := by
  fun_induction readVecs <;> grind [memRead_sec, Option.map_map, Function.comp_def]

theorem sfuOperationPlan_keepsSec (io : VecIO) (rec : Word) : (sfuOperationPlan io rec).KeepsSec := by
  intro t en ds
  simp only [sfuOperationPlan]
  split <;> rfl

@[simp] theorem execSfuOperation_sec (io : VecIO) (rec : Word) (s : State) :
    outcomeSec s.sec (execSfuOperation io rec s) = s.sec :=
  vecCmd_sec _ _ (sfuOperationPlan_keepsSec _ _)

@[simp] theorem statTile_sec (io : VecIO) (r : StatRec)
    (row : List (Option Nat) → List Nat → List Nat → List (Option Nat) × Nat × Nat) (s : State) (en : BitVec 128 × BitVec 64)
    (ds : List Bytes) : (statTile io r row s en ds).secOr s.sec = s.sec := by
  unfold statTile
  grind [readVecs_sec, VecRes.secOr]

theorem rmsPlan_keepsSec (io : VecIO) (rec : BitVec 256) : (rmsPlan io rec).KeepsSec := by
  intro t en ds
  simp only [rmsPlan]
  exact statTile_sec _ _ _ _ _ _

@[simp] theorem execRms_sec (io : VecIO) (rec : BitVec 256) (s : State) : outcomeSec s.sec (execRms io rec s) = s.sec :=
  vecCmd_sec _ _ (rmsPlan_keepsSec _ _)

theorem layerNormPlan_keepsSec (io : VecIO) (rec : BitVec 256) : (layerNormPlan io rec).KeepsSec := by
  intro t en ds
  simp only [layerNormPlan]
  exact statTile_sec _ _ _ _ _ _

@[simp] theorem execLayerNorm_sec (io : VecIO) (rec : BitVec 256) (s : State) :
    outcomeSec s.sec (execLayerNorm io rec s) = s.sec :=
  vecCmd_sec _ _ (layerNormPlan_keepsSec _ _)

theorem outputStagePlan_keepsSec (io : VecIO) (rec : BitVec 384) : (outputStagePlan io rec).KeepsSec := by
  intro t en ds
  simp only [outputStagePlan]
  (repeat' split) <;> grind [readVecs_sec, VecRes.secOr]

@[simp] theorem execOutputStage_sec (io : VecIO) (rec : BitVec 384) (s : State) :
    outcomeSec s.sec (execOutputStage io rec s) = s.sec :=
  vecCmd_sec _ _ (outputStagePlan_keepsSec _ _)

@[simp] theorem countCurdSkip_sec (s : State) : (countCurdSkip s).sec = s.sec := by simp [countCurdSkip]

theorem curdEncPlan_keepsSec (io : VecIO) (rec : Word) (dpool : Nat) : (curdEncPlan io rec dpool).KeepsSec := by
  intro t en ds
  simp only [curdEncPlan]
  split
  · rfl
  · split <;> simp

@[simp] theorem execCurdEnc_sec (io : VecIO) (rec : Word) (dpool : Nat) (s : State) :
    outcomeSec s.sec (execCurdEnc io rec dpool s) = s.sec :=
  vecCmd_sec _ _ (curdEncPlan_keepsSec _ _ _)

theorem comparePlan_keepsSec (k : Cmp) (io : VecCmpIO) : (comparePlan k io).KeepsSec := fun _ _ _ => rfl

@[simp] theorem execVecEq_sec (io : VecCmpIO) (s : State) : outcomeSec s.sec (execVecEq io s) = s.sec :=
  vecCmd_sec _ _ (comparePlan_keepsSec _ _)

@[simp] theorem execVecNe_sec (io : VecCmpIO) (s : State) : outcomeSec s.sec (execVecNe io s) = s.sec :=
  vecCmd_sec _ _ (comparePlan_keepsSec _ _)

@[simp] theorem execVecLt_sec (io : VecCmpIO) (s : State) : outcomeSec s.sec (execVecLt io s) = s.sec :=
  vecCmd_sec _ _ (comparePlan_keepsSec _ _)

@[simp] theorem execVecLe_sec (io : VecCmpIO) (s : State) : outcomeSec s.sec (execVecLe io s) = s.sec :=
  vecCmd_sec _ _ (comparePlan_keepsSec _ _)

@[simp] theorem execVecGt_sec (io : VecCmpIO) (s : State) : outcomeSec s.sec (execVecGt io s) = s.sec :=
  vecCmd_sec _ _ (comparePlan_keepsSec _ _)

@[simp] theorem execVecGe_sec (io : VecCmpIO) (s : State) : outcomeSec s.sec (execVecGe io s) = s.sec :=
  vecCmd_sec _ _ (comparePlan_keepsSec _ _)

theorem selectPlan_keepsSec (isMax num : Bool) (io : VecIO) (acb : Byte) : (selectPlan isMax num io acb).KeepsSec :=
  fun _ _ _ => rfl

@[simp] theorem execVecMax_sec (io : VecIO) (acb : Byte) (s : State) : outcomeSec s.sec (execVecMax io acb s) = s.sec :=
  vecCmd_sec _ _ (selectPlan_keepsSec _ _ _ _)

@[simp] theorem execVecMin_sec (io : VecIO) (acb : Byte) (s : State) : outcomeSec s.sec (execVecMin io acb s) = s.sec :=
  vecCmd_sec _ _ (selectPlan_keepsSec _ _ _ _)

@[simp] theorem execVecMaxnum_sec (io : VecIO) (acb : Byte) (s : State) : outcomeSec s.sec (execVecMaxnum io acb s) = s.sec :=
  vecCmd_sec _ _ (selectPlan_keepsSec _ _ _ _)

@[simp] theorem execVecMinnum_sec (io : VecIO) (acb : Byte) (s : State) : outcomeSec s.sec (execVecMinnum io acb s) = s.sec :=
  vecCmd_sec _ _ (selectPlan_keepsSec _ _ _ _)

theorem arithmeticPlan_keepsSec (io : VecIO) (op : EltOp) (acb : Byte) : (arithmeticPlan io op acb).KeepsSec := fun _ _ _ => rfl

@[simp] theorem execElementWiseArithmetic_sec (io : VecIO) (op : EltOp) (acb : Byte) (s : State) :
    outcomeSec s.sec (execElementWiseArithmetic io op acb s) = s.sec :=
  vecCmd_sec _ _ (arithmeticPlan_keepsSec _ _ _)

theorem conversionPlan_keepsSec (io : VecIO) (outFmt : NumFmt) (mx : Bool) (acb : Byte) :
    (conversionPlan io outFmt mx acb).KeepsSec := by
  intro t en ds
  simp only [conversionPlan]
  split <;> rfl

@[simp] theorem execConversion_sec (io : VecIO) (outFmt : NumFmt) (mx : Bool) (acb : Byte) (s : State) :
    outcomeSec s.sec (execConversion io outFmt mx acb s) = s.sec :=
  vecCmd_sec _ _ (conversionPlan_keepsSec _ _ _ _)

theorem sketchPlan_keepsSec (io : VecIO) : (sketchPlan io).KeepsSec := by
  intro t en ds
  simp only [sketchPlan]
  (repeat' split) <;> grind [readVecs_sec, VecRes.secOr]

@[simp] theorem execSketch_sec (io : VecIO) (s : State) : outcomeSec s.sec (execSketch io s) = s.sec :=
  vecCmd_sec _ _ (sketchPlan_keepsSec _)

/-! ### What the thaw does to the floors (R425) -/

theorem numbered_getElem? {α : Type} (l : List α) (i k : Nat) : (numbered l i)[k]? = l[k]?.map (i + k, ·) := by
  induction l generalizing i k with
  | nil => rfl
  | cons x t ih =>
    cases k with
    | zero => rfl
    | succ k =>
      have hk : i + 1 + k = i + (k + 1) := by omega
      simp only [numbered, List.getElem?_cons_succ, ih, hk]

theorem leAt_lt (l : Bytes) (off n : Nat) : leAt l off n < 256 ^ n := by
  induction n generalizing off with
  | zero => simp [leAt]
  | succ n ih =>
    have hrest := ih (off + 1)
    have hbyte : byteAt l off < 256 := (l.getD off 0#8).isLt
    rw [leAt, pow_succ]
    omega

theorem imgFloor_lt (b : Bytes) : imgFloor b < 2 ^ 32 := leAt_lt b 8 4

theorem bootedImage_raiseFloors (s : State) (k : Nat) : bootedImage (raiseFloors s) k = bootedImage s k := rfl

/-- The larger of two 32-bit values is one, so nothing wraps. -/
theorem raiseFloors_getD {s : State} {k : Nat} (hk : k < s.sec.floors.length) :
    ((raiseFloors s).sec.floors.getD k 0#32).toNat = max (s.sec.floors.getD k 0#32).toNat (imgFloor (bootedImage s k)) := by
  have hmax := max_lt (s.sec.floors.getD k 0#32).isLt (imgFloor_lt (bootedImage s k))
  rw [← Nat.mod_eq_of_lt hmax]
  simp [raiseFloors, List.getD_eq_getElem?_getD, numbered_getElem?, hk]

theorem le_raiseFloors (s : State) (k : Nat) :
    (s.sec.floors.getD k 0#32).toNat ≤ ((raiseFloors s).sec.floors.getD k 0#32).toNat := by
  rcases Nat.lt_or_ge k s.sec.floors.length with hk | hk
  · rw [raiseFloors_getD hk]
    exact le_max_left _ _
  · simp [hk]

/-! ### The state in which a Thaw ends -/

@[simp] theorem event_pwr (s : State) (e : Event) : (event s e).pwr = s.pwr := (event_frame s e).pwr
@[simp] theorem alarm_pwr (s : State) (n arg : Nat) : (alarm s n arg).pwr = s.pwr := (alarm_frame s n arg).pwr

@[simp] theorem countLost_pwr (s : State) (d k : Nat) : (countLost s d k).pwr = s.pwr := by
  simp [countLost, countRouter, (ctrSat_frame _ _ _ _).pwr]

theorem cableRecheck_pwr (s : State) : (cableRecheck s).pwr = s.pwr := by
  unfold cableRecheck
  split
  · rfl
  · extract_lets rs s1
    split
    · rfl
    · split
      · rfl
      · exact alarm_pwr _ _ _

theorem enterIdle_state (s : State) : (enterIdle s).pwr.state = .idle := by
  unfold enterIdle
  extract_lets t dropped
  have hdropped : dropped.pwr = t.pwr := foldl_keeps State.pwr (fun u p => by split <;> simp) _ _
  rw [cableRecheck_pwr, hdropped]
  rfl

/-! ### The cases of a Thaw -/

/-- A Thaw's failed stacks and channels are noted; then the module is IDLE with its floors raised, or WITHDRAWN with its floors as
they were. -/
theorem thawEnds_cases (s : State) (finds : ThawFinds) :
    (∃ t, t.sec.floors = s.sec.floors ∧ thawEnds s finds = raiseFloors (enterIdle t)) ∨
      (thawEnds s finds).pwr.state = .withdrawn ∧ (thawEnds s finds).sec.floors = s.sec.floors := by
  unfold thawEnds
  extract_lets t t1 t2 why
  have h2 : t2.sec.floors = s.sec.floors := by simp [t2, t1, t]
  split
  · exact .inl ⟨t2, h2, rfl⟩
  · refine .inr ⟨?_, ?_⟩
    · simp [startClocks]
    · simpa using h2

theorem thawFails_state_ne_idle (s : State) (cause : Nat) : (thawFails s cause).pwr.state ≠ .idle := by
  simp [thawFails, enterStandby, bootController]

/-- A Thaw reaches IDLE with the floors raised, or it ends elsewhere with the floors as they were. -/
theorem thawSequence_cases (s : State) (finds : ThawFinds) :
    (∃ t, t.sec.floors = s.sec.floors ∧ thawSequence finds s = raiseFloors (enterIdle t)) ∨
      (thawSequence finds s).pwr.state ≠ .idle ∧ (thawSequence finds s).sec.floors = s.sec.floors := by
  unfold thawSequence
  extract_lets a b t
  have ht : t.sec.floors = s.sec.floors := rfl
  have hfails (cause : Nat) : (thawFails t cause).pwr.state ≠ .idle ∧ (thawFails t cause).sec.floors = s.sec.floors :=
    ⟨thawFails_state_ne_idle t cause, (thawFails_floors t cause).trans ht⟩
  split
  · exact .inr (hfails _)
  · split
    · exact .inr (hfails _)
    · split
      · exact .inr (hfails _)
      · split
        · exact .inr (hfails _)
        · rcases thawEnds_cases t finds with ⟨u, hu, he⟩ | ⟨hstate, hfloors⟩
          · exact .inl ⟨u, hu.trans ht, he⟩
          · exact .inr ⟨by simp [hstate], hfloors.trans ht⟩

/-! ### Every step -/

/-- Every command but THAW_SEQUENCE leaves the floors as they were. -/
theorem exec_floors (c : Instr) (s : State) (hc : ∀ finds, c ≠ .thawSequence finds) :
    (outcomeSec s.sec (exec c s)).floors = s.sec.floors := by
  cases c with
  | thawSequence finds => exact absurd rfl (hc finds)
  | _ => simp [exec]

theorem le_thawSequence_floors (s : State) (finds : ThawFinds) (k : Nat) :
    (s.sec.floors.getD k 0#32).toNat ≤ ((thawSequence finds s).sec.floors.getD k 0#32).toNat := by
  rcases thawSequence_cases s finds with ⟨t, ht, he⟩ | ⟨-, hfloors⟩
  · rw [he, ← ht, ← enterIdle_floors t]
    exact le_raiseFloors _ _
  · rw [hfloors]

theorem thawSequence_getD {s : State} {finds : ThawFinds} {k : Nat} (hk : k < s.sec.floors.length) :
    ((thawSequence finds s).sec.floors.getD k 0#32).toNat = if (thawSequence finds s).pwr.state = .idle
      then max (s.sec.floors.getD k 0#32).toNat (imgFloor (bootedImage (thawSequence finds s) k))
      else (s.sec.floors.getD k 0#32).toNat := by
  rcases thawSequence_cases s finds with ⟨t, ht, he⟩ | ⟨hstate, hfloors⟩
  · have hfloors : (enterIdle t).sec.floors = s.sec.floors := (enterIdle_floors t).trans ht
    have hidle : (raiseFloors (enterIdle t)).pwr.state = .idle := enterIdle_state t
    rw [he, if_pos hidle, bootedImage_raiseFloors, ← hfloors]
    exact raiseFloors_getD (hfloors ▸ hk)
  · rw [if_neg hstate, hfloors]

theorem le_exec_floors {c : Instr} {s t : State} (h : exec c s = .next t) (k : Nat) :
    (s.sec.floors.getD k 0#32).toNat ≤ (t.sec.floors.getD k 0#32).toNat := by
  by_cases hc : ∃ finds, c = .thawSequence finds
  · obtain ⟨finds, rfl⟩ := hc
    simp only [exec, execThawSequence] at h
    split at h
    · cases h
    · split at h
      · cases h
      · cases h
        split
        · exact le_thawSequence_floors _ _ _
        · exact le_rfl
  · have hfloors := exec_floors c s (by simpa using hc)
    rw [h, outcomeSec_next] at hfloors
    rw [hfloors]

theorem le_step_floors {s t : State} (h : step s = .next t) (k : Nat) :
    (s.sec.floors.getD k 0#32).toNat ≤ (t.sec.floors.getD k 0#32).toNat := by
  unfold step at h
  split at h
  · cases h
    rw [refTick_sec]
  · exact le_exec_floors h k

theorem imageValid_of_version_lt {s : State} {k : Nat} {b : Bytes} (h : imgVersion b < (s.sec.floors.getD k 0#32).toNat) :
    imageValid s k b = false := by
  rw [imageValid, decide_eq_false (Nat.not_le.mpr h), Bool.and_false]

/-- Settles O60: of all commands THAW_SEQUENCE alone writes the floors, and where it reaches IDLE it takes a maximum. -/
theorem floorsNeverFall : Obligations.FloorsNeverFall := by
  refine ⟨fun s t k h => le_step_floors h k, fun s k b h => imageValid_of_version_lt h, fun s finds hthaw hstacks hflash => ?_⟩
  refine ⟨thawSequence finds s, ?_, fun k hk => thawSequence_getD hk⟩
  simp [exec, execThawSequence, hstacks, hflash, hthaw]

end Sys2Proof.Machine
end

