-- ==== Sys2Proof/Proofs/Selects.lean ====
section
/-! SUPPORT. The select registers (R441): what `setSelect` leaves a requester to select and to read, and that a 32-bit write of
FAB_RT_SEL, COL_GSEL or VSE_IDX_SEL is a `setSelect`. -/

namespace Sys2Proof.Machine

/-! ### What a requester selects -/

/-- A select is replaced for the one pair of requester and register that the write names. -/
theorem selectOf_setSelect (s : State) (q q' : Requester) (off off' v : Nat) :
    selectOf (setSelect s q off v) q' off' = if q = q' ∧ off = off' then v else selectOf s q' off' := by
  unfold selectOf setSelect
  by_cases h : q = q' ∧ off = off'
  · obtain ⟨rfl, rfl⟩ := h
    have hgone : (s.hif.selects.filter fun x => !(x.1 == q && x.2.1 == off)).find? (fun x => x.1 == q && x.2.1 == off) = none := by
      rw [List.find?_eq_none]
      intro x hx
      simpa only [Bool.not_eq_true, Bool.not_eq_true'] using (List.mem_filter.mp hx).2
    rw [List.find?_append, hgone]
    simp
  · have hkept : (s.hif.selects.filter fun x => !(x.1 == q && x.2.1 == off)).find? (fun x => x.1 == q' && x.2.1 == off')
        = s.hif.selects.find? fun x => x.1 == q' && x.2.1 == off' := by
      rw [List.find?_filter]
      congr 1
      grind
    have hnew : (q == q' && off == off') = false := by simpa using h
    rw [List.find?_append, hkept, List.find?_singleton, hnew, if_neg h]
    simp

theorem selectOf_setSelect_of_ne {s : State} {q q' : Requester} {sel v : Nat} (hne : q' ≠ q) (off : Nat) :
    selectOf (setSelect s q sel v) q' off = selectOf s q' off := by
  rw [selectOf_setSelect, if_neg fun h => hne h.1.symm]

/-! ### What another requester reads

The blocks with a select register are FAB, COL and VSE; no register of another block depends on a select. -/

theorem ctxBusy_setSelect (s : State) (q : Requester) (sel v : Nat) : ctxBusy (setSelect s q sel v) = ctxBusy s := rfl

theorem regFab_setSelect_of_ne {s : State} {q q' : Requester} {sel v : Nat} (hne : q' ≠ q) (o : Nat) :
    regFab (setSelect s q sel v) q' o = regFab s q' o := by
  simp only [regFab, rtEntryWord, linkAt, routerAt, setSelect_fab, selectOf_setSelect_of_ne hne]

theorem regCol_setSelect_of_ne {s : State} {q q' : Requester} {sel v : Nat} (hne : q' ≠ q) (o : Nat) :
    regCol (setSelect s q sel v) q' o = regCol s q' o := by
  simp only [regCol, shownGroup, findGroup, vatFree, setSelect_col, setSelect_groups, selectOf_setSelect_of_ne hne]

theorem regVse_setSelect_of_ne {s : State} {q q' : Requester} {sel v : Nat} (hne : q' ≠ q) (o : Nat) :
    regVse (setSelect s q sel v) q' o = regVse s q' o := by
  simp only [regVse, findIndex, ctxBusy_setSelect, setSelect_vse, selectOf_setSelect_of_ne hne]

theorem regAt_setSelect_of_ne {s : State} {q q' : Requester} {sel v : Nat} (hne : q' ≠ q) (off : Nat) :
    regAt (setSelect s q sel v) q' off = regAt s q' off := by
  unfold regAt
  simp only [regFab_setSelect_of_ne hne, regCol_setSelect_of_ne hne, regVse_setSelect_of_ne hne]
  rfl

/-- One requester's select and another's read commute: the read latches what it would have latched, and answers the same. -/
theorem readPart_setSelect_of_ne {s : State} {q q' : Requester} {sel v : Nat} (hne : q' ≠ q) (off n : Nat) :
    readPart (setSelect s q sel v) q' off n
      = (setSelect (readPart s q' off n).1 q sel v, (readPart s q' off n).2) := by
  unfold readPart
  rw [regAt_setSelect_of_ne hne]
  cases regAt s q' off with
  | none => rfl
  | some r =>
    by_cases hbase : off = r.base
    · by_cases htime : off = eqxTimeOff
      · simp only [if_pos hbase, if_pos htime]
        rfl
      · simp only [if_pos hbase, if_neg htime]
        rfl
    · simp only [if_neg hbase]
      rfl

theorem oneRegister_setSelect_of_ne {s : State} {q q' : Requester} {sel v : Nat} (hne : q' ≠ q) (off : Nat) :
    oneRegister (setSelect s q sel v) q' off = oneRegister s q' off := by
  simp only [oneRegister, regAt_setSelect_of_ne hne]

theorem readReg_setSelect_of_ne {s : State} {q q' : Requester} {sel v : Nat} (hne : q' ≠ q) (off n : Nat) :
    (readReg (setSelect s q sel v) q' off n).2 = (readReg s q' off n).2 := by
  simp only [readReg, oneRegister_setSelect_of_ne hne, readPart_setSelect_of_ne hne]
  split <;> rfl

/-! ### Writing a select register -/

/-- The select registers of R441: the window offset of each, and the number of values it holds. -/
def selectRegs : List (Nat × Nat) := [(rtSelOff, 512), (gselOff 0, 4096), (gselOff 1, 4096), (idxSelOff, 256)]

theorem mem_selectRegs_iff {sel mask : Nat} : (sel, mask) ∈ selectRegs ↔
    sel = rtSelOff ∧ mask = 512 ∨ sel = gselOff 0 ∧ mask = 4096 ∨ sel = gselOff 1 ∧ mask = 4096 ∨ sel = idxSelOff ∧ mask = 256 := by
  simp [selectRegs]

theorem regWrite_select {sel mask : Nat} (hsel : (sel, mask) ∈ selectRegs) (q : Requester) (value : Dword) (s : State) :
    regWrite q sel 32 value s = setSelect s q sel ((value.setWidth 32).toNat % mask) := by
  obtain ⟨rfl, rfl⟩ | ⟨rfl, rfl⟩ | ⟨rfl, rfl⟩ | ⟨rfl, rfl⟩ := mem_selectRegs_iff.mp hsel <;> rfl

theorem select_lt_window {sel mask : Nat} (hsel : (sel, mask) ∈ selectRegs) : sel < 0x04000000 := by
  have hall : ∀ r ∈ selectRegs, r.1 < 0x04000000 := by decide
  exact hall _ hsel

theorem exec_registerWrite_select {req : Requester} {sel mask : Nat} {s : State} (hup : hostUp s.pwr.state = true)
    (hreq : requesterOk req = true) (hsel : (sel, mask) ∈ selectRegs) (value : Dword) :
    exec (.registerWrite req sel 32 value) s = .next (setSelect s req sel ((value.setWidth 32).toNat % mask)) := by
  have hin : ¬ 0x04000000 ≤ sel := Nat.not_le.mpr (select_lt_window hsel)
  simp [exec, execRegisterWrite, whenUp, hreq, hin, hup, regWrite_select hsel]

/-- Settles O52: the write is a `setSelect`, which commutes with every other requester's read. -/
theorem selectsArePerRequester : Obligations.SelectsArePerRequester := by
  intro req other sel mask value s hup hreq hsel
  refine ⟨_, exec_registerWrite_select hup hreq hsel value, ?_, fun off hoff => ?_, fun hne off n => ?_⟩
  · rw [selectOf_setSelect, if_pos ⟨rfl, rfl⟩]
  · rw [selectOf_setSelect, if_neg fun h => hoff h.2.symm]
  · exact readReg_setSelect_of_ne hne off n

end Sys2Proof.Machine
end

