-- ==== Sys2Proof/Proofs/Units.lean ====
section
/-! SUPPORT. Which commands answer a next state: exactly those whose every named unit exists (log 6). One lemma per way a meaning
tests its units; a command's own case is the one its meaning begins with. -/

namespace Sys2Proof.Machine

/-- One step with a command at the front of the queue is the command's meaning, by the definition of a step. -/
theorem step_of_pending {s : State} {c : Instr} {rest : List Instr} (h : s.pending = c :: rest) :
    step s = exec c { s with pending := rest } := by
  rw [step, h]

/-- Settles O1. -/
theorem stepTakesFrontCommand : Obligations.StepTakesFrontCommand := fun _ _ _ h => step_of_pending h

/-! ### The two answers -/

/-- A next state where the units exist, a refusal for want of a unit where they do not. -/
def AnswersIf (ok : Bool) (o : Host.Outcome State Fault Refusal) : Prop :=
  (ok = true → ∃ t, o = .next t) ∧ (ok = false → ∃ u, o = .refused (.noSuchUnit u))

theorem answersIf_next (t : State) : AnswersIf true (.next t) := ⟨fun _ => ⟨t, rfl⟩, nofun⟩

theorem answersIf_refused (u : String) : AnswersIf false (.refused (.noSuchUnit u)) := ⟨nofun, fun _ => ⟨u, rfl⟩⟩

/-- A meaning that tests its units first: the refusal where one is missing, the rest of the meaning where they exist. -/
theorem answersIf_ite {c : Prop} [Decidable c] {ok : Bool} {u : String} {o : Host.Outcome State Fault Refusal}
    (hc : c → ok = false) (ho : ¬ c → AnswersIf ok o) : AnswersIf ok (if c then .refused (.noSuchUnit u) else o) := by
  split
  · next h => rw [hc h]; exact answersIf_refused u
  · next h => exact ho h

/-- The test `count ≤ n` of one unit. -/
theorem answersIf_unit {n m count : Nat} {u : String} {o : Host.Outcome State Fault Refusal} (hm : m + 1 = count)
    (ho : AnswersIf true o) : AnswersIf (decide (n < count)) (if m < n then .refused (.noSuchUnit u) else o) := by
  refine answersIf_ite (fun h => decide_eq_false (by omega)) fun h => ?_
  rwa [decide_eq_true (by omega)]

theorem answersIf_onUnit (n count : Nat) (what : String) (t : State) :
    AnswersIf (decide (n < count)) (onUnit n count what t) := by
  unfold onUnit AnswersIf
  split <;> simp_all

theorem answersIf_whenUp (s t : State) : AnswersIf true (whenUp s t) := by
  unfold whenUp AnswersIf
  split <;> simp

theorem answersIf_hostCmd (s : State) (h : HostHdr) (c : CmdClass) (always : Bool) (run : State → State) :
    AnswersIf h.wf (hostCmd s h c always run) := by
  refine answersIf_unit rfl ?_
  split <;> exact answersIf_next _

theorem answersIf_sideband (s : State) (rom : Bool) (run : State → State) : AnswersIf true (sideband s rom run) := by
  unfold sideband
  split <;> exact answersIf_next _

theorem answersIf_xferRun (s : State) (id op : Nat) (run : Xfer → State → State) : AnswersIf true (xferRun s id op run) := by
  unfold xferRun
  (repeat' split) <;> exact answersIf_next _

theorem answersIf_doorbell (s : State) (fn ring width : Nat) (f : Ring → State) :
    AnswersIf (decide (fn < 33) && decide (ring < 256)) (doorbell s fn ring width f) := by
  refine answersIf_ite (fun h => by simp; omega) fun hf => answersIf_ite (fun h => by simp; omega) fun hr => ?_
  rw [decide_eq_true (by omega), decide_eq_true (by omega)]
  (repeat' split) <;> exact answersIf_next _

theorem answersIf_retryWalk (op cluster : Nat) (hc : cluster < 16) (s : State) : AnswersIf true (retryWalk op cluster s) := by
  have hw (op : Nat) (run : Bound → WalkDesc → State → Walked) : AnswersIf true (walkCmd cluster op run s) := by
    have := answersIf_onUnit cluster 16 "cluster"
    rw [decide_eq_true hc] at this
    exact this _
  unfold retryWalk
  split
  on_goal 14 => exact answersIf_next _
  all_goals exact hw _ _

/-- The tests `count ≤ n` of two units. -/
theorem answersIf_two_units {n m count n' m' count' : Nat} {u u' : String} {o : Host.Outcome State Fault Refusal}
    (hm : m + 1 = count) (hm' : m' + 1 = count') (ho : AnswersIf true o) :
    AnswersIf (decide (n < count) && decide (n' < count'))
      (if m < n then .refused (.noSuchUnit u) else if m' < n' then .refused (.noSuchUnit u') else o) := by
  refine answersIf_ite (fun h => by simp; omega) fun h => answersIf_ite (fun h' => by simp; omega) fun h' => ?_
  rwa [decide_eq_true (by omega), decide_eq_true (by omega)]

theorem wf_eq_requesterOk (r : Requester) : r.wf = requesterOk r := by cases r <;> rfl

/-! ### Every command -/

theorem exec_answers (i : Instr) (s : State) : AnswersIf i.wf (exec i s) := by
  cases i with
  | graphLoad | graphStart | graphPause | graphResume | graphUnload | streamRearm | tableLoad | wcReset | groupOpen
  | groupReset | groupClose | cableCheck | lendCopy | wheyXfer | ringCreate | ringDelete | almanac =>
    exact answersIf_hostCmd _ _ _ _ _
  | timedStartFire | graphPauseDone | stallUsExpiry | cluSuRearm | sfuBankSwitch | cluWcReset | workCounterResetApply
  | claim | commit | atsResponse | hostReadCompletion | queuePush | queuePop | loadDescriptor | storeDescriptor
  | streamTransferDone | storeTileWritten | claimTemplate | smallTransfer | smallTransferDone | mmaDescriptor | ssaAttend
  | descriptorTileArrival | ssaJobClose | churnHandshakeArrival | ringTileArrival | churnCreditArrival | churnTimeout
  | fence | withdraw | chunkUsExpiry | vatWaitTimeout | skimMerge | amo | compareAndSwap | patrolScrub | stackFail | lendReq
  | lendRsp | lendTimeout | flashUpkeep | flashChannelFail | linkPhaseDone | trainTimeout | linkRestart | lossOfSignal
  | frameReceive | replayTimeout | packetForward | fabStallExpiry | disc | eqxRequest | railFault | cluWdogExpiry
  | codewordReadDone | resetExchangeArrival | sfuOperation | rms | layerNorm | outputStage | curdEnc | vecEq | vecNe | vecLt
  | vecLe | vecGt | vecGe | vecMax | vecMin | vecMaxnum | vecMinnum | elementWiseArithmetic | conversion | sketch | attend
  | prepare | extend | kvCommit | fork | truncate | release | score | moveBegin | moveEnd | moveAbort | freeze | unfreeze
  | churnOpen | churnRotate | churnClose | collBcast | collAllgather | collAlltoall | collAlltoallv | collAllreduce
  | collReduceScatter | collAttnMerge | grantArrival | chunkArrival | resultChunkArrival | acknowledgementArrival | retire
  | scanInsert | scanDelete | scanHarvest | scanCreate | scanDestroy =>
    exact answersIf_onUnit _ _ _ _
  | wheyPut | wheyGet | wheyMoveOut | wheyMoveIn | wheyAlloc | wheyFree =>
    exact answersIf_xferRun _ _ _ _
  | sqTail | cqHead =>
    exact answersIf_doorbell _ _ _ _ _
  | hifSetupLock | kvcCurveCommit | memMarginCtl | fabTrain | fabRtEntry | fabDiscover | fabEqxSet | treeRegeneration
  | bottomTreeReplacement | pwrCtrlWake | thmDieCurve | secAttCtrl | secStageCtrl | secOwnerCtrl | telAlarmSum | telEvtHead
  | eventMirrorCopy | eventMirrorSignal | traceSample =>
    exact answersIf_whenUp _ _
  | eqxInterval | eqxReply | eqxLockLoss | inputRise | undervoltage | overvoltage | inputLoss | modRstNRise | modRstNLow
  | idleReq | wakeDone | sensorSweep | controllerWatchdogExpiry | atsInvalidation =>
    exact answersIf_next _
  | wake | read32 | write32 | thaw | shutdown | stageOpen | stageData | stageClose | ownerData | ownerCommit | attest
  | attestRead =>
    unfold exec
    exact answersIf_sideband s _ _
  | memLendPost | flsWheyPost | functionLevelReset | revoke | flsPool =>
    exact answersIf_unit rfl (answersIf_whenUp _ _)
  | almGo =>
    exact answersIf_unit rfl (by split <;> exact answersIf_next _)
  | sqFetch | revokeDone =>
    exact answersIf_unit rfl (answersIf_next _)
  | perstNLow | marginSweepDone | flashScanDone | pcieLinkRetrain | tableReloadRun | wheyTransferDone | msixModerationExpiry
  | indexBatchDurable | updateAliasWrite | harvestDone | configurationRequest =>
    simp only [exec, execPerstNLow, execMarginSweepDone, execFlashScanDone, execPcieLinkRetrain, execTableReloadRun,
      execWheyTransferDone, execMsixModerationExpiry, execIndexBatchDurable, execUpdateAliasWrite, execHarvestDone,
      execConfigurationRequest]
    (repeat' split) <;> exact answersIf_next _
  | hifRing0 | kvcPool =>
    exact answersIf_two_units rfl rfl (answersIf_whenUp _ _)
  | registerWrite req offset width value =>
    rw [Instr.wf, wf_eq_requesterOk]
    refine answersIf_ite (fun h => by simp_all) fun h => answersIf_ite (fun h' => by simp; omega) fun h' => ?_
    rw [show requesterOk req = true by simpa using h, decide_eq_true (by omega)]
    exact answersIf_whenUp _ _
  | sequenceLockGrant cluster =>
    refine answersIf_ite (fun h => decide_eq_false (by omega)) fun h => ?_
    rw [Instr.wf, decide_eq_true (by omega)]
    (repeat' split) <;> simp only [answersIf_next, answersIf_retryWalk _ _ (Nat.lt_of_not_le h)]
  | frameReclaim =>
    refine answersIf_unit rfl ?_
    dsimp only
    (repeat' split) <;> exact answersIf_next _
  | poolInitDone =>
    refine answersIf_unit rfl ?_
    (repeat' split) <;> exact answersIf_next _
  | memLendGrant =>
    refine answersIf_ite (fun h => by simp [Instr.wf]; omega) fun h => ?_
    rw [Instr.wf, decide_eq_true (by omega), decide_eq_true (by omega)]
    exact answersIf_whenUp _ _
  | fabLshape which value =>
    change AnswersIf (decide (which < 3)) (execFabLshape which value s)
    unfold execFabLshape
    split
    · next h => rw [decide_eq_true h]; exact answersIf_whenUp _ _
    · next h => rw [decide_eq_false h]; exact answersIf_refused _
  | fabEqxTime req =>
    rw [Instr.wf, wf_eq_requesterOk]
    refine answersIf_ite (fun h => by simpa using h) fun h => ?_
    rw [show requesterOk req = true by simpa using h]
    exact answersIf_whenUp _ _
  | thawSequence =>
    rw [Instr.wf, ThawFinds.wf]
    refine answersIf_ite (fun h => by simp [h]) fun h => answersIf_ite (fun h' => by simp [h']) fun h' => ?_
    rw [Bool.eq_false_of_not_eq_true h, Bool.eq_false_of_not_eq_true h']
    exact answersIf_next _
  | cluWdogKick =>
    simp only [exec, execCluWdogKick]
    split <;> exact answersIf_onUnit _ _ _ _
  | msixVectorUnmask =>
    refine answersIf_ite (fun h => by simp [Instr.wf]; omega) fun h => ?_
    rw [Instr.wf, decide_eq_true (by omega), Bool.true_and]
    exact answersIf_onUnit _ _ _ _
  | scanQuery =>
    simp only [exec, execScanQuery]
    split <;> exact answersIf_onUnit _ _ _ _

/-- Settles O3: every meaning begins with the test of its units and ends with a next state. -/
theorem existingUnitsNeverRefused : Obligations.ExistingUnitsNeverRefused := exec_answers

end Sys2Proof.Machine
end

