-- ==== Sys2Proof/Proofs/Keeps.lean ====
section
/-! SUPPORT. What every function of the model keeps: the queue of waiting commands and the invariant of `Sys2Proof.Invariant`.
`Keeps s t` says it of a run from `s` to `t`. For each function that answers a state there is one lemma, named after it: what
holds of the run so far holds when the function has run too. -/

namespace Sys2Proof.Machine

/-- From `s` to `t` the queue of waiting commands stays as it was, and the invariant is kept. -/
structure Keeps (s t : State) : Prop where
  pending : t.pending = s.pending
  inv : Invariant s → Invariant t

theorem Keeps.refl (s : State) : Keeps s s := ⟨rfl, id⟩

theorem Keeps.trans {s t u : State} (h : Keeps s t) (k : Keeps t u) : Keeps s u :=
  ⟨k.pending.trans h.pending, fun i => k.inv (h.inv i)⟩

/-- Where the queue, the memories, heat, power and security are as they were, all is kept. -/
theorem Keeps.of_eq {s t : State} (hq : t.pending = s.pending) (hm : t.mem = s.mem) (hh : t.hostMem = s.hostMem)
    (ht : t.thm = s.thm) (hp : t.pwr = s.pwr) (hs : t.sec = s.sec) : Keeps s t :=
  ⟨hq, by simp only [Invariant, MemoryWf, hm, hh, ht, hp, hs, imp_self]⟩

/-- The answer of a command, where it is a next state, keeps what a run keeps. -/
def OutKeeps (s : State) (o : Host.Outcome State Fault Refusal) : Prop := ∀ t, o = .next t → Keeps s t

theorem outKeeps_next {s t : State} (h : Keeps s t) : OutKeeps s (.next t) := fun _ e => by cases e; exact h

theorem outKeeps_refused (s : State) (r : Refusal) : OutKeeps s (.refused r) := fun _ e => by cases e

theorem onUnit_keeps (n count : Nat) (what : String) {s t : State} (h : Keeps s t) : OutKeeps s (onUnit n count what t) :=
  fun _ e => onUnit_cases _ _ _ _ _ e ▸ h

theorem whenUp_keeps {s t : State} (h : Keeps s t) : OutKeeps s (whenUp s t) := fun _ e => by
  obtain rfl | rfl := whenUp_cases _ _ _ e
  · exact .refl _
  · exact h

section
variable {s0 s : State}

/-! ### Updates of one place -/

theorem foldl_state_keeps {α : Type} {f : State → α → State} (hf : ∀ t a, Keeps s0 t → Keeps s0 (f t a)) (l : List α)
    (h : Keeps s0 s) : Keeps s0 (l.foldl f s) := by
  induction l generalizing s with
  | nil => exact h
  | cons a l ih => exact ih (hf _ _ h)

theorem foldl_fst_keeps {α β : Type} {f : State × β → α → State × β} {p : State × β}
    (hf : ∀ q a, Keeps s0 q.1 → Keeps s0 (f q a).1) (l : List α) (h : Keeps s0 p.1) : Keeps s0 (l.foldl f p).1 := by
  induction l generalizing p with
  | nil => exact h
  | cons a l ih => exact ih (hf _ _ h)

/-- A record update of the fields that neither the queue nor the invariant reads. -/
theorem update_keeps (h : Keeps s0 s) (now free : Nat) (poison soft hostAbsent hostEp : List Nat)
    (fusedTiles refs : List (Nat × Nat)) (hif : Hif) (tel : Tel) (graphs : List GraphSlot) (cores : List Core)
    (clusters : List Cluster) (sfu : Sfu) (kvc : Kvc) (ssa : List Ssa) (chn : List ChnCtx) (col : List ColRouter) (groups : List Group) (fab : Fab) (memc : MemCtl) (fls : Fls)
    (vse : Vse) : Keeps s0 { s with
      now := now, free := free, poison := poison, soft := soft, hostAbsent := hostAbsent, hostEp := hostEp
      fusedTiles := fusedTiles, refs := refs, hif := hif, tel := tel, graphs := graphs, cores := cores, clusters := clusters
      sfu := sfu, kvc := kvc, ssa := ssa, chn := chn, col := col, groups := groups, fab := fab, memc := memc, fls := fls
      vse := vse } :=
  h.trans (.of_eq rfl rfl rfl rfl rfl rfl)

theorem modCore_keeps (h : Keeps s0 s) (c : Nat) (f : Core → Core) : Keeps s0 (modCore s c f) :=
  h.trans (.of_eq rfl rfl rfl rfl rfl rfl)
theorem modCluster_keeps (h : Keeps s0 s) (c : Nat) (f : Cluster → Cluster) : Keeps s0 (modCluster s c f) :=
  h.trans (.of_eq rfl rfl rfl rfl rfl rfl)
theorem modSsa_keeps (h : Keeps s0 s) (k : Nat) (f : Ssa → Ssa) : Keeps s0 (modSsa s k f) :=
  h.trans (.of_eq rfl rfl rfl rfl rfl rfl)
theorem modStk_keeps (h : Keeps s0 s) (k : Nat) (f : StackMem → StackMem) : Keeps s0 (modStk s k f) :=
  h.trans (.of_eq rfl rfl rfl rfl rfl rfl)
theorem modSlot_keeps (h : Keeps s0 s) (slot : Nat) (f : GraphSlot → GraphSlot) : Keeps s0 (modSlot s slot f) :=
  h.trans (.of_eq rfl rfl rfl rfl rfl rfl)
theorem modGraph_keeps (h : Keeps s0 s) (slot : Nat) (f : Graph → Graph) : Keeps s0 (modGraph s slot f) :=
  h.trans (.of_eq rfl rfl rfl rfl rfl rfl)
theorem modStation_keeps (h : Keeps s0 s) (slot i : Nat) (f : Station → Station) : Keeps s0 (modStation s slot i f) :=
  h.trans (.of_eq rfl rfl rfl rfl rfl rfl)
theorem modQueue_keeps (h : Keeps s0 s) (slot q : Nat) (f : Queue → Queue) : Keeps s0 (modQueue s slot q f) :=
  h.trans (.of_eq rfl rfl rfl rfl rfl rfl)
theorem modRing_keeps (h : Keeps s0 s) (fn r : Nat) (f : Ring → Ring) : Keeps s0 (modRing s fn r f) :=
  h.trans (.of_eq rfl rfl rfl rfl rfl rfl)
theorem modLink_keeps (h : Keeps s0 s) (l : Nat) (f : Link → Link) : Keeps s0 (modLink s l f) :=
  h.trans (.of_eq rfl rfl rfl rfl rfl rfl)
theorem modRouter_keeps (h : Keeps s0 s) (d : Nat) (f : RouterCtr → RouterCtr) : Keeps s0 (modRouter s d f) :=
  h.trans (.of_eq rfl rfl rfl rfl rfl rfl)
theorem modGroup_keeps (h : Keeps s0 s) (id : Nat) (f : Group → Group) : Keeps s0 (modGroup s id f) :=
  h.trans (.of_eq rfl rfl rfl rfl rfl rfl)
theorem modChn_keeps (h : Keeps s0 s) (i : Nat) (f : ChnCtx → ChnCtx) : Keeps s0 (modChn s i f) :=
  h.trans (.of_eq rfl rfl rfl rfl rfl rfl)
theorem modWc_keeps (h : Keeps s0 s) (c : Nat) (f : WorkCtr → WorkCtr) : Keeps s0 (modWc s c f) :=
  h.trans (.of_eq rfl rfl rfl rfl rfl rfl)
theorem modMem_keeps (h : Keeps s0 s) (f : MemCtl → MemCtl) : Keeps s0 (modMem s f) :=
  h.trans (.of_eq rfl rfl rfl rfl rfl rfl)
theorem modTel_keeps (h : Keeps s0 s) (f : Tel → Tel) : Keeps s0 (modTel s f) := h.trans (.of_eq rfl rfl rfl rfl rfl rfl)
theorem tick1_keeps (h : Keeps s0 s) : Keeps s0 (tick1 s) := h.trans (.of_eq rfl rfl rfl rfl rfl rfl)
theorem setRef_keeps (h : Keeps s0 s) (a n : Nat) : Keeps s0 (setRef s a n) := h.trans (.of_eq rfl rfl rfl rfl rfl rfl)
theorem modPoolK_keeps (h : Keeps s0 s) (pool : Nat) (f : FramePool → FramePool) : Keeps s0 (modPoolK s pool f) :=
  h.trans (.of_eq rfl rfl rfl rfl rfl rfl)
theorem modGrant_keeps (h : Keeps s0 s) (g : Nat) (f : Grant → Grant) : Keeps s0 (modGrant s g f) :=
  h.trans (.of_eq rfl rfl rfl rfl rfl rfl)
theorem modCopy_keeps (h : Keeps s0 s) (num : Nat) (f : LendCopy → LendCopy) : Keeps s0 (modCopy s num f) :=
  h.trans (.of_eq rfl rfl rfl rfl rfl rfl)
theorem modAlm_keeps (h : Keeps s0 s) (fn : Nat) (f : AlmFn → AlmFn) : Keeps s0 (modAlm s fn f) :=
  h.trans (.of_eq rfl rfl rfl rfl rfl rfl)
theorem modFnRings_keeps (h : Keeps s0 s) (fn : Nat) (f : Ring → Ring) : Keeps s0 (modFnRings s fn f) :=
  h.trans (.of_eq rfl rfl rfl rfl rfl rfl)
theorem dropCmd_keeps (h : Keeps s0 s) (id : Nat) : Keeps s0 (dropCmd s id) := h.trans (.of_eq rfl rfl rfl rfl rfl rfl)
theorem markBad_keeps (h : Keeps s0 s) (a n : Nat) : Keeps s0 (markBad s a n) := h.trans (.of_eq rfl rfl rfl rfl rfl rfl)
theorem dlCount_keeps (h : Keeps s0 s) (cls die n : Nat) : Keeps s0 (dlCount s cls die n) :=
  h.trans (.of_eq rfl rfl rfl rfl rfl rfl)
theorem setSelect_keeps (h : Keeps s0 s) (q : Requester) (off v : Nat) : Keeps s0 (setSelect s q off v) :=
  h.trans (.of_eq rfl rfl rfl rfl rfl rfl)
theorem modDir_keeps (h : Keeps s0 s) (i : Nat) (west : Bool) (f : ChnDir → ChnDir) : Keeps s0 (modDir s i west f) :=
  h.trans (.of_eq rfl rfl rfl rfl rfl rfl)
theorem modEntry_keeps (h : Keeps s0 s) (gid : Nat) (q : Word) (f : CollEntry → CollEntry) :
    Keeps s0 (modEntry s gid q f) :=
  h.trans (.of_eq rfl rfl rfl rfl rfl rfl)
theorem modChunk_keeps (h : Keeps s0 s) (gid : Nat) (q : Word) (c : Nat) (f : ChunkSt → ChunkSt) :
    Keeps s0 (modChunk s gid q c f) :=
  h.trans (.of_eq rfl rfl rfl rfl rfl rfl)
theorem setCoreFlags_keeps (h : Keeps s0 s) (core : Nat) (e : Engine) (f : Nat) : Keeps s0 (setCoreFlags s core e f) :=
  h.trans (.of_eq rfl rfl rfl rfl rfl rfl)
theorem setSsaFlags_keeps (h : Keeps s0 s) (k f : Nat) : Keeps s0 (setSsaFlags s k f) :=
  h.trans (.of_eq rfl rfl rfl rfl rfl rfl)
theorem setColFlags_keeps (h : Keeps s0 s) (d f : Nat) : Keeps s0 (setColFlags s d f) :=
  h.trans (.of_eq rfl rfl rfl rfl rfl rfl)
theorem setMemAdderFlags_keeps (h : Keeps s0 s) (k f : Nat) : Keeps s0 (setMemAdderFlags s k f) :=
  h.trans (.of_eq rfl rfl rfl rfl rfl rfl)
theorem setCluAdderFlags_keeps (h : Keeps s0 s) (c f : Nat) : Keeps s0 (setCluAdderFlags s c f) :=
  h.trans (.of_eq rfl rfl rfl rfl rfl rfl)
theorem modCh_keeps (h : Keeps s0 s) (c : Nat) (f : FlashCh → FlashCh) : Keeps s0 (modCh s c f) :=
  h.trans (.of_eq rfl rfl rfl rfl rfl rfl)
theorem setJob_keeps (h : Keeps s0 s) (k : Nat) (j : Option SsaJob) : Keeps s0 (setJob s k j) :=
  h.trans (.of_eq rfl rfl rfl rfl rfl rfl)
theorem modStrm_keeps (h : Keeps s0 s) (b : Bound) (f : Stream → Stream) : Keeps s0 (modStrm s b f) :=
  h.trans (.of_eq rfl rfl rfl rfl rfl rfl)
theorem modVse_keeps (h : Keeps s0 s) (f : Vse → Vse) : Keeps s0 (modVse s f) := h.trans (.of_eq rfl rfl rfl rfl rfl rfl)
theorem modKvc_keeps (h : Keeps s0 s) (f : Kvc → Kvc) : Keeps s0 (modKvc s f) := h.trans (.of_eq rfl rfl rfl rfl rfl rfl)
theorem modFls_keeps (h : Keeps s0 s) (f : Fls → Fls) : Keeps s0 (modFls s f) := h.trans (.of_eq rfl rfl rfl rfl rfl rfl)
theorem modHif_keeps (h : Keeps s0 s) (f : Hif → Hif) : Keeps s0 (modHif s f) := h.trans (.of_eq rfl rfl rfl rfl rfl rfl)
theorem dropHeld_keeps (h : Keeps s0 s) (q : Requester) (off : Nat) : Keeps s0 (dropHeld s q off) :=
  h.trans (.of_eq rfl rfl rfl rfl rfl rfl)
theorem holdHi_keeps (h : Keeps s0 s) (q : Requester) (off : Nat) (v : Word) : Keeps s0 (holdHi s q off v) :=
  h.trans (.of_eq rfl rfl rfl rfl rfl rfl)

theorem modSec_keeps (h : Keeps s0 s) {f : Sec → Sec} (hl : (f s.sec).leaf = s.sec.leaf)
    (hg : (f s.sec).leafLog = s.sec.leafLog) : Keeps s0 (modSec s f) :=
  h.trans ⟨rfl, fun ⟨hm, hc, hp, hle, hmod⟩ => ⟨hm, hc, hp, by simpa only [modSec, hl, hg] using hle,
    by simpa only [modSec, hg] using hmod⟩⟩

theorem modPwr_keeps (h : Keeps s0 s) {f : Pwr → Pwr} (hc : (f s.pwr).diePowerCap = s.pwr.diePowerCap) :
    Keeps s0 (modPwr s f) :=
  h.trans ⟨rfl, fun ⟨hm, hd, hp, hs⟩ => ⟨hm, hd, by simpa only [modPwr, hc] using hp, hs⟩⟩

theorem modThm_keeps (h : Keeps s0 s) {f : Thm → Thm} (hc : (f s.thm).curve = s.thm.curve) : Keeps s0 (modThm s f) :=
  h.trans ⟨rfl, fun ⟨hm, hd, hr⟩ => ⟨hm, by simpa only [modThm, hc] using hd, hr⟩⟩

theorem poke_keeps (h : Keeps s0 s) (a : Nat) (b : Bytes) : Keeps s0 (poke s a b) :=
  h.trans ⟨rfl, fun ⟨⟨hm, hh⟩, hr⟩ => ⟨⟨poke_wf s a b hm, hh⟩, hr⟩⟩

theorem hostPoke_keeps (h : Keeps s0 s) (a : Nat) (b : Bytes) : Keeps s0 (hostPoke s a b) :=
  h.trans ⟨rfl, fun ⟨⟨hm, hh⟩, hr⟩ => ⟨⟨hm, hostPoke_wf s a b hh⟩, hr⟩⟩

/-- What an event may change keeps the invariant: the frame says that the event ring's memory stays canonical. -/
theorem EventFrame.keeps {s t : State} (h : EventFrame s t) : Keeps s t := by
  obtain ⟨ht, -, -, -, -, -, hm⟩ := h
  refine ⟨by rw [ht], fun ⟨⟨hs, hh⟩, hr⟩ => ?_⟩
  have hwf := hm hs
  rw [ht]
  exact ⟨⟨hwf, hh⟩, hr⟩

/-! ### Memory, alarms, events, counters and completions -/

theorem signalVec_keeps (h : Keeps s0 s) (fn v : Nat) : Keeps s0 (signalVec s fn v) := h.trans (signalVec_frame _ _ _).keeps
theorem event_keeps (h : Keeps s0 s) (e : Event) : Keeps s0 (event s e) := h.trans (event_frame _ _).keeps
theorem alarm_keeps (h : Keeps s0 s) (n arg : Nat) : Keeps s0 (alarm s n arg) := h.trans (alarm_frame _ _ _).keeps

theorem ctrSat_keeps (h : Keeps s0 s) (off : Nat) (old new : Word) : Keeps s0 (ctrSat off old new s) :=
  h.trans (ctrSat_frame _ _ _ _).keeps

end

end Sys2Proof.Machine
end

