-- ==== Sys2Proof/Proofs/KeepsEvents.lean ====
section
/-! SUPPORT. What memory, queues, graphs and the host's commands on graphs and tables keep. -/

namespace Sys2Proof.Machine

section
variable {s0 s : State}

/-! ### Memory, alarms, events, counters and completions -/

theorem dlCtrl_keeps (h : Keeps s0 s) (src dst n : Nat) : Keeps s0 (dlCtrl s src dst n) := by
  grind [dlCtrl, dlCount_keeps]
theorem dlMem_keeps (h : Keeps s0 s) (c a n : Nat) (store : Bool) : Keeps s0 (dlMem s c a n store) := by
  grind [dlMem, dlCount_keeps]
theorem hostErr_keeps (h : Keeps s0 s) : Keeps s0 (hostErr s) := by
  grind [hostErr, alarm_keeps]
theorem aerNote_keeps (h : Keeps s0 s) : Keeps s0 (aerNote s) := by
  grind [aerNote, hostErr_keeps, update_keeps]
theorem noteUeSector_keeps (h : Keeps s0 s) (k sec : Nat) : Keeps s0 (noteUeSector s k sec) := by
  grind [noteUeSector, modStk_keeps, update_keeps]
theorem countUe_keeps (h : Keeps s0 s) (sec : Nat) : Keeps s0 (countUe s sec) := by
  grind [countUe, ctrSat_keeps, event_keeps, modCluster_keeps, modStk_keeps, noteUeSector_keeps, update_keeps]
theorem countCe_keeps (h : Keeps s0 s) (sec : Nat) : Keeps s0 (countCe s sec) := by
  grind [countCe, ctrSat_keeps, event_keeps, modCluster_keeps, modStk_keeps, update_keeps]
theorem readSector_keeps (h : Keeps s0 s) (sec : Nat) : Keeps s0 (readSector s sec) := by
  grind [readSector, countCe_keeps, countUe_keeps]
theorem memRead_keeps (h : Keeps s0 s) (a n : Nat) : Keeps s0 (memRead s a n).1 := by
  have hread (t : State) (k : Nat) (ht : Keeps s0 t) : Keeps s0 (readSector t k) := readSector_keeps ht k
  simp only [memRead]
  (repeat' split) <;> grind [foldl_state_keeps]
theorem writeSector_keeps (h : Keeps s0 s) (lo hi : Nat) (p : Nat × Nat) : Keeps s0 (writeSector lo hi s p) := by
  grind [writeSector, countCe_keeps, countUe_keeps, ctrSat_keeps, modStk_keeps, update_keeps]
theorem memWrite_keeps (h : Keeps s0 s) {a : Nat} {b : Bytes} {t : State} (e : memWrite s a b = some t) : Keeps s0 t := by
  unfold memWrite at e
  split at e <;> cases e
  exact poke_keeps (foldl_state_keeps (fun _ _ ht => writeSector_keeps ht _ _ _) _ h) _ _

theorem getD_keeps {o : Option State} (h : Keeps s0 s) (ho : ∀ t, o = some t → Keeps s0 t) : Keeps s0 (o.getD s) := by
  cases o with
  | none => exact h
  | some t => exact ho t rfl

theorem memWrite_getD_keeps (h : Keeps s0 s) (a : Nat) (b : Bytes) : Keeps s0 ((memWrite s a b).getD s) :=
  getD_keeps h fun _ => memWrite_keeps h
theorem ctrlPoison_keeps (h : Keeps s0 s) (addr : Nat) : Keeps s0 (ctrlPoison s addr) := by
  grind [ctrlPoison, alarm_keeps]
theorem ctrlRead_keeps (h : Keeps s0 s) (a n : Nat) : Keeps s0 (ctrlRead s a n).1 := by
  grind [ctrlRead, ctrlPoison_keeps, memRead_keeps]
theorem ringSignal_keeps (h : Keeps s0 s) (fn r : Nat) : Keeps s0 (ringSignal s fn r) := by
  grind [ringSignal, modRing_keeps, signalVec_keeps, update_keeps]
theorem ringWrite_keeps (h : Keeps s0 s) (x : Ring) (c : CqEntry) : Keeps s0 (ringWrite s x c) := by
  grind [ringWrite, hostPoke_keeps, modRing_keeps, ringSignal_keeps, update_keeps]
theorem postEntry_keeps (h : Keeps s0 s) (fn r : Nat) (c : CqEntry) : Keeps s0 (postEntry s fn r c) := by
  grind [postEntry, modRing_keeps, ringWrite_keeps, update_keeps]
theorem drainBacklog_keeps (h : Keeps s0 s) (fn r : Nat) (l : List CqEntry) : Keeps s0 (drainBacklog s fn r l) := by
  fun_induction drainBacklog <;> grind [modRing_keeps, ringWrite_keeps, update_keeps]
theorem complete_keeps (h : Keeps s0 s) (hd : HostHdr) (st : Status) (res : Nat) : Keeps s0 (complete s hd st res) := by
  grind [complete, postEntry_keeps]
theorem startCmd_keeps (h : Keeps s0 s) (hd : HostHdr) (opc : Nat) : Keeps s0 (startCmd s hd opc).1 := by
  grind [startCmd, update_keeps]
theorem reapRing_keeps (h : Keeps s0 s) (x : Ring) : Keeps s0 (reapRing s x) := by
  grind [reapRing, complete_keeps, dropCmd_keeps, update_keeps]
theorem applyRing0_keeps (h : Keeps s0 s) (fn : Nat) : Keeps s0 (applyRing0 s fn) :=
  h.trans (.of_eq rfl rfl rfl rfl rfl rfl)
theorem afterCmd_keeps (h : Keeps s0 s) : Keeps s0 (afterCmd s) := by
  unfold afterCmd
  refine foldl_state_keeps (fun t f ht => ?_) _ (foldl_state_keeps (fun t x ht => reapRing_keeps ht x) _ h)
  split
  · exact ht
  · exact applyRing0_keeps ht f
theorem finishCmd_keeps (h : Keeps s0 s) (c : Nat × HostHdr) (st : Status) : Keeps s0 (finishCmd s c st) := by
  grind [finishCmd, afterCmd_keeps, complete_keeps, dropCmd_keeps]
theorem graphEvent_keeps (h : Keeps s0 s) (slot ev : Nat) (st : Status) (station place : Nat) : Keeps s0
    (graphEvent s slot ev st station place) := by
  grind [graphEvent, ctrSat_keeps, modGraph_keeps, postEntry_keeps, update_keeps]
theorem modPool_keeps (h : Keeps s0 s) (id : Nat) (f : Pool → Pool) : Keeps s0 (modPool s id f) :=
  h.trans (.of_eq rfl rfl rfl rfl rfl rfl)
theorem takeBuffer_keeps (h : Keeps s0 s) {pool : Nat} {k : Kind} {u : Nat} {o} (eo : takeBuffer s pool k u = some o) :
    Keeps s0 o.1 := by
  grind [takeBuffer, modPool_keeps, setRef_keeps, tick1_keeps, update_keeps]
theorem startReader_keeps (h : Keeps s0 s) (b : Bound) (cluster : Nat) (seqid : Option Nat) : Keeps s0
    (startReader s b cluster seqid) := by
  grind [startReader, update_keeps]
theorem readerEmits_keeps (h : Keeps s0 s) (b : Bound) (a : Nat) : Keeps s0 (readerEmits s b a) :=
  h.trans (.of_eq rfl rfl rfl rfl rfl rfl)
theorem endReader_keeps (h : Keeps s0 s) (b : Bound) : Keeps s0 (endReader s b) :=
  h.trans (.of_eq rfl rfl rfl rfl rfl rfl)
theorem advance_keeps (h : Keeps s0 s) (b : Bound) : Keeps s0 (advance s b) := by
  grind [advance, endReader_keeps, modStation_keeps, update_keeps]

/-! ### Handle queues, buffers, halts and the end of a graph's work -/

theorem haltCore_keeps (h : Keeps s0 s) (slot i : Nat) (st : Status) : Keeps s0 (haltCore s slot i st) := by
  unfold haltCore
  split
  · exact h
  · next g _ =>
    extract_lets wdi s1 s2 s3 s4
    have h1 : Keeps s0 s1 := modStation_keeps h _ _ _
    have h4 : Keeps s0 s4 := graphEvent_keeps (event_keeps (modGraph_keeps h1 _ _) _) _ _ _ _ _
    (repeat' split) <;> grind [event_keeps, finishCmd_keeps]
theorem pushHandle_halt_keeps (h : Keeps s0 s) {slot i port : Nat} {x : Handle} {t : State}
    (e : pushHandle s slot i port x = .halt t) : Keeps s0 t := by
  simp only [pushHandle] at e
  (repeat' split at e) <;> cases e <;> grind [haltCore_keeps, alarm_keeps]

theorem pushHandle_done_keeps (h : Keeps s0 s) {slot i port : Nat} {x : Handle} {t : State}
    (e : pushHandle s slot i port x = .done t) : Keeps s0 t := by
  simp only [pushHandle] at e
  (repeat' split at e) <;> cases e <;> grind [setRef_keeps, modQueue_keeps, modGraph_keeps]
theorem emit_keeps (h : Keeps s0 s) (slot i port : Nat) (hd : Handle) : Keeps s0 (emit s slot i port hd) := by
  simp only [emit]
  (repeat' split) <;> grind [modStation_keeps, pushHandle_halt_keeps, pushHandle_done_keeps, update_keeps]
theorem freeRingSlot_keeps (h : Keeps s0 s) (a : Nat) : Keeps s0 (freeRingSlot s a) := by
  grind [freeRingSlot, modStation_keeps, update_keeps]
theorem returnBuffer_keeps (h : Keeps s0 s) (hd : Handle) : Keeps s0 (returnBuffer s hd) := by
  grind [returnBuffer, freeRingSlot_keeps, modPool_keeps, update_keeps]
theorem readersTold_keeps (h : Keeps s0 s) (a : Nat) : Keeps s0 (readersTold s a).1 :=
  h.trans (.of_eq rfl rfl rfl rfl rfl rfl)
theorem releaseN_keeps (n : Nat) (h : Keeps s0 s) (slot i : Nat) (x : Handle) : Keeps s0 (releaseN n s slot i x) := by
  induction n generalizing s slot i x with
  | zero => exact h
  | succ n ih =>
    simp only [releaseN]
    split
    · exact h
    · split
      · exact haltCore_keeps (alarm_keeps h _ _) _ _ _
      · split
        · exact foldl_state_keeps (fun t q ht => ih ht _ _ _) _ (readersTold_keeps (returnBuffer_keeps (setRef_keeps h _ _) _) _)
        · exact setRef_keeps h _ _
theorem release_keeps (h : Keeps s0 s) (slot i : Nat) (hd : Handle) : Keeps s0 (release s slot i hd) := by
  grind [release, releaseN_keeps]
theorem releaseAll_keeps (h : Keeps s0 s) (slot i : Nat) (hs : List Handle) : Keeps s0 (releaseAll s slot i hs) := by
  unfold releaseAll
  exact foldl_state_keeps (fun t a ht => by grind [release_keeps]) _ h
theorem popJoin_keeps (h : Keeps s0 s) {slot i qi : Nat} {q : Queue} {k : Nat} {p} (e : popJoin s slot i qi q k = some p) :
    Keeps s0 p.1 := by
  simp only [popJoin] at e
  (repeat' split at e) <;> cases e <;> grind [modQueue_keeps, releaseAll_keeps, haltCore_keeps, setRef_keeps]
theorem popHandle_keeps (h : Keeps s0 s) {slot i port : Nat} {p} (e : popHandle s slot i port = some p) : Keeps s0 p.1 := by
  have hmoved (g : Graph → Graph) (qi : Nat) (f : Queue → Queue) : Keeps s0 (modQueue (modGraph s slot g) slot qi f) :=
    modQueue_keeps (modGraph_keeps h _ _) _ _ _
  unfold popHandle at e
  dsimp only at e
  (repeat' split at e) <;> grind [popJoin_keeps, modQueue_keeps, Option.map_eq_some_iff]
theorem popRound_got_keeps (h : Keeps s0 s) {slot i port : Nat} {t : State} {hs : List Handle}
    (e : popRound s slot i port = .got t hs) : Keeps s0 t := by
  unfold popRound at e
  (repeat' split at e) <;> cases e
  · exact modGraph_keeps (modQueue_keeps h _ _ _) _ _
  · next r hr => exact popHandle_keeps h hr
theorem waitInputs_keeps (h : Keeps s0 s) (slot i : Nat) (ports : List Nat) : Keeps s0 (waitInputs s slot i ports) := by
  unfold waitInputs
  exact foldl_state_keeps (fun t a ht => by grind [modQueue_keeps, update_keeps]) _ h
theorem popAll_keeps (h : Keeps s0 s) {slot i : Nat} {l : List Nat} {p} (e : popAll s slot i l = some p) : Keeps s0 p.1 := by
  induction l generalizing s p with
  | nil => cases e; exact h
  | cons a l ih =>
    simp only [popAll] at e
    (repeat' split at e) <;> cases e
    next r hr _ q hq =>
      have hrest := ih (popHandle_keeps h hr) hq
      exact hrest
theorem checkDrained_keeps (h : Keeps s0 s) (slot : Nat) : Keeps s0 (checkDrained s slot) := by
  grind [checkDrained, graphEvent_keeps, modGraph_keeps, update_keeps]
theorem notifyEvent_keeps (h : Keeps s0 s) (b : Bound) (on : Bool) (st : Status) : Keeps s0 (notifyEvent s b on st) := by
  grind [notifyEvent, graphEvent_keeps]

/-! ### Table banks -/

theorem nextReload_keeps (h : Keeps s0 s) : Keeps s0 (nextReload s) := by
  grind [nextReload, update_keeps]
theorem reloadDone_keeps (h : Keeps s0 s) : Keeps s0 (reloadDone s) := by
  grind [reloadDone, finishCmd_keeps, nextReload_keeps, update_keeps]
theorem switchBank_keeps (h : Keeps s0 s) (c : Nat) : Keeps s0 (switchBank s c) := by
  grind [switchBank, modCore_keeps, update_keeps]
theorem tileBoundary_keeps (h : Keeps s0 s) (c : Nat) : Keeps s0 (tileBoundary s c) := by
  grind [tileBoundary, reloadDone_keeps, switchBank_keeps]

/-! ### Graph slots and re-armable streams -/

theorem endStream_keeps (h : Keeps s0 s) (b : Bound) (st : Status) : Keeps s0 (endStream s b st) := by
  grind [endStream, advance_keeps, emit_keeps, modStation_keeps, notifyEvent_keeps, update_keeps]
theorem faultHalt_keeps (h : Keeps s0 s) (b : Bound) (f : StreamFault) (seq : Half) : Keeps s0 (faultHalt s b f seq) := by
  grind [faultHalt, haltCore_keeps, modCore_keeps, modStation_keeps, update_keeps]
theorem startRun_keeps (h : Keeps s0 s) (b : Bound) (r : Rearm) : Keeps s0 (startRun s b r) := by
  grind [startRun, faultHalt_keeps, modStation_keeps, tick1_keeps, update_keeps]
theorem parkedRearm_keeps (h : Keeps s0 s) (b : Bound) (r : Rearm) : Keeps s0 (parkedRearm s b r) := by
  grind [parkedRearm, endStream_keeps, modStation_keeps, startRun_keeps, update_keeps]
theorem runDone_keeps (h : Keeps s0 s) (b : Bound) : Keeps s0 (runDone s b) := by
  grind [runDone, endStream_keeps, modStation_keeps, startRun_keeps, update_keeps]
theorem rearmStream_keeps (h : Keeps s0 s) (b : Bound) (r : Rearm) : Keeps s0 (rearmStream s b r).1 := by
  grind [rearmStream, modStation_keeps, parkedRearm_keeps, update_keeps]
theorem startGraph_keeps (h : Keeps s0 s) (slot : Nat) : Keeps s0 (startGraph s slot) := by
  grind [startGraph, checkDrained_keeps, modGraph_keeps, update_keeps]
theorem resumeGraph_keeps (h : Keeps s0 s) (slot : Nat) : Keeps s0 (resumeGraph s slot) := by
  grind [resumeGraph, checkDrained_keeps, modGraph_keeps, update_keeps]
theorem unloadGraph_keeps (h : Keeps s0 s) (slot : Nat) : Keeps s0 (unloadGraph s slot) := by
  unfold unloadGraph
  split
  · exact h
  · exact foldl_state_keeps (fun t c ht => tileBoundary_keeps ht c) _ (h.trans (.of_eq rfl rfl rfl rfl rfl rfl))
theorem applySlotCmd_keeps (h : Keeps s0 s) (slot : Nat) (c : Nat × HostHdr) (cmd : SlotCmd) :
    Keeps s0 (applySlotCmd s slot c cmd) := by
  simp only [applySlotCmd]
  (repeat' split) <;>
    grind [finishCmd_keeps, startGraph_keeps, resumeGraph_keeps, unloadGraph_keeps, modGraph_keeps, rearmStream_keeps]
theorem runWaiting_keeps (h : Keeps s0 s) (slot : Nat) (l) : Keeps s0 (runWaiting s slot l) := by
  fun_induction runWaiting <;> grind [applySlotCmd_keeps, modSlot_keeps, update_keeps]
theorem slotCmd_keeps (h : Keeps s0 s) (hd : HostHdr) (opc slot : Nat) (cmd : SlotCmd) : Keeps s0
    (slotCmd s hd opc slot cmd) := by
  grind [slotCmd, applySlotCmd_keeps, modSlot_keeps, startCmd_keeps, update_keeps]
theorem settle_keeps (h : Keeps s0 s) (slot : Nat) : Keeps s0 (settle s slot) := by
  grind [settle, checkDrained_keeps, runWaiting_keeps]
theorem pauseDone_keeps (h : Keeps s0 s) (slot : Nat) : Keeps s0 (pauseDone s slot) := by
  grind [pauseDone, finishCmd_keeps, modGraph_keeps, settle_keeps]
theorem timedFire_keeps (h : Keeps s0 s) (slot : Nat) : Keeps s0 (timedFire s slot) := by
  grind [timedFire, finishCmd_keeps, modGraph_keeps, settle_keeps, startGraph_keeps, update_keeps]
theorem failTimed_keeps (h : Keeps s0 s) : Keeps s0 (failTimed s) := by
  unfold failTimed
  exact foldl_state_keeps (fun t a ht => by grind [timedFire_keeps]) _ h
theorem haltStation_keeps (h : Keeps s0 s) (b : Bound) (st : Status) : Keeps s0 (haltStation s b st) := by
  grind [haltStation, haltCore_keeps, settle_keeps]
theorem parkedGo_keeps (h : Keeps s0 s) (b : Bound) : Keeps s0 (parkedGo s b) := by
  grind [parkedGo, endStream_keeps, parkedRearm_keeps, settle_keeps]

/-! ### The gates before a command's own rules -/

theorem hostGate_keeps (h : Keeps s0 s) (x : HostHdr) (c : CmdClass) (always : Bool) {run : State → State}
    (hr : Keeps s0 (run s)) : Keeps s0 (hostGate s x c always run) := by
  unfold hostGate
  (repeat' split) <;> grind [complete_keeps]
theorem hostCmd_keeps (s : State) (x : HostHdr) (c : CmdClass) (always : Bool) {run : State → State}
    (hr : Keeps s (run s)) : OutKeeps s (hostCmd s x c always run) := fun _ e => by
  obtain rfl | rfl | ⟨st, rfl⟩ := hostCmd_cases _ _ _ _ _ _ e
  · exact .refl _
  · exact hr
  · exact complete_keeps (.refl _) _ _ _

/-! ### The memory-side adders -/

theorem setAdderFlags_keeps (h : Keeps s0 s) (a f : Nat) : Keeps s0 (setAdderFlags s a f) := by
  grind [setAdderFlags, setCluAdderFlags_keeps, setMemAdderFlags_keeps]
theorem modifySectors_keeps (h : Keeps s0 s) (a n : Nat) : Keeps s0 (modifySectors s a n) := by
  unfold modifySectors
  exact foldl_state_keeps (fun t a ht => by grind [writeSector_keeps]) _ h
theorem aliasApply_keeps (h : Keeps s0 s) (a : Nat) (data : Bytes) (i : Nat) : Keeps s0 (aliasApply a data s i) := by
  grind [aliasApply, poke_keeps, setAdderFlags_keeps]
theorem aliasWriteSome_keeps (h : Keeps s0 s) {a : Nat} {data : Bytes} {is : List Nat} {t : State}
    (e : aliasWriteSome s a data is = some t) : Keeps s0 t := by
  unfold aliasWriteSome at e
  split at e <;> cases e
  refine foldl_state_keeps (fun t i ht => aliasApply_keeps ht _ _ _) _ (foldl_state_keeps (fun t i ht => ?_) _ h)
  split
  · exact ht
  · exact modifySectors_keeps ht _ _
theorem aliasWrite_keeps (h : Keeps s0 s) {a : Nat} {data : Bytes} {u : State} (eo : aliasWrite s a data = some u) :
    Keeps s0 u := by
  grind [aliasWrite, aliasWriteSome_keeps]
theorem writeAny_keeps (h : Keeps s0 s) {a : Nat} {b : Bytes} {u : State} (eo : writeAny s a b = some u) : Keeps s0 u := by
  grind [writeAny, aliasWrite_keeps, memWrite_keeps, getD_keeps, memWrite_getD_keeps]
theorem noteStore_keeps (h : Keeps s0 s) (fault : Bool) : Keeps s0 (noteStore s fault) :=
  h.trans (.of_eq rfl rfl rfl rfl rfl rfl)
@[simp] theorem execUpdateAliasWrite_keeps (s : State) (addr : Nat) (data : Bytes) :
    OutKeeps s (execUpdateAliasWrite addr data s) := by
  unfold execUpdateAliasWrite
  split
  · next t ht => exact outKeeps_next (noteStore_keeps (aliasWrite_keeps (.refl s) ht) _)
  · exact outKeeps_next (noteStore_keeps (.refl s) _)
theorem adderRun_keeps (h : Keeps s0 s) (a n : Nat) (f : Nat → Nat) : Keeps s0 (adderRun s a n f).1 := by
  grind [adderRun, modifySectors_keeps, poke_keeps]
theorem amoAnswer_keeps (h : Keeps s0 s) (cluster : Nat) (x : AmoAnswer) : Keeps s0 (amoAnswer s cluster x) := by
  grind [amoAnswer, modCluster_keeps, update_keeps]
theorem loadReserved_keeps (h : Keeps s0 s) (cluster a n : Nat) (wide : Bool) : Keeps s0 (loadReserved s cluster a n wide) := by
  grind [loadReserved, amoAnswer_keeps, memRead_keeps, modCluster_keeps, update_keeps]
theorem storeConditional_keeps (h : Keeps s0 s) (cluster a n v : Nat) : Keeps s0 (storeConditional s cluster a n v) := by
  have h1 := modCluster_keeps h cluster fun x => { x with resv := none }
  simp only [storeConditional]
  split
  · next t ht =>
    split at ht
    · exact amoAnswer_keeps (memWrite_keeps h1 ht) _ _
    · cases ht
  · exact amoAnswer_keeps h1 _ _
theorem amoRun_keeps (h : Keeps s0 s) (cluster : Nat) (op : AmoOp) (wide : Bool) (a v : Nat) : Keeps s0
    (amoRun s cluster op wide a v) := by
  grind [amoRun, adderRun_keeps, amoAnswer_keeps, dlCtrl_keeps]
@[simp] theorem execAmo_keeps (s : State) (cluster : Nat) (op : AmoOp) (wide : Bool) (addr : Nat) (value : Dword) :
    OutKeeps s (execAmo cluster op wide addr value s) := by
  refine onUnit_keeps _ _ _ ?_
  grind [Keeps.refl, amoAnswer_keeps, amoRun_keeps, loadReserved_keeps, storeConditional_keeps]
@[simp] theorem execCompareAndSwap_keeps (s : State) (channel addr : Nat) (expected new : Word) : OutKeeps s
    (execCompareAndSwap channel addr expected new s) := by
  refine onUnit_keeps _ _ _ ?_
  grind [Keeps.refl, adderRun_keeps, update_keeps]

/-! ### TABLE_LOAD and the switch of banks -/

@[simp] theorem execSfuBankSwitch_keeps (s : State) (core : Nat) : OutKeeps s (execSfuBankSwitch core s) := by
  refine onUnit_keeps _ _ _ ?_
  grind [Keeps.refl, tileBoundary_keeps]
theorem writeShadow_keeps (h : Keeps s0 s) (half segs : Bytes) (c : Nat) : Keeps s0 (writeShadow half segs s c) := by
  grind [writeShadow, modCore_keeps, update_keeps]
theorem runReload_keeps (h : Keeps s0 s) (r : Reload) : Keeps s0 (runReload s r) := by
  have hq := ctrlRead_keeps h r.image (2048 + 32 * r.segCount)
  simp only [runReload]
  (repeat' split)
  · exact nextReload_keeps (finishCmd_keeps hq _ _)
  · have hw (t : State) (half segs : Bytes) (l : List Nat) (ht : Keeps s0 t) : Keeps s0 (l.foldl (writeShadow half segs) t) :=
      foldl_state_keeps (fun _ c hu => writeShadow_keeps hu _ _ c) _ ht
    exact reloadDone_keeps (foldl_state_keeps (fun _ c hu => switchBank_keeps hu c) _
      ((hw _ _ _ _ hq).trans (.of_eq rfl rfl rfl rfl rfl rfl)))
  · exact nextReload_keeps (finishCmd_keeps hq _ _)
@[simp] theorem execTableReloadRun_keeps (s : State) : OutKeeps s (execTableReloadRun s) := by
  unfold execTableReloadRun
  grind [Keeps.refl, outKeeps_next, outKeeps_refused, runReload_keeps]
theorem opTableLoad_keeps (h : Keeps s0 s) (hd : HostHdr) (image : AddrArg) (segCount : Nat) (mask : Half)
    (block : Bool) : Keeps s0 (opTableLoad hd image segCount mask block s) := by
  grind [opTableLoad, complete_keeps, startCmd_keeps, update_keeps]
@[simp] theorem execTableLoad_keeps (s : State) (h : HostHdr) (image : AddrArg) (segCount : Nat) (mask : Half)
    (block : Bool) : OutKeeps s (execTableLoad h image segCount mask block s) := by
  refine hostCmd_keeps _ _ _ _ ?_
  grind [Keeps.refl, opTableLoad_keeps]

/-! ### Sequence records, directories, frame tables and the free protocol -/

theorem readSeq_keeps (h : Keeps s0 s) (q : Nat) : Keeps s0 (readSeq s q).1 := by
  grind [readSeq, ctrlRead_keeps]
theorem writeSeq_keeps (h : Keeps s0 s) (q : Nat) (r : SeqRec) : Keeps s0 (writeSeq s q r) := memWrite_getD_keeps h _ _
theorem readDir_keeps (h : Keeps s0 s) (r : SeqRec) (layer : Nat) : Keeps s0 (readDir s r layer).1 := by
  grind [readDir, ctrlRead_keeps]
theorem readPte_keeps (h : Keeps s0 s) (r : SeqRec) (layer pti : Nat) : Keeps s0 (readPte s r layer pti).1 := by
  grind [readPte, ctrlRead_keeps, readDir_keeps]
theorem writePte_keeps (h : Keeps s0 s) (a : Nat) (p : Pte) : Keeps s0 (writePte s a p) := memWrite_getD_keeps h _ _
theorem putLink_keeps (h : Keeps s0 s) (pool f : Nat) (g : Nat → Nat) : Keeps s0 (putLink s pool f g) :=
  memWrite_getD_keeps h _ _
theorem takeFrame_err_keeps (h : Keeps s0 s) {pool need : Nat} {t : State} {st : Status}
    (e : takeFrame s pool need = .err t st) : Keeps s0 t := by
  grind [takeFrame, ctrSat_keeps, update_keeps]

theorem takeFrame_ok_keeps (h : Keeps s0 s) {pool need : Nat} {t : State} {f : Nat} (e : takeFrame s pool need = .ok t f) :
    Keeps s0 t := by
  grind [takeFrame, memWrite_getD_keeps, putLink_keeps, modPoolK_keeps]
theorem linkPast_keeps (h : Keeps s0 s) (pool f : Nat) (l : List Nat) : Keeps s0 (linkPast s pool f l) := by
  grind [linkPast, putLink_keeps]
theorem unlist_keeps (h : Keeps s0 s) (pool f : Nat) : Keeps s0 (unlist s pool f) := by
  grind [unlist, linkPast_keeps, modPoolK_keeps, putLink_keeps, tick1_keeps, update_keeps]
theorem quarantine_keeps (h : Keeps s0 s) (pool f : Nat) : Keeps s0 (quarantine s pool f) := by
  grind [quarantine, alarm_keeps, ctrSat_keeps, unlist_keeps, update_keeps]
theorem refAdd_keeps (h : Keeps s0 s) (pool f : Nat) (d : Int) : Keeps s0 (refAdd s pool f d).1 := by
  simp only [refAdd]
  (repeat' split) <;> grind [memRead_keeps, ctrlPoison_keeps, quarantine_keeps, memWrite_getD_keeps]
theorem toLimbo_keeps (h : Keeps s0 s) (pool f : Nat) : Keeps s0 (toLimbo s pool f) := by
  unfold toLimbo
  split
  · exact h
  · extract_lets s1 s2 s3 s4
    have h2 : Keeps s0 s2 := putLink_keeps (memWrite_getD_keeps h _ _) _ _ _
    have h3 : Keeps s0 s3 := by grind [putLink_keeps]
    have h4 : Keeps s0 s4 := modPoolK_keeps h3 _ _
    clear_value s4
    exact h4.trans (.of_eq rfl rfl rfl rfl rfl rfl)
theorem dropFrame_keeps (h : Keeps s0 s) (pool f : Nat) : Keeps s0 (dropFrame s pool f).1 := by
  grind [dropFrame, refAdd_keeps, toLimbo_keeps]
@[simp] theorem execFrameReclaim_keeps (s : State) (pool : Nat) : OutKeeps s (execFrameReclaim pool s) := by
  unfold execFrameReclaim
  split
  · exact outKeeps_refused _ _
  · split
    · exact outKeeps_next (.refl s)
    · next f l _ =>
      extract_lets r s1 fr s2
      split
      · exact outKeeps_next (ctrlRead_keeps (.refl s) _ _)
      · have h1 : Keeps s s1 := putLink_keeps (modPoolK_keeps (ctrlRead_keeps (.refl s) _ _) _ _) _ _ _
        have h2 : Keeps s s2 := by
          unfold s2
          split
          · exact putLink_keeps h1 _ _ _
          · exact h1
        (repeat' split)
        · exact outKeeps_next (tick1_keeps (modPoolK_keeps (putLink_keeps h1 _ _ _) _ _))
        · exact outKeeps_next (tick1_keeps (modPoolK_keeps (putLink_keeps h2 _ _ _) _ _))
        · exact outKeeps_next (.refl s)
theorem opKvcPool_keeps (h : Keeps s0 s) (pool word : Nat) (value : Dword) : Keeps s0 (opKvcPool pool word value s) := by
  grind [opKvcPool, modPoolK_keeps, quarantine_keeps, update_keeps]

end

end Sys2Proof.Machine
end

