-- ==== Sys2Proof/Proofs/KeepsStreams.lean ====
section
/-! SUPPORT. What the streams, the CHURN, the fabric and the host interface keep. -/

namespace Sys2Proof.Machine

section
variable {s0 s : State}

@[simp] theorem execKvcPool_keeps (s : State) (_req : Requester) (pool word : Nat) (value : Dword) : OutKeeps s
    (execKvcPool _req pool word value s) := by
  unfold execKvcPool
  grind [Keeps.refl, outKeeps_next, outKeeps_refused, opKvcPool_keeps, whenUp_keeps]
theorem initTable_keeps (h : Keeps s0 s) (pool n : Nat) : Keeps s0 (initTable s pool n) := by
  fun_induction initTable <;> grind [memWrite_keeps, getD_keeps, memWrite_getD_keeps]
@[simp] theorem execPoolInitDone_keeps (s : State) (pool : Nat) : OutKeeps s (execPoolInitDone pool s) := by
  unfold execPoolInitDone
  grind [Keeps.refl, outKeeps_next, outKeeps_refused, initTable_keeps, modPoolK_keeps, tick1_keeps, update_keeps]
theorem commitCurve_keeps (h : Keeps s0 s) (n : Nat) : Keeps s0 (commitCurve s n) := by
  grind [commitCurve, ctrlPoison_keeps, memRead_keeps, update_keeps]
theorem opCurveCommit_keeps (h : Keeps s0 s) (value : Word) : Keeps s0 (opCurveCommit value s) := by
  unfold opCurveCommit
  exact foldl_state_keeps (fun t a ht => by grind [commitCurve_keeps]) _ h
@[simp] theorem execKvcCurveCommit_keeps (s : State) (value : Word) : OutKeeps s (execKvcCurveCommit value s) := by
  refine whenUp_keeps ?_
  grind [Keeps.refl, opCurveCommit_keeps]

/-! ### Packets handed to a die's router -/

theorem sendPacket_keeps (h : Keeps s0 s) (die : Nat) (p : Packet) : Keeps s0 (sendPacket s die p) :=
  h.trans (.of_eq rfl rfl rfl rfl rfl rfl)
theorem sendPieces_keeps (h : Keeps s0 s) (die kind dst : Nat) (tag : Word) (kw : Nat → Bytes) (n i : Nat) (b : Bytes) :
    Keeps s0 (sendPieces die kind dst tag kw n i b s) := by
  fun_induction sendPieces <;> grind [sendPacket_keeps]
theorem sendBytes_keeps (h : Keeps s0 s) (die kind dst : Nat) (tag : Word) (kw : Nat → Bytes) (b : Bytes) : Keeps s0
    (sendBytes s die kind dst tag kw b) := by
  grind [sendBytes, sendPieces_keeps]

/-! ### The work counter of a cluster -/

theorem commitOp_keeps (h : Keeps s0 s) (c : Nat) (e : Byte) : Keeps s0 (commitOp s c e).1 := by
  grind [commitOp, ctrSat_keeps, modWc_keeps, update_keeps]
theorem applyReset_keeps (h : Keeps s0 s) (c : Nat) (base limit : Word) (cmd : Option (Nat × HostHdr)) : Keeps s0
    (applyReset s c base limit cmd) := by
  simp only [applyReset]
  (repeat' split) <;> grind [finishCmd_keeps, modWc_keeps]
theorem wcReset_keeps (h : Keeps s0 s) (c : Nat) (base limit : Word) (cmd : Option (Nat × HostHdr)) : Keeps s0
    (wcReset s c base limit cmd) := by
  grind [wcReset, applyReset_keeps, modWc_keeps, update_keeps]
theorem opWcReset_keeps (h : Keeps s0 s) (hd : HostHdr) (cluster : Nat) (base limit : Word) : Keeps s0
    (opWcReset hd cluster base limit s) := by
  grind [opWcReset, complete_keeps, startCmd_keeps, wcReset_keeps]
@[simp] theorem execWcReset_keeps (s : State) (h : HostHdr) (cluster : Nat) (base limit : Word) : OutKeeps s
    (execWcReset h cluster base limit s) := by
  refine hostCmd_keeps _ _ _ _ ?_
  grind [Keeps.refl, opWcReset_keeps]
theorem opCluWcReset_keeps (h : Keeps s0 s) (cluster : Nat) (value : Dword) : Keeps s0 (opCluWcReset cluster value s) := by
  grind [opCluWcReset, wcReset_keeps]
@[simp] theorem execCluWcReset_keeps (s : State) (cluster : Nat) (value : Dword) : OutKeeps s
    (execCluWcReset cluster value s) := by
  refine onUnit_keeps _ _ _ ?_
  grind [Keeps.refl, opCluWcReset_keeps]
theorem coreClaim_keeps (h : Keeps s0 s) (core : Nat) : Keeps s0 (coreClaim s core) := by
  grind [coreClaim, modCore_keeps, modWc_keeps, update_keeps]
@[simp] theorem execClaim_keeps (s : State) (core : Nat) : OutKeeps s (execClaim core s) := by
  refine onUnit_keeps _ _ _ ?_
  grind [Keeps.refl, coreClaim_keeps, modWc_keeps, update_keeps]

/-! ### The LOAD and STORE streams -/

theorem readCtl_keeps (h : Keeps s0 s) {α : Type} (a n : Nat) (f : Bytes → Except Status α) : Keeps s0 (readCtl s a n f).1 := by
  grind [readCtl, ctrlRead_keeps]
theorem readGeom_keeps (h : Keeps s0 s) (want : Bool) (a : Nat) (ok : Geom → Bool) : Keeps s0 (readGeom s want a ok).1 := by
  grind [readGeom, readCtl_keeps]
theorem readShape_keeps (h : Keeps s0 s) (d : StreamDesc) : Keeps s0 (readShape s d).1 := by
  grind [readShape, readCtl_keeps]
theorem decodeStream_keeps (h : Keeps s0 s) (load : Bool) (x a : Nat) : Keeps s0 (decodeStream s load x a).1 := by
  simp only [decodeStream]
  (repeat' split) <;> grind [readCtl_keeps, readGeom_keeps, readShape_keeps]
theorem readRun_keeps (h : Keeps s0 s) (core space a n : Nat) : Keeps s0 (readRun s core space a n).1 := by
  grind [readRun, dlMem_keeps, memRead_keeps, tick1_keeps]
theorem readIndex_keeps (h : Keeps s0 s) (core : Nat) (d : StreamDesc) (g : Geom) (j : Nat) : Keeps s0
    (readIndex s core d g j).1 := by
  grind [readIndex, ctrlPoison_keeps, dlMem_keeps, memRead_keeps, tick1_keeps]
theorem runAddrs_keeps (h : Keeps s0 s) (core : Nat) (d : StreamDesc) (idx : Option Geom) (g : Geom)
    (l : List (List Nat)) : Keeps s0 (runAddrs s core d idx g l).1 := by
  fun_induction runAddrs <;> grind [readIndex_keeps]
theorem readRuns_keeps (h : Keeps s0 s) (core space n : Nat) (l : List Nat) : Keeps s0 (readRuns s core space n l).1 := by
  fun_induction readRuns <;> grind [readRun_keeps]
theorem readTile_keeps (h : Keeps s0 s) (core : Nat) (d : StreamDesc) (idx : Option Geom) (g : Geom) (outer pos : Nat) :
    Keeps s0 (readTile s core d idx g outer pos).1 := by
  grind [readTile, readRuns_keeps, runAddrs_keeps]
theorem readCurd_keeps (h : Keeps s0 s) (core : Nat) (d : StreamDesc) (idx : Option Geom) (outer pos : Nat) : Keeps s0
    (readCurd s core d idx outer pos).1 := by
  simp only [readCurd]
  (repeat' split) <;> grind [dlMem_keeps, memRead_keeps, runAddrs_keeps, tick1_keeps]
theorem streamHalt_keeps (h : Keeps s0 s) (b : Bound) (f : StreamFault) (seq : Half) : Keeps s0 (streamHalt s b f seq) := by
  grind [streamHalt, faultHalt_keeps, settle_keeps]
theorem suPoison_keeps (h : Keeps s0 s) (x : Nat) : Keeps s0 (suPoison s x) := by
  grind [suPoison, ctrSat_keeps, modCore_keeps, update_keeps]
theorem suPoisons_keeps (h : Keeps s0 s) (x n : Nat) : Keeps s0 (suPoisons s x n) := by
  unfold suPoisons
  exact foldl_state_keeps (fun t a ht => by grind [suPoison_keeps]) _ h
theorem issue_keeps (h : Keeps s0 s) (b : Bound) : Keeps s0 (issue s b) := by
  grind [issue, modStrm_keeps, update_keeps]
theorem deliverOne_keeps (h : Keeps s0 s) {b : Bound} {t : State} (e : deliverOne s b = some t) : Keeps s0 t := by
  unfold deliverOne at e
  split at e
  · extract_lets ports x last s1 s2 s3 s4 at e
    have h2 : Keeps s0 s2 := emit_keeps (setRef_keeps h _ _) _ _ _ _
    have h3 : Keeps s0 s3 := by grind [emit_keeps, setRef_keeps]
    have h4 : Keeps s0 s4 := by grind [readerEmits_keeps]
    split at e <;> cases e
    exact modStrm_keeps h4 _ _
  · cases e
theorem deliverAll_keeps (h : Keeps s0 s) (n : Nat) (b : Bound) : Keeps s0 (deliverAll n s b) := by
  fun_induction deliverAll <;> grind [deliverOne_keeps]
theorem loadProgress_keeps (h : Keeps s0 s) (b : Bound) : Keeps s0 (loadProgress s b) := by
  simp only [loadProgress]
  (repeat' split) <;> grind [streamHalt_keeps, parkedGo_keeps, modStrm_keeps, endStream_keeps, settle_keeps, runDone_keeps]
theorem loadTurn_keeps (h : Keeps s0 s) (b : Bound) : Keeps s0 (loadTurn s b) := by
  grind [loadTurn, deliverAll_keeps, issue_keeps, loadProgress_keeps]
theorem loadAdvance_keeps (h : Keeps s0 s) (b : Bound) : Keeps s0 (loadAdvance s b) := by
  grind [loadAdvance, issue_keeps, loadTurn_keeps]
theorem tileStops_keeps (h : Keeps s0 s) (b : Bound) (f : StreamFault) : Keeps s0 (tileStops s b f) := by
  grind [tileStops, modStrm_keeps]
theorem nextStops_keeps (h : Keeps s0 s) (b : Bound) (f : StreamFault) : Keeps s0 (nextStops s b f) := by
  grind [nextStops, modStrm_keeps, update_keeps]
theorem landTile_keeps (h : Keeps s0 s) (b : Bound) (u : SlotUse) (main comp : Bytes) (bad badC : Nat) : Keeps s0
    (landTile s b u main comp bad badC) := by
  grind [landTile, memWrite_keeps, getD_keeps, memWrite_getD_keeps, modStrm_keeps, suPoisons_keeps, update_keeps]
theorem slotStops_keeps (h : Keeps s0 s) (b : Bound) (u : SlotUse) (e : TileStop) : Keeps s0 (slotStops s b u e) := by
  grind [slotStops, nextStops_keeps, tileStops_keeps]
theorem fetchTile_keeps (h : Keeps s0 s) (b : Bound) (p : StreamPlan) (u : SlotUse) (ep : Bool) : Keeps s0
    (fetchTile s b p u ep) := by
  simp only [fetchTile]
  (repeat' split) <;> grind [landTile_keeps, modStrm_keeps, readCurd_keeps, readTile_keeps, slotStops_keeps, update_keeps]
@[simp] theorem execStreamTransferDone_keeps (s : State) (core tile : Nat) : OutKeeps s (execStreamTransferDone core tile s) := by
  refine onUnit_keeps _ _ _ ?_
  grind [Keeps.refl, fetchTile_keeps, issue_keeps, loadAdvance_keeps]
@[simp] theorem execHostReadCompletion_keeps (s : State) (core tile : Nat) (how : ReadEnd) : OutKeeps s
    (execHostReadCompletion core tile how s) := by
  refine onUnit_keeps _ _ _ ?_
  grind [Keeps.refl, aerNote_keeps, fetchTile_keeps, loadAdvance_keeps, slotStops_keeps]
theorem streamRefused_keeps (h : Keeps s0 s) (b : Bound) (e : Status) : Keeps s0 (streamRefused s b e) := by
  grind [streamRefused, streamHalt_keeps, tick1_keeps]
theorem claimOver_keeps (h : Keeps s0 s) (b : Bound) : Keeps s0 (claimOver s b) := by
  grind [claimOver, tick1_keeps, tileStops_keeps]
theorem loadEmpty_keeps (h : Keeps s0 s) (b : Bound) (p : StreamPlan) : Keeps s0 (loadEmpty s b p) := by
  grind [loadEmpty, emit_keeps, endStream_keeps, modStrm_keeps, settle_keeps]
theorem loadCurrent_keeps (h : Keeps s0 s) (b : Bound) (p : StreamPlan) : Keeps s0 (loadCurrent s b p) := by
  unfold loadCurrent
  split
  · exact h
  · split
    · exact loadEmpty_keeps h _ _
    · have h1 : Keeps s0 (if p.d.geom.space = 2 then startReader s b (b.st.unit / 16) none else s) := by
        grind [startReader_keeps]
      exact loadAdvance_keeps (claimOver_keeps (modStation_keeps h1 _ _ _) _) _
theorem overlapNext_keeps (h : Keeps s0 s) (b : Bound) : Keeps s0 (overlapNext s b) := by
  grind [overlapNext, decodeStream_keeps, issue_keeps, modStrm_keeps, update_keeps]
@[simp] theorem execLoadDescriptor_keeps (s : State) (core : Nat) : OutKeeps s (execLoadDescriptor core s) := by
  refine onUnit_keeps _ _ _ ?_
  grind [Keeps.refl, decodeStream_keeps, loadCurrent_keeps, overlapNext_keeps, streamRefused_keeps]
@[simp] theorem execClaimTemplate_keeps (s : State) (core : Nat) : OutKeeps s (execClaimTemplate core s) := by
  refine onUnit_keeps _ _ _ ?_
  have h1 (w : WorkCtr → WorkCtr) (g : Core → Core) : Keeps s (modCore (modWc s (core / 16) w) core g) :=
    modCore_keeps (modWc_keeps (.refl s) _ _) _ _
  split
  · exact .refl s
  · split
    · exact .refl s
    · dsimp only
      split
      · split
        · exact loadAdvance_keeps (claimOver_keeps (modStrm_keeps (modCore_keeps (h1 _ _) _ _) _ _) _) _
        · exact loadProgress_keeps (modStrm_keeps (h1 _ _) _ _) _
      · exact .refl s
theorem commitTaken_keeps (h : Keeps s0 s) (b : Bound) (e : Byte) (i : Word) : Keeps s0 (commitTaken s b e i) := by
  grind [commitTaken, modCore_keeps, modStrm_keeps, modWc_keeps, update_keeps]
theorem landed_keeps (h : Keeps s0 s) (core : Nat) : Keeps s0 (landed s core) := by
  grind [landed, modWc_keeps, update_keeps]
theorem staleEnd_keeps (h : Keeps s0 s) (b : Bound) : Keeps s0 (staleEnd s b) :=
  settle_keeps (modStation_keeps (advance_keeps (releaseAll_keeps (haltCore_keeps
    (notifyEvent_keeps (landed_keeps h _) _ _ _) _ _ _) _ _ _) _) _ _ _) _
theorem coreCommit_keeps (h : Keeps s0 s) (core : Nat) (e : Byte) (i : Word) : Keeps s0 (coreCommit s core e i) := by
  grind [coreCommit, commitOp_keeps, commitTaken_keeps, modCore_keeps, staleEnd_keeps, update_keeps]
@[simp] theorem execCommit_keeps (s : State) (core : Nat) (epoch : Byte) (index : Word) : OutKeeps s
    (execCommit core epoch index s) := by
  refine onUnit_keeps _ _ _ ?_
  grind [Keeps.refl, coreCommit_keeps, modWc_keeps, update_keeps]
theorem runHeld_keeps (h : Keeps s0 s) (c : Nat) (l : List WcOp) : Keeps s0 (runHeld s c l) := by
  fun_induction runHeld <;> grind [applyReset_keeps, coreClaim_keeps, coreCommit_keeps, modWc_keeps, update_keeps]
@[simp] theorem execWorkCounterResetApply_keeps (s : State) (cluster : Nat) : OutKeeps s
    (execWorkCounterResetApply cluster s) := by
  refine onUnit_keeps _ _ _ ?_
  grind [Keeps.refl, runHeld_keeps]
theorem popTiles_keeps (h : Keeps s0 s) (b : Bound) (d : StreamDesc) (n : Nat) : Keeps s0 (popTiles b d n s) := by
  fun_induction popTiles <;> grind [modStrm_keeps, popAll_keeps, waitInputs_keeps, update_keeps]
theorem storeFill_keeps (h : Keeps s0 s) (b : Bound) : Keeps s0 (storeFill s b) := by
  grind [storeFill, popTiles_keeps]
theorem storeProgress_keeps (h : Keeps s0 s) (b : Bound) : Keeps s0 (storeProgress s b) := by
  grind [storeProgress, endStream_keeps, landed_keeps, parkedGo_keeps, runDone_keeps, settle_keeps]
theorem writeSome_keeps (h : Keeps s0 s) (lo : Nat) (part : List (Byte × Bool)) : Keeps s0 (writeSome s lo part) := by
  unfold writeSome
  split
  · exact poke_keeps (foldl_state_keeps (fun _ _ ht => writeSector_keeps ht _ _ _) _ h) _ _
  · exact h
theorem writeRun_ok_keeps (h : Keeps s0 s) {space a : Nat} {src : List (Byte × Bool × Bool)} {u : State}
    (he : writeRun s space a src = .ok u) : Keeps s0 u := by
  simp only [writeRun] at he
  (repeat' split at he) <;> cases he
  · refine (foldl_state_keeps (fun t p ht => ?_) _ h).trans (.of_eq rfl rfl rfl rfl rfl rfl)
    split
    · exact hostPoke_keeps ht _ _
    · exact ht
  · next t ht =>
    refine foldl_state_keeps (fun t i ht => ?_) _ (aliasWriteSome_keeps h ht)
    split
    · exact markBad_keeps ht _ _
    · exact ht
  · refine foldl_state_keeps (fun t k ht => ?_) _ h
    have h1 : Keeps s0 (if ((src.drop (32 * k)).take 32).all fun p => p.2.1 then
          (memWrite t (a + 32 * k) (((src.drop (32 * k)).take 32).map Prod.fst)).getD t
        else writeSome t (a + 32 * k) (((src.drop (32 * k)).take 32).map fun p => (p.1, p.2.1))) := by
      split
      · exact memWrite_getD_keeps ht _ _
      · exact writeSome_keeps ht _ _
    split
    · exact markBad_keeps h1 _ _
    · exact h1
theorem writeRuns_keeps (h : Keeps s0 s) (core space n : Nat) (l : List Nat) (src) : Keeps s0
    (writeRuns s core space n l src).1 := by
  fun_induction writeRuns <;> grind [dlMem_keeps, tick1_keeps, writeRun_ok_keeps]
theorem writePart_keeps (h : Keeps s0 s) (b : Bound) (d : StreamDesc) (idx : Option Geom) (g : Geom)
    (outer pos port : Nat) (hd : Handle) : Keeps s0 (writePart s b d idx g outer pos port hd).1 := by
  simp only [writePart]
  (repeat' split) <;> grind [dlMem_keeps, memRead_keeps, runAddrs_keeps, tick1_keeps, writeRuns_keeps]
theorem storeStop_keeps (h : Keeps s0 s) (b : Bound) (t : StoreTile) (e : TileStop) : Keeps s0 (storeStop s b t e) := by
  grind [storeStop, landed_keeps, streamHalt_keeps]
theorem tileDone_keeps (h : Keeps s0 s) (b : Bound) (t : StoreTile) : Keeps s0 (tileDone s b t) := by
  grind [tileDone, modStrm_keeps, releaseAll_keeps, update_keeps]
theorem tileRefused_keeps (h : Keeps s0 s) (b : Bound) (t : StoreTile) (st : Status) : Keeps s0 (tileRefused s b t st) := by
  grind [tileRefused, haltStation_keeps, modStrm_keeps, tileDone_keeps, update_keeps]
theorem writeTile_keeps (h : Keeps s0 s) (b : Bound) (d : StreamDesc) (t : StoreTile) : Keeps s0 (writeTile s b d t) := by
  unfold writeTile
  extract_lets x small _ p q bad s1
  have hp : Keeps s0 p.1 := writePart_keeps h _ _ _ _ _ _ _ _
  have hq : Keeps s0 q.1 := by
    unfold q
    split
    · exact writePart_keeps hp _ _ _ _ _ _ _ _
    · exact hp
  have h1 : Keeps s0 s1 := by grind [suPoison_keeps]
  split
  · exact storeStop_keeps (tick1_keeps h) _ _ _
  · split
    · exact storeStop_keeps hp _ _ _
    · split
      · exact storeStop_keeps hq _ _ _
      · exact tileDone_keeps (modStrm_keeps h1 _ _) _ _
theorem storeTile_keeps (h : Keeps s0 s) (b : Bound) (d : StreamDesc) (t : StoreTile) : Keeps s0 (storeTile s b d t) := by
  grind [storeTile, tileDone_keeps, tileRefused_keeps, writeTile_keeps]
theorem commitGate_go_keeps (h : Keeps s0 s) {b : Bound} {d : StreamDesc} {u : State}
    (he : commitGate s b d = .go u) : Keeps s0 u := by
  simp only [commitGate] at he
  (repeat' split at he) <;> cases he <;>
    grind [modStrm_keeps, modWc_keeps, staleEnd_keeps, ctrSat_keeps, haltStation_keeps, coreCommit_keeps]
theorem commitGate_stop_keeps (h : Keeps s0 s) {b : Bound} {d : StreamDesc} {u : State}
    (he : commitGate s b d = .stop u) : Keeps s0 u := by
  simp only [commitGate] at he
  (repeat' split at he) <;> cases he <;>
    grind [modStrm_keeps, modWc_keeps, staleEnd_keeps, ctrSat_keeps, haltStation_keeps, coreCommit_keeps]
@[simp] theorem execStoreTileWritten_keeps (s : State) (core : Nat) : OutKeeps s (execStoreTileWritten core s) := by
  refine onUnit_keeps _ _ _ ?_
  split
  · exact .refl s
  · next b _ =>
    have h0 : Keeps s (storeFill s b) := storeFill_keeps (.refl s) b
    dsimp only
    (repeat' split) <;>
      grind [Keeps.refl, commitGate_go_keeps, commitGate_stop_keeps, storeTile_keeps, storeProgress_keeps]
theorem storeEmpty_keeps (h : Keeps s0 s) (b : Bound) (p : StreamPlan) : Keeps s0 (storeEmpty s b p) := by
  grind [storeEmpty, modStation_keeps, releaseAll_keeps, storeProgress_keeps, update_keeps]
theorem anchorPop_keeps (h : Keeps s0 s) {b : Bound} {ports : List Nat} {u : State} (eo : anchorPop s b ports = some u) :
    Keeps s0 u := by
  simp only [anchorPop] at eo
  (repeat' split at eo) <;> cases eo <;> grind [modStrm_keeps, popAll_keeps, update_keeps]
theorem tagTiles_keeps (h : Keeps s0 s) (b : Bound) (d : StreamDesc) : Keeps s0 (tagTiles s b d) := by
  grind [tagTiles, modStrm_keeps, update_keeps]
theorem storeCurrent_keeps (h : Keeps s0 s) (b : Bound) (p : StreamPlan) : Keeps s0 (storeCurrent s b p) := by
  unfold storeCurrent
  split
  · exact storeEmpty_keeps h _ _
  · have h1 : Keeps s0 (if p.d.geom.space = 2 then startReader s b (b.st.unit / 16) none else s) := by
      grind [startReader_keeps]
    exact storeProgress_keeps (storeFill_keeps (tagTiles_keeps (modStation_keeps h1 _ _ _) _ _) _) _
@[simp] theorem execStoreDescriptor_keeps (s : State) (core : Nat) : OutKeeps s (execStoreDescriptor core s) := by
  refine onUnit_keeps _ _ _ ?_
  have hs := Keeps.refl s
  have h0 (a : Nat) : Keeps s (readCtl s a 128 fun x => .ok (streamDescOf false x)).1 := readCtl_keeps (.refl s) _ _ _
  dsimp only
  (repeat' split) <;>
    grind [streamRefused_keeps, waitInputs_keeps, anchorPop_keeps, decodeStream_keeps, storeCurrent_keeps]
theorem atsNote_keeps (h : Keeps s0 s) (page : Nat) (present : Bool) : Keeps s0 (atsNote s page present) := by
  grind [atsNote, update_keeps]
@[simp] theorem execAtsResponse_keeps (s : State) (core : Nat) (side : Side) (iova : Nat) (present : Bool) :
    OutKeeps s (execAtsResponse core side iova present s) := by
  refine onUnit_keeps _ _ _ ?_
  have h1 : Keeps s (atsNote s (iova / 4096) present) := atsNote_keeps (.refl s) _ _
  dsimp only
  (repeat' split) <;> grind [loadAdvance_keeps, slotStops_keeps, storeStop_keeps]
@[simp] theorem execAtsInvalidation_keeps (s : State) (iova bytes : Nat) : OutKeeps s (execAtsInvalidation iova bytes s) := by
  have hs := Keeps.refl s
  unfold execAtsInvalidation
  dsimp only
  (repeat' split) <;> grind [outKeeps_next, outKeeps_refused, update_keeps]
theorem clusterRearm_keeps (h : Keeps s0 s) (v : Nat) : Keeps s0 (clusterRearm s v).1 := by
  grind [clusterRearm, rearmStream_keeps, settle_keeps]
theorem opSuRearm_keeps (h : Keeps s0 s) (cluster : Nat) (upper : Bool) (value : Dword) : Keeps s0
    (opSuRearm cluster upper value s) := by
  grind [opSuRearm, clusterRearm_keeps, modCluster_keeps, update_keeps]
@[simp] theorem execCluSuRearm_keeps (s : State) (cluster : Nat) (upper : Bool) (value : Dword) : OutKeeps s
    (execCluSuRearm cluster upper value s) := by
  refine onUnit_keeps _ _ _ ?_
  grind [Keeps.refl, opSuRearm_keeps]
@[simp] theorem execQueuePush_keeps (s : State) (slot station port : Nat) (hd : Handle) (release_ : Option Nat) :
    OutKeeps s (execQueuePush slot station port hd release_ s) := by
  refine onUnit_keeps _ _ _ ?_
  dsimp only
  split
  · exact .refl s
  · split
    · exact .refl s
    · split
      · exact .refl s
      · split
        · exact .refl s
        · next t ht => exact settle_keeps (pushHandle_halt_keeps (.refl s) ht) _
        · next t ht =>
          have h1 (f : Station → Station) : Keeps s (modStation t slot station f) :=
            modStation_keeps (pushHandle_done_keeps (.refl s) ht) _ _ _
          refine settle_keeps ?_ _
          (repeat' split) <;> grind [release_keeps, modStation_keeps]
@[simp] theorem execQueuePop_keeps (s : State) (slot station port : Nat) (release_ : Bool) :
    OutKeeps s (execQueuePop slot station port release_ s) := by
  refine onUnit_keeps _ _ _ ?_
  dsimp only
  split
  · exact .refl s
  · split
    · exact .refl s
    · split
      · exact .refl s
      · split
        · exact haltStation_keeps (.refl s) _ _
        · split
          · exact waitInputs_keeps (.refl s) _ _ _
          · next r hr =>
            refine settle_keeps ?_ _
            split
            · exact release_keeps (popHandle_keeps (.refl s) hr) _ _ _
            · exact modStation_keeps (popHandle_keeps (.refl s) hr) _ _ _

/-! ### The Churn -/

theorem churnEvent_keeps (h : Keeps s0 s) (i : Nat) (st : Status) : Keeps s0 (churnEvent s i st) := by
  grind [churnEvent, event_keeps]
theorem churnCtl_keeps (h : Keeps s0 s) (die dst : Nat) (tag : Word) (words : List Nat) : Keeps s0
    (churnCtl s die dst tag words) := by
  grind [churnCtl, sendPacket_keeps]
theorem modRingCtx_keeps (h : Keeps s0 s) (r : RingRec) (ctx : Nat) (f : ChnCtx → ChnCtx) : Keeps s0 (modRingCtx s r ctx f) := by
  unfold modRingCtx
  exact foldl_state_keeps (fun t a ht => by grind [modChn_keeps]) _ h
theorem openFails_keeps (h : Keeps s0 s) (r : RingRec) (ctx : Nat) (c : ChnCause) : Keeps s0 (openFails s r ctx c) := by
  grind [openFails, modRingCtx_keeps]
theorem firstCredits_keeps (h : Keeps s0 s) (r : RingRec) (ctx : Nat) : Keeps s0 (firstCredits s r ctx) := by
  simp only [firstCredits]
  (repeat' split) <;> grind [churnCtl_keeps]
theorem openJudge_keeps (h : Keeps s0 s) (b : Bound) (r : RingRec) (ctx : Nat) (notify : Bool) (lanes : Nat × Nat) :
    Keeps s0 (openJudge s b r ctx notify lanes) := by
  unfold openJudge
  split
  · exact h
  · split
    · exact settle_keeps (advance_keeps (notifyEvent_keeps (firstCredits_keeps (modRingCtx_keeps h _ _ _) _ _) _ _ _) _) _
    · exact haltStation_keeps (openFails_keeps h _ _ _) _ _
theorem openGoesOn_keeps (h : Keeps s0 s) (die ctx : Nat) : Keeps s0 (openGoesOn s die ctx) := by
  grind [openGoesOn, openJudge_keeps]
theorem openStart_keeps (h : Keeps s0 s) (b : Bound) (d : ChurnDesc) (r : RingRec) : Keeps s0 (openStart s b d r) := by
  grind [openStart, churnCtl_keeps, modRingCtx_keeps, openJudge_keeps, update_keeps]
theorem churnCmd_keeps (s : State) (die op : Nat) {run : Bound → ChurnDesc → State → State}
    (hr : ∀ b d t, Keeps s t → Keeps s (run b d t)) : OutKeeps s (churnCmd die op run s) := by
  refine onUnit_keeps _ _ _ ?_
  dsimp only
  (repeat' split) <;> grind [Keeps.refl, haltStation_keeps, ctrlRead_keeps, modStation_keeps]
theorem runOpen_keeps (h : Keeps s0 s) (b : Bound) (d : ChurnDesc) : Keeps s0 (runOpen b d s) := by
  grind [runOpen, ctrlRead_keeps, haltStation_keeps, openGoesOn_keeps, openStart_keeps]
@[simp] theorem execChurnOpen_keeps (s : State) (die : Nat) : OutKeeps s (execChurnOpen die s) := by
  unfold execChurnOpen
  grind [Keeps.refl, outKeeps_next, outKeeps_refused, churnCmd_keeps, runOpen_keeps]
theorem answerShake_keeps (h : Keeps s0 s) (i : Nat) (west : Bool) (r : RingRec) : Keeps s0 (answerShake s i west r) := by
  grind [answerShake, churnCtl_keeps, modDir_keeps, update_keeps]
@[simp] theorem execChurnHandshakeArrival_keeps (s : State) (die ctx : Nat) (west : Bool) (shake : Shake) : OutKeeps s
    (execChurnHandshakeArrival die ctx west shake s) := by
  refine onUnit_keeps _ _ _ ?_
  grind [Keeps.refl, answerShake_keeps, modDir_keeps, openGoesOn_keeps, update_keeps]
@[simp] theorem execChurnCreditArrival_keeps (s : State) (die ctx : Nat) (west : Bool) (credits rttNs : Nat) : OutKeeps s
    (execChurnCreditArrival die ctx west credits rttNs s) := by
  refine onUnit_keeps _ _ _ ?_
  grind [Keeps.refl, modDir_keeps, update_keeps]
theorem failCtx_keeps (h : Keeps s0 s) (i : Nat) (cause : ChnCause) (st : Status) : Keeps s0 (failCtx s i cause st) := by
  grind [failCtx, churnEvent_keeps, haltStation_keeps, modChn_keeps]
theorem failCtxs_keeps (h : Keeps s0 s) (p : ChnCtx → RingRec → Bool) (cause : ChnCause) : Keeps s0 (failCtxs s p cause) := by
  unfold failCtxs
  exact foldl_state_keeps (fun t a ht => by grind [failCtx_keeps]) _ h
theorem churnWithdraw_keeps (h : Keeps s0 s) (group : Nat) : Keeps s0 (churnWithdraw s group) := by
  grind [churnWithdraw, failCtxs_keeps]
theorem churnLinkDown_keeps (h : Keeps s0 s) (link : Nat) : Keeps s0 (churnLinkDown s link) := by
  grind [churnLinkDown, failCtxs_keeps]
@[simp] theorem execChurnTimeout_keeps (s : State) (die ctx : Nat) (west : Bool) : OutKeeps s
    (execChurnTimeout die ctx west s) := by
  refine onUnit_keeps _ _ _ ?_
  grind [Keeps.refl, failCtx_keeps, haltStation_keeps, openFails_keeps]
theorem sendTile_keeps (h : Keeps s0 s) (i : Nat) (west : Bool) (r : RingRec) (tile : Bytes) : Keeps s0
    (sendTile s i west r tile) := by
  grind [sendTile, modDir_keeps, sendBytes_keeps, update_keeps]
theorem countStaged_keeps (h : Keeps s0 s) (i : Nat) (west : Bool) (u : RxSlot) : Keeps s0 (countStaged i west s u) := by
  grind [countStaged, ctrSat_keeps, modChn_keeps, modDir_keeps, update_keeps]
theorem passSlots_keeps (h : Keeps s0 s) (i : Nat) (west : Bool) (r : RingRec) : Keeps s0 (passSlots s i west r) := by
  have h1 (f : ChnDir → ChnDir) :
      Keeps s0 (modDir ((chnDir (chnAt s i) west).slots.foldl (countStaged i west) s) i west f) :=
    modDir_keeps (foldl_state_keeps (fun _ u ht => countStaged_keeps ht _ _ u) _ h) _ _ _
  simp only [passSlots]
  split
  · exact h1 _
  · exact churnCtl_keeps (h1 _) _ _ _ _
theorem passRelease_keeps (h : Keeps s0 s) (b : Bound) (i : Nat) (west : Bool) (r : RingRec) : Keeps s0
    (passRelease s b i west r) := by
  simp only [passRelease]
  (repeat' split) <;> grind [modDir_keeps, popHandle_keeps, release_keeps, waitInputs_keeps, update_keeps]
theorem modSlotAt_keeps (h : Keeps s0 s) (i : Nat) (west : Bool) (a : Nat) (f : RxSlot → RxSlot) : Keeps s0
    (modSlotAt s i west a f) := by
  grind [modSlotAt, modDir_keeps, update_keeps]
theorem passPush_keeps (h : Keeps s0 s) (b : Bound) (i : Nat) (west : Bool) (r : RingRec) : Keeps s0 (passPush s b i west r) := by
  grind [passPush, emit_keeps, modDir_keeps, modSlotAt_keeps, setRef_keeps, update_keeps]
theorem passForward_keeps (h : Keeps s0 s) (i : Nat) (west : Bool) (r : RingRec) : Keeps s0 (passForward s i west r) := by
  grind [passForward, memRead_keeps, modDir_keeps, modSlotAt_keeps, sendTile_keeps, update_keeps]
theorem passLocal_keeps (h : Keeps s0 s) (b : Bound) (i : Nat) (west : Bool) (r : RingRec) (q : SeqRec) :
    Keeps s0 (passLocal s b i west r q) := by
  simp only [passLocal]
  split
  · exact h
  · split
    · exact h
    · split
      · exact waitInputs_keeps h _ _ _
      · next x hx =>
        split
        · exact haltStation_keeps h _ _
        · exact release_keeps (sendTile_keeps (modDir_keeps (memRead_keeps (popHandle_keeps h hx) _ _) _ _ _) _ _ _ _) _ _ _
theorem passDir_keeps (h : Keeps s0 s) (b : Bound) (i : Nat) (r : RingRec) (q : SeqRec) (west : Bool) : Keeps s0
    (passDir b i r q s west) := by
  grind [passDir, passForward_keeps, passLocal_keeps, passPush_keeps, passRelease_keeps, passSlots_keeps]
theorem runRotate_keeps (h : Keeps s0 s) (b : Bound) (d : ChurnDesc) : Keeps s0 (runRotate b d s) := by
  unfold runRotate
  dsimp only
  split
  · exact haltStation_keeps h _ _
  · next r _ =>
    split
    · exact haltStation_keeps h _ _
    · have hx : Keeps s0 (readSeq s d.seqid).1 := readSeq_keeps h _
      split
      · exact haltStation_keeps hx _ _
      · split
        · exact haltStation_keeps hx _ _
        · generalize hs1 : ite ((chnAt s (4 * b.st.unit + d.ctx)).rotating = true) _ _ = s1
          have h1 : Keeps s0 s1 := by
            rw [← hs1]
            split
            · exact hx
            · exact modChn_keeps (foldl_state_keeps (fun _ w ht => passSlots_keeps ht _ w _) _ hx) _ _
          generalize hs2 : List.foldl _ s1 _ = s2
          have h2 : Keeps s0 s2 := by
            rw [← hs2]
            refine foldl_state_keeps (fun t w ht => ?_) _ h1
            split
            · exact passDir_keeps ht _ _ _ _ _
            · exact ht
          split
          · exact settle_keeps (advance_keeps (notifyEvent_keeps (modChn_keeps h2 _ _) _ _ _) _) _
          · exact pauseDone_keeps h2 _
@[simp] theorem execChurnRotate_keeps (s : State) (die : Nat) : OutKeeps s (execChurnRotate die s) := by
  unfold execChurnRotate
  grind [Keeps.refl, outKeeps_next, outKeeps_refused, churnCmd_keeps, runRotate_keeps]
theorem strayTile_keeps (h : Keeps s0 s) (die : Nat) (west : Bool) (tag : Word) : Keeps s0 (strayTile s die west tag) := by
  grind [strayTile, ctrSat_keeps, modDir_keeps, tick1_keeps, update_keeps]
theorem landRing_keeps (h : Keeps s0 s) (i : Nat) (west : Bool) (r : RingRec) (tile : Bytes) (cur : Bool) (n a : Nat) :
    Keeps s0 (landRing s i west r tile cur n a) := by
  grind [landRing, memWrite_keeps, getD_keeps, memWrite_getD_keeps, modDir_keeps, update_keeps]
@[simp] theorem execRingTileArrival_keeps (s : State) (die : Nat) (west : Bool) (tile : Bytes) : OutKeeps s
    (execRingTileArrival die west tile s) := by
  refine onUnit_keeps _ _ _ ?_
  grind [Keeps.refl, alarm_keeps, failCtx_keeps, haltStation_keeps, landRing_keeps, strayTile_keeps]
theorem runClose_keeps (h : Keeps s0 s) (b : Bound) (d : ChurnDesc) : Keeps s0 (runClose b d s) := by
  grind [runClose, advance_keeps, haltStation_keeps, modRingCtx_keeps, notifyEvent_keeps, settle_keeps]
@[simp] theorem execChurnClose_keeps (s : State) (die : Nat) : OutKeeps s (execChurnClose die s) := by
  unfold execChurnClose
  grind [Keeps.refl, outKeeps_next, outKeeps_refused, churnCmd_keeps, runClose_keeps]

/-! ### Address arguments -/

theorem argRead_keeps (h : Keeps s0 s) (a : AddrArg) (n : Nat) : Keeps s0 (argRead s a n).1 := by
  grind [argRead, memRead_keeps]
theorem argWrite_ok_keeps (h : Keeps s0 s) {a : AddrArg} {b : Bytes} {u : State} (he : argWrite s a b = .ok u) : Keeps s0 u := by
  grind [argWrite, hostPoke_keeps, memWrite_keeps, getD_keeps, memWrite_getD_keeps]

/-! ### The Zheip fabric -/

theorem countPort_keeps (h : Keeps s0 s) (p off : Nat) (get : Fab → List Word) (put : Fab → List Word → Fab) : Keeps s0
    (countPort s p off get put) := by
  grind [countPort, ctrSat_keeps, update_keeps]
theorem countReplay_keeps (h : Keeps s0 s) (p : Nat) : Keeps s0 (countReplay s p) := by
  grind [countReplay, countPort_keeps, update_keeps]
theorem countRetrain_keeps (h : Keeps s0 s) (p : Nat) : Keeps s0 (countRetrain s p) := by
  grind [countRetrain, countPort_keeps, update_keeps]
theorem countRouter_keeps (h : Keeps s0 s) (d off k : Nat) (get : RouterCtr → Word) (put : RouterCtr → Word → RouterCtr) :
    Keeps s0 (countRouter s d off k get put) := by
  grind [countRouter, ctrSat_keeps, modRouter_keeps]
theorem countLost_keeps (h : Keeps s0 s) (d k : Nat) : Keeps s0 (countLost s d k) := by
  grind [countLost, countRouter_keeps, update_keeps]
theorem countBad_keeps (h : Keeps s0 s) (d : Nat) : Keeps s0 (countBad s d) := by
  grind [countBad, countRouter_keeps, update_keeps]
theorem countNoRoute_keeps (h : Keeps s0 s) (d : Nat) : Keeps s0 (countNoRoute s d) := by
  grind [countNoRoute, countRouter_keeps, update_keeps]
theorem countHops_keeps (h : Keeps s0 s) (d : Nat) : Keeps s0 (countHops s d) := by
  grind [countHops, countRouter_keeps, update_keeps]
theorem countStall_keeps (h : Keeps s0 s) (d : Nat) : Keeps s0 (countStall s d) := by
  grind [countStall, countRouter_keeps, update_keeps]
theorem cableRecheck_keeps (h : Keeps s0 s) : Keeps s0 (cableRecheck s) := by
  unfold cableRecheck
  split
  · exact h
  · extract_lets rs _ s1 fab
    have h1 : Keeps s0 s1 := h.trans (.of_eq rfl rfl rfl rfl rfl rfl)
    clear_value fab s1
    split
    · exact h1
    · split
      · exact h1
      · refine alarm_keeps ?_ _ _
        exact h1.trans (.of_eq rfl rfl rfl rfl rfl rfl)
theorem opCableCheck_keeps (h : Keeps s0 s) (x : HostHdr) (plan report : AddrArg) :
    Keeps s0 (opCableCheck x plan report s) := by
  have ha (n : Nat) : Keeps s0 (argRead s plan n).1 := argRead_keeps h _ _
  have hb (a : AddrArg) (n m : Nat) : Keeps s0 (argRead (argRead s plan m).1 a n).1 := argRead_keeps (ha m) _ _
  simp only [opCableCheck]
  split
  · exact complete_keeps h _ _ _
  · split
    · exact complete_keeps (ha _) _ _ _
    · split
      · exact complete_keeps (hb _ _ _) _ _ _
      · split
        · exact complete_keeps (hb _ _ _) _ _ _
        · next hd _ _ es _ _ p _ =>
          have hc : Keeps s0 (cableRecheck { (argRead (argRead s plan 32).1 (argAt plan 32) (16 * min 64 (leAt hd 2 2))).1 with
              fab := { (argRead (argRead s plan 32).1 (argAt plan 32) (16 * min 64 (leAt hd 2 2))).1.fab with
                plan := some p, cableBad := false } }) :=
            cableRecheck_keeps ((hb _ _ _).trans (.of_eq rfl rfl rfl rfl rfl rfl))
          split
          · exact complete_keeps hc _ _ _
          · next t ht => exact complete_keeps (argWrite_ok_keeps hc ht) _ _ _
@[simp] theorem execCableCheck_keeps (s : State) (h : HostHdr) (plan report : AddrArg) : OutKeeps s
    (execCableCheck h plan report s) := by
  refine hostCmd_keeps _ _ _ _ ?_
  grind [Keeps.refl, opCableCheck_keeps]
theorem opFabTrain_keeps (h : Keeps s0 s) (value : Word) : Keeps s0 (opFabTrain value s) := by
  grind [opFabTrain, update_keeps]
@[simp] theorem execFabTrain_keeps (s : State) (value : Word) : OutKeeps s (execFabTrain value s) := by
  refine whenUp_keeps ?_
  grind [Keeps.refl, opFabTrain_keeps]
theorem linkDown_keeps (h : Keeps s0 s) (l : Nat) (c : LinkCause) : Keeps s0 (linkDown s l c) := by
  unfold linkDown
  extract_lets x was n s1 s2 s3 s4 _ s5
  have h1 : Keeps s0 s1 := modLink_keeps h _ _
  have h2 : Keeps s0 s2 := by grind [event_keeps, countLost_keeps]
  have h3 : Keeps s0 s3 := event_keeps h2 _
  have h4 : Keeps s0 s4 := alarm_keeps h3 _ _
  have h5 : Keeps s0 s5 := by grind [update_keeps]
  split
  · exact churnLinkDown_keeps (cableRecheck_keeps h5) _
  · exact h3
theorem usePreset_keeps (h : Keeps s0 s) (l : Nat) (p : PeerInfo) : Keeps s0 (usePreset s l p) :=
  h.trans (.of_eq rfl rfl rfl rfl rfl rfl)
theorem linkUp_keeps (h : Keeps s0 s) (l : Nat) : Keeps s0 (linkUp s l) := by
  grind [linkUp, cableRecheck_keeps, modLink_keeps, usePreset_keeps, update_keeps]
theorem opLinkPhase_keeps (h : Keeps s0 s) (l : Nat) (peer : PeerInfo) : Keeps s0 (opLinkPhase l peer s) := by
  grind [opLinkPhase, linkDown_keeps, linkUp_keeps, modLink_keeps, usePreset_keeps, update_keeps]
@[simp] theorem execLinkPhaseDone_keeps (s : State) (link : Nat) (peer : PeerInfo) : OutKeeps s
    (execLinkPhaseDone link peer s) := by
  refine onUnit_keeps _ _ _ ?_
  grind [Keeps.refl, opLinkPhase_keeps]
@[simp] theorem execTrainTimeout_keeps (s : State) (link : Nat) : OutKeeps s (execTrainTimeout link s) := by
  refine onUnit_keeps _ _ _ ?_
  grind [Keeps.refl, linkDown_keeps, modLink_keeps, update_keeps]
@[simp] theorem execLinkRestart_keeps (s : State) (link : Nat) : OutKeeps s (execLinkRestart link s) := by
  refine onUnit_keeps _ _ _ ?_
  grind [Keeps.refl, countRetrain_keeps, modLink_keeps, update_keeps]
@[simp] theorem execLossOfSignal_keeps (s : State) (link : Nat) : OutKeeps s (execLossOfSignal link s) := by
  refine onUnit_keeps _ _ _ ?_
  grind [Keeps.refl, linkDown_keeps]
theorem pumpLink_keeps (h : Keeps s0 s) (l : Nat) : Keeps s0 (pumpLink s l) := by
  grind [pumpLink, modLink_keeps, update_keeps]
theorem queuePacket_keeps (h : Keeps s0 s) (l : Nat) (p : Packet) : Keeps s0 (queuePacket s l p) := by
  grind [queuePacket, modLink_keeps, pumpLink_keeps, update_keeps]
theorem replay_keeps (h : Keeps s0 s) (l : Nat) : Keeps s0 (replay s l) := by
  grind [replay, countReplay_keeps, linkDown_keeps, modLink_keeps, update_keeps]
theorem takeAck_keeps (h : Keeps s0 s) (l : Nat) (f : Bytes) : Keeps s0 (takeAck s l f) := by
  grind [takeAck, modLink_keeps, pumpLink_keeps, replay_keeps, update_keeps]
theorem refuseFrame_keeps (h : Keeps s0 s) (l : Nat) : Keeps s0 (refuseFrame s l) := by
  grind [refuseFrame, modLink_keeps, update_keeps]
theorem takeBody_keeps (h : Keeps s0 s) (l : Nat) (body : Bytes) : Keeps s0 (takeBody s l body) := by
  grind [takeBody, modLink_keeps, update_keeps]
theorem takeFrameIn_keeps (h : Keeps s0 s) (l : Nat) (cells : List (BitVec 544)) : Keeps s0 (takeFrameIn l cells s) := by
  grind [takeFrameIn, modLink_keeps, refuseFrame_keeps, takeAck_keeps, takeBody_keeps, update_keeps]
theorem opFrameReceive_keeps (h : Keeps s0 s) (l : Nat) (cells : List (BitVec 544)) : Keeps s0 (opFrameReceive l cells s) := by
  grind [opFrameReceive, modLink_keeps, takeFrameIn_keeps]
@[simp] theorem execFrameReceive_keeps (s : State) (link : Nat) (cells : List (BitVec 544)) : OutKeeps s
    (execFrameReceive link cells s) := by
  refine onUnit_keeps _ _ _ ?_
  grind [Keeps.refl, opFrameReceive_keeps]
@[simp] theorem execReplayTimeout_keeps (s : State) (link : Nat) : OutKeeps s (execReplayTimeout link s) := by
  refine onUnit_keeps _ _ _ ?_
  grind [Keeps.refl, replay_keeps]
@[simp] theorem execFabStallExpiry_keeps (s : State) (link vc : Nat) (dl : Bool) : OutKeeps s
    (execFabStallExpiry link vc dl s) := by
  refine onUnit_keeps _ _ _ ?_
  grind [Keeps.refl, alarm_keeps, countStall_keeps, modLink_keeps, update_keeps]
theorem returnCredits_keeps (h : Keeps s0 s) (p : Packet) (src : Option Nat) : Keeps s0 (returnCredits s p src) := by
  simp only [returnCredits]
  (repeat' split) <;> grind [modLink_keeps, update_keeps]
theorem deliverPacket_keeps (h : Keeps s0 s) (die : Nat) (p : Packet) : Keeps s0 (deliverPacket s die p) :=
  h.trans (.of_eq rfl rfl rfl rfl rfl rfl)
theorem noRoute_keeps (h : Keeps s0 s) (die tbl idx : Nat) : Keeps s0 (noRoute s die tbl idx) := by
  grind [noRoute, alarm_keeps, countNoRoute_keeps, update_keeps]
theorem dlFabric_keeps (h : Keeps s0 s) (die l : Nat) (p : Packet) : Keeps s0 (dlFabric s die l p) := by
  grind [dlFabric, dlCount_keeps]
theorem routePacket_keeps (h : Keeps s0 s) (die : Nat) (p : Packet) : Keeps s0 (routePacket s die p) := by
  simp only [routePacket]
  (repeat' split) <;>
    grind [countBad_keeps, deliverPacket_keeps, countNoRoute_keeps, alarm_keeps, countHops_keeps, noRoute_keeps, queuePacket_keeps,
      tick1_keeps, dlFabric_keeps]
@[simp] theorem execPacketForward_keeps (s : State) (die : Nat) : OutKeeps s (execPacketForward die s) := by
  refine onUnit_keeps _ _ _ ?_
  grind [Keeps.refl, returnCredits_keeps, routePacket_keeps, update_keeps]
theorem opRtEntry_keeps (h : Keeps s0 s) (req : Requester) (value : Word) : Keeps s0 (opRtEntry req value s) := by
  grind [opRtEntry, update_keeps]
@[simp] theorem execFabRtEntry_keeps (s : State) (req : Requester) (value : Word) : OutKeeps s (execFabRtEntry req value s) := by
  refine whenUp_keeps ?_
  grind [Keeps.refl, opRtEntry_keeps]
theorem opLshape_keeps (h : Keeps s0 s) (which : Nat) (value : Dword) : Keeps s0 (opLshape which value s) := by
  simp only [opLshape]
  (repeat' split) <;> grind [update_keeps]
@[simp] theorem execFabLshape_keeps (s : State) (which : Nat) (value : Dword) : OutKeeps s (execFabLshape which value s) := by
  unfold execFabLshape
  grind [Keeps.refl, outKeeps_next, outKeeps_refused, opLshape_keeps, whenUp_keeps]
@[simp] theorem execDisc_keeps (s : State) (link : Nat) (rec : DiscRec) : OutKeeps s (execDisc link rec s) := by
  refine onUnit_keeps _ _ _ ?_
  grind [Keeps.refl, modLink_keeps, update_keeps]
theorem opDiscover_keeps (h : Keeps s0 s) (value : Word) : Keeps s0 (opDiscover value s) := by
  unfold opDiscover
  split
  · exact foldl_state_keeps (fun _ l ht => queuePacket_keeps ht _ _) _ h
  · exact h
@[simp] theorem execFabDiscover_keeps (s : State) (value : Word) : OutKeeps s (execFabDiscover value s) := by
  refine whenUp_keeps ?_
  grind [Keeps.refl, opDiscover_keeps]
theorem eqxLost_keeps (h : Keeps s0 s) : Keeps s0 (eqxLost s) := by
  grind [eqxLost, failTimed_keeps, update_keeps]
@[simp] theorem execEqxInterval_keeps (s : State) : OutKeeps s (execEqxInterval s) := by
  have hs := Keeps.refl s
  unfold execEqxInterval
  dsimp only
  (repeat' split) <;> grind [outKeeps_next, outKeeps_refused, queuePacket_keeps, update_keeps]
@[simp] theorem execEqxRequest_keeps (s : State) (link t1 : Nat) : OutKeeps s (execEqxRequest link t1 s) := by
  refine onUnit_keeps _ _ _ ?_
  grind [Keeps.refl, queuePacket_keeps]
theorem opEqxReply_keeps (h : Keeps s0 s) (t1 t2 t3 t4 : Nat) (sync : Bool) : Keeps s0 (opEqxReply t1 t2 t3 t4 sync s) := by
  grind [opEqxReply, eqxLost_keeps, update_keeps]
@[simp] theorem execEqxReply_keeps (s : State) (t1 t2 t3 t4 : Nat) (sync : Bool) : OutKeeps s
    (execEqxReply t1 t2 t3 t4 sync s) := by
  unfold execEqxReply
  grind [Keeps.refl, outKeeps_next, outKeeps_refused, opEqxReply_keeps]
@[simp] theorem execEqxLockLoss_keeps (s : State) : OutKeeps s (execEqxLockLoss s) := by
  unfold execEqxLockLoss
  grind [Keeps.refl, outKeeps_next, outKeeps_refused, eqxLost_keeps]
theorem opEqxSet_keeps (h : Keeps s0 s) (value : Dword) : Keeps s0 (opEqxSet value s) := by
  grind [opEqxSet, update_keeps]
@[simp] theorem execFabEqxSet_keeps (s : State) (value : Dword) : OutKeeps s (execFabEqxSet value s) := by
  refine whenUp_keeps ?_
  grind [Keeps.refl, opEqxSet_keeps]

/-! ### Rings, doorbells, interrupts and the lock of set-up -/

theorem opRingCreate_keeps (h : Keeps s0 s) (hd : HostHdr) (desc : BitVec 256) : Keeps s0 (opRingCreate hd desc s) := by
  grind [opRingCreate, complete_keeps, update_keeps]
@[simp] theorem execRingCreate_keeps (s : State) (h : HostHdr) (desc : BitVec 256) : OutKeeps s (execRingCreate h desc s) := by
  refine hostCmd_keeps _ _ _ _ ?_
  grind [Keeps.refl, opRingCreate_keeps]
theorem opRingDelete_keeps (h : Keeps s0 s) (hd : HostHdr) (ring : Nat) : Keeps s0 (opRingDelete hd ring s) := by
  grind [opRingDelete, afterCmd_keeps, complete_keeps, modRing_keeps, startCmd_keeps, update_keeps]
@[simp] theorem execRingDelete_keeps (s : State) (h : HostHdr) (ring : Nat) : OutKeeps s (execRingDelete h ring s) := by
  refine hostCmd_keeps _ _ _ _ ?_
  grind [Keeps.refl, opRingDelete_keeps]
theorem countDbErr_keeps (h : Keeps s0 s) : Keeps s0 (countDbErr s) := by
  grind [countDbErr, ctrSat_keeps, update_keeps]
theorem countRingErr_keeps (h : Keeps s0 s) : Keeps s0 (countRingErr s) := by
  grind [countRingErr, ctrSat_keeps, update_keeps]
theorem wakeEvent_keeps (h : Keeps s0 s) : Keeps s0 (wakeEvent s) := by
  unfold wakeEvent
  split
  · exact h.trans ⟨rfl, id⟩
  · exact h.trans ⟨rfl, id⟩
  · exact h
theorem doorbell_keeps (s : State) (fn ring width : Nat) {f : Ring → State} (hf : ∀ x, Keeps s (f x)) :
    OutKeeps s (doorbell s fn ring width f) := by
  unfold doorbell
  (repeat' split) <;> grind [Keeps.refl, outKeeps_next, outKeeps_refused, countDbErr_keeps]
@[simp] theorem execSqTail_keeps (s : State) (fn ring width : Nat) (value : Word) :
    OutKeeps s (execSqTail fn ring width value s) :=
  doorbell_keeps _ _ _ _ fun x => by
    grind [Keeps.refl, wakeEvent_keeps, modRing_keeps, postEntry_keeps, countRingErr_keeps]
@[simp] theorem execCqHead_keeps (s : State) (fn ring width : Nat) (value : Word) :
    OutKeeps s (execCqHead fn ring width value s) :=
  doorbell_keeps _ _ _ _ fun x => by
    grind [Keeps.refl, modRing_keeps, afterCmd_keeps, drainBacklog_keeps, alarm_keeps, countRingErr_keeps]
@[simp] theorem execMsixModerationExpiry_keeps (s : State) (fn ring : Nat) : OutKeeps s (execMsixModerationExpiry fn ring s) := by
  unfold execMsixModerationExpiry
  grind [Keeps.refl, outKeeps_next, outKeeps_refused, ringSignal_keeps]
theorem unmask_keeps (h : Keeps s0 s) (fn vector : Nat) : Keeps s0 (unmask fn vector s) := by
  grind [unmask, update_keeps]
@[simp] theorem execMsixVectorUnmask_keeps (s : State) (fn vector : Nat) : OutKeeps s (execMsixVectorUnmask fn vector s) := by
  unfold execMsixVectorUnmask
  grind [Keeps.refl, outKeeps_next, outKeeps_refused, onUnit_keeps, unmask_keeps]
theorem opSetupLock_keeps (h : Keeps s0 s) (value : Word) : Keeps s0 (opSetupLock value s) := by
  grind [opSetupLock, update_keeps]
@[simp] theorem execHifSetupLock_keeps (s : State) (value : Word) : OutKeeps s (execHifSetupLock value s) := by
  refine whenUp_keeps ?_
  grind [Keeps.refl, opSetupLock_keeps]
theorem opRing0_keeps (h : Keeps s0 s) (fn word : Nat) (value : Dword) : Keeps s0 (opRing0 fn word value s) := by
  grind [opRing0, applyRing0_keeps, update_keeps]
@[simp] theorem execHifRing0_keeps (s : State) (fn word : Nat) (value : Dword) : OutKeeps s (execHifRing0 fn word value s) := by
  unfold execHifRing0
  grind [Keeps.refl, outKeeps_next, outKeeps_refused, opRing0_keeps, whenUp_keeps]
@[simp] theorem execPcieLinkRetrain_keeps (s : State) (rate lanes : Nat) (flit : Bool) : OutKeeps s
    (execPcieLinkRetrain rate lanes flit s) := by
  have hs := Keeps.refl s
  unfold execPcieLinkRetrain
  dsimp only
  (repeat' split) <;> grind [outKeeps_next, outKeeps_refused, hostErr_keeps, update_keeps]
@[simp] theorem execConfigurationRequest_keeps (s : State) : OutKeeps s (execConfigurationRequest s) := by
  have hs := Keeps.refl s
  unfold execConfigurationRequest
  dsimp only
  (repeat' split) <;> grind [outKeeps_next, outKeeps_refused, update_keeps]

/-! ### Small transfers of the control cores -/

theorem pushQid_done_keeps (h : Keeps s0 s) {qid : Nat} {hd : Handle} {u : State} (he : pushQid s qid hd = .done u) :
    Keeps s0 u := by
  grind [pushQid, modGraph_keeps, modQueue_keeps, update_keeps]
@[simp] theorem execSmallTransfer_keeps (s : State) (cluster slotAddr : Nat) (cmd : BitVec 256) : OutKeeps s
    (execSmallTransfer cluster slotAddr cmd s) := by
  refine onUnit_keeps _ _ _ ?_
  grind [Keeps.refl, modCluster_keeps, update_keeps]
theorem smallRead_keeps (h : Keeps s0 s) (cluster : Nat) (c : SmallCmd) : Keeps s0 (smallRead s cluster c).1 := by
  grind [smallRead, dlCtrl_keeps, memRead_keeps]
theorem smallWrite_ok_keeps (h : Keeps s0 s) {cluster : Nat} {c : SmallCmd} {d : Bytes} {u : State}
    (he : smallWrite s cluster c d = .ok u) : Keeps s0 u := by
  grind [smallWrite, dlCtrl_keeps, hostPoke_keeps, writeAny_keeps]
theorem smallEnd_keeps (h : Keeps s0 s) (cluster : Nat) (c : SmallCmd) (st : Status) : Keeps s0 (smallEnd s cluster c st) := by
  grind [smallEnd, memWrite_keeps, getD_keeps, memWrite_getD_keeps, modCluster_keeps, update_keeps]
theorem smallRun_keeps (h : Keeps s0 s) (cluster : Nat) (c : SmallCmd) : Keeps s0 (smallRun s cluster c) := by
  have hr : Keeps s0 (smallRead s cluster c).1 := smallRead_keeps h _ _
  have hw (d : Bytes) (t : State) (e : smallWrite (smallRead s cluster c).1 cluster c d = .ok t) : Keeps s0 (tick1 t) ∧ Keeps s0 t :=
    ⟨tick1_keeps (smallWrite_ok_keeps hr e), smallWrite_ok_keeps hr e⟩
  simp only [smallRun]
  (repeat' split) <;> grind [smallEnd_keeps, pushQid_done_keeps]

end

end Sys2Proof.Machine
end

