-- ==== Sys2Proof/Proofs/KeepsOperations.lean ====
section
/-! SUPPORT. What MMA, the Whey, the SSAs, the flash search and the sideband keep. -/

namespace Sys2Proof.Machine

section
variable {s0 s : State}

@[simp] theorem execSmallTransferDone_keeps (s : State) (cluster : Nat) : OutKeeps s (execSmallTransferDone cluster s) := by
  refine onUnit_keeps _ _ _ ?_
  grind [Keeps.refl, smallEnd_keeps, smallRun_keeps]

/-! ### The MMA work descriptor, fused chains and block attention -/

theorem readSeen_keeps (h : Keeps s0 s) (a n : Nat) (on : Nat → Bool) : Keeps s0 (readSeen s a n on).1 := by
  have hr : Keeps s0 ((seenSectors a n on).foldl readSector s) := foldl_state_keeps (fun _ k ht => readSector_keeps ht k) _ h
  simp only [readSeen]
  (repeat' split)
  · exact hr
  · exact hr
  · exact h
theorem takeBytes_keeps (h : Keeps s0 s) {x : Handle} {n : Nat} {on : Nat → Bool} {p : Taken}
    (e : takeBytes s x n on = some p) : Keeps s0 p.st := by
  have hr : Keeps s0 (readSeen s x.addr n on).1 := readSeen_keeps h _ _ _
  simp only [takeBytes] at e
  (repeat' split at e) <;> cases e
  · exact h
  · exact hr
  · exact hr
  · exact hr
theorem mmaCut_keeps (h : Keeps s0 s) (b : Bound) (p : MmaPart) (st : Status) : Keeps s0 (mmaCut s b p st) :=
  settle_keeps (modStation_keeps (notifyEvent_keeps (modCore_keeps (releaseAll_keeps h _ _ _) _ _) _ _ _) _ _ _) _
theorem mmaHalt_keeps (h : Keeps s0 s) (b : Bound) (p : MmaPart) (st : Status) : Keeps s0 (mmaHalt s b p st) := by
  grind [mmaHalt, haltCore_keeps, mmaCut_keeps]
theorem readExt_keeps (h : Keeps s0 s) (d : MmaDesc) : Keeps s0 (readExt s d).1 := by
  grind [readExt, ctrlRead_keeps]
theorem takeMask_halt_keeps (h : Keeps s0 s) {p : MmaPart} {ports : List Nat} {hd : Handle} {pp : MmaPart} {st : Status}
    {u : State} (he : takeMask s p ports hd = .halt u pp st) : Keeps s0 u := by
  grind [takeMask, ctrlRead_keeps, update_keeps]
theorem takeMask_got_keeps (h : Keeps s0 s) {p : MmaPart} {ports : List Nat} {hd : Handle} {pp : MmaPart} {u : State}
    (he : takeMask s p ports hd = .got u pp) : Keeps s0 u := by
  grind [takeMask, ctrlRead_keeps, update_keeps]
theorem popStep_halt_keeps (h : Keeps s0 s) {b : Bound} {d : MmaDesc} {f : Option FuseRec} {p : MmaPart} {k : PopKind}
    {pp : MmaPart} {st : Status} {u : State} (he : popStep s b d f p k = .halt u pp st) : Keeps s0 u := by
  have hp (r : State × List Handle) (l : List Nat) (e : popAll s b.slot b.idx l = some r) : Keeps s0 r.1 := popAll_keeps h e
  simp only [popStep] at he
  (repeat' split at he) <;> grind [takeMask_halt_keeps, takeMask_got_keeps]
theorem popStep_got_keeps (h : Keeps s0 s) {b : Bound} {d : MmaDesc} {f : Option FuseRec} {p : MmaPart} {k : PopKind}
    {pp : MmaPart} {u : State} (he : popStep s b d f p k = .got u pp) : Keeps s0 u := by
  have hp (r : State × List Handle) (l : List Nat) (e : popAll s b.slot b.idx l = some r) : Keeps s0 r.1 := popAll_keeps h e
  simp only [popStep] at he
  (repeat' split at he) <;> grind [takeMask_halt_keeps, takeMask_got_keeps]
theorem readHandles_keeps (h : Keeps s0 s) (rows : Nat) (on : Nat → Bool) (ports : List Nat) (hs : List Handle)
    (rbs : List Nat) {o} (eo : readHandles rows on ports s hs rbs = some o) : Keeps s0 o.1 := by
  induction hs generalizing s ports rbs o with
  | nil =>
    rw [readHandles.eq_def] at eo
    cases eo
    exact h
  | cons x hs ih =>
    cases rbs with
    | nil =>
      rw [readHandles.eq_def] at eo
      cases eo
      exact h
    | cons n rbs =>
      simp only [readHandles] at eo
      split at eo
      · cases eo
      · next t ht =>
        obtain ⟨r, hr, rfl⟩ := Option.map_eq_some_iff.mp eo
        have hrest := ih (takeBytes_keeps h ht) _ _ hr
        exact hrest
theorem useNext_keeps (h : Keeps s0 s) {b : Bound} {d : MmaDesc} {f : Option FuseRec} {p : MmaPart} {x : Nat × Nat × Nat}
    {k : PopKind} {o} (eo : useNext s b d f p x k = some o) : Keeps s0 o.1 := by
  have hgot (c : Bool) (rows : Nat) (on : Nat → Bool) (ports : List Nat) (hs : List Handle) (l : List Nat) (r)
      (e : (if c then readHandles rows on ports s hs l else some (s, [], [])) = some r) : Keeps s0 r.1 := by
    split at e
    · exact readHandles_keeps h _ _ _ _ _ e
    · cases e
      exact h
  unfold useNext at eo
  dsimp only at eo
  split at eo
  · cases eo
  · next hr =>
    cases eo
    have h1 := hgot _ _ _ _ _ _ _ hr
    dsimp only
    split
    · exact h1
    · exact releaseAll_keeps h1 _ _ _
theorem useReady_halt_keeps (h : Keeps s0 s) {b : Bound} {d : MmaDesc} {f : Option FuseRec} {e : Nat × Nat × Nat}
    {n : Nat} {p pp : MmaPart} {st : Status} {u : State} (he : useReady b d f e n s p = .halt u pp st) : Keeps s0 u := by
  induction n generalizing s p with
  | zero =>
    cases he
  | succ n ih =>
    simp only [useReady] at he
    split at he
    · cases he
    · split at he
      · cases he
        exact h
      · next hu =>
        have hr := useNext_keeps h hu
        split at he
        · cases he
          exact hr
        · exact ih hr he
theorem useReady_got_keeps (h : Keeps s0 s) {b : Bound} {d : MmaDesc} {f : Option FuseRec} {e : Nat × Nat × Nat}
    {n : Nat} {p pp : MmaPart} {u : State} (he : useReady b d f e n s p = .got u pp) : Keeps s0 u := by
  induction n generalizing s p with
  | zero =>
    cases he
    exact h
  | succ n ih =>
    simp only [useReady] at he
    split at he
    · cases he
      exact h
    · split at he
      · cases he
      · next hu =>
        have hr := useNext_keeps h hu
        split at he
        · cases he
        · exact ih hr he
theorem popKind_halt_keeps (h : Keeps s0 s) {b : Bound} {d : MmaDesc} {f : Option FuseRec} {e : Nat × Nat × Nat}
    {k : PopKind} {p pp : MmaPart} {st : Status} {u : State} (he : popKind b d f e k s p = .halt u pp st) : Keeps s0 u := by
  unfold popKind at he
  split at he
  · cases he
  · cases he
  · next hu =>
    cases he
    exact popStep_halt_keeps h hu
  · next hu => exact useReady_halt_keeps (popStep_got_keeps h hu) he
theorem popKind_got_keeps (h : Keeps s0 s) {b : Bound} {d : MmaDesc} {f : Option FuseRec} {e : Nat × Nat × Nat}
    {k : PopKind} {p pp : MmaPart} {u : State} (he : popKind b d f e k s p = .got u pp) : Keeps s0 u := by
  unfold popKind at he
  split at he
  · cases he
    exact h
  · cases he
    exact waitInputs_keeps h _ _ _
  · next hu =>
    cases he
  · next hu => exact useReady_got_keeps (popStep_got_keeps h hu) he
theorem popKinds_halt_keeps (h : Keeps s0 s) {b : Bound} {d : MmaDesc} {f : Option FuseRec} {e : Nat × Nat × Nat} {l}
    {p : MmaPart} {pp : MmaPart} {st : Status} {u : State} (he : popKinds b d f e l s p = .halt u pp st) : Keeps s0 u := by
  fun_induction popKinds <;> grind [popKind_halt_keeps, popKind_got_keeps]
theorem popKinds_got_keeps (h : Keeps s0 s) {b : Bound} {d : MmaDesc} {f : Option FuseRec} {e : Nat × Nat × Nat} {l}
    {p : MmaPart} {pp : MmaPart} {u : State} (he : popKinds b d f e l s p = .got u pp) : Keeps s0 u := by
  fun_induction popKinds <;> grind [popKind_halt_keeps, popKind_got_keeps]
theorem popTurns_halt_keeps (h : Keeps s0 s) {b : Bound} {d : MmaDesc} {f : Option FuseRec} {e : Nat × Nat × Nat} {n}
    {p : MmaPart} {pp : MmaPart} {st : Status} {u : State} (he : popTurns b d f e n s p = .halt u pp st) : Keeps s0 u := by
  fun_induction popTurns <;> grind [popKinds_halt_keeps, popKinds_got_keeps]
theorem popTurns_got_keeps (h : Keeps s0 s) {b : Bound} {d : MmaDesc} {f : Option FuseRec} {e : Nat × Nat × Nat} {n}
    {p : MmaPart} {pp : MmaPart} {u : State} (he : popTurns b d f e n s p = .got u pp) : Keeps s0 u := by
  fun_induction popTurns <;> grind [popKinds_halt_keeps, popKinds_got_keeps]
theorem useHeld_keeps (h : Keeps s0 s) {x : Core} {d : MmaDesc} {f : Option FuseRec} {p : MmaPart} {e : Nat × Nat × Nat}
    {o} (eo : useHeld s x d f p e = some o) : Keeps s0 o.1 := by
  have hread {t : State} (ht : Keeps s0 t) (c : Prop) [Decidable c] (rows : Nat) (on : Nat → Bool) (ports : List Nat)
      (hs : List Handle) (l : List Nat) (r)
      (e : (if c then readHandles rows on ports t hs l else some (t, [], [])) = some r) : Keeps s0 r.1 := by
    split at e
    · exact readHandles_keeps ht _ _ _ _ _ e
    · cases e
      exact ht
  unfold useHeld at eo
  extract_lets en seen _ p1 p2 ra at eo
  split at eo
  · cases eo
    exact h
  · obtain hq | ⟨q, hq⟩ := Option.eq_none_or_eq_some ra
    · rw [hq] at eo
      cases eo
    · rw [hq] at eo
      obtain ⟨r, hr, rfl⟩ := Option.map_eq_some_iff.mp eo
      exact hread (hread h _ _ _ _ _ _ _ hq) _ _ _ _ _ _ _ hr
theorem updateHolds_keeps (h : Keeps s0 s) (core : Nat) (d : MmaDesc) (p : MmaPart) : Keeps s0 (updateHolds s core d p) := by
  grind [updateHolds, modCore_keeps, update_keeps]
theorem useLate_keeps (h : Keeps s0 s) {b : Bound} {d : MmaDesc} {f : Option FuseRec} {p : MmaPart} {x : Nat × Nat × Nat}
    {o} (eo : useLate s b d f p x = some o) : Keeps s0 o.1 := by
  have hmap {t : State} (ht : Keeps s0 t) {y : Handle} {n : Nat} {on : Nat → Bool} {g : Taken → State × List Bytes × List (Nat × Status)}
      (hg : ∀ v, (g v).1 = v.st) {q} (e : (takeBytes t y n on).map g = some q) : Keeps s0 q.1 := by
    obtain ⟨v, hv, rfl⟩ := Option.map_eq_some_iff.mp e
    exact (hg v).symm ▸ takeBytes_keeps ht hv
  unfold useLate at eo
  extract_lets en live stats rc at eo
  have hrc (q) (hq : rc = some q) : Keeps s0 q.1 := by
    unfold rc at hq
    (repeat' split at hq) <;> grind [readHandles_keeps]
  obtain hq | ⟨q, hq⟩ := Option.eq_none_or_eq_some rc
  · rw [hq] at eo
    cases eo
  · have h1 := hrc q hq
    rw [hq] at eo
    obtain ⟨w, hw, rfl⟩ := Option.map_eq_some_iff.mp eo
    dsimp only at hw
    (repeat' split at hw)
    · cases hw
      exact h1
    · cases hw
      exact h1
    · cases hw
    · next ht =>
      obtain ⟨v, hv, rfl⟩ := Option.map_eq_some_iff.mp hw
      exact readHandles_keeps (takeBytes_keeps h1 ht) _ _ _ _ _ hv
theorem drawBuffer_ok_keeps (h : Keeps s0 s) {b : Bound} {port n : Nat} {pool addr : Nat} {u : State}
    (he : drawBuffer s b port n = .ok u pool addr) : Keeps s0 u := by
  simp only [drawBuffer] at he
  (repeat' split at he) <;> cases he <;> grind [takeBuffer_keeps]
theorem raise_keeps (h : Keeps s0 s) (core : Nat) (f : Fl3) : Keeps s0 (raise s core f) := by
  grind [raise, setCoreFlags_keeps]
theorem mmaEnd_keeps (h : Keeps s0 s) (b : Bound) (d : MmaDesc) (st : Status) : Keeps s0 (mmaEnd s b d st) := by
  grind [mmaEnd, advance_keeps, modCore_keeps, notifyEvent_keeps, settle_keeps, update_keeps]
theorem noteTile_keeps (h : Keeps s0 s) (addr rowB : Nat) : Keeps s0 (noteTile s addr rowB) :=
  h.trans (.of_eq rfl rfl rfl rfl rfl rfl)
theorem mmaPush_ok_keeps (h : Keeps s0 s) {b : Bound} {d : MmaDesc} {tag : Half} {o : MmaOut} {pool addr : Nat}
    {u : State} (he : mmaPush s b d tag o = .ok u pool addr) : Keeps s0 u := by
  grind [mmaPush, drawBuffer_ok_keeps, emit_keeps, memWrite_keeps, getD_keeps, memWrite_getD_keeps, noteTile_keeps]
theorem mmaPushOut_keeps (h : Keeps s0 s) (b : Bound) (d : MmaDesc) (p : MmaPart) (o : MmaOut) : Keeps s0
    (mmaPushOut s b d p o) := by
  grind [mmaPushOut, emit_keeps, mmaEnd_keeps, mmaPush_ok_keeps]
theorem setChain_keeps (h : Keeps s0 s) (core : Nat) (c : Option Chain) : Keeps s0 (setChain s core c) := by
  grind [setChain, modCore_keeps, update_keeps]
theorem mmaClose_keeps (h : Keeps s0 s) (b : Bound) (d : MmaDesc) (p : MmaPart) (r : MmaRes) :
    Keeps s0 (mmaClose s b d p r) := by
  have h1 : Keeps s0 (releaseAll s b.slot b.idx (heldGone (coreAt s b.st.unit) d ++ p.wc ++ p.wv ++ p.rest)) :=
    releaseAll_keeps h _ _ _
  simp only [mmaClose]
  split
  · exact mmaCut_keeps h1 _ _ _
  · refine mmaPushOut_keeps ?_ _ _ _ _
    have h2 (g : Core → Core) : Keeps s0 (modCore (setChain (raise (updateHolds (releaseAll s b.slot b.idx
        (heldGone (coreAt s b.st.unit) d ++ p.wc ++ p.wv ++ p.rest)) b.st.unit d p) b.st.unit r.fl) b.st.unit r.chain)
        b.st.unit g) :=
      modCore_keeps (setChain_keeps (raise_keeps (updateHolds_keeps h1 _ _ _) _ _) _ _) _ _
    split
    · exact tileBoundary_keeps (h2 _) _
    · exact h2 _
theorem mmaFinish_keeps (h : Keeps s0 s) (b : Bound) (d : MmaDesc) (f : Option FuseRec) (p : MmaPart)
    (e : Nat × Nat × Nat) : Keeps s0 (mmaFinish s b d f p e) := by
  unfold mmaFinish
  split
  · exact mmaHalt_keeps h _ _ _
  · next r hr =>
    have h1 := useHeld_keeps h hr
    split
    · exact mmaHalt_keeps h _ _ _
    · next q hq =>
      have h2 := useLate_keeps h1 hq
      dsimp only
      split
      · exact mmaHalt_keeps h2 _ _ _
      · exact mmaClose_keeps h2 _ _ _ _
theorem saveBack_keeps (h : Keeps s0 s) (b : Bound) (p : MmaPart) : Keeps s0 (saveBack s b p) := by
  grind [saveBack, modCore_keeps, update_keeps]
theorem mmaGo_keeps (h : Keeps s0 s) (b : Bound) (d : MmaDesc) (f : Option FuseRec) (p : MmaPart) (e : Nat × Nat × Nat) :
    Keeps s0 (mmaGo s b d f p e) := by
  grind [mmaGo, mmaCut_keeps, mmaFinish_keeps, mmaHalt_keeps, popTurns_halt_keeps, popTurns_got_keeps, saveBack_keeps]
theorem mmaShape_keeps (h : Keeps s0 s) (b : Bound) (d : MmaDesc) (f : Option FuseRec) (p : MmaPart) :
    Keeps s0 (mmaShape s b d f p) := by
  have hr : Keeps s0 (readExt s d).1 := readExt_keeps h _
  simp only [mmaShape]
  split
  · exact mmaHalt_keeps hr _ _ _
  · split
    · next hu => exact mmaGo_keeps (useReady_got_keeps hr hu) _ _ _ _ _
    · next hu =>
      split
      · exact mmaCut_keeps (useReady_halt_keeps hr hu) _ _ _
      · exact mmaHalt_keeps (useReady_halt_keeps hr hu) _ _ _
    · exact hr
theorem mmaAnchor_keeps (h : Keeps s0 s) (b : Bound) (d : MmaDesc) (f : Option FuseRec) (p : MmaPart) :
    Keeps s0 (mmaAnchor s b d f p) := by
  unfold mmaAnchor
  split
  · exact mmaShape_keeps h _ _ _ _
  · split
    · next hu => exact mmaShape_keeps (popStep_got_keeps h hu) _ _ _ _
    · exact saveBack_keeps (waitInputs_keeps h _ _ _) _ _
    · next hu =>
      split
      · exact mmaCut_keeps (popStep_halt_keeps h hu) _ _ _
      · exact mmaHalt_keeps (popStep_halt_keeps h hu) _ _ _
    · exact mmaShape_keeps h _ _ _ _
theorem loadPred_keeps (h : Keeps s0 s) {b : Bound} {d : MmaDesc} {o} (eo : loadPred s b d = some o) : Keeps s0 o.1 := by
  grind [loadPred, ctrlRead_keeps, modCore_keeps, update_keeps]
theorem readFuse_keeps (h : Keeps s0 s) (x : Core) (d : MmaDesc) : Keeps s0 (readFuse s x d).1 := by
  grind [readFuse, ctrlRead_keeps]
theorem mmaStart_keeps (h : Keeps s0 s) (b : Bound) : Keeps s0 (mmaStart s b) := by
  have hq (x : Core) (d : MmaDesc) : Keeps s0 (readFuse (ctrlRead s (wdAddr b 64) 64).1 x d).1 :=
    readFuse_keeps (ctrlRead_keeps h _ _) _ _
  unfold mmaStart
  extract_lets r x
  split
  · exact haltStation_keeps (ctrlRead_keeps h _ _) _ _
  · extract_lets d q
    have h1 : Keeps s0 q.1 := hq _ _
    clear_value q
    split
    · exact haltStation_keeps h1 _ _
    · extract_lets p f pushes
      generalize ite (pushes = true) _ _ = out
      split
      · exact haltStation_keeps h1 _ _
      · split
        · exact mmaHalt_keeps h1 _ _ _
        · split
          · exact h
          · next ht => exact haltStation_keeps (loadPred_keeps h1 ht) _ _
          · next ht => exact mmaAnchor_keeps (loadPred_keeps h1 ht) _ _ _ _
@[simp] theorem execMmaDescriptor_keeps (s : State) (core : Nat) : OutKeeps s (execMmaDescriptor core s) := by
  refine onUnit_keeps _ _ _ ?_
  dsimp only
  (repeat' split) <;> grind [Keeps.refl, mmaAnchor_keeps, mmaGo_keeps, mmaPushOut_keeps, mmaStart_keeps]

/-! ### The Whey store -/

theorem allocObj_keeps (h : Keeps s0 s) (o : Nat) : Keeps s0 (allocObj s o) := by
  grind [allocObj, modFls_keeps, update_keeps]
theorem freeObj_keeps (h : Keeps s0 s) (o : Nat) : Keeps s0 (freeObj s o) := by
  grind [freeObj, modFls_keeps, update_keeps]
theorem opFlsPool_keeps (h : Keeps s0 s) (pool : Nat) (value : Dword) : Keeps s0 (opFlsPool pool value s) := by
  grind [opFlsPool, modFls_keeps, update_keeps]
@[simp] theorem execFlsPool_keeps (s : State) (pool : Nat) (value : Dword) : OutKeeps s (execFlsPool pool value s) := by
  unfold execFlsPool
  grind [Keeps.refl, outKeeps_next, outKeeps_refused, opFlsPool_keeps, whenUp_keeps]
theorem channelUe_keeps (h : Keeps s0 s) (c arg : Nat) : Keeps s0 (channelUe s c arg) := by
  grind [channelUe, ctrSat_keeps, event_keeps, modCh_keeps, update_keeps]
theorem flashUe_keeps (h : Keeps s0 s) (o k : Nat) : Keeps s0 (flashUe s o k) := by
  grind [flashUe, channelUe_keeps]
theorem flashCe_keeps (h : Keeps s0 s) (o k : Nat) : Keeps s0 (flashCe s o k) := by
  grind [flashCe, ctrSat_keeps, event_keeps, modCh_keeps, update_keeps]
theorem moreReloc_keeps (h : Keeps s0 s) (c : Nat) : Keeps s0 (moreReloc s c) := by
  grind [moreReloc, ctrSat_keeps, modCh_keeps, update_keeps]
theorem flashDecay_keeps (h : Keeps s0 s) (o n : Nat) : Keeps s0 (flashDecay s o n) := by
  grind [flashDecay, modFls_keeps, tick1_keeps, update_keeps]
theorem flashDisturb_keeps (h : Keeps s0 s) (o n : Nat) : Keeps s0 (flashDisturb s o n) := by
  unfold flashDisturb
  dsimp only
  split
  · exact flashDecay_keeps (modFls_keeps h _) _ _
  · exact flashDecay_keeps (foldl_state_keeps (fun _ u ht => moreReloc_keeps ht _) _ (modFls_keeps h _)) _ _
theorem readWord_keeps (h : Keeps s0 s) (o : Nat) (bad soft : List Nat) (k : Nat) : Keeps s0 (readWord o bad soft s k) := by
  grind [readWord, flashCe_keeps, flashUe_keeps, modFls_keeps, update_keeps]
theorem flashReadAs_keeps (h : Keeps s0 s) (o n : Nat) (bad soft : List Nat) : Keeps s0 (flashReadAs s o n bad soft).1 :=
  flashDisturb_keeps (foldl_state_keeps (fun _ k ht => readWord_keeps ht _ _ _ k) _ h) _ _
theorem flashRead_keeps (h : Keeps s0 s) (o n : Nat) : Keeps s0 (flashRead s o n).1 := by
  grind [flashRead, flashReadAs_keeps]
theorem layerProgram_keeps (h : Keeps s0 s) (n : Nat) : Keeps s0 (layerProgram s n) := by
  grind [layerProgram, modFls_keeps, tick1_keeps, update_keeps]
theorem storeObj_keeps (h : Keeps s0 s) (o : Nat) (b : Bytes) : Keeps s0 (storeObj s o b) := by
  grind [storeObj, layerProgram_keeps, modFls_keeps, update_keeps]
theorem wheyStatus_keeps (h : Keeps s0 s) (a : AddrArg) (st : Status) : Keeps s0 (wheyStatus s a st) := by
  grind [wheyStatus, argWrite_ok_keeps]
theorem wheyAnswer_keeps (h : Keeps s0 s) (cmd : Option (Nat × HostHdr)) (st : Status) : Keeps s0 (wheyAnswer s cmd st) := by
  simp only [wheyAnswer]
  (repeat' split) <;> grind [finishCmd_keeps]
theorem wheyQueue_keeps (h : Keeps s0 s) (a : AddrArg)
    (cmd : Option (Nat × HostHdr)) (x : WheyRec) (ran : Bool) (st : Status) (outs : List Status) : Keeps s0
    (wheyQueue s a cmd x ran st outs) := by
  grind [wheyQueue, modFls_keeps, update_keeps]
theorem wheyRefuse_keeps (h : Keeps s0 s) (a : AddrArg) (cmd : Option (Nat × HostHdr)) (x : WheyRec) (st : Status) :
    Keeps s0 (wheyRefuse s a cmd x st) := by
  grind [wheyRefuse, wheyAnswer_keeps, wheyQueue_keeps, wheyStatus_keeps]
theorem wheySubmit_keeps (h : Keeps s0 s) (a : AddrArg) (cmd : Option (Nat × HostHdr)) : Keeps s0 (wheySubmit s a cmd) := by
  grind [wheySubmit, argRead_keeps, wheyAnswer_keeps, wheyQueue_keeps, wheyRefuse_keeps]
theorem opWheyXfer_keeps (h : Keeps s0 s) (hd : HostHdr) (rec : AddrArg) : Keeps s0 (opWheyXfer hd rec s) := by
  grind [opWheyXfer, startCmd_keeps, wheySubmit_keeps]
@[simp] theorem execWheyXfer_keeps (s : State) (h : HostHdr) (rec : AddrArg) : OutKeeps s (execWheyXfer h rec s) := by
  refine hostCmd_keeps _ _ _ _ ?_
  grind [Keeps.refl, opWheyXfer_keeps]
@[simp] theorem execFlsWheyPost_keeps (s : State) (cluster addr : Nat) : OutKeeps s (execFlsWheyPost cluster addr s) := by
  unfold execFlsWheyPost
  grind [Keeps.refl, outKeeps_next, outKeeps_refused, whenUp_keeps, wheySubmit_keeps]
theorem modXfer_keeps (h : Keeps s0 s) (id : Nat) (f : Xfer → Xfer) : Keeps s0 (modXfer s id f) := by
  grind [modXfer, modFls_keeps, update_keeps]
theorem xferRun_keeps (s : State) (id op : Nat) {run : Xfer → State → State} (hr : ∀ x, Keeps s (run x s)) :
    OutKeeps s (xferRun s id op run) := by
  unfold xferRun
  (repeat' split)
  · exact outKeeps_next (.refl s)
  · exact outKeeps_next (hr _)
  · exact outKeeps_next (.refl s)
theorem xferEnds_keeps (h : Keeps s0 s) (x : Xfer) (st : Status) (outs : List Status) : Keeps s0 (xferEnds s x st outs) := by
  grind [xferEnds, modXfer_keeps, update_keeps]
theorem runPut_keeps (h : Keeps s0 s) (x : Xfer) : Keeps s0 (runPut x s) := by
  grind [runPut, memRead_keeps, storeObj_keeps, xferEnds_keeps]
@[simp] theorem execWheyPut_keeps (s : State) (xfer : Nat) : OutKeeps s (execWheyPut xfer s) := by
  unfold execWheyPut
  grind [Keeps.refl, outKeeps_next, outKeeps_refused, runPut_keeps, xferRun_keeps]
theorem runGet_keeps (h : Keeps s0 s) (x : Xfer) : Keeps s0 (runGet x s) := by
  grind [runGet, flashReadAs_keeps, memWrite_keeps, getD_keeps, memWrite_getD_keeps, tick1_keeps, xferEnds_keeps]
@[simp] theorem execWheyGet_keeps (s : State) (xfer : Nat) : OutKeeps s (execWheyGet xfer s) := by
  unfold execWheyGet
  grind [Keeps.refl, outKeeps_next, outKeeps_refused, runGet_keeps, xferRun_keeps]
theorem pageHeld_keeps (h : Keeps s0 s) (q : SeqRec) (p : Pte) : Keeps s0 (pageHeld s q p).1 := by
  grind [pageHeld, memRead_keeps]
theorem moveOutEntry_keeps (h : Keeps s0 s) (e : MoveEntry) : Keeps s0 (moveOutEntry s e).1 := by
  simp only [moveOutEntry]
  (repeat' split) <;> grind [pageHeld_keeps, readSeq_keeps, storeObj_keeps]
theorem moveInEntry_keeps (h : Keeps s0 s) (e : MoveEntry) : Keeps s0 (moveInEntry s e).1 := by
  grind [moveInEntry, flashRead_keeps, memWrite_keeps, getD_keeps, memWrite_getD_keeps]
theorem moveWalk_keeps (h : Keeps s0 s) {f : State → MoveEntry → State × Status}
    (hf : ∀ t e, Keeps s0 t → Keeps s0 (f t e).1) (list n i : Nat) : Keeps s0 (moveWalk f list n i s).1 := by
  induction n generalizing s i with
  | zero => exact h
  | succ n ih =>
    have hr : Keeps s0 (ctrlRead s (moveEntryAt list i) 32).1 := ctrlRead_keeps h _ _
    simp only [moveWalk]
    (repeat' split)
    · exact hr
    · exact ih hr _
    · exact ih (hf _ _ hr) _
theorem runMove_keeps (h : Keeps s0 s) {f : State → MoveEntry → State × Status}
    (hf : ∀ t e, Keeps s0 t → Keeps s0 (f t e).1) (x : Xfer) : Keeps s0 (runMove f x s) := by
  grind [runMove, ctrlRead_keeps, moveWalk_keeps, xferEnds_keeps]
@[simp] theorem execWheyMoveOut_keeps (s : State) (xfer : Nat) : OutKeeps s (execWheyMoveOut xfer s) :=
  xferRun_keeps _ _ _ fun x => runMove_keeps (.refl s) (fun _ e ht => moveOutEntry_keeps ht e) x
@[simp] theorem execWheyMoveIn_keeps (s : State) (xfer : Nat) : OutKeeps s (execWheyMoveIn xfer s) :=
  xferRun_keeps _ _ _ fun x => runMove_keeps (.refl s) (fun _ e ht => moveInEntry_keeps ht e) x
theorem takeSlots_keeps (h : Keeps s0 s) (p n : Nat) : Keeps s0 (takeSlots p n s).1 := by
  fun_induction takeSlots <;> grind [allocObj_keeps, tick1_keeps]
theorem runAlloc_keeps (h : Keeps s0 s) (x : Xfer) : Keeps s0 (runAlloc x s) := by
  grind [runAlloc, memWrite_keeps, getD_keeps, memWrite_getD_keeps, takeSlots_keeps, xferEnds_keeps]
@[simp] theorem execWheyAlloc_keeps (s : State) (xfer : Nat) : OutKeeps s (execWheyAlloc xfer s) := by
  unfold execWheyAlloc
  grind [Keeps.refl, outKeeps_next, outKeeps_refused, runAlloc_keeps, xferRun_keeps]
theorem runFree_keeps (h : Keeps s0 s) (x : Xfer) : Keeps s0 (runFree x s) := by
  have hr : Keeps s0 (memRead s x.args.local_ (4 + 8 * x.args.count)).1 := memRead_keeps h _ _
  simp only [runFree]
  split
  · exact h
  · split
    · exact xferEnds_keeps (foldl_state_keeps (fun _ o ht => freeObj_keeps ht o) _ hr) _ _ _
    · exact xferEnds_keeps hr _ _ _
    · exact xferEnds_keeps hr _ _ _
@[simp] theorem execWheyFree_keeps (s : State) (xfer : Nat) : OutKeeps s (execWheyFree xfer s) := by
  unfold execWheyFree
  grind [Keeps.refl, outKeeps_next, outKeeps_refused, runFree_keeps, xferRun_keeps]
theorem wheyPush_keeps (x : Xfer) (l : List Status) (h : Keeps s0 s) : Keeps s0 (wheyPush x l s).1 := by
  induction l generalizing s with
  | nil => exact h
  | cons st l ih =>
    simp only [wheyPush]
    split
    · exact h
    · exact h
    · next hu => exact ih (pushQid_done_keeps (tick1_keeps h) hu)
@[simp] theorem execWheyTransferDone_keeps (s : State) (xfer : Nat) : OutKeeps s (execWheyTransferDone xfer s) := by
  unfold execWheyTransferDone
  split
  · exact outKeeps_next (.refl s)
  · next x _ =>
    have hp : Keeps s (wheyPush x x.outs s).1 := wheyPush_keeps x _ (.refl s)
    dsimp only
    (repeat' split)
    · exact outKeeps_next (.refl s)
    · exact outKeeps_next (modXfer_keeps hp _ _)
    · exact outKeeps_next (wheyAnswer_keeps (modFls_keeps (wheyStatus_keeps hp _ _) _) _ _)
@[simp] theorem execFlashScanDone_keeps (s : State) : OutKeeps s (execFlashScanDone s) := by
  have hs := Keeps.refl s
  unfold execFlashScanDone
  dsimp only
  (repeat' split) <;> grind [outKeeps_next, outKeeps_refused, modFls_keeps, tick1_keeps, update_keeps]
theorem enterReadonly_keeps (h : Keeps s0 s) (c : Nat) : Keeps s0 (enterReadonly s c) := by
  grind [enterReadonly, alarm_keeps, modFls_keeps, update_keeps]
theorem wearMore_keeps (h : Keeps s0 s) (c : Nat) : Keeps s0 (wearMore s c) := by
  grind [wearMore, alarm_keeps, modCh_keeps, tick1_keeps, update_keeps]
theorem moreProgrammed_keeps (h : Keeps s0 s) : Keeps s0 (moreProgrammed s) := by
  grind [moreProgrammed, layerProgram_keeps]
@[simp] theorem execFlashUpkeep_keeps (s : State) (channel : Nat) (what : Upkeep) :
    OutKeeps s (execFlashUpkeep channel what s) := by
  have hs := Keeps.refl s
  refine onUnit_keeps _ _ _ ?_
  (repeat' split) <;> grind [wearMore_keeps, moreProgrammed_keeps, moreReloc_keeps, enterReadonly_keeps, modCh_keeps]

/-! ### Attention inside the stacks -/

theorem arriveTile_keeps (h : Keeps s0 s) (k : Nat) (j : SsaJob) (hd : Handle) : Keeps s0 (arriveTile s k j hd).1 := by
  grind [arriveTile, ctrlRead_keeps, update_keeps]
theorem ssaHalt_keeps (h : Keeps s0 s) (k : Nat) (b : Bound) (st : Status) : Keeps s0 (ssaHalt s k b st) := by
  grind [ssaHalt, haltStation_keeps, modSsa_keeps, update_keeps]
theorem retakeTiles_keeps (h : Keeps s0 s) (k : Nat) (j : SsaJob) (l : List Handle) : Keeps s0 (retakeTiles k s j l).1 := by
  fun_induction retakeTiles <;> grind [arriveTile_keeps]
theorem ssaRerun_keeps (h : Keeps s0 s) (k : Nat) (b : Bound) (j : SsaJob) : Keeps s0 (ssaRerun s k b j) := by
  grind [ssaRerun, modSsa_keeps, retakeTiles_keeps, setJob_keeps, ssaHalt_keeps, update_keeps]
theorem ssaOpen_keeps (h : Keeps s0 s) (k : Nat) (b : Bound) : Keeps s0 (ssaOpen s k b) := by
  grind [ssaOpen, ctrlRead_keeps, modSsa_keeps, setJob_keeps, ssaHalt_keeps, update_keeps]
@[simp] theorem execSsaAttend_keeps (s : State) (stack : Nat) : OutKeeps s (execSsaAttend stack s) := by
  refine onUnit_keeps _ _ _ ?_
  grind [Keeps.refl, ssaOpen_keeps, ssaRerun_keeps]
@[simp] theorem execDescriptorTileArrival_keeps (s : State) (stack : Nat) :
    OutKeeps s (execDescriptorTileArrival stack s) := by
  refine onUnit_keeps _ _ _ ?_
  split
  · next b j _ _ =>
    dsimp only
    split
    · exact .refl s
    · split
      · exact waitInputs_keeps (.refl s) _ _ _
      · next t x ht =>
        have hr : Keeps s (arriveTile t stack j x).1 := arriveTile_keeps (popHandle_keeps (.refl s) ht) _ _ _
        split
        · exact ssaHalt_keeps (setJob_keeps hr _ _) _ _ _
        · exact setJob_keeps hr _ _
  · exact .refl s
theorem loadPage_keeps (h : Keeps s0 s) (p : PageDesc) : Keeps s0 (loadPage s p).1 := by
  grind [loadPage, memRead_keeps]
theorem loadPages_keeps (h : Keeps s0 s) (l : List PageDesc) : Keeps s0 (loadPages s l).1 := by
  fun_induction loadPages <;> grind [loadPage_keeps]
theorem pageRow_keeps (h : Keeps s0 s) (p : PageDesc) (body : PageBody) (half t : Nat) : Keeps s0
    (pageRow s p body half t).1 := by
  simp only [pageRow]
  (repeat' split) <;> grind [memRead_keeps]
theorem readSlot_keeps (h : Keeps s0 s) (p : PageDesc) (body : PageBody) (t : Nat) : Keeps s0 (readSlot s p body t).1 := by
  unfold readSlot
  refine foldl_fst_keeps (fun q g hq => ?_) _ h
  exact pageRow_keeps (pageRow_keeps hq _ _ _ _) _ _ _ _
theorem readColumns_keeps (h : Keeps s0 s) (l : List (PageDesc × PageBody × Nat)) : Keeps s0 (readColumns s l).1 := by
  fun_induction readColumns <;> grind [readSlot_keeps]
theorem foldTile_keeps (h : Keeps s0 s) (a : FoldArgs) (k : Nat) (x : Folding) (tile : List (PageDesc × PageBody × Nat)) :
    Keeps s0 (foldTile a s k x tile).1 := by
  grind [foldTile, ctrSat_keeps, modSsa_keeps, readColumns_keeps, update_keeps]
theorem foldTiles_keeps (h : Keeps s0 s) (a : FoldArgs) (k : Nat) (x : Folding)
    (l : List (List (PageDesc × PageBody × Nat))) : Keeps s0 (foldTiles a k s x l).1 := by
  fun_induction foldTiles <;> grind [foldTile_keeps]
theorem ssaPush_ok_keeps (h : Keeps s0 s) {b : Bound} {port : Nat} {tag : Half} {st : Status} {data : Bytes}
    {pool addr : Nat} {u : State} (he : ssaPush s b port tag st data = .ok u pool addr) : Keeps s0 u := by
  grind [ssaPush, drawBuffer_ok_keeps, emit_keeps, memWrite_keeps, getD_keeps, memWrite_getD_keeps]
theorem ssaPushes_ok_keeps (h : Keeps s0 s) {b : Bound} {tag : Half} {st : Status} {l} {u : State}
    (he : ssaPushes b tag st s l = .ok u) : Keeps s0 u := by
  fun_induction ssaPushes <;> grind [ssaPush_ok_keeps]
theorem ssaDone_keeps (h : Keeps s0 s) (k : Nat) (b : Bound) (j : SsaJob) (st : Status) : Keeps s0 (ssaDone s k b j st) := by
  simp only [ssaDone]
  (repeat' split) <;> grind [advance_keeps, modSsa_keeps, notifyEvent_keeps, releaseAll_keeps, settle_keeps, update_keeps]
theorem ssaCarry_keeps (h : Keeps s0 s) (k : Nat) (b : Bound) (j : SsaJob) (st : Status) : Keeps s0 (ssaCarry s k b j st) := by
  unfold ssaCarry
  split
  · exact h
  · exact ssaHalt_keeps h _ _ _
  · next ht => exact ssaDone_keeps (ssaPushes_ok_keeps (tick1_keeps h) ht) _ _ _ _
theorem ssaFoldGo_keeps (h : Keeps s0 s) (k : Nat) (b : Bound) (j : SsaJob) (x : TileHdr) (qpos0 : Nat) {t : State}
    (ht : Keeps s0 t) (hq rows : Nat) (q : Bytes) : Keeps s0 (ssaFold.go s k b j x qpos0 t hq rows q) := by
  unfold ssaFold.go
  dsimp only
  split
  · exact h
  · exact ssaHalt_keeps h _ _ _
  · next hu =>
    exact ssaDone_keeps (ssaPushes_ok_keeps (setSsaFlags_keeps (foldTiles_keeps (loadPages_keeps ht _) _ _ _ _) _ _) hu) _ _ _ _

theorem ssaFold_keeps (h : Keeps s0 s) (k : Nat) (b : Bound) (j : SsaJob) (x : TileHdr) (qpos0 qt : Nat) :
    Keeps s0 (ssaFold s k b j x qpos0 qt) := by
  have hr (a n : Nat) : Keeps s0 (memRead s a n).1 := memRead_keeps h _ _
  unfold ssaFold
  dsimp only
  split
  · exact ssaHalt_keeps h _ _ _
  · split
    · exact ssaHalt_keeps (hr _ _) _ _ _
    · split
      · exact ssaFoldGo_keeps h _ _ _ _ _ h _ _ _
      · exact ssaCarry_keeps (hr _ _) _ _ _ _
    · split
      · exact ssaFoldGo_keeps h _ _ _ _ _ h _ _ _
      · exact ssaFoldGo_keeps h _ _ _ _ _ (hr _ _) _ _ _
theorem ssaEnd_keeps (h : Keeps s0 s) (k : Nat) (b : Bound) (j : SsaJob) : Keeps s0 (ssaEnd s k b j) := by
  have hr (a n : Nat) : Keeps s0 (memRead s a n).1 := memRead_keeps h _ _
  unfold ssaEnd
  dsimp only
  split
  · exact h
  · split
    · exact ssaCarry_keeps h _ _ _ _
    · exact ssaDone_keeps (foldl_state_keeps (fun _ p ht => emit_keeps ht _ _ _ _) _ h) _ _ _ _
    · split
      · exact ssaHalt_keeps (hr _ _) _ _ _
      · exact ssaCarry_keeps (hr _ _) _ _ _ _
      · split
        · exact ssaHalt_keeps (hr _ _) _ _ _
        · exact ssaFold_keeps (hr _ _) _ _ _ _ _ _
@[simp] theorem execSsaJobClose_keeps (s : State) (stack : Nat) : OutKeeps s (execSsaJobClose stack s) := by
  refine onUnit_keeps _ _ _ ?_
  (repeat' split) <;> grind [Keeps.refl, ssaEnd_keeps, setJob_keeps]

/-! ### Batches, queries, Harvest and merging -/

theorem modIndex_keeps (h : Keeps s0 s) (n : Nat) (f : Index → Index) : Keeps s0 (modIndex s n f) := by
  grind [modIndex, modVse_keeps, update_keeps]
theorem idxCount_keeps (h : Keeps s0 s) (n : Nat) (c : IdxCtr) (k : Nat) : Keeps s0 (idxCount s n c k) := by
  grind [idxCount, ctrSat_keeps, modIndex_keeps]
theorem modJob_keeps (h : Keeps s0 s) (b : Bound) (f : ScanJob → ScanJob) : Keeps s0 (modJob s b f) := by
  grind [modJob, modVse_keeps, update_keeps]
theorem dropJob_keeps (h : Keeps s0 s) (b : Bound) : Keeps s0 (dropJob s b) := by
  grind [dropJob, modVse_keeps, update_keeps]
theorem scanCmd_keeps (s : State) (channel op : Nat) (ports : Bool) {run : State → Bound → ScanDesc → State}
    (hr : ∀ t b d, Keeps s t → Keeps s (run t b d)) : OutKeeps s (scanCmd channel op ports run s) := by
  have hs := Keeps.refl s
  refine onUnit_keeps _ _ _ ?_
  dsimp only
  (repeat' split) <;> grind [ctrlRead_keeps, haltStation_keeps]
theorem scanEnd_keeps (h : Keeps s0 s) (b : Bound) (notify : Bool) (st : Status) : Keeps s0 (scanEnd s b notify st) := by
  grind [scanEnd, advance_keeps, notifyEvent_keeps, settle_keeps]
theorem scanPass_keeps (h : Keeps s0 s) {t : State} (ht : Keeps s0 t) (b : Bound) (d : ScanDesc) (x : Handle) :
    Keeps s0 (scanPass s t b d x) := by
  have hpush (u : State) (pool addr : Nat) (c : Bool) (tag : Half) (st : Status) (v : Bytes)
      (e : (if c then ssaPush (tick1 t) b 0 tag st v else .stall) = .ok u pool addr) : Keeps s0 u := by
    split at e
    · exact ssaPush_ok_keeps (tick1_keeps ht) e
    · cases e
  unfold scanPass
  split
  · split
    · exact scanEnd_keeps (emit_keeps ht _ _ _ _) _ _ _
    · exact h
  · split
    · exact h
    · exact haltStation_keeps h _ _
    · next hu => exact scanEnd_keeps (release_keeps (hpush _ _ _ _ _ _ _ hu) _ _ _) _ _ _
theorem runCreate_keeps (h : Keeps s0 s) (b : Bound) (d : ScanDesc) : Keeps s0 (runCreate s b d) := by
  grind [runCreate, haltStation_keeps, memRead_keeps, modVse_keeps, scanEnd_keeps, update_keeps]
@[simp] theorem execScanCreate_keeps (s : State) (channel : Nat) : OutKeeps s (execScanCreate channel s) := by
  unfold execScanCreate
  grind [Keeps.refl, outKeeps_next, outKeeps_refused, runCreate_keeps, scanCmd_keeps]
theorem runDestroy_keeps (h : Keeps s0 s) (b : Bound) (d : ScanDesc) : Keeps s0 (runDestroy s b d) := by
  grind [runDestroy, modVse_keeps, scanEnd_keeps, update_keeps]
@[simp] theorem execScanDestroy_keeps (s : State) (channel : Nat) : OutKeeps s (execScanDestroy channel s) := by
  unfold execScanDestroy
  grind [Keeps.refl, outKeeps_next, outKeeps_refused, runDestroy_keeps, scanCmd_keeps]
theorem batchEntry_keeps {a : State × List Nat} (h : Keeps s0 a.1) (n g : Nat) (insert : Bool) (e : Nat × Dword × Nat) :
    Keeps s0 (batchEntry n g insert a e).1 := by
  have hput (x : Index) (k : Nat) (y : Shard) :
      Keeps s0 (modIndex a.1 n fun z => { z with shards := z.shards.set k y }) := modIndex_keeps h _ _
  unfold batchEntry
  split
  · exact h
  · next x _ =>
    dsimp only
    split
    · exact h
    · split
      · have h1 (r : Applied) (k : Nat) : Keeps s0 (idxCount (idxCount (modIndex a.1 n fun z =>
            { z with shards := z.shards.set k r.sh }) n .edgeDrop r.drops) n .seenFull r.fulls) :=
          idxCount_keeps (idxCount_keeps (hput x k r.sh) _ _ _) _ _ _
        split
        · exact h1 _ _
        · exact idxCount_keeps (h1 _ _) _ _ _
      · split
        · exact idxCount_keeps h _ _ _
        · exact hput x _ _
theorem runBatch_keeps (h : Keeps s0 s) (insert : Bool) (b : Bound) (d : ScanDesc) : Keeps s0 (runBatch insert s b d) := by
  unfold runBatch
  dsimp only
  split
  · exact h
  · split
    · exact h
    · split
      · exact haltStation_keeps (alarm_keeps h _ _) _ _
      · split
        · exact waitInputs_keeps h _ _ _
        · next ht =>
          have h1 := popHandle_keeps h ht
          split
          · exact scanPass_keeps h h1 _ _ _
          · split
            · exact haltStation_keeps h _ _
            · exact scanPass_keeps h (memRead_keeps h1 _ _) _ _ _
            · refine modIndex_keeps (memWrite_getD_keeps ?_ _ _) _ _
              exact foldl_fst_keeps (fun _ _ hq => batchEntry_keeps hq _ _ _ _) _ (memRead_keeps h1 _ _)
@[simp] theorem execScanInsert_keeps (s : State) (channel : Nat) : OutKeeps s (execScanInsert channel s) := by
  unfold execScanInsert
  grind [Keeps.refl, outKeeps_next, outKeeps_refused, runBatch_keeps, scanCmd_keeps]
@[simp] theorem execScanDelete_keeps (s : State) (channel : Nat) : OutKeeps s (execScanDelete channel s) := by
  unfold execScanDelete
  grind [Keeps.refl, outKeeps_next, outKeeps_refused, runBatch_keeps, scanCmd_keeps]
theorem batchPush_keeps (h : Keeps s0 s) (n : Nat) (k : Batch) : Keeps s0 (batchPush s n k) := by
  grind [batchPush, emit_keeps, modIndex_keeps, scanEnd_keeps, update_keeps]
@[simp] theorem execIndexBatchDurable_keeps (s : State) (index : Nat) : OutKeeps s (execIndexBatchDurable index s) := by
  unfold execIndexBatchDurable
  grind [Keeps.refl, outKeeps_next, outKeeps_refused, batchPush_keeps, modIndex_keeps, update_keeps]
theorem runHarvest_keeps (h : Keeps s0 s) (b : Bound) (d : ScanDesc) : Keeps s0 (runHarvest s b d) := by
  grind [runHarvest, modIndex_keeps, update_keeps]
@[simp] theorem execScanHarvest_keeps (s : State) (channel : Nat) : OutKeeps s (execScanHarvest channel s) := by
  unfold execScanHarvest
  grind [Keeps.refl, outKeeps_next, outKeeps_refused, runHarvest_keeps, scanCmd_keeps]
@[simp] theorem execHarvestDone_keeps (s : State) (index : Nat) : OutKeeps s (execHarvestDone index s) := by
  have hs := Keeps.refl s
  unfold execHarvestDone
  dsimp only
  (repeat' split) <;> grind [outKeeps_next, outKeeps_refused, modIndex_keeps, scanEnd_keeps, update_keeps]
theorem countQueries_keeps (h : Keeps s0 s) (n : Nat) : Keeps s0 (countQueries s n) := by
  grind [countQueries, modVse_keeps, update_keeps]
theorem jobEnd_keeps (h : Keeps s0 s) (b : Bound) (j : ScanJob) : Keeps s0 (jobEnd s b j) := by
  grind [jobEnd, dropJob_keeps, haltStation_keeps, release_keeps, scanEnd_keeps, ssaPush_ok_keeps]
theorem expired_keeps (h : Keeps s0 s) {t : State} (ht : Keeps s0 t) (b : Bound) (d : ScanDesc) (x : Handle) (snap : Nat)
    (qs : List Query) : Keeps s0 (expired s t b d x snap qs) := by
  unfold expired
  dsimp only
  split
  · exact h
  · split
    · exact h
    · exact haltStation_keeps h _ _
    · next hu =>
      exact modStation_keeps (haltStation_keeps (notifyEvent_keeps (idxCount_keeps (release_keeps
        (ssaPush_ok_keeps ht hu) _ _ _) _ _ _) _ _ _) _ _) _ _ _
theorem resolveSnap_keeps (h : Keeps s0 s) (x : Index) (a snap : Nat) : Keeps s0 (resolveSnap s x a snap).1 := by
  simp only [resolveSnap]
  (repeat' split) <;> grind [adderRun_keeps]
theorem runQuery_keeps (h : Keeps s0 s) (b : Bound) (d : ScanDesc) : Keeps s0 (runQuery s b d) := by
  unfold runQuery
  dsimp only
  split
  · exact h
  · split
    · exact waitInputs_keeps h _ _ _
    · next ht =>
      have h1 := popHandle_keeps h ht
      have hr (a n : Nat) := memRead_keeps h1 a n
      have hsn (a n : Nat) (x : Index) (p snap : Nat) := resolveSnap_keeps (hr a n) x p snap
      split
      · exact scanPass_keeps h h1 _ _ _
      · split
        · exact haltStation_keeps h _ _
        · exact scanPass_keeps h (hr _ _) _ _ _
        · split
          · exact haltStation_keeps h _ _
          · split
            · split
              · exact scanEnd_keeps (release_keeps (emit_keeps (hr _ _) _ _ _ _) _ _ _) _ _ _
              · exact h
            · split
              · exact scanPass_keeps h (hsn _ _ _ _ _) _ _ _
              · exact haltStation_keeps h _ _
              · split
                · exact haltStation_keeps (hsn _ _ _ _ _) _ _
                · split
                  · exact expired_keeps h (hsn _ _ _ _ _) _ _ _ _ _
                  · exact jobEnd_keeps (countQueries_keeps (modVse_keeps (hsn _ _ _ _ _) _) _) _ _
@[simp] theorem execScanQuery_keeps (s : State) (channel : Nat) : OutKeeps s (execScanQuery channel s) := by
  unfold execScanQuery
  grind [Keeps.refl, outKeeps_next, outKeeps_refused, jobEnd_keeps, onUnit_keeps, runQuery_keeps, scanCmd_keeps]
theorem scanUe_keeps (h : Keeps s0 s) (c n : Nat) : Keeps s0 (scanUe s c n) := by
  grind [scanUe, channelUe_keeps]
@[simp] theorem execCodewordReadDone_keeps (s : State) (channel query : Nat) (poisoned : Bool) :
    OutKeeps s (execCodewordReadDone channel query poisoned s) := by
  refine onUnit_keeps _ _ _ ?_
  split
  · exact .refl s
  · next b _ =>
    split
    · exact .refl s
    · split
      · exact .refl s
      · next j _ =>
        split
        · next q x _ _ =>
          split
          · exact .refl s
          · extract_lets a s1 s2 s3 j1 s4 s5
            have h2 : Keeps s s2 := idxCount_keeps (idxCount_keeps (modVse_keeps (.refl s) _) _ _ _) _ _ _
            have h3 : Keeps s s3 := by grind [idxCount_keeps, scanUe_keeps]
            have h4 : Keeps s s4 := modJob_keeps h3 _ _
            have h5 : Keeps s s5 := by grind [countQueries_keeps]
            exact jobEnd_keeps h5 _ _
        · exact .refl s
theorem readTiles_keeps (h : Keeps s0 s) (l : List Handle) : Keeps s0 (readTiles s l).1 := by
  fun_induction readTiles <;> grind [memRead_keeps]
theorem skimPush_keeps (h : Keeps s0 s) {t : State} (ht : Keeps s0 t) (b : Bound) (d : SkimDesc) (hs : List Handle)
    (st : Status) (data : Option Bytes) : Keeps s0 (skimPush s t b d hs st data) := by
  have h1 : Keeps s0 (if data.isSome then t else tick1 t) := by grind [tick1_keeps]
  unfold skimPush
  dsimp only
  split
  · exact h
  · split
    · exact h
    · exact haltStation_keeps h _ _
    · next hu => exact scanEnd_keeps (releaseAll_keeps (ssaPush_ok_keeps h1 hu) _ _ _) _ _ _
theorem skimRound_keeps (h : Keeps s0 s) {t : State} (ht : Keeps s0 t) (b : Bound) (d : SkimDesc) (hs : List Handle) :
    Keeps s0 (skimRound s t b d hs) := by
  have hr (l : List Handle) : Keeps s0 (readTiles t l).1 := readTiles_keeps ht l
  simp only [skimRound]
  (repeat' split) <;> grind [scanEnd_keeps, emit_keeps, skimPush_keeps, haltStation_keeps]
@[simp] theorem execSkimMerge_keeps (s : State) (die : Nat) : OutKeeps s (execSkimMerge die s) := by
  refine onUnit_keeps _ _ _ ?_
  split
  · exact .refl s
  · next b _ =>
    have hr : Keeps s (ctrlRead s (wdAddr b 16) 16).1 := ctrlRead_keeps (.refl s) _ _
    dsimp only
    split
    · exact .refl s
    · split
      · exact haltStation_keeps hr _ _
      · split
        · exact haltStation_keeps hr _ _
        · split
          · exact haltStation_keeps hr _ _
          · exact waitInputs_keeps hr _ _ _
          · next ht => exact skimRound_keeps hr (popRound_got_keeps hr ht) _ _ _

/-! ### Images, owner records and attestation: the rest of `sec` changes, its floors do not -/

theorem sbAnswer_keeps (h : Keeps s0 s) (st : Status) (data : Bytes) : Keeps s0 (sbAnswer s st data) :=
  modSec_keeps h rfl rfl
theorem sideband_keeps (s : State) (rom : Bool) {run : State → State} (hr : ∀ t, Keeps s t → Keeps s (run t)) :
    OutKeeps s (sideband s rom run) := by
  unfold sideband
  split
  · exact outKeeps_next (.refl s)
  · exact outKeeps_next (hr _ (modSec_keeps (.refl s) rfl rfl))

end

end Sys2Proof.Machine
end

