-- ==== Sys2Proof/Proofs/KeepsModule.lean ====
section
/-! SUPPORT. What the collectives, the module's power states, security and telemetry keep: the leaf log, the curve and the power caps are theirs. -/

namespace Sys2Proof.Machine

section
variable {s0 s : State}

theorem bootController_keeps (h : Keeps s0 s) : Keeps s0 (bootController s) := h.trans ⟨rfl, id⟩
theorem setSlot_keeps (h : Keeps s0 s) (k : Nat) (b : Bool) (v : Bytes) : Keeps s0 (setSlot s k b v) := by
  grind [setSlot, modSec_keeps, update_keeps]
@[simp] theorem execStageOpen_keeps (s : State) (kind : Nat) : OutKeeps s (execStageOpen kind s) :=
  sideband_keeps _ _ fun t ht => by
    (repeat' split)
    · exact sbAnswer_keeps ht _ _
    · exact sbAnswer_keeps ht _ _
    · exact sbAnswer_keeps (tick1_keeps (modSec_keeps (setSlot_keeps ht _ _ _) rfl rfl)) _ _
@[simp] theorem execStageData_keeps (s : State) (offset : Nat) (data : Bytes) : OutKeeps s (execStageData offset data s) := by
  unfold execStageData
  grind [Keeps.refl, outKeeps_next, outKeeps_refused, sbAnswer_keeps, setSlot_keeps, sideband_keeps, tick1_keeps]
@[simp] theorem execStageClose_keeps (s : State) (length : Nat) : OutKeeps s (execStageClose length s) :=
  sideband_keeps _ _ fun t ht => by
    split
    · exact sbAnswer_keeps ht _ _
    · exact sbAnswer_keeps (setSlot_keeps (modSec_keeps ht rfl rfl) _ _ _) _ _
theorem hostStage_keeps (h : Keeps s0 s) : Keeps s0 (hostStage s).1 := by
  have hr (a : AddrArg) (n : Nat) := argRead_keeps (tick1_keeps h) a n
  have hq (a b : AddrArg) (n m : Nat) := argRead_keeps (hr a n) b m
  simp only [hostStage]
  (repeat' split) <;> grind [setSlot_keeps]
theorem opStageCtrl_keeps (h : Keeps s0 s) (value : Word) : Keeps s0 (opStageCtrl value s) := by
  unfold opStageCtrl
  dsimp only
  split
  · refine modSec_keeps (hostStage_keeps (modSec_keeps h ?_ ?_)) rfl rfl <;> rfl
  · exact modSec_keeps h rfl rfl
@[simp] theorem execSecStageCtrl_keeps (s : State) (value : Word) : OutKeeps s (execSecStageCtrl value s) := by
  refine whenUp_keeps ?_
  grind [Keeps.refl, opStageCtrl_keeps]
theorem ownerSubmit_keeps (h : Keeps s0 s) (o : Bytes) (sb : Bool) : Keeps s0 (ownerSubmit s o sb).1 := by
  unfold ownerSubmit
  split
  · exact modSec_keeps (f := fun x => { x with owner := o }) h rfl rfl
  · exact h
@[simp] theorem execOwnerData_keeps (s : State) (offset : Nat) (data : Bytes) : OutKeeps s (execOwnerData offset data s) := by
  unfold execOwnerData
  grind [Keeps.refl, outKeeps_next, outKeeps_refused, modSec_keeps, sbAnswer_keeps, sideband_keeps, update_keeps]
@[simp] theorem execOwnerCommit_keeps (s : State) : OutKeeps s (execOwnerCommit s) :=
  sideband_keeps _ _ fun _ ht => sbAnswer_keeps (ownerSubmit_keeps ht _ _) _ _
theorem opOwnerCtrl_keeps (h : Keeps s0 s) (value : Word) : Keeps s0 (opOwnerCtrl value s) := by
  have h1 (v : Bool) : Keeps s0 (modSec s fun x => { x with ownerDone := v }) := modSec_keeps h rfl rfl
  unfold opOwnerCtrl
  extract_lets v s1 r q
  have hs1 : Keeps s0 s1 := h1 _
  have hr : Keeps s0 r.1 := argRead_keeps hs1 _ _
  have hq : Keeps s0 q.1 := by
    unfold q
    split
    · exact hr
    · exact ownerSubmit_keeps hr _ _
  split
  · exact modSec_keeps hq rfl rfl
  · exact hs1
@[simp] theorem execSecOwnerCtrl_keeps (s : State) (value : Word) : OutKeeps s (execSecOwnerCtrl value s) := by
  refine whenUp_keeps ?_
  grind [Keeps.refl, opOwnerCtrl_keeps]
/-- The leaf log's next record covers 64 leaves more, and is written before the first of them is spent (R430). -/
theorem spendLeaf_keeps (h : Keeps s0 s) : Keeps s0 (spendLeaf s) := by
  refine h.trans ⟨rfl, fun ⟨hm, hc, hp, hle, hmod⟩ => ⟨hm, hc, hp, ?_, ?_⟩⟩ <;> simp only [spendLeaf, modSec] <;> split <;> omega
theorem attHostEnd_keeps (h : Keeps s0 s) (st : Status) : Keeps s0 (attHostEnd s st) := by
  grind [attHostEnd, modSec_keeps, update_keeps]
theorem attServe_keeps (h : Keeps s0 s) (r : Option (Bytes × Bool)) : Keeps s0 (attServe s r) := by
  have h1 : Keeps s0 (spendLeaf s) := spendLeaf_keeps h
  unfold attServe
  dsimp only
  (repeat' split)
  · exact attHostEnd_keeps h _
  · exact attHostEnd_keeps h _
  · next ht => exact attHostEnd_keeps (argWrite_ok_keeps h1 ht) _
  · exact attHostEnd_keeps h1 _
  · exact sbAnswer_keeps h _ _
  · exact sbAnswer_keeps (modSec_keeps h1 rfl rfl) _ _
theorem attRun_keeps (h : Keeps s0 s) (n : Nat) : Keeps s0 (attRun n s) := by
  fun_induction attRun <;> grind [attServe_keeps, modSec_keeps, update_keeps]
theorem attAll_keeps (h : Keeps s0 s) : Keeps s0 (attAll s) := by
  grind [attAll, attRun_keeps]
theorem attQueue_keeps (h : Keeps s0 s) (r : Option (Bytes × Bool)) : Keeps s0 (attQueue s r) := by
  grind [attQueue, attAll_keeps, modSec_keeps, update_keeps]
theorem opAttCtrl_keeps (h : Keeps s0 s) (value : Word) : Keeps s0 (opAttCtrl value s) := by
  grind [opAttCtrl, attQueue_keeps, modSec_keeps, update_keeps]
@[simp] theorem execSecAttCtrl_keeps (s : State) (value : Word) : OutKeeps s (execSecAttCtrl value s) := by
  refine whenUp_keeps ?_
  grind [Keeps.refl, opAttCtrl_keeps]
@[simp] theorem execAttest_keeps (s : State) (nonce : Bytes) (cert : Bool) : OutKeeps s (execAttest nonce cert s) := by
  unfold execAttest
  grind [Keeps.refl, outKeeps_next, outKeeps_refused, attQueue_keeps, sbAnswer_keeps, sideband_keeps]
@[simp] theorem execAttestRead_keeps (s : State) (offset : Nat) : OutKeeps s (execAttestRead offset s) := by
  have hs := Keeps.refl s
  unfold execAttestRead
  dsimp only
  (repeat' split) <;> grind [outKeeps_next, outKeeps_refused, sbAnswer_keeps, sideband_keeps, tick1_keeps]
@[simp] theorem execTreeRegeneration_keeps (s : State) : OutKeeps s (execTreeRegeneration s) := by
  refine whenUp_keeps ?_
  grind [Keeps.refl, attAll_keeps, modSec_keeps, update_keeps]
@[simp] theorem execBottomTreeReplacement_keeps (s : State) : OutKeeps s (execBottomTreeReplacement s) := by
  refine whenUp_keeps ?_
  grind [Keeps.refl, attAll_keeps, modSec_keeps, update_keeps]

/-! ### Groups and collectives -/

theorem collSend_keeps (h : Keeps s0 s) (g : Group) (e : CollEntry) (dst : Nat) (k : CollKind) (c : Nat) (x : CollTag)
    (payload : Bytes) : Keeps s0 (collSend s g e dst k c x payload) := by
  grind [collSend, sendBytes_keeps]
theorem groupSend_keeps (h : Keeps s0 s) (g : Group) (dst k : Nat) (words : List Nat) : Keeps s0 (groupSend s g dst k words) := by
  grind [groupSend, sendPacket_keeps]
theorem collListEnd_keeps (h : Keeps s0 s) (slot i : Nat) : Keeps s0 (collListEnd s slot i) := by
  grind [collListEnd, modStation_keeps, pauseDone_keeps, settle_keeps, update_keeps]
theorem haltEntry_keeps (h : Keeps s0 s) (e : CollEntry) (st : Status) : Keeps s0 (haltEntry s e st) := by
  grind [haltEntry, haltCore_keeps, modStation_keeps, settle_keeps, update_keeps]
theorem entryNotify_keeps (h : Keeps s0 s) (e : CollEntry) (st : Status) : Keeps s0 (entryNotify s e st) := by
  grind [entryNotify, graphEvent_keeps]
theorem dropRetired_keeps (h : Keeps s0 s) (n : Nat) (gid : Nat) : Keeps s0 (dropRetired n s gid) := by
  fun_induction dropRetired <;> grind [modGroup_keeps, releaseAll_keeps, update_keeps]
theorem closeGroup_keeps (h : Keeps s0 s) (gid : Nat) : Keeps s0 (closeGroup s gid) := by
  unfold closeGroup
  split
  · exact h
  · next g _ =>
    split
    · exact h
    · split
      · refine finishCmd_keeps (foldl_state_keeps (fun _ e ht => collListEnd_keeps ht _ _) _
          (foldl_state_keeps (fun _ e ht => releaseAll_keeps ht _ _ _) _ ?_)) _ _
        exact h.trans (.of_eq rfl rfl rfl rfl rfl rfl)
      · exact h
theorem collEnd_keeps (h : Keeps s0 s) (gid : Nat) (e : CollEntry) (st : Status) (gone : Bool) : Keeps s0
    (collEnd s gid e st gone) := by
  grind [collEnd, collListEnd_keeps, dropRetired_keeps, entryNotify_keeps, haltEntry_keeps, modEntry_keeps, update_keeps]
theorem noteLag_keeps (h : Keeps s0 s) (gid : Nat) (c : ChunkSt) : Keeps s0 (noteLag s gid c) := by
  grind [noteLag, modGroup_keeps, update_keeps]
theorem noteOwnLag_keeps (h : Keeps s0 s) (gid : Nat) (e : CollEntry) (early : Nat) (synced : Bool) : Keeps s0
    (noteOwnLag s gid e early synced) := by
  grind [noteOwnLag, modGroup_keeps, update_keeps]
theorem sendRetire_keeps (h : Keeps s0 s) (g : Group) (e : CollEntry) (x : CollTag) : Keeps s0 (sendRetire s g e x) := by
  unfold sendRetire
  exact foldl_state_keeps (fun t a ht => by grind [collSend_keeps]) _ h
theorem tryRetire_keeps (h : Keeps s0 s) (gid : Nat) (q : Word) : Keeps s0 (tryRetire s gid q) := by
  simp only [tryRetire]
  (repeat' split) <;> grind [dropRetired_keeps, modEntry_keeps, modGroup_keeps, sendRetire_keeps, update_keeps]
theorem gotAck_keeps (h : Keeps s0 s) (gid : Nat) (q : Word) (c r : Nat) : Keeps s0 (gotAck s gid q c r) := by
  grind [gotAck, collSend_keeps, modEntry_keeps, tryRetire_keeps, update_keeps]
theorem ackAll_keeps (h : Keeps s0 s) (g : Group) (e : CollEntry) : Keeps s0 (ackAll s g e) := by
  unfold ackAll
  split
  · exact gotAck_keeps h _ _ _ _
  · exact foldl_state_keeps (fun _ k ht => gotAck_keeps ht _ _ _ _) _ h
theorem writeChunk_ok_keeps (h : Keeps s0 s) {b : Bound} {e : CollEntry} {r : CollResult} {pool addr : Nat} {u : State}
    (he : writeChunk s b e r = .ok u pool addr) : Keeps s0 u := by
  grind [writeChunk, drawBuffer_ok_keeps, memWrite_keeps, getD_keeps, memWrite_getD_keeps]
theorem outStep_did_keeps (h : Keeps s0 s) {g : Group} {x : CollEntry} {ack : Bool} {u : State}
    (he : outStep s g x ack = .did u) : Keeps s0 u := by
  unfold outStep at he
  split at he
  · cases he
  · next b _ =>
    extract_lets acked c fin at he
    have hacked (t : State) (ht : Keeps s0 t) : Keeps s0 (acked t) := by
      unfold acked
      split
      · exact ackAll_keeps ht _ _
      · exact ht
    have hmod (t : State) (ht : Keeps s0 t) (f : CollEntry → CollEntry) : Keeps s0 (modEntry t g.id x.seq f) := modEntry_keeps ht _ _ _
    have hemit (t : State) (ht : Keeps s0 t) (y : Handle) : Keeps s0 (emit t b.slot b.idx x.outPort y) := emit_keeps ht _ _ _ _
    have hfin (t : State) (ht : Keeps s0 t) : Keeps s0 (fin t) := by
      simp only [fin]
      (repeat' split) <;> grind [gotAck_keeps]
    clear_value acked fin
    (repeat' split at he) <;> cases he <;> grind [writeChunk_ok_keeps]
theorem outStep_fail_keeps (h : Keeps s0 s) {g : Group} {x : CollEntry} {ack : Bool} {st : Status} {u : State}
    (he : outStep s g x ack = .fail u st) : Keeps s0 u := by
  simp only [outStep] at he
  (repeat' split at he) <;> cases he
  exact h
theorem outSteps_did_keeps (h : Keeps s0 s) {n : Nat} {gid : Nat} {q : Word} {ack : Bool} {u : State}
    (he : outSteps n s gid q ack = .did u) : Keeps s0 u := by
  fun_induction outSteps <;> grind [outStep_did_keeps, outStep_fail_keeps]
theorem outSteps_fail_keeps (h : Keeps s0 s) {n : Nat} {gid : Nat} {q : Word} {ack : Bool} {st : Status} {u : State}
    (he : outSteps n s gid q ack = .fail u st) : Keeps s0 u := by
  fun_induction outSteps <;> grind [outStep_did_keeps, outStep_fail_keeps]
theorem outLanded_keeps (h : Keeps s0 s) (gid : Nat) (e : CollEntry) (ack : Bool) : Keeps s0 (outLanded s gid e ack) := by
  grind [outLanded, outSteps_did_keeps, outSteps_fail_keeps]
theorem fenceEntries_keeps (h : Keeps s0 s) (gid : Nat) (own : Status) (l : List CollEntry) : Keeps s0
    (fenceEntries gid own s l) := by
  fun_induction fenceEntries <;> grind [haltEntry_keeps, modEntry_keeps, update_keeps]
theorem groupFence_keeps (h : Keeps s0 s) (gid : Nat) (st own : Status) (cause : ColCause) (frank : Nat) (skip : Option Nat)
    (tell : Bool) : Keeps s0 (groupFence s gid st own cause frank skip tell) := by
  unfold groupFence
  split
  · exact h
  · next g _ =>
    split
    · exact h
    · extract_lets s1 s2 s3
      have h1 : Keeps s0 s1 := by
        unfold s1
        split
        · exact outLanded_keeps h _ _ _
        · exact h
      have h2 : Keeps s0 s2 := by
        unfold s2
        split
        · exact foldl_state_keeps (fun _ k ht => groupSend_keeps ht _ _ _ _) _ h1
        · exact h1
      have h3 : Keeps s0 s3 := modGroup_keeps h2 _ _
      split
      · exact h3
      · exact closeGroup_keeps (fenceEntries_keeps (event_keeps h3 _) _ _ _) _
theorem collFail_keeps (h : Keeps s0 s) (g : Group) (st : Status) (cause : ColCause) : Keeps s0 (collFail s g st cause) := by
  grind [collFail, groupFence_keeps]
theorem withdrawAll_keeps (h : Keeps s0 s) (own : Status) : Keeps s0 (withdrawAll s own) := by
  refine foldl_state_keeps (fun t g ht => ?_) _ h
  exact churnWithdraw_keeps (groupFence_keeps (foldl_state_keeps (fun _ r hu => groupSend_keeps hu _ _ _ _) _ ht) _ _ _ _ _ _ _) _
theorem collRead_keeps (h : Keeps s0 s) (a n : Nat) : Keeps s0 (collRead s a n).1 := by
  grind [collRead, memRead_keeps]
theorem contribution_keeps (h : Keeps s0 s) (g : Group) (e : CollEntry) (vat : Bool) (c i : Nat) (v : Option Bytes)
    (fl : Nat) (l : List Handle) : Keeps s0 (contribution g e vat c i s v fl l).1 := by
  fun_induction contribution <;> grind [collRead_keeps]
theorem addResult_keeps (h : Keeps s0 s) (gid : Nat) (e : CollEntry) (src c : Nat) (data : Bytes) (empty : Bool) :
    Keeps s0 (addResult s gid e src c data empty) := by
  grind [addResult, modEntry_keeps, update_keeps]
theorem moveChunk_keeps (h : Keeps s0 s) (g : Group) (e : CollEntry) (dst c : Nat) (data : Bytes) (empty : Bool) :
    Keeps s0 (moveChunk s g e dst c data empty) := by
  grind [moveChunk, addResult_keeps, collSend_keeps]
theorem moveBlock_keeps (h : Keeps s0 s) (g : Group) (e : CollEntry) (dst base : Nat) (data : Bytes) : Keeps s0
    (moveBlock s g e dst base data) := by
  unfold moveBlock
  exact foldl_state_keeps (fun t a ht => by grind [moveChunk_keeps]) _ h
theorem moveEmpty_keeps (h : Keeps s0 s) (g : Group) (e : CollEntry) : Keeps s0 (moveEmpty s g e) := by
  unfold moveEmpty
  exact foldl_state_keeps (fun t a ht => by grind [moveChunk_keeps]) _ h
theorem sendCounts_keeps (h : Keeps s0 s) (g : Group) (e : CollEntry) : Keeps s0 (sendCounts s g e).1 := by
  grind [sendCounts, collRead_keeps]
theorem startEntry_did_keeps (h : Keeps s0 s) {g : Group} {x : CollEntry} {u : State} (he : startEntry s g x = .did u) :
    Keeps s0 u := by
  have h1 (f : CollEntry → CollEntry) : Keeps s0 (modEntry s g.id x.seq f) := modEntry_keeps h _ _ _
  simp only [startEntry] at he
  (repeat' split at he) <;> cases he
  · exact moveEmpty_keeps (h1 _) _ _
  · exact modEntry_keeps (foldl_state_keeps (fun _ q ht => collSend_keeps ht _ _ _ _ _ _ _) _ (sendCounts_keeps (h1 _) _ _)) _ _ _
  · exact moveEmpty_keeps (h1 _) _ _
  · exact h1 _
  · exact foldl_state_keeps (fun _ m ht => moveBlock_keeps ht _ _ _ _ _) _ (collRead_keeps (h1 _) _ _)
  · exact h1 _
theorem startEntry_fail_keeps (h : Keeps s0 s) {g : Group} {x : CollEntry} {st : Status} {cs : ColCause} {u : State}
    (he : startEntry s g x = .fail u st cs) : Keeps s0 u := by
  have h1 (f : CollEntry → CollEntry) : Keeps s0 (modEntry s g.id x.seq f) := modEntry_keeps h _ _ _
  simp only [startEntry] at he
  (repeat' split at he) <;> cases he <;> grind [sendCounts_keeps, collRead_keeps]
theorem endPhase1_did_keeps (h : Keeps s0 s) {g : Group} {x : CollEntry} {u : State} (he : endPhase1 s g x = .did u) :
    Keeps s0 u := by
  simp only [endPhase1] at he
  (repeat' split at he) <;> cases he
  next ht => exact modEntry_keeps (foldl_state_keeps (fun _ q hu => collSend_keeps hu _ _ _ _ _ _ _) _ (memWrite_keeps h ht)) _ _ _
theorem endPhase1_fail_keeps (h : Keeps s0 s) {g : Group} {e : CollEntry} {st : Status} {cs : ColCause} {u : State}
    (he : endPhase1 s g e = .fail u st cs) : Keeps s0 u := by
  grind [endPhase1, collSend_keeps, memWrite_keeps, getD_keeps, memWrite_getD_keeps, modEntry_keeps, update_keeps]
theorem movePhase2_did_keeps (h : Keeps s0 s) {g : Group} {x : CollEntry} {u : State} (he : movePhase2 s g x = .did u) :
    Keeps s0 u := by
  have hr : Keeps s0 (sendCounts s g x).1 := sendCounts_keeps h _ _
  have hs (t : State) (ht : Keeps s0 t) (e1 : CollEntry) (f : CollEntry → CollEntry) (n w : Nat) (b : Bytes) (cs : List Nat) :
      Keeps s0 ((List.range n).foldl (fun t d =>
        moveBlock t g e1 d 0 ((b.drop ((cs.take d).sum * w)).take (cs.getD d 0 * w))) (modEntry t g.id x.seq f)) :=
    foldl_state_keeps (fun _ d ht => moveBlock_keeps ht _ _ _ _ _) _ (modEntry_keeps ht _ _ _)
  simp only [movePhase2] at he
  (repeat' split at he) <;> cases he
  · exact collEnd_keeps h _ _ _ _
  · exact gotAck_keeps (hs _ hr _ _ _ _ _ _) _ _ _ _
  · exact gotAck_keeps (hs _ (collRead_keeps hr _ _) _ _ _ _ _ _) _ _ _ _
  · exact hs _ hr _ _ _ _ _ _
  · exact hs _ (collRead_keeps hr _ _) _ _ _ _ _ _
theorem movePhase2_fail_keeps (h : Keeps s0 s) {g : Group} {x : CollEntry} {st : Status} {cs : ColCause} {u : State}
    (he : movePhase2 s g x = .fail u st cs) : Keeps s0 u := by
  have hr : Keeps s0 (sendCounts s g x).1 := sendCounts_keeps h _ _
  simp only [movePhase2] at he
  (repeat' split at he) <;> grind [collRead_keeps]
theorem stepV_did_keeps (h : Keeps s0 s) {g : Group} {e : CollEntry} {u : State} (he : stepV s g e = .did u) : Keeps s0 u := by
  grind [stepV, endPhase1_did_keeps, endPhase1_fail_keeps, movePhase2_did_keeps, movePhase2_fail_keeps]
theorem stepV_fail_keeps (h : Keeps s0 s) {g : Group} {e : CollEntry} {st : Status} {cs : ColCause} {u : State}
    (he : stepV s g e = .fail u st cs) : Keeps s0 u := by
  grind [stepV, endPhase1_did_keeps, endPhase1_fail_keeps, movePhase2_did_keeps, movePhase2_fail_keeps]
theorem beginChunk_did_keeps (h : Keeps s0 s) {g : Group} {e : CollEntry} {granted : Bool} {u : State}
    (he : beginChunk s g e granted = .did u) : Keeps s0 u := by
  grind [beginChunk, contribution_keeps, modEntry_keeps, setColFlags_keeps, tick1_keeps, update_keeps]
theorem beginChunk_fail_keeps (h : Keeps s0 s) {g : Group} {e : CollEntry} {granted : Bool} {st : Status} {cs : ColCause}
    {u : State} (he : beginChunk s g e granted = .fail u st cs) : Keeps s0 u := by
  grind [beginChunk, contribution_keeps, modEntry_keeps, setColFlags_keeps, tick1_keeps, update_keeps]
theorem countVat_keeps (h : Keeps s0 s) (die : Nat) (k : ChunkSt) (bad : Bool) : Keeps s0 (countVat s die k bad) := by
  grind [countVat, ctrSat_keeps, update_keeps]
theorem sendUp_keeps (h : Keeps s0 s) (g : Group) (e : CollEntry) (k : ChunkSt) : Keeps s0 (sendUp s g e k) := by
  grind [sendUp, collSend_keeps, countVat_keeps, modChunk_keeps, modEntry_keeps, update_keeps]
theorem rootDeliver_keeps (h : Keeps s0 s) (g : Group) (e : CollEntry) (k : ChunkSt) : Keeps s0 (rootDeliver s g e k) := by
  unfold rootDeliver
  extract_lets out empty bad reads hit s1 x s2 s3 s4
  have h1 : Keeps s0 s1 := countVat_keeps (setColFlags_keeps h _ _) _ _ _
  have h2 : Keeps s0 s2 := foldl_state_keeps (fun _ c ht => collSend_keeps ht _ _ _ _ _ _ _) _ h1
  have h3 : Keeps s0 s3 := modEntry_keeps (modChunk_keeps (noteOwnLag_keeps (noteLag_keeps h2 _ _) _ _ _ _) _ _ _ _) _ _ _
  have h4 : Keeps s0 s4 := by grind [addResult_keeps]
  clear_value s4
  (repeat' split)
  · exact collFail_keeps h4 _ _ _
  · exact groupFence_keeps h4 _ _ _ _ _ _ _
  · exact h4
  · exact modEntry_keeps h4 _ _ _
theorem chunkStep_keeps (h : Keeps s0 s) (gid : Nat) (q : Word) (c : Nat) : Keeps s0 (chunkStep gid q s c) := by
  simp only [chunkStep]
  (repeat' split) <;> grind [collSend_keeps, modChunk_keeps, rootDeliver_keeps, sendUp_keeps, update_keeps]
theorem foldChunk_keeps (h : Keeps s0 s) (g : Group) (e : CollEntry) (k : ChunkSt) (m : CollMsg) : Keeps s0
    (foldChunk s g e k m) := by
  grind [foldChunk, collSend_keeps, modChunk_keeps, setColFlags_keeps, update_keeps]
theorem forwardResult_keeps (h : Keeps s0 s) (g : Group) (e : CollEntry) (m : CollMsg) : Keeps s0 (forwardResult s g e m) := by
  unfold forwardResult
  exact foldl_state_keeps (fun t a ht => by grind [collSend_keeps]) _ h
theorem takeResult_keeps (h : Keeps s0 s) (g : Group) (e : CollEntry) (m : CollMsg) : Keeps s0 (takeResult s g e m) := by
  grind [takeResult, addResult_keeps, collFail_keeps, forwardResult_keeps, modEntry_keeps, noteOwnLag_keeps, update_keeps]
theorem heardFrom_keeps (h : Keeps s0 s) (gid : Nat) (q : Word) (r : Nat) : Keeps s0 (heardFrom s gid q r) := by
  grind [heardFrom, modEntry_keeps, update_keeps]
theorem applyMsg_keeps (h : Keeps s0 s) {gid : Nat} {k : CollKind} {m : CollMsg} {u : State} (eo : applyMsg s gid k m = some u) :
    Keeps s0 u := by
  have hh : Keeps s0 (heardFrom s gid m.seq m.src) := heardFrom_keeps h _ _ _
  have hsync (t : State) (ht : Keeps s0 t) (f : Group → Group) : Keeps s0 (if m.synced then modGroup t gid f else t) := by
    split
    · exact modGroup_keeps ht _ _
    · exact ht
  unfold applyMsg at eo
  dsimp only at eo
  split at eo
  · cases eo
    exact h
  · next g _ =>
    split at eo
    · split at eo <;> cases eo
      exact h
    · next x _ =>
      split at eo
      · cases eo
      · split at eo
        · cases eo
          exact collFail_keeps h _ _ _
        · split at eo
          · split at eo <;> cases eo
            · exact modEntry_keeps hh _ _ _
            · exact gotAck_keeps hh _ _ _ _
          · cases eo
            refine dropRetired_keeps (modEntry_keeps ?_ _ _ _) _ _
            split
            · exact noteOwnLag_keeps (hsync _ (sendRetire_keeps hh _ _ _) _) _ _ _ _
            · exact hsync _ (sendRetire_keeps hh _ _ _) _
          · (repeat' split at eo) <;> cases eo <;> grind [takeResult_keeps]
          · (repeat' split at eo) <;> cases eo <;>
              grind [modChunk_keeps, beginChunk_did_keeps, beginChunk_fail_keeps, collFail_keeps]
          · (repeat' split at eo) <;> cases eo <;> grind [modEntry_keeps, foldChunk_keeps]
theorem tryInbox_keeps (h : Keeps s0 s) (gid : Nat) (l : List (CollKind × CollMsg)) : Keeps s0 (tryInbox gid s l) := by
  induction l generalizing s with
  | nil => exact h
  | cons p l ih =>
    simp only [tryInbox]
    split
    · next hu => exact ih (applyMsg_keeps h hu)
    · exact ih (modGroup_keeps h _ _)
theorem stepOr_keeps (h : Keeps s0 s) (g : Group) {r : CollStep} (hd : ∀ t, r = .did t → Keeps s0 t)
    (hf : ∀ t st c, r = .fail t st c → Keeps s0 t) : Keeps s0 (stepOr s g r) := by
  unfold stepOr
  split
  · exact h
  · exact hd _ rfl
  · exact collFail_keeps (hf _ _ _ rfl) _ _ _
theorem runZero_keeps (h : Keeps s0 s) (g : Group) (e : CollEntry) : Keeps s0 (runZero s g e) := by
  grind [runZero, collEnd_keeps, emit_keeps, modEntry_keeps, releaseAll_keeps, update_keeps]
theorem runCurrent_keeps (h : Keeps s0 s) (gid : Nat) : Keeps s0 (runCurrent s gid) := by
  unfold runCurrent
  split
  · exact h
  · next g _ =>
    split
    · exact h
    · split
      · exact closeGroup_keeps h _
      · next e _ =>
        split
        · exact closeGroup_keeps (runZero_keeps h _ _) _
        · split
          · exact stepOr_keeps h _ (fun _ => startEntry_did_keeps h) fun _ _ _ => startEntry_fail_keeps h
          · extract_lets s1 s2 s3
            have h1 : Keeps s0 s1 := stepOr_keeps h _ (fun _ => stepV_did_keeps h) fun _ _ _ => stepV_fail_keeps h
            have h2 : Keeps s0 s2 := by
              have hb (g1 : Group) (e1 : CollEntry) : Keeps s0 (stepOr s1 g1 (beginChunk s1 g1 e1 false)) :=
                stepOr_keeps h1 _ (fun _ => beginChunk_did_keeps h1) fun _ _ _ => beginChunk_fail_keeps h1
              unfold s2
              (repeat' split)
              · exact hb _ _
              · exact h1
              · exact h1
              · exact h1
            have h3 : Keeps s0 s3 := foldl_state_keeps (fun _ c ht => chunkStep_keeps ht _ _ c) _ h2
            split
            · exact h3
            · split
              · exact h3
              · split
                · next hu => exact collFail_keeps (outSteps_fail_keeps h3 hu) _ _ _
                · exact h3
                · next hu =>
                  have hd := outSteps_did_keeps h3 hu
                  split
                  · exact hd
                  · split
                    · exact hd
                    · split
                      · exact closeGroup_keeps (tryRetire_keeps (collEnd_keeps hd _ _ _ _) _ _) _
                      · exact hd
theorem collRun_keeps (h : Keeps s0 s) (n : Nat) (gid : Nat) : Keeps s0 (collRun n s gid) := by
  fun_induction collRun <;> grind [modGroup_keeps, runCurrent_keeps, tryInbox_keeps, update_keeps]
theorem markWaits_keeps (h : Keeps s0 s) (gid : Nat) : Keeps s0 (markWaits s gid) := by
  grind [markWaits, modGroup_keeps, update_keeps]
theorem collGo_keeps (h : Keeps s0 s) (gid : Nat) : Keeps s0 (collGo s gid) := by
  grind [collGo, collRun_keeps, markWaits_keeps]
theorem strayMsg_keeps (h : Keeps s0 s) (die : Nat) : Keeps s0 (strayMsg s die) := by
  grind [strayMsg, ctrSat_keeps, update_keeps]
theorem lateResult_keeps (h : Keeps s0 s) (g : Group) (m : CollMsg) : Keeps s0 (lateResult s g m) := by
  grind [lateResult, addResult_keeps, forwardResult_keeps, outLanded_keeps, update_keeps]
theorem collArrive_keeps (s : State) (k : CollKind) (die : Nat) (m : CollMsg) : OutKeeps s (collArrive k die m s) := by
  have hs := Keeps.refl s
  refine onUnit_keeps _ _ _ ?_
  (repeat' split) <;> grind [strayMsg_keeps, lateResult_keeps, collFail_keeps, collGo_keeps, modGroup_keeps]
@[simp] theorem execGrantArrival_keeps (s : State) (die : Nat) (msg : CollMsg) : OutKeeps s (execGrantArrival die msg s) := by
  unfold execGrantArrival
  grind [Keeps.refl, outKeeps_next, outKeeps_refused, collArrive_keeps]
@[simp] theorem execChunkArrival_keeps (s : State) (die : Nat) (msg : CollMsg) : OutKeeps s (execChunkArrival die msg s) := by
  unfold execChunkArrival
  grind [Keeps.refl, outKeeps_next, outKeeps_refused, collArrive_keeps]
@[simp] theorem execResultChunkArrival_keeps (s : State) (die : Nat) (msg : CollMsg) : OutKeeps s
    (execResultChunkArrival die msg s) := by
  unfold execResultChunkArrival
  grind [Keeps.refl, outKeeps_next, outKeeps_refused, collArrive_keeps]
@[simp] theorem execAcknowledgementArrival_keeps (s : State) (die : Nat) (msg : CollMsg) : OutKeeps s
    (execAcknowledgementArrival die msg s) := by
  unfold execAcknowledgementArrival
  grind [Keeps.refl, outKeeps_next, outKeeps_refused, collArrive_keeps]
@[simp] theorem execRetire_keeps (s : State) (die : Nat) (msg : CollMsg) : OutKeeps s (execRetire die msg s) := by
  unfold execRetire
  grind [Keeps.refl, outKeeps_next, outKeeps_refused, collArrive_keeps]
@[simp] theorem execFence_keeps (s : State) (die : Nat) (msg : CollMsg) (frank : Nat) (status : Status) (cause : Nat) :
    OutKeeps s (execFence die msg frank status cause s) := by
  refine onUnit_keeps _ _ _ ?_
  grind [Keeps.refl, groupFence_keeps, strayMsg_keeps]
@[simp] theorem execWithdraw_keeps (s : State) (die : Nat) (msg : CollMsg) : OutKeeps s (execWithdraw die msg s) := by
  refine onUnit_keeps _ _ _ ?_
  grind [Keeps.refl, churnWithdraw_keeps, groupFence_keeps, strayMsg_keeps]
@[simp] theorem execChunkUsExpiry_keeps (s : State) (die group : Nat) : OutKeeps s (execChunkUsExpiry die group s) := by
  refine onUnit_keeps _ _ _ ?_
  grind [Keeps.refl, closeGroup_keeps, finishCmd_keeps, groupFence_keeps, modGroup_keeps, update_keeps]
@[simp] theorem execVatWaitTimeout_keeps (s : State) (die group : Nat) : OutKeeps s (execVatWaitTimeout die group s) := by
  refine onUnit_keeps _ _ _ ?_
  grind [Keeps.refl, collFail_keeps]
theorem popMany_keeps (h : Keeps s0 s) {slot i port n : Nat} {o} (eo : popMany s slot i port n = some o) : Keeps s0 o.1 := by
  induction n generalizing s o with
  | zero =>
    cases eo
    exact h
  | succ n ih =>
    simp only [popMany] at eo
    (repeat' split at eo) <;> cases eo
    next hr _ _ hq =>
      have hrest := ih (popHandle_keeps h hr) hq
      exact hrest
theorem popInputs_got_keeps (h : Keeps s0 s) {b : Bound} {g : Group} {d : CollDesc} {hs : List Handle} {u : State}
    (he : popInputs s b g d = .got u hs) : Keeps s0 u := by
  unfold popInputs at he
  (repeat' split at he) <;> cases he
  · exact h
  · next ht _ _ hq => exact popMany_keeps (popRound_got_keeps h ht) hq
  · next hq => exact popHandle_keeps h hq
theorem enterOp_keeps (h : Keeps s0 s) (b : Bound) (g : Group) (d : CollDesc) (hs : List Handle) : Keeps s0
    (enterOp s b g d hs) := by
  grind [enterOp, modGroup_keeps, modStation_keeps, update_keeps]
theorem collEnter_keeps (h : Keeps s0 s) (b : Bound) (die op : Nat) : Keeps s0 (collEnter s b die op) := by
  have hr : Keeps s0 (ctrlRead s (wdAddr b 64) 64).1 := ctrlRead_keeps h _ _
  unfold collEnter
  dsimp only
  (repeat' split) <;> grind [haltStation_keeps, waitInputs_keeps, enterOp_keeps, popInputs_got_keeps]
@[simp] theorem collCmd_keeps (s : State) (die op : Nat) : OutKeeps s (collCmd die op s) := by
  refine onUnit_keeps _ _ _ ?_
  split
  · exact .refl s
  · next b _ =>
    refine collListEnd_keeps (foldl_state_keeps (fun _ g ht => collGo_keeps ht g) _ ?_) _ _
    split
    · exact collEnter_keeps (.refl s) _ _ _
    · exact .refl s
@[simp] theorem execCollBcast_keeps (s : State) (die : Nat) : OutKeeps s (execCollBcast die s) := by
  unfold execCollBcast
  grind [Keeps.refl, outKeeps_next, outKeeps_refused, collCmd_keeps]
@[simp] theorem execCollAllgather_keeps (s : State) (die : Nat) : OutKeeps s (execCollAllgather die s) := by
  unfold execCollAllgather
  grind [Keeps.refl, outKeeps_next, outKeeps_refused, collCmd_keeps]
@[simp] theorem execCollAlltoall_keeps (s : State) (die : Nat) : OutKeeps s (execCollAlltoall die s) := by
  unfold execCollAlltoall
  grind [Keeps.refl, outKeeps_next, outKeeps_refused, collCmd_keeps]
@[simp] theorem execCollAlltoallv_keeps (s : State) (die : Nat) : OutKeeps s (execCollAlltoallv die s) := by
  unfold execCollAlltoallv
  grind [Keeps.refl, outKeeps_next, outKeeps_refused, collCmd_keeps]
@[simp] theorem execCollAllreduce_keeps (s : State) (die : Nat) : OutKeeps s (execCollAllreduce die s) := by
  unfold execCollAllreduce
  grind [Keeps.refl, outKeeps_next, outKeeps_refused, collCmd_keeps]
@[simp] theorem execCollReduceScatter_keeps (s : State) (die : Nat) : OutKeeps s (execCollReduceScatter die s) := by
  unfold execCollReduceScatter
  grind [Keeps.refl, outKeeps_next, outKeeps_refused, collCmd_keeps]
@[simp] theorem execCollAttnMerge_keeps (s : State) (die : Nat) : OutKeeps s (execCollAttnMerge die s) := by
  unfold execCollAttnMerge
  grind [Keeps.refl, outKeeps_next, outKeeps_refused, collCmd_keeps]
theorem openGroup_keeps (h : Keeps s0 s) (fn : Nat) (b : Bytes) : Keeps s0 (openGroup s fn b).1 := by
  unfold openGroup
  extract_lets lo ext shape own n at4 inside beyond used r
  have hr : Keeps s0 r.1 := by
    refine foldl_fst_keeps (fun p k hp => ?_) _ h
    dsimp only
    (repeat' split)
    · exact hp
    · exact collRead_keeps hp _ _
    · exact collRead_keeps hp _ _
    · exact collRead_keeps hp _ _
  split
  · exact h
  · split
    · exact hr
    · exact hr.trans (.of_eq rfl rfl rfl rfl rfl rfl)
theorem opGroupOpen_keeps (h : Keeps s0 s) (hd : HostHdr) (rec_ : AddrArg) : Keeps s0 (opGroupOpen hd rec_ s) := by
  grind [opGroupOpen, argRead_keeps, complete_keeps, openGroup_keeps]
@[simp] theorem execGroupOpen_keeps (s : State) (h : HostHdr) (rec : AddrArg) : OutKeeps s (execGroupOpen h rec s) := by
  refine hostCmd_keeps _ _ _ _ ?_
  grind [Keeps.refl, opGroupOpen_keeps]
theorem resetTry_keeps (h : Keeps s0 s) (gid : Nat) : Keeps s0 (resetTry s gid) := by
  unfold resetTry
  split
  · exact h
  · split
    · exact h
    · split
      · exact closeGroup_keeps (finishCmd_keeps (foldl_state_keeps (fun _ e ht => releaseAll_keeps ht _ _ _) _
          (modGroup_keeps h _ _)) _ _) _
      · exact h
theorem opGroupReset_keeps (h : Keeps s0 s) (x : HostHdr) (group : Nat) : Keeps s0 (opGroupReset x group s) := by
  unfold opGroupReset
  split
  · exact complete_keeps h _ _ _
  · split
    · exact complete_keeps h _ _ _
    · exact resetTry_keeps (foldl_state_keeps (fun _ r ht => groupSend_keeps ht _ _ _ _) _
        (modGroup_keeps (startCmd_keeps h _ _) _ _)) _
@[simp] theorem execGroupReset_keeps (s : State) (h : HostHdr) (group : Nat) : OutKeeps s (execGroupReset h group s) := by
  refine hostCmd_keeps _ _ _ _ ?_
  grind [Keeps.refl, opGroupReset_keeps]
@[simp] theorem execResetExchangeArrival_keeps (s : State) (die group rank : Nat) (retired : Word) : OutKeeps s
    (execResetExchangeArrival die group rank retired s) := by
  refine onUnit_keeps _ _ _ ?_
  grind [Keeps.refl, modGroup_keeps, resetTry_keeps, strayMsg_keeps, update_keeps]
theorem opGroupClose_keeps (h : Keeps s0 s) (hd : HostHdr) (group : Nat) : Keeps s0 (opGroupClose hd group s) := by
  grind [opGroupClose, closeGroup_keeps, complete_keeps, modGroup_keeps, startCmd_keeps, update_keeps]
@[simp] theorem execGroupClose_keeps (s : State) (h : HostHdr) (group : Nat) : OutKeeps s (execGroupClose h group s) := by
  refine hostCmd_keeps _ _ _ _ ?_
  grind [Keeps.refl, opGroupClose_keeps]

/-! ### Failed stacks and flash channels -/

theorem leaveGroups_keeps (h : Keeps s0 s) (own : Status) : Keeps s0 (leaveGroups s own) := by
  grind [leaveGroups, failCtxs_keeps, withdrawAll_keeps]
theorem clocksBack_keeps (h : Keeps s0 s) : Keeps s0 (clocksBack s) := by
  grind [clocksBack, eqxLost_keeps]
theorem withdrawModule_keeps (h : Keeps s0 s) (why : Nat) : Keeps s0 (withdrawModule s why) := by
  have h0 : Keeps s0 (clocksBack s) := clocksBack_keeps h
  unfold withdrawModule
  split
  · generalize clocksBack s = t at h0 ⊢
    refine leaveGroups_keeps (event_keeps (alarm_keeps ?_ _ _) _) _
    exact h0.trans ⟨rfl, id⟩
  · exact h
theorem noteStackFail_keeps (h : Keeps s0 s) (stack : Nat) (cause : StackCause) : Keeps s0 (noteStackFail s stack cause) := by
  grind [noteStackFail, alarm_keeps, update_keeps]
theorem noteFlashFail_keeps (h : Keeps s0 s) (channel : Nat) (cause : FlashCause) : Keeps s0 (noteFlashFail s channel cause) := by
  grind [noteFlashFail, alarm_keeps, update_keeps]
@[simp] theorem execStackFail_keeps (s : State) (stack : Nat) (cause : StackCause) : OutKeeps s
    (execStackFail stack cause s) := by
  refine onUnit_keeps _ _ _ ?_
  grind [Keeps.refl, noteStackFail_keeps, withdrawModule_keeps]
@[simp] theorem execFlashChannelFail_keeps (s : State) (channel : Nat) (cause : FlashCause) : OutKeeps s
    (execFlashChannelFail channel cause s) := by
  refine onUnit_keeps _ _ _ ?_
  grind [Keeps.refl, noteFlashFail_keeps, withdrawModule_keeps]

/-! ### The module's states, sensors and watchdogs -/

/-- What power loss clears is canonical when cleared; heat, power and the signing leaf are kept. -/
theorem powerLost_keeps (h : Keeps s0 s) : Keeps s0 (powerLost s) :=
  h.trans ⟨rfl, fun ⟨⟨_, hh⟩, hr⟩ => ⟨⟨⟨.nil, nofun⟩, hh⟩, hr⟩⟩
theorem enterStandby_keeps (h : Keeps s0 s) (cause : StbyCause) : Keeps s0 (enterStandby s cause) := by
  grind [enterStandby, bootController_keeps, modPwr_keeps, powerLost_keeps, update_keeps]
theorem dropTo_keeps (h : Keeps s0 s) (cause : StbyCause) : Keeps s0 (dropTo s cause) := by
  grind [dropTo, enterStandby_keeps]
@[simp] theorem execUndervoltage_keeps (s : State) (mv : Nat) : OutKeeps s (execUndervoltage mv s) := by
  unfold execUndervoltage
  grind [Keeps.refl, outKeeps_next, outKeeps_refused, dropTo_keeps, modPwr_keeps, update_keeps]
@[simp] theorem execOvervoltage_keeps (s : State) (mv : Nat) : OutKeeps s (execOvervoltage mv s) := by
  unfold execOvervoltage
  grind [Keeps.refl, outKeeps_next, outKeeps_refused, dropTo_keeps, modPwr_keeps, update_keeps]
theorem switchOff_keeps (h : Keeps s0 s) : Keeps s0 (switchOff s) := by
  have hp : Keeps s0 (powerLost s) := powerLost_keeps h
  have hc : (powerLost s).thm.curve = s.thm.curve := rfl
  unfold switchOff
  extract_lets t t1
  have h1 : Keeps s0 t1 := by
    unfold t1
    split
    · exact setSlot_keeps hp _ _ _
    · exact hp
  have hc1 : t1.thm.curve = s.thm.curve := by
    unfold t1
    split <;> rfl
  clear_value t1
  refine h1.trans ⟨rfl, fun ⟨hm, hd, _, hs⟩ => ⟨hm, hc1 ▸ hd, ?_, hs⟩⟩
  intro c hc
  have h64 : c = 64 := by simpa using (show c ∈ [64, 64] from hc)
  omega
@[simp] theorem execInputLoss_keeps (s : State) (mv : Nat) : OutKeeps s (execInputLoss mv s) := by
  unfold execInputLoss
  grind [Keeps.refl, outKeeps_next, outKeeps_refused, switchOff_keeps]
@[simp] theorem execInputRise_keeps (s : State) (mv : Nat) (slotId : BitVec 4) : OutKeeps s (execInputRise mv slotId s) := by
  unfold execInputRise
  grind [Keeps.refl, outKeeps_next, outKeeps_refused, bootController_keeps, modPwr_keeps, update_keeps]
@[simp] theorem execRailFault_keeps (s : State) (rail : Nat) : OutKeeps s (execRailFault rail s) := by
  refine onUnit_keeps _ _ _ ?_
  grind [Keeps.refl, dropTo_keeps]
@[simp] theorem execModRstNLow_keeps (s : State) : OutKeeps s (execModRstNLow s) := by
  unfold execModRstNLow
  grind [Keeps.refl, outKeeps_next, outKeeps_refused, dropTo_keeps, modPwr_keeps, update_keeps]
theorem startThaw_keeps (h : Keeps s0 s) : Keeps s0 (startThaw s) := by
  grind [startThaw, modPwr_keeps, update_keeps]
@[simp] theorem execModRstNRise_keeps (s : State) : OutKeeps s (execModRstNRise s) := by
  have hs := Keeps.refl s
  unfold execModRstNRise
  dsimp only
  (repeat' split) <;> grind [outKeeps_next, outKeeps_refused, modPwr_keeps, startThaw_keeps, update_keeps]
@[simp] theorem execThaw_keeps (s : State) : OutKeeps s (execThaw s) := by
  unfold execThaw
  grind [Keeps.refl, outKeeps_next, outKeeps_refused, sbAnswer_keeps, sideband_keeps, startThaw_keeps]
@[simp] theorem execShutdown_keeps (s : State) : OutKeeps s (execShutdown s) := by
  unfold execShutdown
  grind [Keeps.refl, outKeeps_next, outKeeps_refused, enterStandby_keeps, sbAnswer_keeps, sideband_keeps]
/-- A curve comes into force only when R395 lets it through. -/
theorem commitDieCurve_keeps (h : Keeps s0 s) : Keeps s0 (commitDieCurve s) := by
  unfold commitDieCurve
  split
  · exact h
  · refine h.trans ⟨rfl, fun ⟨hm, hd, hr⟩ => ⟨hm, ?_, hr⟩⟩
    simp only [modThm]
    split
    · assumption
    · exact hd
theorem opDieCurve0_keeps (h : Keeps s0 s) (value : Word) : Keeps s0 (opDieCurve0 value s) := by
  grind [opDieCurve0, modThm_keeps, update_keeps]
@[simp] theorem execThmDieCurve_keeps (s : State) (value : Word) : OutKeeps s (execThmDieCurve value s) := by
  refine whenUp_keeps ?_
  grind [Keeps.refl, opDieCurve0_keeps]
theorem startClocks_keeps (h : Keeps s0 s) : Keeps s0 (startClocks s) := by
  grind [startClocks, modPwr_keeps, update_keeps]
theorem enterIdle_keeps (h : Keeps s0 s) : Keeps s0 (enterIdle s) := by
  unfold enterIdle
  extract_lets t dropped
  have ht : Keeps s0 t := modPwr_keeps h rfl
  have hd : Keeps s0 dropped := by
    refine foldl_state_keeps (fun u p hu => ?_) _ ht
    split
    · exact countLost_keeps hu _ _
    · exact hu
  clear_value dropped
  refine cableRecheck_keeps ?_
  exact hd.trans ⟨rfl, id⟩
theorem thawFails_keeps (h : Keeps s0 s) (cause : Nat) : Keeps s0 (thawFails s cause) := by
  grind [thawFails, enterStandby_keeps, modSec_keeps, update_keeps]
theorem flashAwake_keeps (h : Keeps s0 s) : Keeps s0 (flashAwake s) := by
  unfold flashAwake
  extract_lets old s1
  have h1 : Keeps s0 s1 := modFls_keeps h _
  split
  · exact foldl_state_keeps (fun _ o ht => flashDecay_keeps ht _ _) _ h1
  · exact h1
/-- Thaw takes the image's curve where R395 lets it through, and full power caps. -/
theorem thawRegisters_keeps (h : Keeps s0 s) : Keeps s0 (thawRegisters s) := by
  unfold thawRegisters
  extract_lets s1 img c ok
  have h1 : Keeps s0 s1 := flashAwake_keeps h
  clear_value s1
  refine h1.trans ⟨rfl, fun ⟨hm, hd, _, hs⟩ => ⟨hm, ?_, ?_, hs⟩⟩
  · change dieCurveOk (if ok = true then c else s1.thm.curve) = true
    split
    · assumption
    · exact hd
  · intro x hx
    have h64 : x = 64 := by simpa using (show x ∈ [64, 64] from hx)
    omega
theorem opIdleReq_keeps (h : Keeps s0 s) : Keeps s0 (opIdleReq s) := by
  grind [opIdleReq, modPwr_keeps, update_keeps]
@[simp] theorem execIdleReq_keeps (s : State) : OutKeeps s (execIdleReq s) := by
  unfold execIdleReq
  grind [Keeps.refl, outKeeps_next, outKeeps_refused, opIdleReq_keeps]
theorem opPwrWake_keeps (h : Keeps s0 s) : Keeps s0 (opPwrWake s) := by
  grind [opPwrWake, modPwr_keeps, wakeEvent_keeps, update_keeps]
@[simp] theorem execPwrCtrlWake_keeps (s : State) : OutKeeps s (execPwrCtrlWake s) := by
  refine whenUp_keeps ?_
  grind [Keeps.refl, opPwrWake_keeps]
@[simp] theorem execWake_keeps (s : State) : OutKeeps s (execWake s) := by
  unfold execWake
  grind [Keeps.refl, outKeeps_next, outKeeps_refused, sbAnswer_keeps, sideband_keeps, wakeEvent_keeps]
theorem enterActive_keeps (h : Keeps s0 s) : Keeps s0 (enterActive s) := by
  grind [enterActive, modPwr_keeps, startClocks_keeps, update_keeps]
@[simp] theorem execWakeDone_keeps (s : State) : OutKeeps s (execWakeDone s) := by
  unfold execWakeDone
  grind [Keeps.refl, outKeeps_next, outKeeps_refused, enterActive_keeps, eqxLost_keeps]
theorem judgeIdle_keeps (h : Keeps s0 s) : Keeps s0 (judgeIdle s) := by
  grind [judgeIdle, enterIdle_keeps, modPwr_keeps, update_keeps]
theorem holdGraph_keeps (h : Keeps s0 s) (slot : Nat) : Keeps s0 (holdGraph s slot) := by
  simp only [holdGraph]
  (repeat' split) <;> grind [finishCmd_keeps, graphEvent_keeps, modGraph_keeps, settle_keeps, tick1_keeps]
theorem holdSsa_keeps (h : Keeps s0 s) (hot : Nat → Bool) (k : Nat) : Keeps s0 (holdSsa hot s k) := by
  grind [holdSsa, ssaHalt_keeps]
theorem enterHold_keeps (h : Keeps s0 s) (isDie : Bool) (unit : Nat) (hot : Nat → Bool) :
    Keeps s0 (enterHold s isDie unit hot) := by
  refine foldl_state_keeps (fun _ k ht => holdGraph_keeps ht k) _ (foldl_state_keeps (fun _ k ht => holdSsa_keeps ht hot k) _ ?_)
  exact leaveGroups_keeps (alarm_keeps (modThm_keeps (modPwr_keeps (clocksBack_keeps h) rfl) rfl) _ _) _
theorem inputSample_keeps (h : Keeps s0 s) (old : Nat) : Keeps s0 (inputSample s old) := by
  grind [inputSample, alarm_keeps, event_keeps, modPwr_keeps, update_keeps]
theorem takeSweep_keeps (h : Keeps s0 s) (w : Sweep) : Keeps s0 (takeSweep s w) := by
  grind [takeSweep, modPwr_keeps, modThm_keeps, update_keeps]
theorem deafSensors_keeps (h : Keeps s0 s) (old : List (Option Int)) : Keeps s0 (deafSensors s old) := by
  refine foldl_state_keeps (fun t d ht => ?_) _ (foldl_state_keeps (fun t k ht => ?_) _ h)
  · split
    · exact withdrawModule_keeps ht _
    · exact ht
  · split
    · exact withdrawModule_keeps (noteStackFail_keeps ht _ _) _
    · exact ht
theorem sweepTemp_keeps (h : Keeps s0 s) (k : Nat) : Keeps s0 (sweepTemp s k) := by
  grind [sweepTemp, modStk_keeps, update_keeps]
theorem sweepStack_keeps (h : Keeps s0 s) (fresh : Bool) (k : Nat) : Keeps s0 (sweepStack fresh s k) := by
  grind [sweepStack, event_keeps, modStk_keeps, update_keeps]
theorem sweepDie_keeps (h : Keeps s0 s) (d : Nat) : Keeps s0 (sweepDie s d) := by
  unfold sweepDie
  split
  · exact h
  · extract_lets on n old s1
    have h1 : Keeps s0 s1 := modPwr_keeps (modThm_keeps h rfl) rfl
    split
    · exact h1
    · exact event_keeps h1 _
/-- A power cap goes down by 4 to no less than 8 and up by 1 to no more than 64 (R396). -/
theorem sweepPower_keeps (h : Keeps s0 s) : Keeps s0 (sweepPower s) := by
  refine h.trans ⟨rfl, fun ⟨hm, hd, hp, hs⟩ => ⟨hm, hd, ?_, hs⟩⟩
  intro c hc
  simp only [sweepPower, modPwr] at hc
  split at hc
  · obtain ⟨x, hx, rfl⟩ := List.mem_map.mp hc
    have := hp x hx
    omega
  · split at hc
    · obtain ⟨x, hx, rfl⟩ := List.mem_map.mp hc
      have := hp x hx
      omega
    · exact hp c hc
theorem sweepHold_keeps (h : Keeps s0 s) : Keeps s0 (sweepHold s) := by
  grind [sweepHold, alarm_keeps, enterActive_keeps, enterHold_keeps, modThm_keeps, update_keeps]
theorem keepDies_keeps (h : Keeps s0 s) : Keeps s0 (keepDies s) := by
  grind [keepDies, modThm_keeps, update_keeps]
theorem sweepRun_keeps (h : Keeps s0 s) (old : List (Option Int)) : Keeps s0 (sweepRun s old) := by
  unfold sweepRun
  extract_lets full fresh s1 s2 s3
  have h1 : Keeps s0 s1 := commitDieCurve_keeps (deafSensors_keeps h old)
  have h2 : Keeps s0 s2 := by
    unfold s2
    split
    · exact h1
    · exact modPwr_keeps h1 rfl
  have h3 : Keeps s0 s3 := by
    unfold s3
    split
    · exact sweepHold_keeps (foldl_state_keeps (fun _ d ht => sweepDie_keeps ht d) _
        (foldl_state_keeps (fun _ k ht => sweepStack_keeps ht fresh k) _ h2))
    · exact foldl_state_keeps (fun _ k ht => sweepTemp_keeps ht k) _ h2
  exact judgeIdle_keeps (sweepPower_keeps h3)
theorem sensorSweep_keeps (h : Keeps s0 s) (w : Sweep) : Keeps s0 (sensorSweep w s) := by
  grind [sensorSweep, enterStandby_keeps, inputSample_keeps, keepDies_keeps, sweepRun_keeps, takeSweep_keeps]
@[simp] theorem execSensorSweep_keeps (s : State) (sweep : Sweep) : OutKeeps s (execSensorSweep sweep s) := by
  unfold execSensorSweep
  grind [Keeps.refl, outKeeps_next, outKeeps_refused, sensorSweep_keeps]
@[simp] theorem execCluWdogExpiry_keeps (s : State) (cluster : Nat) : OutKeeps s (execCluWdogExpiry cluster s) := by
  refine onUnit_keeps _ _ _ ?_
  grind [Keeps.refl, alarm_keeps, haltStation_keeps, modCluster_keeps, update_keeps]
theorem opWdogKick_keeps (h : Keeps s0 s) (cluster : Nat) : Keeps s0 (opWdogKick cluster s) := by
  grind [opWdogKick, modCluster_keeps, update_keeps]
@[simp] theorem execCluWdogKick_keeps (s : State) (cluster : Nat) : OutKeeps s (execCluWdogKick cluster s) := by
  unfold execCluWdogKick
  grind [Keeps.refl, outKeeps_next, outKeeps_refused, onUnit_keeps, opWdogKick_keeps]
@[simp] theorem execControllerWatchdogExpiry_keeps (s : State) : OutKeeps s (execControllerWatchdogExpiry s) := by
  refine outKeeps_next ?_
  split
  · exact .refl s
  · exact bootController_keeps (modSec_keeps (modPwr_keeps (.refl s) rfl) rfl rfl)

/-! ### Alarms cleared, the mirror and the traces -/

theorem opAlarmSum_keeps (h : Keeps s0 s) (value : Dword) : Keeps s0 (opAlarmSum value s) := by
  grind [opAlarmSum, modTel_keeps, update_keeps]
@[simp] theorem execTelAlarmSum_keeps (s : State) (value : Dword) : OutKeeps s (execTelAlarmSum value s) := by
  refine whenUp_keeps ?_
  grind [Keeps.refl, opAlarmSum_keeps]
theorem opEvtHead_keeps (h : Keeps s0 s) (value : Word) : Keeps s0 (opEvtHead value s) := by
  grind [opEvtHead, modTel_keeps, update_keeps]
@[simp] theorem execTelEvtHead_keeps (s : State) (value : Word) : OutKeeps s (execTelEvtHead value s) := by
  refine whenUp_keeps ?_
  grind [Keeps.refl, opEvtHead_keeps]
theorem ringRead_keeps (h : Keeps s0 s) (a : Nat) : Keeps s0 (ringRead s a).1 := by
  grind [ringRead, memRead_keeps, tick1_keeps]
theorem mirrorCopy_keeps (h : Keeps s0 s) : Keeps s0 (mirrorCopy s) := by
  grind [mirrorCopy, hostPoke_keeps, modTel_keeps, ringRead_keeps, update_keeps]
@[simp] theorem execEventMirrorCopy_keeps (s : State) : OutKeeps s (execEventMirrorCopy s) := by
  refine whenUp_keeps ?_
  grind [Keeps.refl, mirrorCopy_keeps]
theorem mirrorSignal_keeps (h : Keeps s0 s) : Keeps s0 (mirrorSignal s) := by
  grind [mirrorSignal, modTel_keeps, signalVec_keeps, update_keeps]
@[simp] theorem execEventMirrorSignal_keeps (s : State) : OutKeeps s (execEventMirrorSignal s) := by
  refine whenUp_keeps ?_
  grind [Keeps.refl, mirrorSignal_keeps]
theorem traceOne_keeps (h : Keeps s0 s) (u : Nat) : Keeps s0 (traceOne s u) := by
  grind [traceOne, ctrSat_keeps, memWrite_keeps, getD_keeps, memWrite_getD_keeps, modTel_keeps, tick1_keeps, update_keeps]
theorem traceSample_keeps (h : Keeps s0 s) : Keeps s0 (traceSample s) := by
  unfold traceSample
  split
  · exact foldl_state_keeps (fun _ u ht => traceOne_keeps ht u) _ (modTel_keeps h _)
  · exact h
@[simp] theorem execTraceSample_keeps (s : State) : OutKeeps s (execTraceSample s) := by
  refine whenUp_keeps ?_
  grind [Keeps.refl, traceSample_keeps]

/-! ### The Almanac -/

theorem drainFn_keeps (h : Keeps s0 s) (fn : Nat) : Keeps s0 (drainFn s fn) := by
  unfold drainFn
  exact foldl_state_keeps (fun t a ht => by grind [drainBacklog_keeps]) _ h
theorem almEnd_keeps (h : Keeps s0 s) (r : AlmReq) (st : Status) : Keeps s0 (almEnd s r st) := by
  grind [almEnd, finishCmd_keeps, modAlm_keeps, signalVec_keeps, update_keeps]
theorem almWrite_ok_keeps (h : Keeps s0 s) {r : AlmReq} {b : Bytes} {u : State} (he : almWrite s r b = .ok u) : Keeps s0 u := by
  grind [almWrite, argWrite_ok_keeps, hostPoke_keeps]
theorem rejoin_keeps (h : Keeps s0 s) (x : Ring) : Keeps s0 (rejoin s x) := by
  grind [rejoin, modRing_keeps, update_keeps]
theorem almServe_keeps (h : Keeps s0 s) (r : AlmReq) : Keeps s0 (almServe s r) := by
  unfold almServe
  extract_lets rings subs cmpls s1 doc out w s2 s3
  have h1 : Keeps s0 s1 := modAlm_keeps h _ _
  have hw : Keeps s0 w.1 := by
    unfold w
    split
    · next ht => exact almWrite_ok_keeps h1 ht
    · exact h1
  have h2 : Keeps s0 s2 := by
    unfold s2
    split
    · exact modFnRings_keeps hw _ _
    · exact hw
  have h3 : Keeps s0 s3 := almEnd_keeps (tick1_keeps h2) _ _
  split
  · exact drainFn_keeps (foldl_state_keeps (fun _ x ht => rejoin_keeps ht x) _ h3) _
  · exact h3
theorem almRun_keeps (h : Keeps s0 s) (fn n : Nat) : Keeps s0 (almRun fn n s) := by
  fun_induction almRun <;> grind [almServe_keeps]
theorem almAll_keeps (h : Keeps s0 s) (fn : Nat) : Keeps s0 (almAll s fn) := by
  grind [almAll, almRun_keeps]
theorem almAsk_keeps (h : Keeps s0 s) (r : AlmReq) : Keeps s0 (almAsk s r) := by
  grind [almAsk, almAll_keeps, update_keeps]
theorem opAlmanac_keeps (h : Keeps s0 s) (hd : HostHdr) (buf : AddrArg) (len : Word) (resync : Bool) : Keeps s0
    (opAlmanac hd buf len resync s) := by
  grind [opAlmanac, almAsk_keeps, complete_keeps, startCmd_keeps]
@[simp] theorem execAlmanac_keeps (s : State) (h : HostHdr) (buf : AddrArg) (len : Word) (resync : Bool) : OutKeeps s
    (execAlmanac h buf len resync s) := by
  refine hostCmd_keeps _ _ _ _ ?_
  grind [Keeps.refl, opAlmanac_keeps]
theorem opAlmGo_keeps (h : Keeps s0 s) (fn : Nat) (addr : Dword) (len value : Word) : Keeps s0 (opAlmGo fn addr len value s) := by
  grind [opAlmGo, almAsk_keeps, almEnd_keeps, modAlm_keeps, wakeEvent_keeps, update_keeps]
@[simp] theorem execAlmGo_keeps (s : State) (fn : Nat) (addr : Dword) (len value : Word) : OutKeeps s
    (execAlmGo fn addr len value s) := by
  unfold execAlmGo
  grind [Keeps.refl, outKeeps_next, outKeeps_refused, opAlmGo_keeps]

/-! ### Function-level reset and PERST_N -/

theorem withdrawGroup_keeps (h : Keeps s0 s) (g : Group) : Keeps s0 (withdrawGroup s g) :=
  churnWithdraw_keeps (groupFence_keeps (foldl_state_keeps (fun _ r hu => groupSend_keeps hu _ _ _ _) _ h) _ _ _ _ _ _ _) _
theorem resetSlot_keeps (h : Keeps s0 s) (fn slot : Nat) : Keeps s0 (resetSlot fn s slot) := by
  refine settle_keeps (modSlot_keeps ?_ _ _) _
  split
  · split
    · exact unloadGraph_keeps (foldl_state_keeps (fun _ g ht => withdrawGroup_keeps ht g) _ h) _
    · exact h
  · exact h
theorem dropGroup_keeps (h : Keeps s0 s) (g : Group) : Keeps s0 (dropGroup s g) := by
  refine foldl_state_keeps (fun _ e ht => collListEnd_keeps ht _ _) _
    (foldl_state_keeps (fun _ e ht => releaseAll_keeps ht _ _ _) _ ?_)
  exact h.trans (.of_eq rfl rfl rfl rfl rfl rfl)
theorem resetFn_keeps (h : Keeps s0 s) (fn : Nat) : Keeps s0 (resetFn s fn) := by
  unfold resetFn
  extract_lets s1 s2 keep _ s3
  have h1 : Keeps s0 s1 := foldl_state_keeps (fun _ k ht => resetSlot_keeps ht fn k) _ h
  have h2 : Keeps s0 s2 := foldl_state_keeps (fun _ g ht => dropGroup_keeps ht g) _ h1
  clear_value s2
  have h3 : Keeps s0 s3 := h2.trans (.of_eq rfl rfl rfl rfl rfl rfl)
  exact applyRing0_keeps h3 _
theorem flr_keeps (h : Keeps s0 s) (fn : Nat) : Keeps s0 (flr fn s) := by
  unfold flr
  refine afterCmd_keeps ?_
  split
  · exact foldl_state_keeps (fun _ k ht => resetFn_keeps ht k) _ h
  · exact resetFn_keeps h _
@[simp] theorem execFunctionLevelReset_keeps (s : State) (fn : Nat) : OutKeeps s (execFunctionLevelReset fn s) := by
  unfold execFunctionLevelReset
  grind [Keeps.refl, outKeeps_next, outKeeps_refused, flr_keeps, whenUp_keeps]
@[simp] theorem execPerstNLow_keeps (s : State) : OutKeeps s (execPerstNLow s) := by
  have hs := Keeps.refl s
  unfold execPerstNLow
  dsimp only
  (repeat' split) <;> grind [outKeeps_next, outKeeps_refused, flr_keeps, update_keeps]

/-! ### The graph commands -/

theorem readEntries_keeps (h : Keeps s0 s) {α : Type} (image off : Nat) (judge : State → List α → Bytes → Option α) (n i : Nat)
    (acc : List α) : Keeps s0 (readEntries image off judge n i s acc).st := by
  induction n generalizing s i acc with
  | zero => exact h
  | succ n ih =>
    have hr (o : Nat) : Keeps s0 (ctrlRead s (image + o) 16).1 := ctrlRead_keeps h _ _
    simp only [readEntries]
    (repeat' split)
    · exact hr _
    · exact hr _
    · exact ih (hr _) _ _

end

end Sys2Proof.Machine
end

