-- ==== Sys2Proof/Proofs/KeepsPages.lean ====
section
/-! SUPPORT. What lending, the KV pages, the set-up window, the submission queues and the tiles of VEC keep. -/

namespace Sys2Proof.Machine

section
variable {s0 s : State}

theorem loadInto_keeps (h : Keeps s0 s) (slot image fn : Nat) (b : Bytes) (sts : List Station) (qs : List Queue)
    (ps : List Pool) : Keeps s0 (loadInto s slot image fn b sts qs ps) := by
  grind [loadInto, modSlot_keeps, update_keeps]
theorem opGraphLoad_keeps (h : Keeps s0 s) (hd : HostHdr) (image : AddrArg) : Keeps s0 (opGraphLoad hd image s) := by
  simp only [opGraphLoad]
  (repeat' split) <;> grind [complete_keeps, ctrlRead_keeps, loadInto_keeps, readEntries_keeps, tick1_keeps]
@[simp] theorem execGraphLoad_keeps (s : State) (h : HostHdr) (image : AddrArg) : OutKeeps s (execGraphLoad h image s) := by
  refine hostCmd_keeps _ _ _ _ ?_
  grind [Keeps.refl, opGraphLoad_keeps]
theorem opGraphStart_keeps (h : Keeps s0 s) (hd : HostHdr) (gid : Half) (startAt : Dword) : Keeps s0
    (opGraphStart hd gid startAt s) := by
  grind [opGraphStart, slotCmd_keeps]
@[simp] theorem execGraphStart_keeps (s : State) (h : HostHdr) (gid : Half) (startAt : Dword) : OutKeeps s
    (execGraphStart h gid startAt s) := by
  refine hostCmd_keeps _ _ _ _ ?_
  grind [Keeps.refl, opGraphStart_keeps]
@[simp] theorem execTimedStartFire_keeps (s : State) (slot : Nat) : OutKeeps s (execTimedStartFire slot s) := by
  refine onUnit_keeps _ _ _ ?_
  grind [Keeps.refl, timedFire_keeps]
theorem opGraphPause_keeps (h : Keeps s0 s) (hd : HostHdr) (gid : Half) : Keeps s0 (opGraphPause hd gid s) := by
  grind [opGraphPause, slotCmd_keeps]
@[simp] theorem execGraphPause_keeps (s : State) (h : HostHdr) (gid : Half) : OutKeeps s (execGraphPause h gid s) := by
  refine hostCmd_keeps _ _ _ _ ?_
  grind [Keeps.refl, opGraphPause_keeps]
@[simp] theorem execGraphPauseDone_keeps (s : State) (slot : Nat) : OutKeeps s (execGraphPauseDone slot s) := by
  refine onUnit_keeps _ _ _ ?_
  grind [Keeps.refl, pauseDone_keeps]
theorem opGraphResume_keeps (h : Keeps s0 s) (hd : HostHdr) (gid : Half) : Keeps s0 (opGraphResume hd gid s) := by
  grind [opGraphResume, slotCmd_keeps]
@[simp] theorem execGraphResume_keeps (s : State) (h : HostHdr) (gid : Half) : OutKeeps s (execGraphResume h gid s) := by
  refine hostCmd_keeps _ _ _ _ ?_
  grind [Keeps.refl, opGraphResume_keeps]
theorem opGraphUnload_keeps (h : Keeps s0 s) (hd : HostHdr) (gid : Half) : Keeps s0 (opGraphUnload hd gid s) := by
  grind [opGraphUnload, slotCmd_keeps]
@[simp] theorem execGraphUnload_keeps (s : State) (h : HostHdr) (gid : Half) : OutKeeps s (execGraphUnload h gid s) := by
  refine hostCmd_keeps _ _ _ _ ?_
  grind [Keeps.refl, opGraphUnload_keeps]
theorem opStreamRearm_keeps (h : Keeps s0 s) (hd : HostHdr) (gid : Half) (station : Nat) (rec : BitVec 128) : Keeps s0
    (opStreamRearm hd gid station rec s) := by
  grind [opStreamRearm, slotCmd_keeps]
@[simp] theorem execStreamRearm_keeps (s : State) (h : HostHdr) (gid : Half) (station : Nat) (rec : BitVec 128) :
    OutKeeps s (execStreamRearm h gid station rec s) := by
  refine hostCmd_keeps _ _ _ _ ?_
  grind [Keeps.refl, opStreamRearm_keeps]
theorem stallReport_keeps (h : Keeps s0 s) (slot : Nat) (g : Graph) : Keeps s0 (stallReport s slot g) := by
  grind [stallReport, graphEvent_keeps, modGraph_keeps, tick1_keeps, update_keeps]
@[simp] theorem execStallUsExpiry_keeps (s : State) (slot : Nat) : OutKeeps s (execStallUsExpiry slot s) := by
  refine onUnit_keeps _ _ _ ?_
  grind [Keeps.refl, stallReport_keeps]

/-! ### Scrubbing, margining and lending -/

theorem upsetStack_keeps (h : Keeps s0 s) (stack : Nat) : Keeps s0 (upsetStack s stack) := by
  refine tick1_keeps (foldl_state_keeps (fun t p ht => ?_) _ h)
  (repeat' split)
  · exact ht.trans (.of_eq rfl rfl rfl rfl rfl rfl)
  · exact ht
  · exact ht.trans (.of_eq rfl rfl rfl rfl rfl rfl)
@[simp] theorem execPatrolScrub_keeps (s : State) (stack : Nat) : OutKeeps s (execPatrolScrub stack s) := by
  refine onUnit_keeps _ _ _ ?_
  split
  · exact foldl_state_keeps (fun _ k ht => readSector_keeps ht k) _ (upsetStack_keeps (.refl s) _)
  · exact .refl s
theorem opMarginCtl_keeps (h : Keeps s0 s) (value : Word) : Keeps s0 (opMarginCtl value s) := by
  grind [opMarginCtl, modMem_keeps, update_keeps]
@[simp] theorem execMemMarginCtl_keeps (s : State) (value : Word) : OutKeeps s (execMemMarginCtl value s) := by
  refine whenUp_keeps ?_
  grind [Keeps.refl, opMarginCtl_keeps]
@[simp] theorem execMarginSweepDone_keeps (s : State) (results : List Half) : OutKeeps s (execMarginSweepDone results s) := by
  unfold execMarginSweepDone
  split
  · exact outKeeps_next (.refl s)
  · exact outKeeps_next (modMem_keeps (tick1_keeps (memWrite_getD_keeps (.refl s) _ _)) _)
theorem opLendGrant_keeps (h : Keeps s0 s) (grant word : Nat) (value : Dword) : Keeps s0 (opLendGrant grant word value s) := by
  grind [opLendGrant, modGrant_keeps, update_keeps]
@[simp] theorem execMemLendGrant_keeps (s : State) (grant word : Nat) (value : Dword) : OutKeeps s
    (execMemLendGrant grant word value s) := by
  unfold execMemLendGrant
  grind [Keeps.refl, outKeeps_next, outKeeps_refused, opLendGrant_keeps, whenUp_keeps]
@[simp] theorem execRevoke_keeps (s : State) (grant : Nat) : OutKeeps s (execRevoke grant s) := by
  unfold execRevoke
  grind [Keeps.refl, outKeeps_next, outKeeps_refused, modGrant_keeps, whenUp_keeps, update_keeps]
@[simp] theorem execRevokeDone_keeps (s : State) (grant : Nat) : OutKeeps s (execRevokeDone grant s) := by
  unfold execRevokeDone
  grind [Keeps.refl, outKeeps_next, outKeeps_refused, modGrant_keeps, update_keeps]
theorem lendAnswer_keeps (h : Keeps s0 s) (die : Nat) (p : LendReqPkt) (st : Status) (payload : Bytes) : Keeps s0
    (lendAnswer s die p st payload) := by
  grind [lendAnswer, sendPacket_keeps]
theorem opLendReq_keeps (h : Keeps s0 s) (die : Nat) (p : LendReqPkt) : Keeps s0 (opLendReq die p s) := by
  grind [opLendReq, lendAnswer_keeps, memRead_keeps, memWrite_keeps, getD_keeps, memWrite_getD_keeps]
@[simp] theorem execLendReq_keeps (s : State) (die : Nat) (pkt : LendReqPkt) : OutKeeps s (execLendReq die pkt s) := by
  refine onUnit_keeps _ _ _ ?_
  grind [Keeps.refl, opLendReq_keeps]
theorem lendReport_keeps (h : Keeps s0 s) (cmd : Option (Nat × HostHdr)) (recAddr : Option Nat) (st : Status) : Keeps s0
    (lendReport s cmd recAddr st) := by
  simp only [lendReport]
  (repeat' split) <;> grind [memWrite_keeps, getD_keeps, memWrite_getD_keeps, wheyAnswer_keeps]
theorem lendEnd_keeps (h : Keeps s0 s) (c : LendCopy) (st : Status) : Keeps s0 (lendEnd s c st) := by
  refine lendReport_keeps ?_ _ _ _
  have h1 (f : MemCtl → MemCtl) : Keeps s0 (modMem s f) := modMem_keeps h f
  split
  · exact h1 _
  · exact tick1_keeps (memWrite_getD_keeps (h1 _) _ _)
theorem lendSend_keeps (h : Keeps s0 s) (c : LendCopy) : Keeps s0 (lendSend s c) := by
  grind [lendSend, lendEnd_keeps, memRead_keeps, modCopy_keeps, sendPacket_keeps, update_keeps]
theorem lendPump_keeps (h : Keeps s0 s) (die n : Nat) : Keeps s0 (lendPump die n s) := by
  fun_induction lendPump <;> grind [lendSend_keeps]
theorem lendFill_keeps (h : Keeps s0 s) (die : Nat) : Keeps s0 (lendFill s die) := by
  grind [lendFill, lendPump_keeps]
theorem lendSubmit_keeps (h : Keeps s0 s) (a : AddrArg) (cmd : Option (Nat × HostHdr)) : Keeps s0 (lendSubmit s a cmd) := by
  grind [lendSubmit, argRead_keeps, lendFill_keeps, lendReport_keeps, modMem_keeps, update_keeps]
theorem opLendCopy_keeps (h : Keeps s0 s) (hd : HostHdr) (rec : AddrArg) : Keeps s0 (opLendCopy hd rec s) := by
  grind [opLendCopy, lendSubmit_keeps, startCmd_keeps]
@[simp] theorem execLendCopy_keeps (s : State) (h : HostHdr) (rec : AddrArg) : OutKeeps s (execLendCopy h rec s) := by
  refine hostCmd_keeps _ _ _ _ ?_
  grind [Keeps.refl, opLendCopy_keeps]
@[simp] theorem execMemLendPost_keeps (s : State) (cluster addr : Nat) : OutKeeps s (execMemLendPost cluster addr s) := by
  unfold execMemLendPost
  grind [Keeps.refl, outKeeps_next, outKeeps_refused, lendSubmit_keeps, whenUp_keeps]
theorem opLendRsp_keeps (h : Keeps s0 s) (die : Nat) (p : LendRspPkt) : Keeps s0 (opLendRsp die p s) := by
  unfold opLendRsp
  split
  · exact h
  · next c _ =>
    split
    · exact h
    · next k _ =>
      have h1 : Keeps s0 (if c.put then s else (memWrite s (c.local_ + k.off) (p.payload.take k.len)).getD s) := by
        split
        · exact h
        · exact memWrite_getD_keeps h _ _
      dsimp only
      (repeat' split)
      · exact lendFill_keeps (lendEnd_keeps h _ _) _
      all_goals grind [lendFill_keeps, lendEnd_keeps, modCopy_keeps, memWrite_getD_keeps]
@[simp] theorem execLendRsp_keeps (s : State) (die : Nat) (pkt : LendRspPkt) : OutKeeps s (execLendRsp die pkt s) := by
  refine onUnit_keeps _ _ _ ?_
  grind [Keeps.refl, opLendRsp_keeps]
@[simp] theorem execLendTimeout_keeps (s : State) (die copy : Nat) : OutKeeps s (execLendTimeout die copy s) := by
  refine onUnit_keeps _ _ _ ?_
  grind [Keeps.refl, lendEnd_keeps, lendFill_keeps]

/-! ### WALK operations -/

theorem walkWait_keeps (h : Keeps s0 s) (b : Bound) : Keeps s0 (walkWait s b) := by
  grind [walkWait, modStation_keeps, update_keeps]
theorem walkEnd_keeps (b : Bound) (d : WalkDesc) {w : Walked} (h : Keeps s0 w.st) : Keeps s0 (walkEnd b d w) := by
  cases w with
  | wait t => exact walkWait_keeps h _
  | done t st => exact settle_keeps (advance_keeps (notifyEvent_keeps (modStation_keeps h _ _ _) _ _ _) _) _
  | halt t st => exact haltStation_keeps (endReader_keeps (modStation_keeps h _ _ _) _) _ _
  | skip t st =>
    exact settle_keeps (endReader_keeps (modStation_keeps (haltCore_keeps
      (notifyEvent_keeps (modStation_keeps h _ _ _) _ _ _) _ _ _) _ _ _) _) _
theorem walkCmd_keeps (s : State) (cluster op : Nat) {run : Bound → WalkDesc → State → Walked}
    (hr : ∀ b d t, Keeps s t → Keeps s (run b d t).st) : OutKeeps s (walkCmd cluster op run s) := by
  refine onUnit_keeps _ _ _ ?_
  split
  · exact .refl s
  · next b _ =>
    have hc : Keeps s (ctrlRead s (wdAddr b 64) 64).1 := ctrlRead_keeps (.refl s) _ _
    dsimp only
    (repeat' split)
    · exact .refl s
    · exact haltStation_keeps hc _ _
    · exact haltStation_keeps hc _ _
    · exact walkEnd_keeps _ _ (hr _ _ _ hc)
    · exact .refl s
theorem locked_keeps (h : Keeps s0 s) (b : Bound) (seqs : List Nat) {run : State → Walked}
    (hr : ∀ t, Keeps s0 t → Keeps s0 (run t).st) : Keeps s0 (locked b seqs run s).st := by
  unfold locked
  extract_lets c s1
  have h1 : Keeps s0 s1 := startReader_keeps h _ _ _
  clear_value s1
  split
  · exact hr _ (h1.trans (.of_eq rfl rfl rfl rfl rfl rfl))
  · exact h1.trans (.of_eq rfl rfl rfl rfl rfl rfl)
theorem pages_keeps (h : Keeps s0 s) {α : Type} {f : State → α → Paged} (hf : ∀ t x, Keeps s0 t → Keeps s0 (f t x).st)
    (bad : Bool) (l : List α) : Keeps s0 (pages f s bad l).st := by
  induction l generalizing s bad with
  | nil => exact h
  | cons x l ih =>
    have hx := hf s x h
    simp only [pages]
    generalize f s x = r at hx ⊢
    cases r with
    | ok t b => exact ih hx _
    | wait t b => exact hx
    | err t e => exact hx

theorem pages_ok_keeps (h : Keeps s0 s) {α : Type} {f : State → α → Paged} (hf : ∀ t x, Keeps s0 t → Keeps s0 (f t x).st)
    {bad : Bool} {l : List α} {t : State} {b : Bool} (e : pages f s bad l = .ok t b) : Keeps s0 t := by
  have hall := pages_keeps h hf bad l
  rw [e] at hall
  exact hall

theorem pages_wait_keeps (h : Keeps s0 s) {α : Type} {f : State → α → Paged} (hf : ∀ t x, Keeps s0 t → Keeps s0 (f t x).st)
    {bad : Bool} {l : List α} {t : State} {b : Bool} (e : pages f s bad l = .wait t b) : Keeps s0 t := by
  have hall := pages_keeps h hf bad l
  rw [e] at hall
  exact hall

theorem pages_err_keeps (h : Keeps s0 s) {α : Type} {f : State → α → Paged} (hf : ∀ t x, Keeps s0 t → Keeps s0 (f t x).st)
    {bad : Bool} {l : List α} {t : State} {st : Status} (e : pages f s bad l = .err t st) : Keeps s0 t := by
  have hall := pages_keeps h hf bad l
  rw [e] at hall
  exact hall

theorem copySectors_keeps (h : Keeps s0 s) (src dst n : Nat) : Keeps s0 (copySectors s src dst n).1 := by
  have hr : Keeps s0 (memRead s src n).1 := memRead_keeps h _ _
  simp only [copySectors]
  split
  · exact hr
  · exact foldl_state_keeps (fun _ i ht => markBad_keeps ht _ _) _ (memWrite_getD_keeps hr _ _)
theorem makeWritable_err_keeps (h : Keeps s0 s) {r : SeqRec} {layer pti : Nat} {st : Status} {u : State}
    (he : makeWritable s r layer pti = .err u st) : Keeps s0 u := by
  have hq : Keeps s0 (readPte s r layer pti).1 := readPte_keeps h _ _ _
  simp only [makeWritable] at he
  (repeat' split at he) <;> cases he
  · exact hq
  · next ht => exact takeFrame_err_keeps hq ht
  · exact hq
  · exact hq
  · next ht => exact takeFrame_err_keeps hq ht
  · next ht _ _ => exact dropFrame_keeps (writePte_keeps (copySectors_keeps (takeFrame_ok_keeps hq ht) _ _ _) _ _) _ _
theorem makeWritable_ok_keeps (h : Keeps s0 s) {r : SeqRec} {layer pti : Nat} {p : Pte} {b : Bool} {u : State}
    (he : makeWritable s r layer pti = .ok u p b) : Keeps s0 u := by
  have hq : Keeps s0 (readPte s r layer pti).1 := readPte_keeps h _ _ _
  simp only [makeWritable] at he
  (repeat' split at he) <;> cases he
  · next ht => exact memWrite_getD_keeps (writePte_keeps (takeFrame_ok_keeps hq ht) _ _) _ _
  · exact hq
  · next ht _ _ => exact dropFrame_keeps (writePte_keeps (copySectors_keeps (takeFrame_ok_keeps hq ht) _ _ _) _ _) _ _
theorem preparePage_keeps (h : Keeps s0 s) (r : SeqRec) (lp : Nat × Nat) : Keeps s0 (preparePage r s lp).st := by
  simp only [preparePage]
  (repeat' split) <;> grind [Paged.st, makeWritable_err_keeps, makeWritable_ok_keeps]
theorem runPrepare_keeps (h : Keeps s0 s) (b : Bound) (d : WalkDesc) : Keeps s0 (runPrepare b d s).st := by
  unfold runPrepare
  split
  · exact h
  · refine locked_keeps h _ _ fun t ht => ?_
    have hq : Keeps s0 (readSeq t d.seqid).1 := readSeq_keeps ht _
    dsimp only
    split
    · exact hq
    · next r _ =>
      have hp (u : State) (x : Nat × Nat) (hu : Keeps s0 u) : Keeps s0 (preparePage r u x).st := preparePage_keeps hu r x
      split
      · exact ht
      · split
        · exact hq
        · exact hq
        · split
          · next hu => exact pages_err_keeps hq hp hu
          · next hu =>
            have hw := pages_wait_keeps hq hp hu
            split
            · exact modStation_keeps hw _ _ _
            · exact hw
          · next hu =>
            have hw := pages_ok_keeps hq hp hu
            split
            · exact hw
            · exact hw
@[simp] theorem execPrepare_keeps (s : State) (cluster : Nat) : OutKeeps s (execPrepare cluster s) := by
  unfold execPrepare
  grind [Keeps.refl, outKeeps_next, outKeeps_refused, runPrepare_keeps, walkCmd_keeps]
theorem runExtend_keeps (h : Keeps s0 s) (b : Bound) (d : WalkDesc) : Keeps s0 (runExtend b d s).st := by
  unfold runExtend
  refine locked_keeps h _ _ fun t ht => ?_
  dsimp only
  (repeat' split) <;> grind [Walked.st, readSeq_keeps, writeSeq_keeps]
@[simp] theorem execExtend_keeps (s : State) (cluster : Nat) : OutKeeps s (execExtend cluster s) := by
  unfold execExtend
  grind [Keeps.refl, outKeeps_next, outKeeps_refused, runExtend_keeps, walkCmd_keeps]
theorem freePage_keeps (h : Keeps s0 s) (r : SeqRec) (lp : Nat × Nat) : Keeps s0 (freePage r s lp).st := by
  have hq : Keeps s0 (readPte s r lp.1 lp.2).1 := readPte_keeps h _ _ _
  have hw (a : Nat) (p : Pte) : Keeps s0 (writePte (readPte s r lp.1 lp.2).1 a p) := writePte_keeps hq _ _
  simp only [freePage]
  (repeat' split)
  · exact hq
  · exact hq
  · exact dropFrame_keeps (hw _ _) _ _
  · exact dropFrame_keeps (hw _ _) _ _
  · exact hw _ _
theorem freeWithList_keeps (h : Keeps s0 s) (d : WalkDesc) (r : SeqRec) (lps : List (Nat × Nat)) {fin : State → State}
    (hf : ∀ t, Keeps s0 t → Keeps s0 (fin t)) : Keeps s0 (freeWithList d r lps fin s).st := by
  have hp (t : State) (x : Nat × Nat) (ht : Keeps s0 t) : Keeps s0 (freePage r t x).st := freePage_keeps ht r x
  unfold freeWithList
  dsimp only
  split
  · exact h
  · split
    · exact h
    · split
      · next ht => exact pages_err_keeps h hp ht
      · next ht => exact pages_wait_keeps h hp ht
      · next ht => exact memWrite_getD_keeps (hf _ (pages_ok_keeps h hp ht)) _ _
theorem runTruncate_keeps (h : Keeps s0 s) (b : Bound) (d : WalkDesc) : Keeps s0 (runTruncate b d s).st := by
  unfold runTruncate
  refine locked_keeps h _ _ fun t ht => ?_
  dsimp only
  (repeat' split) <;> grind [Walked.st, freeWithList_keeps, readSeq_keeps, writeSeq_keeps]
@[simp] theorem execTruncate_keeps (s : State) (cluster : Nat) : OutKeeps s (execTruncate cluster s) := by
  unfold execTruncate
  grind [Keeps.refl, outKeeps_next, outKeeps_refused, runTruncate_keeps, walkCmd_keeps]
theorem runRelease_keeps (h : Keeps s0 s) (b : Bound) (d : WalkDesc) : Keeps s0 (runRelease b d s).st := by
  unfold runRelease
  refine locked_keeps h _ _ fun t ht => ?_
  dsimp only
  (repeat' split) <;> grind [Walked.st, freeWithList_keeps, readSeq_keeps, writeSeq_keeps, update_keeps]
@[simp] theorem execRelease_keeps (s : State) (cluster : Nat) : OutKeeps s (execRelease cluster s) := by
  unfold execRelease
  grind [Keeps.refl, outKeeps_next, outKeeps_refused, runRelease_keeps, walkCmd_keeps]
theorem runFreeze_keeps (h : Keeps s0 s) (v : Bool) (b : Bound) (d : WalkDesc) : Keeps s0 (runFreeze v b d s).st := by
  unfold runFreeze
  refine locked_keeps h _ _ fun t ht => ?_
  dsimp only
  (repeat' split) <;> grind [Walked.st, readSeq_keeps, writeSeq_keeps, update_keeps]
@[simp] theorem execFreeze_keeps (s : State) (cluster : Nat) : OutKeeps s (execFreeze cluster s) := by
  unfold execFreeze
  grind [Keeps.refl, outKeeps_next, outKeeps_refused, runFreeze_keeps, walkCmd_keeps]
@[simp] theorem execUnfreeze_keeps (s : State) (cluster : Nat) : OutKeeps s (execUnfreeze cluster s) := by
  unfold execUnfreeze
  grind [Keeps.refl, outKeeps_next, outKeeps_refused, runFreeze_keeps, walkCmd_keeps]
theorem forkPage_keeps (h : Keeps s0 s) (src dst : SeqRec) (lp : Nat × Nat) : Keeps s0 (forkPage src dst s lp).st := by
  have ha : Keeps s0 (readPte s src lp.1 lp.2).1 := readPte_keeps h _ _ _
  have hc : Keeps s0 (readPte (readPte s src lp.1 lp.2).1 dst lp.1 lp.2).1 := readPte_keeps ha _ _ _
  have hr (a pool f : Nat) (p : Pte) (n : Int) := refAdd_keeps (writePte_keeps hc a p) pool f n
  simp only [forkPage]
  (repeat' split)
  · exact ha
  · exact hc
  · exact hr _ _ _ _ _
  · exact memWrite_getD_keeps (memRead_keeps (writePte_keeps (hr _ _ _ _ _) _ _) _ _) _ _
theorem runFork_keeps (h : Keeps s0 s) (b : Bound) (d : WalkDesc) : Keeps s0 (runFork b d s).st := by
  unfold runFork
  refine locked_keeps h _ _ fun t ht => ?_
  have hd : Keeps s0 (readSeq t d.seqid).1 := readSeq_keeps ht _
  have hs : Keeps s0 (readSeq (readSeq t d.seqid).1 (d.count % 2 ^ 20)).1 := readSeq_keeps hd _
  dsimp only
  split
  · exact hd
  · next dst _ =>
    split
    · exact hs
    · next src _ =>
      have hp (u : State) (x : Nat × Nat) (hu : Keeps s0 u) : Keeps s0 (forkPage src dst u x).st := forkPage_keeps hu src dst x
      split
      · exact ht
      · split
        · exact hs
        · split
          · exact hs
          · split
            · exact hs
            · split
              · exact ht
              · exact hs
              · split
                · exact hs
                · split
                  · next hu => exact pages_err_keeps hs hp hu
                  · next hu => exact pages_wait_keeps hs hp hu
                  · next hu => exact writeSeq_keeps (pages_ok_keeps hs hp hu) _ _
@[simp] theorem execFork_keeps (s : State) (cluster : Nat) : OutKeeps s (execFork cluster s) := by
  unfold execFork
  grind [Keeps.refl, outKeeps_next, outKeeps_refused, runFork_keeps, walkCmd_keeps]
theorem commitRow_keeps (h : Keeps s0 s) (q : SeqRec) (r : CommitRec) (lm : Nat × (Nat × Nat)) :
    Keeps s0 (commitRow q r s lm).st := by
  unfold commitRow
  dsimp only
  split
  · exact h
  · next ht => exact makeWritable_err_keeps h ht
  · next ht =>
    have hx := readPte_keeps (makeWritable_ok_keeps h ht) q lm.1 (slotPage q (r.base + lm.2.1)).1
    split
    · exact hx
    · refine foldl_fst_keeps (fun p half hp => ?_) _ hx
      exact copySectors_keeps hp _ _ _
theorem unmark_keeps (h : Keeps s0 s) (q c : Nat) : Keeps s0 (unmark s q c) :=
  h.trans (.of_eq rfl rfl rfl rfl rfl rfl)
theorem commitRun_keeps (h : Keeps s0 s) (c : Nat) (q : SeqRec) (r : CommitRec) : Keeps s0 (commitRun c q r s).st := by
  have hrow (u : State) (x : Nat × Nat × Nat) (hu : Keeps s0 u) : Keeps s0 (commitRow q r u x).st := commitRow_keeps hu q r x
  have hfree (u : State) (x : Nat × Nat) (hu : Keeps s0 u) : Keeps s0 (freePage q u x).st := freePage_keeps hu q x
  unfold commitRun
  dsimp only
  split
  · next ht => exact unmark_keeps (pages_err_keeps h hrow ht) _ _
  · next ht => exact pages_wait_keeps h hrow ht
  · next ht =>
    have h1 (v : SeqRec) := writeSeq_keeps (pages_ok_keeps h hrow ht) r.seqid v
    split
    · next hu => exact unmark_keeps (pages_err_keeps (h1 _) hfree hu) _ _
    · next hu => exact pages_wait_keeps (h1 _) hfree hu
    · next hu =>
      have h2 := unmark_keeps (pages_ok_keeps (h1 _) hfree hu) r.seqid c
      split
      · exact h2
      · exact h2
theorem runCommit_keeps (h : Keeps s0 s) (b : Bound) (d : WalkDesc) : Keeps s0 (runCommit b d s).st := by
  have hr : Keeps s0 (ctrlRead s d.rec_ 96).1 := ctrlRead_keeps h _ _
  unfold runCommit
  dsimp only
  split
  · exact hr
  · next rb _ =>
    split
    · exact hr
    · refine locked_keeps hr _ _ fun t ht => ?_
      have hq : Keeps s0 (readSeq t (commitRecOf rb).seqid).1 := readSeq_keeps ht _
      split
      · exact hq
      · next q _ =>
        have htr : Keeps s0 (if (commitRecOf rb).a = 0 then ((readSeq t (commitRecOf rb).seqid).1, Except.ok [])
            else ctrlRead (readSeq t (commitRecOf rb).seqid).1 (commitRecOf rb).tree 512).1 := by
          split
          · exact hq
          · exact ctrlRead_keeps hq _ _
        generalize ite ((commitRecOf rb).a = 0) ((readSeq t (commitRecOf rb).seqid).1, Except.ok []) _ = tr at htr ⊢
        split
        · exact htr
        · split
          · exact htr
          · split
            · exact htr
            · generalize (if (commitRecOf rb).a = 0 then Except.ok (0, 0) else _ : Except Status (Nat × Nat)) = loc
              split
              · exact htr
              · split
                · split
                  · exact htr
                  · exact htr
                · split
                  · exact ht
                  · generalize ite (tr.1.kvc.committing.contains _ = true) _ _ = marked
                    split
                    · exact htr.trans (.of_eq rfl rfl rfl rfl rfl rfl)
                    · refine commitRun_keeps ?_ _ _ _
                      exact htr.trans (.of_eq rfl rfl rfl rfl rfl rfl)
@[simp] theorem execKvCommit_keeps (s : State) (cluster : Nat) : OutKeeps s (execKvCommit cluster s) := by
  unfold execKvCommit
  grind [Keeps.refl, outKeeps_next, outKeeps_refused, runCommit_keeps, walkCmd_keeps]
theorem countScoreSkip_keeps (h : Keeps s0 s) : Keeps s0 (countScoreSkip s) := by
  grind [countScoreSkip, ctrSat_keeps, update_keeps]
theorem scoreEntry_keeps (h : Keeps s0 s) (r : SeqRec) (layer : Nat) (curve : Bytes) (e : Nat × Nat) :
    Keeps s0 (scoreEntry r layer curve s e).st := by
  have hq : Keeps s0 (readPte s r layer e.1).1 := readPte_keeps h _ _ _
  unfold scoreEntry
  dsimp only
  (repeat' split)
  · exact countScoreSkip_keeps h
  · exact hq
  · exact countScoreSkip_keeps hq
  · exact memWrite_getD_keeps (memRead_keeps hq _ _) _ _
theorem runScore_keeps (h : Keeps s0 s) (b : Bound) (d : WalkDesc) : Keeps s0 (runScore b d s).st := by
  have hq : Keeps s0 (readSeq (startReader s b b.st.unit none) d.seqid).1 := readSeq_keeps (startReader_keeps h _ _ _) _
  unfold runScore
  dsimp only
  split
  · exact h
  · split
    · exact h
    · split
      · exact hq
      · next r _ =>
        split
        · exact hq
        · split
          · exact waitInputs_keeps hq _ _ _
          · next t x ht =>
            have h1 : Keeps s0 t := popHandle_keeps hq ht
            have hm : Keeps s0 (memRead t x.addr x.bytes).1 := memRead_keeps h1 _ _
            split
            · exact h1
            · split
              · exact release_keeps h1 _ _ _
              · split
                · exact release_keeps hm _ _ _
                · exact release_keeps hm _ _ _
                · next v _ =>
                  have hp (u : State) (y : Nat × Nat) (hu : Keeps s0 u) :
                      Keeps s0 (scoreEntry r d.layer0 ((memRead t x.addr x.bytes).1.kvc.curves.getD r.curve []) u y).st :=
                    scoreEntry_keeps hu _ _ _ y
                  split
                  · next hu => exact release_keeps (pages_err_keeps hm hp hu) _ _ _
                  · next hu => exact pages_wait_keeps hm hp hu
                  · next hu => exact release_keeps (pages_ok_keeps hm hp hu) _ _ _
@[simp] theorem execScore_keeps (s : State) (cluster : Nat) : OutKeeps s (execScore cluster s) := by
  unfold execScore
  grind [Keeps.refl, outKeeps_next, outKeeps_refused, runScore_keeps, walkCmd_keeps]
theorem walkLayer_keeps (h : Keeps s0 s) (d : WalkDesc) (r : SeqRec) (layer : Nat) : Keeps s0 (walkLayer s d r layer).1 := by
  unfold walkLayer
  dsimp only
  split
  · exact h
  · refine foldl_fst_keeps (fun a p ha => ?_) _ h
    have hq : Keeps s0 (readPte a.1 r layer p.1).1 := readPte_keeps ha _ _ _
    (repeat' split)
    · exact ha
    · exact hq
    · exact hq
    · exact hq
    · exact hq
theorem setReader_keeps (h : Keeps s0 s) (b : Bound) (f : Reader → Reader) : Keeps s0 (setReader s b f) :=
  h.trans (.of_eq rfl rfl rfl rfl rfl rfl)
theorem flushOuts_keeps (h : Keeps s0 s) (b : Bound) (d : WalkDesc) (l : List WalkOut) : Keeps s0 (flushOuts b d s l).st := by
  induction l generalizing s with
  | nil => exact h
  | cons o l ih =>
    have hset (f : Reader → Reader) : Keeps s0 (setReader s b f) := setReader_keeps h b f
    simp only [flushOuts]
    split
    · exact hset _
    · split
      · exact ih (emit_keeps h _ _ _ _)
      · split
        · exact hset _
        · exact hset _
        · next ht => exact ih (emit_keeps (readerEmits_keeps (memWrite_getD_keeps (drawBuffer_ok_keeps h ht) _ _) _ _) _ _ _ _)

theorem flushOuts_all_keeps (h : Keeps s0 s) {b : Bound} {d : WalkDesc} {l : List WalkOut} {u : State}
    (he : flushOuts b d s l = .all u) : Keeps s0 u := by
  have hall := flushOuts_keeps h b d l
  rw [he] at hall
  exact hall
theorem flushOuts_stall_keeps (h : Keeps s0 s) {b : Bound} {d : WalkDesc} {l : List WalkOut} {u : State}
    (he : flushOuts b d s l = .stall u) : Keeps s0 u := by
  have hall := flushOuts_keeps h b d l
  rw [he] at hall
  exact hall
theorem flushOuts_bad_keeps (h : Keeps s0 s) {b : Bound} {d : WalkDesc} {l : List WalkOut} {u : State}
    (he : flushOuts b d s l = .bad u) : Keeps s0 u := by
  have hall := flushOuts_keeps h b d l
  rw [he] at hall
  exact hall
theorem attendEnd_keeps (h : Keeps s0 s) (b : Bound) : Keeps s0 (attendEnd s b).st := by
  simp only [attendEnd]
  (repeat' split) <;> grind [Walked.st, release_keeps, setReader_keeps, update_keeps]
theorem attendGo_keeps (h : Keeps s0 s) (b : Bound) (d : WalkDesc) (r : SeqRec) (n : Nat) : Keeps s0 (attendGo b d r n s).st := by
  induction n generalizing s with
  | zero => exact h
  | succ n ih =>
    simp only [attendGo]
    split
    · exact h
    · split
      · next ht => exact flushOuts_stall_keeps h ht
      · next ht => exact flushOuts_bad_keeps h ht
      · next t ht =>
        have h1 (f : Reader → Reader) : Keeps s0 (setReader t b f) := setReader_keeps (flushOuts_all_keeps h ht) _ _
        have hw (f : Reader → Reader) (k : Nat) : Keeps s0 (walkLayer (setReader t b f) d r k).1 := walkLayer_keeps (h1 f) _ _ _
        split
        · exact attendEnd_keeps (h1 _) _
        · split
          · exact h1 _
          · split
            · exact hw _ _
            · exact hw _ _
            · exact ih (setReader_keeps (modStation_keeps (hw _ _) _ _ _) _ _)
theorem attendStart_keeps (h : Keeps s0 s) (b : Bound) (d : WalkDesc) (rec_ : Option SeqRec) :
    Keeps s0 (attendStart b d rec_ s).st := by
  unfold attendStart
  split
  · exact waitInputs_keeps h _ _ _
  · next t x ht =>
    extract_lets t1 n t2 quiet
    have h1 : Keeps s0 t1 := startReader_keeps (popHandle_keeps h ht) _ _ _
    have hquiet (tile : Nat → Option Bytes) (st ends : Status) : Keeps s0 (quiet tile st ends).st :=
      attendGo_keeps (setReader_keeps (modStation_keeps h1 _ _ _) _ _) _ _ _ _
    clear_value quiet
    (repeat' split)
    · exact hquiet _ _ _
    · exact hquiet _ _ _
    · exact hquiet _ _ _
    · exact hquiet _ _ _
    · exact attendGo_keeps (setReader_keeps h1 _ _) _ _ _ _
theorem runAttend_keeps (h : Keeps s0 s) (b : Bound) (d : WalkDesc) : Keeps s0 (runAttend b d s).st := by
  simp only [runAttend]
  (repeat' split) <;> grind [Walked.st, attendGo_keeps, attendStart_keeps, readSeq_keeps]
theorem attendKeep_keeps (h : Keeps s0 s) (b : Bound) (st : Status) : Keeps s0 (attendKeep s b st) := by
  grind [attendKeep, haltStation_keeps, modStation_keeps, update_keeps]
@[simp] theorem execAttend_keeps (s : State) (cluster : Nat) : OutKeeps s (execAttend cluster s) := by
  refine walkCmd_keeps _ _ _ fun b d t ht => ?_
  have ha := runAttend_keeps ht b d
  generalize runAttend b d t = w at ha ⊢
  cases w with
  | halt u e =>
    dsimp only
    split
    · exact attendKeep_keeps ha _ _
    · exact ha
  | wait u => exact ha
  | done u st => exact ha
  | skip u st => exact ha

/-! ### Moving pages between tiers -/

theorem collect_keeps (h : Keeps s0 s) {α β : Type} {f : State → α → State × Except Status (Option β)}
    (hf : ∀ t x, Keeps s0 t → Keeps s0 (f t x).1) (l : List α) : Keeps s0 (collect f s l).1 := by
  induction l generalizing s with
  | nil => exact h
  | cons x l ih =>
    have hx := hf s x h
    simp only [collect]
    (repeat' split)
    · exact hx
    · exact ih hx
    · exact ih hx
    · exact ih hx
theorem scorePages_keeps (h : Keeps s0 s) (r : SeqRec) (kind count : Nat) (layer : Nat) : Keeps s0
    (scorePages r kind count s layer).1 := by
  grind [scorePages, collect_keeps, memRead_keeps, readPte_keeps]
theorem listPages_keeps (h : Keeps s0 s) (r : SeqRec) (src count : Nat) : Keeps s0 (listPages r src count s).1 := by
  grind [listPages, collect_keeps, ctrlRead_keeps]
theorem objectPage_keeps (h : Keeps s0 s) (r : SeqRec) (seq : Nat) (o : Nat) : Keeps s0 (objectPage r seq s o).1 := by
  grind [objectPage, flashRead_keeps, readPte_keeps]
theorem skimPages_keeps (h : Keeps s0 s) (r : SeqRec) (seq : Nat) (l : List Nat) : Keeps s0 (skimPages r seq s l).1 := by
  fun_induction skimPages <;> grind [objectPage_keeps]
theorem moveDest_none_keeps (h : Keeps s0 s) {r : SeqRec} {m : MoveRec} {p : Pte} {n : Nat} {u : State}
    (he : moveDest s r m p n = .none u) : Keeps s0 u := by
  grind [moveDest, allocObj_keeps, ctrlRead_keeps, takeFrame_err_keeps, takeFrame_ok_keeps, update_keeps]
theorem moveDest_ok_keeps (h : Keeps s0 s) {r : SeqRec} {m : MoveRec} {p : Pte} {n : Nat} {ds : Nat} {u : State}
    (he : moveDest s r m p n = .ok u ds) : Keeps s0 u := by
  grind [moveDest, allocObj_keeps, ctrlRead_keeps, takeFrame_err_keeps, takeFrame_ok_keeps, update_keeps]
theorem movePage_keeps {a : State × Except Status MoveOut} (h : Keeps s0 a.1) (seq : Nat) (r : SeqRec) (m : MoveRec)
    (lp : Nat × Nat) : Keeps s0 (movePage seq r m a lp).1 := by
  have hx : Keeps s0 (readPte a.1 r lp.1 lp.2).1 := readPte_keeps h _ _ _
  unfold movePage
  split
  · exact h
  · split
    · exact h
    · split
      · exact h
      · dsimp only
        split
        · exact hx
        · split
          · exact hx
          · split
            · next ht => exact moveDest_none_keeps hx ht
            · next ht =>
              have h2 (b c : Nat) (v : Bytes) (p : Pte) := writePte_keeps (memWrite_getD_keeps (moveDest_ok_keeps hx ht) b v) c p
              exact (h2 _ _ _ _).trans (.of_eq rfl rfl rfl rfl rfl rfl)
theorem moveEnds_keeps (h : Keeps s0 s) (b : Bound) (d : WalkDesc) (m : MoveRec) (st : Status) (n skipped : Nat) :
    Keeps s0 (moveEnds b d m st n skipped s).st := by
  simp only [moveEnds]
  (repeat' split) <;> grind [Walked.st, emit_keeps, memWrite_keeps, getD_keeps, memWrite_getD_keeps]
theorem moveList_keeps (h : Keeps s0 s) (b : Bound) (d : WalkDesc) (r : SeqRec) (m : MoveRec) (skipped : Nat)
    (ps : List (Nat × Nat)) : Keeps s0 (moveList b d r m skipped ps s).st := by
  have hf (l : List (Nat × Nat)) : Keeps s0 (l.foldl (movePage d.seqid r m) (s, .ok ⟨[], skipped, false⟩)).1 :=
    foldl_fst_keeps (fun a lp ha => movePage_keeps ha _ _ _ lp) _ h
  unfold moveList
  dsimp only
  split
  · next x hx =>
    obtain ⟨lp, -, e⟩ := List.exists_of_findSome?_eq_some hx
    split at e
    · cases e
      exact readPte_keeps h _ _ _
    · split at e <;> cases e
      exact h
  · split
    · exact hf _
    · exact moveEnds_keeps (hf _) _ _ _ _ _ _
theorem moveSkim_keeps (h : Keeps s0 s) (b : Bound) (d : WalkDesc) (r : SeqRec) (m : MoveRec) :
    Keeps s0 (moveSkim b d r m s).st := by
  unfold moveSkim
  split
  · exact waitInputs_keeps h _ _ _
  · next t x ht =>
    have h1 : Keeps s0 t := popHandle_keeps h ht
    have hg : Keeps s0 (memRead t x.addr x.bytes).1 := memRead_keeps h1 _ _
    dsimp only
    (repeat' split)
    · exact moveEnds_keeps h1 _ _ _ _ _ _
    · exact moveEnds_keeps (release_keeps h1 _ _ _) _ _ _ _ _ _
    · exact release_keeps hg _ _ _
    · exact moveEnds_keeps (release_keeps hg _ _ _) _ _ _ _ _ _
    · exact moveList_keeps (release_keeps (skimPages_keeps hg _ _ _) _ _ _) _ _ _ _ _ _
theorem movePages_keeps (h : Keeps s0 s) (d : WalkDesc) (r : SeqRec) (m : MoveRec) : Keeps s0 (movePages d r m s).1 := by
  grind [movePages, collect_keeps, listPages_keeps, scorePages_keeps]
theorem runMoveBegin_keeps (h : Keeps s0 s) (b : Bound) (d : WalkDesc) : Keeps s0 (runMoveBegin b d s).st := by
  have hr : Keeps s0 (ctrlRead s d.rec_ 32).1 := ctrlRead_keeps h _ _
  unfold runMoveBegin
  dsimp only
  split
  · exact hr
  · next rb _ =>
    generalize moveRecOf rb = m
    generalize portsBound b (if m.select = 3 then [0] else []) [0] = ports
    split
    · exact hr
    · split
      · exact hr
      · split
        · exact emit_keeps hr _ _ _ _
        · refine locked_keeps hr _ _ fun t ht => ?_
          have hq : Keeps s0 (readSeq t d.seqid).1 := readSeq_keeps ht _
          split
          · exact hq
          · next r _ =>
            have hp : Keeps s0 (movePages d r m (readSeq t d.seqid).1).1 := movePages_keeps hq _ _ _
            (repeat' split)
            · exact hq
            · exact hq
            · exact ht
            · exact moveSkim_keeps hq _ _ _ _
            · exact hp
            · exact moveList_keeps hp _ _ _ _ _ _
@[simp] theorem execMoveBegin_keeps (s : State) (cluster : Nat) : OutKeeps s (execMoveBegin cluster s) := by
  unfold execMoveBegin
  grind [Keeps.refl, outKeeps_next, outKeeps_refused, runMoveBegin_keeps, walkCmd_keeps]
theorem countMoveFail_keeps (h : Keeps s0 s) : Keeps s0 (countMoveFail s) := by
  grind [countMoveFail, ctrSat_keeps, update_keeps]
theorem returnLoc_keeps (h : Keeps s0 s) (ret loc : Nat) : Keeps s0 (returnLoc s ret loc) := by
  grind [returnLoc, memWrite_keeps, getD_keeps, memWrite_getD_keeps]
theorem releasePlace_keeps (h : Keeps s0 s) (ret : Nat) (hbm : Bool) (pool loc : Nat) : Keeps s0
    (releasePlace s ret hbm pool loc).1 := by
  grind [releasePlace, dropFrame_keeps, returnLoc_keeps]
theorem releaseDest_keeps (h : Keeps s0 s) (ret kind dst : Nat) : Keeps s0 (releaseDest s ret kind dst).1 := by
  grind [releaseDest, dropFrame_keeps, returnLoc_keeps]
theorem endEntry_keeps (h : Keeps s0 s) (seq : Nat) (r : SeqRec) (ret : Nat) (e : MoveEntry) (ok : Bool) :
    Keeps s0 (endEntry seq r ret e ok s).1 := by
  have hx : Keeps s0 (readPte s r e.layer e.pti).1 := readPte_keeps h _ _ _
  have hgone (l : List MoveNote) : Keeps s0 { (readPte s r e.layer e.pti).1 with
      kvc := { (readPte s r e.layer e.pti).1.kvc with moves := l } } :=
    hx.trans (.of_eq rfl rfl rfl rfl rfl rfl)
  unfold endEntry
  dsimp only
  split
  · exact hx
  · split
    · exact hx
    · split
      · refine releaseDest_keeps ?_ _ _ _
        split
        · exact hgone _
        · exact countMoveFail_keeps (hgone _)
      · split
        · refine releasePlace_keeps ?_ _ _ _ _
          split
          · exact memWrite_getD_keeps (writePte_keeps (hgone _) _ _) _ _
          · exact writePte_keeps (hgone _) _ _
        · exact releaseDest_keeps (countMoveFail_keeps (writePte_keeps (hgone _) _ _)) _ _ _
theorem setEntryStatus_keeps (h : Keeps s0 s) (list i st : Nat) : Keeps s0 (setEntryStatus s list i st) := by
  grind [setEntryStatus, memWrite_keeps, getD_keeps, memWrite_getD_keeps]
theorem endEntries_keeps (h : Keeps s0 s) (b : Bound) (d : WalkDesc) (r : SeqRec) (ret : Nat)
    {next : State → Option (State × Nat × Option Handle)} (hn : ∀ t p, Keeps s0 t → next t = some p → Keeps s0 p.1)
    (n i : Nat) : Keeps s0 (endEntries b d r ret next n i s).st := by
  induction n generalizing s i with
  | zero => exact h
  | succ n ih =>
    have hq : Keeps s0 (ctrlRead s (moveEntryAt d.rec_ i) 32).1 := ctrlRead_keeps h _ _
    simp only [endEntries]
    split
    · exact hq
    · split
      · exact hq
      · split
        · exact ih hq _
        · split
          · exact hq
          · next t st x ht =>
            have hf (y : MoveEntry) (c : Bool) := endEntry_keeps (hn _ _ hq ht) d.seqid r ret y c
            have hrel (y : MoveEntry) (c : Bool) : Keeps s0 (match (generalizing := false) x with
                | some x => release (endEntry d.seqid r ret y c t).1 b.slot b.idx x
                | none => (endEntry d.seqid r ret y c t).1) := by
              split
              · exact release_keeps (hf _ _) _ _ _
              · exact hf _ _
            split
            · exact hrel _ _
            · exact ih (setEntryStatus_keeps (hrel _ _) _ _ _) _
theorem moveFinish_keeps (h : Keeps s0 s) (b : Bound) (d : WalkDesc) {next : State → Option (State × Nat × Option Handle)}
    (hn : ∀ t p, Keeps s0 t → next t = some p → Keeps s0 p.1) : Keeps s0 (moveFinish b d next s).st := by
  unfold moveFinish
  refine locked_keeps h _ _ fun t ht => ?_
  have hq : Keeps s0 (readSeq t d.seqid).1 := readSeq_keeps ht _
  have hc : Keeps s0 (ctrlRead (readSeq t d.seqid).1 d.rec_ 32).1 := ctrlRead_keeps hq _ _
  dsimp only
  split
  · exact hq
  · next r _ =>
    split
    · exact hc
    · next hb _ =>
      split
      · exact hc
      · have h1 : Keeps s0 (if b.st.sub = 0 then
            (memWrite (ctrlRead (readSeq t d.seqid).1 d.rec_ 32).1 (d.rec_ + 32 * (leAt hb 0 4 + 1)) (leBytes 4 0)).getD
              (ctrlRead (readSeq t d.seqid).1 d.rec_ 32).1
            else (ctrlRead (readSeq t d.seqid).1 d.rec_ 32).1) := by
          split
          · exact memWrite_getD_keeps hc _ _
          · exact hc
        have h3 := endEntries_keeps (modStation_keeps h1 b.slot b.idx fun x => { x with sub := 1 }) b d r
          (d.rec_ + 32 * (leAt hb 0 4 + 1)) hn (leAt hb 0 4) 0
        generalize endEntries b d r _ next _ 0 _ = w at h3 ⊢
        cases w with
        | all u => exact h3
        | err u e => exact h3
        | wait u =>
          refine waitInputs_keeps ?_ _ _ _
          exact Keeps.trans h3 (.of_eq rfl rfl rfl rfl rfl rfl)
theorem runMoveEnd_keeps (h : Keeps s0 s) (b : Bound) (d : WalkDesc) : Keeps s0 (runMoveEnd b d s).st := by
  unfold runMoveEnd
  split
  · exact h
  · refine moveFinish_keeps h _ _ fun t p ht e => ?_
    obtain ⟨x, hx, rfl⟩ := Option.map_eq_some_iff.mp e
    exact popHandle_keeps ht hx
@[simp] theorem execMoveEnd_keeps (s : State) (cluster : Nat) : OutKeeps s (execMoveEnd cluster s) := by
  unfold execMoveEnd
  grind [Keeps.refl, outKeeps_next, outKeeps_refused, runMoveEnd_keeps, walkCmd_keeps]
theorem runMoveAbort_keeps (h : Keeps s0 s) (b : Bound) (d : WalkDesc) : Keeps s0 (runMoveAbort b d s).st := by
  simp only [runMoveAbort]
  (repeat' split) <;> grind [Walked.st, moveFinish_keeps, tick1_keeps]
@[simp] theorem execMoveAbort_keeps (s : State) (cluster : Nat) : OutKeeps s (execMoveAbort cluster s) := by
  unfold execMoveAbort
  grind [Keeps.refl, outKeeps_next, outKeeps_refused, runMoveAbort_keeps, walkCmd_keeps]
theorem retryWalk_keeps (s : State) (op cluster : Nat) : OutKeeps s (retryWalk op cluster s) := by
  unfold retryWalk
  split <;> simp [outKeeps_next, Keeps.refl]
@[simp] theorem execSequenceLockGrant_keeps (s : State) (cluster : Nat) : OutKeeps s (execSequenceLockGrant cluster s) := by
  unfold execSequenceLockGrant
  grind [Keeps.refl, outKeeps_next, outKeeps_refused, retryWalk_keeps]

/-! ### Reads of the set-up window -/

theorem setLatch_keeps (h : Keeps s0 s) (q : Requester) (l : Option (Nat × Nat)) : Keeps s0 (setLatch s q l) :=
  h.trans (.of_eq rfl rfl rfl rfl rfl rfl)
theorem readPart_keeps (h : Keeps s0 s) (q : Requester) (off n : Nat) : Keeps s0 (readPart s q off n).1 := by
  grind [readPart, setLatch_keeps, update_keeps]
theorem readReg_keeps (h : Keeps s0 s) (q : Requester) (off n : Nat) : Keeps s0 (readReg s q off n).1 := by
  grind [readReg, readPart_keeps]

/-! ### Writes of the set-up window -/

theorem rwl_keeps (h : Keeps s0 s) {t : State} (ht : Keeps s0 t) : Keeps s0 (rwl s t) := by
  unfold rwl
  split
  · exact h
  · exact ht
theorem modFab_keeps (h : Keeps s0 s) (f : Fab → Fab) : Keeps s0 (modFab s f) :=
  h.trans (.of_eq rfl rfl rfl rfl rfl rfl)
theorem wHif_keeps (h : Keeps s0 s) (o : Nat) (v : Word) : Keeps s0 (wHif o v s) := by
  simp only [wHif]
  (repeat' split) <;> grind [modHif_keeps, opSetupLock_keeps, update_keeps]
theorem opLinkCtl_keeps (h : Keeps s0 s) (l : Nat) (v : Word) : Keeps s0 (opLinkCtl l v s) := by
  grind [opLinkCtl, linkDown_keeps, modLink_keeps, update_keeps]
theorem clearRouter_keeps (h : Keeps s0 s) (d j : Nat) (v : Word) : Keeps s0 (clearRouter d j v s) := by
  grind [clearRouter, modFab_keeps, modRouter_keeps, update_keeps]
theorem wFabArrays_keeps (h : Keeps s0 s) (o : Nat) (v : Word) : Keeps s0 (wFabArrays o v s) := by
  grind [wFabArrays, clearRouter_keeps, modFab_keeps, opLinkCtl_keeps, rwl_keeps, update_keeps]
theorem wFab_keeps (h : Keeps s0 s) (q : Requester) (o : Nat) (v : Word) : Keeps s0 (wFab q o v s) := by
  have hmod (f : Fab → Fab) : Keeps s0 (modFab s f) := modFab_keeps h f
  simp only [wFab]
  split
  · exact rwl_keeps h (hmod _)
  · exact opFabTrain_keeps h _
  · exact opDiscover_keeps h _
  · exact setSelect_keeps h _ _ _
  · exact opRtEntry_keeps h _ _
  · exact opLshape_keeps h _ _
  · exact opLshape_keeps h _ _
  · exact hmod _
  · exact hmod _
  · exact hmod _
  · exact wFabArrays_keeps h _ _
theorem wCol_keeps (h : Keeps s0 s) (q : Requester) (o : Nat) (v : Word) : Keeps s0 (wCol q o v s) := by
  grind [wCol, modGroup_keeps, setSelect_keeps, update_keeps]
theorem wKvc_keeps (h : Keeps s0 s) (o : Nat) (v : Word) : Keeps s0 (wKvc o v s) := by
  simp only [wKvc]
  (repeat' split) <;> grind [modKvc_keeps, opCurveCommit_keeps, rwl_keeps, update_keeps]
theorem wSsa_keeps (h : Keeps s0 s) (o : Nat) (v : Word) : Keeps s0 (wSsa o v s) := by
  grind [wSsa, modSsa_keeps, rwl_keeps, update_keeps]
theorem wMem_keeps (h : Keeps s0 s) (o : Nat) (v : Word) : Keeps s0 (wMem o v s) := by
  simp only [wMem]
  (repeat' split) <;> grind [modMem_keeps, modStk_keeps, opMarginCtl_keeps, rwl_keeps, update_keeps]
theorem wFls_keeps (h : Keeps s0 s) (o : Nat) (v : Word) : Keeps s0 (wFls o v s) := by
  simp only [wFls]
  (repeat' split) <;> grind [modFls_keeps, rwl_keeps, update_keeps]
theorem wVse_keeps (h : Keeps s0 s) (q : Requester) (o : Nat) (v : Word) : Keeps s0 (wVse q o v s) := by
  simp only [wVse]
  (repeat' split) <;> grind [expired_keeps, modIndex_keeps, setSelect_keeps]
theorem wClu_keeps (h : Keeps s0 s) (o : Nat) (v : Word) : Keeps s0 (wClu o v s) := by
  grind [wClu, modCluster_keeps, modCore_keeps, opWdogKick_keeps, rwl_keeps, update_keeps]
theorem opPwrCtrl_keeps (h : Keeps s0 s) (v : Word) : Keeps s0 (opPwrCtrl v s) := by
  grind [opPwrCtrl, modPwr_keeps, opIdleReq_keeps, opPwrWake_keeps, update_keeps]
theorem wPwr_keeps (h : Keeps s0 s) (o : Nat) (v : Word) : Keeps s0 (wPwr o v s) := by
  simp only [wPwr]
  (repeat' split) <;> grind [modPwr_keeps, opPwrCtrl_keeps, update_keeps]
theorem wThm_keeps (h : Keeps s0 s) (o : Nat) (v : Word) : Keeps s0 (wThm o v s) := by
  simp only [wThm]
  (repeat' split) <;> grind [modThm_keeps, opDieCurve0_keeps, rwl_keeps, update_keeps]
theorem wSec_keeps (h : Keeps s0 s) (o : Nat) (v : Word) : Keeps s0 (wSec o v s) := by
  simp only [wSec]
  (repeat' split) <;> grind [opAttCtrl_keeps, opOwnerCtrl_keeps, opStageCtrl_keeps]
theorem opEvtCfg_keeps (h : Keeps s0 s) (v : Word) : Keeps s0 (opEvtCfg v s) := by
  grind [opEvtCfg, update_keeps]
theorem opEvtBase_keeps (h : Keeps s0 s) (v : Nat) : Keeps s0 (opEvtBase v s) := by
  grind [opEvtBase, update_keeps]
theorem opTrcCfg_keeps (h : Keeps s0 s) (v : Word) : Keeps s0 (opTrcCfg v s) := by
  grind [opTrcCfg, modTel_keeps, update_keeps]
theorem wTel_keeps (h : Keeps s0 s) (o : Nat) (v : Word) : Keeps s0 (wTel o v s) := by
  simp only [wTel]
  (repeat' split) <;> grind [modTel_keeps, opEvtCfg_keeps, opEvtHead_keeps, opTrcCfg_keeps, rwl_keeps, update_keeps]
theorem write32_keeps (h : Keeps s0 s) (q : Requester) (off : Nat) (v : Word) : Keeps s0 (write32 q off v s) := by
  simp only [write32]
  split
  · exact wHif_keeps h _ _
  · exact wFab_keeps h _ _ _
  · exact wCol_keeps h _ _ _
  · exact wKvc_keeps h _ _
  · exact wSsa_keeps h _ _
  · exact wMem_keeps h _ _
  · exact wFls_keeps h _ _
  · exact wVse_keeps h _ _ _
  · exact wClu_keeps h _ _
  · exact wPwr_keeps h _ _
  · exact wThm_keeps h _ _
  · exact wSec_keeps h _ _
  · exact wTel_keeps h _ _
  · exact h
theorem wideHif_keeps {o : Nat} {x : WideWord} (hx : wideHif s o = some x) (v : Dword) {t : State} (h : Keeps s0 t) :
    Keeps s0 (x.act v t) := by
  simp only [wideHif] at hx
  (repeat' split at hx) <;> cases hx <;> grind [rwl_keeps, modHif_keeps, opRing0_keeps]
theorem wideFab_keeps {o : Nat} {x : WideWord} (hx : wideFab s o = some x) (v : Dword) {t : State} (h : Keeps s0 t) :
    Keeps s0 (x.act v t) := by
  simp only [wideFab] at hx
  (repeat' split at hx) <;> cases hx <;> grind [opLshape_keeps, opEqxSet_keeps]
theorem wideKvc_keeps {o : Nat} {x : WideWord} (hx : wideKvc s o = some x) (v : Dword) {t : State} (h : Keeps s0 t) :
    Keeps s0 (x.act v t) := by
  simp only [wideKvc] at hx
  (repeat' split at hx) <;> cases hx <;> grind [rwl_keeps, modKvc_keeps, opKvcPool_keeps]
theorem wideMem_keeps {o : Nat} {x : WideWord} (hx : wideMem s o = some x) (v : Dword) {t : State} (h : Keeps s0 t) :
    Keeps s0 (x.act v t) := by
  simp only [wideMem] at hx
  (repeat' split at hx) <;> cases hx <;> grind [rwl_keeps, modMem_keeps, lendSubmit_keeps, opLendGrant_keeps]
theorem wideFls_keeps {o : Nat} {x : WideWord} (hx : wideFls s o = some x) (v : Dword) {t : State} (h : Keeps s0 t) :
    Keeps s0 (x.act v t) := by
  simp only [wideFls] at hx
  (repeat' split at hx) <;> cases hx <;> grind [wheySubmit_keeps, opFlsPool_keeps]
theorem wideClu_keeps {o : Nat} {x : WideWord} (hx : wideClu o = some x) (v : Dword) {t : State} (h : Keeps s0 t) :
    Keeps s0 (x.act v t) := by
  simp only [wideClu] at hx
  (repeat' split at hx) <;> cases hx <;> grind [opCluWcReset_keeps, opSuRearm_keeps, modCore_keeps]
theorem wideSec_keeps {o : Nat} {x : WideWord} (hx : wideSec s o = some x) (v : Dword) {t : State} (h : Keeps s0 t) :
    Keeps s0 (x.act v t) := by
  simp only [wideSec] at hx
  (repeat' split at hx) <;> cases hx
  all_goals
    dsimp only
    refine modSec_keeps h ?_ ?_ <;> rfl
theorem wideTel_keeps {o : Nat} {x : WideWord} (hx : wideTel s o = some x) (v : Dword) {t : State} (h : Keeps s0 t) :
    Keeps s0 (x.act v t) := by
  simp only [wideTel] at hx
  (repeat' split at hx) <;> cases hx <;> grind [rwl_keeps, modTel_keeps, opAlarmSum_keeps, opEvtBase_keeps]
theorem wideAt_keeps {off : Nat} {x : WideWord} (hx : wideAt s off = some x) (v : Dword) {t : State} (h : Keeps s0 t) :
    Keeps s0 (x.act v t) := by
  simp only [wideAt] at hx
  split at hx
  · exact wideHif_keeps hx v h
  · exact wideFab_keeps hx v h
  · exact wideKvc_keeps hx v h
  · exact wideMem_keeps hx v h
  · exact wideFls_keeps hx v h
  · exact wideClu_keeps hx v h
  · exact wideSec_keeps hx v h
  · exact wideTel_keeps hx v h
  · cases hx
theorem writeHalf_keeps (h : Keeps s0 s) (q : Requester) (off : Nat) {x : WideWord}
    (hx : ∀ v t, Keeps s0 t → Keeps s0 (x.act v t)) (upper : Bool) (v : Word) : Keeps s0 (writeHalf q off x upper v s) := by
  unfold writeHalf
  dsimp only
  split
  · split
    · exact holdHi_keeps h _ _ _
    · exact hx _ _ h
  · exact hx _ _ (dropHeld_keeps h _ _)
theorem writeAt32_keeps (h : Keeps s0 s) (q : Requester) (off : Nat) (v : Word) : Keeps s0 (writeAt32 q off v s) := by
  unfold writeAt32
  split
  · next hx => exact writeHalf_keeps h _ _ (fun v _ ht => wideAt_keeps hx v ht) _ _
  · exact write32_keeps h _ _ _
theorem writeAt64_keeps (h : Keeps s0 s) (q : Requester) (off : Nat) (v : Dword) : Keeps s0 (writeAt64 q off v s) := by
  unfold writeAt64
  split
  · next hx => exact wideAt_keeps hx _ (dropHeld_keeps h _ _)
  · exact write32_keeps (write32_keeps h _ _ _) _ _ _
theorem countWinErr_keeps (h : Keeps s0 s) : Keeps s0 (countWinErr s) := by
  grind [countWinErr, ctrSat_keeps, modHif_keeps, update_keeps]
theorem regWrite_keeps (h : Keeps s0 s) (q : Requester) (off width : Nat) (v : Dword) : Keeps s0 (regWrite q off width v s) := by
  grind [regWrite, countWinErr_keeps, writeAt32_keeps, writeAt64_keeps]
@[simp] theorem execRegisterWrite_keeps (s : State) (req : Requester) (offset width : Nat) (value : Dword) : OutKeeps s
    (execRegisterWrite req offset width value s) := by
  unfold execRegisterWrite
  grind [Keeps.refl, outKeeps_next, outKeeps_refused, regWrite_keeps, whenUp_keeps]
@[simp] theorem execFabEqxTime_keeps (s : State) (req : Requester) : OutKeeps s (execFabEqxTime req s) := by
  unfold execFabEqxTime
  grind [Keeps.refl, outKeeps_next, outKeeps_refused, readReg_keeps, whenUp_keeps]
@[simp] theorem execRead32_keeps (s : State) (offset : Nat) : OutKeeps s (execRead32 offset s) := by
  have hs := Keeps.refl s
  unfold execRead32
  dsimp only
  (repeat' split) <;> grind [outKeeps_next, outKeeps_refused, readReg_keeps, sbAnswer_keeps, sideband_keeps]
@[simp] theorem execWrite32_keeps (s : State) (offset : Nat) (value : Word) : OutKeeps s (execWrite32 offset value s) := by
  unfold execWrite32
  grind [Keeps.refl, outKeeps_next, outKeeps_refused, sbAnswer_keeps, sideband_keeps, writeAt32_keeps]

/-! ### The fetch of submission entries -/

theorem hostOpOf_keeps (h : Keeps s0 s) (b : Bytes) : ∀ c ∈ hostOpOf b, ∀ x, Keeps s0 (c.run x s) := by
  unfold hostOpOf
  (repeat' split) <;> simp [opGraphLoad_keeps h, opGraphStart_keeps h, opGraphPause_keeps h, opGraphResume_keeps h,
    opGraphUnload_keeps h, opStreamRearm_keeps h, opTableLoad_keeps h, opWcReset_keeps h, opGroupOpen_keeps h,
    opGroupReset_keeps h, opGroupClose_keeps h, opCableCheck_keeps h, opLendCopy_keeps h, opWheyXfer_keeps h,
    opRingCreate_keeps h, opRingDelete_keeps h, opAlmanac_keeps h]

theorem decodeEntry_keeps (h : Keeps s0 s) (fn ring : Nat) (b : Bytes) : Keeps s0 (decodeEntry fn ring b s) := by
  unfold decodeEntry
  dsimp only
  split
  · exact complete_keeps h _ _ _
  · split
    · next c hc => exact hostGate_keeps h _ _ _ (hostOpOf_keeps h b c hc _)
    · exact complete_keeps h _ _ _
theorem decodeRun_keeps (h : Keeps s0 s) (fn ring n : Nat) : Keeps s0 (decodeRun fn ring n s) := by
  fun_induction decodeRun <;> grind [hostOpOf_keeps, decodeEntry_keeps, modRing_keeps, update_keeps]
theorem sqFetch_keeps (h : Keeps s0 s) (fn ring : Nat) : Keeps s0 (sqFetch fn ring s) := by
  grind [sqFetch, afterCmd_keeps, almAll_keeps, decodeRun_keeps, modRing_keeps, update_keeps]
@[simp] theorem execSqFetch_keeps (s : State) (fn ring : Nat) : OutKeeps s (execSqFetch fn ring s) := by
  unfold execSqFetch
  grind [Keeps.refl, outKeeps_next, outKeeps_refused, sqFetch_keeps]

/-! ### The operations of VEC -/

theorem drawAll_ok_keeps (h : Keeps s0 s) {b : Bound} {l : List (Nat × Nat)} {at_ : List (Nat × Nat)} {u : State}
    (he : drawAll s b l = .ok u at_) : Keeps s0 u := by
  induction l generalizing s at_ with
  | nil =>
    cases he
    exact h
  | cons p l ih =>
    simp only [drawAll] at he
    split at he
    · cases he
    · cases he
    · next ht =>
      split at he
      · next hu =>
        cases he
        exact ih (drawBuffer_ok_keeps h ht) hu
      · exact ih (drawBuffer_ok_keeps h ht) he
theorem vecEnd_keeps (h : Keeps s0 s) (b : Bound) (io : VecIO) (st : Status) : Keeps s0 (vecEnd s b io st) := by
  grind [vecEnd, advance_keeps, notifyEvent_keeps, settle_keeps, tileBoundary_keeps]
theorem vecEmpty_keeps (h : Keeps s0 s) (b : Bound) (io : VecIO) (outs : List Nat) (pred : Nat) :
    Keeps s0 (vecEmpty s b io outs pred) :=
  vecEnd_keeps (foldl_state_keeps (fun _ p ht => emit_keeps ht _ _ _ _) _ h) _ _ _
theorem vecPush_keeps (h : Keeps s0 s) (b : Bound) (io : VecIO) (pred : Nat) (st : Status) (outs at_ : List (Nat × Nat))
    (data : List Bytes) : Keeps s0 (vecPush s b io pred st outs at_ data) := by
  refine vecEnd_keeps (foldl_state_keeps (fun t x ht => emit_keeps ?_ _ _ _ _) _ h) _ _ _
  split
  · exact memWrite_getD_keeps ht _ _
  · exact ht
theorem vecOut_keeps (h : Keeps s0 s) {t : State} (ht : Keeps s0 t) (b : Bound) (io : VecIO) (hs : List Handle) (pred : Nat)
    (st : Status) (outs : List (Nat × Nat)) (data : List Bytes) (fl : Fl3) :
    Keeps s0 (vecOut s t b io hs pred st outs data fl) := by
  unfold vecOut
  split
  · exact h
  · exact haltStation_keeps h _ _
  · next hu => exact vecPush_keeps (releaseAll_keeps (raise_keeps (drawAll_ok_keeps ht hu) _ _) _ _ _) _ _ _ _ _ _ _
theorem vecRead_keeps (h : Keeps s0 s) (sees : Nat → Nat → Bool) (i : Nat) {l : List (Handle × Nat)} {o}
    (eo : vecRead sees i s l = some o) : Keeps s0 o.1 := by
  induction l generalizing s i o with
  | nil =>
    cases eo
    exact h
  | cons p l ih =>
    simp only [vecRead] at eo
    split at eo
    · cases eo
    · next ht =>
      obtain ⟨r, hr, rfl⟩ := Option.map_eq_some_iff.mp eo
      have hrest := ih (takeBytes_keeps h ht) _ hr
      exact hrest
/-- The state a VEC operation's body goes on from. -/
def VecKeeps (s0 : State) : VecRes → Prop
  | .bad => True
  | .poison t => Keeps s0 t
  | .skip t => Keeps s0 t
  | .ok t _ _ => Keeps s0 t

theorem vecTile_keeps (h : Keeps s0 s) (io : VecIO) {p : VecPlan} (hp : ∀ t en ds, Keeps s0 t → VecKeeps s0 (p.body t en ds)) :
    Keeps s0 (vecTile s io p) := by
  unfold vecTile
  split
  · exact h
  · next b _ =>
    dsimp only
    split
    · exact h
    · split
      · exact haltStation_keeps h _ _
      · split
        · exact h
        · split
          · exact waitInputs_keeps h _ _ _
          · next r hr =>
            have h1 := popAll_keeps h hr
            split
            · exact vecEmpty_keeps (releaseAll_keeps h1 _ _ _) _ _ _ _
            · split
              · exact haltStation_keeps h _ _
              · next q hq =>
                have h2 := vecRead_keeps h1 _ _ hq
                split
                · exact vecOut_keeps h h2 _ _ _ _ _ _ _ _
                · have h3 := hp q.1 (predOf (coreAt q.1 io.core) (r.2.headD (emptyHandle io.tag io.last)).pred) q.2.1 h2
                  generalize p.body q.1 _ q.2.1 = w at h3 ⊢
                  cases w with
                  | bad => exact haltStation_keeps h _ _
                  | poison t => exact vecOut_keeps h h3 _ _ _ _ _ _ _ _
                  | skip t => exact vecEmpty_keeps (releaseAll_keeps h3 _ _ _) _ _ _ _
                  | ok t ds fl => exact vecOut_keeps h h3 _ _ _ _ _ _ _ _
theorem vecCmd_keeps (s : State) (io : VecIO) {p : VecPlan} (hp : ∀ t en ds, Keeps s t → VecKeeps s (p.body t en ds)) :
    OutKeeps s (vecCmd s io p) :=
  onUnit_keeps _ _ _ (vecTile_keeps (.refl s) io hp)
theorem readVecs_keeps (h : Keeps s0 s) {l : List (Bool × Nat × Nat)} {o} (eo : readVecs s l = some o) : Keeps s0 o.1 := by
  induction l generalizing s o with
  | nil =>
    cases eo
    exact h
  | cons p l ih =>
    have hm {t : State} (ht : Keeps s0 t) {g : State × List Bytes × Bool → State × List Bytes × Bool} (e : (readVecs t l).map g = some o)
        (hg : ∀ r, (g r).1 = r.1) : Keeps s0 o.1 := by
      obtain ⟨r, hr, rfl⟩ := Option.map_eq_some_iff.mp e
      exact (hg r).symm ▸ ih ht hr
    simp only [readVecs] at eo
    split at eo
    · exact hm h eo fun _ => rfl
    · split at eo
      · cases eo
      · exact hm (memRead_keeps h _ _) eo fun _ => rfl
      · exact hm (memRead_keeps h _ _) eo fun _ => rfl

end

end Sys2Proof.Machine
end

