-- ==== Sys2Proof/Proofs/Invariant.lean ====
section
/-! SUPPORT. Every command keeps the queue and the invariant, and so does every step. -/

namespace Sys2Proof.Machine
section
variable {s0 s : State}

/-! ### The bodies of the VEC operations -/

theorem statTile_keeps (h : Keeps s0 s) (io : VecIO) (r : StatRec)
    (row : List (Option Nat) → List Nat → List Nat → List (Option Nat) × Nat × Nat) (en : BitVec 128 × BitVec 64)
    (ds : List Bytes) : VecKeeps s0 (statTile io r row s en ds) := by
  unfold statTile
  dsimp only
  split
  · trivial
  · next hr =>
    have h1 := readVecs_keeps h hr
    split
    · exact h1
    · exact h1

@[simp] theorem execSfuOperation_keeps (s : State) (io : VecIO) (rec : Word) : OutKeeps s (execSfuOperation io rec s) :=
  vecCmd_keeps _ _ fun t en ds ht => by
    simp only [sfuOperationPlan]
    split
    · trivial
    · exact ht

@[simp] theorem execRms_keeps (s : State) (io : VecIO) (rec : BitVec 256) : OutKeeps s (execRms io rec s) :=
  vecCmd_keeps _ _ fun t en ds ht => by
    simp only [rmsPlan]
    exact statTile_keeps ht _ _ _ _ _

@[simp] theorem execLayerNorm_keeps (s : State) (io : VecIO) (rec : BitVec 256) : OutKeeps s (execLayerNorm io rec s) :=
  vecCmd_keeps _ _ fun t en ds ht => by
    simp only [layerNormPlan]
    exact statTile_keeps ht _ _ _ _ _

@[simp] theorem execOutputStage_keeps (s : State) (io : VecIO) (rec : BitVec 384) : OutKeeps s (execOutputStage io rec s) :=
  vecCmd_keeps _ _ fun t en ds ht => by
    dsimp only [outputStagePlan]
    split
    · trivial
    · next hr =>
      have h1 := readVecs_keeps ht hr
      split
      · exact h1
      · exact h1

theorem countCurdSkip_keeps (h : Keeps s0 s) : Keeps s0 (countCurdSkip s) := by
  grind [countCurdSkip, ctrSat_keeps, update_keeps]

@[simp] theorem execCurdEnc_keeps (s : State) (io : VecIO) (rec : Word) (dpool : Nat) :
    OutKeeps s (execCurdEnc io rec dpool s) :=
  vecCmd_keeps _ _ fun t en ds ht => by
    dsimp only [curdEncPlan]
    split
    · trivial
    · split
      · exact raise_keeps (countCurdSkip_keeps ht) _ _
      · exact ht

theorem execCompare_keeps (s : State) (k : Cmp) (io : VecCmpIO) : OutKeeps s (vecCmd s io.toVecIO (comparePlan k io)) :=
  vecCmd_keeps _ _ fun _ _ _ ht => ht

@[simp] theorem execVecEq_keeps (s : State) (io : VecCmpIO) : OutKeeps s (execVecEq io s) := execCompare_keeps s _ io
@[simp] theorem execVecNe_keeps (s : State) (io : VecCmpIO) : OutKeeps s (execVecNe io s) := execCompare_keeps s _ io
@[simp] theorem execVecLt_keeps (s : State) (io : VecCmpIO) : OutKeeps s (execVecLt io s) := execCompare_keeps s _ io
@[simp] theorem execVecLe_keeps (s : State) (io : VecCmpIO) : OutKeeps s (execVecLe io s) := execCompare_keeps s _ io
@[simp] theorem execVecGt_keeps (s : State) (io : VecCmpIO) : OutKeeps s (execVecGt io s) := execCompare_keeps s _ io
@[simp] theorem execVecGe_keeps (s : State) (io : VecCmpIO) : OutKeeps s (execVecGe io s) := execCompare_keeps s _ io

theorem execSelect_keeps (s : State) (isMax num : Bool) (io : VecIO) (acb : Byte) :
    OutKeeps s (vecCmd s io (selectPlan isMax num io acb)) :=
  vecCmd_keeps _ _ fun _ _ _ ht => ht

@[simp] theorem execVecMax_keeps (s : State) (io : VecIO) (acb : Byte) : OutKeeps s (execVecMax io acb s) :=
  execSelect_keeps s _ _ io acb
@[simp] theorem execVecMin_keeps (s : State) (io : VecIO) (acb : Byte) : OutKeeps s (execVecMin io acb s) :=
  execSelect_keeps s _ _ io acb
@[simp] theorem execVecMaxnum_keeps (s : State) (io : VecIO) (acb : Byte) : OutKeeps s (execVecMaxnum io acb s) :=
  execSelect_keeps s _ _ io acb
@[simp] theorem execVecMinnum_keeps (s : State) (io : VecIO) (acb : Byte) : OutKeeps s (execVecMinnum io acb s) :=
  execSelect_keeps s _ _ io acb

@[simp] theorem execElementWiseArithmetic_keeps (s : State) (io : VecIO) (op : EltOp) (acb : Byte) :
    OutKeeps s (execElementWiseArithmetic io op acb s) :=
  vecCmd_keeps _ _ fun _ _ _ ht => ht

@[simp] theorem execConversion_keeps (s : State) (io : VecIO) (outFmt : NumFmt) (mx : Bool) (acb : Byte) :
    OutKeeps s (execConversion io outFmt mx acb s) :=
  vecCmd_keeps _ _ fun t en ds ht => by
    dsimp only [conversionPlan]
    split
    · exact ht
    · exact ht

@[simp] theorem execSketch_keeps (s : State) (io : VecIO) : OutKeeps s (execSketch io s) :=
  vecCmd_keeps _ _ fun t en ds ht => by
    dsimp only [sketchPlan]
    split
    · trivial
    · next hr =>
      have h1 := readVecs_keeps ht hr
      split
      · exact h1
      · exact h1

/-! ### The Thaw -/

/-- The next signing leaf is taken from the leaf log, so the log covers it (R430). -/
theorem thawLeaf_keeps (h : Keeps s0 s) : Keeps s0 (modSec s fun x => { x with leaf := x.leafLog, bootCause := 0 }) :=
  h.trans ⟨rfl, fun ⟨hm, hc, hp, _, hmod⟩ => ⟨hm, hc, hp, le_rfl, hmod⟩⟩

theorem raiseFloors_keeps (h : Keeps s0 s) : Keeps s0 (raiseFloors s) := by
  unfold raiseFloors
  exact modSec_keeps h rfl rfl

theorem thawEnds_keeps (h : Keeps s0 s) (finds : ThawFinds) : Keeps s0 (thawEnds s finds) := by
  unfold thawEnds
  extract_lets t t1 t2 why
  have ht : Keeps s0 t := thawLeaf_keeps (thawRegisters_keeps h)
  have h1 : Keeps s0 t1 := foldl_state_keeps (fun _ k hu => noteStackFail_keeps hu k _) _ ht
  have h2 : Keeps s0 t2 := foldl_state_keeps (fun _ c hu => noteFlashFail_keeps hu c _) _ h1
  clear_value t2
  split
  · exact raiseFloors_keeps (enterIdle_keeps h2)
  · refine startClocks_keeps (event_keeps (alarm_keeps (modPwr_keeps h2 ?_) _ _) _)
    rfl

theorem thawSequence_keeps (h : Keeps s0 s) (finds : ThawFinds) : Keeps s0 (thawSequence finds s) := by
  unfold thawSequence
  extract_lets a b t
  have ht : Keeps s0 t := modSec_keeps h rfl rfl
  clear_value t
  (repeat' split)
  · exact thawFails_keeps ht _
  · exact thawFails_keeps ht _
  · exact thawFails_keeps ht _
  · exact thawFails_keeps ht _
  · exact thawEnds_keeps ht _

@[simp] theorem execThawSequence_keeps (s : State) (finds : ThawFinds) : OutKeeps s (execThawSequence finds s) := by
  unfold execThawSequence
  (repeat' split)
  · exact outKeeps_refused _ _
  · exact outKeeps_refused _ _
  · exact outKeeps_next (thawSequence_keeps (.refl s) _)
  · exact outKeeps_next (.refl s)

/-! ### Every command and every step -/

theorem exec_keeps (c : Instr) (s : State) : OutKeeps s (exec c s) := by
  cases c <;> simp [exec]

theorem refTick_keeps (s : State) : Keeps s (refTick s) := .of_eq rfl rfl rfl rfl rfl rfl

end

/-- Settles O59: what a command leaves behind it is the queue it found. -/
theorem commandsLeaveTheQueue : Obligations.CommandsLeaveTheQueue := fun c s t h => (exec_keeps c s t h).pending

/-- Settles O58: a step is the tick, or a command run on the state without the command in its queue. -/
theorem stepsKeepInvariant : Obligations.StepsKeepInvariant := by
  intro s t hs h
  unfold step at h
  split at h
  · cases h
    exact (refTick_keeps s).inv hs
  · next c rest _ => exact (exec_keeps c { s with pending := rest } t h).inv hs

/-- Settles O57: memory lists nothing, the curve is the shipped one, the caps are full, and both leaves are 0. -/
theorem resetMeetsInvariant : Obligations.ResetMeetsInvariant := by
  refine ⟨⟨⟨.nil, nofun⟩, ⟨.nil, nofun⟩⟩, ?_, ?_, le_rfl, rfl⟩
  · decide
  · intro c hc
    have h64 : c = 64 := by simpa using (show c ∈ [64, 64] from hc)
    omega

end Sys2Proof.Machine
end

