-- ==== Sys2Proof/Proofs/RegisterFrames.lean ====
section
/-! SUPPORT. Commands whose effect lies in one unit's registers, and what such an effect leaves as it was. -/

namespace Sys2Proof.Machine

/-! ### The units a step may change -/

/-- Only the host interface's registers differ. -/
def HifOnly (s t : State) : Prop := t = { s with hif := t.hif }
/-- Only the fabric's registers differ. -/
def FabOnly (s t : State) : Prop := t = { s with fab := t.fab }
/-- Only the memory controllers' registers differ. -/
def MemcOnly (s t : State) : Prop := t = { s with memc := t.memc }
/-- Only the power controller's registers differ. -/
def PwrOnly (s t : State) : Prop := t = { s with pwr := t.pwr }
/-- Only the security registers differ. -/
def SecOnly (s t : State) : Prop := t = { s with sec := t.sec }
/-- Only the telemetry registers differ. -/
def TelOnly (s t : State) : Prop := t = { s with tel := t.tel }
/-- Only the host interface's and the telemetry's registers differ. -/
def HifTelOnly (s t : State) : Prop := t = { s with hif := t.hif, tel := t.tel }
/-- Only the host interface's and the fabric's registers differ. -/
def HifFabOnly (s t : State) : Prop := t = { s with hif := t.hif, fab := t.fab }
/-- Only the power controller's and the security registers differ. -/
def PwrSecOnly (s t : State) : Prop := t = { s with pwr := t.pwr, sec := t.sec }
/-- Only the security registers and the draws differ. -/
def FreeSecOnly (s t : State) : Prop := t = { s with free := t.free, sec := t.sec }

/-- Only the flash registers differ. -/
def FlsOnly (s t : State) : Prop := t = { s with fls := t.fls }
/-- Only the thermal registers differ. -/
def ThmOnly (s t : State) : Prop := t = { s with thm := t.thm }
/-- Only the Churn's contexts differ. -/
def ChnOnly (s t : State) : Prop := t = { s with chn := t.chn }
/-- Only the clusters' registers differ. -/
def ClustersOnly (s t : State) : Prop := t = { s with clusters := t.clusters }
/-- Only the cores' and the clusters' registers differ. -/
def CoresClustersOnly (s t : State) : Prop := t = { s with cores := t.cores, clusters := t.clusters }
/-- Only the registers that a read of a register touches, and the sideband's answer, differ. -/
def ReadOnly (s t : State) : Prop := t = { s with hif := t.hif, sec := t.sec, fab := t.fab }

theorem HifOnly.trans {s t u : State} (h : HifOnly s t) (k : HifOnly t u) : HifOnly s u := by
  unfold HifOnly at *; rw [k, h]

theorem FabOnly.trans {s t u : State} (h : FabOnly s t) (k : FabOnly t u) : FabOnly s u := by
  unfold FabOnly at *; rw [k, h]

theorem SecOnly.trans {s t u : State} (h : SecOnly s t) (k : SecOnly t u) : SecOnly s u := by
  unfold SecOnly at *; rw [k, h]

theorem FreeSecOnly.trans {s t u : State} (h : FreeSecOnly s t) (k : FreeSecOnly t u) : FreeSecOnly s u := by
  unfold FreeSecOnly at *; rw [k, h]

theorem modSec_secOnly (s : State) (f : Sec → Sec) : SecOnly s (modSec s f) := rfl

theorem modSec_freeSecOnly (s : State) (f : Sec → Sec) : FreeSecOnly s (modSec s f) := rfl

theorem tick1_freeSecOnly (s : State) : FreeSecOnly s (tick1 s) := rfl

/-! ### Gates -/

/-- A property of both ways through the module-state gate holds of its answer. -/
theorem whenUp_elim {s t u : State} {P : State → Prop} (e : whenUp s t = .next u) (hs : P s) (ht : P t) : P u := by
  rcases whenUp_cases _ _ _ e with rfl | rfl
  · exact hs
  · exact ht

/-- A property of the state kept holds of the answer of a command on a unit. -/
theorem onUnit_elim {n count : Nat} {what : String} {t u : State} {P : State → Prop} (e : onUnit n count what t = .next u)
    (ht : P t) : P u := onUnit_cases _ _ _ _ _ e ▸ ht

/-- A sideband request is served on the state without an answer, or not at all. -/
theorem sideband_elim {s u : State} {rom : Bool} {run : State → State} {P : State → Prop} (e : sideband s rom run = .next u)
    (hs : P s) (ht : P (run (modSec s fun x => { x with sbAnswer := none }))) : P u := by
  unfold sideband at e
  split at e <;> cases e
  · exact hs
  · exact ht

/-! ### Operations on one unit's registers -/

theorem opRing0_hif (fn word : Nat) (value : Dword) (s : State) : HifOnly s (opRing0 fn word value s) := by
  unfold opRing0 HifOnly
  dsimp only
  split
  · rfl
  · split
    · rfl
    · split <;> rfl

theorem opSetupLock_hif (value : Word) (s : State) : HifOnly s (opSetupLock value s) := by
  unfold opSetupLock HifOnly
  split
  · rfl
  · split <;> rfl

theorem signalVec_hif (s : State) (fn v : Nat) : HifOnly s (signalVec s fn v) := by
  unfold signalVec HifOnly
  dsimp only
  split <;> rfl

theorem ringSignal_hif (s : State) (fn r : Nat) : HifOnly s (ringSignal s fn r) := by
  unfold ringSignal
  split
  · rfl
  · exact HifOnly.trans (t := modRing s fn r _) rfl (signalVec_hif _ _ _)

theorem unmask_hif (fn vector : Nat) (s : State) : HifOnly s (unmask fn vector s) := by
  unfold unmask HifOnly
  dsimp only
  split
  · rfl
  · split <;> rfl

theorem discoverAll_fab (ls : List Nat) : ∀ s : State, FabOnly s (ls.foldl (fun t l => queuePacket t l (discPacket t l)) s) := by
  induction ls with
  | nil => exact fun _ => rfl
  | cons l ls ih => exact fun s => FabOnly.trans (t := queuePacket s l (discPacket s l)) rfl (ih _)

theorem opDiscover_fab (value : Word) (s : State) : FabOnly s (opDiscover value s) := by
  unfold opDiscover
  split
  · exact discoverAll_fab _ _
  · rfl

theorem opEqxSet_fab (value : Dword) (s : State) : FabOnly s (opEqxSet value s) := by
  unfold opEqxSet FabOnly
  split <;> rfl

theorem opLshape_fab (which : Nat) (value : Dword) (s : State) : FabOnly s (opLshape which value s) := by
  unfold opLshape FabOnly
  split
  · rfl
  · split <;> rfl

theorem opRtEntry_fab (req : Requester) (value : Word) (s : State) : FabOnly s (opRtEntry req value s) := by
  unfold opRtEntry FabOnly
  dsimp only
  split <;> rfl

theorem opFabTrain_fab (value : Word) (s : State) : FabOnly s (opFabTrain value s) := by
  unfold opFabTrain FabOnly
  dsimp only
  split
  · rfl
  · split <;> rfl

theorem opMarginCtl_memc (value : Word) (s : State) : MemcOnly s (opMarginCtl value s) := by
  unfold opMarginCtl MemcOnly
  dsimp only
  generalize hs : (if s.hif.lock = true then s else modMem s fun m => { m with margin := value &&& 0x7FF00000#32 }) = u
  have hu : u = { s with memc := u.memc } := by
    subst hs
    split <;> rfl
  clear hs
  split
  · exact hu
  · split <;> (rw [hu]; rfl)

theorem wakeEvent_pwr (s : State) : PwrOnly s (wakeEvent s) := by
  unfold wakeEvent PwrOnly
  split <;> rfl

theorem opIdleReq_pwr (s : State) : PwrOnly s (opIdleReq s) := by
  unfold opIdleReq PwrOnly
  split <;> rfl

theorem opPwrWake_pwr (s : State) : PwrOnly s (opPwrWake s) := by
  have h := wakeEvent_pwr (modPwr s fun p => { p with wakeBit := p.wakeBit || (p.state != .active) })
  unfold PwrOnly at h ⊢
  unfold opPwrWake
  rw [h]
  rfl

theorem ownerSubmit_sec (s : State) (o : Bytes) (sb : Bool) : SecOnly s (ownerSubmit s o sb).1 := by
  unfold ownerSubmit SecOnly
  split <;> rfl

theorem opEvtHead_tel (value : Word) (s : State) : TelOnly s (opEvtHead value s) := by
  unfold opEvtHead TelOnly
  split <;> split <;> rfl

theorem mirrorSignal_hif_tel (s : State) : HifTelOnly s (mirrorSignal s) := by
  unfold mirrorSignal HifTelOnly
  split
  · rw [signalVec_hif]; rfl
  · rfl

theorem setLatch_hif (s : State) (q : Requester) (v : Option (Nat × Nat)) : HifOnly s (setLatch s q v) := by
  rfl

theorem readPart_hif_fab (s : State) (q : Requester) (off n : Nat) : HifFabOnly s (readPart s q off n).1 := by
  unfold readPart HifFabOnly
  split
  · rfl
  · split
    · dsimp only
      split <;> rw [setLatch_hif]
    · rfl

/-- A read of a register changes the requester's latch and the time counter's alone. -/
theorem readReg_hif_fab (s : State) (q : Requester) (off n : Nat) : HifFabOnly s (readReg s q off n).1 := by
  unfold readReg
  split
  · unfold HifFabOnly
    dsimp only
    rw [readPart_hif_fab (readPart s q off 4).1, readPart_hif_fab s]
  · exact readPart_hif_fab _ _ _ _

/-- A completed flash scan changes the flash registers and the draws. -/
theorem execFlashScanDone_frame {s t : State} (h : execFlashScanDone s = .next t) : t = { s with free := t.free, fls := t.fls } := by
  unfold execFlashScanDone at h
  split at h <;> cases h <;> rfl

theorem execClaim_frame {core : Nat} {s t : State} (h : execClaim core s = .next t) :
    CoresClustersOnly s t := by
  refine onUnit_elim (P := CoresClustersOnly s) h ?_
  split <;> rfl

theorem execChurnCreditArrival_frame {die ctx credits rttNs : Nat} {west : Bool} {s t : State}
    (h : execChurnCreditArrival die ctx west credits rttNs s = .next t) : ChnOnly s t := by
  refine onUnit_elim (P := ChnOnly s) h ?_
  dsimp only
  split <;> rfl

theorem execFlsPool_frame {pool : Nat} {value : Dword} {s t : State} (h : execFlsPool pool value s = .next t) :
    FlsOnly s t := by
  unfold execFlsPool at h
  split at h
  · cases h
  · refine whenUp_elim (P := FlsOnly s) h rfl ?_
    unfold opFlsPool
    dsimp only
    split <;> rfl

theorem execThmDieCurve_frame {value : Word} {s t : State} (h : execThmDieCurve value s = .next t) : ThmOnly s t := by
  refine whenUp_elim (P := ThmOnly s) h rfl ?_
  unfold opDieCurve0
  split <;> rfl

/-! ### Sideband requests -/

theorem execOwnerCommit_sec {s t : State} (h : execOwnerCommit s = .next t) : SecOnly s t := by
  refine sideband_elim (P := SecOnly s) h rfl ?_
  have hs := ownerSubmit_sec (modSec s fun x => { x with sbAnswer := none })
    ((modSec s fun x => { x with sbAnswer := none }).sec.ownerBuf.take 8008)
    ((modSec s fun x => { x with sbAnswer := none }).pwr.state == .standby)
  unfold SecOnly at hs ⊢
  dsimp only
  rw [hs]
  rfl

theorem execOwnerData_sec {offset : Nat} {data : Bytes} {s t : State} (h : execOwnerData offset data s = .next t) : SecOnly s t := by
  refine sideband_elim (P := SecOnly s) h rfl ?_
  split <;> rfl

theorem execStageClose_sec {length : Nat} {s t : State} (h : execStageClose length s = .next t) : SecOnly s t := by
  refine sideband_elim (P := SecOnly s) h rfl ?_
  have hc := modSec_secOnly s fun x => { x with sbAnswer := none }
  generalize (modSec s fun x => { x with sbAnswer := none }) = u at hc ⊢
  refine hc.trans ?_
  split
  · exact modSec_secOnly _ _
  · exact ((modSec_secOnly _ _).trans (modSec_secOnly _ _)).trans (modSec_secOnly _ _)

theorem execThaw_pwr_sec {s t : State} (h : execThaw s = .next t) : PwrSecOnly s t := by
  refine sideband_elim (P := PwrSecOnly s) h rfl ?_
  split <;> rfl

theorem execWake_pwr_sec {s t : State} (h : execWake s = .next t) : PwrSecOnly s t := by
  refine sideband_elim (P := PwrSecOnly s) h rfl ?_
  split
  · have hw := wakeEvent_pwr (modSec s fun x => { x with sbAnswer := none })
    unfold PwrOnly at hw
    unfold PwrSecOnly
    rw [hw]
    rfl
  · rfl

theorem execAttestRead_free_sec {offset : Nat} {s t : State} (h : execAttestRead offset s = .next t) : FreeSecOnly s t := by
  refine sideband_elim (P := FreeSecOnly s) h rfl ?_
  dsimp only
  split <;> rfl

theorem execStageData_free_sec {offset : Nat} {data : Bytes} {s t : State} (h : execStageData offset data s = .next t) :
    FreeSecOnly s t := by
  refine sideband_elim (P := FreeSecOnly s) h rfl ?_
  have hc := modSec_freeSecOnly s fun x => { x with sbAnswer := none }
  generalize (modSec s fun x => { x with sbAnswer := none }) = u at hc ⊢
  refine hc.trans ?_
  split
  · exact modSec_freeSecOnly _ _
  · split
    · exact modSec_freeSecOnly _ _
    · exact ((modSec_freeSecOnly _ _).trans (tick1_freeSecOnly _)).trans (modSec_freeSecOnly _ _)

theorem execStageOpen_free_sec {kind : Nat} {s t : State} (h : execStageOpen kind s = .next t) : FreeSecOnly s t := by
  refine sideband_elim (P := FreeSecOnly s) h rfl ?_
  have hc := modSec_freeSecOnly s fun x => { x with sbAnswer := none }
  generalize (modSec s fun x => { x with sbAnswer := none }) = u at hc ⊢
  refine hc.trans ?_
  split
  · exact modSec_freeSecOnly _ _
  · split
    · exact modSec_freeSecOnly _ _
    · exact (((modSec_freeSecOnly _ _).trans (modSec_freeSecOnly _ _)).trans (tick1_freeSecOnly _)).trans (modSec_freeSecOnly _ _)

theorem execRead32_frame {offset : Nat} {s t : State} (h : execRead32 offset s = .next t) :
    ReadOnly s t := by
  refine sideband_elim (P := fun t => ReadOnly s t) h rfl ?_
  dsimp only
  split
  · rfl
  · split
    · rfl
    · have hr := readReg_hif_fab (modSec s fun x => { x with sbAnswer := none }) .controller offset 4
      unfold HifFabOnly at hr
      unfold ReadOnly
      rw [hr]
      rfl

/-! ### The host interface, the fabric, memory and power -/

theorem execConfigurationRequest_hif {s t : State} (h : execConfigurationRequest s = .next t) : HifOnly s t := by
  unfold execConfigurationRequest at h
  split at h <;> cases h <;> rfl

theorem execHifRing0_hif {fn word : Nat} {value : Dword} {s t : State} (h : execHifRing0 fn word value s = .next t) : HifOnly s t := by
  unfold execHifRing0 at h
  split at h
  · cases h
  · split at h
    · cases h
    · exact whenUp_elim (P := HifOnly s) h rfl (opRing0_hif _ _ _ _)

theorem execMsixModerationExpiry_hif {fn ring : Nat} {s t : State} (h : execMsixModerationExpiry fn ring s = .next t) :
    HifOnly s t := by
  unfold execMsixModerationExpiry at h
  split at h
  · cases h; rfl
  · split at h <;> cases h
    · rfl
    · split
      · exact ringSignal_hif _ _ _
      · rfl

theorem execMsixVectorUnmask_hif {fn vector : Nat} {s t : State} (h : execMsixVectorUnmask fn vector s = .next t) : HifOnly s t := by
  unfold execMsixVectorUnmask at h
  split at h
  · cases h
  · exact onUnit_elim (P := HifOnly s) h (unmask_hif _ _ _)

theorem execDisc_fab {link : Nat} {rec : DiscRec} {s t : State} (h : execDisc link rec s = .next t) : FabOnly s t := by
  refine onUnit_elim (P := FabOnly s) h ?_
  split <;> rfl

theorem execEqxInterval_fab {s t : State} (h : execEqxInterval s = .next t) : FabOnly s t := by
  cases h
  split <;> rfl

theorem execEqxRequest_fab {link t1 : Nat} {s t : State} (h : execEqxRequest link t1 s = .next t) : FabOnly s t := by
  refine onUnit_elim (P := FabOnly s) h ?_
  split <;> rfl

theorem execFabLshape_fab {which : Nat} {value : Dword} {s t : State} (h : execFabLshape which value s = .next t) : FabOnly s t := by
  unfold execFabLshape at h
  split at h
  · exact whenUp_elim (P := FabOnly s) h rfl (opLshape_fab _ _ _)
  · cases h

theorem execFabEqxTime_frame {req : Requester} {s t : State} (h : execFabEqxTime req s = .next t) : HifFabOnly s t := by
  unfold execFabEqxTime at h
  split at h
  · cases h
  · exact whenUp_elim (P := HifFabOnly s) h rfl (readReg_hif_fab _ _ _ _)

theorem execMemLendGrant_memc {grant word : Nat} {value : Dword} {s t : State} (h : execMemLendGrant grant word value s = .next t) :
    MemcOnly s t := by
  unfold execMemLendGrant at h
  split at h
  · cases h
  · exact whenUp_elim (P := MemcOnly s) h rfl rfl

theorem execRevoke_memc {grant : Nat} {s t : State} (h : execRevoke grant s = .next t) : MemcOnly s t := by
  unfold execRevoke at h
  split at h
  · cases h
  · exact whenUp_elim (P := MemcOnly s) h rfl rfl

theorem execRevokeDone_memc {grant : Nat} {s t : State} (h : execRevokeDone grant s = .next t) : MemcOnly s t := by
  unfold execRevokeDone at h
  split at h <;> cases h
  rfl

theorem execModRstNRise_pwr {s t : State} (h : execModRstNRise s = .next t) : PwrOnly s t := by
  cases h
  dsimp only
  split <;> rfl

theorem execControllerWatchdogExpiry_pwr_sec {s t : State} (h : execControllerWatchdogExpiry s = .next t) : PwrSecOnly s t := by
  cases h
  split <;> rfl

theorem execInputRise_pwr_sec {mv : Nat} {slotId : BitVec 4} {s t : State} (h : execInputRise mv slotId s = .next t) :
    PwrSecOnly s t := by
  cases h
  split <;> rfl

theorem execCluWdogKick_clusters {cluster : Nat} {s t : State} (h : execCluWdogKick cluster s = .next t) :
    ClustersOnly s t := by
  unfold execCluWdogKick at h
  split at h <;> exact onUnit_elim (P := ClustersOnly s) h rfl

theorem execSmallTransfer_clusters {cluster slotAddr : Nat} {cmd : BitVec 256} {s t : State}
    (h : execSmallTransfer cluster slotAddr cmd s = .next t) : ClustersOnly s t := by
  refine onUnit_elim (P := ClustersOnly s) h ?_
  split <;> rfl

/-- Settles O53: each command's own frame, by the unit it belongs to. -/
theorem registerCommandsTouchOneUnit : Obligations.RegisterCommandsTouchOneUnit := by
  intro c s t h
  cases c
  case atsInvalidation => cases h; rfl
  case configurationRequest => exact execConfigurationRequest_hif h
  case hifRing0 => exact execHifRing0_hif h
  case hifSetupLock => exact whenUp_elim (P := HifOnly s) h rfl (opSetupLock_hif _ _)
  case msixModerationExpiry => exact execMsixModerationExpiry_hif h
  case msixVectorUnmask => exact execMsixVectorUnmask_hif h
  case disc => exact execDisc_fab h
  case eqxInterval => exact execEqxInterval_fab h
  case eqxRequest => exact execEqxRequest_fab h
  case fabDiscover => exact whenUp_elim (P := FabOnly s) h rfl (opDiscover_fab _ _)
  case fabEqxSet => exact whenUp_elim (P := FabOnly s) h rfl (opEqxSet_fab _ _)
  case fabLshape => exact execFabLshape_fab h
  case fabRtEntry => exact whenUp_elim (P := FabOnly s) h rfl (opRtEntry_fab _ _ _)
  case fabTrain => exact whenUp_elim (P := FabOnly s) h rfl (opFabTrain_fab _ _)
  case memLendGrant => exact execMemLendGrant_memc h
  case memMarginCtl => exact whenUp_elim (P := MemcOnly s) h rfl (opMarginCtl_memc _ _)
  case revoke => exact execRevoke_memc h
  case revokeDone => exact execRevokeDone_memc h
  case idleReq => cases h; exact opIdleReq_pwr s
  case pwrCtrlWake => exact whenUp_elim (P := PwrOnly s) h rfl (opPwrWake_pwr _)
  case modRstNRise => exact execModRstNRise_pwr h
  case ownerCommit => exact execOwnerCommit_sec h
  case ownerData => exact execOwnerData_sec h
  case stageClose => exact execStageClose_sec h
  case telAlarmSum => exact whenUp_elim (P := TelOnly s) h rfl rfl
  case telEvtHead => exact whenUp_elim (P := TelOnly s) h rfl (opEvtHead_tel _ _)
  case cluWdogKick => exact execCluWdogKick_clusters h
  case smallTransfer => exact execSmallTransfer_clusters h
  case churnCreditArrival => exact execChurnCreditArrival_frame h
  case flsPool => exact execFlsPool_frame h
  case thmDieCurve => exact execThmDieCurve_frame h
  case claim => exact execClaim_frame h
  case eventMirrorSignal => exact whenUp_elim (P := HifTelOnly s) h rfl (mirrorSignal_hif_tel _)
  case fabEqxTime => exact execFabEqxTime_frame h
  case flashScanDone => exact execFlashScanDone_frame h
  case controllerWatchdogExpiry => exact execControllerWatchdogExpiry_pwr_sec h
  case inputRise => exact execInputRise_pwr_sec h
  case thaw => exact execThaw_pwr_sec h
  case wake => exact execWake_pwr_sec h
  case attestRead => exact execAttestRead_free_sec h
  case stageData => exact execStageData_free_sec h
  case stageOpen => exact execStageOpen_free_sec h
  case read32 => exact execRead32_frame h
  all_goals trivial

end Sys2Proof.Machine
end

