-- ==== Sys2Proof/Proofs/MemoryFrames.lean ====
section
/-! SUPPORT. What reads, stores and upkeep of module memory may change: the event ring, the counters, and the bytes they name. -/

namespace Sys2Proof.Machine

/-! ### The frame of a store -/

/-- A step that stores at direct addresses of `P` alone: beside them it changes the event ring and the registers that reads and
events count in. -/
def StoreFrame (P : Nat → Prop) (s t : State) : Prop :=
  t = { s with mem := t.mem, poison := t.poison, soft := t.soft, free := t.free, hif := t.hif, tel := t.tel, memc := t.memc,
               clusters := t.clusters } ∧
    t.tel.evtBase = s.tel.evtBase ∧ t.tel.evtEn = s.tel.evtEn ∧ t.tel.evtExp = s.tel.evtExp ∧
    ∀ a, ¬ InEventRing s a → ¬ P a → cellGet t.mem a = cellGet s.mem a

/-- No address: what a step that stores nothing itself stores. -/
def Nowhere (_ : Nat) : Prop := False

theorem inEventRing_congr {s t : State} (hb : t.tel.evtBase = s.tel.evtBase) (he : t.tel.evtEn = s.tel.evtEn)
    (hx : t.tel.evtExp = s.tel.evtExp) (a : Nat) : InEventRing t a ↔ InEventRing s a := by
  rw [InEventRing, InEventRing, hb, he, hx]

section
variable {P : Nat → Prop} {s t u : State}

theorem StoreFrame.refl (P : Nat → Prop) (s : State) : StoreFrame P s s := ⟨rfl, rfl, rfl, rfl, fun _ _ _ => rfl⟩

theorem StoreFrame.trans (h : StoreFrame P s t) (k : StoreFrame P t u) : StoreFrame P s u := by
  obtain ⟨h1, h2, h3, h4, h5⟩ := h
  obtain ⟨k1, k2, k3, k4, k5⟩ := k
  refine ⟨?_, k2.trans h2, k3.trans h3, k4.trans h4, fun a ha hp => ?_⟩
  · rw [k1, h1]
  · exact (k5 a (by rwa [inEventRing_congr h2 h3 h4]) hp).trans (h5 a ha hp)

theorem StoreFrame.of_event (h : EventFrame s t) : StoreFrame P s t := by
  obtain ⟨h1, -, h3, h4, h5, h6, -⟩ := h
  refine ⟨?_, h3, h4, h5, fun a ha _ => h6 a ha⟩
  rw [h1]

/-- A step that changes counting registers, marks and draws alone stores nowhere. -/
theorem StoreFrame.of_marks
    (h : t = { s with poison := t.poison, soft := t.soft, free := t.free, memc := t.memc, clusters := t.clusters }) :
    StoreFrame P s t := by
  refine ⟨?_, ?_, ?_, ?_, fun a _ _ => ?_⟩ <;> rw [h]

theorem StoreFrame.mono {Q : Nat → Prop} (h : StoreFrame P s t) (hp : ∀ a, P a → Q a) : StoreFrame Q s t := by
  obtain ⟨h1, h2, h3, h4, h5⟩ := h
  exact ⟨h1, h2, h3, h4, fun a ha hq => h5 a ha fun k => hq (hp a k)⟩

end

theorem poke_store (P : Nat → Prop) (s : State) (a : Nat) (b : Bytes) (h : ∀ i < b.length, P (directD (a + i))) :
    StoreFrame P s (poke s a b) :=
  ⟨rfl, rfl, rfl, rfl, fun d _ hd => poke_other s a d b fun j hj e => hd (e ▸ h j hj)⟩

theorem ctrSat_store (P : Nat → Prop) (off : Nat) (old new : Word) (s : State) : StoreFrame P s (ctrSat off old new s) :=
  .of_event (ctrSat_frame off old new s)

theorem event_store (P : Nat → Prop) (s : State) (e : Event) : StoreFrame P s (event s e) := .of_event (event_frame s e)

theorem alarm_store (P : Nat → Prop) (s : State) (n arg : Nat) : StoreFrame P s (alarm s n arg) := .of_event (alarm_frame s n arg)

theorem foldl_store {α : Type} {P : Nat → Prop} {f : State → α → State} (l : List α) (hf : ∀ s, ∀ x ∈ l, StoreFrame P s (f s x)) :
    ∀ s, StoreFrame P s (l.foldl f s) := by
  induction l with
  | nil => exact fun s => StoreFrame.refl P s
  | cons x l ih =>
    exact fun s => (hf s x List.mem_cons_self).trans (ih (fun t y hy => hf t y (List.mem_cons_of_mem _ hy)) _)

/-! ### Reads and the sectors of a write -/

theorem countUe_store (P : Nat → Prop) (s : State) (sec : Nat) : StoreFrame P s (countUe s sec) := by
  unfold countUe
  refine StoreFrame.trans ?_ (event_store P _ _)
  split
  · exact StoreFrame.trans (.of_marks rfl) (ctrSat_store P _ _ _ _)
  · exact StoreFrame.trans (.of_marks rfl) (ctrSat_store P _ _ _ _)

theorem countCe_store (P : Nat → Prop) (s : State) (sec : Nat) : StoreFrame P s (countCe s sec) := by
  unfold countCe
  extract_lets s1
  have h1 : StoreFrame P s s1 := by
    unfold s1
    split
    · exact StoreFrame.trans (.of_marks rfl) (ctrSat_store P _ _ _ _)
    · exact StoreFrame.trans (.of_marks rfl) (ctrSat_store P _ _ _ _)
  clear_value s1
  exact (h1.trans (.of_marks rfl)).trans (event_store P _ _)

theorem readSector_store (P : Nat → Prop) (s : State) (sec : Nat) : StoreFrame P s (readSector s sec) := by
  unfold readSector
  split
  · exact countUe_store P _ _
  · split
    · exact countCe_store P _ _
    · exact StoreFrame.refl P s

/-- A read of module memory counts errors, and stores nothing (R309). -/
theorem memRead_store (P : Nat → Prop) (s : State) (a n : Nat) : StoreFrame P s (memRead s a n).1 := by
  have hf := foldl_store (sectorsOf a n) (fun s x _ => readSector_store P s x) s
  unfold memRead
  dsimp only
  split
  · split <;> exact hf
  · exact StoreFrame.refl P s

theorem writeSector_store (P : Nat → Prop) (lo hi : Nat) (s : State) (p : Nat × Nat) :
    StoreFrame P s (writeSector lo hi s p) := by
  unfold writeSector
  dsimp only
  split
  · exact .of_marks rfl
  · split
    · split
      · exact ((countUe_store P _ _).trans (.of_marks rfl)).trans (ctrSat_store P _ _ _ _)
      · exact countUe_store P _ _
    · split
      · exact countCe_store P _ _
      · exact StoreFrame.refl P s

theorem modifySectors_store (P : Nat → Prop) (s : State) (a n : Nat) : StoreFrame P s (modifySectors s a n) :=
  foldl_store _ (fun s x _ => writeSector_store P 0 0 s x) s

/-- A guarded write stores its bytes' range alone. -/
theorem memWrite_store {P : Nat → Prop} {s t : State} {a : Nat} {b : Bytes} (e : memWrite s a b = some t)
    (h : ∀ i < b.length, P (directD (a + i))) : StoreFrame P s t := by
  unfold memWrite at e
  split at e
  · cases e
    exact (foldl_store _ (fun s x _ => writeSector_store P _ _ s x) s).trans (poke_store P _ _ _ h)
  · cases e

/-! ### Atomics and updates -/

/-- The direct addresses of `n` bytes from `a`. -/
def Span (a n d : Nat) : Prop := ∃ i < n, d = directD (a + i)

theorem leBytes_span (a n v : Nat) : ∀ i < (leBytes n v).length, Span a n (directD (a + i)) := fun i hi =>
  ⟨i, by rwa [leBytes_length] at hi, rfl⟩

theorem adderRun_store (s : State) (a n : Nat) (f : Nat → Nat) : StoreFrame (Span a n) s (adderRun s a n f).1 := by
  unfold adderRun
  dsimp only
  split
  · exact modifySectors_store _ _ _ _
  · exact (modifySectors_store _ _ _ _).trans (poke_store _ _ _ _ (leBytes_span a n _))

theorem amoAnswer_store (P : Nat → Prop) (s : State) (cluster : Nat) (x : AmoAnswer) : StoreFrame P s (amoAnswer s cluster x) :=
  .of_marks rfl

theorem dlCtrl_store (P : Nat → Prop) (s : State) (src dst n : Nat) : StoreFrame P s (dlCtrl s src dst n) := by
  unfold dlCtrl
  split
  · exact StoreFrame.refl P s
  · exact .of_marks rfl

theorem amoRun_store (s : State) (cluster : Nat) (op : AmoOp) (wide : Bool) (a v : Nat) :
    StoreFrame (Span a (if wide then 8 else 4)) s (amoRun s cluster op wide a v) := by
  unfold amoRun
  dsimp only
  generalize (if wide = true then 8 else 4) = n
  split
  · exact (((adderRun_store _ _ _ _).trans (dlCtrl_store _ _ _ _ _)).trans (dlCtrl_store _ _ _ _ _)).trans
      (amoAnswer_store _ _ _ _)
  · exact amoAnswer_store _ _ _ _

theorem loadReserved_store (P : Nat → Prop) (s : State) (cluster a n : Nat) (wide : Bool) :
    StoreFrame P s (loadReserved s cluster a n wide) := by
  unfold loadReserved
  dsimp only
  split
  · exact ((memRead_store P _ _ _).trans (amoAnswer_store _ _ _ _)).trans (.of_marks rfl)
  · exact (memRead_store P _ _ _).trans (amoAnswer_store _ _ _ _)

theorem storeConditional_store (s : State) (cluster a n v : Nat) : StoreFrame (Span a n) s (storeConditional s cluster a n v) := by
  unfold storeConditional
  dsimp only
  generalize ((clusterAt s cluster).resv == some (a, n, leNat (peek s a n))) = held
  have hc : StoreFrame (Span a n) s (modCluster s cluster fun x => { x with resv := none }) := .of_marks rfl
  generalize (modCluster s cluster fun x => { x with resv := none }) = s1 at hc ⊢
  refine hc.trans ?_
  split
  · rename_i t ht
    split at ht
    · exact (memWrite_store ht (leBytes_span a n v)).trans (amoAnswer_store _ _ _ _)
    · cases ht
  · exact amoAnswer_store _ _ _ _

theorem execAmo_store {cluster addr : Nat} {op : AmoOp} {wide : Bool} {value : Dword} {s t : State}
    (h : execAmo cluster op wide addr value s = .next t) : StoreFrame (Span addr (if wide then 8 else 4)) s t := by
  refine onUnit_elim (P := StoreFrame (Span addr (if wide then 8 else 4)) s) h ?_
  have hrun := amoRun_store s cluster op wide addr
  dsimp only
  generalize (if wide = true then 8 else 4) = n at hrun ⊢
  split
  · split
    · exact loadReserved_store _ _ _ _ _ _
    · exact amoAnswer_store _ _ _ _
  · split
    · exact storeConditional_store _ _ _ _ _
    · exact amoAnswer_store _ _ _ _
  · exact hrun _

theorem setAdderFlags_store (P : Nat → Prop) (s : State) (a f : Nat) : StoreFrame P s (setAdderFlags s a f) := by
  unfold setAdderFlags
  split <;> exact .of_marks rfl

theorem aliasApply_store {s : State} {a : Nat} {data : Bytes} {i n : Nat} (hi : i < n) :
    StoreFrame (Span (aliasTarget a) (n * aliasOut (aliasOp a))) s (aliasApply a data s i) := by
  unfold aliasApply
  dsimp only
  split
  · exact StoreFrame.refl _ s
  · refine StoreFrame.trans (poke_store _ _ _ _ fun j hj => ?_) (setAdderFlags_store _ _ _ _)
    rw [leBytes_length] at hj
    refine ⟨i * aliasOut (aliasOp a) + j, ?_, by rw [Nat.add_assoc]⟩
    have := Nat.mul_le_mul_right (aliasOut (aliasOp a)) hi
    rw [Nat.succ_mul] at this
    omega

/-- A write for an update stores at its elements' targets alone (R315). -/
theorem aliasWrite_store {s t : State} {a : Nat} {data : Bytes} (e : aliasWrite s a data = some t) :
    StoreFrame (Span (aliasTarget a) (data.length / aliasIn (aliasOp a) * aliasOut (aliasOp a))) s t := by
  unfold aliasWrite aliasWriteSome at e
  split at e
  · cases e
    refine StoreFrame.trans (foldl_store _ (fun u i _ => ?_) s)
      (foldl_store _ (fun u i hi => aliasApply_store (List.mem_range.mp hi)) _)
    split
    · exact StoreFrame.refl _ u
    · exact modifySectors_store _ _ _ _
  · cases e

theorem execUpdateAliasWrite_store {a : Nat} {data : Bytes} {s t : State} (h : execUpdateAliasWrite a data s = .next t) :
    StoreFrame (Span (aliasTarget a) (data.length / aliasIn (aliasOp a) * aliasOut (aliasOp a))) s t := by
  unfold execUpdateAliasWrite at h
  split at h <;> cases h
  · rename_i u hu
    exact (aliasWrite_store hu).trans (.of_marks rfl)
  · exact .of_marks rfl

/-! ### Upkeep, links and packets -/

/-- A step that stores nothing itself: beside the event ring, it changes the registers of the host interface, the fabric, the
flash, the page unit and the memory controllers. -/
def UpkeepFrame (s t : State) : Prop :=
  t = { s with mem := t.mem, poison := t.poison, soft := t.soft, free := t.free, hif := t.hif, tel := t.tel, memc := t.memc,
               clusters := t.clusters, kvc := t.kvc, fab := t.fab, fls := t.fls } ∧
    t.tel.evtBase = s.tel.evtBase ∧ t.tel.evtEn = s.tel.evtEn ∧ t.tel.evtExp = s.tel.evtExp ∧
    ∀ a, ¬ InEventRing s a → cellGet t.mem a = cellGet s.mem a

section
variable {s t u : State}

theorem UpkeepFrame.refl (s : State) : UpkeepFrame s s := ⟨rfl, rfl, rfl, rfl, fun _ _ => rfl⟩

theorem UpkeepFrame.trans (h : UpkeepFrame s t) (k : UpkeepFrame t u) : UpkeepFrame s u := by
  obtain ⟨h1, h2, h3, h4, h5⟩ := h
  obtain ⟨k1, k2, k3, k4, k5⟩ := k
  refine ⟨?_, k2.trans h2, k3.trans h3, k4.trans h4, fun a ha => ?_⟩
  · rw [k1, h1]
  · exact (k5 a (by rwa [inEventRing_congr h2 h3 h4])).trans (h5 a ha)

theorem UpkeepFrame.of_store (h : StoreFrame Nowhere s t) : UpkeepFrame s t := by
  obtain ⟨h1, h2, h3, h4, h5⟩ := h
  refine ⟨?_, h2, h3, h4, fun a ha => h5 a ha id⟩
  rw [h1]

/-- A step that changes the registers of units alone. -/
theorem UpkeepFrame.of_units (h : t = { s with free := t.free, hif := t.hif, kvc := t.kvc, fab := t.fab, fls := t.fls,
                                               memc := t.memc, clusters := t.clusters }) : UpkeepFrame s t := by
  refine ⟨?_, ?_, ?_, ?_, fun a _ => ?_⟩ <;> rw [h]

theorem UpkeepFrame.then_alarm (h : UpkeepFrame s t) (n arg : Nat) : UpkeepFrame s (alarm t n arg) :=
  h.trans (.of_store (alarm_store _ _ _ _))

theorem UpkeepFrame.then_ctrSat (h : UpkeepFrame s t) (off : Nat) (old new : Word) : UpkeepFrame s (ctrSat off old new t) :=
  h.trans (.of_store (ctrSat_store _ _ _ _ _))

end

theorem opKvcPool_upkeep (pool word : Nat) (value : Dword) (s : State) : UpkeepFrame s (opKvcPool pool word value s) := by
  unfold opKvcPool
  dsimp only
  split
  · exact UpkeepFrame.refl s
  · split
    · exact .of_units rfl
    · split
      · exact .of_units rfl
      · split <;> exact .of_units rfl

theorem countRouter_upkeep (s : State) (d off k : Nat) (get : RouterCtr → Word) (put : RouterCtr → Word → RouterCtr) :
    UpkeepFrame s (countRouter s d off k get put) :=
  UpkeepFrame.then_ctrSat (.of_units rfl) _ _ _

theorem countPort_upkeep (s : State) (p off : Nat) (get : Fab → List Word) (put : Fab → List Word → Fab) :
    UpkeepFrame s (countPort s p off get put) :=
  UpkeepFrame.then_ctrSat (.of_units rfl) _ _ _

theorem wearMore_upkeep (s : State) (c : Nat) : UpkeepFrame s (wearMore s c) := by
  unfold wearMore
  dsimp only
  split
  · exact UpkeepFrame.then_alarm (.of_units rfl) _ _
  · exact .of_units rfl

theorem moreProgrammed_upkeep (s : State) : UpkeepFrame s (moreProgrammed s) := .of_units rfl

theorem moreReloc_upkeep (s : State) (c : Nat) : UpkeepFrame s (moreReloc s c) := UpkeepFrame.then_ctrSat (.of_units rfl) _ _ _

theorem enterReadonly_upkeep (s : State) (c : Nat) : UpkeepFrame s (enterReadonly s c) := by
  unfold enterReadonly
  split
  · exact UpkeepFrame.refl s
  · exact UpkeepFrame.then_alarm (.of_units rfl) _ _

theorem noRoute_upkeep (s : State) (die tbl idx : Nat) : UpkeepFrame s (noRoute s die tbl idx) := by
  have hc : UpkeepFrame s (countNoRoute s die) := countRouter_upkeep _ _ _ _ _ _
  unfold noRoute
  dsimp only
  split
  · exact hc
  · exact (hc.trans (.of_units rfl)).then_alarm _ _

theorem dlFabric_upkeep (s : State) (die l : Nat) (p : Packet) : UpkeepFrame s (dlFabric s die l p) := by
  unfold dlFabric
  split
  · exact UpkeepFrame.refl s
  · exact .of_units rfl

theorem routePacket_upkeep (s : State) (die : Nat) (p : Packet) : UpkeepFrame s (routePacket s die p) := by
  unfold routePacket
  dsimp only
  split
  · exact countRouter_upkeep _ _ _ _ _ _
  split
  · exact .of_units rfl
  split
  · exact countRouter_upkeep _ _ _ _ _ _
  split
  · exact .of_units rfl
  split
  · exact (countRouter_upkeep _ _ _ _ _ _).then_alarm _ _
  split
  · exact noRoute_upkeep _ _ _ _
  · exact (dlFabric_upkeep _ _ _ _).trans (.of_units rfl)

theorem returnCredits_upkeep (s : State) (p : Packet) (src : Option Nat) : UpkeepFrame s (returnCredits s p src) := by
  unfold returnCredits
  split
  · exact UpkeepFrame.refl s
  · exact .of_units rfl

theorem upsetStack_store (P : Nat → Prop) (s : State) (stack : Nat) : StoreFrame P s (upsetStack s stack) := by
  unfold upsetStack
  dsimp only
  refine StoreFrame.trans (foldl_store _ (fun t p _ => ?_) s) (.of_marks rfl)
  split
  · exact .of_marks rfl
  · split
    · exact StoreFrame.refl P t
    · exact .of_marks rfl

/-- The commands that store nothing themselves (R410). -/
theorem execKvcPool_upkeep {req : Requester} {pool word : Nat} {value : Dword} {s t : State}
    (h : execKvcPool req pool word value s = .next t) : UpkeepFrame s t := by
  unfold execKvcPool at h
  split at h
  · cases h
  · split at h
    · cases h
    · exact whenUp_elim (P := UpkeepFrame s) h (UpkeepFrame.refl s) (opKvcPool_upkeep _ _ _ _)

theorem execPcieLinkRetrain_upkeep {rate lanes : Nat} {flit : Bool} {s t : State}
    (h : execPcieLinkRetrain rate lanes flit s = .next t) : UpkeepFrame s t := by
  unfold execPcieLinkRetrain at h
  split at h <;> cases h
  · exact UpkeepFrame.then_alarm (.of_units rfl) _ _
  · exact UpkeepFrame.refl s

theorem execFabStallExpiry_upkeep {link vc : Nat} {dl : Bool} {s t : State} (h : execFabStallExpiry link vc dl s = .next t) :
    UpkeepFrame s t := by
  refine onUnit_elim (P := UpkeepFrame s) h ?_
  dsimp only
  split
  · exact (UpkeepFrame.trans (.of_units rfl) (countRouter_upkeep _ _ _ _ _ _)).then_alarm _ _
  · exact UpkeepFrame.refl s

theorem execLinkRestart_upkeep {link : Nat} {s t : State} (h : execLinkRestart link s = .next t) : UpkeepFrame s t := by
  refine onUnit_elim (P := UpkeepFrame s) h ?_
  dsimp only
  split
  · exact UpkeepFrame.trans (.of_units rfl) (countPort_upkeep _ _ _ _ _)
  · exact UpkeepFrame.refl s

theorem execFlashUpkeep_upkeep {channel : Nat} {what : Upkeep} {s t : State} (h : execFlashUpkeep channel what s = .next t) :
    UpkeepFrame s t := by
  refine onUnit_elim (P := UpkeepFrame s) h ?_
  split
  · exact UpkeepFrame.refl s
  · cases what with
    | relocate => exact ((moreReloc_upkeep _ _).trans (moreProgrammed_upkeep _)).trans (wearMore_upkeep _ _)
    | collect => exact (moreProgrammed_upkeep _).trans (wearMore_upkeep _ _)
    | refresh => exact (moreProgrammed_upkeep _).trans (wearMore_upkeep _ _)
    | badBlock => exact UpkeepFrame.trans (.of_units rfl) (enterReadonly_upkeep _ _)

theorem execPacketForward_upkeep {die : Nat} {s t : State} (h : execPacketForward die s = .next t) : UpkeepFrame s t := by
  refine onUnit_elim (P := UpkeepFrame s) h ?_
  split
  · exact UpkeepFrame.refl s
  · split
    · exact UpkeepFrame.refl s
    · exact (UpkeepFrame.trans (.of_units rfl) (returnCredits_upkeep _ _ _)).trans (routePacket_upkeep _ _ _)

theorem execPatrolScrub_upkeep {stack : Nat} {s t : State} (h : execPatrolScrub stack s = .next t) : UpkeepFrame s t := by
  refine onUnit_elim (P := UpkeepFrame s) h ?_
  dsimp only
  split
  · exact .of_store ((upsetStack_store _ _ _).trans (foldl_store _ (fun t k _ => readSector_store _ t k) _))
  · exact UpkeepFrame.refl s

/-- What O55 says of a step that stores nothing itself. -/
theorem UpkeepFrame.untouched {s t : State} (h : UpkeepFrame s t) :
    (∀ a, ¬ InEventRing s a → cellGet t.mem a = cellGet s.mem a) ∧
      t.hostMem = s.hostMem ∧ t.refs = s.refs ∧ t.graphs = s.graphs ∧ t.pwr = s.pwr ∧ t.thm = s.thm ∧ t.sec = s.sec ∧
      t.cores = s.cores ∧ t.sfu = s.sfu ∧ t.ssa = s.ssa ∧ t.chn = s.chn ∧ t.col = s.col ∧ t.groups = s.groups ∧ t.vse = s.vse := by
  obtain ⟨h1, -, -, -, h5⟩ := h
  refine ⟨h5, ?_, ?_, ?_, ?_, ?_, ?_, ?_, ?_, ?_, ?_, ?_, ?_, ?_⟩ <;> rw [h1]

/-- What O55 says of a store; the vector search may keep its answer. -/
theorem StoreFrame.untouched {s t u : State} {a n : Nat} (h : StoreFrame (Span a n) s t) (hu : u = { t with vse := u.vse }) :
    (∀ d, ¬ InEventRing s d → (∀ i < n, d ≠ directD (a + i)) → cellGet u.mem d = cellGet s.mem d) ∧
      u.hostMem = s.hostMem ∧ u.refs = s.refs ∧ u.graphs = s.graphs ∧ u.pwr = s.pwr ∧ u.thm = s.thm ∧ u.sec = s.sec ∧
      u.cores = s.cores ∧ u.sfu = s.sfu ∧ u.kvc = s.kvc ∧ u.ssa = s.ssa ∧ u.chn = s.chn ∧ u.col = s.col ∧
      u.groups = s.groups ∧ u.fab = s.fab ∧ u.fls = s.fls := by
  obtain ⟨h1, -, -, -, h5⟩ := h
  rw [hu]
  refine ⟨fun d hd hn => h5 d hd fun ⟨i, hi, e⟩ => hn i hi e, ?_, ?_, ?_, ?_, ?_, ?_, ?_, ?_, ?_, ?_, ?_, ?_, ?_, ?_, ?_⟩ <;>
    (dsimp only; rw [h1])

/-- A compare-and-swap stores its word alone, and its answer is the vector search's. -/
theorem execCompareAndSwap_store {channel addr : Nat} {expected new : Word} {s t : State}
    (h : execCompareAndSwap channel addr expected new s = .next t) :
    ∃ u, StoreFrame (Span addr 4) s u ∧ t = { u with vse := t.vse } := by
  refine onUnit_elim (P := fun t => ∃ u, StoreFrame (Span addr 4) s u ∧ t = { u with vse := t.vse }) h ?_
  split
  · exact ⟨_, adderRun_store _ _ _ _, rfl⟩
  · exact ⟨s, StoreFrame.refl _ s, rfl⟩

/-- Settles O55: the frames of the seven upkeep commands and of the three stores. -/
theorem storesStayInTheirTargets : Obligations.StoresStayInTheirTargets := by
  constructor
  · intro c s t h
    cases c
    case pcieLinkRetrain => exact (execPcieLinkRetrain_upkeep h).untouched
    case kvcPool req _ _ _ => exact (execKvcPool_upkeep (req := req) h).untouched
    case fabStallExpiry => exact (execFabStallExpiry_upkeep h).untouched
    case linkRestart => exact (execLinkRestart_upkeep h).untouched
    case flashUpkeep => exact (execFlashUpkeep_upkeep h).untouched
    case packetForward => exact (execPacketForward_upkeep h).untouched
    case patrolScrub => exact (execPatrolScrub_upkeep h).untouched
    all_goals trivial
  · intro c a n s t h hc
    cases c
    case amo =>
      obtain ⟨rfl, rfl⟩ := hc
      exact (execAmo_store h).untouched rfl
    case compareAndSwap =>
      obtain ⟨rfl, rfl⟩ := hc
      obtain ⟨u, hu, ht⟩ := execCompareAndSwap_store h
      exact hu.untouched ht
    case updateAliasWrite =>
      obtain ⟨rfl, rfl⟩ := hc
      exact (execUpdateAliasWrite_store h).untouched rfl
    all_goals exact hc.elim

end Sys2Proof.Machine
end

