-- ==== Sys2Proof/Proofs/Completions.lean ====
section
/-! SUPPORT. Completions: the slot one is written to, and what commands that complete leave of host memory. -/

namespace Sys2Proof.Machine

/-! ### One completion -/

theorem cqBytes_length (x : Ring) (c : CqEntry) : (cqBytes x c).length = 16 := by
  simp [cqBytes, leBytes_length]

theorem signalVec_rings (s : State) (fn v : Nat) : (signalVec s fn v).hif.rings = s.hif.rings := by
  unfold signalVec
  dsimp only
  split <;> rfl

theorem signalVec_hostMem (s : State) (fn v : Nat) : (signalVec s fn v).hostMem = s.hostMem := by
  rw [signalVec_hif]

theorem ringSignal_hostMem (s : State) (fn r : Nat) : (ringSignal s fn r).hostMem = s.hostMem := by
  rw [ringSignal_hif]

/-- The rings of a state, each changed by a function that keeps its place. -/
theorem find_map_ring (l : List Ring) (fn r fn' r' : Nat) (f : Ring → Ring) (hf : ∀ x, (f x).fn = x.fn ∧ (f x).ring = x.ring) :
    (l.map fun x => if x.fn == fn && x.ring == r then f x else x).find? (fun x => x.fn == fn' && x.ring == r')
      = (l.find? fun x => x.fn == fn' && x.ring == r').map fun x => if x.fn == fn && x.ring == r then f x else x := by
  rw [List.find?_map]
  congr 1
  refine congrArg (fun p => List.find? p l) (funext fun x => ?_)
  simp only [Function.comp_apply]
  split
  · rw [(hf x).1, (hf x).2]
  · rfl

/-- What a change of one ring pair leaves of the ring it names. -/
theorem findRing_modRing (s : State) (fn r : Nat) (f : Ring → Ring) (hf : ∀ x, (f x).fn = x.fn ∧ (f x).ring = x.ring) :
    findRing (modRing s fn r f) fn r = (findRing s fn r).map f := by
  unfold findRing modRing
  rw [find_map_ring _ _ _ _ _ _ hf]
  cases h : s.hif.rings.find? fun x => x.fn == fn && x.ring == r with
  | none => rfl
  | some x => simpa using fun hx => absurd (List.find?_some h) (by simpa using hx)

theorem findRing_place {s : State} {fn r : Nat} {x : Ring} (h : findRing s fn r = some x) :
    x ∈ s.hif.rings ∧ x.fn = fn ∧ x.ring = r := by
  have hp := List.find?_some h
  simp only [Bool.and_eq_true, beq_iff_eq] at hp
  exact ⟨List.mem_of_find?_eq_some h, hp⟩

theorem findRing_signalVec (s : State) (fn v fn' r' : Nat) : findRing (signalVec s fn v) fn' r' = findRing s fn' r' := by
  unfold findRing
  rw [signalVec_rings]

/-- Where the next completion of a ring pair is written. -/
def cqSlot (x : Ring) : Nat := x.cqBase + 16 * (x.written.toNat % 2 ^ x.cqExp)

/-- A completion's bytes are written and counted, before any interrupt. -/
def entryWritten (s : State) (x : Ring) (c : CqEntry) : State :=
  modRing (hostPoke s (cqSlot x) (cqBytes x c)) x.fn x.ring fun y =>
    { y with written := y.written + 1, unsig := y.unsig + 1, unsigAt := some (y.unsigAt.getD s.now) }

/-- A completion is written and counted, and at most its interrupt follows (R375, R380). -/
theorem ringWrite_cases (s : State) (x : Ring) (c : CqEntry) :
    ringWrite s x c = entryWritten s x c ∨ ringWrite s x c = ringSignal (entryWritten s x c) x.fn x.ring := by
  unfold ringWrite
  dsimp only
  split
  · exact .inl rfl
  · split
    · exact .inr rfl
    · exact .inl rfl

theorem ringWrite_hostMem (s : State) (x : Ring) (c : CqEntry) :
    (ringWrite s x c).hostMem = (hostPoke s (cqSlot x) (cqBytes x c)).hostMem := by
  rcases ringWrite_cases s x c with e | e <;> rw [e]
  · rfl
  · rw [ringSignal_hostMem]; rfl

/-- Only host memory and the host interface's registers differ. -/
def HostOnly (s t : State) : Prop := t = { s with hostMem := t.hostMem, hif := t.hif }

theorem HostOnly.then_hif {s t u : State} (h : HostOnly s t) (k : HifOnly t u) : HostOnly s u := by
  unfold HostOnly HifOnly at *; rw [k, h]

theorem HostOnly.then_host {s t u : State} (h : HifOnly s t) (k : HostOnly t u) : HostOnly s u := by
  unfold HostOnly HifOnly at *; rw [k, h]

theorem ringWrite_hostOnly (s : State) (x : Ring) (c : CqEntry) : HostOnly s (ringWrite s x c) := by
  have hw : HostOnly s (entryWritten s x c) := rfl
  rcases ringWrite_cases s x c with e | e <;> rw [e]
  · exact hw
  · exact hw.then_hif (ringSignal_hif _ _ _)

theorem findRing_entryWritten {s : State} {x : Ring} (c : CqEntry) (h : findRing s x.fn x.ring = some x) :
    findRing (entryWritten s x c) x.fn x.ring
      = some { x with written := x.written + 1, unsig := x.unsig + 1, unsigAt := some (x.unsigAt.getD s.now) } := by
  refine (findRing_modRing _ _ _ (fun y : Ring => { y with
    written := y.written + 1, unsig := y.unsig + 1, unsigAt := some (y.unsigAt.getD s.now) }) fun _ => ⟨rfl, rfl⟩).trans ?_
  rw [show findRing (hostPoke s _ _) x.fn x.ring = some x from h]
  rfl

theorem findRing_ringSignal {s : State} {fn r : Nat} {x : Ring} (h : findRing s fn r = some x) :
    findRing (ringSignal s fn r) fn r = some { x with unsig := 0, unsigAt := none } := by
  unfold ringSignal
  rw [h]
  dsimp only
  rw [findRing_signalVec, findRing_modRing _ _ _ (fun y : Ring => { y with unsig := 0, unsigAt := none }) fun _ => ⟨rfl, rfl⟩, h]
  rfl

/-- The ring pair's counts once an entry is written: only `written` and the moderation's counts move. -/
theorem ringWrite_counts {s : State} {fn r : Nat} {x : Ring} (c : CqEntry) (h : findRing s fn r = some x) :
    (findRing (ringWrite s x c) fn r).map (fun y => (y.written, y.head, y.tail, y.hhead))
      = some (x.written + 1, x.head, x.tail, x.hhead) := by
  obtain ⟨-, rfl, rfl⟩ := findRing_place h
  have hw := findRing_entryWritten c h
  rcases ringWrite_cases s x c with e | e <;> rw [e]
  · rw [hw]; rfl
  · rw [findRing_ringSignal hw]; rfl

/-! ### Completions that are owed -/

theorem complete_of_room {s : State} {h : HostHdr} {st : Status} {res : Nat} {x : Ring} (hq : h.quiet = false ∨ statusFine st = false)
    (hr : findRing s h.fn h.ring = some x) (hb : x.backlog = []) (hf : cqFull x = false) (hs : resyncing s h.fn = false) :
    complete s h st res = ringWrite s x ⟨h.user, st, false, 0, 0, BitVec.ofNat 16 res, x.head⟩ := by
  have hg : (h.quiet && statusFine st) = false := by rcases hq with hq | hq <;> simp [hq]
  simp [complete, postEntry, hg, hr, hb, hf, hs]

/-- Settles O10: a completion that is owed reaches `ringWrite`, which pokes one slot. -/
theorem completionWritesItsSlot : Obligations.CompletionWritesItsSlot := by
  refine ⟨fun s h st res x hwf hq hr hb hf hs => ?_, fun s h res hq => ?_⟩
  · intro slot e
    rw [complete_of_room hq hr hb hf hs]
    have hlen := cqBytes_length x ⟨h.user, st, false, 0, 0, BitVec.ofNat 16 res, x.head⟩
    have he : cqBytes x ⟨h.user, st, false, 0, 0, BitVec.ofNat 16 res, x.head⟩ = e := by
      simp [cqBytes, e, flag]
    refine ⟨fun i hi => ?_, fun a ha => ?_, ?_, ringWrite_counts _ hr⟩
    · rw [ringWrite_hostMem, ← he]
      exact hostPoke_same s (cqSlot x) _ hwf i (by omega)
    · rw [ringWrite_hostMem, hostPoke_other _ _ _ _ (by rw [hlen]; exact ha)]
    · rw [ringWrite_hostOnly]
  · constructor <;> simp [complete, hq, statusFine]

/-! ### What completions leave of host memory -/

/-- A host address lies in no completion queue of these ring pairs. -/
def OffQueues (l : List Ring) (a : Nat) : Prop := ∀ r ∈ l, a < r.cqBase ∨ r.cqBase + 16 * 2 ^ r.cqExp ≤ a

/-- Every completion queue of `t` is one of `s`. -/
def QueuesWithin (s t : State) : Prop := ∀ r ∈ t.hif.rings, ∃ q ∈ s.hif.rings, q.cqBase = r.cqBase ∧ q.cqExp = r.cqExp

/-- A step writes host memory in completion queues of `s` alone, and changes no more than ring, work-counter and table registers. -/
def WritesQueues (s t : State) : Prop :=
  t = { s with hostMem := t.hostMem, hif := t.hif, clusters := t.clusters, sfu := t.sfu } ∧
    ∀ a, OffQueues s.hif.rings a → cellGet t.hostMem a = cellGet s.hostMem a

theorem OffQueues.mono {s t : State} {a : Nat} (h : OffQueues s.hif.rings a) (hw : QueuesWithin s t) : OffQueues t.hif.rings a := by
  intro r hr
  obtain ⟨q, hq, hb, he⟩ := hw r hr
  rw [← hb, ← he]
  exact h q hq

theorem QueuesWithin.refl (s : State) : QueuesWithin s s := fun r hr => ⟨r, hr, rfl, rfl⟩

theorem QueuesWithin.trans {s t u : State} (h : QueuesWithin s t) (k : QueuesWithin t u) : QueuesWithin s u := by
  intro r hr
  obtain ⟨q, hq, hb, he⟩ := k r hr
  obtain ⟨p, hp, hb', he'⟩ := h q hq
  exact ⟨p, hp, hb'.trans hb, he'.trans he⟩

theorem QueuesWithin.of_subset {s t : State} (h : ∀ r ∈ t.hif.rings, r ∈ s.hif.rings) : QueuesWithin s t :=
  fun r hr => ⟨r, h r hr, rfl, rfl⟩

theorem WritesQueues.refl (s : State) : WritesQueues s s := ⟨rfl, fun _ _ => rfl⟩

theorem WritesQueues.trans {s t u : State} (h : WritesQueues s t) (hw : QueuesWithin s t) (k : WritesQueues t u) :
    WritesQueues s u := by
  refine ⟨?_, fun a ha => (k.2 a (ha.mono hw)).trans (h.2 a ha)⟩
  rw [k.1, h.1]

theorem WritesQueues.of_hostMem_eq {s t : State} (h : t = { s with hif := t.hif, clusters := t.clusters, sfu := t.sfu }) :
    WritesQueues s t := by
  refine ⟨?_, fun a _ => ?_⟩ <;> rw [h]

/-- The completion queues of `t` are those of `s`, in order. -/
def SameQueues (s t : State) : Prop :=
  t.hif.rings.map (fun r => (r.cqBase, r.cqExp)) = s.hif.rings.map fun r => (r.cqBase, r.cqExp)

theorem SameQueues.within {s t : State} (h : SameQueues s t) : QueuesWithin s t := by
  intro r hr
  have hm : (r.cqBase, r.cqExp) ∈ s.hif.rings.map fun r => (r.cqBase, r.cqExp) := h ▸ List.mem_map_of_mem hr
  obtain ⟨q, hq, e⟩ := List.mem_map.mp hm
  rw [Prod.mk.injEq] at e
  exact ⟨q, hq, e⟩

theorem SameQueues.symm {s t : State} (h : SameQueues s t) : SameQueues t s := Eq.symm h

theorem SameQueues.trans {s t u : State} (h : SameQueues s t) (k : SameQueues t u) : SameQueues s u := Eq.trans k h

theorem modRing_sameQueues (s : State) (fn r : Nat) (f : Ring → Ring) (hf : ∀ x, (f x).cqBase = x.cqBase ∧ (f x).cqExp = x.cqExp) :
    SameQueues s (modRing s fn r f) := by
  unfold SameQueues modRing
  rw [List.map_map]
  refine List.map_congr_left fun x _ => ?_
  rw [Function.comp_apply]
  split
  · rw [(hf x).1, (hf x).2]
  · rfl

theorem ringSignal_sameQueues (s : State) (fn r : Nat) : SameQueues s (ringSignal s fn r) := by
  unfold ringSignal
  split
  · rfl
  · refine (modRing_sameQueues s fn r (fun y => { y with unsig := 0, unsigAt := none }) fun _ => ⟨rfl, rfl⟩).trans ?_
    unfold SameQueues
    rw [signalVec_rings]

theorem ringWrite_sameQueues (s : State) (x : Ring) (c : CqEntry) : SameQueues s (ringWrite s x c) := by
  have hw : SameQueues s (entryWritten s x c) :=
    modRing_sameQueues (hostPoke s _ _) x.fn x.ring
      (fun y => { y with written := y.written + 1, unsig := y.unsig + 1, unsigAt := some (y.unsigAt.getD s.now) })
      fun _ => ⟨rfl, rfl⟩
  rcases ringWrite_cases s x c with e | e <;> rw [e]
  · exact hw
  · exact hw.trans (ringSignal_sameQueues _ _ _)

theorem ringWrite_writesQueues {s : State} {x : Ring} (c : CqEntry) (hx : x ∈ s.hif.rings) : WritesQueues s (ringWrite s x c) := by
  refine ⟨?_, fun a ha => ?_⟩
  · rw [ringWrite_hostOnly]
  · rw [ringWrite_hostMem]
    refine hostPoke_other _ _ _ _ ?_
    have hm : x.written.toNat % 2 ^ x.cqExp < 2 ^ x.cqExp := Nat.mod_lt _ (Nat.two_pow_pos _)
    have hlen := cqBytes_length x c
    unfold cqSlot
    rcases ha x hx with h | h <;> omega

theorem postEntry_writesQueues (s : State) (fn r : Nat) (c : CqEntry) :
    WritesQueues s (postEntry s fn r c) ∧ SameQueues s (postEntry s fn r c) := by
  unfold postEntry
  split
  · exact ⟨WritesQueues.refl s, rfl⟩
  · rename_i x hx
    split
    · exact ⟨ringWrite_writesQueues c (findRing_place hx).1, ringWrite_sameQueues _ _ _⟩
    · exact ⟨WritesQueues.of_hostMem_eq rfl, modRing_sameQueues _ _ _ _ fun _ => ⟨rfl, rfl⟩⟩

theorem complete_writesQueues (s : State) (h : HostHdr) (st : Status) (res : Nat) :
    WritesQueues s (complete s h st res) ∧ SameQueues s (complete s h st res) := by
  unfold complete
  split
  · exact ⟨WritesQueues.refl s, rfl⟩
  · exact postEntry_writesQueues _ _ _ _

theorem postEntry_hostOnly (s : State) (fn r : Nat) (c : CqEntry) : HostOnly s (postEntry s fn r c) := by
  unfold postEntry
  split
  · rfl
  · split
    · exact ringWrite_hostOnly _ _ _
    · rfl

theorem complete_hostOnly (s : State) (h : HostHdr) (st : Status) (res : Nat) : HostOnly s (complete s h st res) := by
  unfold complete
  split
  · rfl
  · exact postEntry_hostOnly _ _ _ _

/-- A step that ends in a completion, on a state whose host memory and queues are those of `s`. -/
theorem complete_after {s t : State} (ht : t = { s with hif := t.hif, clusters := t.clusters, sfu := t.sfu }) (hw : QueuesWithin s t)
    (h : HostHdr) (st : Status) (res : Nat) :
    WritesQueues s (complete t h st res) ∧ QueuesWithin s (complete t h st res) :=
  ⟨(WritesQueues.of_hostMem_eq ht).trans hw (complete_writesQueues t h st res).1, hw.trans (complete_writesQueues t h st res).2.within⟩

theorem reapRing_writesQueues (s : State) (x : Ring) : WritesQueues s (reapRing s x) ∧ QueuesWithin s (reapRing s x) := by
  unfold reapRing
  split
  · exact ⟨WritesQueues.refl s, QueuesWithin.refl s⟩
  · split
    · exact ⟨WritesQueues.refl s, QueuesWithin.refl s⟩
    · split
      · exact ⟨WritesQueues.refl s, QueuesWithin.refl s⟩
      · exact complete_after rfl (QueuesWithin.of_subset fun r hr => (List.mem_filter.mp hr).1) _ _ _

theorem reapAll_writesQueues (l : List Ring) :
    ∀ s : State, WritesQueues s (l.foldl reapRing s) ∧ QueuesWithin s (l.foldl reapRing s) := by
  induction l with
  | nil => exact fun s => ⟨WritesQueues.refl s, QueuesWithin.refl s⟩
  | cons x l ih =>
    intro s
    obtain ⟨hx, wx⟩ := reapRing_writesQueues s x
    obtain ⟨hl, wl⟩ := ih (reapRing s x)
    exact ⟨hx.trans wx hl, wx.trans wl⟩

theorem applyWaitingRing0_hif (l : List Nat) :
    ∀ s : State, HifOnly s (l.foldl (fun t f => if ringBusy t f 0 then t else applyRing0 t f) s) := by
  induction l with
  | nil => exact fun _ => rfl
  | cons f l ih =>
    refine fun s => HifOnly.trans (t := if ringBusy s f 0 then s else applyRing0 s f) ?_ (ih _)
    split <;> rfl

/-- What waited for commands to end writes the queues of ring pairs it removes, and others' (R370, R444). -/
theorem afterCmd_writesQueues (s : State) : WritesQueues s (afterCmd s) := by
  obtain ⟨h, w⟩ := reapAll_writesQueues s.hif.rings s
  refine h.trans w (WritesQueues.of_hostMem_eq ?_)
  unfold afterCmd
  dsimp only
  rw [applyWaitingRing0_hif]

theorem finishCmd_writesQueues (s : State) (c : Nat × HostHdr) (st : Status) : WritesQueues s (finishCmd s c st) := by
  unfold finishCmd
  split
  · obtain ⟨h, w⟩ := complete_after (s := s) (t := dropCmd s c.1) rfl (QueuesWithin.of_subset fun _ hr => hr) c.2 st 0
    exact h.trans w (afterCmd_writesQueues _)
  · exact WritesQueues.refl s

/-! ### Ring, table and counter commands -/

theorem wcReset_writesQueues (s : State) (c : Nat) (base limit : Word) (cmd : Option (Nat × HostHdr)) :
    WritesQueues s (wcReset s c base limit cmd) := by
  have hm (f : WorkCtr → WorkCtr) : WritesQueues s (modWc s c f) := WritesQueues.of_hostMem_eq rfl
  unfold wcReset
  dsimp only
  split
  · unfold applyReset
    dsimp only
    split
    · exact (hm _).trans (QueuesWithin.of_subset fun _ hr => hr) (finishCmd_writesQueues _ _ _)
    · exact hm _
  · exact hm _

theorem opWcReset_writesQueues (h : HostHdr) (cluster : Nat) (base limit : Word) (s : State) :
    WritesQueues s (opWcReset h cluster base limit s) := by
  unfold opWcReset
  split
  · exact (complete_writesQueues _ _ _ _).1
  · exact WritesQueues.trans (t := (startCmd s h 0x11).1) (WritesQueues.of_hostMem_eq rfl) (QueuesWithin.of_subset fun _ hr => hr)
      (wcReset_writesQueues _ _ _ _ _)

theorem opTableLoad_writesQueues (h : HostHdr) (image : AddrArg) (segCount : Nat) (mask : Half) (block : Bool) (s : State) :
    WritesQueues s (opTableLoad h image segCount mask block s) := by
  unfold opTableLoad
  dsimp only
  split
  · exact (complete_writesQueues _ _ _ _).1
  · split
    · exact WritesQueues.of_hostMem_eq rfl
    · split
      · exact WritesQueues.of_hostMem_eq rfl
      · exact (complete_writesQueues _ _ _ _).1

theorem opRingDelete_writesQueues (h : HostHdr) (ring : Nat) (s : State) : WritesQueues s (opRingDelete h ring s) := by
  unfold opRingDelete
  split
  · exact (complete_writesQueues _ _ _ _).1
  · split
    · exact (complete_writesQueues _ _ _ _).1
    · refine WritesQueues.trans (t := modRing (startCmd s h 0x41).1 h.fn ring fun y =>
        { y with deleting := some ((startCmd s h 0x41).2, h) }) (WritesQueues.of_hostMem_eq rfl) ?_ (afterCmd_writesQueues _)
      exact (modRing_sameQueues s h.fn ring (fun y => { y with deleting := some ((startCmd s h 0x41).2, h) })
        fun _ => ⟨rfl, rfl⟩).within

/-- RING_CREATE's completion goes to a queue of the ring pairs with the new one, all of which stay. -/
theorem opRingCreate_writes (h : HostHdr) (desc : BitVec 256) (s : State) :
    HostOnly s (opRingCreate h desc s) ∧
      ∀ a, OffQueues (s.hif.rings ++ (opRingCreate h desc s).hif.rings) a →
        cellGet (opRingCreate h desc s).hostMem a = cellGet s.hostMem a := by
  unfold opRingCreate
  dsimp only
  split
  · generalize ht : ({ s with hif := { s.hif with
        rings := s.hif.rings ++ [ringOf h.fn (bits desc.toNat 192 16) desc.toNat] } } : State) = t
    have hs : HifOnly s t := ht ▸ rfl
    have hm : t.hostMem = s.hostMem := ht ▸ rfl
    obtain ⟨⟨-, hc⟩, hq⟩ := complete_writesQueues t h .ok 0
    refine ⟨HostOnly.then_host hs (complete_hostOnly _ _ _ _), fun a ha => (hc a ?_).trans (by rw [hm])⟩
    exact OffQueues.mono (s := complete t h .ok 0) (fun r hr => ha r (List.mem_append_right _ hr)) hq.symm.within
  · exact ⟨complete_hostOnly _ _ _ _, fun a ha =>
      (complete_writesQueues s h .badDescriptor 0).1.2 a fun r hr => ha r (List.mem_append_left _ hr)⟩

/-! ### The mirror -/

theorem ringRead_store (P : Nat → Prop) (s : State) (a : Nat) : StoreFrame P s (ringRead s a).1 := by
  have hr := memRead_store P s a 32
  unfold ringRead
  dsimp only
  split
  · exact hr
  · exact hr.trans (.of_marks rfl)

theorem memRead_ok_length {s : State} {a n : Nat} {b : Bytes} (h : (memRead s a n).2 = .ok b) : b.length = n := by
  unfold memRead at h
  dsimp only at h
  split at h
  · split at h <;> cases h
    simp [peek]
  · cases h

theorem ringRead_length (s : State) (a : Nat) : (ringRead s a).2.length = 32 := by
  unfold ringRead
  dsimp only
  split
  · rename_i b hb
    exact memRead_ok_length hb
  · simp [openBytes]

/-- Where the mirror copies next in host memory (R412). -/
def mirrorPos (s : State) : Nat :=
  match s.tel.mirQueue with
  | e :: _ => s.tel.mirBase + 32 * e.1
  | [] => s.tel.trcMir + 32 * trcOldest s.tel

/-- What one copy of the mirror may change. -/
def MirrorFrame (s t : State) : Prop :=
  t = { s with hostMem := t.hostMem, mem := t.mem, poison := t.poison, soft := t.soft, free := t.free, hif := t.hif,
               tel := t.tel, memc := t.memc, clusters := t.clusters } ∧
    (∀ a, ¬ InEventRing s a → cellGet t.mem a = cellGet s.mem a) ∧
    ∀ a, (a < mirrorPos s ∨ mirrorPos s + 32 ≤ a) → cellGet t.hostMem a = cellGet s.hostMem a

theorem MirrorFrame.refl (s : State) : MirrorFrame s s := ⟨rfl, fun _ _ => rfl, fun _ _ => rfl⟩

/-- A record read from its ring and copied to the mirror's position. -/
theorem MirrorFrame.of_copy {s r : State} {b : Bytes} (f : Tel → Tel) (h : StoreFrame Nowhere s r) (hb : b.length = 32) :
    MirrorFrame s (modTel (hostPoke r (mirrorPos s) b) f) := by
  obtain ⟨h1, -, -, -, h5⟩ := h
  refine ⟨?_, fun a ha => h5 a ha id, fun a ha => ?_⟩
  · dsimp only [modTel, hostPoke]
    rw [h1]
  · refine (hostPoke_other r _ _ _ (by omega)).trans ?_
    rw [h1]

theorem mirrorCopy_frame (s : State) : MirrorFrame s (mirrorCopy s) := by
  unfold mirrorCopy
  split
  · rename_i e rest he
    have hpos : mirrorPos s = s.tel.mirBase + 32 * e.1 := by rw [mirrorPos, he]
    exact hpos ▸ MirrorFrame.of_copy _ (ringRead_store _ _ _) (ringRead_length _ _)
  · rename_i he
    have hpos : mirrorPos s = s.tel.trcMir + 32 * trcOldest s.tel := by rw [mirrorPos, he]
    split
    · exact MirrorFrame.refl s
    · dsimp only
      exact hpos ▸ MirrorFrame.of_copy _ (ringRead_store _ _ _) (ringRead_length _ _)

/-! ### O54 -/

/-- What O54 says of a command that completes. -/
def WritesQueuesOf (s t : State) : Prop :=
  t = { s with hostMem := t.hostMem, hif := t.hif, clusters := t.clusters, sfu := t.sfu } ∧
    ∀ a, OffQueues (s.hif.rings ++ t.hif.rings) a → cellGet t.hostMem a = cellGet s.hostMem a

theorem WritesQueues.of_rings {s t : State} (h : WritesQueues s t) : WritesQueuesOf s t :=
  ⟨h.1, fun a ha => h.2 a fun r hr => ha r (List.mem_append_left _ hr)⟩

/-- A host command writes queues alone when its own rules do. -/
theorem hostCmd_writesQueues {s t : State} {h : HostHdr} {c : CmdClass} {always : Bool} {run : State → State}
    (e : hostCmd s h c always run = .next t) (hr : WritesQueuesOf s (run s)) : WritesQueuesOf s t := by
  rcases hostCmd_cases _ _ _ _ _ _ e with rfl | rfl | ⟨st, rfl⟩
  · exact (WritesQueues.refl t).of_rings
  · exact hr
  · exact (complete_writesQueues _ _ _ _).1.of_rings

theorem opRingCreate_writesQueues (h : HostHdr) (desc : BitVec 256) (s : State) : WritesQueuesOf s (opRingCreate h desc s) := by
  obtain ⟨hf, hc⟩ := opRingCreate_writes h desc s
  refine ⟨?_, hc⟩
  rw [hf]

/-- Settles O54: every completion goes through `ringWrite`, and the mirror's copy through one `hostPoke`. -/
theorem completionsStayInTheirQueues : Obligations.CompletionsStayInTheirQueues := by
  intro c s t h
  cases c
  case tableLoad => exact hostCmd_writesQueues h (opTableLoad_writesQueues _ _ _ _ _ _).of_rings
  case wcReset => exact hostCmd_writesQueues h (opWcReset_writesQueues _ _ _ _ _).of_rings
  case cluWcReset => exact onUnit_elim (P := WritesQueuesOf s) h (wcReset_writesQueues _ _ _ _ _).of_rings
  case ringCreate => exact hostCmd_writesQueues h (opRingCreate_writesQueues _ _ _)
  case ringDelete => exact hostCmd_writesQueues h (opRingDelete_writesQueues _ _ _).of_rings
  case eventMirrorCopy => exact whenUp_elim (P := MirrorFrame s) h (MirrorFrame.refl s) (mirrorCopy_frame s)
  all_goals trivial

end Sys2Proof.Machine
end

