-- ==== Sys2Proof/Proofs/MemoryAccess.lean ====
section
/-! SUPPORT. Guarded reads and writes of module memory, byte by byte. -/

namespace Sys2Proof.Machine

/-! ### The address map over a run -/

theorem directD_hbm {a : Nat} (h : a < 0x006000000000) : directD a = a := by
  unfold directD direct hbmEnd
  rw [if_pos h]
  rfl

/-- The direct address of the `o`-th byte of a die's interleaved view (Table 14-1). -/
def wovenAt (die o : Nat) : Nat := (4 * die + o / 4096 % 4) * stackBytes + o / 4096 / 4 * 4096 + o % 4096

theorem directD_interleaved {a : Nat} (hl : 0x008000000000 ≤ a) (hh : a < 0x00E000000000) :
    directD a = wovenAt (if a < 0x00B000000000 then 0 else 1)
      (if (if a < 0x00B000000000 then 0 else 1) = 0 then a - 0x008000000000 else a - 0x00B000000000) := by
  unfold directD direct hbmEnd wovenAt
  rw [if_neg (Nat.not_lt.mpr (Nat.le_trans (by norm_num) hl)), if_pos ⟨hl, hh⟩, Option.getD_some]

/-- The interleaved views are one die's after the other's. -/
theorem directD_woven {a : Nat} (hl : 0x008000000000 ≤ a) (hh : a < 0x00E000000000) :
    ∃ die o : Nat, (die = 0 ∧ a < 0x00B000000000 ∧ o + 0x008000000000 = a ∨ die = 1 ∧ 0x00B000000000 ≤ a ∧ o + 0x00B000000000 = a) ∧
      directD a = wovenAt die o := by
  rw [directD_interleaved hl hh]
  by_cases hd : a < 0x00B000000000
  · exact ⟨0, a - 0x008000000000, by omega, by rw [if_pos hd, if_pos rfl]⟩
  · exact ⟨1, a - 0x00B000000000, by omega, by rw [if_neg hd, if_neg one_ne_zero]⟩

theorem directD_store {a : Nat} (hl : 0x080000000000 ≤ a) (hh : a < 0x080020000000)
    (h : (a - 0x080000000000) % 0x200000 < 0x180000) : directD a = a := by
  unfold directD direct hbmEnd
  rw [if_neg (by omega), if_neg (by omega), if_pos ⟨hl, hh⟩, if_pos h]
  rfl

theorem directD_sram {a : Nat} (hl : 0x080040000000 ≤ a) (hh : a < 0x080050000000)
    (h : (a - 0x080040000000) % 0x1000000 < 0xC00000) : directD a = a := by
  unfold directD direct hbmEnd
  rw [if_neg (by omega), if_neg (by omega), if_neg (by omega), if_pos ⟨hl, hh⟩, if_pos h]
  rfl

theorem directD_woven_inj {x y : Nat} (hx : 0x008000000000 ≤ x ∧ x < 0x00E000000000) (hy : 0x008000000000 ≤ y ∧ y < 0x00E000000000)
    (h : directD x = directD y) : x = y := by
  obtain ⟨p, o, hp, ho⟩ := directD_woven hx.1 hx.2
  obtain ⟨q, r, hq, hr⟩ := directD_woven hy.1 hy.2
  rw [ho, hr] at h
  unfold wovenAt stackBytes at h
  rcases hp with ⟨rfl, hp⟩ | ⟨rfl, hp⟩ <;> rcases hq with ⟨rfl, hq⟩ | ⟨rfl, hq⟩ <;> omega

/-- Within one run of existing addresses the map to direct addresses is one-to-one (R307). -/
theorem directD_inj {a e x y : Nat} (hr : runEnd a = some e) (hx : a ≤ x ∧ x < e) (hy : a ≤ y ∧ y < e)
    (h : directD x = directD y) : x = y := by
  unfold runEnd hbmEnd at hr
  split at hr
  · rw [Option.some.injEq] at hr
    rwa [directD_hbm (by omega), directD_hbm (by omega)] at h
  split at hr
  · rw [Option.some.injEq] at hr
    exact directD_woven_inj (by omega) (by omega) h
  split at hr
  · rw [Option.some.injEq] at hr
    rwa [directD_store (by omega) (by omega) (by omega), directD_store (by omega) (by omega) (by omega)] at h
  split at hr
  · rw [Option.some.injEq] at hr
    rwa [directD_sram (by omega) (by omega) (by omega), directD_sram (by omega) (by omega) (by omega)] at h
  · cases hr

/-- The bytes of a range that exists have direct addresses of their own. -/
theorem directD_span_inj {a n : Nat} (h : spanOk a n = true) (i : Nat) (hi : i < n) (j : Nat) (hj : j < n)
    (e : directD (a + i) = directD (a + j)) : i = j := by
  unfold spanOk at h
  split at h
  · rename_i x hx
    simp only [decide_eq_true_eq] at h
    have := directD_inj hx ⟨by omega, by omega⟩ ⟨by omega, by omega⟩ e
    omega
  · cases h

/-! ### Clean sectors -/

theorem sectorViews_sector {a n : Nat} {p : Nat × Nat} (h : p ∈ sectorViews a n) : p.2 ∈ sectorsOf a n := by
  obtain ⟨i, hi, rfl⟩ := List.mem_map.mp h
  exact List.mem_map.mpr ⟨i, hi, rfl⟩

theorem isBad_eq_false {s : State} {k : Nat} (h : k ∉ s.poison) : isBad s k = false := by
  simpa [isBad] using h

theorem filter_ne_of_notMem {l : List Nat} {k : Nat} (h : k ∉ l) : (l.filter fun x => !(x == k)) = l :=
  List.filter_eq_self.mpr fun x hx => by simpa using fun e : x = k => h (e ▸ hx)

/-- A sector without errors is written without a mark or a count. -/
theorem writeSector_clean (lo hi : Nat) (s : State) (p : Nat × Nat) (hp : p.2 ∉ s.poison) (hs : p.2 ∉ s.soft) :
    writeSector lo hi s p = s := by
  unfold writeSector
  dsimp only
  rw [isBad_eq_false hp, filter_ne_of_notMem hp, filter_ne_of_notMem hs]
  simp [hs]

theorem writeSectors_clean (lo hi : Nat) (s : State) (l : List (Nat × Nat)) (h : ∀ p ∈ l, p.2 ∉ s.poison ∧ p.2 ∉ s.soft) :
    l.foldl (writeSector lo hi) s = s := by
  induction l with
  | nil => rfl
  | cons p l ih =>
    obtain ⟨hp, hs⟩ := h p List.mem_cons_self
    rw [List.foldl_cons, writeSector_clean lo hi s p hp hs]
    exact ih fun q hq => h q (List.mem_cons_of_mem _ hq)

theorem writeSectors_of_clean {s : State} {a n : Nat} (h : Clean s a n) (lo hi : Nat) :
    (sectorViews a n).foldl (writeSector lo hi) s = s :=
  writeSectors_clean lo hi s _ fun _ hp => h _ (sectorViews_sector hp)

/-- A guarded write of clean sectors is the poke of its bytes. -/
theorem memWrite_of_clean {s : State} {a : Nat} {b : Bytes} (h : spanOk a b.length = true) (hc : Clean s a b.length) :
    memWrite s a b = some (poke s a b) := by
  unfold memWrite
  rw [if_pos h, writeSectors_of_clean hc]

theorem readSector_clean {s : State} {k : Nat} (hp : k ∉ s.poison) (hs : k ∉ s.soft) : readSector s k = s := by
  simp [readSector, isBad_eq_false hp, hs]

theorem readSectors_clean (s : State) (l : List Nat) (h : ∀ k ∈ l, k ∉ s.poison ∧ k ∉ s.soft) : l.foldl readSector s = s := by
  induction l with
  | nil => rfl
  | cons k l ih =>
    obtain ⟨hp, hs⟩ := h k List.mem_cons_self
    rw [List.foldl_cons, readSector_clean hp hs]
    exact ih fun q hq => h q (List.mem_cons_of_mem _ hq)

/-- A read of clean sectors delivers the bytes and changes nothing (R309). -/
theorem memRead_of_clean {s : State} {a n : Nat} (h : spanOk a n = true) (hc : Clean s a n) :
    memRead s a n = (s, .ok (peek s a n)) := by
  have hf : (sectorsOf a n).find? (isBad s) = none :=
    List.find?_eq_none.mpr fun k hk => by simpa using isBad_eq_false (hc k hk).1
  unfold memRead
  dsimp only
  rw [if_pos h, hf, readSectors_clean s _ hc]

/-- A read that meets an uncorrectable sector names one (R309). -/
theorem memRead_of_bad {s : State} {a n : Nat} (h : spanOk a n = true) (hb : ∃ k ∈ sectorsOf a n, k ∈ s.poison) :
    ∃ t k d, memRead s a n = (t, .bad k d) ∧ k / 32 ∈ s.poison := by
  obtain ⟨k, hk, hp⟩ := hb
  have hs : ((sectorsOf a n).find? (isBad s)).isSome = true :=
    List.find?_isSome.mpr ⟨k, hk, by simpa [isBad] using hp⟩
  obtain ⟨q, hq⟩ := Option.isSome_iff_exists.mp hs
  refine ⟨(sectorsOf a n).foldl readSector s, 32 * q, peek s a n, ?_, ?_⟩
  · unfold memRead
    dsimp only
    rw [if_pos h, hq]
  · rw [Nat.mul_div_cancel_left q (by decide)]
    simpa [isBad] using List.find?_some hq

/-- What a poke wrote is read back. -/
theorem peek_poke {s : State} {a : Nat} {b : Bytes} (hw : Memory.wf s.mem) (h : spanOk a b.length = true) :
    peek (poke s a b) a b.length = b := by
  refine List.ext_getElem (by simp [peek]) fun i _ hi => ?_
  have hg := cellGet_cellPutVia_same directD b s.mem a hw (directD_span_inj h) i hi
  simp only [peek, List.getElem_map, List.getElem_range, poke_mem]
  rw [hg, List.getD_eq_getElem _ _ hi]

/-! ### A whole sector -/

theorem sectorViews_whole {a : Nat} (h : a % 32 = 0) : sectorViews a 32 = [(a, directD a / 32)] := by
  simp [sectorViews, h]

/-- A write of a whole sector replaces its errors and touches no other mark (R310). -/
theorem memWrite_whole {s t : State} {a : Nat} {b : Bytes} (ha : a % 32 = 0) (hb : b.length = 32) (e : memWrite s a b = some t) :
    t = poke { s with poison := s.poison.filter fun k => !(k == directD a / 32),
                      soft := s.soft.filter fun k => !(k == directD a / 32) } a b := by
  unfold memWrite at e
  split at e
  · cases e
    rw [hb, sectorViews_whole ha]
    simp [writeSector]
  · cases e

/-- Settles O22. -/
theorem memoryAccessesComplete : Obligations.MemoryAccessesComplete := by
  refine ⟨fun s a b hw => ⟨fun h hc => ?_, fun h => ?_⟩, fun s a n h => ⟨memRead_of_clean h, memRead_of_bad h⟩,
    fun s a b t ha hb e => ?_⟩
  · exact ⟨_, memWrite_of_clean h hc, peek_poke hw h, poke_wf _ _ _ hw, fun d hd => poke_other s a d b hd⟩
  · exact ⟨by simp [memWrite, h], by simp [memRead, h]⟩
  · rw [memWrite_whole ha hb e]
    refine ⟨?_, ?_, rfl, rfl, rfl, fun k hk => ?_⟩ <;> simp [poke]
    exact fun _ => hk

end Sys2Proof.Machine
end

