-- ==== Sys2Proof/Proofs/GraphCommands.lean ====
section
/-! SUPPORT. The host's commands on graphs, table reloads, the work counter and ring pairs. -/

namespace Sys2Proof.Machine

/-! ### A command on a graph's slot -/

/-- A slot is free of a command in progress and of commands that wait (R373). -/
def SlotFree (s : State) (slot : Nat) (g : Graph) : Prop :=
  slotGraph s slot = some g ∧ g.pausing = none ∧ g.timed = none ∧ (s.graphs[slot]?).map (fun x => x.waiting) = some []

theorem slotBusy_of_free {s : State} {slot : Nat} {g : Graph} (h : SlotFree s slot g) : slotBusy s slot = false := by
  obtain ⟨hg, hp, ht, -⟩ := h
  simp [slotBusy, hg, hp, ht]

/-- A command on a free slot runs at once (R373). -/
theorem slotCmd_of_free {s : State} {slot : Nat} {g : Graph} (hf : SlotFree s slot g) (h : HostHdr) (opc : Nat) (cmd : SlotCmd) :
    slotCmd s h opc slot cmd = applySlotCmd (noted s h opc) slot (cmdId s h) cmd := by
  have hb := slotBusy_of_free hf
  obtain ⟨x, hx, hw⟩ := Option.map_eq_some_iff.mp hf.2.2.2
  simp [slotCmd, hb, hx, hw, noted, cmdId, startCmd]

theorem slotFree_of_names {s : State} {h : HostHdr} {gid : Half} {g : Graph} (hn : Names s h gid g) :
    SlotFree s (gid.toNat % 64) g := by
  obtain ⟨hg, -, -, hp, ht, hw⟩ := hn
  exact ⟨hg, hp, ht, hw⟩

/-- What a command that names its graph is judged by. -/
theorem named_slot {s : State} {h : HostHdr} {gid : Half} {g : Graph} (hn : Names s h gid g) (opc : Nat) :
    slotGraph (noted s h opc) (gid.toNat % 64) = some g ∧
      (gidOf (noted s h opc) (gid.toNat % 64) = gid.toNat && g.fn == (cmdId s h).2.fn) = true := by
  obtain ⟨hg, hi, hf, -, -, -⟩ := hn
  have hgid : gidOf (noted s h opc) (gid.toNat % 64) = gidOf s (gid.toNat % 64) := rfl
  exact ⟨hg, by simpa [cmdId, hf, hgid] using hi⟩

theorem misnamed_slot {s : State} {h : HostHdr} {gid : Half} {g : Graph} (hg : slotGraph s (gid.toNat % 64) = some g)
    (hm : gidOf s (gid.toNat % 64) ≠ gid.toNat ∨ g.fn ≠ h.fn) (opc : Nat) :
    slotGraph (noted s h opc) (gid.toNat % 64) = some g ∧
      (gidOf (noted s h opc) (gid.toNat % 64) = gid.toNat && g.fn == (cmdId s h).2.fn) = false := by
  refine ⟨hg, ?_⟩
  have : ¬ (gidOf s (gid.toNat % 64) = gid.toNat ∧ g.fn = h.fn) := fun ⟨a, b⟩ => hm.elim (· a) (· b)
  have hgid : gidOf (noted s h opc) (gid.toNat % 64) = gidOf s (gid.toNat % 64) := rfl
  simpa [cmdId, hgid] using this

section
variable {s : State} {h : HostHdr} {gid : Half} {g : Graph}

theorem graphStart_now (hn : Names s h gid g) (hs : g.state = .loaded ∨ g.state = .drained) :
    opGraphStart h gid 0#64 s = finishCmd (startGraph (noted s h 0x02) (gid.toNat % 64)) (cmdId s h) .ok := by
  obtain ⟨hg, hi⟩ := named_slot hn 0x02
  rw [opGraphStart, slotCmd_of_free (slotFree_of_names hn)]
  simp only [applySlotCmd, hg, hi, if_true]
  rcases hs with hs | hs <;> simp [hs]

theorem graphStart_timed (hn : Names s h gid g) (hs : g.state = .loaded ∨ g.state = .drained) (hy : s.fab.eqx = .sync) (at' : Dword)
    (h0 : at' ≠ 0#64) (hl : s.fab.counter.toNat < at'.toNat) (hu : at'.toNat ≤ s.fab.counter.toNat + 1000000000) :
    opGraphStart h gid at' s
      = modGraph (noted s h 0x02) (gid.toNat % 64) fun x => { x with timed := some (at', cmdId s h) } := by
  obtain ⟨hg, hi⟩ := named_slot hn 0x02
  have hst : (g.state == .loaded || g.state == .drained) = true := by rcases hs with hs | hs <;> simp [hs]
  have hf : (noted s h 0x02).fab = s.fab := rfl
  rw [opGraphStart, slotCmd_of_free (slotFree_of_names hn)]
  simp only [applySlotCmd, hg, hi, if_true, hst, hf, hy, if_neg h0]
  rw [if_neg (by decide), if_neg (by omega), if_neg (by omega)]

theorem graphPause_running (hn : Names s h gid g) (hs : g.state = .running) :
    opGraphPause h gid s = modGraph (noted s h 0x03) (gid.toNat % 64) fun x => { x with pausing := some (cmdId s h) } := by
  obtain ⟨hg, hi⟩ := named_slot hn 0x03
  rw [opGraphPause, slotCmd_of_free (slotFree_of_names hn)]
  simp [applySlotCmd, hg, hi, hs]

theorem graphResume_stopped (hn : Names s h gid g) (hs : g.state = .paused ∨ g.state = .halted) :
    opGraphResume h gid s = finishCmd (resumeGraph (noted s h 0x04) (gid.toNat % 64)) (cmdId s h) .ok := by
  obtain ⟨hg, hi⟩ := named_slot hn 0x04
  rw [opGraphResume, slotCmd_of_free (slotFree_of_names hn)]
  rcases hs with hs | hs <;> simp only [applySlotCmd, hg, hi, hs, if_true]

theorem graphUnload_stopped (hn : Names s h gid g) (hs : g.state ≠ .running) :
    opGraphUnload h gid s = finishCmd (unloadGraph (noted s h 0x05) (gid.toNat % 64)) (cmdId s h) .ok := by
  obtain ⟨hg, hi⟩ := named_slot hn 0x05
  rw [opGraphUnload, slotCmd_of_free (slotFree_of_names hn)]
  simp [applySlotCmd, hg, hi, hs]

theorem streamRearm_taken (hn : Names s h gid g) {i : Nat} {rec : BitVec 128} {x : Station} {r : Rearm} {w : Nat} {d : StreamDesc}
    (hx : g.stations[i]? = some x) (hr : rearmOf rec.toNat = some (r, w)) (hk : x.kind = .load ∨ x.kind = .store)
    (hd : x.strm.cur = some d) (ha : d.rearm = true) (hp : x.strm.pendRearm = none) (hw : x.strm.parked = false) :
    opStreamRearm h gid i rec s
      = finishCmd (modStation (noted s h 0x06) (gid.toNat % 64) i
          fun y => { y with strm := { y.strm with pendRearm := some r } }) (cmdId s h) .ok := by
  obtain ⟨hg, hi⟩ := named_slot hn 0x06
  have hkind : (x.kind == .load || x.kind == .store) = true := by rcases hk with hk | hk <;> simp [hk]
  rw [opStreamRearm, slotCmd_of_free (slotFree_of_names hn)]
  simp [applySlotCmd, hg, hi, hx, hr, hkind, rearmStream, hd, ha, hp, hw]

end

/-- Settles O5, clause by clause: each command runs at once on its free slot and is judged by the graph's state. -/
theorem graphCommandsComplete : Obligations.GraphCommandsComplete := by
  refine ⟨fun h gid g s hn => ⟨fun ha hs => ?_, fun ha hs hy at' h0 hl hu => ?_, fun ha hs => ?_, fun ha hs => ?_, fun ha hs => ?_,
    fun ha i rec x r w d hx hr hk hd hm hp hw => ?_⟩, fun h gid s g ha hg hp ht hw hm => ?_⟩
  · exact (hostCmd_of_accepts _ _ _ _ _ ha).trans (congrArg _ (graphStart_now hn hs))
  · exact (hostCmd_of_accepts _ _ _ _ _ ha).trans (congrArg _ (graphStart_timed hn hs hy at' h0 hl hu))
  · exact (hostCmd_of_accepts _ _ _ _ _ ha).trans (congrArg _ (graphPause_running hn hs))
  · exact (hostCmd_of_accepts _ _ _ _ _ ha).trans (congrArg _ (graphResume_stopped hn hs))
  · exact (hostCmd_of_accepts _ _ _ _ _ ha).trans (congrArg _ (graphUnload_stopped hn hs))
  · exact (hostCmd_of_accepts _ _ _ _ _ ha).trans (congrArg _ (streamRearm_taken hn hx hr hk hd hm hp hw))
  · have hfree : SlotFree s (gid.toNat % 64) g := ⟨hg, hp, ht, hw⟩
    have hrefuse (opc : Nat) (cmd : SlotCmd) (hc : cmd = .start gid 0#64 ∨ cmd = .pause gid ∨ cmd = .resume gid ∨ cmd = .unload gid) :
        slotCmd s h opc (gid.toNat % 64) cmd = finishCmd (noted s h opc) (cmdId s h) .badDescriptor := by
      obtain ⟨hg', hi⟩ := misnamed_slot hg hm opc
      rw [slotCmd_of_free hfree]
      rcases hc with rfl | rfl | rfl | rfl <;> simp only [applySlotCmd, hg', hi, Bool.false_eq_true, if_false]
    have hal : Accepts s h .graph true := by
      obtain ⟨hf, hc, hp⟩ := ha
      exact ⟨hf, hc, hp.imp id fun ⟨hb, _⟩ => absurd hb (by decide)⟩
    exact ⟨(hostCmd_of_accepts _ _ _ _ _ ha).trans (congrArg _ (hrefuse _ _ (by simp))),
      (hostCmd_of_accepts _ _ _ _ _ hal).trans (congrArg _ (hrefuse _ _ (by simp))),
      (hostCmd_of_accepts _ _ _ _ _ ha).trans (congrArg _ (hrefuse _ _ (by simp))),
      (hostCmd_of_accepts _ _ _ _ _ hal).trans (congrArg _ (hrefuse _ _ (by simp)))⟩

/-! ### GRAPH_LOAD -/

/-- A graph bound into a slot: its generation advances and its pools are full (R36, R38). -/
theorem loadInto_slot {s : State} (slot image fn : Nat) (b : Bytes) (sts : List Station) (qs : List Queue) (ps : List Pool)
    (h : slot < s.graphs.length) :
    (loadInto (tick1 s) slot image fn b sts qs ps).graphs[slot]? = some { s.graphs[slot] with
      gen := s.graphs[slot].gen + 1
      graph := some { fn := fn, cq := byteAt b 7, image := image, clusters := BitVec.ofNat 16 (leAt b 8 2), stallUs := leAt b 12 4,
                      user := BitVec.ofNat 64 (leAt b 16 8), state := .loaded, stations := sts, queues := qs,
                      pools := ps.map fun p => { p with
                        free := poolBuffers (BitVec.ofNat 16 (leAt b 8 2)) p.scope p.base p.count p.bytes },
                      pausing := none, timed := none, lastMove := s.now, stallOut := false, lastStatus := .ok,
                      lastEvent := 0, haltSt := 0, haltWdi := 0, events := 0 } } := by
  simp only [loadInto, modSlot, tick1, List.getElem?_modify_eq, List.getElem?_eq_getElem h, Option.map_eq_map, Option.map_some]

theorem slotGraph_complete (s : State) (h : HostHdr) (st : Status) (res slot : Nat) :
    slotGraph (complete s h st res) slot = slotGraph s slot := by
  rw [complete_hostOnly]; rfl

/-- Settles O6: the image's header and entries are read in order, and the graph is bound into the free slot. -/
theorem graphLoadBindsWhole : Obligations.GraphLoadBindsWhole := by
  intro h image s b slot r1 r2 r3 sts qs ps r cl qo po ha hsp hb hslot hh h1 h2 h3
  have hop : opGraphLoad h image s = complete (loadInto (tick1 r3) slot image.addr h.fn b sts qs ps) h .ok
      (gidOf (loadInto (tick1 r3) slot image.addr h.fn b sts qs ps) slot) := by
    simp only [r, cl, qo, po] at hslot hh h1 h2 h3
    unfold opGraphLoad
    dsimp only
    rw [if_neg (not_not_intro hsp), hb]
    simp only [hslot, hh, Bool.not_true, Bool.false_eq_true, if_false, h1, h2, h3]
  refine ⟨_, (hostCmd_of_accepts _ _ _ _ _ ha).trans (congrArg _ hop), rfl, fun hl => ?_⟩
  have hx : (loadInto (tick1 r3) slot image.addr h.fn b sts qs ps).graphs[slot]? = some _ :=
    loadInto_slot slot image.addr h.fn b sts qs ps hl
  have hgr (t : State) (st : Status) (res : Nat) : (complete t h st res).graphs = t.graphs := by rw [complete_hostOnly]
  rw [slotGraph_complete, slotGraph, hgr, hx]
  refine ⟨_, rfl, rfl, rfl, rfl, rfl, rfl, rfl, rfl, ?_⟩
  rw [List.getElem?_eq_getElem hl]
  rfl

/-! ### Graphs without a command -/

/-- Settles O7. -/
theorem graphTimersComplete : Obligations.GraphTimersComplete := by
  intro slot g s hslot hg
  refine ⟨fun at' c ht hy hl => ?_, fun at' c ht hy => ?_, fun c hp hs => ?_, fun hr h0 hm ho => ⟨?_, fun q w hw => ?_⟩⟩
  · refine (onUnit_of_lt _ _ _ _ hslot).trans (congrArg _ ?_)
    simp [timedFire, hg, ht, hy, hl]
  · refine (onUnit_of_lt _ _ _ _ hslot).trans (congrArg _ ?_)
    simp [timedFire, hg, ht, hy]
  · refine (onUnit_of_lt _ _ _ _ hslot).trans (congrArg _ ?_)
    simp [pauseDone, hg, hp, hs]
  · refine (onUnit_of_lt _ _ _ _ hslot).trans (congrArg _ ?_)
    simp [hg, hr, h0, hm, ho]
  · refine (onUnit_of_lt _ _ _ _ hslot).trans (congrArg _ ?_)
    simp [hg, hr, h0, hm, ho, stallReport, hw]

/-! ### Table reloads -/

/-- Settles O8. -/
theorem tableReloadCompletes : Obligations.TableReloadCompletes := by
  refine ⟨fun h image segCount mask block s ha hsp => ⟨fun hc => ?_, fun hc hb hl => ?_, fun hc hb => ?_⟩,
    fun r b t s hc hw hr hi => ?_, fun core s hcore hs hh => ?_⟩
  · refine (hostCmd_of_accepts _ _ _ _ _ ha).trans (congrArg _ ?_)
    simp [opTableLoad, hsp, hc, noted, startCmd]
  · refine (hostCmd_of_accepts _ _ _ _ _ ha).trans (congrArg _ ?_)
    simp [opTableLoad, hsp, hc, hb, hl, noted, startCmd]
  · refine (hostCmd_of_accepts _ _ _ _ _ ha).trans (congrArg _ ?_)
    have hf : (block && decide (s.sfu.waiting.length < 4)) = false := by
      rcases hb with hb | hb <;> simp [hb]
    simp [opTableLoad, hsp, hc, hf]
  · show execTableReloadRun s = _
    simp [execTableReloadRun, hc, hw, runReload, hr, hi]
  · refine (onUnit_of_lt _ _ _ _ hcore).trans (congrArg _ ?_)
    simp [tileBoundary, switchBank, hs, hh]

/-! ### The work counter -/

theorem satAdd_of_lt {w : Word} (h : w.toNat < 0xFFFFFFFF) : satAdd w 1 = w + 1 := by
  unfold satAdd
  rw [Nat.min_eq_left (by omega)]
  exact BitVec.eq_of_toNat_eq (by simp)

theorem claimOp_of_room {w : WorkCtr} (h : w.next.toNat < w.limit.toNat) (hi : w.base.toNat + w.next.toNat ≤ 0xFFFFFFFF) :
    claimOp w = ({ w with next := w.next + 1 }, .got w.epoch (w.base + w.next)) := by
  have hl := w.limit.isLt
  unfold claimOp
  rw [if_neg (by simp only [Bool.or_eq_true, decide_eq_true_eq]; omega), satAdd_of_lt (by omega)]

theorem claimOp_of_none {w : WorkCtr} (h : w.limit.toNat ≤ w.next.toNat ∨ 0xFFFFFFFF < w.base.toNat + w.next.toNat) :
    claimOp w = (w, .noWork) := by
  unfold claimOp
  rw [if_pos (by simpa only [Bool.or_eq_true, decide_eq_true_eq] using h)]

theorem coreCommit_of_unbound {s : State} {core : Nat} (h : bound s .store core = none) (e : Byte) (i : Word) :
    coreCommit s core e i = (commitOp s (core / 16) e).1 := by
  simp [coreCommit, h]

theorem wcOf_modWc {s : State} {c : Nat} (h : c < s.clusters.length) (f : WorkCtr → WorkCtr) :
    wcOf (modWc s c f) c = f (wcOf s c) := by
  simp [wcOf, clusterAt, modWc, modCluster, List.getD_eq_getElem?_getD, List.getElem?_modify_eq, List.getElem?_eq_getElem h]

/-- Settles O9. -/
theorem workCounterCompletes : Obligations.WorkCounterCompletes := by
  refine ⟨fun core s hc => ⟨fun hw hn hi => ?_, fun hw hn => ?_, fun hw => ?_⟩,
    fun core e i s hc hb hw => ⟨fun he => ?_, fun he => ⟨_, onUnit_of_lt _ _ _ _ hc, ?_⟩⟩,
    fun cluster s hc => ⟨fun value hl hw => ?_, fun value hw => ?_, fun h base limit ha hf hl hw => ?_,
      fun base limit hw hl hlen => ⟨_, onUnit_of_lt _ _ _ _ hc, ?_⟩⟩⟩
  · refine (onUnit_of_lt _ _ _ _ hc).trans (congrArg _ ?_)
    simp [hw, coreClaim, claimOp_of_room hn hi]
  · refine (onUnit_of_lt _ _ _ _ hc).trans (congrArg _ ?_)
    simp [hw, coreClaim, claimOp_of_none hn]
  · refine (onUnit_of_lt _ _ _ _ hc).trans (congrArg _ ?_)
    simp [hw]
  · refine (onUnit_of_lt _ _ _ _ hc).trans (congrArg _ ?_)
    simp [hw, coreCommit_of_unbound hb, commitOp, he]
  · simp [hw, coreCommit_of_unbound hb, commitOp, he]
  · refine (onUnit_of_lt _ _ _ _ hc).trans (congrArg _ ?_)
    simp [opCluWcReset, wcReset, hl, hw, applyReset, resetOp]
  · refine (onUnit_of_lt _ _ _ _ hc).trans (congrArg _ ?_)
    have hf : ((wcOf s cluster).landing.isEmpty && (wcOf s cluster).waiting.isEmpty) = false := by
      rcases hw with hw | hw <;> simp [hw]
    simp [opCluWcReset, wcReset, hf]
  · refine (hostCmd_of_accepts _ _ _ _ _ ha).trans (congrArg _ ?_)
    have hn : wcOf (startCmd s h 0x11).1 cluster = wcOf s cluster := rfl
    have hcl : ¬ 16 ≤ cluster := by omega
    simp only [opWcReset, hcl, hf, wcReset, hn, hl, hw, applyReset, decide_false, Bool.or_self, List.isEmpty_nil, Bool.and_self,
      Bool.false_eq_true, if_false, if_true]
    rfl
  · rw [hw]
    have hlen' (f : WorkCtr → WorkCtr) : cluster < (modWc s cluster f).clusters.length := by
      simpa [modWc, modCluster] using hlen
    simp [runHeld, hl, applyReset, wcOf_modWc hlen, wcOf_modWc (hlen' _), resetOp]

/-! ### Ring pairs -/

/-- Settles O11. -/
theorem ringCommandsComplete : Obligations.RingCommandsComplete := by
  refine ⟨?_, fun h ring x s ha h0 hf hc hd => ?_, fun h ring s ha hb => ?_⟩
  · intro h desc s ha r hd h0 hn hf
    refine (hostCmd_of_accepts _ _ _ _ _ ha).trans (congrArg _ ?_)
    simp only [r] at h0 hn hf
    simp [opRingCreate, hd, h0, hn, hf, ringOf, r]
  · refine (hostCmd_of_accepts _ _ _ _ _ ha).trans (congrArg _ ?_)
    simp [opRingDelete, hf, h0, hc, hd, noted, cmdId, startCmd]
  · refine (hostCmd_of_accepts _ _ _ _ _ ha).trans (congrArg _ ?_)
    unfold opRingDelete
    split
    · rfl
    · rename_i x hx
      have hp : (decide (ring = 0) || cqNamed s h.fn ring || x.deleting.isSome) = true := by
        rcases hb with hb | hb | hb
        · simp [hb]
        · rw [hb] at hx; cases hx
        · simp [hb]
      simp [hp]

end Sys2Proof.Machine
end

