-- ==== Sys2Proof/Proofs/HostInterface.lean ====
section
/-! SUPPORT. Doorbells, submissions, interrupts, the endpoint and the Almanac. -/

namespace Sys2Proof.Machine

/-! ### Doorbells and submissions -/

theorem doorbell_of_ring {s : State} {fn ring : Nat} {x : Ring} (hf : fn < 33) (hr : ring < 256) (hw : windowOpen s fn = true)
    (hx : findRing s fn ring = some x) (hs : resyncing s fn = false) (f : Ring → State) :
    doorbell s fn ring 32 f = .next (f x) := by
  simp [doorbell, Nat.not_lt.mpr (Nat.le_of_lt_succ hf), Nat.not_lt.mpr (Nat.le_of_lt_succ hr), hw, hx, hs]

theorem doorbell_of_width {s : State} {fn ring width : Nat} (hf : fn < 33) (hr : ring < 256) (hw : windowOpen s fn = true)
    (h : width ≠ 32) (f : Ring → State) : doorbell s fn ring width f = .next (countDbErr s) := by
  simp [doorbell, Nat.not_lt.mpr (Nat.le_of_lt_succ hf), Nat.not_lt.mpr (Nat.le_of_lt_succ hr), hw, h]

/-- Settles O12. -/
theorem doorbellsAndFetchComplete : Obligations.DoorbellsAndFetchComplete := by
  refine ⟨fun fn ring value x s hf hr hw hx hs => ⟨fun hv ht hu => ?_, fun hv => ?_, fun width h => ⟨?_, ?_⟩⟩, ?_⟩
  · refine (doorbell_of_ring hf hr hw hx hs _).trans (congrArg _ ?_)
    rw [if_neg (by simpa using hv), if_pos (by simp only [ht, hu, decide_true, Bool.and_self])]
  · exact (doorbell_of_ring hf hr hw hx hs _).trans (congrArg _ (if_pos hv))
  · exact doorbell_of_width hf hr hw h _
  · exact doorbell_of_width hf hr hw h _
  · intro fn ring x s hf hd hx hb hfe hs n
    show execSqFetch fn ring s = _
    have hn : burst s x = n := by simp [burst, hb, hfe, hs, n]
    simp only [execSqFetch, Nat.not_lt.mpr (Nat.le_of_lt_succ hf), if_false, hd, if_true, sqFetch, hx, hn, hfe, List.length_nil,
      Nat.zero_add, sqEntry]

/-! ### Interrupts and the endpoint -/

theorem mem_insertNat (l : List Nat) (k : Nat) : k ∈ insertNat l k := by
  induction l with
  | nil => simp [insertNat]
  | cons x l ih =>
    unfold insertNat
    split
    · simp
    · split
      · simp [*]
      · simp [ih]

theorem signalVec_masked {s : State} {fn v : Nat} (h : (fnCfg s fn).vecBase + v ∈ s.hif.masked) :
    signalVec s fn v = { s with hif := { s.hif with pendVec := insertNat s.hif.pendVec ((fnCfg s fn).vecBase + v) } } := by
  simp [signalVec, h]

theorem signalVec_unmasked {s : State} {fn v : Nat} (h : (fnCfg s fn).vecBase + v ∉ s.hif.masked) :
    signalVec s fn v = { s with hif := { s.hif with signalled := ((fnCfg s fn).vecBase + v) :: s.hif.signalled } } := by
  simp [signalVec, h]

theorem configurationRequest_of_up {s : State} (h : hostUp s.pwr.state = true) :
    execConfigurationRequest s = .next { s with hif := { s.hif with cfgServed := some true } } := by
  unfold execConfigurationRequest
  have hn {x : PwrState} (hx : hostUp x = false) : s.pwr.state ≠ x := fun e => by rw [e, hx] at h; cases h
  split
  · rename_i e; exact absurd e (hn rfl)
  · rename_i e; exact absurd e (hn rfl)
  · rename_i e; exact absurd e (hn rfl)
  · rfl

/-- Settles O13. -/
theorem interruptsAndEndpointComplete : Obligations.InterruptsAndEndpointComplete := by
  refine ⟨⟨fun fn ring t x s hx ht hn hd => ?_, fun fn vector s hf hv hm hp => ?_, fun fn v s h => ?_, fun fn v s h => ?_⟩,
    fun fn s hf hu => ?_, fun s hu => ?_, fun rate lanes flit s hu hr hl => ?_, fun s hu => ?_, fun s hu => ?_, fun iova bytes s => rfl⟩
  · show execMsixModerationExpiry fn ring s = _
    simp [execMsixModerationExpiry, hx, ht, hn, hd]
  · show execMsixVectorUnmask fn vector s = _
    rw [execMsixVectorUnmask, if_neg (by omega), onUnit_of_lt _ _ _ _ hv]
    simp [unmask, Nat.not_le.mpr hm, hp]
  · rw [signalVec_masked h]
    exact ⟨rfl, mem_insertNat _ _⟩
  · rw [signalVec_unmasked h]
  · show execFunctionLevelReset fn s = _
    rw [execFunctionLevelReset, if_neg (by omega), whenUp_of_up _ _ hu, flr]
  · show execPerstNLow s = _
    have hc : (hostUp s.pwr.state || s.pwr.state == .thaw) = true := by
      rcases hu with hu | hu <;> simp [hu]
    rw [execPerstNLow, if_pos hc, flr, if_pos rfl]
  · show execPcieLinkRetrain rate lanes flit s = _
    rw [execPcieLinkRetrain, if_pos hu, hostErr, Nat.mod_eq_of_lt hr, Nat.mod_eq_of_lt hl]
  · show execConfigurationRequest s = _
    rw [execConfigurationRequest, hu]
  · exact configurationRequest_of_up hu

/-! ### The Almanac -/

/-- A bit of a word, by either of its names. -/
theorem bit_toNat {w : Nat} (v : BitVec w) (i : Nat) : bit v.toNat i = v.getLsbD i := by
  rw [BitVec.getLsbD, Nat.testBit_eq_decide_div_mod_eq]
  rfl

/-- A request of a function that has no other is served as soon as it is ready (R381). -/
theorem almAsk_of_ready {s : State} {r : AlmReq} (hn : s.hif.almReqs = []) (hr : almReady s r.fn = true) :
    almAsk s r = almServe { s with hif := { s.hif with almReqs := [r] } } r := by
  have hr' : almReady { s with hif := { s.hif with almReqs := [r] } } r.fn = true := hr
  simp [almAsk, almAll, almRun, hn, hr']

theorem almBusy_of_idle {s : State} {fn : Nat} {a : AlmFn} (ha : s.hif.alm[fn]? = some a) (hb : a.busy = false)
    (hr : ∀ r ∈ s.hif.almReqs, r.fn ≠ fn) : almBusy s fn = false := by
  simpa [almBusy, ha, hb] using hr

theorem modAlm_modAlm (s : State) (fn : Nat) (f g : AlmFn → AlmFn) :
    modAlm (modAlm s fn f) fn g = modAlm s fn fun a => g (f a) := by
  unfold modAlm
  dsimp only
  rw [List.modify_modify_eq]
  rfl

/-- Settles O14. -/
theorem almanacCompletes : Obligations.AlmanacCompletes := by
  refine ⟨fun h buf len resync s ha hb hr hn => ?_, fun fn addr len value a s hf hw hv hal hb hr hp hl => ?_⟩
  · refine (hostCmd_of_accepts _ _ _ _ _ ha).trans (congrArg _ ?_)
    rw [opAlmanac, if_pos hb]
    exact almAsk_of_ready (s := noted s h 0x7F) hn hr
  · show execAlmGo fn addr len value s = _
    have hbusy := almBusy_of_idle hal hb hr
    have hbit : bit value.toNat 0 = true := (bit_toNat value 0).trans hv
    rw [execAlmGo, if_neg (by omega), if_pos hw]
    simp only [opAlmGo, hbit, hbusy, hp, hl, modAlm_modAlm, Bool.not_true, Bool.or_self, Bool.false_eq_true, if_false,
      decide_true, Bool.and_self, if_true, bit_toNat]

end Sys2Proof.Machine
end

