-- ==== Sys2Proof/Proofs/Collectives.lean ====
section
/-! SUPPORT. Groups, collective operations, and the messages they exchange. -/

namespace Sys2Proof.Machine

/-! ### Groups -/

/-- Settles O15. -/
theorem groupCommandsComplete : Obligations.GroupCommandsComplete := by
  refine ⟨fun h r b t u s ha hr hb ho => ?_, fun h group g s ha hg hf hs => ?_, fun h group g s ha hg hf hc => ?_,
    fun die group rank retired g s hd hg hr hs => ?_⟩
  · refine (hostCmd_of_accepts _ _ _ _ _ ha).trans (congrArg _ ?_)
    simp [opGroupOpen, hr, hb, ho]
  · refine (hostCmd_of_accepts _ _ _ _ _ ha).trans (congrArg _ ?_)
    simp only [opGroupReset, hg, hf, hs, ne_eq, not_true, decide_false, Bool.or_self, Bool.false_eq_true, if_false]
    rfl
  · refine (hostCmd_of_accepts _ _ _ _ _ ha).trans (congrArg _ ?_)
    simp only [opGroupClose, hg, hf, hc, ne_eq, not_true, decide_false, Option.isSome_none, Bool.or_self, Bool.false_eq_true,
      if_false]
    rfl
  · refine (onUnit_of_lt _ _ _ _ hd).trans (congrArg _ ?_)
    simp [hg, Nat.not_le.mpr hr, hs]

/-! ### Operations -/

/-- A descriptor that passes its checks, and whose inputs are there, enters its group (R255, R263). -/
theorem collEnter_of_good {s r t : State} {b : Bound} {die op : Nat} {v : Bytes} {g : Group} {hs : List Handle}
    (hr : ctrlRead s (wdAddr b 64) 64 = (r, .ok v)) (ho : (collDescOf v).e.op = op)
    (hg : findGroup r (collDescOf v).group = some g) (hd : collDescOk g die (collDescOf v) = true)
    (hp : portsBound b (collPorts g (collDescOf v)).1 (collPorts g (collDescOf v)).2 = true)
    (hc : (collDescOf v).e.count ≤ (collDescOf v).e.countMax) (hst : g.state = 1) (hl : g.entries.length < 16)
    (hi : popInputs r b g (collDescOf v) = .got t hs) : collEnter s b die op = enterOp t b g (collDescOf v) hs := by
  simp [collEnter, hr, ho, hg, hd, hp, Nat.not_lt.mpr hc, hst, Nat.not_le.mpr hl, hi]

theorem collCmd_of_ready {s : State} {die op : Nat} {b : Bound} (hd : die < 2) (h : Ready s .coll die b) :
    collCmd die op s = .next (collListEnd ((((collEnter s b die op).groups.filter fun x => x.die == die).map fun x => x.id).foldl
      collGo (collEnter s b die op)) b.slot b.idx) := by
  obtain ⟨hb, hm, hw⟩ := h
  refine (onUnit_of_lt _ _ _ _ hd).trans (congrArg _ ?_)
  simp [hb, hm, hw]

/-- Settles O16. -/
theorem collectiveOperationsComplete : Obligations.CollectiveOperationsComplete := by
  intro die c op b v g r t s hs hd hc hrdy hr d ho hg hok hp hcnt hst hl hi u
  have hu : collEnter s b die op = u := collEnter_of_good hr ho hg hok hp hcnt hst hl hi
  have he : exec c s = collCmd die op s := by
    simp only [List.mem_cons, Prod.mk.injEq, List.not_mem_nil, or_false] at hc
    rcases hc with ⟨rfl, rfl⟩ | ⟨rfl, rfl⟩ | ⟨rfl, rfl⟩ | ⟨rfl, rfl⟩ | ⟨rfl, rfl⟩ | ⟨rfl, rfl⟩ | ⟨rfl, rfl⟩ <;> rfl
  rw [he, collCmd_of_ready hd hrdy, hu]

/-! ### Messages -/

/-- The first element that meets one condition, when it meets another too, is the first that meets both. -/
theorem find_and_of_find {α : Type} {p q : α → Bool} {x : α} (l : List α) (h : l.find? q = some x) (hx : p x = true) :
    (l.find? fun a => p a && q a) = some x := by
  induction l with
  | nil => cases h
  | cons a l ih =>
    rw [List.find?_cons] at h ⊢
    cases hq : q a with
    | true =>
      rw [hq] at h
      cases h
      simp [hx]
    | false =>
      rw [hq] at h
      simpa using ih h

theorem msgGroup_of_named {s : State} {m : CollMsg} {g : Group} (hg : findGroup s m.group = some g) (ht : g.gtag = m.gtag) :
    msgGroup s m = some g ∧ g.id = m.group := by
  have hf : (s.groups.find? fun g => g.gtag == m.gtag && g.id == m.group) = some g :=
    find_and_of_find _ hg (by simpa using ht)
  exact ⟨by rw [msgGroup, hf], by simpa using List.find?_some hg⟩

theorem msgGroup_of_mismatch {s : State} {m : CollMsg} {g : Group} (hn : ∀ x ∈ s.groups, x.gtag = m.gtag → x.id ≠ m.group)
    (hg : (s.groups.find? fun x => x.gtag == m.gtag) = some g) : msgGroup s m = some g ∧ m.group ≠ g.id := by
  have hf : (s.groups.find? fun g => g.gtag == m.gtag && g.id == m.group) = none :=
    List.find?_eq_none.mpr fun x hx => by simpa using hn x hx
  have hm := List.mem_of_find?_eq_some hg
  have ht : g.gtag = m.gtag := by simpa using List.find?_some hg
  exact ⟨by rw [msgGroup, hf, hg], fun e => hn g hm ht e.symm⟩

theorem msgGroup_of_stray {s : State} {m : CollMsg} (hn : ∀ x ∈ s.groups, x.gtag ≠ m.gtag) : msgGroup s m = none := by
  have h1 : (s.groups.find? fun g => g.gtag == m.gtag && g.id == m.group) = none :=
    List.find?_eq_none.mpr fun x hx => by simpa using fun e => absurd e (hn x hx)
  have h2 : (s.groups.find? fun g => g.gtag == m.gtag) = none :=
    List.find?_eq_none.mpr fun x hx => by simpa using hn x hx
  rw [msgGroup, h1, h2]

section
variable {s : State} {die : Nat} {m : CollMsg} {g : Group}

theorem collArrive_joins (k : CollKind) (hd : die < 2) (hg : findGroup s m.group = some g) (ht : g.gtag = m.gtag) (hs : g.state ≠ 2) :
    collArrive k die m s = .next (collGo (modGroup s g.id fun x => { x with inbox := x.inbox ++ [(k, m)] }) g.id) := by
  obtain ⟨hm, hi⟩ := msgGroup_of_named hg ht
  refine (onUnit_of_lt _ _ _ _ hd).trans (congrArg _ ?_)
  simp [hm, hs, hi]

theorem collArrive_mismatch (k : CollKind) (hd : die < 2) (hn : ∀ x ∈ s.groups, x.gtag = m.gtag → x.id ≠ m.group)
    (hg : (s.groups.find? fun x => x.gtag == m.gtag) = some g) (hs : g.state = 1) :
    collArrive k die m s = .next (groupFence s g.id .badDescriptor .badDescriptor .mismatch g.rank none true) := by
  obtain ⟨hm, hi⟩ := msgGroup_of_mismatch hn hg
  refine (onUnit_of_lt _ _ _ _ hd).trans (congrArg _ ?_)
  simp [hm, hs, hi, collFail]

theorem collArrive_stray (k : CollKind) (hd : die < 2) (hn : ∀ x ∈ s.groups, x.gtag ≠ m.gtag) :
    collArrive k die m s = .next (strayMsg s die) := by
  refine (onUnit_of_lt _ _ _ _ hd).trans (congrArg _ ?_)
  simp [msgGroup_of_stray hn]

end

/-- Settles O17. -/
theorem collectiveMessagesComplete : Obligations.CollectiveMessagesComplete := by
  refine ⟨fun die m s hd => ⟨fun c k g hc hg ht hs => ?_, fun c g hc hn hg hs => ?_, fun c hc hn => ?_, fun frank cause st g hg ht => ?_,
    fun g hg ht => ?_⟩, fun die group g s hd hg hdie => ⟨fun hs he => ?_, fun c hs hc ht => ?_, fun e t hs he hw ht => ?_⟩⟩
  · simp only [List.mem_cons, Prod.mk.injEq, List.not_mem_nil, or_false] at hc
    rcases hc with ⟨rfl, rfl⟩ | ⟨rfl, rfl⟩ | ⟨rfl, rfl⟩ | ⟨rfl, rfl⟩ | ⟨rfl, rfl⟩ <;> exact collArrive_joins _ hd hg ht hs
  · simp only [List.mem_cons, List.not_mem_nil, or_false] at hc
    rcases hc with rfl | rfl | rfl | rfl | rfl <;> exact collArrive_mismatch _ hd hn hg hs
  · have hstray := msgGroup_of_stray hn
    simp only [List.mem_cons, List.not_mem_nil, or_false] at hc
    rcases hc with rfl | rfl | rfl | rfl | rfl | rfl | rfl
    · exact collArrive_stray _ hd hn
    · exact collArrive_stray _ hd hn
    · exact collArrive_stray _ hd hn
    · exact collArrive_stray _ hd hn
    · exact collArrive_stray _ hd hn
    · exact (onUnit_of_lt _ _ _ _ hd).trans (congrArg _ (by simp [hstray]))
    · exact (onUnit_of_lt _ _ _ _ hd).trans (congrArg _ (by simp [hstray]))
  · refine (onUnit_of_lt _ _ _ _ hd).trans (congrArg _ ?_)
    simp [(msgGroup_of_named hg ht).1]
  · refine (onUnit_of_lt _ _ _ _ hd).trans (congrArg _ ?_)
    simp [(msgGroup_of_named hg ht).1]
  · refine (onUnit_of_lt _ _ _ _ hd).trans (congrArg _ ?_)
    have hw : g.entries.any (waitedOut g s.now) = true := by
      obtain ⟨e, hem, p, hp, hl⟩ := he
      exact List.any_eq_true.mpr ⟨e, hem, List.any_eq_true.mpr ⟨p, hp, decide_eq_true hl⟩⟩
    simp [hg, hdie, hs, hw]
  · refine (onUnit_of_lt _ _ _ _ hd).trans (congrArg _ ?_)
    simp [hg, hdie, hs, hc, ht]
  · refine (onUnit_of_lt _ _ _ _ hd).trans (congrArg _ ?_)
    simp [hg, he, hw, hdie, hs, ht, collFail]

end Sys2Proof.Machine
end

