-- ==== Sys2Proof/Proofs/LendingAndWhey.lean ====
section
/-! SUPPORT. Lent memory, and the Whey's transfers, pools and upkeep. -/

namespace Sys2Proof.Machine

/-! ### A borrower's copies -/

theorem lendSubmit_of_good {s t : State} {a : AddrArg} {b : Bytes} (h : argRead s a 64 = (t, .ok b)) (hb : lendRecOk b = true)
    (cmd : Option (Nat × HostHdr)) :
    lendSubmit s a cmd = lendFill { t with memc := { t.memc with
      nextCopy := t.memc.nextCopy + 1
      copies := t.memc.copies ++ [lendCopyOf t.memc.nextCopy.toNat cmd (if cmd.isSome then none else some a.addr) b] } }
      (lendCopyOf t.memc.nextCopy.toNat cmd (if cmd.isSome then none else some a.addr) b).die := by
  simp [lendSubmit, h, hb, modMem]

/-- Settles O18. -/
theorem lendCopiesComplete : Obligations.LendCopiesComplete := by
  refine ⟨⟨?_, ?_⟩, fun die c s hd => ⟨fun p k hc hk hs => ?_, fun p k t hc hk hs hp hl hr hw => ?_, fun num hc hk => ?_⟩⟩
  · intro h r b t s ha hr hb c
    refine (hostCmd_of_accepts _ _ _ _ _ ha).trans (congrArg _ ?_)
    exact lendSubmit_of_good hr hb _
  · intro cluster addr b t s hcl hu hl hr hb c
    show execMemLendPost cluster addr s = _
    rw [execMemLendPost, if_neg (by omega), whenUp_of_up _ _ hu, Nat.mod_eq_of_lt hl, lendSubmit_of_good hr hb]
    rfl
  · refine (onUnit_of_lt _ _ _ _ hd).trans (congrArg _ ?_)
    simp [opLendRsp, hc, hk, hs]
  · refine (onUnit_of_lt _ _ _ _ hd).trans (congrArg _ ?_)
    simp [opLendRsp, hc, hk, hs, hp, hl, hr, hw]
  · refine (onUnit_of_lt _ _ _ _ hd).trans (congrArg _ ?_)
    have ht : (c.outst.any fun k => decide (k.sentAt + 1000 * c.timeoutUs ≤ s.now)) = true := by
      obtain ⟨k, hm, hl⟩ := hk
      exact List.any_eq_true.mpr ⟨k, hm, decide_eq_true hl⟩
    simp only [hc, ht, if_true]

/-! ### A lender's grants -/

theorem lendAnswer_fab (s : State) (die : Nat) (p : LendReqPkt) (st : Status) (payload : Bytes) :
    FabOnly s (lendAnswer s die p st payload) := rfl

theorem grantAt_modGrant {s : State} {g : Nat} (h : g < s.memc.grants.length) (f : Grant → Grant) :
    grantAt (modGrant s g f) g = f (grantAt s g) := by
  simp [grantAt, modGrant, modMem, List.getD_eq_getElem?_getD, List.getElem?_modify_eq, List.getElem?_eq_getElem h]

/-- A request that breaks any of its grant's terms is not allowed (R318, R321). -/
theorem lendAllowed_of_broken {g : Grant} {p : LendReqPkt}
    (h : g.valid = false ∨ g.revoke = true ∨ p.gen ≠ g.gen ∨ p.src ≠ g.borrower ∨ g.count ≤ p.frame ∨
      1024 * g.fsizeK < p.offset + p.rlen ∨ (p.op = 1 ∧ g.rd = false) ∨ (p.op = 2 ∧ g.wr = false)) :
    lendAllowed g p = false := by
  unfold lendAllowed grantFrame
  rcases h with h | h | h | h | h | h | ⟨h, h'⟩ | ⟨h, h'⟩
  · simp [h]
  · simp [h]
  · simp [h]
  · simp [h]
  · simp [Nat.not_lt.mpr h]
  · simp [Nat.not_le.mpr h]
  · simp [h, h']
  · simp [h, h']

theorem grantCommit_valid {g : Grant} (h : g.valid = true) (lo : Dword) :
    grantCommit g lo.toNat = { g with held := none, revoke := g.revoke || lo.getLsbD 1, valid := lo.getLsbD 0 } := by
  simp [grantCommit, h, bit_toNat]

theorem grantCommit_revoked {g : Grant} (h : g.revoke = true) (hv : g.valid = false) (lo : Nat) :
    (grantCommit g lo).valid = false ∧ (grantCommit g lo).gen = g.gen := by
  simp [grantCommit, h, hv, grantFields]

theorem grantCommit_new {g : Grant} {lo : Dword} (h0 : lo.getLsbD 0 = true) (h1 : lo.getLsbD 1 = false) (hv : g.valid = false)
    (hr : g.revoke = false) :
    let n := grantFields { g with held := none } ((g.held.map fun v => v.toNat).getD (grantHi g)) lo.toNat
    grantCommit g lo.toNat
      = if grantOk n then { n with valid := true, gen := (g.gen + 1) % 256, revoke := false } else { g with held := none } := by
  simp only [grantCommit, bit_toNat, h0, h1, hv, hr, Bool.not_true, Bool.or_self, Bool.false_eq_true, if_false]

/-- Settles O19. -/
theorem lendRequestsComplete : Obligations.LendRequestsComplete := by
  refine ⟨?_, ?_, ?_⟩
  · intro die p s hd g a
    have ha : grantFrame (grantAt s p.grant) = 1024 * (grantAt s p.grant).fsizeK := rfl
    refine ⟨fun b t hp hal ho hr => ?_, fun t hp hal ho hw => ?_, fun hp hal => ?_, fun hp => ?_, fun hp => ?_⟩ <;>
      refine (onUnit_of_lt _ _ _ _ hd).trans (congrArg _ ?_)
    · simp only [a, g] at hr hal
      simp [opLendReq, hp, hal, ho, ha, hr]
    · simp only [a, g] at hw hal
      simp [opLendReq, hp, hal, ho, ha, hw]
    · simp only [g] at hal
      simp [opLendReq, hp, hal]
    · simp [opLendReq, hp]
    · simp [opLendReq, hp]
  · intro die p s hd hp g hb
    refine ⟨_, (onUnit_of_lt _ _ _ _ hd).trans (congrArg _ ?_), rfl, rfl, rfl, rfl⟩
    simp only [opLendReq, hp, lendAllowed_of_broken hb, g, Bool.not_false, if_true]
  · intro grant s hg hu g
    have hw (word : Nat) (hword : word < 2) (v : Dword) :
        exec (.memLendGrant grant word v) s = .next (opLendGrant grant word v s) := by
      show execMemLendGrant grant word v s = _
      rw [execMemLendGrant, if_neg (by omega), whenUp_of_up _ _ hu]
    refine ⟨fun v => hw 1 (by decide) v, fun lo hv hl => ⟨_, hw 0 (by decide) lo, ?_⟩, fun lo hr hv hl => ⟨_, hw 0 (by decide) lo, ?_⟩,
      fun lo h0 h1 hv hr hl => ?_, ?_, fun hr hl => ?_⟩
    · exact (grantAt_modGrant hl _).trans (grantCommit_valid hv lo)
    · rw [opLendGrant, grantAt_modGrant hl]
      exact grantCommit_revoked hr hv _
    · intro n
      have hc := grantCommit_new h0 h1 hv hr
      refine ⟨fun hok => ⟨_, hw 0 (by decide) lo, ?_⟩, fun hok => ⟨_, hw 0 (by decide) lo, ?_⟩⟩ <;>
        refine (grantAt_modGrant hl _).trans (hc.trans ?_)
      · exact if_pos hok
      · exact if_neg (by simp [n] at hok; simp [hok])
    · show execRevoke grant s = _
      rw [execRevoke, if_neg (by omega), whenUp_of_up _ _ hu]
    · refine ⟨modGrant s grant fun g => if g.revoke then { g with revoke := false, valid := false } else g, ?_, ?_⟩
      · show execRevokeDone grant s = _
        rw [execRevokeDone, if_neg (by omega)]
      · rw [grantAt_modGrant hl]
        exact if_pos hr

/-! ### The Whey -/

theorem wheySubmit_of_good {s t : State} {a : AddrArg} {b : Bytes} (h : argRead s a 64 = (t, .ok b)) (hr : wheyReady s = true)
    (hb : wheyResOk b = true) (ho : wheyRecOk t (wheyRecOf b) = true) (cmd : Option (Nat × HostHdr)) :
    wheySubmit s a cmd = wheyQueue t a cmd (wheyRecOf b) false .ok [] := by
  simp [wheySubmit, h, hr, hb, ho]

theorem xferRun_of_found {x : Xfer} {s : State} (h : findXfer s x.id = some x) (hu : hostUp s.pwr.state = true) (hr : x.ran = false)
    {op : Nat} (ho : x.args.op = op) (run : Xfer → State → State) : xferRun s x.id op run = .next (run x s) := by
  simp [xferRun, h, hu, hr, ho]

/-- Settles O20. -/
theorem wheyTransfersComplete : Obligations.WheyTransfersComplete := by
  refine ⟨⟨fun h r b t s ha hw hr hb ho => ?_, fun cluster addr b t s hcl hu hl hw hr hb ho => ?_⟩,
    fun x s hx hu hr => ⟨fun b t ho hf hok hm => ?_, fun b t u ho hold hf hc hm => ?_, fun b l st t u ho hc hn hm => ?_,
      fun b l st t u ho hc hn hm => ?_, fun t u l ho ht hm => ?_, fun b t ho hy hm => ?_⟩, ?_⟩
  · refine (hostCmd_of_accepts _ _ _ _ _ ha).trans (congrArg _ ?_)
    exact wheySubmit_of_good hr hw hb ho _
  · show execFlsWheyPost cluster addr s = _
    rw [execFlsWheyPost, if_neg (by omega), whenUp_of_up _ _ hu, Nat.mod_eq_of_lt hl, wheySubmit_of_good hr hw hb ho]
    rfl
  · refine (xferRun_of_found hx hu hr ho _).trans (congrArg _ ?_)
    simp [runPut, hf, hok, hm]
  · refine (xferRun_of_found hx hu hr ho _).trans (congrArg _ ?_)
    simp [runGet, hold, hf, hc, hm]
  · refine (xferRun_of_found hx hu hr ho _).trans (congrArg _ ?_)
    simp [runMove, hc, hn, hm]
  · refine (xferRun_of_found hx hu hr ho _).trans (congrArg _ ?_)
    simp [runMove, hc, hn, hm]
  · refine (xferRun_of_found hx hu hr ho _).trans (congrArg _ ?_)
    simp [runAlloc, ht, hm]
  · refine (xferRun_of_found hx hu hr ho _).trans (congrArg _ ?_)
    have hwait : (s.fls.xfers.any fun y => decide (y.id < x.id) && (xferObjs s y.args).any fun o => (xferObjs s x.args).contains o)
        = false := by
      simpa [List.any_eq_false] using hy
    simp only [runFree, hwait, hm, Bool.false_eq_true, if_false]
  · intro x u s hx hr hp v
    show execWheyTransferDone x.id s = _
    simp [execWheyTransferDone, hx, hr, hp, modFls, v]

/-- What upkeep of the flash leaves as it was. -/
def FlashKept (s t : State) : Prop :=
  t.fls.objects = s.fls.objects ∧ t.fls.alloc = s.fls.alloc ∧ t.fls.bad = s.fls.bad ∧ t.fls.pools = s.fls.pools ∧
    t.fls.xfers = s.fls.xfers ∧ t.graphs = s.graphs ∧ t.kvc = s.kvc ∧ t.pwr = s.pwr ∧ t.sec = s.sec

section
variable {s t u : State}

theorem FlashKept.refl (s : State) : FlashKept s s := ⟨rfl, rfl, rfl, rfl, rfl, rfl, rfl, rfl, rfl⟩

theorem FlashKept.trans (h : FlashKept s t) (k : FlashKept t u) : FlashKept s u := by
  obtain ⟨h1, h2, h3, h4, h5, h6, h7, h8, h9⟩ := h
  obtain ⟨k1, k2, k3, k4, k5, k6, k7, k8, k9⟩ := k
  exact ⟨k1.trans h1, k2.trans h2, k3.trans h3, k4.trans h4, k5.trans h5, k6.trans h6, k7.trans h7, k8.trans h8, k9.trans h9⟩

theorem FlashKept.of_event (h : EventFrame s t) : FlashKept s t := by
  obtain ⟨h1, -⟩ := h
  refine ⟨?_, ?_, ?_, ?_, ?_, ?_, ?_, ?_, ?_⟩ <;> rw [h1]

theorem FlashKept.then_alarm (h : FlashKept s t) (n arg : Nat) : FlashKept s (alarm t n arg) := h.trans (.of_event (alarm_frame _ _ _))

end

theorem modCh_flashKept (s : State) (c : Nat) (f : FlashCh → FlashCh) : FlashKept s (modCh s c f) := FlashKept.refl s

theorem wearMore_flashKept (s : State) (c : Nat) : FlashKept s (wearMore s c) := by
  have hs : FlashKept s (tick1 s) := FlashKept.refl s
  unfold wearMore
  dsimp only
  split
  · exact (hs.trans (modCh_flashKept _ _ _)).then_alarm _ _
  · exact hs.trans (modCh_flashKept _ _ _)

theorem moreProgrammed_flashKept (s : State) : FlashKept s (moreProgrammed s) := FlashKept.refl s

theorem moreReloc_flashKept (s : State) (c : Nat) : FlashKept s (moreReloc s c) :=
  (modCh_flashKept _ _ _).trans (.of_event (ctrSat_frame _ _ _ _))

theorem enterReadonly_flashKept (s : State) (c : Nat) : FlashKept s (enterReadonly s c) := by
  unfold enterReadonly
  split
  · exact FlashKept.refl s
  · have hf : FlashKept s (modFls s fun x =>
        { x with readonly := true, state := if x.state == .ready then .readonly else x.state }) := FlashKept.refl s
    exact hf.then_alarm _ _

theorem execFlashUpkeep_flashKept {c : Nat} {what : Upkeep} {s t : State} (h : execFlashUpkeep c what s = .next t) : FlashKept s t := by
  refine onUnit_elim (P := FlashKept s) h ?_
  split
  · exact FlashKept.refl s
  · cases what with
    | relocate => exact ((moreReloc_flashKept _ _).trans (moreProgrammed_flashKept _)).trans (wearMore_flashKept _ _)
    | collect => exact (moreProgrammed_flashKept _).trans (wearMore_flashKept _ _)
    | refresh => exact (moreProgrammed_flashKept _).trans (wearMore_flashKept _ _)
    | badBlock => exact (modCh_flashKept _ _ _).trans (enterReadonly_flashKept _ _)

/-- Settles O21. -/
theorem flashCommandsComplete : Obligations.FlashCommandsComplete := by
  refine ⟨⟨?_, fun s hs hp => ?_, fun c s hc hw => ⟨?_, ?_, ?_, ?_⟩⟩, fun c what s t h => execFlashUpkeep_flashKept h⟩
  · intro pool v s hp hu p
    have hx : exec (.flsPool pool v) s = .next (opFlsPool pool v s) := by
      show execFlsPool pool v s = _
      rw [execFlsPool, if_neg (by omega), whenUp_of_up _ _ hu]
    refine ⟨fun hfit huse => hx.trans (congrArg _ ?_), fun hbig => hx.trans (congrArg _ ?_)⟩
    · simp only [p] at hfit
      simp [opFlsPool, Nat.not_lt.mpr hfit, huse, modFls, p]
    · simp only [p] at hbig
      simp [opFlsPool, hbig, modFls]
  · have hgo : (s.fls.state == .ready || s.fls.state == .readonly || !(s.pwr.state == .thaw || hostUp s.pwr.state)) = false := by
      rcases hp with hp | hp <;> simp [hs, hp]
    have hx : exec .flashScanDone s = .next (tick1 (modFls s fun x => { x with
        state := if x.readonly then .readonly else .ready
        scanned := true
        chans := (numbered x.chans 0).map fun c => if !s.fls.scanned then
          { c.2 with spare := 82 + Config.freeNat (s.free + c.1) % 16303, wearMean := 1, wearMax := 1 } else c.2 })) := by
      show execFlashScanDone s = _
      rw [execFlashScanDone, if_neg (by rw [hgo]; exact Bool.false_ne_true)]
    exact ⟨_, hx, rfl, rfl, rfl, rfl, rfl, rfl⟩
  · refine (onUnit_of_lt _ _ _ _ hc).trans (congrArg _ ?_)
    simp [hw]
  · refine (onUnit_of_lt _ _ _ _ hc).trans (congrArg _ ?_)
    simp [hw]
  · refine (onUnit_of_lt _ _ _ _ hc).trans (congrArg _ ?_)
    simp [hw]
  · refine (onUnit_of_lt _ _ _ _ hc).trans (congrArg _ ?_)
    simp [hw]

end Sys2Proof.Machine
end

