-- ==== Sys2Proof/Proofs/MemoryCommands.lean ====
section
/-! SUPPORT. Atomics, update aliases, the upkeep of memory, small transfers and queues. -/

namespace Sys2Proof.Machine

/-! ### Atomics -/

/-- The adder on clean sectors: the old value is read, and the new one stored (R317). -/
theorem adderRun_of_clean {s : State} {a n : Nat} (hc : Clean s a n) (hp : directD a / 32 ∉ s.poison) (f : Nat → Nat) :
    adderRun s a n f
      = (poke s a (leBytes n (f (leNat (peek s a n)))), .old (BitVec.ofNat 64 (leNat (peek s a n)))) := by
  simp [adderRun, modifySectors, writeSectors_of_clean hc, isBad_eq_false hp]

theorem exec_amo_plain {cluster : Nat} {op : AmoOp} (h : op ≠ .lr ∧ op ≠ .sc) (wide : Bool) (a : Nat) (v : Dword) (s : State)
    (hc : cluster < 16) :
    exec (.amo cluster op wide a v) s = .next (amoRun s cluster op wide a (v.toNat % 2 ^ (8 * if wide then 8 else 4))) := by
  refine (onUnit_of_lt _ _ _ _ hc).trans (congrArg _ ?_)
  obtain ⟨hl, hs⟩ := h
  dsimp only
  split
  · exact absurd rfl hl
  · exact absurd rfl hs
  · rfl

theorem exec_amo_lr (cluster : Nat) (wide : Bool) (a : Nat) (v : Dword) (s : State) (hc : cluster < 16) :
    exec (.amo cluster .lr wide a v) s = .next (if ownSram cluster a (if wide then 8 else 4)
      then loadReserved s cluster a (if wide then 8 else 4) wide else amoAnswer s cluster .accessFault) :=
  onUnit_of_lt _ _ _ _ hc

theorem exec_amo_sc (cluster : Nat) (wide : Bool) (a : Nat) (v : Dword) (s : State) (hc : cluster < 16) :
    exec (.amo cluster .sc wide a v) s = .next (if ownSram cluster a (if wide then 8 else 4)
      then storeConditional s cluster a (if wide then 8 else 4) (v.toNat % 2 ^ (8 * if wide then 8 else 4))
      else amoAnswer s cluster .accessFault) :=
  onUnit_of_lt _ _ _ _ hc

/-- An atomic that does not reach its target is an access fault, and changes no memory. -/
theorem exec_amo_fault {cluster : Nat} {op : AmoOp} {wide : Bool} {a : Nat} (v : Dword) (s : State) (hc : cluster < 16)
    (h : (if op = .lr ∨ op = .sc then ownSram cluster a (if wide then 8 else 4) else amoOk a (if wide then 8 else 4)) = false) :
    exec (.amo cluster op wide a v) s = .next (amoAnswer s cluster .accessFault) := by
  by_cases hl : op = .lr
  · subst hl
    rw [if_pos (.inl rfl)] at h
    rw [exec_amo_lr _ _ _ _ _ hc, if_neg (by rw [h]; exact Bool.false_ne_true)]
  · by_cases hs : op = .sc
    · subst hs
      rw [if_pos (.inr rfl)] at h
      rw [exec_amo_sc _ _ _ _ _ hc, if_neg (by rw [h]; exact Bool.false_ne_true)]
    · rw [if_neg (fun ho => ho.elim hl hs)] at h
      rw [exec_amo_plain ⟨hl, hs⟩ _ _ _ _ hc, amoRun]
      dsimp only
      rw [if_neg (by rw [h]; exact Bool.false_ne_true)]

/-! ### Update aliases -/

theorem leAt_eq_leNat (l : Bytes) (n : Nat) : ∀ off, off + n = l.length → leAt l off n = leNat (l.drop off) := by
  induction n with
  | zero =>
    intro off h
    rw [List.drop_of_length_le (by omega)]
    rfl
  | succ n ih =>
    intro off h
    have ho : off < l.length := by omega
    rw [List.drop_eq_getElem_cons ho, leAt, ih (off + 1) (by omega), byteAt, List.getD_eq_getElem _ _ ho]
    rfl

theorem aliasIn_pos (op : Nat) : 0 < aliasIn op := by
  unfold aliasIn
  split
  · decide
  · split <;> decide

theorem aliasApply_of_good {s : State} {a i t op : Nat} {data : Bytes} (ht : t = aliasTarget a + i * aliasOut op)
    (ho : op = aliasOp a) (hp : isBad s (directD t / 32) = false) :
    let r := aliasElem op (leNat (peek s t (aliasOut op))) (leAt data (i * aliasIn op) (aliasIn op))
    aliasApply a data s i = setAdderFlags (poke s t (leBytes (aliasOut op) r.1)) t r.2 := by
  subst ht
  subst ho
  unfold aliasApply
  exact if_neg (by rw [hp]; exact Bool.false_ne_true)

/-- A write of one element adds it to its target (R315, R316). The operation and the target are variables here: the kernel would
unfold them to sums with 48-bit constants. -/
theorem aliasWrite_one {s : State} {a t op : Nat} {data : Bytes} (ht : t = aliasTarget a) (ho : op = aliasOp a)
    (hok : aliasOk a data.length = true) (hlen : data.length = aliasIn op) (hc : Clean s t (aliasOut op))
    (hp : directD t / 32 ∉ s.poison) :
    let r := aliasElem op (leNat (peek s t (aliasOut op))) (leNat data)
    aliasWrite s a data = some (setAdderFlags (poke s t (leBytes (aliasOut op) r.1)) t r.2) := by
  have ht0 : t = aliasTarget a + 0 * aliasOut op := by rw [Nat.zero_mul, Nat.add_zero, ht]
  have ha := aliasApply_of_good (data := data) ht0 ho (isBad_eq_false hp)
  have hm : modifySectors s t (aliasOut op) = s := writeSectors_of_clean hc _ _
  have hr : List.range (data.length / aliasIn op) = [0] := by
    rw [hlen, Nat.div_self (aliasIn_pos _)]
    rfl
  have hv : leAt data (0 * aliasIn op) (aliasIn op) = leNat data := by
    rw [← hlen, Nat.zero_mul]
    exact leAt_eq_leNat data _ 0 (Nat.zero_add _)
  intro r
  unfold aliasWrite aliasWriteSome
  rw [if_pos hok, ← ho, hr]
  simp only [← ht0, List.foldl_cons, List.foldl_nil, gt_iff_lt, Nat.lt_irrefl, decide_false, Bool.false_and, Bool.false_eq_true,
    if_false, hm, ha, hv, r]

/-- Settles O23. -/
theorem atomicsAndAliasesComplete : Obligations.AtomicsAndAliasesComplete := by
  refine ⟨?_, ?_, fun a data s => ⟨fun hok hlen hc hp => ?_, fun hok => ?_⟩⟩
  · intro cluster op wide a v s hc n old plain
    refine ⟨fun hpl hok hcl hp => ?_, fun hf => exec_amo_fault v s hc hf, fun t b ho hown hr => ?_, fun ho hown => ?_⟩
    · intro t
      refine (exec_amo_plain hpl wide a v s hc).trans (congrArg _ ?_)
      simp only [n] at hok hcl
      simp only [amoRun, hok, if_true, adderRun_of_clean hcl hp]
      rfl
    · subst ho
      simp only [n] at hown hr
      rw [exec_amo_lr _ _ _ _ _ hc, hown]
      simp only [if_true, loadReserved, hr]
      rfl
    · subst ho
      intro s1
      simp only [n] at hown
      refine ⟨fun hres => ?_, fun t hres hw => ?_⟩
      · have hh : ((clusterAt s cluster).resv == some (a, n, old)) = false := by simpa using hres
        simp only [n, old] at hh
        rw [exec_amo_sc _ _ _ _ _ hc, hown]
        simp only [if_true, storeConditional, hh, Bool.false_eq_true, if_false, s1]
      · have hh : ((clusterAt s cluster).resv == some (a, n, old)) = true := by simpa using hres
        simp only [n, old] at hh
        simp only [n, s1] at hw
        rw [exec_amo_sc _ _ _ _ _ hc, hown]
        simp only [if_true, storeConditional, hh, hw]
  · intro channel a expected new s hch old
    refine ⟨fun hok hc hp => ?_, fun hok => ?_⟩ <;> refine (onUnit_of_lt _ _ _ _ hch).trans (congrArg _ ?_)
    · rw [if_pos hok, adderRun_of_clean hc hp]
      rfl
    · rw [if_neg (by rw [hok]; exact Bool.false_ne_true)]
  · show execUpdateAliasWrite a data s = _
    rw [execUpdateAliasWrite, aliasWrite_one rfl rfl hok hlen hc hp]
  · show execUpdateAliasWrite a data s = _
    simp [execUpdateAliasWrite, aliasWrite, aliasWriteSome, hok]

/-! ### Upkeep of memory -/

/-- Settles O24. -/
theorem memoryUpkeepCompletes : Obligations.MemoryUpkeepCompletes := by
  refine ⟨fun stack s hst hp hh => ?_, fun v s hu hg hv hm => ?_, fun v s hu hg hv hl => ?_, fun results t s hg hl hw => ?_,
    fun stack cause s hst hu hc => ?_, fun c cause s hst hu hc => ?_⟩
  · refine (onUnit_of_lt _ _ _ _ hst).trans (congrArg _ ?_)
    have hgo : ((s.pwr.state == .active || s.pwr.state == .withdrawn) && s.memc.scrubH != 0#32) = true := by
      rcases hp with hp | hp <;> simp [hp, hh]
    rw [if_pos hgo]
  · refine (whenUp_of_up _ _ hu).trans (congrArg _ ?_)
    have hlock : s.hif.lock = false := by simpa using (Bool.and_eq_true_iff.mp (Bool.and_eq_true_iff.mp hm).1).1
    simp only [opMarginCtl, hlock, hv, hg, hm, Bool.not_true, Bool.or_self, Bool.false_eq_true, if_false, if_true, modMem]
  · refine (whenUp_of_up _ _ hu).trans (congrArg _ ?_)
    have hm : marginOk s = false := by simp [marginOk, hl]
    simp only [opMarginCtl, hl, hv, hg, hm, Bool.not_true, Bool.or_self, Bool.false_eq_true, if_false, if_true, modMem]
  · show execMarginSweepDone results s = _
    have ht : (results ++ List.replicate 32 0#16).take 32 = results := by rw [List.take_left' hl]
    simp only [execMarginSweepDone, hg, hw, ht, Bool.not_true, Bool.false_eq_true, if_false, Option.getD_some, modMem]
    rfl
  · refine (onUnit_of_lt _ _ _ _ hst).trans (congrArg _ ?_)
    have hgo : (hostUp s.pwr.state && (cause != .ueRate || stackUeOver s stack)) = true := by
      rcases hc with hc | hc <;> simp [hu, hc]
    rw [if_pos hgo]
  · refine (onUnit_of_lt _ _ _ _ hst).trans (congrArg _ ?_)
    have hgo : (hostUp s.pwr.state && (cause != .ueRate || channelUeOver s c)) = true := by
      rcases hc with hc | hc <;> simp [hu, hc]
    rw [if_pos hgo]

/-! ### Small transfers -/

/-- Settles O25. -/
theorem smallTransfersComplete : Obligations.SmallTransfersComplete := by
  intro cluster s hcl
  refine ⟨fun slotAddr cmd hl => ?_, fun c rest d t u hs hr h0 hl hp hrd hw => ?_⟩ <;>
    refine (onUnit_of_lt _ _ _ _ hcl).trans (congrArg _ ?_)
  · rw [if_pos hl]
  · have hbad : (!c.resOk || c.len = 0 || 256 < c.len) = false := by simp [hr]; omega
    simp [hs, hbad, smallRun, hrd, hw, hp]

/-! ### Queues -/

theorem pushHandle_of_room {s : State} {slot i port qi : Nat} {h : Handle} {g : Graph} {q : Queue} (hg : slotGraph s slot = some g)
    (hp : prodQueue g i port = some qi) (hq : g.queues[qi]? = some q) (hr : queueRoom q (i - q.prodAt) = true)
    (hs : h.seq = q.nextSeq.getD (i - q.prodAt) 0#16) (hm : q.mode ≠ .bcast) (hc : refOf s h.addr ≤ 255) :
    pushHandle s slot i port h = .done (modGraph (modQueue s slot qi fun x => enqueue x (i - q.prodAt) h) slot
      fun x => notePush s.now qi { x with lastMove := s.now, stallOut := false }) := by
  have hgain : (q.mode == .bcast && counted h) = false := by simp [hm]
  simp only [pushHandle, hg, hp, hq, hr, hs, hgain, Bool.not_true, Bool.false_eq_true, if_false, Nat.add_zero, bne_self_eq_false,
    if_true, gt_iff_lt, Nat.not_lt.mpr hc]

theorem pushHandle_of_seq {s : State} {slot i port qi : Nat} {h : Handle} {g : Graph} {q : Queue} (hg : slotGraph s slot = some g)
    (hp : prodQueue g i port = some qi) (hq : g.queues[qi]? = some q) (hr : queueRoom q (i - q.prodAt) = true)
    (hs : h.seq ≠ q.nextSeq.getD (i - q.prodAt) 0#16) :
    pushHandle s slot i port h = .halt (haltCore (alarm s 0 q.qid) slot i .internal) := by
  have hne : (h.seq != q.nextSeq.getD (i - q.prodAt) 0#16) = true := by simpa using hs
  simp only [pushHandle, hg, hp, hq, hr, hne, Bool.not_true, Bool.false_eq_true, if_false, if_true]

/-- Settles O26. -/
theorem queueCommandsComplete : Obligations.QueueCommandsComplete := by
  refine ⟨fun slot i port h g st qi q s hsl hg hst hm hp hq => ⟨fun hr hs hb hc => ?_, fun hr hs => ?_, fun hr => ?_⟩,
    fun slot i port g st s hsl hg hst hm => ⟨fun t h hcq hpop => ⟨?_, ?_⟩, fun r hcq hpop => ?_, fun r hcq => ?_⟩⟩ <;>
    refine (onUnit_of_lt _ _ _ _ hsl).trans (congrArg _ ?_)
  · simp [hg, hst, hm, pushHandle_of_room hg hp hq hr hs hb hc]
  · simp [hg, hst, hm, pushHandle_of_seq hg hp hq hr hs]
  · simp [hg, hst, hm, pushHandle, hp, hq, hr]
  · have hn : (consQueue g i port).isNone = false := by rw [← Option.not_isSome, hcq]; rfl
    simp [hg, hst, hm, hn, hpop]
  · have hn : (consQueue g i port).isNone = false := by rw [← Option.not_isSome, hcq]; rfl
    simp [hg, hst, hm, hn, hpop]
  · have hn : (consQueue g i port).isNone = false := by rw [← Option.not_isSome, hcq]; rfl
    simp [hg, hst, hm, hn, hpop]
  · simp [hg, hst, hm, hcq]

end Sys2Proof.Machine
end

