-- ==== Sys2Proof/Proofs/StreamCommands.lean ====
section
/-! SUPPORT. The LOAD and STORE streams, their claims and re-arms, and MMA descriptors. -/

namespace Sys2Proof.Machine

/-! ### Descriptors of streams -/

/-- A stream that has no descriptor, or is between two, reads the next (R144). -/
theorem stream_reads {s : State} {k : Kind} {core : Nat} {b : Bound} (h : Ready s k core b)
    (hn : b.st.strm.cur = none ∨ b.st.sub ≠ 0) :
    (mayStart s b && decide (b.st.wdi < b.st.workN) && (b.st.strm.cur.isNone || decide (b.st.sub ≠ 0))) = true := by
  obtain ⟨-, hm, hw⟩ := h
  rcases hn with hn | hn <;> simp [hm, hw, hn]

/-- Settles O27. -/
theorem streamDescriptorsComplete : Obligations.StreamDescriptorsComplete := by
  intro core b s hc
  refine ⟨fun r p hr hn hd hp => ?_, fun r e hr hn hd => ?_, fun d r0 s1 r p hr hn hrd hok hp ha hd => ?_⟩ <;>
    refine (onUnit_of_lt _ _ _ _ hc).trans (congrArg _ ?_)
  · simp only [hr.1, stream_reads hr hn, if_true, hd, hp]
  · simp only [hr.1, stream_reads hr hn, if_true, hd]
  · simp only [hr.1, stream_reads hr hn, if_true, hrd, hok, hp, ha, hd, Bool.not_true, Bool.or_self, Bool.false_eq_true, if_false]

/-! ### A LOAD's transfers and a STORE's tiles -/

/-- Settles O28. -/
theorem loadTransfersComplete : Obligations.LoadTransfersComplete := by
  intro core tile b s hc hb hm hsub
  refine ⟨?_, ?_⟩
  · intro p u s1 b1 ho hpl t
    refine (onUnit_of_lt _ _ _ _ hc).trans (congrArg _ ?_)
    simp only [s1, b1] at ho hpl
    simp [hb, hm, hsub, ho, hpl, t, s1, b1]
  · intro p u g outer ho hpl hg
    refine ⟨?_, ?_, ?_⟩
    · refine (onUnit_of_lt _ _ _ _ hc).trans (congrArg _ ?_)
      simp [hb, hm, hsub, ho, hpl, hg]
    · refine (onUnit_of_lt _ _ _ _ hc).trans (congrArg _ ?_)
      simp [hb, hm, hsub, ho, hpl, hg]
    · intro t
      refine (onUnit_of_lt _ _ _ _ hc).trans (congrArg _ ?_)
      simp [hb, hm, hsub, ho, hpl, hg, pageStop, t]

/-- Settles O29. -/
theorem storeTilesComplete : Obligations.StoreTilesComplete := by
  intro core b d t0 t s1 s hc hb hm hsub s0 b0 hcur hhd hg ht s2 b2
  refine (onUnit_of_lt _ _ _ _ hc).trans (congrArg _ ?_)
  simp only [s0, b0] at hcur hhd hg ht
  simp [hb, hm, hsub, hcur, hhd, hg, ht, s2, b2, s0, b0]

/-! ### Claims, translation answers and re-arms -/

/-- Settles O30. -/
theorem claimTemplateAndSideCommands : Obligations.ClaimTemplateAndSideCommands := by
  refine ⟨fun core b d s hc hb hcur hm => ⟨?_, ?_⟩, ?_, ⟨fun core iova side s hc => ?_, ?_, ?_, fun cluster v s hc => ?_,
    fun cluster v t st s hc hr => ?_⟩⟩
  · intro w e i hcl s2 s3 s4
    refine (onUnit_of_lt _ _ _ _ hc).trans (congrArg _ ?_)
    simp only [hb, hcur, hm, if_true, hcl, s4, s3, s2]
  · intro w hcl s2
    refine (onUnit_of_lt _ _ _ _ hc).trans (congrArg _ ?_)
    simp only [hb, hcur, hm, if_true, hcl, s2]
  · intro b d s hcur hcl hout hf hp hd hn s1
    simp only [loadProgress, hcur, hf, hp, hd, hn, hcl, hout, Bool.false_eq_true, if_false, Option.isNone_none,
      decide_true, if_true, Bool.and_self, s1]
  · cases side <;> exact onUnit_of_lt _ _ _ _ hc
  · intro core iova b u s hc s1 hb hu hm hsub s2
    refine (onUnit_of_lt _ _ _ _ hc).trans (congrArg _ ?_)
    simp only [s1] at hb hm
    have hgo : (mayFinish (atsNote s (iova / 4096) false) b && decide (b.st.sub = 0)) = true := by simp [hm, hsub]
    simp only [Bool.false_eq_true, if_false, hb, s2, s1]
    split
    · rename_i v hv
      obtain rfl : v = u := Option.some.inj (hv.symm.trans hu)
      rw [if_pos hgo]
      rfl
    · rename_i hv
      cases hv.symm.trans hu
  · intro core iova b d t s hc s1 hb hcur ht hm hsub hto
    refine (onUnit_of_lt _ _ _ _ hc).trans (congrArg _ ?_)
    simp only [s1] at hb hm hto
    simp [hb, hcur, ht, hm, hsub, hto, storeStop, pageStop, s1]
  · exact onUnit_of_lt _ _ _ _ hc
  · refine (onUnit_of_lt _ _ _ _ hc).trans (congrArg _ ?_)
    simp only [opSuRearm, if_true, hr]

/-! ### MMA -/

/-- An ordinary product whose tile has a buffer: its bytes, its flags and the end it waits for (R118, R120). -/
theorem mmaProduct_of_good {x : Core} {d : MmaDesc} {p : MmaPart} {e : Nat × Nat × Nat} (h1 : 0 < e.1) (h2 : 0 < e.2.1)
    (h3 : 0 < e.2.2) (he : p.empty = false) (hp : isPoison (portStatus p.popped) = false) :
    mmaProduct x d p e
      = ⟨⟨true, false, portStatus p.popped, 256 * e.2.1, 0, some (productTile d (predOf x d.pred) p e.1 e.2.1 e.2.2).1, .ok⟩,
        ⟨(productTile d (predOf x d.pred) p e.1 e.2.1 e.2.2).2, 0, 0⟩, x.chain⟩ := by
  have hn : ¬ (e.1 = 0 ∨ e.2.1 = 0 ∨ e.2.2 = 0 ∨ p.empty = true) := by
    simp only [he, Bool.false_eq_true, or_false]
    omega
  simp only [mmaProduct, if_neg hn, hp, Bool.false_eq_true, if_false]

theorem outBytes_of_product {p : MmaPart} {e : Nat × Nat × Nat} (h1 : 0 < e.1) (h2 : 0 < e.2.1) (h3 : 0 < e.2.2)
    (he : p.empty = false) : outBytes none p e = 256 * e.2.1 := by
  have hn : ¬ (e.1 = 0 ∨ e.2.1 = 0 ∨ e.2.2 = 0 ∨ p.empty = true) := by
    simp only [he, Bool.false_eq_true, or_false]
    omega
  exact if_neg hn

/-- A descriptor whose operands, shape and pops are all there goes on to its pops' end (R119, R123). -/
theorem mmaShape_of_good {s w y z : State} {b : Bound} {d : MmaDesc} {f : Option FuseRec} {p p1 p2 : MmaPart} {e : Nat × Nat × Nat}
    (he : readExt s d = (w, .ok e)) (hu : useReady b d f e 16 w { p1 with ext := some e } = .got y p2)
    (ht : popTurns b d f e 256 y p2 = .got z p) :
    mmaShape s b d f p1 = if popsDone d f p e then mmaFinish (saveBack z b p) b d f p e else saveBack z b p := by
  simp only [mmaShape, he, hu, mmaGo, ht]

theorem mmaStart_of_good {s r q t : State} {b : Bound} {v fb : Bytes} (hr : ctrlRead s (wdAddr b 64) 64 = (r, .ok v))
    (hf : readFuse r (coreAt r b.st.unit) (mmaDescOf v) = (q, .ok fb)) (ho : mmaOk (mmaDescOf v) (fusePart (partOf v fb)) = true)
    (hp : portsBound b (poppedPorts (mmaDescOf v) (fusePart (partOf v fb)))
      (if (match fusePart (partOf v fb) with | some g => g.push | none => true) then [(mmaDescOf v).outPort] else []) = true)
    (hh : heldMissing (coreAt r b.st.unit) (mmaDescOf v) = false) (hl : loadPred q b (mmaDescOf v) = some (t, .ok ())) :
    mmaStart s b = mmaAnchor t b (mmaDescOf v) (fusePart (partOf v fb)) (partOf v fb) := by
  unfold mmaStart
  rw [hr]
  dsimp only
  rw [hf]
  dsimp only
  rw [ho, if_neg, if_neg, hl]
  · rw [hh]
    exact Bool.false_ne_true
  · rw [Bool.not_true, Bool.false_or, Bool.not_eq_true', Bool.not_eq_false]
    exact hp

theorem mmaAnchor_of_good {t u : State} {b : Bound} {d : MmaDesc} {f : Option FuseRec} {p0 p1 : MmaPart}
    (h : match anchorKind d f with
      | none => u = t ∧ p1 = p0
      | some k => popStep t b d f p0 k = .got u p1) : mmaAnchor t b d f p0 = mmaShape u b d f p1 := by
  unfold mmaAnchor
  cases hk : anchorKind d f with
  | none =>
    rw [hk] at h
    obtain ⟨rfl, rfl⟩ := h
    rfl
  | some k =>
    rw [hk] at h
    dsimp only at h ⊢
    rw [h]

/-- An ordinary product that has a buffer and is pushed ends its descriptor (R118, R120, R125). -/
theorem mmaFinish_of_product {s s2 s3 s6 : State} {b : Bound} {d : MmaDesc} {p p3 p4 : MmaPart} {e : Nat × Nat × Nat}
    {pool addr : Nat} (hheld : useHeld s (coreAt s b.st.unit) d none p e = some (s2, p3))
    (hlate : useLate s2 b d none p3 e = some (s3, p4)) (h1 : 0 < e.1) (h2 : 0 < e.2.1) (h3 : 0 < e.2.2) (hemp : p4.empty = false)
    (hpois : isPoison (portStatus p4.popped) = false) (hholds : poolHolds s3 b d.outPort (256 * e.2.1) = true) :
    let x := coreAt s3 b.st.unit
    let tile := productTile d (predOf x d.pred) p4 e.1 e.2.1 e.2.2
    let s4 := releaseAll s3 b.slot b.idx (heldGone x d ++ p4.wc ++ p4.wv ++ p4.rest)
    let o : MmaOut := ⟨true, false, portStatus p4.popped, 256 * e.2.1, 0, some tile.1, .ok⟩
    let s5 := modCore (setChain (raise (updateHolds s4 b.st.unit d p4) b.st.unit ⟨tile.2, 0, 0⟩) b.st.unit x.chain) b.st.unit
      fun y => { y with part := some { p4 with wc := [], wv := [], rest := [], keepA := [], keepB := [], out := some o } }
    hasHalted s4 b = false → mmaPush s5 b d p4.tag o = .ok s6 pool addr → mmaFinish s b d none p e = mmaEnd s6 b d .ok := by
  intro x tile s4 o s5 hh hpush
  have hch : ((coreAt s3 b.st.unit).chain.isSome && (coreAt s3 b.st.unit).chain.isNone) = false := by
    cases (coreAt s3 b.st.unit).chain <;> rfl
  simp only [x, s4] at hh
  simp only [s5, s4, o, tile, x] at hpush
  simp only [mmaFinish, hheld, hlate, outBytes_of_product h1 h2 h3 hemp, hholds, mmaProduct_of_good h1 h2 h3 hemp hpois, mmaClose, hh,
    Bool.true_eq_false, and_false, Bool.false_eq_true, if_false, hch, mmaPushOut, Bool.not_true, hpush]

/-- Settles O31. -/
theorem mmaDescriptorCompletes : Obligations.MmaDescriptorCompletes := by
  refine ⟨?_, fun core b p o s t pool addr hc hb hp ho hm hpush hemp hpp => ?_⟩
  · intro core b v fb e p1 p2 p s r q t u w y z hc d p0 f hrdy hpart hr hf hok hports hheld hl hanchor he hu ht
    have hstart : exec (.mmaDescriptor core) s = .next (mmaShape u b d f p1) := by
      refine (onUnit_of_lt _ _ _ _ hc).trans (congrArg _ ?_)
      have hgo : (mayStart s b && decide (b.st.wdi < b.st.workN)) = true := by simp [hrdy.2.1, hrdy.2.2]
      simp only [hrdy.1, hpart, hgo, if_true]
      exact (mmaStart_of_good hr hf hok hports hheld hl).trans (mmaAnchor_of_good hanchor)
    rw [mmaShape_of_good he hu ht] at hstart
    refine ⟨fun hd => ?_, fun hd => ?_, ?_⟩
    · rw [hstart, if_pos hd]
    · rw [hstart, hd]
      rfl
    · intro s2 s3 s6 p3 p4 pool addr hd hfn h1 h2 h3 hheld' hlate hemp hpois hholds x tile s4 o s5 hh hpush
      rw [hstart, if_pos hd, hfn]
      rw [hfn] at hheld' hlate
      exact congrArg _ (mmaFinish_of_product hheld' hlate h1 h2 h3 hemp hpois hholds hh hpush)
  · refine (onUnit_of_lt _ _ _ _ hc).trans (congrArg _ ?_)
    simp [hb, hp, ho, hm, mmaPushOut, hpush, hemp, hpp]

end Sys2Proof.Machine
end

