-- ==== Sys2Proof/Proofs/VecAndSsa.lean ====
section
/-! SUPPORT. The VEC operations on one tile, and the jobs of the stack side attention. -/

namespace Sys2Proof.Machine

/-! ### VEC -/

/-- Every VEC operation is the one tile of its plan. -/
theorem exec_of_vecPlan {c : Instr} {io : VecIO} {p : VecPlan} (h : vecPlan c = some (io, p)) (s : State) :
    exec c s = vecCmd s io p := by
  cases c <;> cases h <;> rfl

section
variable {s s1 : State} {b : Bound} {io : VecIO} {p : VecPlan} {hs : List Handle}

/-- The ports an operation pushes on, as its plan has them without a tile. -/
def planPorts (io : VecIO) (p : VecPlan) : List Nat :=
  (p.outs (emptyHandle io.tag io.last)).map Prod.fst

/-- The VEC station may take a tile: its ports are bound, there is room ahead, and its inputs are popped (R28, R35). -/
structure TileTaken (s s1 : State) (b : Bound) (io : VecIO) (p : VecPlan) (hs : List Handle) : Prop where
  ready : Ready s .vec io.core b
  okRec : p.okRec = true
  bound : portsBound b io.inPorts (planPorts io p) = true
  needs : (p.needs (emptyHandle io.tag io.last)).length = io.inPorts.length
  distinct : allDistinct io.inPorts = true
  room : canPushAll s b.slot b.idx (planPorts io p) = true
  popped : popAll s b.slot b.idx io.inPorts = some (s1, hs)

theorem vecTile_of_taken (h : TileTaken s s1 b io p hs) :
    vecTile s io p =
      if hs.any isEmptyHandle || io.m = 0 || io.n = 0 then
        vecEmpty (releaseAll s1 b.slot b.idx hs) b io (planPorts io p) (hs.headD (emptyHandle io.tag io.last)).pred
      else
        match vecRead (p.sees (predOf (coreAt s1 io.core) (hs.headD (emptyHandle io.tag io.last)).pred)) 0 s1
            (hs.zip (p.needs (hs.headD (emptyHandle io.tag io.last)))) with
        | none => haltStation s b .badDescriptor
        | some q =>
          if isPoison (portStatus (io.inPorts.zip q.2.2)) then
            vecOut s q.1 b io hs (hs.headD (emptyHandle io.tag io.last)).pred (portStatus (io.inPorts.zip q.2.2))
              (p.outs (hs.headD (emptyHandle io.tag io.last))) [] fl0
          else
            match p.body q.1 (predOf (coreAt q.1 io.core) (hs.headD (emptyHandle io.tag io.last)).pred) q.2.1 with
            | .bad => haltStation s b .badDescriptor
            | .poison t =>
              vecOut s t b io hs (hs.headD (emptyHandle io.tag io.last)).pred .pagePoisoned
                (p.outs (hs.headD (emptyHandle io.tag io.last))) [] fl0
            | .skip t =>
              vecEmpty (releaseAll t b.slot b.idx hs) b io (planPorts io p) (hs.headD (emptyHandle io.tag io.last)).pred
            | .ok t ds fl =>
              vecOut s t b io hs (hs.headD (emptyHandle io.tag io.last)).pred (portStatus (io.inPorts.zip q.2.2))
                (((p.outs (hs.headD (emptyHandle io.tag io.last))).zip ds).map fun x => (x.1.1, x.2.length)) ds fl := by
  obtain ⟨⟨hb, hm, hw⟩, ho, hp, hn, hd, hr, hq⟩ := h
  unfold planPorts at hp hr
  have hw' : ¬ b.st.workN ≤ b.st.wdi := by omega
  simp only [vecTile, hb, hm, hw', ho, hp, hn, hd, hr, hq, Bool.not_true, Bool.or_self, decide_false, Bool.false_eq_true,
    if_false, ne_eq, not_true_eq_false]
  rfl

theorem vecOut_of_drawn {s0 t : State} {pred : Nat} {st : Status} {outs at' : List (Nat × Nat)} {data : List Bytes} {fl : Fl3}
    (h : drawAll s b outs = .ok t at') :
    vecOut s0 s b io hs pred st outs data fl
      = vecPush (releaseAll (raise t io.core fl) b.slot b.idx hs) b io pred st outs at' data := by
  simp only [vecOut, h]

end

/-- Settles O32. -/
theorem vecOperationsComplete : Obligations.VecOperationsComplete := by
  intro c io p b s s1 hs hc hcore hready hok h0 h ports hports hneeds hdist hroom hpop
  have taken : TileTaken s s1 b io p hs := ⟨hready, hok, hports, hneeds, hdist, hroom, hpop⟩
  have hexec : exec c s = .next (vecTile s io p) := (exec_of_vecPlan hc s).trans (onUnit_of_lt _ _ _ _ hcore)
  rw [hexec, vecTile_of_taken taken]
  refine ⟨fun he => congrArg _ (if_pos ?_), fun s2 ds sts he hm hn hread => ?_⟩
  · simpa [or_assoc] using he
  · have hne : ¬ (hs.any isEmptyHandle || io.m = 0 || io.n = 0) = true := by simp [he]; omega
    rw [if_neg hne, hread]
    refine ⟨?_, fun s4 at' hst hdraw => congrArg _ ?_⟩
    · intro s3 s4 outs fl at' hst hbody sizes hdraw
      refine congrArg _ ?_
      dsimp only
      rw [hst, if_neg Bool.false_ne_true, hbody]
      exact vecOut_of_drawn hdraw
    · dsimp only
      rw [hst, if_pos rfl]
      exact vecOut_of_drawn hdraw

/-! ### The stack side attention -/

/-- A descriptor that is good and whose ports are bound opens its job (R226). -/
theorem ssaOpen_of_good {s r : State} {k : Nat} {b : Bound} {v : Bytes} (hr : ctrlRead s (wdAddr b 64) 64 = (r, .ok v))
    (hok : ssaDescOk (ssaDescOf v) = true) (hp : portsBound b [0] (if (ssaDescOf v).mass then [0, 1] else [0]) = true) :
    ssaOpen s k b = modSsa (setJob r k (some ⟨b.slot, b.idx, ssaDescOf v, 0, none, [], [], none⟩)) k
      fun x => { x with halted := false } := by
  simp only [ssaOpen, hr, hok, hp, Bool.not_true, Bool.or_self, Bool.false_eq_true, if_false]

/-- A tile with a good header whose pages are taken adds them to the job (R227). -/
theorem arriveTile_of_pages {s u : State} {k : Nat} {j : SsaJob} {h : Handle} {v : Bytes} {ps : List PageDesc}
    (he : isEmptyHandle h = false) (hst : h.status = .ok) (hr : ctrlRead s h.addr (min h.bytes 2048) = (u, .ok v)) (hb : 64 ≤ h.bytes)
    (hok : tileHdrOk h (tileHdrOf v) j.hdr = true)
    (hp : takePages u k j.desc.mass (tileHdrOf v) v (tileHdrOf v).ndesc j.pages = some ps) (hn : ps.length ≤ 8192) :
    arriveTile s k j h = (u, .ok { j with
      closed := j.closed + flag (tileHdrOf v).final, hdr := some (j.hdr.getD (tileHdrOf v)), pages := ps }) := by
  have hb' : ¬ h.bytes < 64 := by omega
  have hn' : ¬ 8192 < ps.length := by omega
  simp only [arriveTile, he, hst, hr, hb', hok, hp, hn', bne_self_eq_false, Bool.false_eq_true, decide_false, Bool.not_true, Bool.or_self,
    if_false]

section
variable {stack : Nat} {b : Bound} {s : State} {j : SsaJob}

/-- A tile popped for a job that is not full goes into it (R227). -/
theorem execDescriptorTileArrival_of_popped {t : State} {h : Handle} (hs : stack < 8) (hb : bound s .ssa stack = some b)
    (hj : (ssaAt s stack).job = some j) (hh : (ssaAt s stack).halted = false) (hm : mayFinish s b = true)
    (hc : j.closed < j.desc.npart) (hp : popHandle s b.slot b.idx 0 = some (t, h)) {u : State} {j1 : SsaJob}
    (ha : arriveTile t stack j h = (u, .ok j1)) :
    exec (.descriptorTileArrival stack) s = .next (setJob u stack (some { j1 with tiles := j1.tiles ++ [h] })) := by
  refine (onUnit_of_lt _ _ _ _ hs).trans (congrArg _ ?_)
  have hc' : ¬ j.desc.npart ≤ j.closed := by omega
  simp [hb, hj, hh, hm, hc', hp, ha]

/-- A job whose partitions are all closed ends (R225). -/
theorem execSsaJobClose_of_closed (hs : stack < 8) (hb : bound s .ssa stack = some b)
    (hj : (ssaAt s stack).job = some j) (hh : (ssaAt s stack).halted = false) (hm : mayFinish s b = true)
    (hc : j.desc.npart ≤ j.closed) (hl : (stackAt s stack).level ≠ 3) :
    exec (.ssaJobClose stack) s = .next (ssaEnd s stack b j) := by
  refine (onUnit_of_lt _ _ _ _ hs).trans (congrArg _ ?_)
  have hc' : ¬ j.closed < j.desc.npart := by omega
  simp [hb, hj, hh, hm, hc', hl]

end

/-- Settles O33. -/
theorem ssaCommandsComplete : Obligations.SsaCommandsComplete := by
  intro stack b s hs hb
  refine ⟨fun r v hj ⟨_, hm, hw⟩ hr hok hp => ?_, fun j hj hh hm => ⟨fun t h hc hp => ⟨fun he => ?_, fun he hst => ?_,
    fun u v ps he hst hr hb64 hok htp hn => ?_⟩, fun hc hl hroom => ?_⟩⟩
  · refine (onUnit_of_lt _ _ _ _ hs).trans (congrArg _ ?_)
    rw [hb]
    dsimp only
    rw [hj]
    exact (if_pos (by rw [hm, decide_eq_true hw]; rfl)).trans (ssaOpen_of_good hr hok hp)
  · exact execDescriptorTileArrival_of_popped hs hb hj hh hm hc hp (if_pos he)
  · refine execDescriptorTileArrival_of_popped hs hb hj hh hm hc hp
      ((if_neg (Bool.eq_false_iff.1 he)).trans (if_pos ?_))
    simpa using hst
  · exact execDescriptorTileArrival_of_popped hs hb hj hh hm hc hp (arriveTile_of_pages he hst hr hb64 hok htp hn)
  · rw [execSsaJobClose_of_closed hs hb hj hh hm hc hl]
    unfold ssaEnd
    rw [if_neg (by simp [hroom])]
    refine ⟨fun hbad hhdr => ?_, fun st hbad => ?_, fun h t q hbad hhdr hr h64 => ?_⟩
    · rw [hbad, hhdr]
    · rw [hbad]
    · rw [hbad, hhdr]
      dsimp only
      rw [hr]
      dsimp only
      rw [if_neg (by omega)]

end Sys2Proof.Machine

end

