-- ==== Sys2Proof/Proofs/PageOperations.lean ====
section
/-! SUPPORT. WALK's operations on sequences: their locks, the readers an ATTEND keeps, and the moves. -/

namespace Sys2Proof.Machine

/-! ### The descriptor, the locks and the list of freed pages -/

/-- A WALK station at a descriptor of the operation runs it on the state that holds the descriptor (R197). -/
theorem walkCmd_of_walkAt {s r : State} {cluster op : Nat} {b : Bound} {d : WalkDesc} (h : WalkAt s cluster op b d r)
    {run : Bound → WalkDesc → State → Walked} {x : Walked} (hx : run b d r = x) :
    walkCmd cluster op run s = .next (walkEnd b d x) := by
  subst hx
  obtain ⟨hc, hb, hw, hm, hop, v, hr, rfl, hres, rfl⟩ := h
  refine (onUnit_of_lt _ _ _ _ hc).trans (congrArg _ ?_)
  have hw' : ¬ b.st.workN ≤ b.st.wdi := by omega
  have hgo : (mayStart s b || (mayFinish s b && walkBusy s b)) = true := by rcases hm with h | ⟨h1, h2⟩ <;> simp [*]
  have hop' : walkOpOk (walkDescOf v).op = true := decide_eq_true hop
  simp only [hb, hw', hgo, hr, hres, hop', Bool.not_true, decide_false, Bool.or_self, Bool.false_eq_true, if_false, if_true]

/-- An operation whose sequences' locks are free runs in the state that holds them (R198). -/
theorem locked_of_granted {s t : State} {b : Bound} {seqs : List Nat} (h : Granted s b seqs t) (run : State → Walked) :
    locked b seqs run s = run t := by
  obtain ⟨hfree, rfl⟩ := h
  exact if_pos hfree

/-- An operation on one sequence whose lock is free and whose record reads goes on with the record. -/
theorem freeWithList_of_freed {d : WalkDesc} {q : SeqRec} {lps : List (Nat × Nat)} {fin : State → State} {s w : State}
    (hm : lps.any (moving s q) = false) (hspan : spanOk d.rec_ (4 + 8 * (ownedLocs s q lps).length) = true)
    (hp : pages (freePage q) s false lps = .ok w false) :
    freeWithList d q lps fin s = .done ((memWrite (fin w) d.rec_ (returnList (ownedLocs s q lps))).getD (fin w)) .ok := by
  simp only [freeWithList, hm, hspan, hp, Bool.not_true, Bool.false_eq_true, if_false]

theorem runFreeze_of_granted {s t u : State} {b : Bound} {d : WalkDesc} {q : SeqRec} (hg : Granted s b [d.seqid] t)
    (hq : readSeq t d.seqid = (u, .ok q)) (v : Bool) :
    runFreeze v b d s = .done (writeSeq u d.seqid { q with frozen := v }) .ok := by
  unfold runFreeze
  rw [locked_of_granted hg, hq]

/-- A station that waits for a lock at a FREEZE retries it once the lock is free. -/
theorem execSequenceLockGrant_of_freeze {s : State} {cluster : Nat} {b : Bound} (hc : cluster < 16)
    (hb : bound s .walk cluster = some b) (hop : byteAt (peek s (wdAddr b 64) 1) 0 = 0x0C) (hw : b.st.wait.isSome = true) :
    exec (.sequenceLockGrant cluster) s = execFreeze cluster s := by
  have hw' : b.st.wait.isNone = false := by simpa using hw
  show execSequenceLockGrant cluster s = _
  rw [execSequenceLockGrant, if_neg (by omega)]
  simp only [hb, hw', hop, Bool.false_eq_true, if_false]
  rfl

/-- Settles O34. -/
theorem sequenceOperationsComplete : Obligations.SequenceOperationsComplete := by
  intro cluster op b d s r t u q hat hg hq
  refine ⟨fun ls ps w hop hl hf hls hps hpg hsub => ?_, fun x hop hlen hloc => ?_, ?_, ?_, fun hop => ⟨?_, fun hop' hw => ?_⟩,
    fun hop => ?_⟩
  · subst hop
    refine walkCmd_of_walkAt hat ?_
    rw [runPrepare, if_neg hl, locked_of_granted hg]
    simp only [hq, hf, hls, hps, hpg, hsub, Bool.false_eq_true, Bool.false_or, if_false, ne_eq, not_true_eq_false, decide_false]
  · subst hop
    refine walkCmd_of_walkAt hat ?_
    have h1 : ¬ d.pos < seqLength q := by omega
    have h2 : ¬ d.pos = seqLength q := by omega
    rw [runExtend, locked_of_granted hg]
    simp only [hq, h1, h2, hloc, if_false]
  · intro w hop hpos lps locs hm hspan hpg x
    subst hop
    refine walkCmd_of_walkAt hat ?_
    have h1 : ¬ d.pos < (spanOf q q.tail).1 := by omega
    rw [runTruncate, locked_of_granted hg]
    simp only [hq, h1, if_false]
    exact freeWithList_of_freed hm hspan hpg
  · intro w hop lps locs hm hspan hpg x
    subst hop
    refine walkCmd_of_walkAt hat ?_
    rw [runRelease, locked_of_granted hg]
    simp only [hq]
    exact freeWithList_of_freed hm hspan hpg
  · subst hop
    exact walkCmd_of_walkAt hat (runFreeze_of_granted hg hq _)
  · subst hop
    rw [execSequenceLockGrant_of_freeze hat.1 hat.2.1 hop' hw]
    exact walkCmd_of_walkAt hat (runFreeze_of_granted hg hq _)
  · subst hop
    exact walkCmd_of_walkAt hat (runFreeze_of_granted hg hq _)

/-! ### What leaves the readers as they were -/

theorem EventFrame.kvc {s t : State} (h : EventFrame s t) : t.kvc = s.kvc := by rw [h.1]
theorem HostOnly.kvc {s t : State} (h : HostOnly s t) : t.kvc = s.kvc := by rw [h]
theorem WritesQueues.kvc {s t : State} (h : WritesQueues s t) : t.kvc = s.kvc := by rw [h.1]

theorem graphEvent_kvc (s : State) (slot ev : Nat) (st : Status) (station place : Nat) :
    (graphEvent s slot ev st station place).kvc = s.kvc := by
  unfold graphEvent
  split
  · rfl
  · split
    · exact (ctrSat_frame _ _ _ _).kvc
    · exact (postEntry_hostOnly _ _ _ _).kvc

theorem haltCore_kvc (s : State) (slot i : Nat) (st : Status) : (haltCore s slot i st).kvc = s.kvc := by
  unfold haltCore
  split
  · rfl
  · dsimp only
    split
    · exact (event_frame _ _).kvc
    · split
      · exact (finishCmd_writesQueues _ _ _).kvc.trans ((graphEvent_kvc _ _ _ _ _ _).trans (event_frame _ _).kvc)
      · exact (graphEvent_kvc _ _ _ _ _ _).trans (event_frame _ _).kvc

/-- A push leaves the pages and their readers as they were. -/
def Pushed.LeavesPages (s : State) : Pushed → Prop
  | .stall => True
  | .halt t | .done t => t.kvc = s.kvc

theorem pushHandle_kvc (s : State) (slot i port : Nat) (h : Handle) : (pushHandle s slot i port h).LeavesPages s := by
  unfold pushHandle
  split
  · trivial
  · split
    · exact haltCore_kvc _ _ _ _
    · split
      · trivial
      · rename_i q _
        dsimp only
        split
        · trivial
        · split
          · exact (haltCore_kvc _ _ _ _).trans (alarm_frame _ _ _).kvc
          · generalize (if (q.mode == .bcast && counted h) = true then q.consN - 1 else 0) = gain
            split
            · exact haltCore_kvc _ _ _ _
            · show State.kvc (if gain = 0 then s else setRef s h.addr (refOf s h.addr + gain)) = s.kvc
              split <;> rfl

theorem emit_kvc (s : State) (slot i port : Nat) (h : Handle) : (emit s slot i port h).kvc = s.kvc := by
  unfold emit
  split
  · rfl
  · split
    · rfl
    · rename_i st _
      have hp := pushHandle_kvc s slot i port { h with seq := st.outSeq.getD port 0#16 }
      dsimp only
      generalize pushHandle s slot i port { h with seq := st.outSeq.getD port 0#16 } = p at hp
      cases p with
      | stall => rfl
      | halt t => exact hp
      | done t => exact hp

theorem returnBuffer_kvc (s : State) (h : Handle) : (returnBuffer s h).kvc = s.kvc := by
  unfold returnBuffer freeRingSlot
  split
  · dsimp only
    split <;> rfl
  · rfl

/-- The station has no ATTEND in progress. -/
def NotReading (s : State) (b : Bound) : Prop := ∀ r ∈ s.kvc.readers, (r.station == (b.slot, b.idx) && r.running) = false

theorem notReading_iff (s : State) (b : Bound) : NotReading s b ↔ readerOf s b = none := by
  simp [NotReading, readerOf, List.find?_eq_none]

theorem NotReading.of_kvc {s t : State} {b : Bound} (h : NotReading s b) (hk : t.kvc = s.kvc) : NotReading t b := by
  unfold NotReading
  rw [hk]
  exact h

theorem readersTold_notReading {s : State} {b : Bound} (h : NotReading s b) (a : Nat) : NotReading (readersTold s a).1 b := by
  intro r hr
  obtain ⟨q, hq, rfl⟩ := List.mem_map.1 (List.mem_filter.1 hr).1
  exact h q hq

/-- Releasing a handle starts no ATTEND: at most it ends ones that wait for their tiles (R199). -/
theorem releaseN_notReading {b : Bound} (n : Nat) : ∀ (s : State) (slot i : Nat) (h : Handle), NotReading s b →
    NotReading (releaseN n s slot i h) b := by
  induction n with
  | zero => exact fun _ _ _ _ h => h
  | succ n ih =>
    intro s slot i x h
    simp only [releaseN]
    split
    · exact h
    · split
      · exact h.of_kvc ((haltCore_kvc _ _ _ _).trans (alarm_frame _ _ _).kvc)
      · split
        · have hr : NotReading (readersTold (returnBuffer (setRef s x.addr 0) x) x.addr).1 b :=
            readersTold_notReading (h.of_kvc (returnBuffer_kvc (setRef s x.addr 0) x)) _
          exact List.foldlRecOn (motive := fun t => NotReading t b) _ _ hr fun t ht q _ => ih t _ _ _ ht
        · exact h

theorem releaseAll_notReading {s : State} {b : Bound} (h : NotReading s b) (slot i : Nat) (hs : List Handle) :
    NotReading (releaseAll s slot i hs) b :=
  List.foldlRecOn (motive := fun t => NotReading t b) _ _ h fun t ht q _ => releaseN_notReading 4 t slot i q ht

theorem popJoin_notReading {s t : State} {b : Bound} {slot i qi : Nat} {q : Queue} {k : Nat} {h : Handle} (hs : NotReading s b)
    (hp : popJoin s slot i qi q k = some (t, h)) : NotReading t b := by
  unfold popJoin at hp
  split at hp
  · cases hp
  · split at hp
    · cases hp
    · split at hp
      · cases hp
      · have hall (f : Queue → Queue) (l : List Handle) : NotReading (releaseAll (modQueue s slot qi f) slot i l) b :=
          releaseAll_notReading (s := modQueue s slot qi f) (NotReading.of_kvc hs rfl) slot i l
        obtain ⟨-, hp⟩ | ⟨-, hp⟩ := ite_eq_iff.1 hp
        · cases hp
          exact hs
        · obtain ⟨-, hp⟩ | ⟨-, hp⟩ := ite_eq_iff.1 hp
          · obtain ⟨-, hp⟩ | ⟨-, hp⟩ := ite_eq_iff.1 hp
            · cases hp
              exact NotReading.of_kvc (hall _ _) (haltCore_kvc _ _ _ _)
            · cases hp
              exact hall _ _
          · cases hp
            exact hall _ _

theorem popHandle_notReading {s t : State} {b : Bound} {slot i port : Nat} {h : Handle} (hs : NotReading s b)
    (hp : popHandle s slot i port = some (t, h)) : NotReading t b := by
  unfold popHandle at hp
  split at hp
  · cases hp
  · split at hp
    · cases hp
    · split at hp
      · cases hp
      · dsimp only at hp
        split at hp
        · exact popJoin_notReading (s := modQueue (modGraph s slot _) slot _ _) hs hp
        · split at hp
          · cases hp
          · split at hp
            · cases hp
            · cases hp
              exact hs
        · obtain ⟨e, -, he⟩ := Option.map_eq_some_iff.1 hp
          cases he
          exact hs
        · split at hp <;> cases hp
          exact hs

/-! ### ATTEND's reader -/

/-- The reader with which an ATTEND starts at a sequence. -/
def freshReader (s : State) (b : Bound) (seqid : Option Nat) : Reader :=
  ⟨b.st.unit, (b.slot, b.idx), seqid, s.kvc.epoch.toNat, [], true, none, [], .ok⟩

theorem startReader_of_notReading {s : State} {b : Bound} (h : NotReading s b) (seqid : Option Nat) :
    (startReader s b b.st.unit seqid).kvc = { s.kvc with readers := s.kvc.readers ++ [freshReader s b seqid] } := by
  have hn : (s.kvc.readers.any fun r => r.station == (b.slot, b.idx) && r.running) = false := List.any_eq_false.2 fun r hr => by
    rw [h r hr]
    exact Bool.false_ne_true
  rw [startReader, hn]
  rfl

/-- The readers' changes of a station that has one reader, the last, change that one alone. -/
theorem setReader_kvc {s : State} {b : Bound} {l : List Reader} {r : Reader}
    (hl : ∀ x ∈ l, (x.station == (b.slot, b.idx) && x.running) = false) (hr : (r.station == (b.slot, b.idx) && r.running) = true)
    (hs : s.kvc.readers = l ++ [r]) (f : Reader → Reader) : (setReader s b f).kvc = { s.kvc with readers := l ++ [f r] } := by
  have hmap : (l.map fun x => if x.station == (b.slot, b.idx) && x.running then f x else x) = l :=
    (List.map_congr_left fun x hx => by rw [hl x hx]; rfl).trans (List.map_id l)
  simp only [setReader, hs, List.map_append, hmap, List.map_cons, List.map_nil, hr, if_true]

theorem readerOf_of_last {s : State} {b : Bound} {l : List Reader} {r : Reader}
    (hl : ∀ x ∈ l, (x.station == (b.slot, b.idx) && x.running) = false) (hr : (r.station == (b.slot, b.idx) && r.running) = true)
    (hs : s.kvc.readers = l ++ [r]) : readerOf s b = some r := by
  have hn : (l.find? fun x => x.station == (b.slot, b.idx) && x.running) = none := List.find?_eq_none.2 fun x hx => by
    rw [hl x hx]
    exact Bool.false_ne_true
  simp only [readerOf, hs, List.find?_append, hn, Option.none_or, List.find?_cons, hr]

/-- Handles without a tile move no page. -/
theorem flushOuts_kvc {b : Bound} {d : WalkDesc} {outs : List WalkOut} : ∀ {s w : State}, (∀ o ∈ outs, o.body = none) →
    flushOuts b d s outs = .all w → w.kvc = s.kvc := by
  induction outs with
  | nil =>
    intro s w _ h
    cases h
    rfl
  | cons o t ih =>
    intro s w ho h
    rw [flushOuts] at h
    split at h
    · cases h
    · rw [ho o List.mem_cons_self] at h
      exact (ih (fun x hx => ho x (List.mem_cons_of_mem _ hx)) h).trans (emit_kvc _ _ _ _ _)

/-- The reader of an ATTEND of no layer when its handles are pushed. -/
def quietReader (s : State) (b : Bound) (seqid : Option Nat) (h : Handle) (outs : List WalkOut) : Reader :=
  { freshReader s b seqid with query := some h, out := outs, ends := .empty }

theorem freshReader_reads (s : State) (b : Bound) (seqid : Option Nat) :
    ((freshReader s b seqid).station == (b.slot, b.idx) && (freshReader s b seqid).running) = true := by
  show ((b.slot, b.idx) == (b.slot, b.idx) && true) = true
  rw [beq_self_eq_true, Bool.and_self]

/-- An ATTEND of no layer whose handles are all pushed ends with EMPTY and lets its query go (R199). -/
theorem attendGo_quiet {b : Bound} {d : WalkDesc} {q : SeqRec} {n : Nat} {s w : State} {l : List Reader} {r : Reader} {h : Handle}
    (hl : ∀ x ∈ l, (x.station == (b.slot, b.idx) && x.running) = false) (hr : (r.station == (b.slot, b.idx) && r.running) = true)
    (hs : s.kvc.readers = l ++ [r]) (ho : ∀ o ∈ r.out, o.body = none) (hq : r.query = some h) (hb : r.bufs = [])
    (he : r.ends = .empty) (hd : d.layers = 0) (hf : flushOuts b d s r.out = .all w) :
    let w1 := setReader (setReader w b fun x => { x with out := [] }) b fun x => { x with running := false }
    let w2 := { w1 with kvc := { w1.kvc with readers := w1.kvc.readers.filter fun x =>
      !(x.station == (b.slot, b.idx) && !x.running && x.bufs.isEmpty) } }
    attendGo b d q (n + 1) s = .done (release w2 b.slot b.idx h) .empty := by
  intro w1 w2
  have hw : w.kvc.readers = l ++ [r] := (congrArg Kvc.readers (flushOuts_kvc ho hf)).trans hs
  have hend : readerOf (setReader w b fun x => { x with out := [] }) b = some { r with out := [] } :=
    readerOf_of_last hl hr (congrArg Kvc.readers (setReader_kvc hl hr hw _))
  simp only [attendGo, readerOf_of_last hl hr hs, hf, hd, Nat.zero_le, if_true, attendEnd, hend, hq, hb, he, List.isEmpty_nil]
  rfl

theorem quietOuts_of_no_layer (d : WalkDesc) :
    quietOuts d 1 (fun _ => none) .empty = (List.range 8).map fun k => (⟨k, none, .empty, true⟩ : WalkOut) := rfl

/-- An ATTEND that ends does not halt. -/
theorem execAttend_of_done {s r w : State} {cluster : Nat} {b : Bound} {d : WalkDesc} {st : Status}
    (h : WalkAt s cluster 0x01 b d r) (hr : runAttend b d r = .done w st) :
    exec (.attend cluster) s = .next (walkEnd b d (.done w st)) := by
  show execAttend cluster s = _
  unfold execAttend
  refine walkCmd_of_walkAt h ?_
  rw [hr]

/-- ATTEND with LAYERS = 0 (R199). -/
theorem runAttend_of_no_layer {r t w : State} {b : Bound} {d : WalkDesc} {h : Handle}
    (hp : portsBound b [0] (List.range 8) = true) (hn : readerOf r b = none) (hd : d.layers = 0)
    (hpop : popHandle r b.slot b.idx 0 = some (t, h)) :
    let t1 := modStation (startReader t b b.st.unit (some d.seqid)) b.slot b.idx fun x => { x with sub := 0 }
    let outs := (List.range 8).map fun k => (⟨k, none, .empty, true⟩ : WalkOut)
    let t2 := setReader t1 b fun x => { x with query := some h, out := outs, ends := .empty }
    flushOuts b d t2 outs = .all w →
    let w1 := setReader (setReader w b fun x => { x with out := [] }) b fun x => { x with running := false }
    let w2 := { w1 with kvc := { w1.kvc with readers := w1.kvc.readers.filter fun x =>
      !(x.station == (b.slot, b.idx) && !x.running && x.bufs.isEmpty) } }
    runAttend b d r = .done (release w2 b.slot b.idx h) .empty := by
  intro t1 outs t2 hf w1 w2
  have ht : NotReading t b := popHandle_notReading ((notReading_iff r b).2 hn) hpop
  have h1 : t1.kvc.readers = t.kvc.readers ++ [freshReader t b (some d.seqid)] :=
    congrArg Kvc.readers (startReader_of_notReading ht (some d.seqid))
  have h2 : t2.kvc.readers = t.kvc.readers ++ [quietReader t b (some d.seqid) h outs] :=
    congrArg Kvc.readers (setReader_kvc ht (freshReader_reads t b _) h1 _)
  have hgo := attendGo_quiet (q := seqRecOf []) (n := 1) (r := quietReader t b (some d.seqid) h outs) ht (freshReader_reads t b (some d.seqid)) h2
    (fun o ho => by
      obtain ⟨k, -, rfl⟩ := List.mem_map.1 ho
      rfl) rfl rfl rfl hd hf
  rw [runAttend, if_neg (by rw [hp]; exact Bool.false_ne_true), hn]
  dsimp only
  rw [if_pos hd, attendStart, hpop]
  dsimp only
  rw [hd]
  exact hgo

theorem runAttend_of_walk {r t u w : State} {b : Bound} {d : WalkDesc} {h : Handle} {q : SeqRec} {st : Status}
    (hp : portsBound b [0] (List.range 8) = true) (hn : readerOf r b = none) (hd : d.layers ≠ 0)
    (hq : readSeq r d.seqid = (u, .ok q)) (hl : (layersOf d q).isSome = true) (hc : ∀ c ∈ u.kvc.committing, c.1 ≠ d.seqid)
    (hf : q.frozen = false) (hpop : popHandle u b.slot b.idx 0 = some (t, h)) (he : isEmptyHandle h = false) (hst : h.status = .ok)
    (hgo : attendGo b d q (d.layers + 2)
      (setReader (startReader t b b.st.unit (some d.seqid)) b fun x => { x with query := some h }) = .done w st) :
    runAttend b d r = .done w st := by
  have hl' : (layersOf d q).isNone = false := by
    cases hx : layersOf d q with
    | none => rw [hx] at hl; cases hl
    | some x => rfl
  have hc' : (u.kvc.committing.any fun c => c.1 == d.seqid) = false := List.any_eq_false.2 fun c hm => by simpa using hc c hm
  simp only [runAttend, hp, hn, hd, hq, hl', hc', attendStart, hpop, hf, he, hst, hgo, Bool.not_true, Bool.false_eq_true, if_false,
    bne_self_eq_false]

/-! ### KV_COMMIT, FORK and SCORE -/

/-- A KV_COMMIT whose rows move and whose pages past the end are freed ends (R188). -/
theorem commitRun_of_moved {s y z : State} {c : Nat} {q : SeqRec} {m : CommitRec}
    (hm : pages (commitRow q m) s false ((commitMoves m).map fun k => (List.range q.nlayer).map fun l => (l, k)).flatten
      = .ok y false)
    (hf : pages (freePage q) (writeSeq y m.seqid (setLength q (m.base + m.a))) false
      (layerPages (List.range q.nlayer) (tailPages q (m.base + m.a))) = .ok z false) :
    commitRun c q m s = .done (unmark z m.seqid c) .ok := by
  simp only [commitRun, hm, hf, Bool.false_eq_true, if_false]

/-- FORK of sequences that agree (R201). -/
theorem runFork_of_match {r t u w x : State} {b : Bound} {d : WalkDesc} {dst src : SeqRec}
    (hg : Granted r b [min d.seqid (d.count % 2 ^ 20), max d.seqid (d.count % 2 ^ 20)] t)
    (hd : readSeq t d.seqid = (u, .ok dst)) (hs : readSeq u (d.count % 2 ^ 20) = (w, .ok src))
    (hsf : src.frozen = false) (hdf : dst.frozen = false) (hm : forkMatch src dst = true)
    (ho : heldOver src (fun p => decide (p.2.1 < d.pos)) = false)
    (hp : ∀ lp ∈ layerPages (List.range src.nlayer) (pagesBelow src d.pos), lp.2 < dst.ptCap)
    (hfd : forkDst w dst (layerPages (List.range src.nlayer) (pagesBelow src d.pos)) = none)
    (hfs : forkSrc w src (layerPages (List.range src.nlayer) (pagesBelow src d.pos)) = .ok)
    (hfr : forkRefs w src (layerPages (List.range src.nlayer) (pagesBelow src d.pos)) = false)
    (hpg : pages (forkPage src dst) w false (layerPages (List.range src.nlayer) (pagesBelow src d.pos)) = .ok x false) :
    runFork b d r = .done (writeSeq x d.seqid { dst with
      s0N := min src.s0N (d.pos - src.s0Start), s1N := min src.s1N (d.pos - src.s1Start), tail := src.tail }) .ok := by
  have hp' : ((layerPages (List.range src.nlayer) (pagesBelow src d.pos)).any fun lp => decide (dst.ptCap ≤ lp.2)) = false :=
    List.any_eq_false.2 fun lp hlp => by simpa using hp lp hlp
  rw [runFork, locked_of_granted hg]
  simp only [hd, hs, hsf, hdf, hm, ho, hp', hfd, hfs, hfr, hpg, Bool.or_self, Bool.not_true, Bool.false_eq_true, if_false]

/-- Settles O35. -/
theorem sequenceReadersComplete : Obligations.SequenceReadersComplete := by
  refine ⟨fun cluster op b d s r hat => ⟨?_, ?_, ?_, ?_, ?_, ?_⟩, ?_, ?_⟩
  · intro t u w x dst src hop hg hd hs lps hsf hdf hm ho hp hfd hfs hfr hpg
    subst hop
    exact walkCmd_of_walkAt hat (runFork_of_match hg hd hs hsf hdf hm ho hp hfd hfs hfr hpg)
  · intro r1 t u v y z rb tree q hop hrb c hok hg hq h0 hn0 hbase hpath hlen hready hwait cs x hun hrows hfree
    subst hop
    refine walkCmd_of_walkAt hat ?_
    have hlen' : ¬ 0xFFFFFFFF < c.base + c.a := by omega
    rw [runCommit, hrb]
    dsimp only
    rw [if_neg (by rw [hok]; exact Bool.false_ne_true), locked_of_granted hg, hq]
    dsimp only
    have hpre : ¬ (decide (c.base ≠ seqLength q) || !pathOk c tree) = true := by simp [hbase, hpath]
    have hcommit := commitRun_of_moved (c := b.st.unit) hrows hfree
    by_cases ha : c.a = 0
    · obtain ⟨rfl, rfl⟩ := h0 ha
      rw [if_pos ha]
      dsimp only
      rw [if_neg hpre, if_neg hlen', if_pos ha]
      dsimp only
      rw [hready]
      dsimp only
      rw [if_neg (ne_true_of_eq_false hwait), if_neg (ne_true_of_eq_false hun)]
      exact hcommit
    · obtain ⟨ht, p, hp⟩ := hn0 ha
      rw [if_neg ha, ht]
      dsimp only
      rw [if_neg hpre, if_neg hlen', if_neg ha, hp]
      dsimp only
      rw [hready]
      dsimp only
      rw [if_neg (ne_true_of_eq_false hwait), if_neg (ne_true_of_eq_false hun)]
      exact hcommit
  · intro t w h hop hp hn hd hpop t1 outs t2 hf w1 w2
    subst hop
    exact execAttend_of_done hat (runAttend_of_no_layer hp hn hd hpop hf)
  · intro t u w st h q hop hp hn hd hq hl hc hf hpop he hst hgo
    subst hop
    exact execAttend_of_done hat (runAttend_of_walk hp hn hd hq hl hc hf hpop he hst hgo)
  · intro hop hd
    subst hop
    exact walkCmd_of_walkAt hat (if_pos hd)
  · intro t u h q hop hd hp hq hl hpop
    subst hop
    have hl' : ¬ q.nlayer ≤ d.layer0 := by omega
    have hrun : exec (.score cluster) s = .next (walkEnd b d (runScore b d r)) := walkCmd_of_walkAt hat rfl
    rw [hrun]
    simp only [runScore, hd, hp, hq, hl', hpop, Bool.not_true, Bool.false_eq_true, if_false]
    refine ⟨fun he => ?_, fun he hst => ?_, fun v k m he hst hm => ?_, fun v w m he hst hm hpg => ?_⟩
    · rw [if_pos he]
    · rw [if_neg (by simp [he]), if_pos (by simpa using hst)]
    · rw [if_neg (by simp [he]), if_neg (by simp [hst]), hm]
    · rw [if_neg (by simp [he]), if_neg (by simp [hst]), hm]
      dsimp only
      rw [hpg]
  · intro src dst l p x y n s a c t hx hy e hr u v w m hm hw
    simp only [forkPage, hx, hy]
    rw [hr]
    dsimp only
    rw [hm]
    dsimp only [gotBytes]
    rw [hw]
    rfl
  · intro q layer i v curve x s a hi hx
    have hi' : ¬ q.ptCap ≤ i := by omega
    refine ⟨fun hres => ?_, ?_⟩
    · simp only [scoreEntry, hi', hx, hres, Bool.not_false, if_true, if_false]
    · intro c w m hres hm age hw
      simp only [scoreEntry, hi', hx, hres, Bool.not_true, Bool.false_eq_true, if_false, hm, gotBytes]
      rw [hw]
      rfl

/-! ### Moves: a list whose header's reserved bytes are not zero -/

/-- A graph with one WALK station, of cluster 15, at the one descriptor of its work list. -/
def abortStation : Station :=
  { kind := .walk, unit := 15, work := 0x8000, workN := 1, wdi := 0, run := .going, outSeq := List.replicate 8 0#16, inHand := [],
    sub := 0, wait := none, strm := streamAtLoad }

def abortGraph : Graph :=
  { fn := 0, cq := 0, image := 0x1000, clusters := 0xFFFF#16, stallUs := 10, user := 0#64, state := .running,
    stations := [abortStation], queues := [], pools := [], pausing := none, timed := none, lastMove := 0, stallOut := false,
    lastStatus := .ok, lastEvent := 0, haltSt := 0, haltWdi := 0, events := 0 }

def abortBound : Bound := ⟨0, 0, abortGraph, abortStation⟩

/-- MOVE_ABORT of sequence 0, whose list is at 0xA000. -/
def abortBytes : Bytes := overlay (overlay (List.replicate 64 0#8) 0 [0x0B#8]) 24 (leBytes 6 0xA000)

/-- A sequence record: one layer of one head of 32 elements, one page of 16 rows. -/
def abortSeq : Bytes :=
  overlay (overlay (overlay (overlay (overlay (overlay (List.replicate 64 0#8) 20 (leBytes 4 1)) 24 (leBytes 6 0xE000)) 32 (leBytes 2 1))
    34 (leBytes 2 32)) 36 [1#8, 4#8]) 39 [1#8]

/-- A list of no entry whose header has a reserved byte set. -/
def abortList : Bytes := overlay (List.replicate 32 0#8) 8 [1#8]

/-- The module in ACTIVE with the graph, the sequence and the list. -/
def abortState : State :=
  let s := { State.reset with pwr := { State.reset.pwr with state := .active },
                              graphs := State.reset.graphs.set 0 ⟨1#10, some abortGraph, []⟩ }
  let t := poke (poke (poke s 0x8000 abortBytes) 0x9000 abortSeq) 0xA000 abortList
  { t with kvc := { t.kvc with seqBase := 0x9000, seqN := 1 } }

/-- The index of the station's descriptor, once it is done with. -/
def wdiOf (o : Host.Outcome State Fault Refusal) : Option Nat :=
  match o with
  | .next t => (slotGraph t 0).bind fun g => (g.stations[0]?).map fun x => x.wdi
  | _ => none

/-- The state once the descriptor is read, and then with the sequence's lock. -/
def abortRead : State := (ctrlRead abortState (wdAddr abortBound 64) 64).1

def abortLocked : State :=
  let s := startReader abortRead abortBound 15 none
  { s with kvc := { s.kvc with lockQ := s.kvc.lockQ.filter fun l => !(l.2 == 15) } }

/-- The state once the sequence's record is read, the list's header, and the list of returned frames cleared. -/
def abortSeqRead : State := (ctrlRead abortLocked 0x9000 64).1
def abortListRead : State := (ctrlRead abortSeqRead 0xA000 32).1
def abortCleared : State := (memWrite abortListRead 0xA020 (leBytes 4 0)).getD abortListRead

theorem eq_fst_of_snd {α β : Type} {x : α × β} {y : β} (h : x.2 = y) : x = (x.1, y) := Prod.ext rfl h

theorem abort_walkAt : WalkAt abortState 15 0x0B abortBound (walkDescOf abortBytes) abortRead :=
  ⟨by decide, by decide +kernel, by decide, .inl (by decide +kernel), by decide, abortBytes, eq_fst_of_snd (by decide +kernel), rfl,
    by decide +kernel, by decide +kernel⟩

theorem abort_granted : Granted abortRead abortBound [0] abortLocked := ⟨by decide +kernel, rfl⟩

theorem abort_readSeq : readSeq abortLocked 0 = (abortSeqRead, .ok (seqRecOf abortSeq)) := by
  have hr : ctrlRead abortLocked (seqAddr abortLocked 0) 64 = (abortSeqRead, .ok abortSeq) :=
    eq_fst_of_snd (x := ctrlRead abortLocked 0x9000 64) (by decide +kernel)
  have hok : seqRecOk (seqRecOf abortSeq) = true := by decide +kernel
  have hn : ¬ abortLocked.kvc.seqN ≤ 0 := by decide +kernel
  simp only [readSeq, hn, hr, hok, if_false, if_true]

theorem abort_header : ctrlRead abortSeqRead 0xA000 32 = (abortListRead, .ok abortList) := eq_fst_of_snd (by decide +kernel)

theorem abort_cleared : memWrite abortListRead 0xA020 (leBytes 4 0) = some abortCleared := by
  have h : (memWrite abortListRead 0xA020 (leBytes 4 0)).isSome = true := by decide +kernel
  obtain ⟨w, hw⟩ := Option.isSome_iff_exists.1 h
  rw [abortCleared, hw]
  rfl

/-- The station halts at its descriptor. -/
theorem abort_halts : wdiOf (exec (.moveAbort 15) abortState) = some 0 := by decide +kernel

/-- An end with OK goes past it. -/
theorem abort_ends : wdiOf (.next (walkEnd abortBound (walkDescOf abortBytes)
    (.done (modStation abortCleared 0 0 fun y => { y with sub := 1 }) .ok))) = some 1 := by decide +kernel

/-- Refutes O36: MOVE_END and MOVE_ABORT halt at a list whose header has a reserved byte set (R213), which the statement does not
exclude; here MOVE_ABORT's list of no entry has byte 8 set. -/
theorem not_movesComplete : ¬ Obligations.MovesComplete := by
  intro h
  obtain ⟨-, hend⟩ := h 15 0x0B abortBound (walkDescOf abortBytes) abortState abortRead abort_walkAt
  obtain ⟨-, habort⟩ := hend abortLocked abortSeqRead abortListRead abortCleared
    (modStation abortCleared 0 0 fun y => { y with sub := 1 }) abortList (seqRecOf abortSeq) abort_granted abort_readSeq abort_header
    (by decide) rfl abort_cleared
  have hdone := congrArg wdiOf (habort rfl rfl)
  rw [abort_halts, abort_ends] at hdone
  cases hdone

end Sys2Proof.Machine

end

