-- ==== Sys2Proof/Proofs/FramePools.lean ====
section
/-! SUPPORT. The frame pools: reclaiming, KVC_POOL, the table's initialisation and the curve tables. -/

namespace Sys2Proof.Machine

/-! ### Reclaiming -/

theorem StoreFrame.kvc {P : Nat → Prop} {s t : State} (h : StoreFrame P s t) : t.kvc = s.kvc := by rw [h.1]

theorem ctrlRead_kvc (s : State) (a n : Nat) : (ctrlRead s a n).1.kvc = s.kvc := by
  have hm := (memRead_store (fun _ => True) s a n).kvc
  unfold ctrlRead
  dsimp only
  split
  · exact hm
  · exact (alarm_frame _ _ _).kvc.trans hm
  · exact hm

theorem putLink_kvc (s : State) (pool f : Nat) (g : Nat → Nat) : (putLink s pool f g).kvc = s.kvc := by
  unfold putLink
  dsimp only
  generalize hw : memWrite s _ _ = w
  cases w with
  | none => rfl
  | some t => exact (memWrite_store (P := fun _ => True) hw fun _ _ => trivial).kvc

theorem poolAt_of_kvc {s t : State} (h : t.kvc = s.kvc) (pool : Nat) : poolAt t pool = poolAt s pool := by
  simp only [poolAt, h]

theorem poolAt_modPoolK {s : State} {pool : Nat} (h : pool < s.kvc.pools.length) (f : FramePool → FramePool) :
    poolAt (modPoolK s pool f) pool = f (poolAt s pool) := by
  simp [poolAt, modPoolK, h]

theorem modPoolK_length (s : State) (pool : Nat) (f : FramePool → FramePool) :
    (modPoolK s pool f).kvc.pools.length = s.kvc.pools.length := List.length_modify ..

section
variable (pool f : Nat) (rest : List Nat) (r : State)

/-- The oldest frame in limbo, once every reader began after its STAMP, has left the limbo. -/
def frameOut : State := putLink (modPoolK r pool fun x => { x with limbo := rest }) pool f setFree

/-- It goes to the head of the free list. -/
def frameFirst (s1 : State) : State :=
  tick1 (modPoolK (putLink s1 pool f (setLinkTo ((poolAt s1 pool).free.headD (Config.freeNat s1.free)))) pool
    fun x => { x with free := f :: x.free })

/-- It goes to the end of the free list, and the frame that was last links to it. -/
def frameLast (s1 : State) : State :=
  tick1 (modPoolK
    (putLink (match (poolAt s1 pool).free.getLast? with
      | some l => putLink s1 pool l (setLinkTo f)
      | none => s1) pool f (setLinkTo (Config.freeNat s1.free))) pool fun x => { x with free := x.free ++ [f] })

variable {pool f rest r}

theorem execFrameReclaim_of_old {s : State} {v : Bytes} (hp : pool < 16) (hl : (poolAt s pool).limbo = f :: rest)
    (hr : ctrlRead s (frameEntry s pool f) 16 = (r, .ok v)) (hold : ∀ c < 16, leAt v 8 8 < oldest s c) :
    exec (.frameReclaim pool) s = .next (frameFirst pool f (frameOut pool f rest r)) ∨
      exec (.frameReclaim pool) s = .next (frameLast pool f (frameOut pool f rest r)) := by
  have hall : ((List.range 16).all fun c => decide (leAt v 8 8 < oldest s c)) = true :=
    List.all_eq_true.2 fun c hc => decide_eq_true (hold c (List.mem_range.1 hc))
  show execFrameReclaim pool s = _ ∨ execFrameReclaim pool s = _
  rw [execFrameReclaim, if_neg (by omega), hl]
  dsimp only
  rw [hr]
  dsimp only
  rw [if_pos hall]
  exact (ite_eq_or_eq _ _ _).imp id id

variable {s : State} (hk : r.kvc = s.kvc) (hn : pool < s.kvc.pools.length)
include hk hn

theorem poolAt_frameOut : poolAt (frameOut pool f rest r) pool = { poolAt s pool with limbo := rest } := by
  rw [frameOut, poolAt_of_kvc (putLink_kvc _ _ _ _), poolAt_modPoolK (by rw [hk]; exact hn), poolAt_of_kvc hk]

theorem frameOut_length : pool < (frameOut pool f rest r).kvc.pools.length := by
  rw [frameOut, putLink_kvc, modPoolK_length, hk]
  exact hn

theorem poolAt_frameFirst : poolAt (frameFirst pool f (frameOut pool f rest r)) pool
    = { poolAt s pool with limbo := rest, free := f :: (poolAt s pool).free } := by
  have h := frameOut_length (f := f) (rest := rest) hk hn
  have hk1 (g : Nat → Nat) := putLink_kvc (frameOut pool f rest r) pool f g
  refine (poolAt_modPoolK (by rw [hk1]; exact h) _).trans ?_
  rw [poolAt_of_kvc (hk1 _), poolAt_frameOut hk hn]

theorem poolAt_frameLast : poolAt (frameLast pool f (frameOut pool f rest r)) pool
    = { poolAt s pool with limbo := rest, free := (poolAt s pool).free ++ [f] } := by
  have h := frameOut_length (f := f) (rest := rest) hk hn
  have hk1 (l : Option Nat) (g : Nat → Nat) : (putLink (match l with
      | some l => putLink (frameOut pool f rest r) pool l (setLinkTo f)
      | none => frameOut pool f rest r) pool f g).kvc = (frameOut pool f rest r).kvc := by
    rw [putLink_kvc]
    cases l with
    | none => rfl
    | some l => exact putLink_kvc _ _ _ _
  refine (poolAt_modPoolK (by rw [hk1]; exact h) _).trans ?_
  rw [poolAt_of_kvc (hk1 _ _), poolAt_frameOut hk hn]

end

theorem execFrameReclaim_of_young {s r : State} {pool f c : Nat} {rest : List Nat} {v : Bytes} (hp : pool < 16)
    (hl : (poolAt s pool).limbo = f :: rest) (hr : ctrlRead s (frameEntry s pool f) 16 = (r, .ok v)) (hc : c < 16)
    (hle : oldest s c ≤ leAt v 8 8) : exec (.frameReclaim pool) s = .next s := by
  have hall : ((List.range 16).all fun c => decide (leAt v 8 8 < oldest s c)) = false :=
    List.all_eq_false.2 ⟨c, List.mem_range.2 hc, by simpa using hle⟩
  show execFrameReclaim pool s = _
  rw [execFrameReclaim, if_neg (by omega), hl]
  dsimp only
  rw [hr]
  dsimp only
  rw [hall]
  rfl

/-! ### Curve tables -/

/-- A word with one bit set names one table. -/
theorem filter_getLsbD_shiftLeft {n : Nat} (h : n < 16) :
    ((List.range 16).filter fun k => ((1#32 <<< n : Word)).getLsbD k) = [n] := by
  interval_cases n <;> decide

/-- Settles O37. -/
theorem framePoolsComplete : Obligations.FramePoolsComplete := by
  intro pool s hp
  have hp' : ¬ 16 ≤ pool := by omega
  refine ⟨fun f rest r v hl hr => ⟨fun hold => ?_, fun ⟨c, hc, hle⟩ => execFrameReclaim_of_young hp hl hr hc hle⟩, fun hl => ?_,
    fun req value hu => ⟨fun word hw hlock => ?_, fun word hw hlock h0 => ?_, ?_⟩, fun hb => ?_,
    fun hu => ⟨fun value => whenUp_of_up _ _ hu, fun r v hr => ?_⟩⟩
  · have hk : r.kvc = s.kvc := (congrArg (fun x => x.1.kvc) hr).symm.trans (ctrlRead_kvc _ _ _)
    have hrun := execFrameReclaim_of_old hp hl hr hold
    refine ⟨hrun, hrun.elim (fun h => ⟨_, h, fun hn => ?_⟩) fun h => ⟨_, h, fun hn => ?_⟩⟩
    · rw [poolAt_frameFirst hk hn]
      exact ⟨rfl, .inl rfl⟩
    · rw [poolAt_frameLast hk hn]
      exact ⟨rfl, .inr rfl⟩
  · show execFrameReclaim pool s = _
    rw [execFrameReclaim, if_neg hp', hl]
  · show execKvcPool req pool word value s = _
    rw [execKvcPool, if_neg hp', if_neg (by omega), whenUp_of_up _ _ hu, opKvcPool, if_pos hlock]
  · show execKvcPool req pool word value s = _
    rw [execKvcPool, if_neg hp', if_neg (by omega), whenUp_of_up _ _ hu, opKvcPool, if_neg (by simp [hlock]), if_pos (by omega)]
  · intro hlock old w p others
    have hrun : exec (.kvcPool req pool 0 value) s = .next (opKvcPool pool 0 value s) := by
      show execKvcPool req pool 0 value s = _
      rw [execKvcPool, if_neg hp', if_neg (by omega), whenUp_of_up _ _ hu]
    rw [hrun, opKvcPool, if_neg (by simp [hlock]), if_neg (by simp)]
    refine ⟨fun hv => congrArg _ (if_pos ?_), fun hv hok => congrArg _ ((if_neg ?_).trans (if_pos hok)),
      fun hv hok => congrArg _ ((if_neg ?_).trans (if_neg (ne_true_of_eq_false hok)))⟩
    · exact (congrArg not hv).trans rfl
    · exact fun h => absurd ((congrArg not hv).symm.trans h) (by decide)
    · exact fun h => absurd ((congrArg not hv).symm.trans h) (by decide)
  · show execPoolInitDone pool s = _
    rw [execPoolInitDone, if_neg hp', if_pos hb]
  · have hrun : exec (.kvcCurveCommit (1#32 <<< pool)) s = .next (commitCurve s pool) :=
      (whenUp_of_up _ _ hu).trans (by rw [opCurveCommit, filter_getLsbD_shiftLeft hp]; rfl)
    rw [hrun]
    unfold commitCurve
    dsimp only
    rw [hr]
    dsimp only
    exact ⟨fun hok => by rw [if_pos hok], fun hok => by rw [if_neg (ne_true_of_eq_false hok)]⟩

end Sys2Proof.Machine

end

