-- ==== Sys2Proof/Proofs/ChurnAndSearch.lean ====
section
/-! SUPPORT. The churn's descriptors and arrivals, and the flash search. -/

namespace Sys2Proof.Machine

/-! ### CHURN -/

/-- A CHURN station at a descriptor of the operation runs it (R238). -/
theorem churnCmd_of_churnAt {s r : State} {die op : Nat} {b : Bound} {d : ChurnDesc} (h : ChurnAt s die op b d r)
    (run : Bound → ChurnDesc → State → State) : churnCmd die op run s = .next (run b d r) := by
  obtain ⟨hd, hb, hw, hm, hop, v, t, hr, rfl, hres, rfl, rfl⟩ := h
  refine (onUnit_of_lt _ _ _ _ hd).trans (congrArg _ ?_)
  have hw' : ¬ b.st.workN ≤ b.st.wdi := by omega
  have hgo : (mayStart s b || (mayFinish s b && decide (b.st.sub = 1))) = true := by rcases hm with h | ⟨h1, h2⟩ <;> simp [*]
  have hop' : decide (1 ≤ (churnDescOf v).op ∧ (churnDescOf v).op ≤ 3) = true := decide_eq_true hop
  simp only [hb, hw', hgo, hr, hres, hop', Bool.not_true, decide_false, Bool.or_self, Bool.false_eq_true, if_false, if_true]

/-- Settles O38. -/
theorem churnDescriptorsComplete : Obligations.ChurnDescriptorsComplete := by
  intro die op b d s r hat c
  refine ⟨?_, ?_, ?_⟩
  · intro t v hop ho hr q hok hfree hrings
    subst hop
    refine (churnCmd_of_churnAt hat runOpen).trans (congrArg _ ?_)
    simp only [q] at hok hfree hrings
    simp only [runOpen, ho, hr, hok, hfree, hrings, Bool.not_true, Bool.or_self, Bool.false_eq_true, if_false, q]
  · intro x t q hop hx hs hrot hq dirs hl hf hp u e he hg hall
    subst hop
    refine (churnCmd_of_churnAt hat runRotate).trans (congrArg _ ?_)
    have hl' : ¬ q.nlayer ≤ d.layer := by omega
    have hs' : (c.state != 2) = false := by rw [hs]; rfl
    simp only [runRotate]
    simp only [c] at hx hs' hrot
    rw [hx]
    dsimp only
    rw [hs', if_neg Bool.false_ne_true, hq]
    dsimp only
    rw [if_neg (by rw [hf, hp]; simp [hl']), if_pos hrot, if_pos]
    rw [Bool.and_eq_true, Bool.and_eq_true]
    exact ⟨⟨he, hg⟩, hall⟩
  · intro x hop hx hs hrot
    subst hop
    refine (churnCmd_of_churnAt hat runClose).trans (congrArg _ ?_)
    simp only [c] at hx hs
    simp only [runClose, hx, hs, hrot, decide_false, Bool.or_self, Bool.false_eq_true, if_false]

/-- Settles O39. -/
theorem churnArrivalsComplete : Obligations.ChurnArrivalsComplete := by
  intro die ctx west s hd hc i
  have hc' : ¬ 4 ≤ ctx := by omega
  refine ⟨fun shake hr => ?_, fun credits rttNs hs => ?_, ?_, fun r hr hs hrot hdir hin hadm hto => ?_⟩
  · refine (onUnit_of_lt _ _ _ _ hd).trans (congrArg _ ?_)
    rw [if_neg hc']
    dsimp only
    rw [hr]
  · refine (onUnit_of_lt _ _ _ _ hd).trans (congrArg _ (if_neg ?_))
    rcases hs with h | h <;> simp [hc', i] at h ⊢ <;> simp [h]
  · intro tile r n a ht c hop h0 hn ho hrot hin hl hlen hadm hf
    refine (onUnit_of_lt _ _ _ _ hd).trans (congrArg _ ?_)
    simp only [c, hop] at *
    have h0' : ¬ leAt tile 6 2 = 0 := by omega
    have hn' : ¬ r.n ≤ leAt tile 6 2 := by omega
    have hlen' : ¬ r.slotBytes < tile.length := by omega
    have hadm' : ¬ (chnDir (chnAt s i) west).admitted < leAt tile 6 2 := by omega
    simp only [ht, h0', hn', ho, hrot, hin, hl, hlen', hadm', hf, decide_true, decide_false, Bool.and_self, Bool.not_true,
      beq_self_eq_true, bne_self_eq_false, Bool.and_false, Bool.or_self, Bool.false_eq_true, if_false, if_true]
  · refine (onUnit_of_lt _ _ _ _ hd).trans (congrArg _ ?_)
    simp only [i] at *
    rw [hr]
    dsimp only
    rw [if_neg hc', if_neg (by omega), if_pos]
    simp only [hs, hrot, hdir, hin, hadm, hto, decide_true, Bool.and_self]

/-! ### SCAN -/

/-- A SCAN station at a descriptor of the operation runs it (R342). -/
theorem scanCmd_of_scanAt {s r : State} {channel op : Nat} {ports : Bool} {b : Bound} {d : ScanDesc}
    (h : ScanAt s channel op ports b d r) (run : State → Bound → ScanDesc → State) :
    scanCmd channel op ports run s = .next (run r b d) := by
  obtain ⟨hc, hb, hm, hw, hh, hj, hp, v, hr, rfl, hop, hok⟩ := h
  refine (onUnit_of_lt _ _ _ _ hc).trans (congrArg _ ?_)
  have hp' : (ports && !portsBound b [0] [0]) = false := by
    cases ports with
    | false => rfl
    | true => rw [hp rfl]; rfl
  simp only [hb, hm, hw, hh, hj, hr, hop, hok, hp', ne_eq, not_true_eq_false, decide_false, Bool.false_and, Bool.not_true,
    Option.isSome_none, Bool.or_self, Bool.false_eq_true, if_false]

theorem runBatch_of_tile {r t u : State} {b : Bound} {d : ScanDesc} {x : Index} {h : Handle} {v : Bytes} (hx : findIndex r d.index = some x)
    (hb : x.batch = none) (hh : x.harvest = none) (hg : (x.cur + 1 + 2 ^ 24 - x.oldest) % 2 ^ 24 < 2 ^ 23)
    (hp : popHandle r b.slot b.idx 0 = some (t, h)) (he : isEmptyHandle h = false) (hs : isPoison h.status = false)
    (hr : memRead t h.addr h.bytes = (u, .ok v)) (insert : Bool) :
    let g := (x.cur + 1) % 2 ^ 24
    let q := (Config.updateEntries insert (codeBits x) v).foldl (batchEntry d.index g insert) (u, [])
    let s1 := (memWrite q.1 h.addr (padTo h.bytes (Config.updateWritten insert (codeBits x) v q.2))).getD q.1
    runBatch insert r b d
      = modIndex s1 d.index fun y => { y with batch := some ⟨insert, g, b.st.unit, some b.slot, d.tag, d.notify, h, false, x.shards⟩ } := by
  intro g q s1
  have hfree : (x.batch.isSome || x.harvest.isSome) = false := by rw [hb, hh]; rfl
  have hgood : (isEmptyHandle h || isPoison h.status) = false := by rw [he, hs]; rfl
  unfold runBatch
  rw [hx]
  dsimp only
  rw [if_neg (ne_true_of_eq_false hfree), if_neg (Nat.not_le.2 hg), hp]
  dsimp only
  rw [if_neg (ne_true_of_eq_false hgood), hr]

/-- Settles O40. -/
theorem indexDescriptorsComplete : Obligations.IndexDescriptorsComplete := by
  intro channel op ports b d s r hat
  refine ⟨fun t v hop hports hr hok => ?_, fun x hop hports hx hb hh hj => ?_, fun x hop hports hx hh => ?_, ?_⟩
  · subst hop hports
    refine (scanCmd_of_scanAt hat runCreate).trans (congrArg _ ?_)
    simp only [runCreate, hr, hok, if_true]
  · subst hop hports
    refine (scanCmd_of_scanAt hat runDestroy).trans (congrArg _ ?_)
    simp only [runDestroy, hx, hb, hh, hj, Option.isSome_none, Bool.or_self, Bool.false_eq_true, if_false]
  · subst hop hports
    refine (scanCmd_of_scanAt hat runHarvest).trans (congrArg _ ?_)
    simp only [runHarvest, hx, hh, Option.isSome_none, Bool.false_eq_true, if_false]
  · intro x h t u v hports hx hb hh hg hp he hs hr g ends
    subst hports
    refine ⟨fun hop => ?_, fun hop => ?_⟩
    · subst hop
      exact (scanCmd_of_scanAt hat (runBatch true)).trans (congrArg _ (runBatch_of_tile hx hb hh hg hp he hs hr true))
    · subst hop
      exact (scanCmd_of_scanAt hat (runBatch false)).trans (congrArg _ (runBatch_of_tile hx hb hh hg hp he hs hr false))

/-! ### Queries, durable batches, Harvests and merges -/

theorem execScanQuery_of_scanAt {s r : State} {channel : Nat} {b : Bound} {d : ScanDesc} (h : ScanAt s channel 1 true b d r) :
    exec (.scanQuery channel) s = .next (runQuery r b d) := by
  have ⟨_, hb, _, _, _, hj, _⟩ := h
  have hn : ((bound s .scan channel).bind fun b => (findJob s b).map fun j => (b, j)) = none := by rw [hb]; simp [hj]
  show execScanQuery channel s = _
  rw [execScanQuery, hn]
  exact scanCmd_of_scanAt h runQuery

/-- A query tile that passes decode, whose snapshot is not after the index's generation and not before its oldest, is taken up
(R353, R354). -/
theorem runQuery_of_good {r t u w : State} {b : Bound} {d : ScanDesc} {x : Index} {h : Handle} {v : Bytes} {snap : Nat}
    (hx : findIndex r d.index = some x) (hp : popHandle r b.slot b.idx 0 = some (t, h)) (he : isEmptyHandle h = false)
    (hs : isPoison h.status = false) (hr : memRead t h.addr h.bytes = (u, .ok v)) (h0 : 0 < leAt v 4 2) (h256 : leAt v 4 2 ≤ 256)
    (hlen : 32 + leAt v 4 2 * (160 + 16 * x.code) ≤ h.bytes) (hz : allZero (sub v 6 26) = true)
    (hv : leAt v 0 4 = 0xFFFFFFFF ∨ byteAt v 3 = 0) (hsn : resolveSnap u x h.addr (leAt v 0 4) = (w, .ok snap))
    (hcur : genLe snap x.cur = true) (hlt : snap < 2 ^ 24) (hold : genLe x.oldest snap = true) :
    let qs := ((List.range (leAt v 4 2)).map fun i => recordOf x (sub v (32 + i * (160 + 16 * x.code)) (160 + 16 * x.code))).map
      (beginQuery x (shardOf x b.st.unit))
    let j : ScanJob := ⟨b.slot, b.idx, b.st.unit, d.index, d.k, d.beam, d.tag, d.notify, h, snap, qs⟩
    let e := countQueries (modVse w fun y => { y with jobs := y.jobs ++ [j] }) (qs.filter fun q => q.done).length
    runQuery r b d = jobEnd e (rebind e b) j := by
  intro qs j e
  have hgood : (isEmptyHandle h || isPoison h.status) = false := by rw [he, hs]; rfl
  have hform : (decide (256 < leAt v 4 2) || decide (h.bytes < 32 + leAt v 4 2 * (160 + 16 * x.code)) || !allZero (sub v 6 26)
      || (leAt v 0 4 != 0xFFFFFFFF && byteAt v 3 != 0)) = false := by
    have h1 : ¬ 256 < leAt v 4 2 := by omega
    have h2 : ¬ h.bytes < 32 + leAt v 4 2 * (160 + 16 * x.code) := by omega
    rcases hv with hv | hv <;> simp [h1, h2, hz, hv]
  have hsnap : (!genLe snap x.cur || decide (2 ^ 24 ≤ snap)) = false := by
    rw [hcur, decide_eq_false (Nat.not_le.2 hlt)]
    rfl
  unfold runQuery
  rw [hx]
  dsimp only
  rw [hp]
  dsimp only
  rw [if_neg (ne_true_of_eq_false hgood), hr]
  dsimp only
  rw [if_neg (ne_true_of_eq_false hform), if_neg (by omega), hsn]
  dsimp only
  rw [if_neg (ne_true_of_eq_false hsnap), if_neg (by rw [hold]; decide)]

/-- A round of list tiles that agree is merged (R359). -/
theorem skimRound_of_agree {r t u : State} {b : Bound} {d : SkimDesc} {hs : List Handle} {ts : List ListTile} {nq snap : Nat}
    (hf : (hs.filter fun h => !isEmptyHandle h) ≠ []) (hp : (hs.any fun h => isPoison h.status) = false)
    (hr : readTiles t (hs.filter fun h => !isEmptyHandle h) = (u, .ok ts))
    (hh : ts.head?.map (fun x => (x.nq, x.snap)) = some (nq, snap)) (hall : (ts.all fun x => x.nq == nq && x.snap == snap) = true) :
    skimRound r t b d hs = skimPush r u b d (hs.filter fun h => !isEmptyHandle h) (carried (hs.map fun h => h.status))
      (some (listHead nq snap ++ ((List.range nq).map (mergeQuery d.k ts)).flatten)) := by
  have he : (hs.filter fun h => !isEmptyHandle h).isEmpty = false := by
    cases hx : hs.filter fun h => !isEmptyHandle h with
    | nil => exact absurd hx hf
    | cons x l => rfl
  obtain ⟨x, hx, hxy⟩ := Option.map_eq_some_iff.1 hh
  cases hxy
  have hn : (ts.head?.map fun x => x.nq).getD 0 = x.nq := by rw [hx]; rfl
  have hs' : (ts.head?.map fun x => x.snap).getD 0 = x.snap := by rw [hx]; rfl
  unfold skimRound
  dsimp only
  rw [he, hp, if_neg Bool.false_ne_true, if_neg Bool.false_ne_true, hr]
  dsimp only
  rw [hn, hs', hall]
  rfl

/-- Settles O41. -/
theorem searchCommandsComplete : Obligations.SearchCommandsComplete := by
  refine ⟨?_, ?_, fun index x k s hx hk hw => ?_, ?_, ?_⟩
  · intro channel b d x h s r t u v w snap hat hx hp he hs hr nq rs h0 h256 hlen hz hv hsn hcur hlt hold qs j e
    exact (execScanQuery_of_scanAt hat).trans
      (congrArg _ (runQuery_of_good hx hp he hs hr h0 h256 hlen hz hv hsn hcur hlt hold))
  · intro channel query b j q x s hc hb hm hw hj hq hx hd a s1 s2 j1 s3
    have hrun : exec (.codewordReadDone channel query false) s = .next (jobEnd (if a.q.done then countQueries s3 1 else s3)
        (rebind (if a.q.done then countQueries s3 1 else s3) b) j1) := by
      refine (onUnit_of_lt _ _ _ _ hc).trans (congrArg _ ?_)
      rw [hb]
      dsimp only
      rw [hm, hw, if_neg (by decide), hj]
      dsimp only
      rw [hq, hx]
      dsimp only
      rw [hd]
      rfl
    rw [hrun]
    exact ⟨fun h => by rw [h]; rfl, fun h => by rw [h]; rfl⟩
  · have hb : ((findIndex s index).bind fun x => x.batch) = some k := by rw [hx]; exact hk
    show execIndexBatchDurable index s = _
    rw [execIndexBatchDurable, hb]
    dsimp only
    rw [hw]
    rfl
  · intro index x k b sl s hx hk hbt hw hsl s1 hb hs
    have hgo : (x.batch.isSome || !wheyReady s) = false := by rw [hbt, hw]; rfl
    show execHarvestDone index s = _
    rw [execHarvestDone, hx]
    dsimp only
    rw [hk]
    dsimp only
    rw [if_neg (ne_true_of_eq_false hgo), hsl, hb]
    exact if_pos hs
  · intro die b s r t u v hs ts nq snap hd hb hm hr hok hp hpop d full hf hpo hrt hh hall
    refine (onUnit_of_lt _ _ _ _ hd).trans (congrArg _ ?_)
    rw [hb]
    dsimp only
    rw [hm, if_neg (by decide), hr]
    dsimp only
    rw [hok, hp, if_neg (by decide), hpop]
    exact skimRound_of_agree hf hpo hrt hh hall

end Sys2Proof.Machine

end

