-- ==== Sys2Proof/Proofs/RegistersAndLinks.lean ====
section
/-! SUPPORT. Writes of the set-up window, the links and their frames, routing, and the time counter. -/

namespace Sys2Proof.Machine

/-! ### The set-up window -/

theorem execRegisterWrite_of_good {req : Requester} {offset width : Nat} {value : Dword} {s : State} (hq : requesterOk req = true)
    (ho : offset < 0x04000000) (hu : hostUp s.pwr.state = true) :
    exec (.registerWrite req offset width value) s = .next (regWrite req offset width value s) := by
  show execRegisterWrite req offset width value s = _
  rw [execRegisterWrite, if_neg (by simp [hq]), if_neg (by omega), whenUp_of_up _ _ hu]

theorem opSetupLock_of_clear {value : Word} {s : State} (hv : value.getLsbD 0 = true) (hl : s.hif.lock = false) :
    opSetupLock value s = if setupConflict s then { s with hif := { s.hif with conflict := true } }
      else { s with hif := { s.hif with lock := true, conflict := false } } := by
  have hgo : (!bit value.toNat 0 || s.hif.lock) = false := by rw [bit_toNat, hv, hl]; rfl
  rw [opSetupLock, if_neg (ne_true_of_eq_false hgo)]

theorem execHifRing0_of_good {fn word : Nat} {value : Dword} {s : State} (hf : fn < 33) (hw : word < 4)
    (hu : hostUp s.pwr.state = true) : exec (.hifRing0 fn word value) s = .next (opRing0 fn word value s) := by
  show execHifRing0 fn word value s = _
  rw [execHifRing0, if_neg (by omega), if_neg (by omega), whenUp_of_up _ _ hu]

/-- Settles O42. -/
theorem registerWritesComplete : Obligations.RegisterWritesComplete := by
  refine ⟨fun req offset width value s hq ho hu => ⟨fun hw ha hx => ?_, fun x hw ha hx => ?_, fun x hw ha hx hh => ?_,
    fun x h hw ha hx hh hhd => ?_, fun h32 h64 => ?_⟩, fun s hu => ⟨fun value hv hl hc => ?_, fun value hv hl hc => ?_,
    fun fn word value hf h0 h4 hl => ?_, fun fn value hf hl hb => ?_, fun fn word value hf h4 hl => ?_⟩⟩
  · rw [execRegisterWrite_of_good hq ho hu, regWrite, if_pos ⟨hw, ha⟩, writeAt32, hx]
  · rw [execRegisterWrite_of_good hq ho hu, regWrite, if_neg (by omega), if_pos ⟨hw, ha⟩, writeAt64, hx]
  · have hup : (offset % 8 == 4) = true := by rw [ha]; rfl
    rw [execRegisterWrite_of_good hq ho hu, regWrite, if_pos ⟨hw, by omega⟩, writeAt32, hx]
    dsimp only
    rw [writeHalf, if_pos hup, if_pos hh]
  · have hup : (offset % 8 == 4) = false := by rw [ha]; rfl
    have hbase : offset / 8 * 8 = offset := by omega
    rw [execRegisterWrite_of_good hq ho hu, regWrite, if_pos ⟨hw, by omega⟩, writeAt32, hbase, hx]
    dsimp only
    rw [writeHalf, if_neg (ne_true_of_eq_false hup), hhd]
    dsimp only
    rw [if_pos hh]
  · rw [execRegisterWrite_of_good hq ho hu, regWrite, if_neg h32, if_neg h64]
  · exact (whenUp_of_up _ _ hu).trans (by rw [opSetupLock_of_clear hv hl, if_neg (ne_true_of_eq_false hc)])
  · exact (whenUp_of_up _ _ hu).trans (by rw [opSetupLock_of_clear hv hl, if_pos hc])
  · rw [execHifRing0_of_good hf h4 hu, opRing0, if_neg (ne_true_of_eq_false hl), if_pos (by omega)]
  · rw [execHifRing0_of_good hf (by omega) hu, opRing0, if_neg (ne_true_of_eq_false hl), if_neg (by omega)]
    exact congrArg _ (if_neg (ne_true_of_eq_false hb))
  · rw [execHifRing0_of_good hf h4 hu, opRing0, if_pos hl]

/-! ### Links -/

/-- A link whose end of a phase is due; `t` is the phase's limit. -/
theorem execTrainTimeout_of_due {link t : Nat} {s : State} (hl : link < 64) (ht : phaseLimit link (linkAt s link) = some t)
    (hd : (linkAt s link).phaseAt + t ≤ s.now) :
    exec (.trainTimeout link) s = .next
      (if (linkAt s link).phase == .equalise && (linkAt s link).presetUsed && !(linkAt s link).full then
        modLink s link fun y => { y with full := true, presetUsed := false, phaseAt := s.now }
      else linkDown s link .trainTimeout) := by
  refine (onUnit_of_lt _ _ _ _ hl).trans (congrArg _ ?_)
  dsimp only
  rw [ht]
  dsimp only
  rw [if_neg (by omega)]

/-- A frame of handles in order on an active link is taken, and so is its acknowledgement (R287, R288). -/
theorem takeFrameIn_of_next {link fixed : Nat} {cells : List (BitVec 544)} {f : Bytes} {s : State} (hp : (linkAt s link).phase = .active)
    (hu : fabUp s = true) (hf : frameBytes32 cells = some (f, fixed)) (hc : leAt f 2044 4 = crc32c (f.take 2044))
    (h0 : leAt f 0 2 / 4096 = 0) (hs : leAt f 0 2 % 4096 = ((linkAt s link).rxLast + 1) % 4096) :
    let s1 := { s with fab := { s.fab with fecCorr := s.fab.fecCorr.modify (link / 4) fun w => w + BitVec.ofNat 64 fixed } }
    takeFrameIn link cells s = takeAck (takeBody (modLink s1 link fun y =>
      { y with rxLast := leAt f 0 2 % 4096, gap := false, nak := false }) link (sub f 12 2032)) link f := by
  intro s1
  have hgo : (!((linkAt s link).phase == .active) || !fabUp s) = false := by rw [hp, hu]; rfl
  have hgood : (decide (leAt f 2044 4 ≠ crc32c (f.take 2044)) || decide (3 ≤ leAt f 0 2 / 4096)) = false := by rw [h0]; simp [hc]
  have h2 : ¬ leAt f 0 2 / 4096 = 2 := by omega
  unfold takeFrameIn
  dsimp only
  rw [if_neg (ne_true_of_eq_false hgo), hf]
  dsimp only
  rw [if_neg (ne_true_of_eq_false hgood), if_neg h2, if_pos hs, if_pos h0]

theorem takeFrameIn_of_bad {link : Nat} {cells : List (BitVec 544)} {s : State} (hp : (linkAt s link).phase = .active)
    (hu : fabUp s = true) (hf : frameBytes32 cells = none) : takeFrameIn link cells s = refuseFrame s link := by
  have hgo : (!((linkAt s link).phase == .active) || !fabUp s) = false := by rw [hp, hu]; rfl
  unfold takeFrameIn
  dsimp only
  rw [if_neg (ne_true_of_eq_false hgo), hf]

theorem execReplayTimeout_of_due {link : Nat} {s : State} (hl : link < 64) (hp : (linkAt s link).phase = .active)
    (hu : (linkAt s link).unacked ≠ [])
    (hd : (linkAt s link).ackAt + (s.fab.retryNs.getD (link / 4) 0#32).toNat ≤ s.now) :
    exec (.replayTimeout link) s = .next (if 16 ≤ (linkAt s link).replays then linkDown s link .retry
      else countReplay (modLink s link fun y =>
        y.unacked.foldl (sendFrame 0) { y with replays := y.replays + 1, ackAt := s.now }) (link / 4)) := by
  have hn : (linkAt s link).unacked.isEmpty = false := List.isEmpty_eq_false_iff.2 hu
  refine (onUnit_of_lt _ _ _ _ hl).trans (congrArg _ ?_)
  dsimp only
  rw [if_pos (by rw [hp, hn, decide_eq_true hd]; rfl), replay, hn]
  rfl

/-- Settles O43. -/
theorem linkCommandsComplete : Obligations.LinkCommandsComplete := by
  intro link s hl x
  refine ⟨fun value hu hlk hv hlaid => ?_, fun peer hu => ⟨fun hp => ?_, fun hp => ?_, fun hp hw => ?_, fun hp hw => ?_⟩,
    fun t ht hd => ⟨fun hp hpr hf => ?_, fun hpr => ?_⟩, fun hp hdis hd => ?_, fun hp => ?_, ?_, fun cells hp hu hf => ?_,
    fun hp hun hd => ⟨fun hr => ?_, fun hr => ?_⟩, fun rec hp => ?_⟩
  · refine (whenUp_of_up _ _ hu).trans (congrArg _ ?_)
    rw [opFabTrain, if_neg (ne_true_of_eq_false hlk)]
    dsimp only
    rw [hv, hlaid]
    rfl
  all_goals simp only [x] at *
  · exact (onUnit_of_lt _ _ _ _ hl).trans (congrArg _ (by simp only [opLinkPhase, hu, hp, Bool.not_true, Bool.false_eq_true, if_false]))
  · exact (onUnit_of_lt _ _ _ _ hl).trans (congrArg _ (by simp only [opLinkPhase, hu, hp, Bool.not_true, Bool.false_eq_true, if_false]))
  · exact (onUnit_of_lt _ _ _ _ hl).trans
      (congrArg _ (by simp only [opLinkPhase, hu, hp, hw, Bool.not_true, Bool.false_eq_true, if_false, if_true]))
  · exact (onUnit_of_lt _ _ _ _ hl).trans
      (congrArg _ (by simp only [opLinkPhase, hu, hp, hw, Bool.not_true, Bool.false_eq_true, if_false]))
  · rw [execTrainTimeout_of_due hl ht hd, if_pos (by rw [hp, hpr, hf]; rfl)]
  · rw [execTrainTimeout_of_due hl ht hd, if_neg (by rw [hpr]; simp)]
  · exact (onUnit_of_lt _ _ _ _ hl).trans (congrArg _ (if_pos (by simp [hp, hdis, hd])))
  · refine (onUnit_of_lt _ _ _ _ hl).trans (congrArg _ ?_)
    rcases hp with hp | hp | hp | hp <;> rw [hp]
  · intro cells f fixed hp hu hf hc h0 hs
    exact (onUnit_of_lt _ _ _ _ hl).trans (congrArg _ (by rw [opFrameReceive, takeFrameIn_of_next hp hu hf hc h0 hs]))
  · exact (onUnit_of_lt _ _ _ _ hl).trans (congrArg _ (by rw [opFrameReceive, takeFrameIn_of_bad hp hu hf]; rfl))
  · rw [execReplayTimeout_of_due hl hp hun hd, if_neg (by omega)]
  · rw [execReplayTimeout_of_due hl hp hun hd, if_pos hr]
  · refine (onUnit_of_lt _ _ _ _ hl).trans (congrArg _ ?_)
    rcases hp with hp | hp <;> rw [hp]

/-! ### Routing -/

theorem execPacketForward_of_waiting {die : Nat} {p : Packet} {src : Option Nat} {rest : List (Packet × Option Nat)} {s : State}
    (hd : die < 2) (hu : fabUp s = true) (hq : s.fab.rxq.getD die [] = (p, src) :: rest) :
    exec (.packetForward die) s
      = .next (routePacket (returnCredits { s with fab := { s.fab with rxq := s.fab.rxq.set die rest } } p src) die p) := by
  refine (onUnit_of_lt _ _ _ _ hd).trans (congrArg _ ?_)
  rw [if_neg (by simp [hu]), hq]

/-- Settles O44. -/
theorem routingCompletes : Obligations.RoutingCompletes := by
  refine ⟨?_, ?_, ?_, fun value s hu => ⟨fun hg => ⟨?_, ?_, ?_⟩, fun hg which hw => ?_⟩, fun value s hu hf hv => ?_, ?_⟩
  · intro die p src rest s hd hu hq t
    rw [execPacketForward_of_waiting hd hu hq]
    refine ⟨fun hb => congrArg _ (if_pos hb), fun hb h30 h31 has => ?_⟩
    have hk : ¬ (p.kind = 0x30 ∨ p.kind = 0x31) := by simp [h30, h31]
    rw [routePacket, if_neg (ne_true_of_eq_false hb), if_neg (by simpa using hk), if_neg (by simp [t] at has ⊢; exact has)]
    refine ⟨fun hdst => congrArg _ (if_pos hdst), fun hdst hh => congrArg _ ((if_neg hdst).trans (if_pos hh)), ?_⟩
    intro e tbl idx hdst hh hr
    rw [if_neg hdst, if_neg (by omega)]
    simp only [t] at hr
    dsimp only
    rw [hr]
    exact ⟨fun l hl => by rw [hl], fun hl => by rw [hl]⟩
  · intro link vc dl s hl k hlate hst
    refine (onUnit_of_lt _ _ _ _ hl).trans (congrArg _ (if_pos ?_))
    rw [Bool.and_eq_true]
    exact ⟨hlate, by rw [hst]; rfl⟩
  · intro req value s hu sel
    exact ⟨fun h => (whenUp_of_up _ _ hu).trans (congrArg _ (if_pos h)),
      fun h => (whenUp_of_up _ _ hu).trans (congrArg _ (if_neg (ne_true_of_eq_false h)))⟩
  · exact (whenUp_of_up _ _ hu).trans (congrArg _ (if_neg (by simp [hg])))
  · exact (whenUp_of_up _ _ hu).trans (congrArg _ (if_neg (by simp [hg])))
  · exact (whenUp_of_up _ _ hu).trans (congrArg _ (if_neg (by simp [hg])))
  · show execFabLshape which value s = _
    rw [execFabLshape, if_pos hw, whenUp_of_up _ _ hu]
    exact congrArg _ (if_pos (by rw [List.isEmpty_eq_false_iff.2 hg]; rfl))
  · exact (whenUp_of_up _ _ hu).trans (by rw [opDiscover, hv, hf]; rfl)
  · intro h plan report hd es p t u v s ha hp hr hrd hre hpl u1 hw
    refine (hostCmd_of_accepts _ _ _ _ _ ha).trans (congrArg _ ?_)
    rw [opCableCheck, if_neg (by simp [hp, hr]), hrd]
    dsimp only
    rw [hre]
    dsimp only
    rw [hpl]
    dsimp only
    rw [hw]

/-! ### The time counter -/

theorem opEqxReply_of_awaited {t1 t2 t3 t4 : Nat} {sync : Bool} {s : State} (hr : s.fab.eqxRoot = false)
    (hs : s.fab.eqxSentT1 = some t1) :
    let theta : Int := (((t2 : Int) - t1) - ((t4 : Int) - t3) - eqxAsym s) / 2
    let s1 := { s with fab := { s.fab with eqxSentT1 := none, eqxTheta := theta } }
    (s.fab.eqx = .unsync → sync = true → opEqxReply t1 t2 t3 t4 sync s = { s1 with fab := { s1.fab with
      eqx := .acquire, eqxGood := 0, counter := stepCounter s.fab.counter theta, eqxLastGood := s.now } }) ∧
    (s.fab.eqx ≠ .unsync → 8000 < theta.natAbs → opEqxReply t1 t2 t3 t4 sync s = eqxLost s1) ∧
    (s.fab.eqx = .acquire → theta.natAbs ≤ 32 → s.fab.eqxGood = 7 → sync = true →
      opEqxReply t1 t2 t3 t4 sync s = { s1 with fab := { s1.fab with
        eqxTrim := trimOf theta s.fab.eqxInterval, eqxTrimNs := 1000 * s.fab.eqxInterval, eqxFrac := 0, eqxGood := 8,
        eqx := .sync, eqxLastGood := s.now } }) := by
  intro theta s1
  have hgo : ¬ (s.fab.eqxRoot || decide (s.fab.eqxSentT1 ≠ some t1)) = true := by simp [hr, hs]
  unfold opEqxReply
  rw [if_neg hgo]
  dsimp only
  refine ⟨fun hq hsync => ?_, fun hq hbig => ?_, fun hq hsmall hgood hsync => ?_⟩
  · rw [hq, hsync]
    rfl
  · have hbig' : decide (8000 < theta.natAbs) = true := decide_eq_true hbig
    cases he : s.fab.eqx
    case unsync => exact absurd he hq
    all_goals exact if_pos hbig'
  · have hbig' : decide (8000 < theta.natAbs) = false := decide_eq_false (by omega)
    have hsmall' : decide (theta.natAbs ≤ 32) = true := decide_eq_true hsmall
    rw [hq]
    dsimp only
    rw [if_neg (ne_true_of_eq_false hbig'), if_pos hsmall', hgood, hsync]
    rfl

/-- Settles O45. -/
theorem equinoxCompletes : Obligations.EquinoxCompletes := by
  intro s
  refine ⟨fun hr hl hu hd => ?_, fun link t1 hl ha hu => ?_, ?_, fun hq hr hd => ?_, fun value hu hr => ?_, fun req hu hq => ?_⟩
  · refine congrArg Host.Outcome.next (if_neg ?_)
    simp [hr, hl, hu, hd]
  · exact (onUnit_of_lt _ _ _ _ hl).trans (congrArg _ (if_pos (by rw [ha, hu]; rfl)))
  · intro t1 t2 t3 t4 sync hr hs theta s1
    obtain ⟨hun, hlost, hgood⟩ := opEqxReply_of_awaited (t2 := t2) (t3 := t3) (t4 := t4) (sync := sync) hr hs
    have hrun : exec (.eqxReply t1 t2 t3 t4 sync) s = .next (opEqxReply t1 t2 t3 t4 sync s) := rfl
    rw [hrun]
    exact ⟨fun hq hy => congrArg _ (hun hq hy), fun hq hb => congrArg _ (hlost hq hb),
      fun hq hm hg hy => congrArg _ (hgood hq hm hg hy)⟩
  · refine congrArg Host.Outcome.next (if_pos ?_)
    simp [hq, hr, hd]
  · refine (whenUp_of_up _ _ hu).trans (congrArg _ ?_)
    rw [opEqxSet, hr]
    rfl
  · show execFabEqxTime req s = _
    rw [execFabEqxTime, if_neg (by simp [hq]), whenUp_of_up _ _ hu]

end Sys2Proof.Machine

end

