-- ==== Sys2Proof/Proofs/PowerAndTelemetry.lean ====
section
/-! SUPPORT. The module's states, its sweeps and watchdogs, the sideband, the security registers, and telemetry. -/

namespace Sys2Proof.Machine

/-! ### Power states -/

theorem dropTo_of_powered {s : State} (h : powered s.pwr.state = true) (cause : StbyCause) : dropTo s cause = enterStandby s cause :=
  if_pos h

theorem powered_ne_off {p : PwrState} (h : powered p = true) : p ≠ .off := by
  rintro rfl
  cases h

/-- Thaw goes on as its images, its PUF and the signing state allow (R424). -/
theorem thawSequence_eq (finds : ThawFinds) (s : State) :
    let u := modSec s fun x => { x with booted := (x.booted.set 0 (bootPick s 0)).set 1 (bootPick s 1) }
    thawSequence finds s = match bootPick s 0, bootPick s 1 with
      | none, _ => thawFails u 1
      | some _, none => thawFails u 2
      | some _, some _ =>
        if finds.pufOk = false then thawFails u 4
        else if s.sec.floorsMac = true ∧ s.sec.leafMac = true then thawEnds u finds
        else thawFails u 5 := by
  intro u
  unfold thawSequence
  simp only [u]
  cases bootPick s 0 with
  | none => rfl
  | some a =>
    cases bootPick s 1 with
    | none => rfl
    | some b =>
      cases finds.pufOk <;> cases s.sec.floorsMac <;> cases s.sec.leafMac <;> rfl

/-- Settles O46. -/
theorem powerStatesComplete : Obligations.PowerStatesComplete := by
  intro s
  refine ⟨fun mv slotId hs hm => ?_, fun mv hs hm => ?_, fun hp => ⟨fun mv hm => ?_, fun mv hm => ?_, fun rail hr => ?_, ?_⟩,
    fun hs hr ht => ?_, ?_, fun hs hi => ?_, fun hs => ⟨?_, fun hw => ?_⟩⟩
  · exact congrArg Host.Outcome.next (if_pos (by simp [hs, hm]))
  · exact congrArg Host.Outcome.next (if_pos (by simp [hs, hm]))
  · exact congrArg Host.Outcome.next ((if_pos hm).trans (dropTo_of_powered (s := modPwr s fun p => { p with inMv := mv }) hp _))
  · exact congrArg Host.Outcome.next ((if_pos hm).trans (dropTo_of_powered (s := modPwr s fun p => { p with inMv := mv }) hp _))
  · exact (onUnit_of_lt _ _ _ _ hr).trans (congrArg _ (dropTo_of_powered hp _))
  · have hoff : (s.pwr.state == .off) = false := beq_eq_false_iff_ne.2 (powered_ne_off hp)
    refine congrArg Host.Outcome.next ?_
    simp only [modPwr, hoff, Bool.false_eq_true, if_false]
    exact if_pos hp
  · exact congrArg Host.Outcome.next (if_pos (by simp [hs, hr, ht]))
  · intro finds hs hk hf u
    show execThawSequence finds s = _
    rw [execThawSequence, if_neg (ne_true_of_eq_false hk), if_neg (ne_true_of_eq_false hf), if_pos (by rw [hs]; rfl)]
    exact congrArg _ (thawSequence_eq finds s)
  · refine congrArg Host.Outcome.next ?_
    rw [opIdleReq, if_pos (by rw [hs]; rfl)]
    simp only [modPwr, hi, Bool.false_and]
  · refine (whenUp_of_up _ _ (by rw [hs]; rfl)).trans (congrArg _ ?_)
    rw [opPwrWake]
    simp only [modPwr, hs, Bool.or_true, show (PwrState.idle != .active) = true from rfl]
  · exact congrArg Host.Outcome.next (if_pos (by simp [hs, hw]))

/-! ### Sweeps and watchdogs -/

theorem execSensorSweep_of_on {s : State} (w : Sweep) (h : s.pwr.state ≠ .off) : exec (.sensorSweep w) s = .next (sensorSweep w s) :=
  congrArg Host.Outcome.next (if_neg (by simpa using h))

theorem execCluWdogExpiry_of_due {cluster : Nat} {s : State} (hc : cluster < 16) (hk : coresClocked s.pwr.state = true)
    (hm : (clusterAt s cluster).wdogMs ≠ 0#32)
    (hd : (clusterAt s cluster).wdogAt + 1000000 * (clusterAt s cluster).wdogMs.toNat ≤ s.now) :
    let s1 := modCluster s cluster fun x => { x with ctlResets := x.ctlResets + 1, wdogAt := s.now, resv := none }
    exec (.cluWdogExpiry cluster) s = .next (alarm (match bound s1 .walk cluster with
      | some b => haltStation s1 b .internal
      | none => s1) 11 cluster) := by
  intro s1
  refine (onUnit_of_lt _ _ _ _ hc).trans (congrArg _ (if_pos ?_))
  rw [hk, bne_iff_ne.2 hm, decide_eq_true hd]
  rfl

/-- Settles O47. -/
theorem sweepAndWatchdogs : Obligations.SweepAndWatchdogs := by
  intro s
  refine ⟨?_, fun value hu => ⟨fun hl => ?_, fun hl => ?_⟩, ?_, fun cluster hc hu => ?_, fun hs => ?_⟩
  · intro w s1
    refine ⟨fun hp ht => ?_, fun hu ht => ?_, fun hs => ?_⟩
    · rw [execSensorSweep_of_on w (powered_ne_off hp)]
      exact congrArg _ (if_pos (by rw [hp, Bool.true_and]; exact ht))
    · have hon : s.pwr.state ≠ .off := by
        intro h
        rw [h] at hu
        cases hu
      rw [execSensorSweep_of_on w hon]
      refine congrArg _ ((if_neg ?_).trans (if_pos hu))
      rw [show trips (inputSample (takeSweep s w) s.pwr.inMv) (inputSample (takeSweep s w) s.pwr.inMv).thm.temps = false from ht,
        Bool.and_false]
      exact Bool.false_ne_true
    · rw [execSensorSweep_of_on w (by rw [hs]; decide)]
      exact congrArg _ ((if_neg (by rw [hs]; exact Bool.false_ne_true)).trans (if_neg (by rw [hs]; exact Bool.false_ne_true)))
  · exact (whenUp_of_up _ _ hu).trans (congrArg _ (if_neg (ne_true_of_eq_false hl)))
  · exact (whenUp_of_up _ _ hu).trans (congrArg _ (if_pos hl))
  · intro cluster hc hk hm hd s1
    have hrun := execCluWdogExpiry_of_due hc hk hm hd
    exact ⟨fun hb => hrun.trans (by rw [hb]), fun b hb => hrun.trans (by rw [hb])⟩
  · show execCluWdogKick cluster s = _
    rw [execCluWdogKick, if_pos hu]
    exact onUnit_of_lt _ _ _ _ hc
  · exact congrArg Host.Outcome.next (if_neg (by simpa using hs))

/-! ### The sideband -/

/-- A request that the controller serves runs with the last answer dropped (R454). -/
theorem sideband_of_served {s : State} (h : sbServed s = true) (hr : s.pwr.romMonitor = false) (rom : Bool) (run : State → State) :
    sideband s rom run = .next (run (modSec s fun x => { x with sbAnswer := none })) := by
  have hgo : (!sbServed s || (s.pwr.romMonitor && !rom)) = false := by rw [h, hr]; rfl
  exact if_neg (ne_true_of_eq_false hgo)

/-- Settles O48. -/
theorem sidebandCompletes : Obligations.SidebandCompletes := by
  intro s hs hr t
  have hrun (rom : Bool) (run : State → State) : sideband s rom run = .next (run t) := sideband_of_served hs hr rom run
  refine ⟨fun offset pkg ho hp => ?_, fun offset ho => ⟨?_, fun value => ?_⟩, fun hst hm hre hth => ?_, fun hp => ?_, fun hi => ?_,
    fun kind h1 h3 hst => ?_, fun k b hst => ⟨fun offset data hl hb => ?_, ?_⟩, fun offset data hl hb => ?_, ?_,
    fun nonce cert hu => ?_, fun offset ho => ?_⟩
  · have hgo : (pkg && !powered t.pwr.state) = false := by
      cases pkg with
      | false => rfl
      | true => rw [show powered t.pwr.state = true from hp rfl]; rfl
    refine ⟨?_, fun value hw => ?_⟩
    · show execRead32 offset s = _
      rw [execRead32, hrun, ho]
      exact congrArg _ (if_neg (ne_true_of_eq_false hgo))
    · show execWrite32 offset value s = _
      rw [execWrite32, hrun, ho]
      dsimp only
      rw [if_neg (ne_true_of_eq_false hgo), if_pos hw]
  · show execRead32 offset s = _
    rw [execRead32, hrun, ho]
  · show execWrite32 offset value s = _
    rw [execWrite32, hrun, ho]
  · show execThaw s = _
    rw [execThaw, hrun]
    refine congrArg _ (if_pos ?_)
    show (s.pwr.state == .standby && s.pwr.modRstN && s.pwr.resetAt.isNone && thawOk s) = true
    rw [hst, hm, hre, hth]
    rfl
  · show execShutdown s = _
    rw [execShutdown, hrun]
    exact congrArg _ (if_pos hp)
  · show execWake s = _
    rw [execWake, hrun]
    exact congrArg _ (if_pos (beq_iff_eq.2 hi))
  · have hst' : ¬ t.sec.stage.isSome = true := by rw [show t.sec.stage = none from hst]; exact Bool.false_ne_true
    show execStageOpen kind s = _
    rw [execStageOpen, hrun, if_neg hst', if_neg (by omega)]
  · show execStageData offset data s = _
    rw [execStageData, hrun, show t.sec.stage = some (k, b) from hst]
    exact congrArg _ (if_neg (fun h => h.elim (fun h => h hl) fun h => absurd hb (Nat.not_le.2 h)))
  · intro length u
    show execStageClose length s = _
    rw [execStageClose, hrun, show t.sec.stage = some (k, b) from hst]
  · show execOwnerData offset data s = _
    rw [execOwnerData, hrun]
    exact congrArg _ (if_neg (fun h => h.elim (fun h => h hl) fun h => absurd hb (Nat.not_le.2 h)))
  · show execOwnerCommit s = _
    rw [execOwnerCommit, hrun]
  · show execAttest nonce cert s = _
    rw [execAttest, hrun]
    exact congrArg _ (if_pos hu)
  · show execAttestRead offset s = _
    rw [execAttestRead, hrun]
    exact congrArg _ (if_neg (Nat.not_le.2 ho))

/-! ### The security registers -/

/-- With the trees ready and nothing waiting, a request is served at once (R431). -/
theorem attQueue_of_ready {s : State} (hw : s.sec.attWait = []) (ht : s.sec.treesReady = true) (r : Option (Bytes × Bool)) :
    attQueue s r = attServe (modSec s fun x => { x with attWait := [] }) r := by
  have hlen : (modSec s fun x => { x with attWait := x.attWait ++ [r] }).sec.attWait = [r] := by
    show s.sec.attWait ++ [r] = [r]
    rw [hw]
    rfl
  have hready : (s.sec.treesReady || decide (2 ^ 35 ≤ s.sec.leaf)) = true := by rw [ht]; rfl
  rw [attQueue, attAll, hlen]
  show attRun 1 _ = _
  rw [attRun, hlen]
  exact if_pos hready

/-- While nothing waits there is nothing to serve. -/
theorem attAll_of_empty {s : State} (h : s.sec.attWait = []) : attAll s = s := by
  rw [attAll, h]
  rfl

theorem attServe_of_written {t v : State} (ha : argOk t.sec.attAddr = true) (hl : t.sec.leaf < 2 ^ 35)
    (hw : argWrite (spendLeaf t) t.sec.attAddr (attestBytes t (leBytes 32 t.sec.attNonce.toNat) t.sec.attCert t.sec.leaf) = .ok v) :
    attServe t none = attHostEnd v .ok := by
  unfold attServe
  dsimp only
  rw [if_neg (by rw [ha]; exact Bool.false_ne_true), if_neg (Nat.not_le.2 hl), hw]

/-- Settles O49. -/
theorem securityCommandsComplete : Obligations.SecurityCommandsComplete := by
  intro s hu
  refine ⟨fun value hv => ⟨?_, ?_⟩, ?_, fun value hv => ?_, ?_, fun hw => ?_, fun hl => ?_⟩
  · exact (whenUp_of_up _ _ hu).trans (congrArg _ (if_neg (ne_true_of_eq_false hv)))
  · exact (whenUp_of_up _ _ hu).trans (congrArg _ (if_neg (ne_true_of_eq_false hv)))
  · intro value hv t u
    refine ⟨(whenUp_of_up _ _ hu).trans (congrArg _ (if_pos hv)), fun v o hr => ?_⟩
    refine (whenUp_of_up _ _ hu).trans (congrArg _ ((if_pos hv).trans ?_))
    rw [show argRead (modSec s fun x => { x with ownerDone := x.ownerDone && !bit value.toNat 17 }) _ 8008 = (v, .ok o) from hr]
  · refine (whenUp_of_up _ _ hu).trans (congrArg _ (if_neg ?_))
    rcases hv with h | h <;> simp [h]
  · intro value hv hb hw ht t
    have hrun : exec (.secAttCtrl value) s = .next (attServe t none) := by
      refine (whenUp_of_up _ _ hu).trans (congrArg _ ((if_pos (by rw [hv, hb]; rfl)).trans ?_))
      exact attQueue_of_ready (s := modSec s fun x =>
        { x with attCert := bit value.toNat 1, attDone := x.attDone && !bit value.toNat 17, attBusy := true }) hw ht none
    exact ⟨hrun, fun v ha hl hv => hrun.trans (congrArg _ (attServe_of_written (t := t) ha hl hv))⟩
  · exact (whenUp_of_up _ _ hu).trans (congrArg _ (attAll_of_empty (s := modSec s fun x => { x with treesReady := true }) hw))
  · exact (whenUp_of_up _ _ hu).trans (congrArg _ (if_pos (decide_eq_true hl)))

/-! ### Telemetry -/

theorem ringRead_of_ok {s r : State} {a : Nat} {b : Bytes} (h : memRead s a 32 = (r, .ok b)) : ringRead s a = (r, b) := by
  unfold ringRead
  dsimp only
  rw [h]

/-- A latch of a number whose bit is set, of the 22 alarms, is cleared (R408). -/
theorem opAlarmSum_latch (value : Dword) (s : State) (n : Nat) (h : n < s.tel.latches.length) :
    (opAlarmSum value s).tel.latches[n]? = if n < 22 ∧ bit value.toNat n then some ⟨0#64, 0#16, 0#48⟩ else s.tel.latches[n]? := by
  have hn : s.tel.latches[n]? = some s.tel.latches[n] := List.getElem?_eq_getElem h
  simp only [opAlarmSum, modTel, List.getElem?_map, numbered_getElem?, hn, Option.map_some, Nat.zero_add, Bool.and_eq_true,
    decide_eq_true_eq]
  split <;> rfl

theorem opAlarmSum_length (value : Dword) (s : State) : (opAlarmSum value s).tel.latches.length = s.tel.latches.length := by
  have hnum {α : Type} (l : List α) : ∀ i, (numbered l i).length = l.length := by
    induction l with
    | nil => exact fun _ => rfl
    | cons x t ih => exact fun i => congrArg (· + 1) (ih (i + 1))
  simp only [opAlarmSum, modTel, List.length_map, hnum]

/-- Settles O50. -/
theorem telemetryCompletes : Obligations.TelemetryCompletes := by
  intro s hu
  refine ⟨fun value => ⟨_, whenUp_of_up _ _ hu, rfl, opAlarmSum_length value s, opAlarmSum_latch value s⟩,
    fun value => ⟨fun ho hv => ?_, fun ho hv => ?_, fun ho hv => ?_, fun ho hv => ?_⟩, fun e rest b r hq hr => ?_,
    fun b r hq hc hr => ?_, fun hd => ?_, fun he hp hd => ?_⟩
  · exact (whenUp_of_up _ _ hu).trans (congrArg _ ((if_pos ho).trans (if_pos (beq_iff_eq.2 hv))))
  · exact (whenUp_of_up _ _ hu).trans (congrArg _ ((if_pos ho).trans (if_neg (fun h => hv (beq_iff_eq.1 h)))))
  · exact (whenUp_of_up _ _ hu).trans (congrArg _ ((if_neg (ne_true_of_eq_false ho)).trans (if_pos hv)))
  · exact (whenUp_of_up _ _ hu).trans (congrArg _ ((if_neg (ne_true_of_eq_false ho)).trans (if_neg (Nat.not_le.2 hv))))
  · refine (whenUp_of_up _ _ hu).trans (congrArg _ ?_)
    unfold mirrorCopy
    rw [hq]
    dsimp only
    rw [ringRead_of_ok hr]
  · refine (whenUp_of_up _ _ hu).trans (congrArg _ ?_)
    unfold mirrorCopy
    rw [hq]
    dsimp only
    rw [if_neg hc, ringRead_of_ok hr]
  · exact (whenUp_of_up _ _ hu).trans (congrArg _ (if_pos hd))
  · refine (whenUp_of_up _ _ hu).trans (congrArg _ (if_pos ?_))
    rw [he, bne_iff_ne.2 hp, decide_eq_true hd]
    rfl

/-! ### Reset -/

/-- Settles O56. -/
theorem resetState : Obligations.ResetState := by
  unfold Obligations.ResetState
  decide

end Sys2Proof.Machine

end
